-- ==== Sys2Proof/Word.lean ====
section
/-! DEFINITION. The word types of the part: bytes, 16-bit fields and times in steps of 100 ms. -/

namespace Sys2Proof

/-- One byte of a frame; also a counting head's count (R42: 0 to 255, wrapping). -/
abbrev Byte := BitVec 8

/-- A 16-bit field: sequence and indication numbers (R158), station codes, counters (R18, R28, R157). -/
abbrev Word16 := BitVec 16

/-- A time in steps of 100 ms (00_scope section 4.2). -/
abbrev Ticks := Nat

/-- A saturating increment of a 16-bit counter (00_scope section 4.6): 65535 stays. -/
def satInc (w : Word16) : Word16 := if w = 0xFFFF then w else w + 1

end Sys2Proof
end

