-- ==== Sys2Proof/Syntax.lean ====
section
/-! DEFINITION. The commands: one constructor of Instr per row of spec/opcode_table.json, and the types of
what a command brings from outside (telegram bodies, field answers, the configuration image). -/

namespace Sys2Proof

/-! ### Names the rules share -/

/-- The two operator links, OL-C and OL-L. -/
inductive OpLink | olC | olL
  deriving DecidableEq, Repr

/-- A boundary link BL0 to BL3. -/
abbrev BLink := Fin 4

/-- A point position, N or R. -/
inductive Pos | n | r
  deriving DecidableEq, Repr

/-- Element kinds (R1). -/
inductive ElemKind | point | signal | track | boundary
  deriving DecidableEq, Repr

/-- The roles of a lock (R3). -/
inductive Role | path | overlap
  deriving DecidableEq, Repr

/-- The aspects the LKC commands (R2). -/
inductive Aspect | stop | proceed
  deriving DecidableEq, Repr

/-- Section states (R45). -/
inductive Occ | clear | occupied | disturbed | resetPending
  deriving DecidableEq, Repr

/-- Classes of a route (R63). -/
inductive RouteClass | main | shunt | boundaryOut | boundaryIn
  deriving DecidableEq, Repr

/-- Line directions (R165). -/
inductive Dir | outward | inward | none
  deriving DecidableEq, Repr

/-- Kinds of field unit (section 2.1). -/
inductive UnitKind | ch | pdu | sdu
  deriving DecidableEq, Repr

/-- Orientation of a detection point toward a section (R43): +1 or −1. -/
inductive Orient | plus | minus
  deriving DecidableEq, Repr

/-! ### Field units (section 2.1) -/

/-- Reasons of a REJECT. -/
inductive RejectReason | wrongKind | localMode | unitFault
  deriving DecidableEq, Repr

/-- Detection as a PDU reports it. -/
inductive PduDetection | detN | detR | moving | noDetection
  deriving DecidableEq, Repr

/-- Aspect as an SDU reports it. -/
inductive SduAspect | stop | proceed | dark
  deriving DecidableEq, Repr

/-- What the TBC sends to a unit, or to address 255 (11.3.3). -/
inductive TrackTelegram
  | poll
  | throwTo (p : Pos)
  | showAs (a : Aspect)
  | allStop
  deriving DecidableEq, Repr

/-- The body of a unit's answer (11.3.3). -/
inductive AnswerBody
  | reportCh (a b : Byte) (sensorFault : Bool)
  | reportPdu (d : PduDetection) (localFlag : Bool)
  | reportSdu (a : SduAspect) (lampFault : Bool)
  | ack
  | reject (r : RejectReason)
  deriving DecidableEq, Repr

/-- The order in which the section changes of one command are written by the LKC, which R55 leaves open:
each listed section in turn, with whether the RIM takes its notices before the next change is written (R121).
Changes of sections not listed follow, those of a round-complete in ascending number and those of a failed detection point
in the order of its list of borders, and the RIM takes their notices at the end (log entry 6). -/
abbrev Schedule := List (Nat × Bool)

/-- What the scrub finds at the record under its pointer (R18). -/
inductive ScrubResult | correct | correctable | uncorrectable
  deriving DecidableEq, Repr

/-! ### Boundary telegrams (11.3.2) -/

/-- Reasons of ACCEPT-REFUSE. -/
inductive RefuseReason | link | direction | closed | full | unknown | unavailable
  deriving DecidableEq, Repr

/-- The body of STATUS (R166): 0 or 1 pending references. -/
structure StatusBody where
  lineClear : Bool
  direction : Dir
  pendingRefs : List Nat
  deriving DecidableEq, Repr

/-- The body of HOLDINGS (R169). -/
structure HoldingsBody where
  direction : Dir
  acceptancesGiven : List Nat
  acceptancesReceived : List Nat
  assurancesGiven : List Nat
  assurancesReceived : List Nat
  deriving DecidableEq, Repr

/-- The boundary telegram kinds, in the order of 11.3.2. -/
inductive BoundaryTelegram
  | status (b : StatusBody)
  | holdings (b : HoldingsBody)
  | dirAsk
  | dirGive
  | dirRefuse
  | acceptAsk (ref : Nat)
  | acceptGive (ref : Nat)
  | acceptRefuse (ref : Nat) (r : RefuseReason)
  | acceptWithdraw (ref : Nat)
  | trainHanded (ref : Nat)
  | acceptEnd (ref : Nat)
  | flankAsk (ref : Nat)
  | flankGive (ref : Nat)
  | flankRefuse (ref : Nat)
  | flankDrop (ref : Nat)
  | notPermitted (kind : Byte)
  deriving DecidableEq, Repr

/-! ### Route definitions (R62 to R64) -/

/-- A point of a path item or overlap with its required position. -/
structure PointReq where
  point : Nat
  pos : Pos
  deriving DecidableEq, Repr

/-- A path item, or the overlap: one section followed by its points. -/
structure PathItem where
  sect : Nat
  points : List PointReq
  deriving DecidableEq, Repr

/-- A POINT or SIGNAL alternative of a flank item: a point in a position, or a signal at STOP. -/
inductive FlankTarget
  | point (e : Nat) (p : Pos)
  | signal (e : Nat)
  deriving DecidableEq, Repr

/-- The primary of a flank item. -/
inductive FlankPrimary
  | claim (t : FlankTarget)
  | boundary (b : BLink) (ref : Nat)
  deriving DecidableEq, Repr

/-- A flank item (R64). -/
structure FlankItem where
  primary : FlankPrimary
  protects : Nat
  subs : List FlankTarget
  deriving DecidableEq, Repr

/-- A route definition (R62). Times in steps of 100 ms. -/
structure RouteDef where
  number : Nat
  cls : RouteClass
  entry : Nat
  exit : Nat
  rank : Nat
  path : List PathItem
  overlap : Option PathItem
  flank : List FlankItem
  approach : List Nat
  approachTime : Ticks
  overlapTime : Ticks
  inRef : Option Nat
  deriving DecidableEq, Repr

/-! ### The configuration image (section 11.1) -/

/-- An entry of the element block. -/
inductive ElemCfgKind
  | point (containing : List Nat) (retries : Nat) (supervision : Ticks)
  | signal
  | track
  | boundary (link : BLink) (used : Bool)
  deriving DecidableEq, Repr

structure ElemCfg where
  number : Nat
  area : Nat
  kind : ElemCfgKind
  deriving DecidableEq, Repr

/-- An entry of the unit block: the served detection point, point or signal. -/
structure UnitCfg where
  address : Nat
  kind : UnitKind
  serves : Nat
  deriving DecidableEq, Repr

/-- An entry of the detection point block. -/
structure DpCfg where
  number : Nat
  head : Nat
  borders : List (Nat × Orient)
  boundaryMark : Bool
  deriving DecidableEq, Repr

/-- An entry of the section block. -/
structure SectCfg where
  sect : Nat
  points : List (Nat × Orient)
  deriving DecidableEq, Repr

/-- An entry of the boundary block. -/
structure BoundaryCfg where
  link : BLink
  used : Bool
  senior : Bool
  lineSections : List Nat
  outRefs : List (Nat × Nat)
  offers : List (Nat × FlankTarget)
  neighbour : Word16
  deriving DecidableEq, Repr

/-- The image as the CFL reads it. `readable`: every read completed; `reachesCounters`: the stated length
reaches into the counter area; `checkAgrees`: the 32-bit image check agrees. -/
structure Image where
  readable : Bool
  reachesCounters : Bool
  checkAgrees : Bool
  formatVersion : Nat
  stationCode : Word16
  settingTime : Ticks
  tolerance : Nat
  stackLifetime : Ticks
  elements : List ElemCfg
  units : List UnitCfg
  dps : List DpCfg
  sections : List SectCfg
  routes : List RouteDef
  boundaries : List BoundaryCfg
  deriving DecidableEq, Repr

/-! ### Persistent counters (R163, section 11.2) -/

/-- A 16-bit saturating counter with its saturation mark (R157, R163). -/
structure SatCounter where
  value : Word16
  mark : Bool
  deriving DecidableEq, Repr

/-- The six counters of the AOU with their marks. -/
structure AouCounters where
  emergencyRelease : SatCounter
  sectionReset : SatCounter
  suspectClear : SatCounter
  authForce : SatCounter
  boundaryRelease : SatCounter
  coldStart : SatCounter
  deriving DecidableEq, Repr

/-! ### The commands -/

/-- One constructor per row of spec/opcode_table.json, in the table's order. -/
inductive Instr
  /-- COLD_START (R185). -/
  | coldStart
  /-- LOAD_COMPLETE (R185): the image as read, and the counter record if it could be read and its check agrees. -/
  | loadComplete (img : Image) (counters : Option AouCounters)
  /-- COUNTER_WRITE_COMPLETE (R189): the record read back; absent where the write did not complete, or the record read
  back has a check that does not agree. -/
  | counterWriteComplete (readBack : Option AouCounters)
  /-- SCRUB_CHECK (R18). -/
  | scrubCheck (found : ScrubResult)
  /-- ROUND_START (R23). -/
  | roundStart
  /-- COMMAND_EXCHANGE_START (R26). -/
  | commandExchangeStart
  /-- POLL_EXCHANGE_END (R23): the bytes that arrived within 2 ms (R22, R190). -/
  | pollExchangeEnd (frame : List Byte) (order : Schedule)
  /-- COMMAND_EXCHANGE_END (R27): the bytes that arrived within 2 ms (R22, R190). -/
  | commandExchangeEnd (frame : List Byte)
  /-- EXCHANGE_ANSWER_TIMEOUT (R22). -/
  | exchangeAnswerTimeout (order : Schedule)
  /-- SUPERVISION_TIMER_EXPIRY (R33). -/
  | supervisionTimerExpiry (point : Nat)
  /-- CONFIRMATION_TIMER_EXPIRY (R37). -/
  | confirmationTimerExpiry (signal : Nat)
  /-- OPERATOR_TELEGRAM_ARRIVAL (R155): the bytes of the frame. -/
  | operatorTelegramArrival (link : OpLink) (frame : List Byte)
  /-- UNKNOWN_REQUEST_KIND (R155). -/
  | unknownRequestKind (link : OpLink)
  /-- REPLY_TRANSMIT (R158). -/
  | replyTransmit (link : OpLink)
  /-- SEND_INDICATION (R158). -/
  | sendIndication (link : OpLink)
  /-- SET_ROUTE (R68). -/
  | setRoute (link : OpLink)
  /-- PRESS (R76). -/
  | press (link : OpLink)
  /-- SELECTION_TIMER_EXPIRY (R77). -/
  | selectionTimerExpiry (link : OpLink)
  /-- CANCEL_ROUTE (R130). -/
  | cancelRoute (link : OpLink)
  /-- RE_CLEAR (R97). -/
  | reClear (link : OpLink)
  /-- STORE_CANCEL (R144). -/
  | storeCancel (link : OpLink)
  /-- STOP_AREA (R99). -/
  | stopArea (link : OpLink)
  /-- POINT_THROW (R36). -/
  | pointThrow (link : OpLink)
  /-- POINT_RESET (R36). -/
  | pointReset (link : OpLink)
  /-- SIGNAL_RESET (R41). -/
  | signalReset (link : OpLink)
  /-- BLOCK (R5). -/
  | block (link : OpLink)
  /-- UNBLOCK (R5). -/
  | unblock (link : OpLink)
  /-- BOUNDARY_OPEN (R176). -/
  | boundaryOpen (link : OpLink)
  /-- BOUNDARY_CLOSE (R176). -/
  | boundaryClose (link : OpLink)
  /-- DIR_REQUEST (R173). -/
  | dirRequest (link : OpLink)
  /-- AUX_ISSUE (R161). -/
  | auxIssue (link : OpLink)
  /-- AUX_CONFIRM (R162). -/
  | auxConfirm (link : OpLink)
  /-- AUX_WINDOW_EXPIRY (R161). -/
  | auxWindowExpiry (link : OpLink)
  /-- AUTH_TAKE (R149). -/
  | authTake (link : OpLink)
  /-- AUTH_OFFER (R150). -/
  | authOffer (link : OpLink)
  /-- AUTH_RETURN (R151). -/
  | authReturn (link : OpLink)
  /-- OFFER_TIMER_EXPIRY (R150). -/
  | offerTimerExpiry (area : Nat)
  /-- FORCE_TIMER_EXPIRY (R152). -/
  | forceTimerExpiry (area : Nat)
  /-- READ_ROUTE (R66). -/
  | readRoute (link : OpLink)
  /-- READ_COUNTERS (R157). -/
  | readCounters (link : OpLink)
  /-- SNAPSHOT (R160). -/
  | snapshot (link : OpLink)
  /-- SETTING_TIMER_EXPIRY (R82). -/
  | settingTimerExpiry (inst : Nat)
  /-- OVERLAP_TIMER_EXPIRY (R127). -/
  | overlapTimerExpiry (inst : Nat)
  /-- APPROACH_TIMER_EXPIRY (R132). -/
  | approachTimerExpiry (inst : Nat)
  /-- EMERGENCY_TIMER_EXPIRY (R135). -/
  | emergencyTimerExpiry (inst : Nat)
  /-- RETEST_REQUEST (R140). -/
  | retestRequest
  /-- LIFETIME_TIMER_EXPIRY (R143): the route number of the entry. -/
  | lifetimeTimerExpiry (route : Nat)
  /-- INCOMING_ACCEPTANCE_REQUEST (R78). -/
  | incomingAcceptanceRequest
  /-- STATUS_TIMER_EXPIRY (R166). -/
  | statusTimerExpiry (b : BLink)
  /-- BOUNDARY_FRAME_DISCARDED (R167): the bytes of the frame whose check is wrong (R190). -/
  | boundaryFrameDiscarded (b : BLink) (frame : List Byte)
  /-- OPERATOR_REQUEST_ON_BOUNDARY (R167): the kind byte of the request. -/
  | operatorRequestOnBoundary (b : BLink) (kind : Byte)
  /-- STATUS_RECEIVED (R166). -/
  | statusReceived (b : BLink) (body : StatusBody)
  /-- HOLDINGS_RECEIVED (R169). -/
  | holdingsReceived (b : BLink) (body : HoldingsBody)
  /-- SILENCE_TIMER_EXPIRY (R168). -/
  | silenceTimerExpiry (b : BLink)
  /-- HOLDINGS_RESPONSE_TIMER_EXPIRY (R169). -/
  | holdingsResponseTimerExpiry (b : BLink)
  /-- DIR_ASK_RECEIVED (R174). -/
  | dirAskReceived (b : BLink)
  /-- DIR_GIVE_RECEIVED (R173). -/
  | dirGiveReceived (b : BLink)
  /-- DIR_REFUSE_RECEIVED (R173). -/
  | dirRefuseReceived (b : BLink)
  /-- DIR_RESPONSE_TIMER_EXPIRY (R173). -/
  | dirResponseTimerExpiry (b : BLink)
  /-- ACCEPT_ASK_RECEIVED (R179). -/
  | acceptAskReceived (b : BLink) (ref : Nat)
  /-- ACCEPT_GIVE_RECEIVED (R177). -/
  | acceptGiveReceived (b : BLink) (ref : Nat)
  /-- ACCEPT_REFUSE_RECEIVED (R177). -/
  | acceptRefuseReceived (b : BLink) (ref : Nat) (reason : RefuseReason)
  /-- ACCEPT_RESPONSE_TIMER_EXPIRY (R177): the instance of the awaiting ask. -/
  | acceptResponseTimerExpiry (b : BLink) (inst : Nat)
  /-- ACCEPT_WITHDRAW_RECEIVED (R180). -/
  | acceptWithdrawReceived (b : BLink) (ref : Nat)
  /-- TRAIN_HANDED_RECEIVED (R180). -/
  | trainHandedReceived (b : BLink) (ref : Nat)
  /-- ACCEPT_END_RECEIVED (R180). -/
  | acceptEndReceived (b : BLink) (ref : Nat)
  /-- FLANK_ASK_RECEIVED (R114). -/
  | flankAskReceived (b : BLink) (ref : Nat)
  /-- FLANK_GIVE_RECEIVED (R181). -/
  | flankGiveReceived (b : BLink) (ref : Nat)
  /-- FLANK_REFUSE_RECEIVED (R181). -/
  | flankRefuseReceived (b : BLink) (ref : Nat)
  /-- FLANK_DROP_RECEIVED (R182). -/
  | flankDropReceived (b : BLink) (ref : Nat)
  /-- FLANK_RESPONSE_TIMER_EXPIRY (R181): the instance and flank item of the ASKING entry. -/
  | flankResponseTimerExpiry (b : BLink) (inst : Nat) (item : Nat)
  /-- RELEASE_TIMER_EXPIRY (R183). -/
  | releaseTimerExpiry (b : BLink)
  deriving DecidableEq, Repr

end Sys2Proof
end

