-- ==== Sys2Proof/Decode.lean ====
section
/-! DEFINITION. The table decoder: no row of spec/opcode_table.json gives bits, so no word spells a command. -/

namespace Sys2Proof

/-- The command a word spells by the table's bits. The table's rows are events and give none. -/
def decodeTableWord (_nbits _w : Nat) : Option Instr := none

end Sys2Proof
end

