-- ==== Sys2Proof/Machine/Records.lean ====
section
/-! DEFINITION. The records the blocks hold: element records, flank claims, drives, units, detection points,
sections, route instances, store entries, areas, operator links and boundary links. -/

namespace Sys2Proof.Machine

/-- A timer: stopped, running or frozen with a remaining time (00_scope section 4.2, R29). -/
inductive Timer
  | stopped
  | running (left : Ticks)
  | frozen (left : Ticks)
  deriving DecidableEq, Repr

/-- The load state (R185); the code of CONFIG_FAULT is that of R186. -/
inductive LoadState
  | loading
  | operating
  | configFault (code : Nat)
  deriving DecidableEq, Repr

/-! ### Element records (R2, R3) -/

/-- Detection as a point's record holds it. -/
inductive Detection | detN | detR | moving | noDetection | unknown
  deriving DecidableEq, Repr

/-- Shown aspect as a signal's record holds it. -/
inductive Shown | stop | proceed | dark | unknown
  deriving DecidableEq, Repr

/-- The lock slot of a point (R3). -/
inductive PointLock
  | empty
  | held (inst : Nat) (role : Role) (pos : Pos)
  | unknown
  deriving DecidableEq, Repr

/-- The lock slot of a section (R3). -/
inductive TrackLock
  | empty
  | held (inst : Nat) (role : Role)
  | unknown
  deriving DecidableEq, Repr

/-- An ENTRY or EXIT slot (R3). -/
inductive Slot
  | empty
  | held (inst : Nat)
  | unknown
  deriving DecidableEq, Repr

structure PointRec where
  area : Nat
  containing : List Nat
  retries : Nat
  supervision : Ticks
  detection : Detection
  localMode : Bool
  failed : Bool
  next : Option Pos
  lock : PointLock
  flankRef : Option Nat
  block : Bool
  suspect : Bool
  deriving DecidableEq, Repr

structure SignalRec where
  area : Nat
  shown : Shown
  commanded : Aspect
  lampFault : Bool
  failed : Bool
  entrySlot : Slot
  exitSlot : Slot
  flankRef : Option Nat
  block : Bool
  suspect : Bool
  deriving DecidableEq, Repr

structure TrackRec where
  area : Nat
  occupancy : Occ
  lock : TrackLock
  block : Bool
  suspect : Bool
  deriving DecidableEq, Repr

structure BoundaryRec where
  area : Nat
  link : BLink
  unused : Bool
  entrySlot : Slot
  exitSlot : Slot
  suspect : Bool
  deriving DecidableEq, Repr

/-- A record of the Element Table (R1, R2) but for its check word, which Lkc.checks holds. -/
inductive Element
  | unconfigured
  | point (p : PointRec)
  | signal (g : SignalRec)
  | track (t : TrackRec)
  | boundary (b : BoundaryRec)
  deriving DecidableEq, Repr

/-! ### Flank Claim Table (R101, R102) -/

/-- The required state of a claimed element. -/
inductive FlankState | pos (p : Pos) | stop
  deriving DecidableEq, Repr

/-- A claimant (R102): flank item index 1 to 8, or a boundary link with a reference. -/
inductive Claimant
  | route (inst item : Nat)
  | boundary (b : BLink) (ref : Nat)
  deriving DecidableEq, Repr

structure FctEntry where
  element : Nat
  required : FlankState
  claimants : List Claimant
  deriving DecidableEq, Repr

/-! ### Point drives and signal commands (R29, R37, R39) -/

inductive DriveState | active | paused
  deriving DecidableEq, Repr

/-- A point drive record (R29). -/
structure Drive where
  target : Pos
  attemptsLeft : Nat
  timer : Timer
  state : DriveState
  operatorMark : Bool
  deriving DecidableEq, Repr

/-- What the LKC keeps with a signal (section 2.6): the command record, which is its confirmation timer,
and whether a SHOW(STOP) is outstanding. -/
structure SignalCmd where
  awaiting : Timer
  stopOutstanding : Bool
  deriving DecidableEq, Repr

/-! ### Trackside bus (R21 to R28) -/

/-- A row of the unit table (R21). -/
structure UnitRow where
  address : Nat
  kind : UnitKind
  serves : Nat
  reachable : Bool
  misses : Nat
  deriving DecidableEq, Repr

/-- A queued command (R25). -/
structure QueuedCmd where
  address : Nat
  telegram : TrackTelegram
  age : Nat
  misses : Nat
  deriving DecidableEq, Repr

/-- An exchange in flight (R22): a POLL, or the queued command with the given age stamp. -/
inductive Exchange
  | poll (address : Nat)
  | command (address : Nat) (telegram : TrackTelegram) (age : Nat)
  deriving DecidableEq, Repr

/-! ### Axle counting (R42, R44) -/

inductive DpCause | start | sensorFault | implausible | noAnswer
  deriving DecidableEq, Repr

inductive DpState
  | normal
  | failed (cause : DpCause)
  deriving DecidableEq, Repr

/-- A detection point record (R42). -/
structure DpRec where
  head : Nat
  borders : List (Nat × Orient)
  boundaryMark : Bool
  state : DpState
  last : Option (Byte × Byte)
  pendingA : Nat
  pendingB : Nat
  deriving DecidableEq, Repr

inductive Disturbance
  | start
  | dpFailed (dp : Nat)
  | deficit
  | persistentDeficit
  | saturation
  deriving DecidableEq, Repr

/-- A section count record (R44). The cause is present while DISTURBED. -/
structure SectCount where
  points : List (Nat × Orient)
  count : Int
  state : Occ
  cause : Option Disturbance
  deficitAge : Nat
  sweep : Bool
  saturated : Bool
  deriving DecidableEq, Repr

/-! ### Route instances (R79) -/

inductive Origin
  | op (l : OpLink)
  | store (l : OpLink)
  | blc (b : BLink)
  deriving DecidableEq, Repr

inductive InstState | locking | clearing | cleared | held | inUse | cancelling | seqFault | emergency
  deriving DecidableEq, Repr

/-- An entry of the waiting set (R81). A flank entry names its item index and the element awaited. -/
inductive Wait
  | point (e : Nat)
  | flank (item e : Nat)
  | asking (item : Nat)
  | track (e : Nat)
  | direction
  | acceptance
  deriving DecidableEq, Repr

inductive FlankStatus | claimed | asking | assured
  deriving DecidableEq, Repr

/-- Chosen alternative 0 to 2 and status of a flank item (R79). -/
structure FlankChoice where
  alternative : Nat
  status : FlankStatus
  deriving DecidableEq, Repr

/-- The acceptance field (R79). -/
inductive Acceptance | absent | notAsked | asked | held | notGiven | given | released
  deriving DecidableEq, Repr

/-- HELD causes (R93). -/
inductive Cause
  | detectionLost | pointFailed | flankLost | sectionNotClear | lampFault | signalNotCleared
  | suspect | assuranceLost | acceptanceLost | linkDown | operatorStop
  deriving DecidableEq, Repr

inductive OverlapState | none | locked | timing | released
  deriving DecidableEq, Repr

inductive FaultKind | jump | vanish | suspect
  deriving DecidableEq, Repr

/-- A live route instance record (R79, R126). -/
structure Inst where
  route : Nat
  origin : Origin
  state : InstState
  waiting : List Wait
  flank : List FlankChoice
  acceptance : Acceptance
  causes : List (Cause × Nat)
  releasePtr : Nat
  highest : Nat
  overlap : OverlapState
  pathReleased : Bool
  entryTaken : Bool
  faultRec : Option (FaultKind × Nat)
  setting : Timer
  approach : Timer
  overlapTimer : Timer
  emergency : Timer
  deriving DecidableEq, Repr

/-- A press selection (R75). -/
structure Selection where
  signal : Nat
  timer : Timer
  deriving DecidableEq, Repr

/-- A route request waiting in the RIM (R69): a SET-ROUTE of a link with the sequence number its reply echoes, a retest
(R139) or an incoming acceptance request (R78). -/
inductive RouteRequest
  | setRoute (l : OpLink) (seq : Word16) (entry exit : Nat) (stack : Bool) (lifetime : Nat)
  | retest (route : Nat)
  | incoming (b : BLink) (ref : Nat) (route : Nat)
  deriving DecidableEq, Repr

/-! ### Request Store (R136, R147) -/

/-- A store entry (R136). The waiting cancel holds the sequence number of the STORE-CANCEL to be answered. `presented`:
a retest of this entry waits in the RIM (R139, R140). -/
structure StoreEntry where
  route : Nat
  link : OpLink
  area : Nat
  lifetime : Timer
  passMark : Bool
  presented : Bool
  lifted : Bool
  expired : Bool
  waitingCancel : Option Word16
  deriving DecidableEq, Repr

inductive RemovalReason
  | set (inst : Nat)
  | expired
  | cancelled
  | authorityLost
  deriving DecidableEq, Repr

structure Removal where
  route : Nat
  reason : RemovalReason
  deriving DecidableEq, Repr

/-! ### Authority Map (R148) -/

inductive Holder | none | centre | localPanel
  deriving DecidableEq, Repr

/-- An area record. An offer is always to the link that is not the holder, so it is its timer alone (stopped: none). -/
structure Area where
  holder : Holder
  offer : Timer
  force : Timer
  deriving DecidableEq, Repr

/-! ### Operator links (R155 to R162) -/

/-- The requests of an operator link (11.3.1), with the parameters of their bodies. -/
inductive Request
  | setRoute (entry exit : Nat) (stack : Bool) (lifetime : Nat)
  | press (e : Nat)
  | cancelRoute (e : Nat)
  | reClear (e : Nat)
  | storeCancel (route : Nat)
  | stopArea (area : Nat)
  | pointThrow (e : Nat) (p : Pos)
  | pointReset (e : Nat)
  | signalReset (e : Nat)
  | block (e : Nat)
  | unblock (e : Nat)
  | boundaryOpen (e : Nat)
  | boundaryClose (e : Nat)
  | dirRequest (e : Nat)
  | auxIssue (kind object : Nat)
  | auxConfirm (kind object : Nat)
  | authTake (area : Nat)
  | authOffer (area : Nat)
  | authReturn (area : Nat)
  | readRoute (route : Nat)
  | readCounters
  | snapshot
  | unknown (kind : Byte)
  deriving DecidableEq, Repr

/-- A received telegram waiting to be taken (R155), with the sequence number its reply echoes (R156). -/
structure Telegram where
  seq : Word16
  request : Request
  deriving DecidableEq, Repr

/-- Refusal codes in the order of the table of R156; UNAVAILABLE carries its element. -/
inductive RefusalCode
  | noAuthority | heldByOther | unknownObject | noRoute | unavailable (e : Nat) | noInstance | storeFull
  | duplicate | wrongState | notPermitted | noPending | notConfigured
  deriving DecidableEq, Repr

/-- The three counters of a boundary link (R165). -/
structure LinkCounts where
  good : Word16
  discarded : Word16
  silence : Word16
  deriving DecidableEq, Repr

/-- What READ-COUNTERS returns (R157). -/
structure CounterReading where
  good : SatCounter
  discarded : SatCounter
  refused : SatCounter
  corrected : Word16
  missed : Word16
  boundaries : List LinkCounts
  aou : AouCounters
  deriving DecidableEq, Repr

/-- The result and data of a reply (R156). -/
inductive ReplyBody
  | accepted
  | acceptedRoute (inst route : Nat)
  | acceptedDefinition (r : RouteDef)
  | acceptedCounters (c : CounterReading)
  | stored
  | refused (code : RefusalCode)
  deriving DecidableEq, Repr

/-- The five auxiliary kinds (section 9.5). -/
inductive AuxKind | emergencyRelease | sectionReset | suspectClear | authForce | boundaryRelease
  deriving DecidableEq, Repr

/-- A pending auxiliary operation (R161). `broken`: the instance named was freed since the issue (R133). -/
structure PendingAux where
  kind : AuxKind
  object : Nat
  window : Timer
  broken : Bool
  deriving DecidableEq, Repr

/-- Objects of a pending indication set (R158). -/
inductive Obj
  | partStatus
  | area (a : Nat)
  | element (e : Nat)
  | inst (i : Nat)
  | boundary (b : Nat)
  | store
  | aux
  deriving DecidableEq, Repr

/-- Causes of a setting failure (R100). -/
inductive FailCause | timeout | flank | boundary | suspect | link
  deriving DecidableEq, Repr

structure SettingFailure where
  inst : Nat
  route : Nat
  cause : FailCause
  element : Nat
  deriving DecidableEq, Repr

inductive OverrunKind | pastStop | overlap
  deriving DecidableEq, Repr

/-- The overrun record (R120). -/
structure Overrun where
  inst : Nat
  route : Nat
  kind : OverrunKind
  sect : Nat
  deriving DecidableEq, Repr

/-- One Operator Link Controller. -/
structure Olc where
  waiting : List Telegram
  held : Option Word16
  reply : Option (Word16 × ReplyBody)
  marks : List Obj
  indNo : Word16
  good : SatCounter
  discarded : SatCounter
  refused : SatCounter
  aux : Option PendingAux
  failure : Option SettingFailure
  overrun : Option Overrun
  deriving DecidableEq, Repr

/-! ### Boundary links (R165) -/

inductive LinkState | down | sync | up
  deriving DecidableEq, Repr

inductive DirChange | idle | asking | asked
  deriving DecidableEq, Repr

/-- An awaiting outgoing ask; its timer is stopped while its telegram is held back (R169, R177). -/
structure OutAsk where
  ref : Nat
  inst : Nat
  timer : Timer
  deriving DecidableEq, Repr

/-- An entry of a list of (reference, instance). -/
structure RefInst where
  ref : Nat
  inst : Nat
  deriving DecidableEq, Repr

/-- An entry of the incoming acceptance list. -/
structure Incoming where
  ref : Nat
  inst : Nat
  handed : Bool
  ended : Bool
  deriving DecidableEq, Repr

/-- An entry of the assurances received: ASSURED, or ASKING with its response timer. -/
structure Assurance where
  ref : Nat
  inst : Nat
  item : Nat
  assured : Bool
  timer : Timer
  deriving DecidableEq, Repr

/-- A boundary record (R165). -/
structure Blc where
  used : Bool
  senior : Bool
  lineSections : List Nat
  outRefs : List (Nat × Nat)
  offers : List (Nat × FlankTarget)
  neighbour : Word16
  link : LinkState
  direction : Dir
  change : DirChange
  changeTimer : Timer
  isOpen : Bool
  neighbourClear : Bool
  outAsks : List OutAsk
  outgoing : List RefInst
  inAsks : List RefInst
  incoming : List Incoming
  assurances : List Assurance
  lostHoldings : Bool
  release : Timer
  heldBack : List BoundaryTelegram
  statusTimer : Timer
  silenceTimer : Timer
  holdingsTimer : Timer
  counts : LinkCounts
  deriving DecidableEq, Repr

/-! ### Notices and reports to the RIM (R13, R80) -/

/-- What the LKC and the BLCs send to the RIM. A SUSPECT notice and a link report name no instance. -/
inductive Notice
  | position (inst e : Nat)
  | detectionLost (inst e : Nat)
  | flankLost (inst e : Nat)
  | pointFailed (inst e : Nat)
  | track (inst e : Nat) (before after : Occ)
  | lampFault (inst e : Nat)
  | signalNotCleared (inst e : Nat)
  | confirmed (inst e : Nat)
  | overlapTransferred (inst : Nat)
  | suspect (e : Nat)
  | directionHeld (b : BLink)
  | directionFailed (b : BLink)
  | acceptanceGiven (inst : Nat)
  | acceptanceRefused (inst : Nat)
  | acceptanceLost (inst : Nat)
  | assuranceGiven (inst item : Nat)
  | assuranceRefused (inst item : Nat)
  | assuranceLost (inst item : Nat)
  | linkDown (b : BLink)
  | itemLinkDown (inst : Nat) (b : BLink)
  | withdrawn (inst : Nat)
  deriving DecidableEq, Repr

/-! ### What leaves the part -/

/-- The part status of a link (R159). -/
structure PartStatus where
  load : LoadState
  areaFault : Bool
  storeFault : Bool
  selection : Option (Nat × Nat)
  failure : Option SettingFailure
  overrun : Option Overrun
  deriving DecidableEq, Repr

/-- The instance fields an indication carries (R100, R126); each waiting entry with its element. -/
structure InstView where
  route : Nat
  origin : Origin
  state : InstState
  waiting : List (Wait × Nat)
  flank : List FlankChoice
  acceptance : Acceptance
  causes : List (Cause × Nat)
  releasePtr : Nat
  overlap : OverlapState
  faultRec : Option (FaultKind × Nat)
  deriving DecidableEq, Repr

/-- What the indication of a section carries from the ACE (R44). -/
structure TrackView where
  count : Int
  cause : Option Disturbance
  sweep : Bool
  saturated : Bool
  points : List (Nat × DpState)
  deriving DecidableEq, Repr

/-- The boundary fields an indication carries (R184). -/
structure BoundaryView where
  link : LinkState
  direction : Dir
  change : DirChange
  isOpen : Bool
  senior : Bool
  used : Bool
  neighbourClear : Bool
  lineClear : Bool
  outAsks : List RefInst
  outgoing : List RefInst
  inAsks : List RefInst
  incoming : List Incoming
  assurances : List (Nat × Nat × Nat × Bool)
  lostHoldings : Bool
  release : Option Nat
  deriving DecidableEq, Repr

/-- A store entry as indicated (R147): route, link, area, remaining whole seconds. -/
structure StoreView where
  route : Nat
  link : OpLink
  area : Nat
  seconds : Nat
  deriving DecidableEq, Repr

/-- The body of an indication (11.3.1), by object class. Times are whole seconds rounded up. -/
inductive IndBody
  | partStatus (p : PartStatus)
  | area (holder : Holder) (offer : Option (OpLink × Nat)) (force : Option Nat)
  | element (record : Element) (flank : Option (Nat × FctEntry)) (drive : Option Drive) (cmd : SignalCmd)
      (track : Option TrackView)
  | inst (view : Option InstView)
  | boundary (view : BoundaryView)
  | store (entries : List StoreView) (removalC removalL : Option Removal)
  | aux (pending : Option (AuxKind × Nat × Nat))
  deriving DecidableEq, Repr

/-- One thing the part puts on a wire. -/
inductive Sent
  | reply (l : OpLink) (seq : Word16) (body : ReplyBody)
  | indication (l : OpLink) (number : Word16) (obj : Obj) (body : IndBody)
  | boundary (b : BLink) (t : BoundaryTelegram)
  | track (address : Nat) (t : TrackTelegram)
  | counters (record : AouCounters)
  deriving DecidableEq, Repr

end Sys2Proof.Machine
end

