-- ==== Sys2Proof/Config.lean ====
section
/-! DEFINITION. What an implementation fixes and the spec's fixed times and sizes. -/

namespace Sys2Proof.Config

/-- The check word of the record of an element number (R2). The spec gives neither its width nor its function,
so it is a free value: nothing in the model constrains it. -/
opaque checkWordOf (e : Nat) (r : Machine.Element) : Nat

/-- Number of element records (R1). -/
def elementCount : Nat := 256
/-- Number of Flank Claim Table entries (R101). -/
def fctCount : Nat := 128
/-- Number of route instance records (R70). -/
def instCount : Nat := 48
/-- Most claimants of one entry (R102). -/
def maxClaimants : Nat := 8
/-- Most store entries of one link (R136). -/
def storeQuota : Nat := 8
/-- Most telegrams waiting at an OLC (R155). -/
def waitingMax : Nat := 4

/-- PROCEED confirmation time, 3.0 s (R37). -/
def confirmTime : Ticks := 30
/-- Press selection time, 10.0 s (R75). -/
def selectionTime : Ticks := 100
/-- Offer time, 30.0 s (R148). -/
def offerTime : Ticks := 300
/-- Force time, 30.0 s (R148). -/
def forceTime : Ticks := 300
/-- Auxiliary window, 20.0 s (R161). -/
def auxWindow : Ticks := 200
/-- Emergency release time, 120.0 s (R134). -/
def emergencyTime : Ticks := 1200
/-- BOUNDARY-RELEASE time, 120.0 s (R183). -/
def releaseTime : Ticks := 1200
/-- Response time of boundary asks, 4.0 s (R173, R177, R181) and of HOLDINGS (R169). -/
def responseTime : Ticks := 40
/-- Silence time, 1.5 s (R168). -/
def silenceTime : Ticks := 15
/-- STATUS period, 500 ms (R166). -/
def statusPeriod : Ticks := 5
/-- Spacing of rounds, 200 ms (R23). -/
def roundSpacing : Ticks := 2

end Sys2Proof.Config
end

