-- ==== Sys2Proof/Machine/State.lean ====
section
/-! DEFINITION. The state of the part, block by block (00_scope section 2.1), the reasons a step can stop, and reset. -/

namespace Sys2Proof.Machine

/-- The spec describes no event that stops the part, so no meaning ends in a fault. -/
inductive Fault
  /-- Raised by no meaning: CONFIG_FAULT, FAILED, SUSPECT and SEQ_FAULT are states of the part, not stops. Safe. -/
  | neverRaised
  deriving DecidableEq, Repr

/-- Why a command has no meaning. -/
inductive Refusal
  /-- Raised by an arm of exec whose row has no meaning yet, by the row's mnemonic. Safe. -/
  | notModelled (mnemonic : String)
  deriving DecidableEq, Repr

/-- One value per operator link. -/
structure PerLink (α : Type) where
  olC : α
  olL : α
  deriving DecidableEq, Repr

def PerLink.get {α : Type} (p : PerLink α) : OpLink → α
  | .olC => p.olC
  | .olL => p.olL

def PerLink.set {α : Type} (p : PerLink α) (l : OpLink) (a : α) : PerLink α :=
  match l with
  | .olC => { p with olC := a }
  | .olL => { p with olL := a }

/-- Configuration Loader (R164, R185) with the part values of the image (section 11.1). -/
structure Cfl where
  load : LoadState
  stationCode : Word16
  settingTime : Ticks
  tolerance : Nat
  stackLifetime : Ticks
  counterImage : AouCounters
  writing : Bool
  writeAgain : Bool
  deriving DecidableEq, Repr

/-- Locking Core (R1, R2, R18, R29, R37, R101). `checks`: the check word of each element record (R2). -/
structure Lkc where
  elements : Vector Element 256
  checks : Vector Nat 256
  fct : Vector (Option FctEntry) 128
  drives : Vector (Option Drive) 256
  cmds : Vector SignalCmd 256
  scrub : Nat
  corrected : Word16
  deriving DecidableEq, Repr

/-- Trackside Bus Controller (R21 to R28). `round`: absent between rounds, else the addresses still to poll. -/
structure Tbc where
  units : List UnitRow
  queue : List QueuedCmd
  nextAge : Nat
  exchange : Option Exchange
  round : Option (List Nat)
  spacing : Timer
  allStopDue : Bool
  missed : Word16
  deriving DecidableEq, Repr

/-- Axle Count Evaluator (R42, R44). Section counts are keyed by element number. -/
structure Ace where
  dps : Vector (Option DpRec) 120
  counts : Vector (Option SectCount) 256
  deriving DecidableEq, Repr

/-- Route Instance Manager (R69, R70, R75). -/
structure Rim where
  insts : Vector (Option Inst) 48
  sel : PerLink (Option Selection)
  requests : List RouteRequest
  deriving DecidableEq, Repr

/-- Request Store (R136, R138, R147). -/
structure Rqs where
  store : List StoreEntry
  running : Bool
  rerun : Bool
  removal : PerLink (Option Removal)
  deriving DecidableEq, Repr

/-- Auxiliary Operation Unit (R163, R164). -/
structure Aou where
  counters : AouCounters
  areaFault : Bool
  storeFault : Bool
  deriving DecidableEq, Repr

/-- The whole part. `notices`: sent to the RIM and not yet taken (R80). `out`: what has gone out on the wires,
oldest first. `pending`: the commands that wait, first in first out. -/
structure State where
  cfl : Cfl
  lkc : Lkc
  tbc : Tbc
  ace : Ace
  rcat : List RouteDef
  rim : Rim
  rqs : Rqs
  aum : Vector Area 16
  olc : PerLink Olc
  aou : Aou
  blc : Vector Blc 4
  notices : List Notice
  out : List Sent
  pending : List Instr
  deriving DecidableEq, Repr

def SatCounter.zero : SatCounter := ⟨0, false⟩

def AouCounters.zero : AouCounters :=
  ⟨SatCounter.zero, SatCounter.zero, SatCounter.zero, SatCounter.zero, SatCounter.zero, SatCounter.zero⟩

/-- The CFL at cold start (R185). -/
def Cfl.cold : Cfl where
  load := .loading
  stationCode := 0
  settingTime := 200
  tolerance := 2
  stackLifetime := 1200
  counterImage := AouCounters.zero
  writing := false
  writeAgain := false

/-- No signal command record and no SHOW(STOP) outstanding (R20). -/
def SignalCmd.idle : SignalCmd := ⟨.stopped, false⟩

/-- The LKC at cold start, before the image is loaded (R20). -/
def Lkc.cold : Lkc where
  elements := Vector.replicate 256 .unconfigured
  checks := Vector.ofFn fun e => Config.checkWordOf e.val .unconfigured
  fct := Vector.replicate 128 none
  drives := Vector.replicate 256 none
  cmds := Vector.replicate 256 SignalCmd.idle
  scrub := 0
  corrected := 0

/-- The TBC at cold start (R21). -/
def Tbc.cold : Tbc where
  units := []
  queue := []
  nextAge := 0
  exchange := none
  round := none
  spacing := .stopped
  allStopDue := true
  missed := 0

/-- The ACE at cold start, before the image is loaded (R60). -/
def Ace.cold : Ace where
  dps := Vector.replicate 120 none
  counts := Vector.replicate 256 none

/-- The RIM at cold start (R70, R75). -/
def Rim.cold : Rim where
  insts := Vector.replicate 48 none
  sel := ⟨none, none⟩
  requests := []

/-- The RQS at cold start (R136). -/
def Rqs.cold : Rqs where
  store := []
  running := false
  rerun := false
  removal := ⟨none, none⟩

/-- An area record at cold start (R148). -/
def Area.cold : Area := ⟨.none, .stopped, .stopped⟩

/-- The AOU before the counter area is read (R164). -/
def Aou.cold : Aou := ⟨AouCounters.zero, false, false⟩

/-- A boundary record at cold start (R165). -/
def Blc.cold : Blc where
  used := false
  senior := false
  lineSections := []
  outRefs := []
  offers := []
  neighbour := 0
  link := .down
  direction := .none
  change := .idle
  changeTimer := .stopped
  isOpen := false
  neighbourClear := false
  outAsks := []
  outgoing := []
  inAsks := []
  incoming := []
  assurances := []
  lostHoldings := false
  release := .stopped
  heldBack := []
  statusTimer := .stopped
  silenceTimer := .stopped
  holdingsTimer := .stopped
  counts := ⟨0, 0, 0⟩

/-- Every object a pending set can hold, for the given configured elements, in the order SNAPSHOT uses (R160). -/
def snapshotObjects (elements : List Nat) : List Obj :=
  .partStatus :: (List.range 16).map .area ++ elements.map .element ++ (List.range 48).map .inst
    ++ (List.range 4).map .boundary ++ [.store, .aux]

/-- An OLC at cold start with the given pending set (R155 to R161). -/
def Olc.cold (marks : List Obj) : Olc where
  waiting := []
  held := none
  reply := none
  marks := marks
  indNo := 0
  good := SatCounter.zero
  discarded := SatCounter.zero
  refused := SatCounter.zero
  aux := none
  failure := none
  overrun := none

/-- The part right after reset: every block in its cold-start state and the CFL LOADING (R185). -/
def State.reset : State where
  cfl := Cfl.cold
  lkc := Lkc.cold
  tbc := Tbc.cold
  ace := Ace.cold
  rcat := []
  rim := Rim.cold
  rqs := Rqs.cold
  aum := Vector.replicate 16 Area.cold
  olc := ⟨Olc.cold (snapshotObjects []), Olc.cold (snapshotObjects [])⟩
  aou := Aou.cold
  blc := Vector.replicate 4 Blc.cold
  notices := []
  out := []
  pending := []

end Sys2Proof.Machine
end

