-- ==== Sys2Proof/Machine/Operands.lean ====
section
/-! DEFINITION. Frames on the wire (section 11.3): cyclic checks, the operator request frame with its reader and
writer, and the test of a boundary frame (R190). -/

namespace Sys2Proof.Machine

/-! ### Cyclic checks -/

/-- One bit shifted through the 16-bit check: x^16 + x^12 + x^5 + 1 (section 11.3). The register shifts toward its most
significant bit (log entry 64). -/
def crc16Shift (c : Word16) : Word16 := if c.msb then (c <<< 1) ^^^ 0x1021 else c <<< 1

def iterate {α : Type} (f : α → α) : Nat → α → α
  | 0, a => a
  | n + 1, a => iterate f n (f a)

/-- One byte through the 16-bit check. Section 11.3 does not say which bit of a byte enters first: the model takes the most
significant one first (log entry 64). -/
def crc16Byte (c : Word16) (b : Byte) : Word16 := iterate crc16Shift 8 (c ^^^ (b.setWidth 16 <<< 8))

/-- The 16-bit check of a list of bytes, from FFFF (section 11.3), the register as it stands at the end: not reflected, not
inverted (log entry 64). -/
def crc16 (l : List Byte) : Word16 := l.foldl crc16Byte 0xFFFF

/-- One bit shifted through the 8-bit check: x^8 + x^2 + x + 1 (section 11.3). -/
def crc8Shift (c : Byte) : Byte := if c.msb then (c <<< 1) ^^^ 0x07 else c <<< 1

/-- The check byte of the trackside bus, from 00 (section 11.3), with the same bit order (log entry 64). -/
def crc8 (l : List Byte) : Byte := l.foldl (fun c b => iterate crc8Shift 8 (c ^^^ b)) 0

def hiByte (w : Word16) : Byte := w.extractLsb' 8 8
def loByte (w : Word16) : Byte := w.extractLsb' 0 8

/-- Two bytes, most significant first (section 11.3). -/
def word (hi lo : Byte) : Word16 := hi ++ lo

/-! ### Frames -/

/-- A frame: start, length, the bytes from 2 to the end of the body, and the check over all but the start. -/
def frame (start : Byte) (content : List Byte) : List Byte :=
  let len : Byte := BitVec.ofNat 8 content.length
  let c := crc16 (len :: content)
  start :: len :: content ++ [hiByte c, loByte c]

/-- Bytes 2 to the end of the body of a frame whose start, length and check are right (R190). -/
def unframe (start : Byte) (lo hi : Nat) (bytes : List Byte) : Option (List Byte) :=
  match bytes with
  | s :: len :: rest =>
    let n := len.toNat
    let content := rest.take n
    if s = start ∧ lo ≤ n ∧ n ≤ hi ∧ rest.length = n + 2
        ∧ rest.drop n = [hiByte (crc16 (len :: content)), loByte (crc16 (len :: content))] then
      some content
    else none
  | _ => none

/-! ### Operator requests (11.3.1) -/

/-- The code of a position. -/
def posCode : Pos → Byte
  | .n => 0
  | .r => 1

def posOf (b : Byte) : Option Pos := if b = 0 then some .n else if b = 1 then some .r else none

def flagOf (b : Byte) : Option Bool := if b = 0 then some false else if b = 1 then some true else none

def flagCode (b : Bool) : Byte := if b then 1 else 0

/-- The request of a kind with its body (11.3.1); none where the body does not fit its kind. -/
def requestOf (kind : Byte) (body : List Byte) : Option Request :=
  match kind.toNat, body with
  | 1, [e, x, f, hi, lo] => (flagOf f).map fun f => .setRoute e.toNat x.toNat f (word hi lo).toNat
  | 2, [e] => some (.press e.toNat)
  | 3, [e] => some (.cancelRoute e.toNat)
  | 4, [e] => some (.reClear e.toNat)
  | 5, [hi, lo] => some (.storeCancel (word hi lo).toNat)
  | 6, [a] => some (.stopArea a.toNat)
  | 7, [e, p] => (posOf p).map fun p => .pointThrow e.toNat p
  | 8, [e] => some (.pointReset e.toNat)
  | 9, [e] => some (.signalReset e.toNat)
  | 10, [e] => some (.block e.toNat)
  | 11, [e] => some (.unblock e.toNat)
  | 12, [e] => some (.boundaryOpen e.toNat)
  | 13, [e] => some (.boundaryClose e.toNat)
  | 14, [e] => some (.dirRequest e.toNat)
  | 15, [k, o] => some (.auxIssue k.toNat o.toNat)
  | 16, [k, o] => some (.auxConfirm k.toNat o.toNat)
  | 17, [a] => some (.authTake a.toNat)
  | 18, [a] => some (.authOffer a.toNat)
  | 19, [a] => some (.authReturn a.toNat)
  | 20, [hi, lo] => some (.readRoute (word hi lo).toNat)
  | 21, [] => some .readCounters
  | 22, [] => some .snapshot
  | k, _ => if 1 ≤ k ∧ k ≤ 22 then none else some (.unknown kind)

/-- The kind byte of a request (11.3.1). -/
def kindOf : Request → Byte
  | .setRoute .. => 1
  | .press _ => 2
  | .cancelRoute _ => 3
  | .reClear _ => 4
  | .storeCancel _ => 5
  | .stopArea _ => 6
  | .pointThrow .. => 7
  | .pointReset _ => 8
  | .signalReset _ => 9
  | .block _ => 10
  | .unblock _ => 11
  | .boundaryOpen _ => 12
  | .boundaryClose _ => 13
  | .dirRequest _ => 14
  | .auxIssue .. => 15
  | .auxConfirm .. => 16
  | .authTake _ => 17
  | .authOffer _ => 18
  | .authReturn _ => 19
  | .readRoute _ => 20
  | .readCounters => 21
  | .snapshot => 22
  | .unknown k => k

def byte (n : Nat) : Byte := BitVec.ofNat 8 n

/-- A number in two bytes, most significant first. -/
def twoBytes (n : Nat) : List Byte := [hiByte (BitVec.ofNat 16 n), loByte (BitVec.ofNat 16 n)]

/-- The body of a request (11.3.1). -/
def bodyOf : Request → List Byte
  | .setRoute e x f t => [byte e, byte x, flagCode f] ++ twoBytes t
  | .press e => [byte e]
  | .cancelRoute e => [byte e]
  | .reClear e => [byte e]
  | .storeCancel r => twoBytes r
  | .stopArea a => [byte a]
  | .pointThrow e p => [byte e, posCode p]
  | .pointReset e => [byte e]
  | .signalReset e => [byte e]
  | .block e => [byte e]
  | .unblock e => [byte e]
  | .boundaryOpen e => [byte e]
  | .boundaryClose e => [byte e]
  | .dirRequest e => [byte e]
  | .auxIssue k o => [byte k, byte o]
  | .auxConfirm k o => [byte k, byte o]
  | .authTake a => [byte a]
  | .authOffer a => [byte a]
  | .authReturn a => [byte a]
  | .readRoute r => twoBytes r
  | .readCounters => []
  | .snapshot => []
  | .unknown _ => []

/-- Whether every number of a request fits its field of one or two bytes (11.3.1). -/
def Request.fits : Request → Bool
  | .setRoute e x _ t => decide (e < 256) && decide (x < 256) && decide (t < 65536)
  | .storeCancel r => decide (r < 65536)
  | .readRoute r => decide (r < 65536)
  | .auxIssue k o => decide (k < 256) && decide (o < 256)
  | .auxConfirm k o => decide (k < 256) && decide (o < 256)
  | .press e | .cancelRoute e | .reClear e | .stopArea e | .pointThrow e _ | .pointReset e | .signalReset e
  | .block e | .unblock e | .boundaryOpen e | .boundaryClose e | .dirRequest e | .authTake e | .authOffer e
  | .authReturn e => decide (e < 256)
  | .readCounters => true
  | .snapshot => true
  | .unknown k => decide (k.toNat = 0) || decide (22 < k.toNat)

/-- The frame of a request: sequence, kind and body (11.3.1). -/
def operatorFrame (t : Telegram) : List Byte :=
  frame 0xC3 ([hiByte t.seq, loByte t.seq, kindOf t.request] ++ bodyOf t.request)

/-- The telegram of a received frame, or none: a wrong check (R190). -/
def readOperatorFrame (bytes : List Byte) : Option Telegram :=
  match unframe 0xC3 3 250 bytes with
  | some (hi :: lo :: kind :: body) => (requestOf kind body).map fun r => ⟨word hi lo, r⟩
  | _ => none

/-! ### Boundary frames (11.3.2) -/

/-- A count followed by that many references in range; what follows them. -/
def refList (most : Nat) (l : List Byte) : Option (List Nat × List Byte) :=
  match l with
  | c :: rest =>
    let n := c.toNat
    if n ≤ most ∧ n ≤ rest.length ∧ ((rest.take n).all fun b => decide (b.toNat < 16)) = true then
      some ((rest.take n).map BitVec.toNat, rest.drop n)
    else none
  | [] => none

def dirOf (b : Byte) : Option Dir :=
  if b = 0 then some .outward else if b = 1 then some .inward else if b = 2 then some .none else none

def reasonOf (b : Byte) : Option RefuseReason :=
  [RefuseReason.link, .direction, .closed, .full, .unknown, .unavailable][b.toNat]?

/-- The body of a STATUS. -/
def statusBodyOf : List Byte → Option StatusBody
  | f :: d :: rest => do
    let f ← flagOf f
    let d ← dirOf d
    let (refs, more) ← refList 1 rest
    if more.isEmpty then some ⟨f, d, refs⟩ else none
  | _ => none

/-- The body of a HOLDINGS. -/
def holdingsBodyOf : List Byte → Option HoldingsBody
  | d :: rest => do
    let d ← dirOf d
    let (a, rest) ← refList 1 rest
    let (b, rest) ← refList 1 rest
    let (c, rest) ← refList 16 rest
    let (e, rest) ← refList 16 rest
    if rest.isEmpty then some ⟨d, a, b, c, e⟩ else none
  | _ => none

/-- A telegram whose body is one reference, by kind. -/
def refTelegram (kind ref : Nat) : Option BoundaryTelegram :=
  match kind with
  | 0x45 => some (.acceptAsk ref)
  | 0x46 => some (.acceptGive ref)
  | 0x48 => some (.acceptWithdraw ref)
  | 0x49 => some (.trainHanded ref)
  | 0x4A => some (.acceptEnd ref)
  | 0x4B => some (.flankAsk ref)
  | 0x4C => some (.flankGive ref)
  | 0x4D => some (.flankRefuse ref)
  | 0x4E => some (.flankDrop ref)
  | _ => none

/-- What a good boundary frame carries: a boundary telegram, an operator request kind (R167), or a kind that the
table of R167 does not list. -/
inductive BoundaryContent
  | telegram (t : BoundaryTelegram)
  | operatorRequest (kind : Byte)
  | other (kind : Byte)
  deriving DecidableEq, Repr

/-- The content of a kind with its body; none where a field is out of its range (R190). The body of kind 80 is the kind
of the refused request (11.3.2). An operator request kind has no layout in a boundary frame, and any body of it is good (the
model's choice, log entry 29). -/
def boundaryContentOf (kind : Byte) (body : List Byte) : Option BoundaryContent :=
  match kind.toNat, body with
  | 0x40, b => (statusBodyOf b).map fun x => .telegram (.status x)
  | 0x41, b => (holdingsBodyOf b).map fun x => .telegram (.holdings x)
  | 0x42, [] => some (.telegram .dirAsk)
  | 0x43, [] => some (.telegram .dirGive)
  | 0x44, [] => some (.telegram .dirRefuse)
  | 0x47, [r, x] =>
    if r.toNat < 16 then (reasonOf x).map fun x => .telegram (.acceptRefuse r.toNat x) else none
  | 0x80, b =>
    match b with
    | [r] => if 1 ≤ r.toNat ∧ r.toNat ≤ 22 then some (.other kind) else none
    | _ => none
  | k, b =>
    if 1 ≤ k ∧ k ≤ 22 then some (.operatorRequest kind)
    else if 0x40 ≤ k ∧ k ≤ 0x4E then
      match b with
      | [r] => if r.toNat < 16 then (refTelegram k r.toNat).map .telegram else none
      | _ => none
    else some (.other kind)

/-- The content of a received boundary frame, or none: a wrong check (R190). The sender's station code must be the
neighbour's. -/
def readBoundaryFrame (neighbour : Word16) (bytes : List Byte) : Option BoundaryContent :=
  match unframe 0x3C 3 42 bytes with
  | some (hi :: lo :: kind :: body) => if word hi lo = neighbour then boundaryContentOf kind body else none
  | _ => none

end Sys2Proof.Machine
end

