-- ==== Sys2Proof/Machine/Flags.lean ====
section
/-! DEFINITION. Flags and counters: saturating counters with their marks, timers, and the pending indication
sets with the order in which one step's marks join them. -/

namespace Sys2Proof.Machine

/-! ### Counters with a saturation mark (R157, R163) -/

/-- An increment: 65535 stays, and the mark is set when the counter reaches 65535. -/
def incCounter (c : SatCounter) : SatCounter :=
  let v := satInc c.value
  ⟨v, c.mark || v == 0xFFFF⟩

/-- The counter of an auxiliary kind incremented (R163). -/
def countAux (c : AouCounters) : AuxKind → AouCounters
  | .emergencyRelease => { c with emergencyRelease := incCounter c.emergencyRelease }
  | .sectionReset => { c with sectionReset := incCounter c.sectionReset }
  | .suspectClear => { c with suspectClear := incCounter c.suspectClear }
  | .authForce => { c with authForce := incCounter c.authForce }
  | .boundaryRelease => { c with boundaryRelease := incCounter c.boundaryRelease }

/-! ### Timers (00_scope section 4.2) -/

/-- A timer that can expire: started and neither stopped nor frozen. -/
def Timer.isRunning : Timer → Bool
  | .running _ => true
  | _ => false

/-- 100 ms of time: a running timer falls by one step, down to 0. -/
def Timer.tick : Timer → Timer
  | .running n => .running (n - 1)
  | t => t

/-- A pause freezes a running timer with its remaining time (R35). -/
def Timer.freeze : Timer → Timer
  | .running n => .frozen n
  | t => t

/-- The start of a supervision timer: a frozen one goes on from its remaining time (R32). -/
def Timer.resume (full : Ticks) : Timer → Timer
  | .stopped => .running full
  | .frozen n => .running n
  | .running n => .running n

/-- A restart, only of a timer that runs (R167, R177). -/
def Timer.restart (full : Ticks) : Timer → Timer
  | .running _ => .running full
  | t => t

/-- Remaining whole seconds rounded up (R147, R148, R159, R184). -/
def Timer.seconds : Timer → Nat
  | .running n => (n + 9) / 10
  | .frozen n => (n + 9) / 10
  | .stopped => 0

/-! ### Pending indication sets (R158) -/

/-- Marking an object: appended unless it is in the set, where it keeps its place (R158). -/
def addMark (o : Obj) (l : List Obj) : List Obj := if l.contains o then l else l ++ [o]

/-- The place of an object in the order SNAPSHOT uses (R160). -/
def Obj.rank : Obj → Nat
  | .partStatus => 0
  | .area a => 1 + a
  | .element e => 100 + e
  | .inst i => 1000 + i
  | .boundary b => 2000 + b
  | .store => 3000
  | .aux => 3001

/-- Insertion into a list kept in SNAPSHOT order. -/
def insertObj (o : Obj) : List Obj → List Obj
  | [] => [o]
  | p :: l => if o.rank ≤ p.rank then o :: p :: l else p :: insertObj o l

/-- A list put into SNAPSHOT order. -/
def sortObjs : List Obj → List Obj
  | [] => []
  | o :: l => insertObj o (sortObjs l)

/-- The set after a step: what was in it keeps its place, what the step marked follows in SNAPSHOT order (R158). -/
def orderMarks (before after : List Obj) : List Obj :=
  after.filter before.contains ++ sortObjs (after.filter fun o => !before.contains o)

/-- Both links, in the order of section 2.1. -/
def bothLinks : List OpLink := [.olC, .olL]

def otherLink : OpLink → OpLink
  | .olC => .olL
  | .olL => .olC

/-- One OLC changed. -/
def State.modOlc (s : State) (l : OpLink) (f : Olc → Olc) : State := { s with olc := s.olc.set l (f (s.olc.get l)) }

/-- One object marked in one link's set. -/
def State.markAt (s : State) (l : OpLink) (o : Obj) : State :=
  s.modOlc l fun c => { c with marks := addMark o c.marks }

/-- One object marked in both links' sets (R159). -/
def State.mark (s : State) (o : Obj) : State := (s.markAt .olC o).markAt .olL o

/-- The marks of one step put into the order of R158. -/
def State.settleMarks (before s : State) : State :=
  { s with olc :=
      ⟨{ s.olc.olC with marks := orderMarks before.olc.olC.marks s.olc.olC.marks },
       { s.olc.olL with marks := orderMarks before.olc.olL.marks s.olc.olL.marks }⟩ }

end Sys2Proof.Machine
end

