-- ==== Sys2Proof/Machine/Ops.lean ====
section
/-! DEFINITION. The named operations on State that every block shares: reading and writing records with their
indication marks, lookups in the catalogue, authority, notices, what goes out, and the retest trigger. -/

namespace Sys2Proof.Machine

/-! ### Element records (R1, R2, R17) -/

def State.elem (s : State) (e : Nat) : Element := s.lkc.elements.getD e .unconfigured

/-- The check word that stands in the record of an element number (R2). -/
def State.check (s : State) (e : Nat) : Nat := s.lkc.checks.getD e 0

/-- A record written, and its check word computed anew (R2); a write that changes it marks the element on both links
(R4, R17). -/
def State.putElem (s : State) (e : Nat) (r : Element) : State :=
  if s.elem e = r then s
  else ({ s with lkc := { s.lkc with
    elements := s.lkc.elements.setIfInBounds e r
    checks := s.lkc.checks.setIfInBounds e (Config.checkWordOf e r) } }).mark (.element e)

/-- The record at a number written back as it stands, with its check word (R18). -/
def State.rewriteCheck (s : State) (e : Nat) : State :=
  { s with lkc := { s.lkc with checks := s.lkc.checks.setIfInBounds e (Config.checkWordOf e (s.elem e)) } }

def State.point? (s : State) (e : Nat) : Option PointRec :=
  match s.elem e with
  | .point p => some p
  | _ => none

def State.signal? (s : State) (e : Nat) : Option SignalRec :=
  match s.elem e with
  | .signal g => some g
  | _ => none

def State.track? (s : State) (e : Nat) : Option TrackRec :=
  match s.elem e with
  | .track t => some t
  | _ => none

def State.boundary? (s : State) (e : Nat) : Option BoundaryRec :=
  match s.elem e with
  | .boundary b => some b
  | _ => none

/-- The control area of an element; absent for an unconfigured one (R1). -/
def Element.area? : Element → Option Nat
  | .unconfigured => none
  | .point p => some p.area
  | .signal g => some g.area
  | .track t => some t.area
  | .boundary b => some b.area

def Element.isSuspect : Element → Bool
  | .unconfigured => false
  | .point p => p.suspect
  | .signal g => g.suspect
  | .track t => t.suspect
  | .boundary b => b.suspect

/-- The occupancy of a section; a number that is no section reads as not clear. -/
def State.occ (s : State) (e : Nat) : Occ :=
  match s.track? e with
  | some t => t.occupancy
  | none => .disturbed

def State.isClear (s : State) (e : Nat) : Bool := s.occ e == .clear

/-- Configured elements in ascending number. -/
def State.configured (s : State) : List Nat :=
  (List.range Config.elementCount).filter fun e => (s.elem e).area?.isSome

/-- The boundary element of a link (R1); 256 where the configuration has none. -/
def State.boundaryElem (s : State) (b : BLink) : Nat :=
  ((List.range Config.elementCount).find? fun e =>
    match s.elem e with
    | .boundary r => r.link == b
    | _ => false).getD Config.elementCount

/-! ### Flank Claim Table, drives and signal commands -/

def State.fctEntry (s : State) (n : Nat) : Option FctEntry := s.lkc.fct.getD n none

def State.putFct (s : State) (n : Nat) (v : Option FctEntry) : State :=
  { s with lkc := { s.lkc with fct := s.lkc.fct.setIfInBounds n v } }

/-- The entry a flank reference names (R101). -/
def State.claim? (s : State) (flankRef : Option Nat) : Option FctEntry := flankRef.bind s.fctEntry

def State.drive (s : State) (e : Nat) : Option Drive := s.lkc.drives.getD e none

/-- A drive record created, changed or removed marks the point (R29). -/
def State.putDrive (s : State) (e : Nat) (d : Option Drive) : State :=
  if s.drive e = d then s
  else ({ s with lkc := { s.lkc with drives := s.lkc.drives.setIfInBounds e d } }).mark (.element e)

def State.cmd (s : State) (e : Nat) : SignalCmd := s.lkc.cmds.getD e SignalCmd.idle

/-- What the LKC keeps of a signal's command; a change marks the signal (R17). R17 names the command record; that a
change of the outstanding mark alone marks the signal too is the model's choice (log entry 38). -/
def State.putCmd (s : State) (e : Nat) (c : SignalCmd) : State :=
  if s.cmd e = c then s
  else ({ s with lkc := { s.lkc with cmds := s.lkc.cmds.setIfInBounds e c } }).mark (.element e)

/-! ### Axle counting records -/

def State.dp (s : State) (d : Nat) : Option DpRec := s.ace.dps.getD d none

def State.putDp (s : State) (d : Nat) (r : DpRec) : State :=
  { s with ace := { s.ace with dps := s.ace.dps.setIfInBounds d (some r) } }

def State.count (s : State) (e : Nat) : Option SectCount := s.ace.counts.getD e none

/-- A section count record written; a change marks the section element (R44). -/
def State.putCount (s : State) (e : Nat) (c : SectCount) : State :=
  if s.count e = some c then s
  else ({ s with ace := { s.ace with counts := s.ace.counts.setIfInBounds e (some c) } }).mark (.element e)

/-! ### The catalogue (R65) -/

/-- The definition of a route number, or none: unused. -/
def State.routeDef (s : State) (r : Nat) : Option RouteDef := s.rcat.find? fun d => d.number == r

/-- The variants of a pair in ascending rank (R65). BOUNDARY_IN definitions do not answer. -/
def State.variants (s : State) (entry exit : Nat) : List RouteDef :=
  let all := s.rcat.filter fun d => d.entry == entry && d.exit == exit && d.cls != .boundaryIn
  [1, 2, 3, 4].flatMap fun k => all.filter fun d => d.rank == k

/-- The rank-1 number of a pair (R65). -/
def State.rankOne (s : State) (entry exit : Nat) : Option Nat :=
  ((s.variants entry exit).find? fun d => d.rank == 1).map RouteDef.number

/-- Is entry (R65). -/
def State.isEntry (s : State) (e : Nat) : Bool := s.rcat.any fun d => d.entry == e && d.cls != .boundaryIn

/-- By (boundary, incoming reference) (R65). -/
def State.incomingRoute (s : State) (b : BLink) (ref : Nat) : Option RouteDef :=
  s.rcat.find? fun d => d.cls == .boundaryIn && d.entry == s.boundaryElem b && d.inRef == some ref

/-! ### Route instances (R70, R100) -/

def State.inst (s : State) (i : Nat) : Option Inst := s.rim.insts.getD i none

/-- An instance record written, made live or freed; a change marks it on both links (R100). -/
def State.putInst (s : State) (i : Nat) (v : Option Inst) : State :=
  if s.inst i = v then s
  else ({ s with rim := { s.rim with insts := s.rim.insts.setIfInBounds i v } }).mark (.inst i)

/-- A live instance changed. -/
def State.modInst (s : State) (i : Nat) (f : Inst → Inst) : State :=
  match s.inst i with
  | some r => s.putInst i (some (f r))
  | none => s

/-- The lowest-numbered free record (R70). -/
def State.freeInst (s : State) : Option Nat :=
  (List.range Config.instCount).find? fun i => (s.inst i).isNone

/-- A live instance with its route's definition. -/
def State.live (s : State) (i : Nat) : Option (Inst × RouteDef) :=
  (s.inst i).bind fun r => (s.routeDef r.route).map fun d => (r, d)

/-! ### Authority (R148, R154) -/

def State.areaRec (s : State) (a : Nat) : Area := s.aum.getD a Area.cold

/-- An area record written; a change marks the area on both links (R148). -/
def State.putArea (s : State) (a : Nat) (r : Area) : State :=
  if s.areaRec a = r then s else ({ s with aum := s.aum.setIfInBounds a r }).mark (.area a)

def holderOf : OpLink → Holder
  | .olC => .centre
  | .olL => .localPanel

/-- Whether a link holds an area. -/
def State.holdsArea (s : State) (l : OpLink) (a : Nat) : Bool := decide (a < 16) && (s.areaRec a).holder == holderOf l

/-- Whether a link holds the area of an element. -/
def State.holdsElem (s : State) (l : OpLink) (e : Nat) : Bool :=
  match (s.elem e).area? with
  | some a => s.holdsArea l a
  | none => false

/-! ### Notices and what goes out -/

/-- A notice or report sent to the RIM (R13, R80). -/
def State.notify (s : State) (n : Notice) : State := { s with notices := s.notices ++ [n] }

def State.notifyAll (s : State) (l : List Notice) : State := { s with notices := s.notices ++ l }

/-- Something put on a wire. -/
def State.send (s : State) (x : Sent) : State := { s with out := s.out ++ [x] }

/-! ### The retest pass of the RQS (R138, R139) -/

/-- The oldest entry whose pass mark is set, with its place in the list. -/
def State.nextMarked (s : State) : Option StoreEntry := s.rqs.store.find? fun e => e.passMark

/-- The store's entry for a route number changed. -/
def modEntry (route : Nat) (f : StoreEntry → StoreEntry) (l : List StoreEntry) : List StoreEntry :=
  l.map fun e => if e.route == route then f e else e

/-- One retest presented to the RIM: the oldest marked entry, its mark cleared (R139). The entry remembers that it was
presented until its retest is taken (log entry 20). -/
def State.presentMarked (s : State) : State :=
  match s.nextMarked with
  | some e =>
    { s with
      rqs := { s.rqs with store := modEntry e.route (fun x => { x with passMark := false, presented := true }) s.rqs.store }
      rim := { s.rim with requests := s.rim.requests ++ [.retest e.route] } }
  | none => s

/-- A pass starts: every entry then in the list takes the pass mark, the pass is RUNNING, and the oldest is
presented (R139). -/
def State.startPass (s : State) : State :=
  ({ s with rqs := { s.rqs with
      store := s.rqs.store.map (fun (e : StoreEntry) => { e with passMark := true }), running := true } }).presentMarked

/-- The pass ends: IDLE; a set rerun flag is cleared and starts a new pass when the list is not empty (R139). -/
def State.endPass (s : State) : State :=
  let s := { s with rqs := { s.rqs with
    store := s.rqs.store.map (fun (e : StoreEntry) => { e with passMark := false }), running := false } }
  if s.rqs.rerun then
    let s := { s with rqs := { s.rqs with rerun := false } }
    if s.rqs.store.isEmpty then s else s.startPass
  else s

/-- The pass goes on after the answer to a retest (R139). -/
def State.nextRetest (s : State) : State :=
  match s.nextMarked with
  | some _ => s.presentMarked
  | none => s.endPass

/-- A retest trigger taken by the state of the pass (R138). -/
def State.retestTrigger (s : State) : State :=
  if s.rqs.running then { s with rqs := { s.rqs with rerun := true } }
  else if s.rqs.store.isEmpty then s
  else s.startPass

end Sys2Proof.Machine
end

