-- ==== Sys2Proof/Machine/Queue.lean ====
section
/-! DEFINITION. The command queue of the TBC (R25, R26): queueing, withdrawing, and the arbiter's choice. -/

namespace Sys2Proof.Machine

/-- The row of a unit address (R21). -/
def State.unitAt (s : State) (a : Nat) : Option UnitRow := s.tbc.units.find? fun u => u.address == a

/-- The unit of a kind that serves an object (R21). No check of R186 keeps two rows from serving one object: commands go to
the one of lowest address, and reports are taken from both (log entry 40). -/
def State.unitOf (s : State) (k : UnitKind) (e : Nat) : Option UnitRow :=
  s.tbc.units.find? fun u => u.kind == k && u.serves == e

/-- The queued command of a unit (R25). -/
def State.queuedAt (s : State) (a : Nat) : Option QueuedCmd := s.tbc.queue.find? fun q => q.address == a

def State.modTbc (s : State) (f : Tbc → Tbc) : State := { s with tbc := f s.tbc }

/-- The command of an address withdrawn, replaced or removed (R25). -/
def State.dequeue (s : State) (a : Nat) : State :=
  s.modTbc fun t => { t with queue := t.queue.filter fun q => q.address != a }

/-- A command queued: it replaces a queued one of its unit, with a fresh age stamp and miss count 0 (R25). -/
def State.enqueue (s : State) (a : Nat) (t : TrackTelegram) : State :=
  (s.dequeue a).modTbc fun c => { c with queue := c.queue ++ [⟨a, t, c.nextAge, 0⟩], nextAge := c.nextAge + 1 }

/-- The miss count of a queued command (R27, R28). -/
def State.setCmdMisses (s : State) (a n : Nat) : State :=
  s.modTbc fun t => { t with queue := t.queue.map fun q => if q.address == a then { q with misses := n } else q }

/-- The age stamp of the command exchange in flight. -/
def State.flyingAge (s : State) : Option Nat :=
  match s.tbc.exchange with
  | some (.command _ _ age) => some age
  | _ => none

/-- Commands the arbiter may pick: those of REACHABLE units (R26). -/
def State.sendable (s : State) : List QueuedCmd :=
  s.tbc.queue.filter fun q => ((s.unitAt q.address).map UnitRow.reachable).getD false

/-- The oldest of a list of commands by age stamp. -/
def oldest : List QueuedCmd → Option QueuedCmd
  | [] => none
  | q :: l =>
    match oldest l with
    | none => some q
    | some r => if q.age ≤ r.age then some q else some r

/-- The arbiter (R26): every SHOW(STOP), oldest first, then every other command, oldest first. -/
def State.arbiter (s : State) : Option QueuedCmd :=
  (oldest (s.sendable.filter fun q => q.telegram == .showAs .stop)).or (oldest s.sendable)

/-- An exchange started with the command the arbiter picks; an opportunity with none passes unused (R26). -/
def State.startCommand (s : State) : State :=
  match s.arbiter with
  | some q =>
    (s.modTbc fun t => { t with exchange := some (.command q.address q.telegram q.age) }).send
      (.track q.address q.telegram)
  | none => s

end Sys2Proof.Machine
end

