-- ==== Sys2Proof/Machine/Points.lean ====
section
/-! DEFINITION. Points: writes to a point's record with their notices (R13, R110), throw requests and the point
drive (R29 to R35). -/

namespace Sys2Proof.Machine

def detectionOf : Pos → Detection
  | .n => .detN
  | .r => .detR

def oppositePos : Pos → Pos
  | .n => .r
  | .r => .n

/-- An instance added to a list of recipients, which holds each once (R13). -/
def addNew (i : Nat) (l : List Nat) : List Nat := if l.contains i then l else l ++ [i]

/-- The route claimants of an entry, each instance once (R13, R110). -/
def routeClaimants (c : Option FctEntry) : List Nat :=
  match c with
  | none => []
  | some f => f.claimants.foldl (fun acc x =>
      match x with
      | .route i _ => addNew i acc
      | .boundary _ _ => acc) []

/-- The position a point's lock requires; the UNKNOWN owner requires none (R30). -/
def PointRec.lockPos (p : PointRec) : Option Pos :=
  match p.lock with
  | .held _ _ q => some q
  | _ => none

def PointRec.lockOwner (p : PointRec) : Option Nat :=
  match p.lock with
  | .held i _ _ => some i
  | _ => none

/-- The position a point's flank claim entry requires. -/
def State.claimPos (s : State) (p : PointRec) : Option Pos :=
  match (s.claim? p.flankRef).map FctEntry.required with
  | some (.pos q) => some q
  | _ => none

/-- Whether a detection is the position, where one is required. -/
def inPosition (d : Detection) (q : Option Pos) : Bool :=
  match q with
  | some p => d == detectionOf p
  | none => false

/-- POSITION for a required position: the detection becomes it, or FAILED or LOCAL becomes clear while it is
detected (R13, R110). -/
def gainsPosition (old new : PointRec) (q : Option Pos) : Bool :=
  inPosition new.detection q
    && (!inPosition old.detection q || (old.failed && !new.failed) || (old.localMode && !new.localMode))

/-- DETECTION_LOST or FLANK_LOST for a required position: the detection leaves it, or LOCAL becomes set (R13, R110). -/
def losesPosition (old new : PointRec) (q : Option Pos) : Bool :=
  q.isSome && ((inPosition old.detection q && !inPosition new.detection q) || (!old.localMode && new.localMode))

/-- The notices of one written change of a point (R13, R110). The order of several kinds is the model's choice: POSITION,
DETECTION_LOST, FLANK_LOST, POINT_FAILED (log entry 46). -/
def State.pointNotices (s : State) (e : Nat) (old new : PointRec) : List Notice :=
  let owner := new.lockOwner.toList
  let claimants := routeClaimants (s.claim? new.flankRef)
  let lockQ := new.lockPos
  let claimQ := s.claimPos new
  let pos := (if gainsPosition old new lockQ then owner else [])
    ++ (if gainsPosition old new claimQ then claimants.filter (fun i =>
          !(gainsPosition old new lockQ && owner.contains i)) else [])
  let lost := if losesPosition old new lockQ then owner else []
  let flank := if losesPosition old new claimQ then claimants else []
  let failed := if !old.failed && new.failed then claimants.foldl (fun acc i => addNew i acc) owner else []
  pos.map (.position · e) ++ lost.map (.detectionLost · e) ++ flank.map (.flankLost · e)
    ++ failed.map (.pointFailed · e)

/-- A point's record written with its notices and marks (R4, R13, R17). -/
def State.writePoint (s : State) (e : Nat) (new : PointRec) : State :=
  match s.point? e with
  | some old => (s.putElem e (.point new)).notifyAll (s.pointNotices e old new)
  | none => s

def State.modPoint (s : State) (e : Nat) (f : PointRec → PointRec) : State :=
  match s.point? e with
  | some p => s.writePoint e (f p)
  | none => s

/-- Condition 1 of R30: every lock and claim the point holds agrees with the target. -/
def State.agrees (s : State) (p : PointRec) (q : Pos) : Bool :=
  (p.lockPos == none || p.lockPos == some q)
    && (p.flankRef.isNone || s.claimPos p == some q)

/-- Condition 2 of R30. -/
def PointRec.flagsClear (p : PointRec) : Bool := !p.failed && !p.localMode && !p.suspect

/-- A section CLEAR with its BLOCK flag clear (R8, R30). -/
def State.sectionFree (s : State) (e : Nat) : Bool :=
  match s.track? e with
  | some t => t.occupancy == .clear && !t.block
  | none => false

/-- Condition 3 of R30. -/
def State.movable (s : State) (p : PointRec) : Bool := !p.block && p.containing.all s.sectionFree

/-- Every section containing the point is CLEAR (R30, R33). -/
def State.containingClear (s : State) (p : PointRec) : Bool := p.containing.all s.isClear

/-- The law of R30 for queueing THROW: every lock and claim requires the position, every containing section is CLEAR. -/
def State.throwLaw (s : State) (p : PointRec) (q : Pos) : Bool := s.agrees p q && s.containingClear p

/-- A queued THROW of the point withdrawn (R25). -/
def State.withdrawThrow (s : State) (e : Nat) : State :=
  match s.unitOf .pdu e with
  | some u => s.dequeue u.address
  | none => s

/-- The drive ends and is removed, its THROW withdrawn (R32, R34). -/
def State.endDrive (s : State) (e : Nat) : State := (s.putDrive e none).withdrawThrow e

/-- The point becomes FAILED (R34). -/
def State.failPoint (s : State) (e : Nat) : State :=
  (s.endDrive e).modPoint e fun p => { p with failed := true, next := none }

/-- A drive withdrawn without FAILED (R34). -/
def State.withdrawDrive (s : State) (e : Nat) : State :=
  match s.drive e with
  | some _ => (s.endDrive e).modPoint e fun p => { p with next := none }
  | none => s

/-- THROW queued under the law of R30; for a point without a unit it fails at once with UNIT_FAULT (R21, R34). -/
def State.enqueueThrow (s : State) (e : Nat) (q : Pos) : State :=
  match s.point? e with
  | none => s
  | some p =>
    if s.throwLaw p q then
      match s.unitOf .pdu e with
      | some u => s.enqueue u.address (.throwTo q)
      | none => s.failPoint e
    else s

/-- A throw request (R30, R31): the state after it, and whether it was taken. R31 names no operator mark for a new drive:
the model creates it with the mark clear (log entry 62). -/
def State.throwRequest (s : State) (e : Nat) (q : Pos) (operator : Bool) : State × Bool :=
  match s.point? e with
  | none => (s, false)
  | some p =>
    if s.agrees p q && p.flagsClear then
      match s.drive e with
      | none =>
        if p.detection == detectionOf q then (s, true)
        else if s.movable p then
          ((s.putDrive e (some ⟨q, p.retries, .stopped, .active, false⟩)).enqueueThrow e q, true)
        else (s, false)
      | some d =>
        if d.target == q then (s, true)
        else
          ((s.modPoint e fun p => { p with next := some q }).putDrive e (some { d with operatorMark := operator }),
            true)
    else (s, false)

/-- Whether a next position is still wanted (R32). -/
def State.wanted (s : State) (p : PointRec) (q : Pos) (operatorMark : Bool) : Bool :=
  p.lockPos == some q || s.claimPos p == some q
    || (operatorMark && p.lockPos != some (oppositePos q) && s.claimPos p != some (oppositePos q))

/-- The next position of a point made absent. A drive that goes on keeps its operator mark as it stands (log entry 62). -/
def State.dropNext (s : State) (e : Nat) : State := s.modPoint e fun p => { p with next := none }

/-- The drive has ended with a next position held: taken as a new throw request if wanted, else dropped (R32). -/
def State.startNext (s : State) (e : Nat) (operatorMark : Bool) : State :=
  match s.point? e with
  | some p =>
    match p.next with
    | some q =>
      let s := s.dropNext e
      if s.wanted p q operatorMark then (s.throwRequest e q false).1 else s
    | none => s
  | none => s

/-- The drive is complete: the target is detected (R32). POSITION was sent as the detection was written. -/
def State.completeDrive (s : State) (e : Nat) (d : Drive) : State := (s.endDrive e).startNext e d.operatorMark

/-- Step 1 of R33 and of the resume of R35: a wanted next position redirects the drive. -/
def State.redirects (s : State) (e : Nat) (d : Drive) : Bool :=
  match (s.point? e).bind fun p => p.next.map fun q => (p, q) with
  | some (p, q) => s.wanted p q d.operatorMark
  | none => false

/-- The end of an attempt (R33): redirection, movability, retry, failure. Step 1 drops a next position that is not wanted and
does not name the operator mark: a drive that goes on keeps it as it stands (log entry 62). -/
def State.attemptEnds (s : State) (e : Nat) (d : Drive) : State :=
  if s.redirects e d then s.completeDrive e d
  else
    let s := s.dropNext e
    match s.point? e with
    | none => s
    | some p =>
      if !s.containingClear p then s.failPoint e
      else if d.attemptsLeft > 0 then
        (s.putDrive e (some { d with attemptsLeft := d.attemptsLeft - 1, timer := .stopped })).enqueueThrow e d.target
      else s.failPoint e

/-- The PDU becomes UNREACHABLE: an ACTIVE drive is paused (R35). -/
def State.pauseDrive (s : State) (e : Nat) : State :=
  match s.drive e with
  | some d =>
    if d.state == .active then s.putDrive e (some { d with state := .paused, timer := d.timer.freeze }) else s
  | none => s

/-- The PDU is REACHABLE again: redirection, movability, resume (R35). Step 1 names a next position that is still wanted; one
that is not is dropped here, as in step 1 of R33 (the model's choice, log entry 54). Where a lock or claim requires the
other position the drive becomes ACTIVE and, under the law of R30, nothing is queued (log entry 15). -/
def State.resumeDrive (s : State) (e : Nat) : State :=
  match s.drive e with
  | some d =>
    if d.state == .paused then
      if s.redirects e d then s.completeDrive e d
      else
        let s := s.dropNext e
        match s.point? e with
        | none => s
        | some p =>
          if !s.containingClear p then s.failPoint e
          else (s.putDrive e (some { d with state := .active })).enqueueThrow e d.target
    else s
  | none => s

def reportedDetection : PduDetection → Detection
  | .detN => .detN
  | .detR => .detR
  | .moving => .moving
  | .noDetection => .noDetection

/-- A PDU report (R4): the record is written, then the drive rules apply (R32, R34). -/
def State.pduReport (s : State) (e : Nat) (d : PduDetection) (loc : Bool) : State :=
  let s := s.modPoint e fun p => { p with detection := reportedDetection d, localMode := loc }
  match s.drive e with
  | some v =>
    if reportedDetection d == detectionOf v.target then s.completeDrive e v
    else if loc then s.withdrawDrive e
    else s
  | none => s

/-- *acknowledged* for a THROW (R32). -/
def State.throwAcked (s : State) (e : Nat) : State :=
  match s.drive e, s.point? e with
  | some d, some p =>
    if d.state == .active then s.putDrive e (some { d with timer := d.timer.resume p.supervision }) else s
  | _, _ => s

/-- *failed* for a THROW by reason; none is NO_ANSWER (R33, R34). -/
def State.throwFailed (s : State) (e : Nat) (r : Option RejectReason) : State :=
  match s.drive e with
  | some d =>
    match r with
    | none => s.attemptEnds e d
    | some .localMode => s.withdrawDrive e
    | some _ => s.failPoint e
  | none => s

/-- The PDU becomes UNREACHABLE: detection UNKNOWN, the drive paused (R4, R28, R35). -/
def State.pduUnreachable (s : State) (e : Nat) : State :=
  (s.modPoint e fun p => { p with detection := .unknown }).pauseDrive e

end Sys2Proof.Machine
end

