-- ==== Sys2Proof/Machine/Signals.lean ====
section
/-! DEFINITION. Signals: writes to a signal's record with their notices, and signal commands (R37 to R40). -/

namespace Sys2Proof.Machine

def Slot.owner : Slot → Option Nat
  | .held i => some i
  | _ => none

/-- The notices of one written change of a signal (R13, R110). A notice that goes to several claimants goes to them in the
order of the claim entry, and the lamp fault comes last: R110 gives no order (log entry 46). -/
def State.signalNotices (s : State) (e : Nat) (old new : SignalRec) : List Notice :=
  let claimants := routeClaimants (s.claim? new.flankRef)
  (if old.shown != .stop && new.shown == .stop then claimants.map (.position · e) else [])
    ++ (if old.shown == .stop && new.shown != .stop then claimants.map (.flankLost · e) else [])
    ++ (if !old.lampFault && new.lampFault && new.commanded == .proceed then
          new.entrySlot.owner.toList.map (.lampFault · e) else [])

/-- A signal's record written with its notices and marks (R4, R13, R17). -/
def State.writeSignal (s : State) (e : Nat) (new : SignalRec) : State :=
  match s.signal? e with
  | some old => (s.putElem e (.signal new)).notifyAll (s.signalNotices e old new)
  | none => s

def State.modSignal (s : State) (e : Nat) (f : SignalRec → SignalRec) : State :=
  match s.signal? e with
  | some g => s.writeSignal e (f g)
  | none => s

/-- Whether a SHOW(STOP) is queued for a unit. -/
def State.stopQueuedAt (s : State) (a : Nat) : Bool :=
  (s.queuedAt a).any fun q => q.telegram == .showAs .stop

/-- SHOW(STOP) queued and marked outstanding; for a signal without a unit it fails at once with UNIT_FAULT, which
ends the mark and makes the signal FAILED (R21, R38, R39). -/
def State.enqueueStop (s : State) (e : Nat) : State :=
  match s.unitOf .sdu e with
  | some u => (s.enqueue u.address (.showAs .stop)).putCmd e { s.cmd e with stopOutstanding := true }
  | none => (s.putCmd e { s.cmd e with stopOutstanding := false }).modSignal e fun g => { g with failed := true }

/-- SHOW(PROCEED) queued. A SHOW(STOP) it replaces before its exchange begins is outstanding no more (R25, R39). -/
def State.enqueueProceed (s : State) (e : Nat) : State :=
  match s.unitOf .sdu e with
  | some u =>
    let flying := (s.queuedAt u.address).any fun q => s.flyingAge == some q.age
    let c := s.cmd e
    (s.enqueue u.address (.showAs .proceed)).putCmd e
      { c with stopOutstanding := c.stopOutstanding && (flying || !s.stopQueuedAt u.address) }
  | none => s

/-- Whether a SHOW is queued for the signal (R39). -/
def State.showQueued (s : State) (e : Nat) : Bool :=
  match s.unitOf .sdu e with
  | some u => (s.queuedAt u.address).isSome
  | none => false

/-- The command record removed (R38, R39). -/
def State.dropCmd (s : State) (e : Nat) : State := s.putCmd e { s.cmd e with awaiting := .stopped }

/-- A STOP command (R39). It follows R39 at the train's entry too, where step 2 of R119 says that nothing is queued from
HELD or CANCELLING: SHOW(STOP) is queued anew where the shown aspect is not STOP (log entry 47). -/
def State.commandStop (s : State) (e : Nat) : State :=
  match s.signal? e with
  | none => s
  | some g =>
    let s := s.dropCmd e
    let quiet := g.commanded == .stop && g.shown == .stop && !s.showQueued e
    let s := s.modSignal e fun g => { g with commanded := .stop }
    if quiet then s else s.enqueueStop e

/-- A PROCEED command that is unsuccessful (R38). -/
def State.proceedFails (s : State) (e : Nat) : State :=
  match s.signal? e with
  | none => s
  | some g =>
    let s := s.dropCmd e
    let s := s.modSignal e fun g => { g with commanded := .stop }
    let s := s.enqueueStop e
    s.notifyAll (g.entrySlot.owner.toList.map (.signalNotCleared · e))

/-- The checks of a PROCEED command (R37, R106). -/
def State.proceedChecks (s : State) (i e : Nat) : Bool :=
  match s.signal? e with
  | some g =>
    g.entrySlot == .held i && !g.failed && !g.suspect && !g.lampFault && g.flankRef.isNone
      && ((s.unitOf .sdu e).map UnitRow.reachable).getD false
  | none => false

/-- A PROCEED command for an instance entering CLEARING (R37). -/
def State.commandProceed (s : State) (i e : Nat) : State :=
  if s.proceedChecks i e then
    let s := s.modSignal e fun g => { g with commanded := .proceed }
    let s := s.putCmd e { s.cmd e with awaiting := .running Config.confirmTime }
    s.enqueueProceed e
  else s.notify (.signalNotCleared i e)

def reportedAspect : SduAspect → Shown
  | .stop => .stop
  | .proceed => .proceed
  | .dark => .dark

/-- An SDU report (R4): the record is written, then the signal command rules apply (R37, R38, R40). -/
def State.sduReport (s : State) (e : Nat) (a : SduAspect) (lamp : Bool) : State :=
  let s := s.modSignal e fun g => { g with shown := reportedAspect a, lampFault := lamp }
  match s.signal? e with
  | none => s
  | some g =>
    let c := s.cmd e
    if c.awaiting.isRunning then
      if a == .proceed then (s.dropCmd e).notifyAll (g.entrySlot.owner.toList.map (.confirmed · e)) else s
    else if g.commanded == .proceed then
      if a == .proceed then s else s.proceedFails e
    else if a == .proceed && !c.stopOutstanding then
      ((s.modSignal e fun g => { g with failed := true }).enqueueStop e).mark (.element e)
    else s

/-- The SDU becomes UNREACHABLE: shown aspect UNKNOWN, a PROCEED command unsuccessful (R4, R28, R38). -/
def State.sduUnreachable (s : State) (e : Nat) : State :=
  let s := s.modSignal e fun g => { g with shown := .unknown }
  match s.signal? e with
  | some g => if g.commanded == .proceed then s.proceedFails e else s
  | none => s

/-- The outstanding mark ends when the exchange answers, unless a later SHOW(STOP) is still queued (R39). -/
def State.stopAnswered (s : State) (e : Nat) : State :=
  match s.unitOf .sdu e with
  | some u => if s.stopQueuedAt u.address then s else s.putCmd e { s.cmd e with stopOutstanding := false }
  | none => s

/-- *failed* for SHOW(STOP): the mark ends and the signal becomes FAILED (R39). -/
def State.stopFailed (s : State) (e : Nat) : State :=
  (s.stopAnswered e).modSignal e fun g => { g with failed := true }

/-- *failed* for SHOW(PROCEED): unsuccessful while the command record exists (R37). -/
def State.showProceedFailed (s : State) (e : Nat) : State :=
  if (s.cmd e).awaiting.isRunning then s.proceedFails e else s

end Sys2Proof.Machine
end

