-- ==== Sys2Proof/Machine/Sections.lean ====
section
/-! DEFINITION. Boundary records and line clear (R165, R166, R184); section occupancy in the LKC (R15); the Axle
Count Evaluator (R42 to R58). -/

namespace Sys2Proof.Machine

/-! ### Boundary records -/

def State.blcAt (s : State) (b : BLink) : Blc := s.blc[b]

/-- Line clear with the link counted as UP (R171). -/
def State.lineFree (s : State) (r : Blc) : Bool := r.lineSections.all s.isClear && r.neighbourClear

/-- Line clear (R166). -/
def State.lineClear (s : State) (b : BLink) : Bool :=
  s.lineFree (s.blcAt b) && (s.blcAt b).link == .up

/-- Whether a timer runs, with no remaining time. -/
def Timer.shape : Timer → Timer
  | .stopped => .stopped
  | .running _ => .running 0
  | .frozen _ => .frozen 0

/-- The fields whose change marks the boundary: all but the running timers (R184). -/
def Blc.still (r : Blc) : Blc :=
  { r with
    changeTimer := .stopped
    outAsks := r.outAsks.map (fun (a : OutAsk) => { a with timer := .stopped })
    assurances := r.assurances.map (fun (a : Assurance) => { a with timer := .stopped })
    release := r.release.shape
    statusTimer := .stopped
    silenceTimer := .stopped
    holdingsTimer := .stopped }

/-- A boundary record written; a change of a field or of line clear marks the boundary on both links (R184). -/
def State.putBlc (s : State) (b : BLink) (r : Blc) : State :=
  let s' := { s with blc := s.blc.set b r }
  if r.still = (s.blcAt b).still ∧ s'.lineClear b = s.lineClear b then s' else s'.mark (.boundary b)

def State.modBlc (s : State) (b : BLink) (f : Blc → Blc) : State := s.putBlc b (f (s.blcAt b))

def blinks : List BLink := [0, 1, 2, 3]

/-! ### Section occupancy (R15) -/

def TrackRec.owner (t : TrackRec) : Option Nat :=
  match t.lock with
  | .held i _ => some i
  | _ => none

/-- A section's record written; a boundary whose line clear changes with it is marked (R166, R184). -/
def State.writeTrack (s : State) (e : Nat) (t : TrackRec) : State :=
  let s' := s.putElem e (.track t)
  blinks.foldl (fun acc b => if s'.lineClear b == s.lineClear b then acc else acc.mark (.boundary b)) s'

/-- The points lying in a section, in ascending number. It is the order in which several moving ones become FAILED, which
R15 and R34 leave open (log entry 53). -/
def State.pointsIn (s : State) (e : Nat) : List Nat :=
  (List.range Config.elementCount).filter fun q =>
    match s.point? q with
    | some p => p.containing.contains e
    | none => false

/-- A point detected MOVING with an ACTIVE drive (R15). -/
def State.movesNow (s : State) (q : Nat) : Bool :=
  match s.point? q, s.drive q with
  | some p, some d => p.detection == .moving && d.state == .active
  | _, _ => false

/-- A section state change handed over by the ACE, as the LKC takes it (R4, R15). Several points that move in it become
FAILED in ascending number (log entry 53). -/
def State.sectionChange (s : State) (e : Nat) (o : Occ) : State :=
  match s.track? e with
  | none => s
  | some t =>
    if t.occupancy == o then s
    else
      let s := s.writeTrack e { t with occupancy := o }
      let s := s.notifyAll (t.owner.toList.map fun i => .track i e t.occupancy o)
      if o == .clear then s.retestTrigger
      else ((s.pointsIn e).filter s.movesNow).foldl (fun s q => s.failPoint q) s

/-! ### Detection points (R46 to R50) -/

/-- A section count record of a section made DISTURBED: count 0, deficit age 0, sweep clear, saturation kept (R50). -/
def SectCount.disturb (c : SectCount) (why : Disturbance) : SectCount :=
  { c with count := 0, state := .disturbed, cause := some why, deficitAge := 0, sweep := false }

/-- A detection point record written; its bordering sections are marked when its state changes (R44), NORMAL or FAILED,
and not for another cause alone (R46). -/
def State.writeDp (s : State) (d : Nat) (old new : DpRec) : State :=
  let s := s.putDp d new
  if (old.state == .normal) = (new.state == .normal) then s
  else new.borders.foldl (fun s b => s.mark (.element b.1)) s

/-- A bordering section made DISTURBED with cause DP_FAILED, unless it is DISTURBED already (R50). -/
def State.disturbBorder (d : Nat) (acc : State × List (Nat × Occ)) (b : Nat × Orient) : State × List (Nat × Occ) :=
  match acc.1.count b.1 with
  | some c =>
    if c.state == .disturbed then acc
    else (acc.1.putCount b.1 (c.disturb (.dpFailed d)), acc.2 ++ [(b.1, .disturbed)])
  | none => acc

/-- A detection point becomes FAILED from NORMAL (R50): the state, and the section changes to hand over, in the order of the
point's list of borders (the model's choice, log entry 6). -/
def State.failDp (s : State) (d : Nat) (old : DpRec) (cause : DpCause) (last : Option (Byte × Byte)) :
    State × List (Nat × Occ) :=
  let s := s.writeDp d old { old with state := .failed cause, last := last, pendingA := 0, pendingB := 0 }
  old.borders.foldl (State.disturbBorder d) (s, [])

/-- A counted difference, modulo 256 (R48). -/
def countDiff (new last : Byte) : Nat := (new - last).toNat

/-- A CH report with the unit's miss count before the exchange (R46, R47, R48, R49). -/
def State.chReport (s : State) (d misses : Nat) (a b : Byte) (sensorFault : Bool) : State × List (Nat × Occ) :=
  match s.dp d with
  | none => (s, [])
  | some r =>
    if sensorFault then
      match r.state with
      | .normal => s.failDp d r .sensorFault r.last
      | .failed _ => (s.writeDp d r { r with state := .failed .sensorFault }, [])
    else
      match r.state, r.last with
      | .normal, some (la, lb) =>
        let dA := countDiff a la
        let dB := countDiff b lb
        if dA > 24 * (1 + min misses 2) ∨ dB > 24 * (1 + min misses 2) then
          s.failDp d r .implausible (some (a, b))
        else
          (s.putDp d { r with last := some (a, b), pendingA := r.pendingA + dA, pendingB := r.pendingB + dB }, [])
      | _, _ => (s.writeDp d r { r with state := .normal, last := some (a, b) }, [])

/-- The CH becomes UNREACHABLE (R50): a NORMAL point becomes FAILED with NO_ANSWER. -/
def State.chUnreachable (s : State) (d : Nat) : State × List (Nat × Occ) :=
  match s.dp d with
  | some r => if r.state == .normal then s.failDp d r .noAnswer r.last else (s, [])
  | none => (s, [])

/-! ### Evaluation at round-complete (R51 to R54, R58) -/

def orientSign : Orient → Int
  | .plus => 1
  | .minus => -1

/-- The round's change of a section (R51). -/
def State.roundChange (s : State) (c : SectCount) : Int :=
  c.points.foldl (fun acc p =>
    match s.dp p.1 with
    | some r => acc + orientSign p.2 * ((r.pendingA : Int) - r.pendingB)
    | none => acc) 0

/-- A negative value within the tolerance: the deficit age goes to 1, or the section is DISTURBED (R53). -/
def SectCount.deficit (c : SectCount) (n : Int) (state : Occ) : SectCount :=
  if c.deficitAge = 0 then { c with count := n, state := state, deficitAge := 1 }
  else { c with count := 0, state := .disturbed, cause := some .persistentDeficit, deficitAge := 0 }

/-- A section in CLEAR or OCCUPIED takes the outcome of the row its new value meets (R52). -/
def SectCount.evaluate (c : SectCount) (tolerance : Nat) (n : Int) : SectCount :=
  if n > 1023 then { c with count := 1023, state := .occupied, deficitAge := 0, saturated := true }
  else if n > 0 then { c with count := n, state := .occupied, deficitAge := 0 }
  else if n = 0 then { c with count := 0, state := if c.saturated then .occupied else .clear, deficitAge := 0 }
  else if -(tolerance : Int) ≤ n then c.deficit n .occupied
  else { c with count := 0, state := .disturbed, cause := some .deficit, deficitAge := 0 }

/-- A section in RESET_PENDING takes the outcome of the row its new value meets (R58). -/
def SectCount.evaluateReset (c : SectCount) (tolerance : Nat) (n : Int) : SectCount :=
  if n > 1023 then
    { c with count := 0, state := .disturbed, cause := some .saturation, deficitAge := 0, sweep := false }
  else if n > 0 then { c with count := n, state := .resetPending, deficitAge := 0, sweep := true }
  else if n = 0 then
    { c with count := 0, state := if c.sweep then .clear else .resetPending, deficitAge := 0, sweep := false }
  else if -(tolerance : Int) ≤ n then c.deficit n .resetPending
  else { c with count := 0, state := .disturbed, cause := some .deficit, deficitAge := 0, sweep := false }

/-- One section at a round-complete, from the pending counts as they stand (R51). -/
def State.evaluated (s : State) (c : SectCount) : SectCount :=
  match c.state with
  | .disturbed => c
  | .resetPending => c.evaluateReset s.cfl.tolerance (c.count + s.roundChange c)
  | _ => c.evaluate s.cfl.tolerance (c.count + s.roundChange c)

def State.evaluateSection (acc : State × List (Nat × Occ)) (e : Nat) : State × List (Nat × Occ) :=
  match acc.1.count e with
  | some c =>
    let c' := acc.1.evaluated c
    (acc.1.putCount e c', if c'.state == c.state then acc.2 else acc.2 ++ [(e, c'.state)])
  | none => acc

/-- Round-complete: every section evaluated, then the pending counts cleared (R51); with the changes to hand over. -/
def State.roundComplete (s : State) : State × List (Nat × Occ) :=
  let acc := (List.range Config.elementCount).foldl State.evaluateSection (s, [])
  ({ acc.1 with ace := { acc.1.ace with dps := acc.1.ace.dps.map (fun o =>
      o.map (fun (r : DpRec) => { r with pendingA := 0, pendingB := 0 })) } }, acc.2)

/-! ### SECTION-RESET (R56, R57) -/

/-- Whether the lock slot allows a reset: no CLEARING or CLEARED instance holds it (R56). -/
def State.resetLockOk (s : State) (t : TrackRec) : Bool :=
  match t.owner.bind s.inst with
  | some i => i.state != .clearing && i.state != .cleared
  | none => true

/-- The preconditions of SECTION-RESET (R56). -/
def State.resetOk (s : State) (e : Nat) : Bool :=
  match s.track? e, s.count e with
  | some t, some c =>
    (c.state == .disturbed || (c.state == .occupied && c.saturated))
      && c.points.all (fun p => (s.dp p.1).any fun r => r.state == .normal)
      && s.resetLockOk t
  | _, _ => false

/-- The reset (R57). -/
def State.sectionReset (s : State) (e : Nat) : State :=
  match s.count e with
  | some c =>
    (s.putCount e { c with count := 0, state := .resetPending, cause := none, deficitAge := 0, sweep := false
                           saturated := false }).sectionChange e .resetPending
  | none => s

end Sys2Proof.Machine
end

