-- ==== Sys2Proof/Machine/Flank.lean ====
section
/-! DEFINITION. Flank claims in the Flank Claim Table (R101 to R106, R112 to R115). -/

namespace Sys2Proof.Machine

def FlankTarget.elem : FlankTarget → Nat
  | .point e _ => e
  | .signal e => e

def FlankTarget.required : FlankTarget → FlankState
  | .point _ p => .pos p
  | .signal _ => .stop

/-- Numbers of free entries (R101). -/
def State.freeEntries (s : State) : List Nat :=
  (List.range Config.fctCount).filter fun n => (s.fctEntry n).isNone

/-- The flank reference of a point or signal. -/
def State.flankRef (s : State) (e : Nat) : Option Nat :=
  match s.elem e with
  | .point p => p.flankRef
  | .signal g => g.flankRef
  | _ => none

/-- First rows of R103 and R104 and the table of R105, counting claims chosen earlier in the same request (R107):
the entry, present or chosen, agrees and has room, or a free entry is left for a new one. -/
def State.entryRoom (s : State) (chosen : List FlankTarget) (t : FlankTarget) : Bool :=
  let mine := chosen.filter fun c => FlankTarget.elem c == FlankTarget.elem t
  mine.all (fun c => FlankTarget.required c == FlankTarget.required t) &&
    match s.claim? (s.flankRef (FlankTarget.elem t)) with
    | some f => f.required == FlankTarget.required t && decide (f.claimants.length + mine.length < Config.maxClaimants)
    | none =>
      if mine.isEmpty then
        let fresh := (chosen.filter fun c => (s.flankRef (FlankTarget.elem c)).isNone).map FlankTarget.elem
        decide (fresh.eraseDups.length < s.freeEntries.length)
      else decide (mine.length < Config.maxClaimants)

/-- Whether the ENTRY slot of a signal allows a claim: no CLEARING or CLEARED instance holds it (R104). -/
def State.entryAllowsClaim (s : State) (g : SignalRec) : Bool :=
  match g.entrySlot.owner.bind s.inst with
  | some i => i.state != .clearing && i.state != .cleared
  | none => true

/-- The claim conditions of R103 and R104; `neighbour` adds the rows of a FLANK-ASK (R114). -/
def State.claimOk (s : State) (chosen : List FlankTarget) (t : FlankTarget) (neighbour : Bool) : Bool :=
  s.entryRoom chosen t &&
    match t with
    | .point e q =>
      match s.point? e with
      | some p =>
        (p.lock == .empty || p.lockPos == some q) && p.flagsClear
          && (p.detection == detectionOf q || (!neighbour && s.movable p))
      | none => false
    | .signal e =>
      match s.signal? e with
      | some g =>
        s.entryAllowsClaim g && !g.suspect
          && (!neighbour || (g.shown == .stop && g.commanded == .stop))
      | none => false

/-- The flank reference of a record written (R101). -/
def State.setFlankRef (s : State) (e : Nat) (r : Option Nat) : State :=
  match s.elem e with
  | .point p => s.putElem e (.point { p with flankRef := r })
  | .signal g => s.putElem e (.signal { g with flankRef := r })
  | _ => s

/-- A claim taken (R105). -/
def State.takeClaim (s : State) (c : Claimant) (t : FlankTarget) : State :=
  let e := FlankTarget.elem t
  match s.flankRef e with
  | some n =>
    match s.fctEntry n with
    | some f =>
      if f.claimants.contains c then s
      else (s.putFct n (some { f with claimants := f.claimants ++ [c] })).mark (.element e)
    | none => s
  | none =>
    match s.freeEntries with
    | n :: _ => ((s.putFct n (some ⟨e, FlankTarget.required t, [c]⟩)).setFlankRef e (some n)).mark (.element e)
    | [] => s

/-- A claimant that satisfies the test leaves an entry (R113): the state, and whether the entry was deleted. -/
def State.dropFrom (s : State) (n : Nat) (leaves : Claimant → Bool) : State × Bool :=
  match s.fctEntry n with
  | none => (s, false)
  | some f =>
    let rest := f.claimants.filter fun c => !leaves c
    if rest.length = f.claimants.length then (s, false)
    else if rest.isEmpty then (((s.putFct n none).setFlankRef f.element none).mark (.element f.element), true)
    else ((s.putFct n (some { f with claimants := rest })).mark (.element f.element), false)

/-- Every claimant that satisfies the test leaves its entry; and whether some entry was deleted (R112, R113). -/
def State.dropClaims (s : State) (leaves : Claimant → Bool) : State × Bool :=
  (List.range Config.fctCount).foldl (fun acc n =>
    let r := acc.1.dropFrom n leaves
    (r.1, acc.2 || r.2)) (s, false)

/-- A boundary drop (R115); the release notice of a deleted entry is a retest trigger (R138). -/
def State.boundaryDrop (s : State) (b : BLink) (ref : Nat) : State :=
  let r := s.dropClaims fun c => c == .boundary b ref
  if r.2 then r.1.retestTrigger else r.1

/-- The references of the boundary claimants on a link (R169), in the order of the table's entries and of their claimants,
which R169 leaves open (log entry 61). -/
def State.givenRefs (s : State) (b : BLink) : List Nat :=
  (List.range Config.fctCount).flatMap fun n =>
    match s.fctEntry n with
    | none => []
    | some f => f.claimants.filterMap fun c =>
        match c with
        | .boundary b' r => if b' == b then some r else none
        | .route _ _ => none

/-- A FLANK-ASK as the LKC takes it (R114): the state and whether the answer is *given*. Of two offers of one reference the
first counts (log entry 57). -/
def State.flankAsk (s : State) (b : BLink) (ref : Nat) : State × Bool :=
  match (s.blcAt b).offers.find? fun o => o.1 == ref with
  | none => (s, false)
  | some o =>
    if ((s.claim? (s.flankRef (FlankTarget.elem o.2))).any fun f => f.claimants.contains (.boundary b ref)) then
      (s, true)
    else if s.claimOk [] o.2 true then (s.takeClaim (.boundary b ref) o.2, true)
    else (s, false)

/-- Whether a claimed element stands in its required state. -/
def State.inState (s : State) (t : FlankTarget) : Bool :=
  match t with
  | .point e q => (s.point? e).any fun p => p.detection == detectionOf q
  | .signal e => (s.signal? e).any fun g => g.shown == .stop

/-- The throw request that follows a claim on a point out of position (R108). -/
def State.throwClaimed (s : State) (t : FlankTarget) : State :=
  match t with
  | .point e q => if s.inState t then s else (s.throwRequest e q false).1
  | .signal _ => s

end Sys2Proof.Machine
end

