-- ==== Sys2Proof/Machine/Links.lean ====
section
/-! DEFINITION. What a Boundary Link Controller does for the other blocks and by itself: sending and holding back
telegrams, direction, acceptance and assurance (R165 to R183). -/

namespace Sys2Proof.Machine

/-! ### Sending (R167, R169) -/

/-- A telegram put on the link at once, unless the link is DOWN. -/
def State.sendNow (s : State) (b : BLink) (t : BoundaryTelegram) : State :=
  if (s.blcAt b).link == .down then s else s.send (.boundary b t)

/-- A telegram sent in UP, held back in SYNC, not sent in DOWN (R169). -/
def State.sendHeld (s : State) (b : BLink) (t : BoundaryTelegram) : State :=
  match (s.blcAt b).link with
  | .up => s.send (.boundary b t)
  | .sync => s.modBlc b fun r => { r with heldBack := r.heldBack ++ [t] }
  | .down => s

/-- The first awaiting ask with a reference whose timer is stopped starts its response timer (R169, R177). -/
def startAsk (ref : Nat) : List OutAsk → List OutAsk
  | [] => []
  | a :: l =>
    if a.ref == ref && a.timer == .stopped then { a with timer := .running Config.responseTime } :: l
    else a :: startAsk ref l

/-- The first ASKING entry with a reference whose timer is stopped starts its response timer (R169, R181). -/
def startAssurance (ref : Nat) : List Assurance → List Assurance
  | [] => []
  | a :: l =>
    if a.ref == ref && !a.assured && a.timer == .stopped then
      { a with timer := .running Config.responseTime } :: l
    else a :: startAssurance ref l

/-- The response timer of an ask starts as its telegram is sent (R169, R177, R181). -/
def startTimerOf (t : BoundaryTelegram) (r : Blc) : Blc :=
  match t with
  | .acceptAsk ref => { r with outAsks := startAsk ref r.outAsks }
  | .flankAsk ref => { r with assurances := startAssurance ref r.assurances }
  | _ => r

/-- One held-back telegram sent as the link comes UP (R169). -/
def State.flushOne (b : BLink) (s : State) (t : BoundaryTelegram) : State :=
  (s.send (.boundary b t)).modBlc b (startTimerOf t)

/-- The held-back telegrams sent in order (R169). -/
def State.flush (s : State) (b : BLink) : State :=
  let held := (s.blcAt b).heldBack
  held.foldl (State.flushOne b) (s.modBlc b fun r => { r with heldBack := [] })

/-- An ask sent with its response timer, or held back in SYNC. -/
def State.sendAsk (s : State) (b : BLink) (t : BoundaryTelegram) : State :=
  match (s.blcAt b).link with
  | .up => s.flushOne b t
  | _ => s.sendHeld b t

/-! ### Link states (R166, R168, R169) -/

/-- Whether every line section of this station is CLEAR: the flag of a STATUS (R166). -/
def State.ownLineClear (s : State) (b : BLink) : Bool := (s.blcAt b).lineSections.all s.isClear

/-- The STATUS of this end (R166). -/
def State.statusOf (s : State) (b : BLink) : StatusBody :=
  ⟨s.ownLineClear b, (s.blcAt b).direction, (s.blcAt b).inAsks.map RefInst.ref⟩

/-- The HOLDINGS of this end (R169); the order of the assurance lists is the model's (log entry 61). -/
def State.holdingsOf (s : State) (b : BLink) : HoldingsBody :=
  let r := s.blcAt b
  ⟨r.direction, r.incoming.map Incoming.ref, r.outgoing.map RefInst.ref, s.givenRefs b,
    ((r.assurances.filter Assurance.assured).map Assurance.ref).eraseDups⟩

/-- A direction change in ASKING returns to IDLE and is reported failed; one in ASKED returns to IDLE (R168, R169). -/
def State.dropChange (s : State) (b : BLink) : State :=
  let asking := (s.blcAt b).change == .asking
  let s := s.modBlc b fun r => { r with change := .idle, changeTimer := .stopped }
  if asking then s.notify (.directionFailed b) else s

/-- The link enters SYNC (R169); leaving DOWN abandons a running release (R183). -/
def State.enterSync (s : State) (b : BLink) : State :=
  let s := s.dropChange b
  let s := s.modBlc b fun r =>
    { r with link := .sync, release := .stopped, silenceTimer := .running Config.silenceTime
             holdingsTimer := .running Config.responseTime }
  s.sendNow b (.holdings (s.holdingsOf b))

/-- Whether this end has given anything on the link (R168). -/
def State.givesAny (s : State) (b : BLink) : Bool :=
  let r := s.blcAt b
  !r.incoming.isEmpty || !r.inAsks.isEmpty || !(s.givenRefs b).isEmpty

/-- LOST_HOLDINGS is cleared in DOWN when the last given item has left (R183). -/
def State.checkLost (s : State) (b : BLink) : State :=
  if (s.blcAt b).link == .down && (s.blcAt b).lostHoldings && !s.givesAny b then
    s.modBlc b fun r => { r with lostHoldings := false }
  else s

/-- The link goes DOWN (R168). -/
def State.goDown (s : State) (b : BLink) : State :=
  let r := s.blcAt b
  let s := s.dropChange b
  let s := s.modBlc b fun r =>
    { r with link := .down, outgoing := [], outAsks := [], assurances := [], neighbourClear := false
             heldBack := [], silenceTimer := .stopped, holdingsTimer := .stopped }
  let s := s.modBlc b fun r => { r with lostHoldings := r.lostHoldings || s.givesAny b }
  s.notifyAll (.linkDown b :: r.outgoing.map (fun a => .acceptanceLost a.inst)
    ++ (r.assurances.filter Assurance.assured).map (fun a => .assuranceLost a.inst a.item))

/-! ### Direction (R173) -/

def mirror : Dir → Dir
  | .outward => .inward
  | .inward => .outward
  | .none => .none

/-- The tests of a direction request after the first two rows (R173). -/
def State.directionTests (s : State) (b : BLink) : Bool :=
  let r := s.blcAt b
  r.link == .up && r.change == .idle && r.isOpen && s.lineClear b && r.incoming.isEmpty && r.inAsks.isEmpty

/-- DIR-ASK sent (R173). -/
def State.askDirection (s : State) (b : BLink) : State :=
  (s.modBlc b fun r => { r with change := .asking, changeTimer := .running Config.responseTime }).sendNow b .dirAsk

/-- The direction request of a reservation (R11, R173). -/
def State.requestDirection (s : State) (b : BLink) : State :=
  if s.directionTests b then s.askDirection b else s.notify (.directionFailed b)

/-! ### Acceptance (R177 to R180) -/

/-- The reference of a route in the outgoing reference table (R165); of two for one route the first counts (log entry 57). -/
def Blc.outRef (r : Blc) (route : Nat) : Option Nat := (r.outRefs.find? fun p => p.1 == route).map Prod.snd

/-- ACCEPT-ASK sent for an instance, or refused at once (R177). -/
def State.askAcceptance (s : State) (b : BLink) (i route : Nat) : State :=
  let r := s.blcAt b
  match r.outRef route with
  | some ref =>
    if r.link != .down && r.direction == .outward && r.isOpen && r.outgoing.isEmpty && r.outAsks.isEmpty then
      (s.modBlc b fun r => { r with outAsks := r.outAsks ++ [⟨ref, i, .stopped⟩] }).sendAsk b (.acceptAsk ref)
    else s.notify (.acceptanceRefused i)
  | none => s.notify (.acceptanceRefused i)

/-- An instance's outgoing acceptance given up: an awaiting ask or an outgoing entry is withdrawn (R177). -/
def State.giveUpAcceptance (s : State) (b : BLink) (i : Nat) : State :=
  let r := s.blcAt b
  match r.outAsks.find? (fun a => a.inst == i), r.outgoing.find? (fun a => a.inst == i) with
  | some a, _ =>
    (s.modBlc b fun r => { r with outAsks := r.outAsks.filter fun a => a.inst != i }).sendHeld b (.acceptWithdraw a.ref)
  | none, some a =>
    (s.modBlc b fun r => { r with outgoing := r.outgoing.filter fun a => a.inst != i }).sendHeld b
      (.acceptWithdraw a.ref)
  | none, none => s

/-- The handover at the last path item (R178). -/
def State.handOver (s : State) (b : BLink) (route : Nat) : State :=
  let s := s.modBlc b fun r => { r with outgoing := r.outgoing.tail }
  let s := s.mark (.boundary b)
  match (s.blcAt b).outRef route with
  | some ref => (s.sendHeld b (.trainHanded ref)).sendHeld b (.acceptEnd ref)
  | none => s

/-- The RIM reports a BOUNDARY_IN instance CLEARED for the first time (R179). -/
def State.acceptanceCleared (s : State) (b : BLink) (i : Nat) : State :=
  match (s.blcAt b).inAsks.find? fun a => a.inst == i with
  | some a =>
    if (s.blcAt b).direction == .inward then
      (s.modBlc b fun r =>
        { r with inAsks := r.inAsks.filter (fun a => a.inst != i)
                 incoming := r.incoming ++ [⟨a.ref, i, false, false⟩] }).sendHeld b (.acceptGive a.ref)
    else
      ((s.modBlc b fun r => { r with inAsks := r.inAsks.filter fun a => a.inst != i }).sendHeld b
        (.acceptRefuse a.ref .direction)).notify (.withdrawn i)
  | none => s

/-- The setting of a BOUNDARY_IN instance failed or was cancelled (R179): the pending ask is refused UNAVAILABLE. -/
def State.refusePending (s : State) (b : BLink) (i : Nat) : State :=
  match (s.blcAt b).inAsks.find? fun a => a.inst == i with
  | some a =>
    ((s.modBlc b fun r => { r with inAsks := r.inAsks.filter fun a => a.inst != i }).sendHeld b
      (.acceptRefuse a.ref .unavailable)).checkLost b
  | none => s

/-- The train enters path item 1 of a BOUNDARY_IN instance: the oldest incoming entry leaves (R119, R180). -/
def State.consumeIncoming (s : State) (b : BLink) : State :=
  (s.modBlc b fun r => { r with incoming := r.incoming.tail }).checkLost b

/-- Emergency release expiry of a BOUNDARY_IN instance: its entry leaves, nothing is sent (R180). -/
def State.dropIncoming (s : State) (b : BLink) (i : Nat) : State :=
  (s.modBlc b fun r => { r with incoming := r.incoming.filter fun a => a.inst != i }).checkLost b

/-! ### Flank assurance (R181) -/

/-- FLANK-ASK for a BOUNDARY flank item of an instance (R181). -/
def State.askAssurance (s : State) (b : BLink) (ref i item : Nat) : State :=
  if (s.blcAt b).link == .down then s.notify (.itemLinkDown i b)
  else
    (s.modBlc b fun r => { r with assurances := r.assurances ++ [⟨ref, i, item, false, .stopped⟩] }).sendAsk b
      (.flankAsk ref)

/-- An assurance entry of an instance's item. -/
def Assurance.isOf (a : Assurance) (i item : Nat) : Bool := a.inst == i && a.item == item

/-- A flank item given up: FLANK-DROP when an ASSURED entry leaves as the last of its reference (R181). -/
def State.giveUpAssurance (s : State) (b : BLink) (i item : Nat) : State :=
  match (s.blcAt b).assurances.find? fun a => a.isOf i item with
  | some a =>
    let s := s.modBlc b fun r => { r with assurances := r.assurances.filter fun a => !a.isOf i item }
    if a.assured && !(s.blcAt b).assurances.any (fun x => x.ref == a.ref) then s.sendHeld b (.flankDrop a.ref) else s
  | none => s

/-! ### Withdrawal (R180, R183) -/

/-- Removes the first entry that satisfies a test. -/
def dropFirst {α : Type} (p : α → Bool) : List α → List α
  | [] => []
  | a :: l => if p a then l else a :: dropFirst p l

end Sys2Proof.Machine
end

