-- ==== Sys2Proof/Machine/Reserve.lean ====
section
/-! DEFINITION. The reservation request (R6 to R11, R107, R108), the release request (R12, R112) and the clearing
request (R89). -/

namespace Sys2Proof.Machine

/-! ### Item acceptance (R7 to R10) -/

/-- The owner of an OVERLAP lock accepted by transfer (R10): its exit is the new entry, it is CLEARED or IN_USE. -/
def State.transferFrom (s : State) (d : RouteDef) (owner : Nat) : Bool :=
  match s.live owner with
  | some (i, r) => r.exit == d.entry && (i.state == .cleared || i.state == .inUse)
  | none => false

/-- The instance whose overlap lock on a section a path item takes over (R10). -/
def State.sectionTransfer (s : State) (d : RouteDef) (t : TrackRec) : Option Nat :=
  match t.lock with
  | .held j .overlap => if s.transferFrom d j then some j else none
  | _ => none

/-- The instance whose overlap lock on a point a path item takes over (R10). -/
def State.pointTransfer (s : State) (d : RouteDef) (p : PointRec) (q : Pos) : Option Nat :=
  match p.lock with
  | .held j .overlap q' => if q' == q && s.transferFrom d j then some j else none
  | _ => none

/-- A section item (R7); `lastShunt`: the last path item of a SHUNT route; `inPath`: transfer is open to it. -/
def State.sectionItemOk (s : State) (d : RouteDef) (inPath lastShunt : Bool) (e : Nat) : Bool :=
  match s.track? e with
  | none => false
  | some t =>
    (t.lock == .empty || (inPath && (s.sectionTransfer d t).isSome)) && !t.block && !t.suspect
      && (t.occupancy == .clear || (lastShunt && t.occupancy == .occupied))

/-- A point item (R8). -/
def State.pointItemOk (s : State) (d : RouteDef) (inPath : Bool) (r : PointReq) : Bool :=
  match s.point? r.point with
  | none => false
  | some p =>
    (p.lock == .empty || (inPath && (s.pointTransfer d p r.pos).isSome))
      && (p.flankRef.isNone || s.claimPos p == some r.pos) && p.flagsClear
      && (p.detection == detectionOf r.pos || s.movable p)

/-- The entry item (R9). -/
def State.entryItemOk (s : State) (d : RouteDef) : Bool :=
  match s.elem d.entry with
  | .signal g => g.entrySlot == .empty && g.flankRef.isNone && !g.block && !g.failed && !g.suspect
  | .boundary b => b.entrySlot == .empty
  | _ => false

/-- The exit item (R9). -/
def State.exitItemOk (s : State) (d : RouteDef) : Bool :=
  match s.elem d.exit with
  | .signal g => g.exitSlot == .empty
  | .boundary b =>
    let r := s.blcAt b.link
    b.exitSlot == .empty && r.link != .down && r.isOpen && (r.direction == .outward || s.lineClear b.link)
  | _ => false

/-- The elements of one path item or overlap that fail, in item order. -/
def State.itemFailures (s : State) (d : RouteDef) (inPath lastShunt : Bool) (it : PathItem) : List Nat :=
  (if s.sectionItemOk d inPath lastShunt it.sect then [] else [it.sect])
    ++ (it.points.filter fun r => !s.pointItemOk d inPath r).map PointReq.point

/-- Path items with their index from 1. -/
def indexedPath (d : RouteDef) : List (Nat × PathItem) := (List.range' 1 d.path.length).zip d.path

/-- Whether a path index is the last of a SHUNT route (R7). -/
def shuntLast (d : RouteDef) (k : Nat) : Bool := d.cls == .shunt && k == d.path.length

/-- Whether an alternative of a flank item passes (R107). -/
def State.primaryOk (s : State) (chosen : List FlankTarget) : FlankPrimary → Bool
  | .claim t => s.claimOk chosen t false
  | .boundary b _ =>
    match s.boundary? (s.boundaryElem b) with
    | some r => !r.unused && !r.suspect && (s.blcAt b).link != .down
    | none => false

/-- The element named when a flank item fails (R107). -/
def State.primaryElem (s : State) : FlankPrimary → Nat
  | .claim t => FlankTarget.elem t
  | .boundary b _ => s.boundaryElem b

/-- The alternative of a flank item that passes first (R107): its number, and its target unless it is a BOUNDARY. -/
def State.chooseFlank (s : State) (chosen : List FlankTarget) (f : FlankItem) : Option (Nat × Option FlankTarget) :=
  if s.primaryOk chosen f.primary then
    match f.primary with
    | .claim t => some (0, some t)
    | .boundary _ _ => some (0, none)
  else
    ((List.range' 1 f.subs.length).zip f.subs).findSome? fun p =>
      if s.claimOk chosen p.2 false then some (p.1, some p.2) else none

/-- The flank items in definition order, each seeing the claims chosen before it (R107): the choices, or the element
named by the first that fails. -/
def State.chooseAll (s : State) : List FlankTarget → List FlankItem → Except Nat (List (Nat × Option FlankTarget))
  | _, [] => .ok []
  | chosen, f :: l =>
    match s.chooseFlank chosen f with
    | none => .error (s.primaryElem f.primary)
    | some c =>
      match s.chooseAll (chosen ++ c.2.toList) l with
      | .ok r => .ok (c :: r)
      | .error e => .error e

/-- The reservation's test (R6): the element of the first item that fails, or the flank choices. -/
def State.testItems (s : State) (d : RouteDef) : Except Nat (List (Nat × Option FlankTarget)) :=
  let slots := (if s.entryItemOk d then [] else [d.entry]) ++ (if s.exitItemOk d then [] else [d.exit])
  let path := (indexedPath d).flatMap fun p => s.itemFailures d true (shuntLast d p.1) p.2
  let beyond := d.overlap.toList.flatMap (s.itemFailures d false false)
  match slots ++ path ++ beyond with
  | e :: _ => .error e
  | [] => s.chooseAll [] d.flank

/-! ### Effects (R11) -/

/-- The ENTRY slot of a signal or boundary element written. -/
def State.setEntry (s : State) (e : Nat) (f : Slot → Slot) : State :=
  match s.elem e with
  | .signal g => s.putElem e (.signal { g with entrySlot := f g.entrySlot })
  | .boundary b => s.putElem e (.boundary { b with entrySlot := f b.entrySlot })
  | _ => s

/-- The EXIT slot of a signal or boundary element written. -/
def State.setExit (s : State) (e : Nat) (f : Slot → Slot) : State :=
  match s.elem e with
  | .signal g => s.putElem e (.signal { g with exitSlot := f g.exitSlot })
  | .boundary b => s.putElem e (.boundary { b with exitSlot := f b.exitSlot })
  | _ => s

/-- A slot released by an instance: emptied if it holds it, else left as it stands (R12). -/
def Slot.releaseBy (i : Nat) (x : Slot) : Slot := if x = .held i then .empty else x

/-- A path item or overlap locked (R11). -/
def State.lockItem (i : Nat) (role : Role) (s : State) (it : PathItem) : State :=
  let s : State := match s.track? it.sect with
    | some t => s.putElem it.sect (.track { t with lock := .held i role })
    | none => s
  it.points.foldl (fun s r =>
    match s.point? r.point with
    | some p => s.putElem r.point (.point { p with lock := .held i role r.pos })
    | none => s) s

/-- A section's lock emptied if the instance holds it (R12); whether it did. -/
def State.unlockTrack (i : Nat) (acc : State × Bool) (e : Nat) : State × Bool :=
  match acc.1.track? e with
  | some t =>
    match t.lock with
    | .held j _ => if j == i then (acc.1.putElem e (.track { t with lock := .empty }), true) else acc
    | _ => acc
  | none => acc

/-- A point's lock emptied if the instance holds it (R12). -/
def State.unlockPoint (i : Nat) (acc : State × Bool) (e : Nat) : State × Bool :=
  match acc.1.point? e with
  | some p =>
    match p.lock with
    | .held j _ _ => if j == i then (acc.1.putElem e (.point { p with lock := .empty }), true) else acc
    | _ => acc
  | none => acc

/-- The slots of one path item or overlap emptied where the instance holds them (R12). -/
def State.unlockItem (i : Nat) (acc : State × Bool) (it : PathItem) : State × Bool :=
  (it.points.map PointReq.point).foldl (State.unlockPoint i) (State.unlockTrack i acc it.sect)

def State.unlockEntry (i : Nat) (acc : State × Bool) (e : Nat) : State × Bool :=
  let s : State := acc.1.setEntry e (Slot.releaseBy i)
  (s, acc.2 || s.elem e != acc.1.elem e)

def State.unlockExit (i : Nat) (acc : State × Bool) (e : Nat) : State × Bool :=
  let s : State := acc.1.setExit e (Slot.releaseBy i)
  (s, acc.2 || s.elem e != acc.1.elem e)

/-- The release notice, when something was emptied (R12, R138). -/
def releaseNotice (r : State × Bool) : State := if r.2 then r.1.retestTrigger else r.1

/-- The old owners whose overlap the path takes over (R10). -/
def State.transferOwners (s : State) (d : RouteDef) : List Nat :=
  (d.path.flatMap fun it =>
    ((s.track? it.sect).bind (s.sectionTransfer d)).toList
      ++ it.points.filterMap fun r => (s.point? r.point).bind fun p => s.pointTransfer d p r.pos).eraseDups

/-- The rest of an old instance's overlap released, with its OVERLAP_TRANSFERRED notice (R11). -/
def State.transferRest (s : State) (owner : Nat) : State :=
  let s : State := match s.live owner with
    | some (_, d) => releaseNotice (d.overlap.toList.foldl (State.unlockItem owner) (s, false))
    | none => s
  s.notify (.overlapTransferred owner)

/-- One flank item's claim taken (R108). -/
def State.claimItem (i : Nat) (s : State) (p : Nat × (Nat × Option FlankTarget)) : State :=
  match p.2.2 with
  | some t => s.takeClaim (.route i p.1) t
  | none => s

/-- A locked point out of position receives its throw request (R11). -/
def State.throwReq (s : State) (r : PointReq) : State := s.throwClaimed (.point r.point r.pos)

/-- The assurance asks of a reservation (R11, R108). -/
def State.askItem (i : Nat) (s : State) (p : Nat × FlankItem) : State :=
  match p.2.primary with
  | .boundary b ref => s.askAssurance b ref i p.1
  | .claim _ => s

/-- Flank choices with their item index from 1. -/
def indexFrom1 {α : Type} (l : List α) : List (Nat × α) := (List.range' 1 l.length).zip l

/-- The boundary link of a route's exit. -/
def State.exitLink (s : State) (d : RouteDef) : Option BLink := (s.boundary? d.exit).map BoundaryRec.link

/-- The boundary link of a route's entry. -/
def State.entryLink (s : State) (d : RouteDef) : Option BLink := (s.boundary? d.entry).map BoundaryRec.link

/-- Whether a BOUNDARY_OUT route's direction is not OUT (R6). -/
def State.needsDirection (s : State) (d : RouteDef) : Option BLink :=
  (s.exitLink d).bind fun b => if d.cls == .boundaryOut && (s.blcAt b).direction != .outward then some b else none

/-- The outstanding list of *reserved* as waiting entries, in item order (R6, R81). Two flank items on one element out of
its state are two entries, one at each item (log entry 43). -/
def State.outstanding (s : State) (d : RouteDef) (choices : List (Nat × Option FlankTarget)) : List Wait :=
  let pts := (d.path ++ d.overlap.toList).flatMap PathItem.points
  (if (s.needsDirection d).isSome then [.direction] else [])
    ++ (if d.cls == .boundaryOut then [.acceptance] else [])
    ++ ((pts.filter fun r => !s.inState (.point r.point r.pos)).map fun r => .point r.point)
    ++ (indexFrom1 choices).filterMap fun p =>
      match p.2.2 with
      | none => some (.asking p.1)
      | some t => if s.inState t then none else some (.flank p.1 (FlankTarget.elem t))

/-- What *reserved* answers (R6, R108): the state, the flank items' choices and the waiting set. -/
structure Reserved where
  state : State
  flank : List FlankChoice
  waiting : List Wait

def choiceOf (c : Nat × Option FlankTarget) : FlankChoice := ⟨c.1, if c.2.isNone then .asking else .claimed⟩

/-- The BOUNDARY flank items whose primary was chosen. -/
def askedItems (d : RouteDef) (choices : List (Nat × Option FlankTarget)) : List (Nat × FlankItem) :=
  ((indexFrom1 d.flank).zip choices).filterMap fun p => if p.2.2.isNone then some p.1 else none

/-- The effects of a reservation that passes (R11). The throw requests are made in item order, an order R11 does not give
(log entry 58). -/
def State.applyReservation (s : State) (i : Nat) (d : RouteDef) (choices : List (Nat × Option FlankTarget)) :
    Reserved :=
  let owners := s.transferOwners d
  let s : State := (s.setEntry d.entry (fun _ => .held i)).setExit d.exit (fun _ => .held i)
  let s : State := d.path.foldl (State.lockItem i .path) s
  let s : State := d.overlap.toList.foldl (State.lockItem i .overlap) s
  let s : State := owners.foldl State.transferRest s
  let s : State := (indexFrom1 choices).foldl (State.claimItem i) s
  let s : State := ((d.path ++ d.overlap.toList).flatMap PathItem.points).foldl State.throwReq s
  let s : State := (choices.filterMap Prod.snd).foldl State.throwClaimed s
  let waiting := s.outstanding d choices
  let s : State := match s.needsDirection d with
    | some b => s.requestDirection b
    | none => s
  let s : State := (askedItems d choices).foldl (State.askItem i) s
  ⟨s, choices.map choiceOf, waiting⟩

/-- A reservation request taken whole (R6): *blocked* with its element, or *reserved*. -/
def State.reserve (s : State) (i : Nat) (d : RouteDef) : Except Nat Reserved :=
  match s.testItems d with
  | .error e => .error e
  | .ok choices => .ok (s.applyReservation i d choices)

/-! ### Release requests (R12, R112) -/

/-- Whether a claimant is of the instance under a flank item that protects path item k (R112). -/
def protectsItem (d : RouteDef) (i k : Nat) (c : Claimant) : Bool :=
  match c with
  | .route j m => j == i && ((d.flank[m - 1]?).map FlankItem.protects == some k)
  | .boundary _ _ => false

/-- The release of path item k at sectional release (R12, R123). -/
def State.releasePathItem (s : State) (i : Nat) (d : RouteDef) (k : Nat) : State :=
  let acc := if k = 1 then State.unlockEntry i (s, false) d.entry else (s, false)
  let acc := if k = d.path.length then State.unlockExit i acc d.exit else acc
  let acc := (d.path[k - 1]?).toList.foldl (State.unlockItem i) acc
  let r := acc.1.dropClaims (protectsItem d i k)
  releaseNotice (r.1, acc.2 || r.2)

/-- The release of the overlap (R12, R127). -/
def State.releaseOverlap (s : State) (i : Nat) (d : RouteDef) : State :=
  releaseNotice (d.overlap.toList.foldl (State.unlockItem i) (s, false))

def Claimant.isInst (i : Nat) : Claimant → Bool
  | .route j _ => j == i
  | .boundary _ _ => false

/-- The release of all items (R12): every slot that holds the instance, and all its claims. -/
def State.releaseItems (s : State) (i : Nat) (d : RouteDef) : State :=
  let acc := State.unlockExit i (State.unlockEntry i (s, false) d.entry) d.exit
  let acc := (d.path ++ d.overlap.toList).foldl (State.unlockItem i) acc
  let r := acc.1.dropClaims (Claimant.isInst i)
  releaseNotice (r.1, acc.2 || r.2)

/-! ### The clearing request (R89) -/

/-- A point item's clearing conditions; the waiting entry it fails with. -/
def State.pointProof (s : State) (i : Nat) (role : Role) (r : PointReq) : List (Option Wait) :=
  match s.point? r.point with
  | some p =>
    if p.lock == .held i role r.pos && p.detection == detectionOf r.pos && p.flagsClear then []
    else [some (.point r.point)]
  | none => [some (.point r.point)]

/-- A path item's clearing conditions. -/
def State.itemProof (s : State) (i : Nat) (d : RouteDef) (k : Nat) (it : PathItem) : List (Option Wait) :=
  (match s.track? it.sect with
    | some t =>
      (if t.lock == .held i .path then [] else [none])
        ++ (if t.occupancy == .clear || (shuntLast d k && t.occupancy == .occupied) then [] else [some (.track it.sect)])
    | none => [none])
    ++ it.points.flatMap (s.pointProof i .path)

/-- The overlap's clearing conditions; an overlap already RELEASED fails at its section. -/
def State.overlapProof (s : State) (i : Nat) (r : Inst) (it : PathItem) : List (Option Wait) :=
  if r.overlap == .locked then
    (match s.track? it.sect with
      | some t => if t.lock == .held i .overlap then [] else [none]
      | none => [none])
      ++ it.points.flatMap (s.pointProof i .overlap)
  else [none]

/-- The target of a flank item's chosen alternative. -/
def chosenTarget (f : FlankItem) (alternative : Nat) : Option FlankTarget :=
  if alternative = 0 then
    match f.primary with
    | .claim t => some t
    | .boundary _ _ => none
  else f.subs[alternative - 1]?

/-- A flank item's clearing condition: CLAIMED by the instance with its element in the required state, or ASSURED. -/
def State.flankProof (s : State) (i : Nat) (p : Nat × (FlankItem × FlankChoice)) : List (Option Wait) :=
  match p.2.2.status with
  | .assured => []
  | .asking => [some (.asking p.1)]
  | .claimed =>
    match chosenTarget p.2.1 p.2.2.alternative with
    | none => [none]
    | some t =>
      let claimed := (s.claim? (s.flankRef (FlankTarget.elem t))).any fun (f : FctEntry) =>
        f.required == FlankTarget.required t && f.claimants.contains (.route i p.1)
      if claimed && s.inState t then [] else [some (.flank p.1 (FlankTarget.elem t))]

/-- Whether the ENTRY slot of an element holds an instance. -/
def State.entryHeld (s : State) (i e : Nat) : Bool :=
  match s.elem e with
  | .signal g => g.entrySlot == .held i
  | .boundary b => b.entrySlot == .held i
  | _ => false

def State.exitHeld (s : State) (i e : Nat) : Bool :=
  match s.elem e with
  | .signal g => g.exitSlot == .held i
  | .boundary b => b.exitSlot == .held i
  | _ => false

/-- The clearing request's failing items in item order, each with its waiting entry where it has one (R89). -/
def State.clearingFailures (s : State) (i : Nat) (r : Inst) (d : RouteDef) : List (Option Wait) :=
  (if s.entryHeld i d.entry then [] else [none])
    ++ (if s.exitHeld i d.exit then [] else [none])
    ++ (if d.cls == .boundaryOut && r.acceptance != .held then [some .acceptance] else [])
    ++ (indexedPath d).flatMap (fun p => s.itemProof i d p.1 p.2)
    ++ d.overlap.toList.flatMap (s.overlapProof i r)
    ++ (indexFrom1 (d.flank.zip r.flank)).flatMap (s.flankProof i)

end Sys2Proof.Machine
end

