-- ==== Sys2Proof/Machine/Routes.lean ====
section
/-! DEFINITION. The Route Instance Manager: the waiting set, proving and supervision (chapter 5), train passage and
release (chapter 7), and how it takes notices and reports (R80). -/

namespace Sys2Proof.Machine

/-! ### What an instance lists -/

/-- The index of a path section, from 1. -/
def pathIndex (d : RouteDef) (e : Nat) : Option Nat :=
  ((indexedPath d).find? fun p => p.2.sect == e).map Prod.fst

/-- The section of a path index. -/
def pathSect (d : RouteDef) (k : Nat) : Nat := ((d.path[k - 1]?).map PathItem.sect).getD Config.elementCount

def overlapSect (d : RouteDef) : Option Nat := d.overlap.map PathItem.sect

/-- Whether path item k of the instance is not released yet (R122). -/
def Inst.unreleased (r : Inst) (k : Nat) : Bool := decide (r.releasePtr ≤ k) && !r.pathReleased

/-- The path items not released yet. -/
def Inst.openItems (r : Inst) (d : RouteDef) : List PathItem :=
  ((indexedPath d).filter fun p => r.unreleased p.1).map Prod.snd

/-- Whether the overlap still holds its locks. -/
def Inst.overlapHeld (r : Inst) : Bool := r.overlap == .locked || r.overlap == .timing

/-- Whether an item list holds a point. -/
def hasPoint (l : List PathItem) (e : Nat) : Bool := l.any fun it => it.points.any fun p => p.point == e

/-- The point is an unreleased path point, or an overlap point of an overlap that is held. -/
def Inst.locksPoint (r : Inst) (d : RouteDef) (e : Nat) : Bool :=
  hasPoint (r.openItems d) e || (r.overlapHeld && hasPoint d.overlap.toList e)

/-- The CLAIMED flank items whose chosen alternative is the element, with their index. -/
def Inst.flankOn (r : Inst) (d : RouteDef) (e : Nat) : List Nat :=
  (indexFrom1 (d.flank.zip r.flank)).filterMap fun p =>
    if p.2.2.status == .claimed && r.unreleased p.2.1.protects
        && (chosenTarget p.2.1 p.2.2.alternative).map FlankTarget.elem == some e then some p.1
    else none

/-- Whether the instance lists the element in entry, exit, path, overlap or flank items not released (R13, R80). -/
def Inst.lists (r : Inst) (d : RouteDef) (e : Nat) : Bool :=
  (d.entry == e && r.unreleased 1) || (d.exit == e && r.unreleased d.path.length)
    || (r.openItems d).any (fun it => it.sect == e) || r.locksPoint d e
    || (r.overlapHeld && overlapSect d == some e) || !(r.flankOn d e).isEmpty

/-- The BOUNDARY flank items that are ASKING or ASSURED, in ascending item index: index, link. R87 and R93 name no status;
an item that was substituted, and is CLAIMED, is left out (log entry 44). -/
def Inst.boundaryItems (r : Inst) (d : RouteDef) : List (Nat × BLink) :=
  (indexFrom1 (d.flank.zip r.flank)).filterMap fun p =>
    match p.2.1.primary with
    | .boundary b _ => if p.2.2.status == .claimed then none else some (p.1, b)
    | .claim _ => none

/-- Whether the instance's boundary EXIT, boundary ENTRY or a BOUNDARY flank item lies on the link (R168). -/
def State.onLink (s : State) (r : Inst) (d : RouteDef) (b : BLink) : Bool :=
  s.exitLink d == some b || s.entryLink d == some b || (r.boundaryItems d).any fun p => p.2 == b

/-- The live instances with their definitions, in ascending number. -/
def instNumbers : List Nat := List.range Config.instCount

/-! ### The waiting set (R81) -/

/-- The place of a point among the points of an item, from 1. -/
def pointPlace (it : PathItem) (e : Nat) : Nat := (it.points.findIdx fun p => p.point == e) + 1

/-- Whether a waiting entry awaits the position or aspect of an element (R83). -/
def Wait.isOn (e : Nat) : Wait → Bool
  | .point x => x == e
  | .flank _ x => x == e
  | _ => false

/-- The place of a waiting entry in item order (R81): direction and acceptance at the EXIT item. -/
def waitKey (d : RouteDef) : Wait → Nat
  | .direction => 0
  | .acceptance => 1
  | .track e => 10 + 10 * (pathIndex d e).getD 13
  | .point e =>
    match (indexFrom1 (d.path ++ d.overlap.toList)).find? fun p => p.2.points.any fun q => q.point == e with
    | some p => 10 + 10 * p.1 + pointPlace p.2 e
    | none => 199
  | .flank m _ => 200 + m
  | .asking m => 200 + m

/-- An entry joins the set at its place, unless it is in it (R81). -/
def insertWait (d : RouteDef) (w : Wait) (l : List Wait) : List Wait :=
  if l.contains w then l
  else l.takeWhile (fun x => waitKey d x ≤ waitKey d w) ++ w :: l.dropWhile (fun x => waitKey d x ≤ waitKey d w)

def joinWaits (d : RouteDef) (ws : List Wait) (r : Inst) : Inst :=
  { r with waiting := ws.foldl (fun l w => insertWait d w l) r.waiting }

/-- The element of a waiting entry (R82, R100). -/
def State.waitElem (s : State) (d : RouteDef) : Wait → Nat
  | .point e => e
  | .flank _ e => e
  | .track e => e
  | .direction => d.exit
  | .acceptance => d.exit
  | .asking m => ((d.flank[m - 1]?).map fun f => s.primaryElem f.primary).getD d.exit

/-! ### Freeing and giving up (R88, R129, R131) -/

/-- A pending EMERGENCY-RELEASE of the instance does not survive its freeing (R133). -/
def breakAux (i : Nat) (c : Olc) : Olc :=
  { c with aux := c.aux.map fun a => if a.kind == .emergencyRelease && a.object == i then { a with broken := true } else a }

/-- The record freed, the RQS told (R129). -/
def State.freeRecord (s : State) (i : Nat) : State :=
  (((s.putInst i none).modOlc .olC (breakAux i)).modOlc .olL (breakAux i)).retestTrigger

/-- The test of R129. -/
def Inst.done (r : Inst) : Bool :=
  r.pathReleased && (r.overlap == .none || r.overlap == .released)
    && (r.acceptance == .absent || r.acceptance == .released)

def State.tryFree (s : State) (i : Nat) : State :=
  match s.inst i with
  | some r => if r.done then s.freeRecord i else s
  | none => s

/-- Open boundary matters of an instance closed toward the neighbours (R88, R131, R135). A withdrawal passes here too: R180
has it send the neighbour no telegram, R112 has every release give BOUNDARY flank items up, and the model follows R112, so
that FLANK-DROP may go out (log entry 56). Several BOUNDARY flank items are given up in ascending item index, an order the
rules do not give (log entry 63). -/
def State.closeMatters (s : State) (i : Nat) (r : Inst) (d : RouteDef) : State :=
  let s : State := match s.exitLink d with
    | some b => if d.cls == .boundaryOut && (r.acceptance == .asked || r.acceptance == .held) then
        s.giveUpAcceptance b i else s
    | none => s
  let s : State := (r.boundaryItems d).foldl (fun s p => s.giveUpAssurance p.2 i p.1) s
  match s.entryLink d with
  | some b =>
    if d.cls == .boundaryIn then
      if r.acceptance == .given then s.dropIncoming b i else s
    else s
  | none => s

/-- For a BOUNDARY_IN instance in LOCKING, its BLC refuses the neighbour (R88, R131). -/
def State.tellRefused (s : State) (i : Nat) (r : Inst) (d : RouteDef) : State :=
  match s.entryLink d with
  | some b => if d.cls == .boundaryIn && r.state == .locking then s.refusePending b i else s
  | none => s

/-- A release of all items (R131, R135, R180). -/
def State.releaseAll (s : State) (i : Nat) : State :=
  match s.live i with
  | some (r, d) => (((s.closeMatters i r d).tellRefused i r d).releaseItems i d).freeRecord i
  | none => s

/-- The links whose part status carries an instance's setting failure (R100). -/
def failureLinks : Origin → List OpLink
  | .op l => [l]
  | .store l => [l]
  | .blc _ => bothLinks

/-- The setting failure record written into part status (R100). -/
def State.recordFailure (s : State) (o : Origin) (f : SettingFailure) : State :=
  (failureLinks o).foldl (fun s l => (s.modOlc l fun c => { c with failure := some f }).markAt l .partStatus) s

/-- Setting fails (R88). -/
def State.settingFails (s : State) (i : Nat) (cause : FailCause) (e : Nat) : State :=
  match s.live i with
  | some (r, d) =>
    let s : State := ((s.closeMatters i r d).releaseItems i d).freeRecord i
    (s.recordFailure r.origin ⟨i, r.route, cause, e⟩).tellRefused i r d
  | none => s

/-! ### Proving (R86, R89, R90) -/

/-- *pass* (R90): CLEARING with PROCEED commanded, or CLEARED for BOUNDARY_IN. -/
def State.clearingPasses (s : State) (i : Nat) (r : Inst) (d : RouteDef) : State :=
  if d.cls == .boundaryIn then
    let s : State := s.modInst i fun r =>
      { r with state := .cleared, setting := .stopped, causes := []
               acceptance := if r.acceptance == .notGiven then .given else r.acceptance }
    match s.entryLink d with
    | some b => if r.acceptance == .notGiven then s.acceptanceCleared b i else s
    | none => s
  else
    (s.modInst i fun r => { r with state := .clearing, setting := .stopped, causes := [] }).commandProceed i d.entry

/-- A clearing request from LOCKING and its answer (R89, R90): failing items join the waiting set. -/
def State.requestClearing (s : State) (i : Nat) : State :=
  match s.live i with
  | some (r, d) =>
    match s.clearingFailures i r d with
    | [] => s.clearingPasses i r d
    | l => s.modInst i (joinWaits d (l.filterMap id))
  | none => s

/-- What follows a change of the waiting set (R83, R86): an empty set sends the clearing request, a set of the
acceptance alone asks for it. -/
def State.checkWaiting (s : State) (i : Nat) : State :=
  match s.live i with
  | some (r, d) =>
    if r.state != .locking then s
    else if r.waiting.isEmpty then s.requestClearing i
    else if r.waiting == [.acceptance] && r.acceptance == .notAsked then
      match s.exitLink d with
      | some b => (s.modInst i fun r => { r with acceptance := .asked }).askAcceptance b i r.route
      | none => s
    else s
  | none => s

/-- Waiting entries removed from an instance in LOCKING. -/
def State.unwait (s : State) (i : Nat) (p : Wait → Bool) : State :=
  match s.inst i with
  | some r =>
    if r.state == .locking && r.waiting.any p then
      (s.putInst i (some { r with waiting := r.waiting.filter fun w => !p w })).checkWaiting i
    else s
  | none => s

/-- Waiting entries joining an instance. -/
def State.await (s : State) (i : Nat) (d : RouteDef) (ws : List Wait) : State := s.modInst i (joinWaits d ws)

/-! ### Supervision (R93, R94) -/

/-- STOP commanded for the entry signal; a BOUNDARY_IN route has none (R94, R95). -/
def State.stopEntry (s : State) (d : RouteDef) : State := if d.cls == .boundaryIn then s else s.commandStop d.entry

def addCause (c : Cause) (e : Nat) (l : List (Cause × Nat)) : List (Cause × Nat) :=
  if l.any (fun p => p.1 == c) then l else l ++ [(c, e)]

/-- A supervision cause (R94). -/
def State.supervise (s : State) (i : Nat) (d : RouteDef) (c : Cause) (e : Nat) : State :=
  match s.inst i with
  | some r =>
    if r.state == .clearing || r.state == .cleared then
      (s.putInst i (some { r with causes := addCause c e r.causes, state := .held })).stopEntry d
    else if r.state == .held then s.putInst i (some { r with causes := addCause c e r.causes })
    else s
  | none => s

/-! ### Train passage (R119 to R129) -/

/-- An overrun record written on both links (R120). -/
def State.recordOverrun (s : State) (o : Overrun) : State :=
  bothLinks.foldl (fun s l => (s.modOlc l fun c => { c with overrun := some o }).markAt l .partStatus) s

/-- SEQ_FAULT (R126). -/
def State.seqFault (s : State) (i : Nat) (k : FaultKind) (e : Nat) : State :=
  s.modInst i fun r => { r with state := .seqFault, faultRec := some (k, e), overlapTimer := .stopped }

/-- The overlap timer starts when h has reached n (R127). -/
def startOverlap (d : RouteDef) (r : Inst) : Inst :=
  if r.highest = d.path.length ∧ r.overlap = .locked then
    { r with overlap := .timing, overlapTimer := .running d.overlapTime }
  else r

/-- The place of a section in the sequence: a path index, or n + 1 for the overlap section (R121). -/
def seqIndex (d : RouteDef) (e : Nat) : Option Nat :=
  match pathIndex d e with
  | some j => some j
  | none => if overlapSect d == some e then some (d.path.length + 1) else none

/-- A section found not clear for an instance in IN_USE (R121). -/
def State.advance (s : State) (i : Nat) (e : Nat) : State :=
  match s.live i with
  | some (r, d) =>
    match seqIndex d e with
    | some j =>
      let n := d.path.length
      if r.state != .inUse ∨ j ≤ r.highest then s
      else if j = n + 1 ∧ r.highest = n then s
      else if (List.range' (r.highest + 1) (j - 1 - r.highest)).any (fun k => s.isClear (pathSect d k)) then
        s.seqFault i .jump e
      else s.modInst i fun r => startOverlap d { r with highest := min j n }
    | none => s
  | none => s

/-- The sections ahead that the RIM reads at the train's entry, in path order (R119). -/
def State.sectionsAhead (s : State) (d : RouteDef) : List Nat :=
  ((indexedPath d).filter fun p =>
    decide (2 ≤ p.1) && !s.isClear p.2.sect && !(shuntLast d p.1 && s.occ p.2.sect == .occupied)).map fun p => p.2.sect

/-- What the train's entry writes into the instance (R119, steps 1 and 3). -/
def Inst.entered (d : RouteDef) (r : Inst) : Inst :=
  { r with state := .inUse, highest := 1, releasePtr := 1, approach := .stopped, causes := [], entryTaken := true
           acceptance := if d.cls == .boundaryIn then .released else r.acceptance }

/-- Steps 1 to 3 of the train's entry (R119): the instance written, STOP commanded, the acceptance used. -/
def State.entering (s : State) (i : Nat) (r : Inst) (d : RouteDef) : State :=
  let s : State := (s.putInst i (some (r.entered d))).stopEntry d
  match s.entryLink d with
  | some b => if d.cls == .boundaryIn then s.consumeIncoming b else s
  | none => s

/-- The entry of the train (R119). Step 7 marks the entry signal; a BOUNDARY_IN route has none, and its boundary entry
element is marked (log entry 48). -/
def State.trainEntry (s : State) (i : Nat) (r : Inst) (d : RouteDef) (overrun : Bool) : State :=
  let s : State := s.entering i r d
  let s : State := (s.sectionsAhead d).foldl (fun s e => s.advance i e) s
  let s : State := if overrun then s.recordOverrun ⟨i, r.route, .pastStop, pathSect d 1⟩ else s
  let s : State := s.modInst i fun r => if r.state == .inUse then startOverlap d r else r
  s.mark (.element d.entry)

/-- Path item k released (R123), with the SHUNT rule of R122 for the last item. Several BOUNDARY flank items that protect it
are given up in ascending item index, an order R112 and R123 do not give (log entry 63). -/
def State.releaseItem (s : State) (i : Nat) (r : Inst) (d : RouteDef) (k : Nat) : State :=
  let n := d.path.length
  let given := (r.boundaryItems d).filter fun p => (d.flank[p.1 - 1]?).map FlankItem.protects == some k
  let s : State := given.foldl (fun s p => s.giveUpAssurance p.2 i p.1) s
  let s : State := match s.exitLink d with
    | some b => if k = n ∧ d.cls = .boundaryOut then s.handOver b d.number else s
    | none => s
  let s : State := s.releasePathItem i d k
  s.modInst i fun r =>
    if k = n then
      { r with pathReleased := true, acceptance := if d.cls == .boundaryOut then .released else r.acceptance }
    else
      { r with releasePtr := k + 1
               highest := if d.cls == .shunt && k + 1 == n && r.highest == k then n else r.highest }

/-- The release test of R122 for the pointer item, repeated after each release; R129 after each. -/
def State.tryRelease (i : Nat) : Nat → State → State
  | 0, s => s
  | fuel + 1, s =>
    match s.live i with
    | some (r, d) =>
      let k := r.releasePtr
      if r.state = .inUse ∧ r.pathReleased = false ∧ k ≤ r.highest ∧ s.isClear (pathSect d k) = true then
        if k = d.path.length ∨ s.isClear (pathSect d (k + 1)) = false then
          State.tryRelease i fuel ((s.releaseItem i r d k).tryFree i)
        else s.seqFault i .vanish (pathSect d k)
      else s
    | none => s

/-! ### Section notices (R84, R92, R93, R118, R121, R122, R127) -/

/-- A section notice in LOCKING (R84). At a SHUNT route of one path item the item is both the first and the last: the model
follows R84's column for item 1, where OCCUPIED makes the section join, and not R81's row for the last item (log
entry 22). -/
def State.sectionInLocking (s : State) (i : Nat) (d : RouteDef) (e : Nat) (o : Occ) : State :=
  match pathIndex d e with
  | some j =>
    if o == .clear || (o == .occupied && j != 1 && shuntLast d j) then s.unwait i (· == .track e)
    else s.await i d [.track e]
  | none => s

/-- A section notice in CLEARING, CLEARED or HELD (R92, R93, R118). -/
def State.sectionSupervised (s : State) (i : Nat) (r : Inst) (d : RouteDef) (e : Nat) (o : Occ) : State :=
  match pathIndex d e with
  | some j =>
    if o == .clear then s
    else if j = 1 ∧ o = .occupied then s.trainEntry i r d (r.state != .cleared)
    else if o == .occupied && shuntLast d j then s
    else s.supervise i d .sectionNotClear e
  | none => s

/-- A section notice in IN_USE (R121, R122, R127). -/
def State.sectionInUse (s : State) (i : Nat) (r : Inst) (d : RouteDef) (e : Nat) (before after : Occ) : State :=
  if after == .clear then
    let s : State := if overlapSect d == some e && r.overlap == .timing && r.overlapTimer == .stopped then
        s.modInst i fun r => { r with overlapTimer := .running d.overlapTime }
      else s
    if pathIndex d e == some r.releasePtr then State.tryRelease i 13 s else s
  else if before == .clear then s.advance i e
  else s

/-- A SECTION notice taken by the state of the instance (R118). -/
def State.takeSection (s : State) (i e : Nat) (before after : Occ) : State :=
  match s.live i with
  | some (r, d) =>
    match r.state with
    | .locking => s.sectionInLocking i d e after
    | .clearing | .cleared | .held => s.sectionSupervised i r d e after
    | .cancelling => if pathIndex d e == some 1 && after != .clear then s.trainEntry i r d true else s
    | .inUse => s.sectionInUse i r d e before after
    | .seqFault | .emergency => s
  | none => s

/-! ### Other notices and reports -/

/-- Whether an instance is supervised: CLEARING, CLEARED or HELD (R93). -/
def InstState.supervised : InstState → Bool
  | .clearing | .cleared | .held => true
  | _ => false

/-- DETECTION_LOST (R83, R93). -/
def State.takeDetectionLost (s : State) (i e : Nat) : State :=
  match s.live i with
  | some (r, d) =>
    if r.state = .locking then (if r.locksPoint d e then s.await i d [.point e] else s)
    else if hasPoint (r.openItems d) e || (r.overlap == .locked && hasPoint d.overlap.toList e) then
      s.supervise i d .detectionLost e
    else s
  | none => s

/-- FLANK_LOST (R83, R93). -/
def State.takeFlankLost (s : State) (i e : Nat) : State :=
  match s.live i with
  | some (r, d) =>
    let items := r.flankOn d e
    if items.isEmpty then s
    else if r.state = .locking then s.await i d (items.map fun m => .flank m e)
    else s.supervise i d .flankLost e
  | none => s

/-- POINT_FAILED (R83, R93). -/
def State.takePointFailed (s : State) (i e : Nat) : State :=
  match s.live i with
  | some (r, d) =>
    let items := r.flankOn d e
    if r.state = .locking then
      s.await i d ((if r.locksPoint d e then [.point e] else []) ++ items.map fun m => .flank m e)
    else if r.locksPoint d e || !items.isEmpty then s.supervise i d .pointFailed e
    else s
  | none => s

/-- SUSPECT for one instance (R87, R93, R124). -/
def State.takeSuspect (e : Nat) (s : State) (i : Nat) : State :=
  match s.live i with
  | some (r, d) =>
    if !r.lists d e then s
    else if r.state = .locking then s.settingFails i .suspect e
    else if r.state = .inUse then
      if (r.openItems d).any (fun it => it.sect == e) || (r.overlapHeld && overlapSect d == some e) then
        s.seqFault i .suspect e
      else s
    else s.supervise i d .suspect e
  | none => s

/-- A failed direction request (R86). -/
def State.takeDirectionFailed (b : BLink) (s : State) (i : Nat) : State :=
  match s.live i with
  | some (r, d) =>
    if r.state = .locking ∧ r.waiting.contains .direction ∧ s.exitLink d = some b then
      s.settingFails i .boundary d.exit
    else s
  | none => s

/-- Direction OUT held (R86). -/
def State.takeDirectionHeld (b : BLink) (s : State) (i : Nat) : State :=
  match s.live i with
  | some (_, d) => if s.exitLink d = some b then s.unwait i (· == .direction) else s
  | none => s

/-- The link went DOWN (R87, R93). -/
def State.takeLinkDown (b : BLink) (s : State) (i : Nat) : State :=
  match s.live i with
  | some (r, d) =>
    if !s.onLink r d b then s
    else if r.state = .locking then s.settingFails i .link (s.boundaryElem b)
    else s.supervise i d .linkDown (s.boundaryElem b)
  | none => s

/-- An acceptance or assurance lost (R87, R93). -/
def State.takeLost (s : State) (i : Nat) (c : Cause) (e : RouteDef → Nat) : State :=
  match s.live i with
  | some (r, d) =>
    if r.state = .locking then s.settingFails i .boundary (e d) else s.supervise i d c (e d)
  | none => s

/-- The boundary element of a flank item's link. -/
def State.itemBoundary (s : State) (item : Nat) (d : RouteDef) : Nat := s.waitElem d (.asking item)

/-- A flank item's choice rewritten. -/
def setChoice (item : Nat) (c : FlankChoice) (r : Inst) : Inst := { r with flank := r.flank.set (item - 1) c }

/-- Assurance given (R85). -/
def State.takeAssured (s : State) (i item : Nat) : State :=
  match s.inst i with
  | some r =>
    if r.state == .locking && (r.flank[item - 1]?).any (fun c => c.status == .asking) then
      (s.modInst i (setChoice item ⟨0, .assured⟩)).unwait i (· == .asking item)
    else s
  | none => s

/-- Late substitution (R85, R109): the first substitute that can be claimed, else setting fails with FLANK. -/
def State.lateSubstitute (s : State) (i item : Nat) : State :=
  match s.live i with
  | some (r, d) =>
    if r.state == .locking && (r.flank[item - 1]?).any (fun c => c.status == .asking) then
      match (indexFrom1 (((d.flank[item - 1]?).map FlankItem.subs).getD [])).find? fun p => s.claimOk [] p.2 false with
      | some p =>
        let ready := s.inState p.2
        let s : State := (s.takeClaim (.route i item) p.2).throwClaimed p.2
        let s : State := s.modInst i (setChoice item ⟨p.1, .claimed⟩)
        let s : State := if ready then s else s.await i d [.flank item (FlankTarget.elem p.2)]
        s.unwait i (· == .asking item)
      | none => s.settingFails i .flank (s.itemBoundary item d)
    else s
  | none => s

/-- A withdrawal (R180): taken in any state in which the instance has taken no entry. -/
def State.takeWithdrawn (s : State) (i : Nat) : State :=
  match s.inst i with
  | some r => if r.entryTaken then s else s.releaseAll i
  | none => s

/-- OVERLAP_TRANSFERRED (R128). -/
def State.takeTransferred (s : State) (i : Nat) : State :=
  match s.inst i with
  | some r =>
    if (r.state == .cleared || r.state == .inUse) && r.overlapHeld then
      (s.putInst i (some { r with overlap := .released, overlapTimer := .stopped })).tryFree i
    else s
  | none => s

/-- *confirmed* (R91). -/
def State.takeConfirmed (s : State) (i : Nat) : State :=
  match s.inst i with
  | some r => if r.state == .clearing then s.putInst i (some { r with state := .cleared }) else s
  | none => s

/-- A cause of the entry signal (R93). -/
def State.takeSignalCause (s : State) (i e : Nat) (c : Cause) : State :=
  match s.live i with
  | some (_, d) => if d.entry = e then s.supervise i d c e else s
  | none => s

/-- Acceptance given (R86). -/
def State.takeAccepted (s : State) (i : Nat) : State :=
  match s.inst i with
  | some r =>
    if r.state == .locking then
      (s.putInst i (some { r with acceptance := .held })).unwait i (· == .acceptance)
    else s
  | none => s

/-- Setting fails for an instance in LOCKING (R86, R87). -/
def State.failIfLocking (s : State) (i : Nat) (c : FailCause) (e : RouteDef → Nat) : State :=
  match s.live i with
  | some (r, d) => if r.state = .locking then s.settingFails i c (e d) else s
  | none => s

/-- One notice or report taken by the RIM (R80). One that concerns several instances (SUSPECT, a link DOWN, a direction held
or failed) is taken for them in ascending instance number; R13, R87 and R168 give no order (log entry 52). -/
def State.takeNotice (s : State) (n : Notice) : State :=
  match n with
  | .position i e => s.unwait i (Wait.isOn e)
  | .detectionLost i e => s.takeDetectionLost i e
  | .flankLost i e => s.takeFlankLost i e
  | .pointFailed i e => s.takePointFailed i e
  | .track i e before after => s.takeSection i e before after
  | .lampFault i e => s.takeSignalCause i e .lampFault
  | .signalNotCleared i e => s.takeSignalCause i e .signalNotCleared
  | .confirmed i _ => s.takeConfirmed i
  | .overlapTransferred i => s.takeTransferred i
  | .suspect e => instNumbers.foldl (State.takeSuspect e) s
  | .directionHeld b => instNumbers.foldl (State.takeDirectionHeld b) s
  | .directionFailed b => instNumbers.foldl (State.takeDirectionFailed b) s
  | .acceptanceGiven i => s.takeAccepted i
  | .acceptanceRefused i => s.failIfLocking i .boundary RouteDef.exit
  | .acceptanceLost i => s.takeLost i .acceptanceLost RouteDef.exit
  | .assuranceGiven i m => s.takeAssured i m
  | .assuranceRefused i m => s.lateSubstitute i m
  | .assuranceLost i m => s.takeLost i .assuranceLost (s.itemBoundary m)
  | .linkDown b => instNumbers.foldl (State.takeLinkDown b) s
  | .itemLinkDown i b => s.failIfLocking i .link fun _ => s.boundaryElem b
  | .withdrawn i => s.takeWithdrawn i

/-- One round of taking: the notices sent so far, in the order sent (R80). -/
def State.takeRound (s : State) : State := s.notices.foldl State.takeNotice { s with notices := [] }

/-- The RIM takes notices, and those their taking causes, until none is left (R80). -/
def settleN : Nat → State → State
  | 0, s => s
  | n + 1, s => if s.notices.isEmpty then s else settleN n s.takeRound

/-- The rounds one step can need; a notice left over would be taken in the next step. -/
def settleRounds : Nat := 32

def State.settle (s : State) : State := settleN settleRounds s

/-- The end of a step: notices taken, and the step's marks put into the order of R158. -/
def State.finish (before s : State) : State := State.settleMarks before s.settle

end Sys2Proof.Machine
end

