-- ==== Sys2Proof/WellFormed.lean ====
section
/-! DEFINITION. Which commands are well formed: every operand lies in the range its rule gives it. -/

namespace Sys2Proof

/-- A boundary reference (00_scope section 4.1): 0 to 15. -/
def refOk (r : Nat) : Bool := decide (r < 16)

/-- Every section named in an order is an element number. -/
def Schedule.wellFormed (o : Schedule) : Bool := o.all fun p => decide (p.1 < 256)

/-- The body of a STATUS (11.3.2): 0 or 1 pending references, each in range. -/
def StatusBody.wellFormed (b : StatusBody) : Bool := decide (b.pendingRefs.length ≤ 1) && b.pendingRefs.all refOk

/-- The body of a HOLDINGS (11.3.2): acceptance lists of 0 or 1, assurance lists of 0 to 16, references in range. -/
def HoldingsBody.wellFormed (b : HoldingsBody) : Bool :=
  decide (b.acceptancesGiven.length ≤ 1) && decide (b.acceptancesReceived.length ≤ 1)
    && decide (b.assurancesGiven.length ≤ 16) && decide (b.assurancesReceived.length ≤ 16)
    && b.acceptancesGiven.all refOk && b.acceptancesReceived.all refOk
    && b.assurancesGiven.all refOk && b.assurancesReceived.all refOk

/-- A command is well formed when its operands lie in the ranges of 00_scope section 4.1 and chapter 11. -/
def Instr.wellFormed : Instr → Bool
  | .pollExchangeEnd _ o => o.wellFormed
  | .exchangeAnswerTimeout o => o.wellFormed
  | .supervisionTimerExpiry e => decide (e < 256)
  | .confirmationTimerExpiry e => decide (e < 256)
  | .offerTimerExpiry a => decide (a < 16)
  | .forceTimerExpiry a => decide (a < 16)
  | .settingTimerExpiry i => decide (i < 48)
  | .overlapTimerExpiry i => decide (i < 48)
  | .approachTimerExpiry i => decide (i < 48)
  | .emergencyTimerExpiry i => decide (i < 48)
  | .lifetimeTimerExpiry r => decide (r < 512)
  | .operatorRequestOnBoundary _ k => decide (1 ≤ k.toNat) && decide (k.toNat ≤ 22)
  | .statusReceived _ b => b.wellFormed
  | .holdingsReceived _ b => b.wellFormed
  | .acceptAskReceived _ r => refOk r
  | .acceptGiveReceived _ r => refOk r
  | .acceptRefuseReceived _ r _ => refOk r
  | .acceptResponseTimerExpiry _ i => decide (i < 48)
  | .acceptWithdrawReceived _ r => refOk r
  | .trainHandedReceived _ r => refOk r
  | .acceptEndReceived _ r => refOk r
  | .flankAskReceived _ r => refOk r
  | .flankGiveReceived _ r => refOk r
  | .flankRefuseReceived _ r => refOk r
  | .flankDropReceived _ r => refOk r
  | .flankResponseTimerExpiry _ i m => decide (i < 48) && decide (1 ≤ m) && decide (m ≤ 8)
  | _ => true

end Sys2Proof
end

