-- ==== Sys2Proof/Machine/Boundary.lean ====
section
/-! DEFINITION. Boundary links (R165 to R183): what the BLC does at each telegram and each timer. -/

namespace Sys2Proof.Machine

/-! ### Reception (R165, R167) -/

def countGood (r : Blc) : Blc := { r with counts := { r.counts with good := satInc r.counts.good } }
def countDiscarded (r : Blc) : Blc := { r with counts := { r.counts with discarded := satInc r.counts.discarded } }
def countSilence (r : Blc) : Blc := { r with counts := { r.counts with silence := satInc r.counts.silence } }

/-- A good telegram counted; it restarts the silence timer, which runs in SYNC and UP (R167). -/
def State.goodFrame (s : State) (b : BLink) : State :=
  s.modBlc b fun r => { countGood r with silenceTimer := r.silenceTimer.restart Config.silenceTime }

/-- A telegram discarded for its check (R167). -/
def State.badFrame (s : State) (b : BLink) : State := s.modBlc b countDiscarded

/-- Whether the BLC takes telegrams: the part is OPERATING and the link used (R165, R185). -/
def State.linkServes (s : State) (b : BLink) : Bool := s.cfl.load == .operating && (s.blcAt b).used

/-- A telegram received (R165, R167, R190): a field out of its range is a wrong check; a good one is counted, and
taken where the link serves. In CONFIG_FAULT the boundary record keeps its cold-start values. -/
def State.receive (s : State) (b : BLink) (good : Bool) (act : State → State) : State :=
  match s.cfl.load with
  | .configFault _ => s
  | _ =>
    if !good then s.badFrame b
    else if s.linkServes b then act (s.goodFrame b)
    else s.goodFrame b

/-- A telegram that only UP takes; in DOWN and SYNC it is discarded (R167). -/
def State.inUp (s : State) (b : BLink) (act : State → State) : State :=
  if (s.blcAt b).link == .up then act s else s

/-- BOUNDARY_FRAME_DISCARDED (R167, R190): the bytes decide. A good frame of a kind the link table does not list is
counted in GOOD and has no other effect; a good frame of a listed kind is that kind's own row. While LOADING no neighbour's
station code is configured, and the sender of a frame is tested against code 0 (log entry 7). -/
def State.frameArrives (s : State) (b : BLink) (bytes : List Byte) : State :=
  match readBoundaryFrame (s.blcAt b).neighbour bytes with
  | none => s.receive b false id
  | some (.other _) => s.receive b true id
  | some _ => s

def execBoundaryFrameDiscarded (b : BLink) (bytes : List Byte) (s : State) : Host.Outcome State Fault Refusal :=
  .next (State.finish s (s.frameArrives b bytes))

/-- OPERATOR_REQUEST_ON_BOUNDARY (R167): refused NOT_PERMITTED in SYNC and UP, at once. -/
def execOperatorRequestOnBoundary (b : BLink) (kind : Byte) (s : State) : Host.Outcome State Fault Refusal :=
  .next (State.finish s (s.receive b (decide (1 ≤ kind.toNat) && decide (kind.toNat ≤ 22))
    fun s => s.sendNow b (.notPermitted kind)))

/-! ### STATUS (R166, R169, R174) -/

/-- STATUS_TIMER_EXPIRY (R166): a STATUS sent in every link state, and the next period begun. -/
def State.statusDue (s : State) (b : BLink) : State :=
  if s.linkServes b && (s.blcAt b).statusTimer.isRunning then
    (s.modBlc b fun r => { r with statusTimer := .running Config.statusPeriod }).send (.boundary b (.status (s.statusOf b)))
  else s

def execStatusTimerExpiry (b : BLink) (s : State) : Host.Outcome State Fault Refusal :=
  .next (State.finish s (s.statusDue b))

/-- What a STATUS that is taken writes (R166, R174, R177): the neighbour's flag, the end of an ASKED change, and the
restart of the asks it lists. -/
def takeStatus (body : StatusBody) (r : Blc) : Blc :=
  let ends := r.change == .asked && body.direction == .outward
  { r with
    neighbourClear := body.lineClear
    change := if ends then .idle else r.change
    changeTimer := if ends then .stopped else r.changeTimer
    outAsks := r.outAsks.map fun a =>
      if body.pendingRefs.contains a.ref then { a with timer := a.timer.restart Config.responseTime } else a }

/-- STATUS by the link state (R167): from DOWN the link enters SYNC first; in UP with the change IDLE a direction
that is not the mirror takes the link into SYNC (R169). -/
def State.status (s : State) (b : BLink) (body : StatusBody) : State :=
  match (s.blcAt b).link with
  | .down => (s.enterSync b).modBlc b (takeStatus body)
  | .sync => s.modBlc b (takeStatus body)
  | .up =>
    let s : State := s.modBlc b (takeStatus body)
    if (s.blcAt b).change == .idle && body.direction != mirror (s.blcAt b).direction then s.enterSync b else s

def execStatusReceived (b : BLink) (body : StatusBody) (s : State) : Host.Outcome State Fault Refusal :=
  .next (State.finish s (s.receive b body.wellFormed fun s => s.status b body))

/-! ### HOLDINGS (R169 to R172) -/

/-- Entries matched against a list of references, oldest first, each reference matching one entry: the entries kept,
those not matched, and the references left. -/
def matchRefs {α : Type} (ref : α → Nat) : List α → List Nat → List α × List α × List Nat
  | [], refs => ([], [], refs)
  | a :: l, refs =>
    if refs.contains (ref a) then
      let r := matchRefs ref l (refs.erase (ref a))
      (a :: r.1, r.2.1, r.2.2)
    else
      let r := matchRefs ref l refs
      (r.1, a :: r.2.1, r.2.2)

/-- ACCEPT-GIVE for an awaiting ask (R177): listed where the direction is OUT, else withdrawn. -/
def State.askGiven (s : State) (b : BLink) (a : OutAsk) : State :=
  if (s.blcAt b).direction == .outward then
    (s.modBlc b fun r =>
      { r with outAsks := dropFirst (fun x => x == a) r.outAsks
               outgoing := r.outgoing ++ [⟨a.ref, a.inst⟩] }).notify (.acceptanceGiven a.inst)
  else
    ((s.modBlc b fun r => { r with outAsks := dropFirst (fun x => x == a) r.outAsks }).sendHeld b
      (.acceptWithdraw a.ref)).notify (.acceptanceRefused a.inst)

/-- Received items resolved against the neighbour's lists of items given (R170). R170 gives the reports to the RIM no order:
the model sends acceptance lost, acceptance given, assurance lost, assurance given (log entry 28). -/
def State.resolveReceived (s : State) (b : BLink) (h : HoldingsBody) : State :=
  let m := matchRefs RefInst.ref (s.blcAt b).outgoing h.acceptancesGiven
  let asks := (matchRefs OutAsk.ref (s.blcAt b).outAsks m.2.2).1
  let s : State := s.modBlc b fun r => { r with outgoing := m.1 }
  let s : State := s.notifyAll (m.2.1.map fun a => .acceptanceLost a.inst)
  let s : State := asks.foldl (fun s a => s.askGiven b a) s
  let old := (s.blcAt b).assurances
  let listed := fun (a : Assurance) => h.assurancesGiven.contains a.ref
  let s : State := s.modBlc b fun r => { r with
    assurances := (old.filter fun a => listed a || !a.assured).map fun (a : Assurance) =>
      if listed a then { a with assured := true, timer := .stopped } else a }
  (s.notifyAll ((old.filter fun a => a.assured && !listed a).map fun a => .assuranceLost a.inst a.item)).notifyAll
    ((old.filter fun a => !a.assured && listed a).map fun a => .assuranceGiven a.inst a.item)

/-- Given items resolved against the neighbour's lists of items received (R171). -/
def State.resolveGiven (s : State) (b : BLink) (h : HoldingsBody) : State :=
  if s.lineFree (s.blcAt b) then
    let unmatched := (matchRefs Incoming.ref (s.blcAt b).incoming h.acceptancesReceived).2.1
    let dropped := unmatched.filter fun a => !a.handed && !a.ended
    let s : State := s.modBlc b fun r => { r with incoming := r.incoming.filter fun a => !dropped.contains a }
    let s : State := s.notifyAll (dropped.map fun a => .withdrawn a.inst)
    ((s.givenRefs b).filter fun ref => !h.assurancesReceived.contains ref).foldl (fun s ref => s.boundaryDrop b ref) s
  else s

/-- The direction as R172 settles it, from the lists as they stand. -/
def resolvedDirection (r : Blc) (h : HoldingsBody) : Dir :=
  if !r.outgoing.isEmpty || !r.outAsks.isEmpty then .outward
  else if !r.incoming.isEmpty || !r.inAsks.isEmpty then .inward
  else if !h.acceptancesGiven.isEmpty || !h.acceptancesReceived.isEmpty then .none
  else if h.direction == mirror r.direction then r.direction
  else if r.direction == .none then mirror h.direction
  else if h.direction == .none then r.direction
  else .none

/-- The link becomes UP (R169). -/
def State.linkUp (s : State) (b : BLink) : State :=
  (s.modBlc b fun r => { r with link := .up, holdingsTimer := .stopped, lostHoldings := false }).flush b

/-- The neighbour's HOLDINGS resolved, and the link UP (R169 to R172). -/
def State.resolve (s : State) (b : BLink) (h : HoldingsBody) : State :=
  let s : State := (s.resolveReceived b h).resolveGiven b h
  (s.modBlc b fun r => { r with direction := resolvedDirection r h }).linkUp b

/-- HOLDINGS by the link state (R167): discarded in DOWN; from UP the link passes through SYNC. -/
def State.holdings (s : State) (b : BLink) (h : HoldingsBody) : State :=
  match (s.blcAt b).link with
  | .down => s
  | .sync => s.resolve b h
  | .up => (s.enterSync b).resolve b h

def execHoldingsReceived (b : BLink) (h : HoldingsBody) (s : State) : Host.Outcome State Fault Refusal :=
  .next (State.finish s (s.receive b h.wellFormed fun s => s.holdings b h))

/-! ### Link timers (R168, R169) -/

/-- SILENCE_TIMER_EXPIRY (R168). -/
def State.silence (s : State) (b : BLink) : State :=
  if (s.blcAt b).silenceTimer.isRunning then (s.modBlc b countSilence).goDown b else s

def execSilenceTimerExpiry (b : BLink) (s : State) : Host.Outcome State Fault Refusal :=
  .next (State.finish s (s.silence b))

/-- HOLDINGS_RESPONSE_TIMER_EXPIRY (R169): the link goes DOWN. -/
def execHoldingsResponseTimerExpiry (b : BLink) (s : State) : Host.Outcome State Fault Refusal :=
  .next (State.finish s (if (s.blcAt b).holdingsTimer.isRunning then s.goDown b else s))

/-! ### Direction (R173 to R175) -/

/-- The conditions of R174 for granting DIR-ASK; the EXIT slot is left out for a junior end (R175). -/
def State.grantsDirection (s : State) (b : BLink) (withSlot : Bool) : Bool :=
  let r := s.blcAt b
  r.isOpen && s.lineClear b && r.outgoing.isEmpty && r.outAsks.isEmpty && r.incoming.isEmpty && r.inAsks.isEmpty
    && (!withSlot || (s.boundary? (s.boundaryElem b)).any fun e => e.exitSlot == .empty)

/-- A DIR-ASK judged (R174). -/
def State.judgeDirAsk (s : State) (b : BLink) (withSlot : Bool) : State :=
  if s.grantsDirection b withSlot then
    (s.modBlc b fun r =>
      { r with direction := .inward, change := .asked, changeTimer := .running Config.responseTime }).sendNow b .dirGive
  else s.sendNow b .dirRefuse

/-- DIR-ASK in UP (R174, R175): a crossing is decided by the senior flag. -/
def State.dirAsk (s : State) (b : BLink) : State :=
  if (s.blcAt b).change == .asking then
    if (s.blcAt b).senior then s.sendNow b .dirRefuse
    else (s.dropChange b).judgeDirAsk b false
  else s.judgeDirAsk b true

/-- DIR_ASK_RECEIVED (R167, R174, R175). -/
def execDirAskReceived (b : BLink) (s : State) : Host.Outcome State Fault Refusal :=
  .next (State.finish s (s.receive b true fun s =>
    match (s.blcAt b).link with
    | .down => s
    | .sync => s.sendNow b .dirRefuse
    | .up => s.dirAsk b))

/-- DIR-GIVE (R173). -/
def State.dirGive (s : State) (b : BLink) : State :=
  if (s.blcAt b).change == .asking then
    (s.modBlc b fun r => { r with direction := .outward, change := .idle, changeTimer := .stopped }).notify
      (.directionHeld b)
  else s

def execDirGiveReceived (b : BLink) (s : State) : Host.Outcome State Fault Refusal :=
  .next (State.finish s (s.receive b true fun s => s.inUp b fun s => s.dirGive b))

/-- DIR-REFUSE (R173): the change IDLE and the request reported refused. -/
def State.dirRefuse (s : State) (b : BLink) : State :=
  if (s.blcAt b).change == .asking then s.dropChange b else s

def execDirRefuseReceived (b : BLink) (s : State) : Host.Outcome State Fault Refusal :=
  .next (State.finish s (s.receive b true fun s => s.inUp b fun s => s.dirRefuse b))

/-- DIR_RESPONSE_TIMER_EXPIRY (R173, R174): ASKING times out; ASKED takes the link into SYNC. -/
def State.dirTimeout (s : State) (b : BLink) : State :=
  let r := s.blcAt b
  if !r.changeTimer.isRunning then s
  else
    match r.change with
    | .asking => s.dropChange b
    | .asked => s.enterSync b
    | .idle => s

def execDirResponseTimerExpiry (b : BLink) (s : State) : Host.Outcome State Fault Refusal :=
  .next (State.finish s (s.dirTimeout b))

/-! ### Acceptance (R177 to R180) -/

/-- Whether an incoming acceptance request of the link waits in the RIM: an ask still being answered (R165). -/
def State.askWaits (s : State) (b : BLink) : Bool :=
  s.rim.requests.any fun q =>
    match q with
    | .incoming b' _ _ => b' == b
    | _ => false

/-- The checks of an ACCEPT-ASK in UP (R179): the reason it is refused, or the route handed to the RIM. -/
def State.acceptAskCheck (s : State) (b : BLink) (ref : Nat) : Except RefuseReason RouteDef :=
  let r := s.blcAt b
  if r.direction != .inward then .error .direction
  else if !r.isOpen then .error .closed
  else if !r.incoming.isEmpty || !r.inAsks.isEmpty || s.askWaits b then .error .full
  else
    match s.incomingRoute b ref with
    | none => .error .unknown
    | some d => .ok d

/-- ACCEPT-ASK in UP (R179). -/
def State.acceptAsk (s : State) (b : BLink) (ref : Nat) : State :=
  match s.acceptAskCheck b ref with
  | .error x => s.sendNow b (.acceptRefuse ref x)
  | .ok d => { s with rim := { s.rim with requests := s.rim.requests ++ [.incoming b ref d.number] } }

/-- ACCEPT_ASK_RECEIVED (R167, R179). -/
def execAcceptAskReceived (b : BLink) (ref : Nat) (s : State) : Host.Outcome State Fault Refusal :=
  .next (State.finish s (s.receive b (refOk ref) fun s =>
    match (s.blcAt b).link with
    | .down => s
    | .sync => s.sendNow b (.acceptRefuse ref .link)
    | .up => s.acceptAsk b ref))

/-- ACCEPT-GIVE (R177). -/
def State.acceptGive (s : State) (b : BLink) (ref : Nat) : State :=
  match (s.blcAt b).outAsks.find? fun a => a.ref == ref with
  | some a => s.askGiven b a
  | none =>
    if (s.blcAt b).outgoing.any fun a => a.ref == ref then s else s.sendHeld b (.acceptWithdraw ref)

def execAcceptGiveReceived (b : BLink) (ref : Nat) (s : State) : Host.Outcome State Fault Refusal :=
  .next (State.finish s (s.receive b (refOk ref) fun s => s.inUp b fun s => s.acceptGive b ref))

/-- An awaiting ask removed, its acceptance reported refused or timed out (R177). -/
def State.askRefused (s : State) (b : BLink) (a : OutAsk) : State :=
  (s.modBlc b fun r => { r with outAsks := dropFirst (fun x => x == a) r.outAsks }).notify (.acceptanceRefused a.inst)

/-- ACCEPT-REFUSE (R177). -/
def State.acceptRefuse (s : State) (b : BLink) (ref : Nat) : State :=
  match (s.blcAt b).outAsks.find? fun a => a.ref == ref with
  | some a => s.askRefused b a
  | none => s

def execAcceptRefuseReceived (b : BLink) (ref : Nat) (_reason : RefuseReason) (s : State) :
    Host.Outcome State Fault Refusal :=
  .next (State.finish s (s.receive b (refOk ref) fun s => s.inUp b fun s => s.acceptRefuse b ref))

/-- ACCEPT_RESPONSE_TIMER_EXPIRY (R177). -/
def State.acceptTimeout (s : State) (b : BLink) (i : Nat) : State :=
  match (s.blcAt b).outAsks.find? fun a => a.inst == i && a.timer.isRunning with
  | some a => s.askRefused b a
  | none => s

def execAcceptResponseTimerExpiry (b : BLink) (i : Nat) (s : State) : Host.Outcome State Fault Refusal :=
  .next (State.finish s (s.acceptTimeout b i))

/-- Whether an incoming entry can be withdrawn: neither HANDED nor ENDED, its instance has taken no entry (R180). -/
def State.withdrawable (s : State) (a : Incoming) : Bool :=
  !a.handed && !a.ended && !(s.inst a.inst).any Inst.entryTaken

/-- ACCEPT-WITHDRAW (R180). -/
def State.acceptWithdraw (s : State) (b : BLink) (ref : Nat) : State :=
  match (s.blcAt b).incoming.find? fun a => a.ref == ref with
  | some a =>
    if s.withdrawable a then
      (s.modBlc b fun r => { r with incoming := dropFirst (fun x => x == a) r.incoming }).notify (.withdrawn a.inst)
    else s
  | none =>
    match (s.blcAt b).inAsks.find? fun a => a.ref == ref with
    | some a =>
      (s.modBlc b fun r => { r with inAsks := dropFirst (fun x => x == a) r.inAsks }).notify (.withdrawn a.inst)
    | none => s

def execAcceptWithdrawReceived (b : BLink) (ref : Nat) (s : State) : Host.Outcome State Fault Refusal :=
  .next (State.finish s (s.receive b (refOk ref) fun s => s.inUp b fun s => s.acceptWithdraw b ref))

/-- The first element that satisfies a test changed. -/
def changeFirst {α : Type} (p : α → Bool) (f : α → α) : List α → List α
  | [] => []
  | a :: l => if p a then f a :: l else a :: changeFirst p f l

/-- TRAIN-HANDED (R180): the oldest matching entry not yet HANDED. -/
def State.trainHanded (s : State) (b : BLink) (ref : Nat) : State :=
  s.modBlc b fun r => { r with
    incoming := changeFirst (fun a => a.ref == ref && !a.handed) (fun (a : Incoming) => { a with handed := true }) r.incoming }

def execTrainHandedReceived (b : BLink) (ref : Nat) (s : State) : Host.Outcome State Fault Refusal :=
  .next (State.finish s (s.receive b (refOk ref) fun s => s.inUp b fun s => s.trainHanded b ref))

/-- ACCEPT-END (R180): the oldest matching entry not yet ENDED. -/
def State.acceptEnd (s : State) (b : BLink) (ref : Nat) : State :=
  s.modBlc b fun r => { r with
    incoming := changeFirst (fun a => a.ref == ref && !a.ended) (fun (a : Incoming) => { a with ended := true }) r.incoming }

def execAcceptEndReceived (b : BLink) (ref : Nat) (s : State) : Host.Outcome State Fault Refusal :=
  .next (State.finish s (s.receive b (refOk ref) fun s => s.inUp b fun s => s.acceptEnd b ref))

/-! ### Flank assurance (R114, R181, R182) -/

/-- FLANK-ASK in UP (R114, R182). -/
def State.takeFlankAsk (s : State) (b : BLink) (ref : Nat) : State :=
  let r := s.flankAsk b ref
  r.1.sendNow b (if r.2 then .flankGive ref else .flankRefuse ref)

/-- FLANK_ASK_RECEIVED (R167, R114). -/
def execFlankAskReceived (b : BLink) (ref : Nat) (s : State) : Host.Outcome State Fault Refusal :=
  .next (State.finish s (s.receive b (refOk ref) fun s =>
    match (s.blcAt b).link with
    | .down => s
    | .sync => s.sendNow b (.flankRefuse ref)
    | .up => s.takeFlankAsk b ref))

/-- The oldest ASKING entry with a reference. -/
def State.askingEntry (s : State) (b : BLink) (ref : Nat) : Option Assurance :=
  (s.blcAt b).assurances.find? fun a => a.ref == ref && !a.assured

/-- FLANK-GIVE (R181). -/
def State.flankGive (s : State) (b : BLink) (ref : Nat) : State :=
  match s.askingEntry b ref with
  | some a =>
    (s.modBlc b fun r => { r with
      assurances := changeFirst (fun x => x.ref == ref && !x.assured)
        (fun (x : Assurance) => { x with assured := true, timer := .stopped }) r.assurances }).notify
      (.assuranceGiven a.inst a.item)
  | none => if (s.blcAt b).assurances.any fun a => a.ref == ref then s else s.sendHeld b (.flankDrop ref)

def execFlankGiveReceived (b : BLink) (ref : Nat) (s : State) : Host.Outcome State Fault Refusal :=
  .next (State.finish s (s.receive b (refOk ref) fun s => s.inUp b fun s => s.flankGive b ref))

/-- An ASKING entry removed and its assurance reported refused or timed out (R181). -/
def State.assuranceFails (s : State) (b : BLink) (a : Assurance) : State :=
  (s.modBlc b fun r => { r with assurances := dropFirst (fun x => x == a) r.assurances }).notify
    (.assuranceRefused a.inst a.item)

/-- FLANK-REFUSE (R181). -/
def State.flankRefuse (s : State) (b : BLink) (ref : Nat) : State :=
  match s.askingEntry b ref with
  | some a => s.assuranceFails b a
  | none => s

def execFlankRefuseReceived (b : BLink) (ref : Nat) (s : State) : Host.Outcome State Fault Refusal :=
  .next (State.finish s (s.receive b (refOk ref) fun s => s.inUp b fun s => s.flankRefuse b ref))

/-- FLANK_DROP_RECEIVED (R167, R182): a boundary drop in SYNC and UP. -/
def execFlankDropReceived (b : BLink) (ref : Nat) (s : State) : Host.Outcome State Fault Refusal :=
  .next (State.finish s (s.receive b (refOk ref) fun s =>
    if (s.blcAt b).link == .down then s else s.boundaryDrop b ref))

/-- FLANK_RESPONSE_TIMER_EXPIRY (R181). -/
def State.flankTimeout (s : State) (b : BLink) (i item : Nat) : State :=
  match (s.blcAt b).assurances.find? fun a => a.isOf i item && !a.assured && a.timer.isRunning with
  | some a => s.assuranceFails b a
  | none => s

def execFlankResponseTimerExpiry (b : BLink) (i item : Nat) (s : State) : Host.Outcome State Fault Refusal :=
  .next (State.finish s (s.flankTimeout b i item))

/-! ### BOUNDARY-RELEASE (R183) -/

/-- The release timer runs out while the link is DOWN (R183). -/
def State.releaseHoldings (s : State) (b : BLink) : State :=
  let r := s.blcAt b
  let gone := r.incoming.map Incoming.inst ++ r.inAsks.map RefInst.inst
  let s : State := s.modBlc b fun r => { r with incoming := [], inAsks := [], release := .stopped }
  let s : State := s.notifyAll ((gone.filter fun i => !(s.inst i).any Inst.entryTaken).map .withdrawn)
  let s : State := (s.givenRefs b).foldl (fun s ref => s.boundaryDrop b ref) s
  (s.modBlc b fun r => { r with lostHoldings := false }).mark (.boundary b)

/-- RELEASE_TIMER_EXPIRY (R183). -/
def execReleaseTimerExpiry (b : BLink) (s : State) : Host.Outcome State Fault Refusal :=
  .next (State.finish s (if (s.blcAt b).release.isRunning && (s.blcAt b).link == .down then s.releaseHoldings b else s))

end Sys2Proof.Machine
end

