-- ==== Sys2Proof/Machine/Requests.lean ====
section
/-! DEFINITION. Route requests (R67 to R78) and the Request Store (R136 to R146). -/

namespace Sys2Proof.Machine

/-! ### The store -/

def State.storeEntry (s : State) (route : Nat) : Option StoreEntry := s.rqs.store.find? fun e => e.route == route

/-- An entry removed with its reason: the removal record written, the store marked (R147). -/
def State.removeEntry (s : State) (e : StoreEntry) (why : RemovalReason) : State :=
  ({ s with rqs := { s.rqs with
      store := s.rqs.store.filter (fun (x : StoreEntry) => x.route != e.route)
      removal := s.rqs.removal.set e.link (some ⟨e.route, why⟩) } }).mark .store

/-- The hand-off of a SET-ROUTE to the store (R73, R137). -/
def State.handOff (s : State) (l : OpLink) (route area : Nat) (lifetime : Ticks) : State × ReplyBody :=
  if (s.storeEntry route).isSome then (s, .refused .duplicate)
  else if !s.holdsArea l area then (s, .refused .noAuthority)
  else if (s.rqs.store.filter fun e => e.link == l).length ≥ Config.storeQuota then (s, .refused .storeFull)
  else
    (({ s with rqs := { s.rqs with store := s.rqs.store ++
        [(⟨route, l, area, .running lifetime, false, false, false, false, none⟩ : StoreEntry)] } }).mark .store, .stored)

/-- On a change of holder the old holder's entries of the area that are not lifted leave (R145). R145 does not say in
which order they leave, and so which one the link's removal record keeps: the model removes the oldest first, and the
youngest one's record remains (log entry 49). -/
def State.dropAuthority (s : State) (l : OpLink) (area : Nat) : State :=
  (s.rqs.store.filter fun e => e.link == l && e.area == area && !e.lifted).foldl
    (fun s e => s.removeEntry e .authorityLost) s

/-! ### Variant choice (R70 to R74) -/

/-- The acceptance field at reservation (R79). -/
def initialAcceptance : RouteClass → Acceptance
  | .boundaryOut => .notAsked
  | .boundaryIn => .notGiven
  | _ => .absent

/-- The instance record as R74 and R79 write it. -/
def newInst (o : Origin) (d : RouteDef) (r : Reserved) (settingTime : Ticks) : Inst where
  route := d.number
  origin := o
  state := .locking
  waiting := r.waiting
  flank := r.flank
  acceptance := initialAcceptance d.cls
  causes := []
  releasePtr := 1
  highest := 0
  overlap := if d.overlap.isSome then .locked else .none
  pathReleased := false
  entryTaken := false
  faultRec := none
  setting := .running settingTime
  approach := .stopped
  overlapTimer := .stopped
  emergency := .stopped

/-- How the trial of the variants of a request ends (R71, R72). -/
inductive Trial
  | noInstance
  | blocked (e : Nat)
  | reserved (i : Nat) (d : RouteDef) (s : State)

/-- The variants tried in ascending rank (R71); `first` is the element that blocked the first one. -/
def State.tryVariants (s : State) (o : Origin) (i : Nat) : List RouteDef → Option Nat → Trial
  | [], first => .blocked (first.getD Config.elementCount)
  | d :: l, first =>
    match s.reserve i d with
    | .ok r => .reserved i d (r.state.putInst i (some (newInst o d r s.cfl.settingTime)))
    | .error e => s.tryVariants o i l (some (first.getD e))

/-- Check 5 of R68 and the variant choice (R70, R71). -/
def State.tryRoute (s : State) (o : Origin) (ds : List RouteDef) : Trial :=
  match s.freeInst with
  | none => .noInstance
  | some i => s.tryVariants o i ds none

/-- The stack lifetime as the RIM takes it (R67). -/
def State.lifetimeOf (s : State) (seconds : Nat) : Ticks :=
  if seconds = 0 then s.cfl.stackLifetime else 10 * min seconds 600

/-- Whether an element is a configured signal or boundary element. -/
def State.isEnd (s : State) (e : Nat) : Bool := (s.signal? e).isSome || (s.boundary? e).isSome

/-- Checks 1 and 2 of a SET-ROUTE, which the OLC makes as it takes the request (R68, R154): why it is refused, or none. -/
def State.routeRefusal (s : State) (l : OpLink) (entry exit : Nat) : Option RefusalCode :=
  match s.signal? entry with
  | none => some .unknownObject
  | some g =>
    if !s.isEnd exit then some .unknownObject
    else if !s.holdsArea l g.area then some .noAuthority
    else none

/-- The area of a configured element; one that is not configured has none, and no link holds it. -/
def State.areaOf (s : State) (e : Nat) : Nat := ((s.elem e).area?).getD 16

/-- Checks 3 to 6 of a SET-ROUTE, which the RIM makes as it takes the request (R68), and what follows them (R70 to R74).
Authority is judged again at a hand-off to the store alone (R137). -/
def State.rimRoute (s : State) (l : OpLink) (entry exit : Nat) (stack : Bool) (lifetime : Nat) : State × ReplyBody :=
  match s.rankOne entry exit with
  | none => (s, .refused .noRoute)
  | some one =>
    if (s.storeEntry one).isSome then (s, .refused .duplicate)
    else
      match s.tryRoute (.op l) (s.variants entry exit) with
      | .reserved i d s' => (s'.checkWaiting i, .acceptedRoute i d.number)
      | .noInstance =>
        if stack then s.handOff l one (s.areaOf entry) (s.lifetimeOf lifetime) else (s, .refused .noInstance)
      | .blocked e =>
        if stack then s.handOff l one (s.areaOf entry) (s.lifetimeOf lifetime) else (s, .refused (.unavailable e))

/-- A SET-ROUTE taken by the OLC (R68, R69). One refused at check 1 or 2 is answered at once. One that passes reaches the
RIM, which takes it at once where no route request waits there; else it waits behind those that do, and its reply is held
back with it (log entry 10). -/
def State.reachRim (s : State) (l : OpLink) (q : Word16) (entry exit : Nat) (stack : Bool) (lifetime : Nat) :
    State × Option ReplyBody :=
  match s.routeRefusal l entry exit with
  | some why => (s, some (.refused why))
  | none =>
    if s.rim.requests.isEmpty then
      let r := s.rimRoute l entry exit stack lifetime
      (r.1, some r.2)
    else
      (({ s with rim := { s.rim with requests := s.rim.requests ++ [.setRoute l q entry exit stack lifetime] } } : State).modOlc
        l fun c => { c with held := some q }, none)

/-! ### PRESS (R75 to R77) -/

/-- A link's press selection written; a change marks its part status (R75). -/
def State.putSel (s : State) (l : OpLink) (v : Option Selection) : State :=
  if s.rim.sel.get l = v then s
  else ({ s with rim := { s.rim with sel := s.rim.sel.set l v } }).markAt l .partStatus

def State.select (s : State) (l : OpLink) (e : Nat) : State := s.putSel l (some ⟨e, .running Config.selectionTime⟩)

/-- PRESS with the selection empty (R75). -/
def State.pressFirst (s : State) (l : OpLink) (e : Nat) : State × ReplyBody :=
  if (s.signal? e).isSome && s.isEntry e then
    if s.holdsElem l e then (s.select l e, .accepted) else (s, .refused .noAuthority)
  else (s, .refused .noRoute)

/-- PRESS with the selection holding a signal (R76); one that completes a pair issues its SET-ROUTE (R69). -/
def State.pressSecond (s : State) (l : OpLink) (q : Word16) (sel e : Nat) : State × Option ReplyBody :=
  if e = sel then (s.putSel l none, some .accepted)
  else if !(s.variants sel e).isEmpty then (s.putSel l none).reachRim l q sel e false 0
  else if (s.signal? e).isSome && s.isEntry e && s.holdsElem l e then (s.select l e, some .accepted)
  else (s.putSel l none, some (.refused .noRoute))

/-- PRESS (R75, R76); an element not configured clears the selection. -/
def State.pressed (s : State) (l : OpLink) (q : Word16) (e : Nat) : State × Option ReplyBody :=
  if (s.elem e).area?.isNone then (s.putSel l none, some (.refused .unknownObject))
  else
    match s.rim.sel.get l with
    | none =>
      let r := s.pressFirst l e
      (r.1, some r.2)
    | some v => s.pressSecond l q v.signal e

/-! ### Replies (R155, R156) -/

def ReplyBody.isRefusal : ReplyBody → Bool
  | .refused _ => true
  | _ => false

/-- A reply built: it waits for the transmitter, and a refusal is counted (R156, R157). -/
def State.answer (s : State) (l : OpLink) (seq : Word16) (b : ReplyBody) : State :=
  s.modOlc l fun c =>
    { c with reply := some (seq, b), refused := if b.isRefusal then incCounter c.refused else c.refused }

/-- A held-back answer given (R144). -/
def State.answerHeld (s : State) (l : OpLink) (seq : Word16) (b : ReplyBody) : State :=
  (s.modOlc l fun c => { c with held := none }).answer l seq b

/-- The SET-ROUTE of a link that has waited in the RIM and is now its oldest route request, taken and answered (R69); the
OLC's checks were made before it came there and are not made again (R68, R154). None where there is no such request. -/
def State.takeWaitingRoute (s : State) (l : OpLink) : Option State :=
  match s.rim.requests, (s.olc.get l).held with
  | .setRoute k q entry exit stack lifetime :: rest, some h =>
    if k = l ∧ h = q then
      let r := ({ s with rim := { s.rim with requests := rest } } : State).rimRoute l entry exit stack lifetime
      some (r.1.answerHeld l q r.2)
    else none
  | _, _ => none

/-- The waiting cancel of an entry answered (R142, R144). -/
def State.answerCancel (s : State) (e : StoreEntry) (b : ReplyBody) : State :=
  match e.waitingCancel with
  | some seq => s.answerHeld e.link seq b
  | none => s

/-! ### Retests (R140 to R142) -/

/-- The put-back of a lifted entry (R141, R142). -/
def State.putBack (s : State) (e : StoreEntry) : State :=
  if e.expired then (s.removeEntry e .expired).answerCancel e .accepted
  else if e.waitingCancel.isSome then (s.removeEntry e .cancelled).answerCancel e .accepted
  else if !s.holdsArea e.link e.area then s.removeEntry e .authorityLost
  else
    { s with rqs := { s.rqs with
        store := modEntry e.route (fun (x : StoreEntry) => { x with lifted := false }) s.rqs.store } }

/-- The pair's variants by the rank-1 number (R140). -/
def State.pairVariants (s : State) (route : Nat) : List RouteDef :=
  match s.routeDef route with
  | some d => s.variants d.entry d.exit
  | none => []

/-- The entry a retest was presented for; none where it has left since, be the number stored anew (R140, R143). -/
def State.presentedEntry (s : State) (route : Nat) : Option StoreEntry :=
  (s.storeEntry route).filter StoreEntry.presented

/-- A retest of one entry (R140, R141). -/
def State.retest (s : State) (route : Nat) : State :=
  match s.presentedEntry route with
  | none => s.nextRetest
  | some e =>
    let e : StoreEntry := { e with presented := false, lifted := true }
    let lifted : State := { s with rqs := { s.rqs with
      store := modEntry route (fun (x : StoreEntry) => { x with presented := false, lifted := true }) s.rqs.store } }
    match lifted.tryRoute (.store e.link) (lifted.pairVariants route) with
    | .reserved i _ s' =>
      (((s'.removeEntry e (.set i)).answerCancel e (.refused .wrongState)).nextRetest).checkWaiting i
    | .blocked _ => (lifted.putBack e).nextRetest
    | .noInstance => (lifted.putBack e).endPass

/-- RETEST_REQUEST: the retest at the head of the waiting requests is taken (R69, R140). -/
def State.takeRetest (s : State) : State :=
  match s.rim.requests with
  | .retest r :: l => ({ s with rim := { s.rim with requests := l } }).retest r
  | _ => s

/-- INCOMING_ACCEPTANCE_REQUEST: the incoming request at the head is taken (R78, R179). -/
def State.takeIncoming (s : State) : State :=
  match s.rim.requests with
  | .incoming b ref route :: l =>
    let s : State := { s with rim := { s.rim with requests := l } }
    match s.tryRoute (.blc b) (s.routeDef route).toList with
    | .reserved i _ s' => (s'.modBlc b fun r => { r with inAsks := r.inAsks ++ [⟨ref, i⟩] }).checkWaiting i
    | _ => s.sendHeld b (.acceptRefuse ref .unavailable)
  | _ => s

/-- LIFETIME_TIMER_EXPIRY (R143). -/
def State.lifetimeExpires (s : State) (route : Nat) : State :=
  match s.storeEntry route with
  | some e =>
    if !e.lifetime.isRunning then s
    else if e.lifted then
      { s with rqs := { s.rqs with
          store := modEntry route (fun (x : StoreEntry) => { x with expired := true, lifetime := .stopped }) s.rqs.store } }
    else s.removeEntry e .expired
  | none => s

/-! ### The commands -/

/-- SELECTION_TIMER_EXPIRY (R77). -/
def execSelectionTimerExpiry (l : OpLink) (s : State) : Host.Outcome State Fault Refusal :=
  .next (State.finish s (match s.rim.sel.get l with
    | some v => if v.timer.isRunning then s.putSel l none else s
    | none => s))

/-- RETEST_REQUEST (R140). -/
def execRetestRequest (s : State) : Host.Outcome State Fault Refusal := .next (State.finish s s.takeRetest)

/-- INCOMING_ACCEPTANCE_REQUEST (R78). -/
def execIncomingAcceptanceRequest (s : State) : Host.Outcome State Fault Refusal :=
  .next (State.finish s s.takeIncoming)

/-- LIFETIME_TIMER_EXPIRY (R143). -/
def execLifetimeTimerExpiry (route : Nat) (s : State) : Host.Outcome State Fault Refusal :=
  .next (State.finish s (s.lifetimeExpires route))

/-- SETTING_TIMER_EXPIRY (R82): in LOCKING, setting fails with TIMEOUT and the first waiting entry's element. -/
def execSettingTimerExpiry (i : Nat) (s : State) : Host.Outcome State Fault Refusal :=
  .next (State.finish s (match s.live i with
    | some (r, d) =>
      if r.setting.isRunning && r.state == .locking then
        s.settingFails i .timeout ((r.waiting.head?.map (s.waitElem d)).getD d.entry)
      else s
    | none => s))

/-- OVERLAP_TIMER_EXPIRY (R127). -/
def execOverlapTimerExpiry (i : Nat) (s : State) : Host.Outcome State Fault Refusal :=
  .next (State.finish s (match s.live i with
    | some (r, d) =>
      if r.overlapTimer.isRunning && r.state == .inUse then
        match overlapSect d with
        | some e =>
          if s.isClear e then
            ((s.releaseOverlap i d).modInst i fun r => { r with overlap := .released, overlapTimer := .stopped }).tryFree i
          else
            (s.modInst i fun r => { r with overlapTimer := .stopped }).recordOverrun ⟨i, r.route, .overlap, e⟩
        | none => s
      else s
    | none => s))

/-- APPROACH_TIMER_EXPIRY (R132). -/
def execApproachTimerExpiry (i : Nat) (s : State) : Host.Outcome State Fault Refusal :=
  .next (State.finish s (match s.inst i with
    | some r => if r.approach.isRunning && r.state == .cancelling then s.releaseAll i else s
    | none => s))

/-- EMERGENCY_TIMER_EXPIRY (R135). -/
def execEmergencyTimerExpiry (i : Nat) (s : State) : Host.Outcome State Fault Refusal :=
  .next (State.finish s (match s.inst i with
    | some r => if r.emergency.isRunning && r.state == .emergency then s.releaseAll i else s
    | none => s))

end Sys2Proof.Machine
end

