-- ==== Sys2Proof/Machine/Authority.lean ====
section
/-! DEFINITION. The Authority Map (R148 to R153) and auxiliary operations (R161 to R164, R19, R133, R183). -/

namespace Sys2Proof.Machine

/-! ### Control areas -/

def linkOf : Holder → Option OpLink
  | .none => none
  | .centre => some .olC
  | .localPanel => some .olL

/-- A link's press selection cleared if its signal lies in the area (R77, R153). -/
def State.clearSelection (s : State) (l : OpLink) (area : Nat) : State :=
  match s.rim.sel.get l with
  | some v => if (s.elem v.signal).area? = some area then s.putSel l none else s
  | none => s

/-- A change of holder (R153). -/
def State.changeHolder (s : State) (a : Nat) (new : Holder) : State :=
  let old := linkOf (s.areaRec a).holder
  let s : State := s.putArea a ⟨new, .stopped, if new == .centre then (s.areaRec a).force else .stopped⟩
  match old with
  | some l => (s.dropAuthority l a).clearSelection l a
  | none => s

/-- AUTH-TAKE (R149). -/
def State.takeArea (s : State) (l : OpLink) (a : Nat) : State × ReplyBody :=
  if a > 15 then (s, .refused .unknownObject)
  else
    let r := s.areaRec a
    if r.holder == .none then (s.changeHolder a (holderOf l), .accepted)
    else if r.holder == holderOf l then (s, .accepted)
    else if r.offer != .stopped then
      ((s.putArea a { r with force := .stopped }).changeHolder a (holderOf l), .accepted)
    else (s, .refused .heldByOther)

/-- AUTH-OFFER (R150, R152). -/
def State.offerArea (s : State) (l : OpLink) (a : Nat) : State × ReplyBody :=
  if a > 15 then (s, .refused .unknownObject)
  else if (s.areaRec a).holder != holderOf l then (s, .refused .noAuthority)
  else if (s.areaRec a).force != .stopped then (s.changeHolder a .localPanel, .accepted)
  else (s.putArea a { s.areaRec a with offer := .running Config.offerTime }, .accepted)

/-- AUTH-RETURN (R151, R152). -/
def State.returnArea (s : State) (l : OpLink) (a : Nat) : State × ReplyBody :=
  if a > 15 then (s, .refused .unknownObject)
  else if (s.areaRec a).holder != holderOf l then (s, .refused .noAuthority)
  else if (s.areaRec a).force != .stopped then (s.changeHolder a .localPanel, .accepted)
  else (s.changeHolder a .none, .accepted)

/-- OFFER_TIMER_EXPIRY (R150). -/
def execOfferTimerExpiry (a : Nat) (s : State) : Host.Outcome State Fault Refusal :=
  .next (State.finish s (if (s.areaRec a).offer.isRunning then s.putArea a { s.areaRec a with offer := .stopped } else s))

/-- FORCE_TIMER_EXPIRY (R152). -/
def execForceTimerExpiry (a : Nat) (s : State) : Host.Outcome State Fault Refusal :=
  .next (State.finish s (if (s.areaRec a).force.isRunning then s.changeHolder a .localPanel else s))

/-! ### Auxiliary operations -/

/-- The kinds 1 to 5 (section 9.5). -/
def auxKindOf : Nat → Option AuxKind
  | 1 => some .emergencyRelease
  | 2 => some .sectionReset
  | 3 => some .suspectClear
  | 4 => some .authForce
  | 5 => some .boundaryRelease
  | _ => none

/-- Whether the object is configured and of the kind the operation needs (R161, R19, R56, R133, R152, R183). -/
def State.auxKnown (s : State) (k : AuxKind) (o : Nat) : Bool :=
  match k with
  | .emergencyRelease => decide (o < 48)
  | .sectionReset => (s.track? o).isSome
  | .suspectClear => (s.elem o).area?.isSome
  | .authForce => decide (o < 16)
  | .boundaryRelease => (s.boundary? o).isSome

/-- Whether the link holds the object's area; AUTH-FORCE and a free instance record need none (R133, R152, R161). -/
def State.auxAllowed (s : State) (l : OpLink) (k : AuxKind) (o : Nat) : Bool :=
  match k with
  | .emergencyRelease =>
    match s.live o with
    | some (_, d) => s.holdsElem l d.entry
    | none => true
  | .authForce => true
  | _ => s.holdsElem l o

/-- The states from which EMERGENCY-RELEASE is allowed (R133). -/
def InstState.releasable : InstState → Bool
  | .inUse | .seqFault | .held | .cancelling => true
  | _ => false

/-- Whether some live instance lists an element (R19). -/
def State.isListed (s : State) (e : Nat) : Bool :=
  instNumbers.any fun i =>
    match s.live i with
    | some (r, d) => r.lists d e
    | none => false

/-- The owner's preconditions (R19, R56, R133, R152, R183). -/
def State.auxReady (s : State) (k : AuxKind) (o : Nat) : Bool :=
  match k with
  | .emergencyRelease => (s.inst o).any fun r => r.state.releasable
  | .sectionReset => s.resetOk o
  | .suspectClear => (s.elem o).isSuspect && !s.isListed o && (s.flankRef o).isNone
  | .authForce => (s.areaRec o).holder == .centre && (s.areaRec o).force == .stopped
  | .boundaryRelease =>
    match s.boundary? o with
    | some r =>
      (s.blcAt r.link).link == .down && (s.blcAt r.link).lostHoldings && (s.blcAt r.link).release == .stopped
    | none => false

/-- The link's pending auxiliary operation written, which marks it (R159). -/
def State.putAux (s : State) (l : OpLink) (a : Option PendingAux) : State :=
  (s.modOlc l fun c => { c with aux := a }).markAt l .aux

/-- AUX-ISSUE (R161). -/
def State.issueAux (s : State) (l : OpLink) (kind o : Nat) : State × ReplyBody :=
  match auxKindOf kind with
  | none => (s, .refused .notPermitted)
  | some k =>
    if k == .authForce && l == .olC then (s, .refused .notPermitted)
    else if !s.auxKnown k o then (s, .refused .unknownObject)
    else if !s.auxAllowed l k o then (s, .refused .noAuthority)
    else if !s.auxReady k o then (s, .refused .wrongState)
    else (s.putAux l (some ⟨k, o, .running Config.auxWindow, false⟩), .accepted)

/-- The counters handed to the CFL and written, or written once more when the write in flight ends (R164). -/
def State.writeCounters (s : State) : State :=
  if s.cfl.writing then { s with cfl := { s.cfl with writeAgain := true } }
  else
    ({ s with cfl := { s.cfl with counterImage := s.aou.counters, writing := true, writeAgain := false } }).send
      (.counters s.aou.counters)

/-- The AOU counts an operation (R163), and brings a write whether or not the counter changed: at 65535 with its mark set it
does not (R164; the model's choice, log entry 55). -/
def State.countOp (s : State) (k : AuxKind) : State :=
  State.writeCounters { s with aou := { s.aou with counters := countAux s.aou.counters k } }

/-- EMERGENCY-RELEASE (R134). -/
def State.emergencyRelease (s : State) (i : Nat) : State :=
  s.modInst i fun r =>
    { r with state := .emergency, emergency := .running Config.emergencyTime, setting := .stopped
             approach := .stopped, overlapTimer := .stopped }

/-- The present state of a section, from the ACE (R18, R19). -/
def State.aceState (s : State) (e : Nat) : Occ := ((s.count e).map SectCount.state).getD .disturbed

/-- SUSPECT-CLEAR: the record rebuilt from configuration defaults, and the release notice (R19). -/
def State.suspectClear (s : State) (e : Nat) : State :=
  let s : State := match s.elem e with
    | .unconfigured => s
    | .point p => s.putElem e (.point { p with
        detection := .unknown, localMode := false, failed := false, next := none, lock := .empty
        flankRef := none, block := false, suspect := false })
    | .signal g => s.putElem e (.signal { g with
        shown := .unknown, commanded := .stop, lampFault := false, failed := false, entrySlot := .empty
        exitSlot := .empty, flankRef := none, block := false, suspect := false })
    | .track t => s.writeTrack e { t with
        occupancy := s.aceState e, lock := .empty, block := false, suspect := false }
    | .boundary b => s.putElem e (.boundary { b with entrySlot := .empty, exitSlot := .empty, suspect := false })
  s.retestTrigger

/-- The owner executes an operation (R19, R57, R134, R152, R183). -/
def State.executeAux (s : State) (k : AuxKind) (o : Nat) : State :=
  match k with
  | .emergencyRelease => s.emergencyRelease o
  | .sectionReset => s.sectionReset o
  | .suspectClear => s.suspectClear o
  | .authForce => s.putArea o { s.areaRec o with force := .running Config.forceTime }
  | .boundaryRelease =>
    match s.boundary? o with
    | some r => s.modBlc r.link fun b => { b with release := .running Config.releaseTime }
    | none => s

/-- AUX-CONFIRM (R162). An object that is not configured, or of the wrong kind, is judged against the pending operation by
R162 and not first by R154 (log entry 59). -/
def State.confirmAux (s : State) (l : OpLink) (kind o : Nat) : State × ReplyBody :=
  match (s.olc.get l).aux with
  | none => (s, .refused .noPending)
  | some a =>
    let s : State := s.putAux l none
    if auxKindOf kind ≠ some a.kind ∨ o ≠ a.object then (s, .refused .noPending)
    else if !s.auxAllowed l a.kind o then (s, .refused .noAuthority)
    else if a.broken || !s.auxReady a.kind o then (s, .refused .wrongState)
    else ((s.executeAux a.kind o).countOp a.kind, .accepted)

/-- AUX_WINDOW_EXPIRY (R161). -/
def execAuxWindowExpiry (l : OpLink) (s : State) : Host.Outcome State Fault Refusal :=
  .next (State.finish s (match (s.olc.get l).aux with
    | some a => if a.window.isRunning then s.putAux l none else s
    | none => s))

/-- COUNTER_WRITE_COMPLETE (R164, R189): the write has succeeded when the record read back is the record written. The
fault flag is cleared or set, and one further write begun if counters changed. -/
def State.writeEnds (s : State) (readBack : Option AouCounters) : State :=
  if !s.cfl.writing then s
  else
    let ok := readBack == some s.cfl.counterImage
    let s : State :=
      if s.aou.storeFault = !ok then s
      else ({ s with aou := { s.aou with storeFault := !ok } }).mark .partStatus
    let again := s.cfl.writeAgain
    let s : State := { s with cfl := { s.cfl with writing := false, writeAgain := false } }
    if again then s.writeCounters else s

def execCounterWriteComplete (readBack : Option AouCounters) (s : State) : Host.Outcome State Fault Refusal :=
  .next (State.finish s (s.writeEnds readBack))

/-! ### The scrub (R18) -/

/-- The entry that names an element (R18). -/
def State.entryNaming (s : State) (e : Nat) : Option Nat :=
  (List.range Config.fctCount).find? fun n => (s.fctEntry n).any fun f => f.element == e

/-- The rebuild of an uncorrectable record (R18). -/
def State.rebuildSuspect (s : State) (e : Nat) : State :=
  let s : State := match s.elem e with
    | .unconfigured => s
    | .point p => s.putElem e (.point { p with
        detection := .unknown, localMode := false, failed := false, next := none, lock := .unknown
        flankRef := s.entryNaming e, block := true, suspect := true })
    | .signal g =>
      let s : State := s.putElem e (.signal { g with
        shown := .unknown, commanded := .stop, lampFault := false, failed := false, entrySlot := .unknown
        exitSlot := .unknown, flankRef := s.entryNaming e, block := true, suspect := true })
      (s.dropCmd e).enqueueStop e
    | .track t => s.writeTrack e { t with occupancy := s.aceState e, lock := .unknown, block := true, suspect := true }
    | .boundary b => s.putElem e (.boundary { b with entrySlot := .unknown, exitSlot := .unknown, suspect := true })
  s.notify (.suspect e)

/-- The check of the record at the pointer (R18). A correctable record and an unconfigured one are written back with
their check word. -/
def State.scrubRecord (s : State) (found : ScrubResult) : State :=
  let e := s.lkc.scrub
  let written := s.rewriteCheck e
  let corrected : State := { written with lkc := { written.lkc with corrected := satInc s.lkc.corrected } }
  match found with
  | .correct => s
  | .correctable => corrected
  | .uncorrectable =>
    match s.elem e with
    | .unconfigured => corrected
    | r => if r.isSuspect then s else s.rebuildSuspect e

/-- One check, then the pointer advances (R18). The scrub runs while the part is OPERATING (R20). -/
def State.scrubStep (s : State) (found : ScrubResult) : State :=
  if s.cfl.load = .operating then
    let s : State := s.scrubRecord found
    { s with lkc := { s.lkc with scrub := (s.lkc.scrub + 1) % Config.elementCount } }
  else s

/-- SCRUB_CHECK (R18). -/
def execScrubCheck (found : ScrubResult) (s : State) : Host.Outcome State Fault Refusal :=
  .next (State.finish s (s.scrubStep found))

end Sys2Proof.Machine
end

