-- ==== Sys2Proof/Machine/Operator.lean ====
section
/-! DEFINITION. Operator links (R154 to R160): arrival, the 22 requests and the unknown kind, replies. -/

namespace Sys2Proof.Machine

/-! ### Taking a request (R155) -/

/-- The telegram a row takes: the oldest waiting one, when loading has ended, the reply to the one before has been
handed over, no answer is held back, and the telegram is of the row's kind (R155, R185). -/
def State.canTake (s : State) (l : OpLink) (pick : Request → Bool) : Option Telegram :=
  let c := s.olc.get l
  if s.cfl.load ≠ .loading ∧ c.reply = none ∧ c.held = none then
    match c.waiting with
    | t :: _ => if pick t.request then some t else none
    | [] => none
  else none

/-- An object number outside its range (R155). The object of an AUX-ISSUE is judged after its kind (R161). A PRESS of an
element above 255 is refused here, before R75 could clear the link's selection (log entry 36). -/
def Request.outOfRange : Request → Bool
  | .setRoute e x _ _ => decide (e > 255) || decide (x > 255)
  | .press e | .cancelRoute e | .reClear e | .pointThrow e _ | .pointReset e | .signalReset e | .block e | .unblock e
  | .boundaryOpen e | .boundaryClose e | .dirRequest e => decide (e > 255)
  | .storeCancel r | .readRoute r => decide (r > 511)
  | .stopArea a | .authTake a | .authOffer a | .authReturn a => decide (a > 15)
  | .auxConfirm k o =>
    match auxKindOf k with
    | some .emergencyRelease => decide (o > 47)
    | some .authForce => decide (o > 15)
    | some _ => decide (o > 255)
    | none => false
  | _ => false

/-- A telegram taken and answered (R155): the owner's act gives the state and the reply, none while the owner holds
its answer back. -/
def State.takeRequest (s : State) (l : OpLink) (pick : Request → Bool)
    (act : State → Telegram → State × Option ReplyBody) : State :=
  match s.canTake l pick with
  | none => s
  | some t =>
    let s : State := s.modOlc l fun c => { c with waiting := c.waiting.tail }
    match s.cfl.load with
    | .configFault _ =>
      (if t.request = .snapshot then s.markAt l .partStatus else s).answer l t.seq (.refused .notConfigured)
    | _ =>
      if t.request.outOfRange then s.answer l t.seq (.refused .unknownObject)
      else
        let r := act s t
        match r.2 with
        | some b => r.1.answer l t.seq b
        | none => r.1

/-- An act whose owner answers at once. -/
def atOnce (r : State × ReplyBody) : State × Option ReplyBody := (r.1, some r.2)

/-- One row of the operator link as a step. -/
def runRequest (l : OpLink) (pick : Request → Bool) (act : State → Telegram → State × Option ReplyBody) (s : State) :
    Host.Outcome State Fault Refusal :=
  .next (State.finish s (s.takeRequest l pick act))

/-- OPERATOR_TELEGRAM_ARRIVAL (R155, R157, R190). -/
def State.arrive (s : State) (l : OpLink) (bytes : List Byte) : State :=
  s.modOlc l fun c =>
    match readOperatorFrame bytes with
    | some t =>
      if c.waiting.length < Config.waitingMax then { c with waiting := c.waiting ++ [t], good := incCounter c.good }
      else { c with discarded := incCounter c.discarded }
    | none => { c with discarded := incCounter c.discarded }

def execOperatorTelegramArrival (l : OpLink) (bytes : List Byte) (s : State) : Host.Outcome State Fault Refusal :=
  .next (State.finish s (s.arrive l bytes))

/-- REPLY_TRANSMIT (R158). -/
def State.transmitReply (s : State) (l : OpLink) : State :=
  match (s.olc.get l).reply with
  | some (seq, b) => (s.modOlc l fun c => { c with reply := none }).send (.reply l seq b)
  | none => s

def execReplyTransmit (l : OpLink) (s : State) : Host.Outcome State Fault Refusal :=
  .next (State.finish s (s.transmitReply l))

/-! ### Which requests a row takes -/

def Request.isUnknown : Request → Bool
  | .unknown _ => true
  | _ => false

/-- Whether a request is of a kind (11.3.1). -/
def Request.isKind (k : Byte) (r : Request) : Bool := !r.isUnknown && kindOf r == k

/-- UNKNOWN_REQUEST_KIND (R155): NOT_PERMITTED. -/
def execUnknownRequestKind (l : OpLink) (s : State) : Host.Outcome State Fault Refusal :=
  runRequest l Request.isUnknown (fun s _ => (s, some (.refused .notPermitted))) s

/-! ### Route requests -/

/-- The element of a CANCEL-ROUTE or RE-CLEAR, with its entry instance (R96). -/
def State.entryInst (s : State) (e : Nat) : Option (Nat × Inst × RouteDef) :=
  instNumbers.findSome? fun i =>
    match s.live i with
    | some (r, d) => if d.entry == e && r.releasePtr == 1 && !r.pathReleased then some (i, r, d) else none
    | none => none

/-- SET_ROUTE (R68, R69): the link's SET-ROUTE that has waited in the RIM and is now the oldest route request there, else
the oldest telegram. -/
def execSetRoute (l : OpLink) (s : State) : Host.Outcome State Fault Refusal :=
  match s.takeWaitingRoute l with
  | some t => .next (State.finish s t)
  | none =>
    runRequest l (Request.isKind 1) (fun s t =>
      match t.request with
      | .setRoute e x f n => s.reachRim l t.seq e x f n
      | _ => (s, none)) s

/-- PRESS (R76). -/
def execPress (l : OpLink) (s : State) : Host.Outcome State Fault Refusal :=
  runRequest l (Request.isKind 2) (fun s t =>
    match t.request with
    | .press e => s.pressed l t.seq e
    | _ => (s, none)) s

/-- CANCEL-ROUTE (R130). -/
def State.cancelRoute (s : State) (l : OpLink) (e : Nat) : State × ReplyBody :=
  if !s.isEnd e then (s, .refused .unknownObject)
  else if !s.holdsElem l e then (s, .refused .noAuthority)
  else
    match s.entryInst e with
    | none => (s, .refused .wrongState)
    | some (i, r, d) =>
      if r.state = .locking then (s.releaseAll i, .accepted)
      else if r.state.supervised ∧ d.cls ≠ .boundaryIn then
        let s : State := s.stopEntry d
        if d.approach.all s.isClear then (s.releaseAll i, .accepted)
        else
          (s.modInst i fun r => { r with state := .cancelling, approach := .running d.approachTime }, .accepted)
      else (s, .refused .wrongState)

/-- CANCEL_ROUTE (R130). -/
def execCancelRoute (l : OpLink) (s : State) : Host.Outcome State Fault Refusal :=
  runRequest l (Request.isKind 3) (fun s t =>
    match t.request with
    | .cancelRoute e => atOnce (s.cancelRoute l e)
    | _ => (s, none)) s

/-- Whether a cause bars RE-CLEAR (R97): permanent ones, and LINK_DOWN while the link concerned is not UP. -/
def State.causeBars (s : State) (c : Cause × Nat) : Bool :=
  match c.1 with
  | .suspect | .assuranceLost | .acceptanceLost => true
  | .linkDown =>
    match s.boundary? c.2 with
    | some r => (s.blcAt r.link).link != .up
    | none => true
  | _ => false

/-- RE-CLEAR (R97). -/
def State.reClear (s : State) (l : OpLink) (e : Nat) : State × ReplyBody :=
  if !s.isEnd e then (s, .refused .unknownObject)
  else if !s.holdsElem l e then (s, .refused .noAuthority)
  else
    match s.entryInst e with
    | none => (s, .refused .wrongState)
    | some (i, r, d) =>
      if r.state ≠ .held ∨ r.causes.any s.causeBars = true then (s, .refused .wrongState)
      else
        match s.clearingFailures i r d with
        | [] => (s.clearingPasses i r d, .accepted)
        | _ => (s, .refused .wrongState)

/-- RE_CLEAR (R97). -/
def execReClear (l : OpLink) (s : State) : Host.Outcome State Fault Refusal :=
  runRequest l (Request.isKind 4) (fun s t =>
    match t.request with
    | .reClear e => atOnce (s.reClear l e)
    | _ => (s, none)) s

/-- STORE-CANCEL (R144): a lifted entry holds the request as its waiting cancel, and the reply waits. -/
def State.storeCancel (s : State) (l : OpLink) (route : Nat) (seq : Word16) : State × Option ReplyBody :=
  match s.routeDef route with
  | none => (s, some (.refused .unknownObject))
  | some d =>
    if d.cls == .boundaryIn then (s, some (.refused .unknownObject))
    else if !s.holdsElem l d.entry then (s, some (.refused .noAuthority))
    else
      match ((s.rankOne d.entry d.exit).bind s.storeEntry).filter fun e => e.link == l with
      | none => (s, some (.refused .wrongState))
      | some e =>
        if e.lifted then
          let s : State := { s with rqs := { s.rqs with
            store := modEntry e.route (fun (x : StoreEntry) => { x with waitingCancel := some seq }) s.rqs.store } }
          (s.modOlc l (fun c => { c with held := some seq }), none)
        else (s.removeEntry e .cancelled, some .accepted)

/-- STORE_CANCEL (R144). -/
def execStoreCancel (l : OpLink) (s : State) : Host.Outcome State Fault Refusal :=
  runRequest l (Request.isKind 5) (fun s t =>
    match t.request with
    | .storeCancel r => s.storeCancel l r t.seq
    | _ => (s, none)) s

/-- One instance under STOP-AREA (R99). -/
def State.stopInst (area : Nat) (s : State) (i : Nat) : State :=
  match s.live i with
  | some (r, d) =>
    if (r.state = .clearing ∨ r.state = .cleared) ∧ (s.elem d.entry).area? = some area then
      s.supervise i d .operatorStop d.entry
    else s
  | none => s

/-- STOP-AREA (R99). R99 does not say in which order the instances are taken, which ranks their SHOW(STOP) by age: the
model takes them in ascending number (log entry 45). -/
def State.stopArea (s : State) (l : OpLink) (a : Nat) : State × ReplyBody :=
  if a > 15 then (s, .refused .unknownObject)
  else if !s.holdsArea l a then (s, .refused .noAuthority)
  else (instNumbers.foldl (State.stopInst a) s, .accepted)

/-- STOP_AREA (R99). -/
def execStopArea (l : OpLink) (s : State) : Host.Outcome State Fault Refusal :=
  runRequest l (Request.isKind 6) (fun s t =>
    match t.request with
    | .stopArea a => atOnce (s.stopArea l a)
    | _ => (s, none)) s

/-! ### Element requests -/

/-- POINT-THROW (R36). -/
def State.pointThrow (s : State) (l : OpLink) (e : Nat) (p : Pos) : State × ReplyBody :=
  match s.point? e with
  | none => (s, .refused .unknownObject)
  | some r =>
    if !s.holdsArea l r.area then (s, .refused .noAuthority)
    else
      let t := s.throwRequest e p true
      (t.1, if t.2 then .accepted else .refused .wrongState)

/-- POINT_THROW (R36). -/
def execPointThrow (l : OpLink) (s : State) : Host.Outcome State Fault Refusal :=
  runRequest l (Request.isKind 7) (fun s t =>
    match t.request with
    | .pointThrow e p => atOnce (s.pointThrow l e p)
    | _ => (s, none)) s

/-- POINT-RESET (R36). -/
def State.pointReset (s : State) (l : OpLink) (e : Nat) : State × ReplyBody :=
  match s.point? e with
  | none => (s, .refused .unknownObject)
  | some r =>
    if !s.holdsArea l r.area then (s, .refused .noAuthority)
    else if r.detection == .moving then (s, .refused .wrongState)
    else if r.failed then ((s.writePoint e { r with failed := false }).retestTrigger, .accepted)
    else (s, .accepted)

/-- POINT_RESET (R36). -/
def execPointReset (l : OpLink) (s : State) : Host.Outcome State Fault Refusal :=
  runRequest l (Request.isKind 8) (fun s t =>
    match t.request with
    | .pointReset e => atOnce (s.pointReset l e)
    | _ => (s, none)) s

/-- SIGNAL-RESET (R41). -/
def State.signalReset (s : State) (l : OpLink) (e : Nat) : State × ReplyBody :=
  match s.signal? e with
  | none => (s, .refused .unknownObject)
  | some g =>
    if !s.holdsArea l g.area then (s, .refused .noAuthority)
    else if !g.failed then (s, .accepted)
    else if g.shown == .stop then ((s.writeSignal e { g with failed := false }).retestTrigger, .accepted)
    else (s, .refused .wrongState)

/-- SIGNAL_RESET (R41). -/
def execSignalReset (l : OpLink) (s : State) : Host.Outcome State Fault Refusal :=
  runRequest l (Request.isKind 9) (fun s t =>
    match t.request with
    | .signalReset e => atOnce (s.signalReset l e)
    | _ => (s, none)) s

/-- The BLOCK flag of a point, signal or section (R2). -/
def Element.block? : Element → Option Bool
  | .point p => some p.block
  | .signal g => some g.block
  | .track t => some t.block
  | _ => none

def Element.withBlock (v : Bool) : Element → Element
  | .point p => .point { p with block := v }
  | .signal g => .signal { g with block := v }
  | .track t => .track { t with block := v }
  | x => x

/-- BLOCK and UNBLOCK (R5): the flag written; UNBLOCK of a set flag sends a release notice. -/
def State.setBlock (s : State) (l : OpLink) (e : Nat) (v : Bool) : State × ReplyBody :=
  match (s.elem e).block? with
  | none => (s, .refused .unknownObject)
  | some old =>
    if !s.holdsElem l e then (s, .refused .noAuthority)
    else if old == v then (s, .accepted)
    else
      let s : State := s.putElem e ((s.elem e).withBlock v)
      (if v then s else s.retestTrigger, .accepted)

/-- BLOCK (R5). -/
def execBlock (l : OpLink) (s : State) : Host.Outcome State Fault Refusal :=
  runRequest l (Request.isKind 10) (fun s t =>
    match t.request with
    | .block e => atOnce (s.setBlock l e true)
    | _ => (s, none)) s

/-- UNBLOCK (R5). -/
def execUnblock (l : OpLink) (s : State) : Host.Outcome State Fault Refusal :=
  runRequest l (Request.isKind 11) (fun s t =>
    match t.request with
    | .unblock e => atOnce (s.setBlock l e false)
    | _ => (s, none)) s

/-! ### Boundary requests (R173, R176) -/

/-- BOUNDARY-OPEN and BOUNDARY-CLOSE (R176). -/
def State.setOpen (s : State) (l : OpLink) (e : Nat) (v : Bool) : State × ReplyBody :=
  match s.boundary? e with
  | none => (s, .refused .unknownObject)
  | some r =>
    if !s.holdsArea l r.area then (s, .refused .noAuthority)
    else if v && !(s.blcAt r.link).used then (s, .refused .wrongState)
    else (s.modBlc r.link fun b => { b with isOpen := v }, .accepted)

/-- BOUNDARY_OPEN (R176). -/
def execBoundaryOpen (l : OpLink) (s : State) : Host.Outcome State Fault Refusal :=
  runRequest l (Request.isKind 12) (fun s t =>
    match t.request with
    | .boundaryOpen e => atOnce (s.setOpen l e true)
    | _ => (s, none)) s

/-- BOUNDARY_CLOSE (R176). -/
def execBoundaryClose (l : OpLink) (s : State) : Host.Outcome State Fault Refusal :=
  runRequest l (Request.isKind 13) (fun s t =>
    match t.request with
    | .boundaryClose e => atOnce (s.setOpen l e false)
    | _ => (s, none)) s

/-- DIR-REQUEST (R173). -/
def State.dirRequest (s : State) (l : OpLink) (e : Nat) : State × ReplyBody :=
  match s.boundary? e with
  | none => (s, .refused .unknownObject)
  | some r =>
    if !s.holdsArea l r.area then (s, .refused .noAuthority)
    else if !(s.blcAt r.link).used then (s, .refused .wrongState)
    else if (s.blcAt r.link).direction == .outward then (s, .accepted)
    else if s.directionTests r.link then (s.askDirection r.link, .accepted)
    else (s, .refused .wrongState)

/-- DIR_REQUEST (R173). -/
def execDirRequest (l : OpLink) (s : State) : Host.Outcome State Fault Refusal :=
  runRequest l (Request.isKind 14) (fun s t =>
    match t.request with
    | .dirRequest e => atOnce (s.dirRequest l e)
    | _ => (s, none)) s

/-! ### Auxiliary operations and authority -/

/-- AUX_ISSUE (R161). -/
def execAuxIssue (l : OpLink) (s : State) : Host.Outcome State Fault Refusal :=
  runRequest l (Request.isKind 15) (fun s t =>
    match t.request with
    | .auxIssue k o => atOnce (s.issueAux l k o)
    | _ => (s, none)) s

/-- AUX_CONFIRM (R162). -/
def execAuxConfirm (l : OpLink) (s : State) : Host.Outcome State Fault Refusal :=
  runRequest l (Request.isKind 16) (fun s t =>
    match t.request with
    | .auxConfirm k o => atOnce (s.confirmAux l k o)
    | _ => (s, none)) s

/-- AUTH_TAKE (R149). -/
def execAuthTake (l : OpLink) (s : State) : Host.Outcome State Fault Refusal :=
  runRequest l (Request.isKind 17) (fun s t =>
    match t.request with
    | .authTake a => atOnce (s.takeArea l a)
    | _ => (s, none)) s

/-- AUTH_OFFER (R150). -/
def execAuthOffer (l : OpLink) (s : State) : Host.Outcome State Fault Refusal :=
  runRequest l (Request.isKind 18) (fun s t =>
    match t.request with
    | .authOffer a => atOnce (s.offerArea l a)
    | _ => (s, none)) s

/-- AUTH_RETURN (R151). -/
def execAuthReturn (l : OpLink) (s : State) : Host.Outcome State Fault Refusal :=
  runRequest l (Request.isKind 19) (fun s t =>
    match t.request with
    | .authReturn a => atOnce (s.returnArea l a)
    | _ => (s, none)) s

/-! ### Reading (R66, R157, R160) -/

/-- READ_ROUTE (R66). -/
def execReadRoute (l : OpLink) (s : State) : Host.Outcome State Fault Refusal :=
  runRequest l (Request.isKind 20) (fun s t =>
    match t.request with
    | .readRoute r =>
      (s, some (match s.routeDef r with
        | some d => .acceptedDefinition d
        | none => .refused .unknownObject))
    | _ => (s, none)) s

/-- What READ-COUNTERS returns (R157). -/
def State.counterReading (s : State) (l : OpLink) : CounterReading :=
  let c := s.olc.get l
  ⟨c.good, c.discarded, c.refused, s.lkc.corrected, s.tbc.missed, blinks.map fun b => (s.blcAt b).counts,
    s.aou.counters⟩

/-- One boundary link's counters cleared (R157, R184). -/
def State.clearCounts (s : State) (b : BLink) : State := s.modBlc b fun r => { r with counts := ⟨0, 0, 0⟩ }

/-- The counters that return to 0 as the reply is built (R157). -/
def State.clearCounters (s : State) (l : OpLink) : State :=
  let s : State := s.modOlc l fun c =>
    { c with good := SatCounter.zero, discarded := SatCounter.zero, refused := SatCounter.zero }
  let s : State := { s with lkc := { s.lkc with corrected := 0 }, tbc := { s.tbc with missed := 0 } }
  blinks.foldl State.clearCounts s

/-- READ_COUNTERS (R157). -/
def execReadCounters (l : OpLink) (s : State) : Host.Outcome State Fault Refusal :=
  runRequest l (Request.isKind 21) (fun s _ => (s.clearCounters l, some (.acceptedCounters (s.counterReading l)))) s

/-- SNAPSHOT (R160): every object of the link's set marked in order. -/
def State.snapshot (s : State) (l : OpLink) : State :=
  (snapshotObjects s.configured).foldl (fun s o => s.markAt l o) s

def execSnapshot (l : OpLink) (s : State) : Host.Outcome State Fault Refusal :=
  runRequest l (Request.isKind 22) (fun s _ => (s.snapshot l, some .accepted)) s

end Sys2Proof.Machine
end

