-- ==== Sys2Proof/Machine/Indication.lean ====
section
/-! DEFINITION. Indications (R44, R100, R117, R147, R148, R158, R159, R184): what each object's indication carries. -/

namespace Sys2Proof.Machine

/-- The part status of a link (R159). The selection's remaining time is in whole seconds rounded up, a unit the spec does
not give (log entry 60). -/
def State.partStatus (s : State) (l : OpLink) : PartStatus :=
  let c := s.olc.get l
  ⟨s.cfl.load, s.aou.areaFault, s.aou.storeFault,
    (s.rim.sel.get l).map fun v => (v.signal, v.timer.seconds), c.failure, c.overrun⟩

/-- The area indication (R148): holder, offer with its target link, force, with remaining seconds. -/
def areaBody (r : Area) : IndBody :=
  .area r.holder
    (if r.offer == .stopped then none else (linkOf r.holder).map fun l => (otherLink l, r.offer.seconds))
    (if r.force == .stopped then none else some r.force.seconds)

/-- What the indication of a section carries from the ACE (R44). -/
def State.trackView (s : State) (c : SectCount) : TrackView :=
  ⟨c.count, c.cause, c.sweep, c.saturated, c.points.filterMap fun p => (s.dp p.1).map fun r => (p.1, r.state)⟩

/-- The indication of an element (R17, R44, R117). -/
def State.elementBody (s : State) (e : Nat) : IndBody :=
  .element (s.elem e) ((s.flankRef e).bind fun n => (s.fctEntry n).map fun f => (n, f)) (s.drive e) (s.cmd e)
    ((s.count e).map s.trackView)

/-- The instance fields an indication carries, each waiting entry with its element (R100, R126). -/
def State.instView (s : State) (p : Inst × RouteDef) : InstView :=
  let r := p.1
  ⟨r.route, r.origin, r.state, r.waiting.map (fun w => (w, s.waitElem p.2 w)), r.flank, r.acceptance, r.causes,
    r.releasePtr, r.overlap, r.faultRec⟩

/-- The boundary indication (R184). -/
def State.boundaryView (s : State) (b : BLink) : BoundaryView :=
  let r := s.blcAt b
  { link := r.link, direction := r.direction, change := r.change, isOpen := r.isOpen, senior := r.senior
    used := r.used, neighbourClear := r.neighbourClear, lineClear := s.lineClear b
    outAsks := r.outAsks.map fun a => ⟨a.ref, a.inst⟩
    outgoing := r.outgoing, inAsks := r.inAsks, incoming := r.incoming
    assurances := r.assurances.map fun a => (a.ref, a.inst, a.item, a.assured)
    lostHoldings := r.lostHoldings
    release := if r.release == .stopped then none else some r.release.seconds }

/-- The store indication (R147). -/
def State.storeBody (s : State) : IndBody :=
  .store (s.rqs.store.map fun e => ⟨e.route, e.link, e.area, e.lifetime.seconds⟩) s.rqs.removal.olC s.rqs.removal.olL

/-- The indication of an object, built from the owner's state at that moment (R158). -/
def State.indicationOf (s : State) (l : OpLink) : Obj → IndBody
  | .partStatus => .partStatus (s.partStatus l)
  | .area a => areaBody (s.areaRec a)
  | .element e => s.elementBody e
  | .inst i => .inst ((s.live i).map s.instView)
  | .boundary b => .boundary (s.boundaryView (Fin.ofNat 4 b))
  | .store => s.storeBody
  | .aux => .aux ((s.olc.get l).aux.map fun a => (a.kind, a.object, a.window.seconds))

/-- The free transmitter, with no reply waiting, sends the indication of the first object (R158). -/
def State.sendIndication (s : State) (l : OpLink) : State :=
  let c := s.olc.get l
  if s.cfl.load ≠ .loading ∧ c.reply = none then
    match c.marks with
    | o :: rest =>
      (s.modOlc l fun c => { c with marks := rest, indNo := c.indNo + 1 }).send
        (.indication l c.indNo o (s.indicationOf l o))
    | [] => s
  else s

/-- SEND_INDICATION (R158). -/
def execSendIndication (l : OpLink) (s : State) : Host.Outcome State Fault Refusal :=
  .next (State.finish s (s.sendIndication l))

end Sys2Proof.Machine
end

