-- ==== Sys2Proof/Machine/Loader.lean ====
section
/-! DEFINITION. The Configuration Loader (R20, R60, R61, R185 to R189): the image checks, clamping, the fill of every
block, and cold start. -/

namespace Sys2Proof.Machine

/-! ### Lookups in the image -/

def Image.elem (m : Image) (e : Nat) : Option ElemCfg := m.elements.find? fun x => x.number == e

def isPoint : ElemCfgKind → Bool
  | .point .. => true
  | _ => false

def isSignal : ElemCfgKind → Bool
  | .signal => true
  | _ => false

def isTrack : ElemCfgKind → Bool
  | .track => true
  | _ => false

def isBoundary : ElemCfgKind → Bool
  | .boundary .. => true
  | _ => false

/-- Whether an element is configured with a kind. -/
def hasKind (m : Image) (p : ElemCfgKind → Bool) (e : Nat) : Bool :=
  (Image.elem m e).any fun x => p x.kind

def hasElem (m : Image) (e : Nat) : Bool := (Image.elem m e).isSome
def hasDp (m : Image) (d : Nat) : Bool := m.dps.any fun x => x.number == d

/-- Of the entries of one number the first stands (log entry 25). -/
def firstOf {α : Type} (number : α → Nat) : List α → List α
  | [] => []
  | a :: l => a :: (firstOf number l).filter fun x => number x != number a

/-- The element entries that stand: a count of elements, and a rule on how many there are, is about these (log entry 25). -/
def standingElems (m : Image) : List ElemCfg := firstOf ElemCfg.number m.elements

def countKind (m : Image) (p : ElemCfgKind → Bool) : Nat := ((standingElems m).filter fun x => p x.kind).length
def countUnits (m : Image) (k : UnitKind) : Nat := (m.units.filter fun u => u.kind == k).length

/-- Whether no member of a list stands in it twice. -/
def noTwice {α : Type} [BEq α] : List α → Bool
  | [] => true
  | a :: l => !l.contains a && noTwice l

/-- The elements a flank item names: its primary, unless it is a BOUNDARY, and its substitutes. -/
def flankTargets (f : FlankItem) : List FlankTarget :=
  (match f.primary with
    | .claim t => [t]
    | .boundary _ _ => []) ++ f.subs

def routeItems (d : RouteDef) : List PathItem := d.path ++ d.overlap.toList

/-- The elements of a definition's entry, exit, path and overlap (R62). -/
def routeElements (d : RouteDef) : List Nat :=
  [d.entry, d.exit] ++ (routeItems d).map PathItem.sect
    ++ (routeItems d).flatMap fun it => it.points.map PointReq.point

/-! ### The checks (R186) -/

/-- Whether a number that a field of the image refers by is an element number (R1, R186). -/
def elemOk (e : Nat) : Bool := decide (e ≤ 255)

/-- Whether a number is a detection point number (R42). -/
def dpOk (d : Nat) : Bool := decide (d < 120)

/-- Whether a number is a unit address (section 2.1). -/
def addressOk (a : Nat) : Bool := decide (1 ≤ a) && decide (a ≤ 254)

/-- Code 4 of one definition: its own numbers, the lengths of its lists, and every element number it refers by. -/
def routeLimitsOk (d : RouteDef) : Bool :=
  decide (d.number ≤ 511) && decide (1 ≤ d.rank) && decide (d.rank ≤ 4)
    && decide (1 ≤ d.path.length) && decide (d.path.length ≤ 12)
    && d.path.all (fun it => decide (it.points.length ≤ 3))
    && d.overlap.all (fun it => decide (it.points.length ≤ 2))
    && decide (d.flank.length ≤ 8) && decide (d.approach.length ≤ 3) && d.inRef.all refOk
    && d.flank.all (fun f => decide (f.subs.length ≤ 2) &&
      match f.primary with
      | .boundary _ r => refOk r
      | .claim _ => true)
    && (routeElements d ++ d.approach).all elemOk
    && d.flank.all (fun f => (flankTargets f).all fun t => elemOk (FlankTarget.elem t))

/-- Code 4: limits, numbers out of range, lists too long. A number is out of range where it is defined and in every field
that refers by it. -/
def limitsOk (m : Image) : Bool :=
  decide (countKind m isPoint ≤ 64) && decide (countKind m isSignal ≤ 64) && decide (countKind m isTrack ≤ 96)
    && countKind m isBoundary == 4 && decide ((firstOf DpCfg.number m.dps).length ≤ 120)
    && decide (countUnits m .ch ≤ 120) && decide (countUnits m .pdu ≤ 64) && decide (countUnits m .sdu ≤ 64)
    && m.elements.all (fun x => elemOk x.number && decide (x.area ≤ 15) &&
        match x.kind with
        | .point c _ _ => decide (1 ≤ c.length) && decide (c.length ≤ 2) && c.all elemOk
        | _ => true)
    && m.units.all (fun u => addressOk u.address && if u.kind == .ch then dpOk u.serves else elemOk u.serves)
    && m.dps.all (fun d => dpOk d.number && addressOk d.head && d.borders.all fun p => elemOk p.1)
    && m.sections.all (fun x => elemOk x.sect && x.points.all fun p => dpOk p.1)
    && m.routes.all routeLimitsOk
    && m.boundaries.all (fun b => decide (b.lineSections.length ≤ 4) && decide (b.offers.length ≤ 16)
        && b.lineSections.all elemOk && b.outRefs.all (fun p => decide (p.1 ≤ 511) && refOk p.2)
        && b.offers.all fun p => refOk p.1 && elemOk (FlankTarget.elem p.2))

/-- Of the definitions of one number the first stands (log entry 25), so that no more than 512 do (R61). -/
def firstOfEach (l : List RouteDef) : List RouteDef := firstOf RouteDef.number l

/-- Whether every pair of the catalogue that has variants has one of rank 1 (R65). The definitions are those that stand in
the catalogue, the first of each number. BOUNDARY_IN definitions are no variants. -/
def rankOnesOk (l : List RouteDef) : Bool :=
  l.all fun d => d.cls == .boundaryIn
    || l.any fun x => x.entry == d.entry && x.exit == d.exit && x.cls != .boundaryIn && x.rank == 1

/-- Code 5: a field names what is not configured; units that share an address; a pair without rank-1 variant. -/
def referencesOk (m : Image) : Bool :=
  m.elements.all (fun x =>
      match x.kind with
      | .point c _ _ => c.all (hasElem m)
      | _ => true)
    && m.units.all (fun u => if u.kind == .ch then hasDp m u.serves else hasElem m u.serves)
    && noTwice (m.units.map UnitCfg.address)
    && m.dps.all (fun d => m.units.any (fun u => u.address == d.head) && d.borders.all fun p => hasElem m p.1)
    && m.sections.all (fun x => hasElem m x.sect && x.points.all fun p => hasDp m p.1)
    && m.routes.all (fun d => (routeElements d ++ d.approach).all (hasElem m)
        && d.flank.all fun f => (flankTargets f).all fun t => hasElem m (FlankTarget.elem t))
    && m.boundaries.all (fun b => b.lineSections.all (hasElem m)
        && b.offers.all fun p => hasElem m (FlankTarget.elem p.2))
    && rankOnesOk (firstOfEach m.routes)

/-- Whether a flank target is of its kind. -/
def targetOk (m : Image) : FlankTarget → Bool
  | .point e _ => hasKind m isPoint e
  | .signal e => hasKind m isSignal e

/-- Whether a point lies in a section: it is one of its containing sections (R62). -/
def liesIn (m : Image) (p t : Nat) : Bool :=
  (Image.elem m p).any fun x =>
    match x.kind with
    | .point c _ _ => c.contains t
    | _ => false

/-- Whether the boundary of a BOUNDARY_OUT route's exit lists a reference for it (R165), in the link's entry of the boundary
block that stands, the first one (log entry 25). -/
def hasOutRef (m : Image) (d : RouteDef) : Bool :=
  (Image.elem m d.exit).any fun x =>
    match x.kind with
    | .boundary b _ =>
      (m.boundaries.find? fun y => y.link == b).any fun y => y.outRefs.any fun p => p.1 == d.number
    | _ => false

/-- The structural rules of one definition (R62 to R64, R186). -/
def routeOk (m : Image) (d : RouteDef) : Bool :=
  hasKind m (if d.cls == .boundaryIn then isBoundary else isSignal) d.entry
    && hasKind m (if d.cls == .boundaryOut then isBoundary else isSignal) d.exit
    && (routeItems d).all (fun it => hasKind m isTrack it.sect
        && it.points.all fun p => hasKind m isPoint p.point && liesIn m p.point it.sect)
    && noTwice (routeElements d)
    && d.approach.all (fun e => hasKind m isTrack e && !((routeItems d).map PathItem.sect).contains e)
    && (d.overlap.isNone || d.cls == .main)
    && (d.cls != .boundaryOut || hasOutRef m d)
    && d.inRef.isSome == (d.cls == .boundaryIn)
    && (d.cls != .boundaryIn || d.approach.isEmpty)
    && d.flank.all (fun f => decide (1 ≤ f.protects) && decide (f.protects ≤ d.path.length)
        && (flankTargets f).all fun t => targetOk m t && !(routeElements d).contains (FlankTarget.elem t))

/-- Whether a detection point's borders fit its boundary mark, with opposite orientations at two sections (R42, R43). One
section may stand twice, as a point may in a section's list, and the two records need not agree: the section's record
counts each entry and gives the orientations, the point's record gives the sections of R50 and of R44's marks (log
entry 42). -/
def bordersOk (d : DpCfg) : Bool :=
  match d.borders with
  | [_] => d.boundaryMark
  | [a, b] => !d.boundaryMark && a.2 != b.2
  | _ => false

/-- Code 6: kinds and structural rules. -/
def kindsOk (m : Image) : Bool :=
  m.elements.all (fun x =>
      match x.kind with
      | .point c _ _ => c.all (hasKind m isTrack)
      | .track => m.sections.any fun y => y.sect == x.number
      | _ => true)
    && m.units.all (fun u =>
      match u.kind with
      | .ch => true
      | .pdu => hasKind m isPoint u.serves
      | .sdu => hasKind m isSignal u.serves)
    && m.dps.all (fun d => m.units.any (fun u => u.address == d.head && u.kind == .ch)
        && d.borders.all (fun p => hasKind m isTrack p.1) && bordersOk d)
    && m.sections.all (fun x => hasKind m isTrack x.sect && decide (2 ≤ x.points.length)
        && decide (x.points.length ≤ 4))
    && m.routes.all (routeOk m)
    && noTwice ((standingElems m).filterMap fun x =>
      match x.kind with
      | .boundary b _ => some b
      | _ => none)
    && m.boundaries.all (fun b => b.lineSections.all (hasKind m isTrack) && b.offers.all fun p => targetOk m p.2)

/-- Code 7: duplicates in the catalogue (R63, R65). -/
def catalogueOk (m : Image) : Bool :=
  noTwice (m.routes.map fun d => (d.entry, d.exit, d.rank))
    && m.routes.all (fun d => d.cls != .boundaryIn || d.rank == 1)
    && noTwice ((m.routes.filter fun d => d.cls == .boundaryIn).map fun d => (d.entry, d.inRef))

/-- The code of the first check that fails, in the order of the table (R186). -/
def imageFault (m : Image) : Option Nat :=
  if !m.readable || m.reachesCounters then some 1
  else if !m.checkAgrees then some 2
  else if m.formatVersion != 2 then some 3
  else if !limitsOk m then some 4
  else if !referencesOk m then some 5
  else if !kindsOk m then some 6
  else if !catalogueOk m then some 7
  else none

/-! ### Clamping (R187) -/

def clamp (lo hi v : Nat) : Nat := max lo (min hi v)

/-- A value held as 0 takes its default, then the range (R187). -/
def clampOr (deflt lo hi v : Nat) : Nat := clamp lo hi (if v = 0 then deflt else v)

def clampRoute (d : RouteDef) : RouteDef :=
  { d with approachTime := clampOr 900 100 3000 d.approachTime, overlapTime := clampOr 600 100 3000 d.overlapTime }

/-! ### The fill (R20, R21, R60, R165) -/

/-- A configured record as R20 gives it. The image gives a link's used mark twice, in the element block and in the boundary
block, and no check compares them (R1, R186): a boundary element takes the element block's (log entry 50). -/
def elementOf (x : ElemCfg) : Element :=
  match x.kind with
  | .point c retries supervision =>
    .point ⟨x.area, c, min retries 3, clamp 20 200 supervision, .unknown, false, false, none, .empty, none, false, false⟩
  | .signal => .signal ⟨x.area, .unknown, .stop, false, false, .empty, .empty, none, false, false⟩
  | .track => .track ⟨x.area, .disturbed, .empty, false, false⟩
  | .boundary b used => .boundary ⟨x.area, b, !used, .empty, .empty, false⟩

/-- A table filled from a list of numbered entries; of two with one number the first stands. -/
def fillTable {α β : Type} {n : Nat} (number : α → Nat) (value : α → β) (l : List α) (v : Vector β n) : Vector β n :=
  l.foldr (fun a v => v.setIfInBounds (number a) (value a)) v

def unitOfCfg (u : UnitCfg) : UnitRow := ⟨u.address, u.kind, u.serves, true, 0⟩

/-- Insertion by address; the table stands in ascending address order (R21). -/
def insertUnit (u : UnitRow) : List UnitRow → List UnitRow
  | [] => [u]
  | v :: l => if u.address ≤ v.address then u :: v :: l else v :: insertUnit u l

def dpOf (d : DpCfg) : DpRec := ⟨d.head, d.borders, d.boundaryMark, .failed .start, none, 0, 0⟩
def sectOf (x : SectCfg) : SectCount := ⟨x.points, 0, .disturbed, some .start, 0, false, false⟩

/-- A boundary record with its configuration; its counts so far are kept (R165). The used mark is the boundary block's,
whatever the element block's says (log entry 50). -/
def blcOf (old : Blc) (c : BoundaryCfg) : Blc :=
  { old with
    used := c.used, senior := c.senior, lineSections := c.lineSections, outRefs := c.outRefs, offers := c.offers
    neighbour := c.neighbour
    statusTimer := if c.used then .running Config.statusPeriod else .stopped }

/-- The boundary records filled. A link the boundary block has no entry for passes every check of R186; it stays unused at
its cold-start values (log entry 51). -/
def fillBlc (m : Image) (v : Vector Blc 4) : Vector Blc 4 :=
  m.boundaries.foldr (fun c v => v.set c.link (blcOf v[c.link] c)) v

/-- The counters of the counter area, or zero with COUNTER_AREA_FAULT (R164, R189). -/
def loadCounters (s : State) (c : Option AouCounters) : State :=
  match c with
  | some k => { s with aou := ⟨k, false, false⟩ }
  | none => { s with aou := ⟨AouCounters.zero, true, false⟩ }

/-- The cold-start counter incremented and the first write begun (R164, R189). -/
def countColdStart (s : State) : State :=
  let k := s.aou.counters
  State.writeCounters { s with aou := { s.aou with counters := { k with coldStart := incCounter k.coldStart } } }

def setMarks (s : State) (l : List Obj) : State :=
  (s.modOlc .olC fun c => { c with marks := l }).modOlc .olL fun c => { c with marks := l }

/-- The configured content of every block written (R185), with the check word of every element record (R2). -/
def fillBlocks (s : State) (m : Image) : State :=
  let elements := fillTable ElemCfg.number elementOf m.elements s.lkc.elements
  let s : State := { s with
    cfl := { s.cfl with
      load := .operating, stationCode := m.stationCode, settingTime := clampOr 200 50 600 m.settingTime
      tolerance := min m.tolerance 4, stackLifetime := clampOr 1200 100 6000 m.stackLifetime }
    lkc := { s.lkc with
      elements := elements, checks := Vector.ofFn fun e => Config.checkWordOf e.val (elements.getD e.val .unconfigured) }
    tbc := { s.tbc with
      units := (m.units.map unitOfCfg).foldr insertUnit [], spacing := .running 0 }
    ace := ⟨fillTable DpCfg.number (fun d => some (dpOf d)) m.dps s.ace.dps,
      fillTable SectCfg.sect (fun x => some (sectOf x)) m.sections s.ace.counts⟩
    rcat := firstOfEach (m.routes.map clampRoute)
    blc := fillBlc m s.blc }
  setMarks s (snapshotObjects s.configured)

/-- CONFIG_FAULT (R188): nothing configured, boundary records at their cold-start values, part status alone to send. -/
def enterConfigFault (s : State) (code : Nat) : State :=
  setMarks { s with
    cfl := { s.cfl with load := .configFault code }
    tbc := { s.tbc with spacing := .running 0 }
    blc := Vector.replicate 4 Blc.cold } [.partStatus]

/-- The load ends (R185, R189). -/
def loadEnds (s : State) (m : Image) (counters : Option AouCounters) : State :=
  if s.cfl.load = .loading then
    let s : State := match imageFault m with
      | none => fillBlocks s m
      | some code => enterConfigFault s code
    countColdStart (loadCounters s counters)
  else s

/-- LOAD_COMPLETE (R185). -/
def execLoadComplete (m : Image) (counters : Option AouCounters) (s : State) : Host.Outcome State Fault Refusal :=
  .next (loadEnds s m counters)

/-- COLD_START (R185): every block at its cold-start state, the CFL LOADING. What has gone out and the commands that
wait outside the part are not the part's. -/
def execColdStart (s : State) : Host.Outcome State Fault Refusal :=
  .next { State.reset with out := s.out, pending := s.pending }

end Sys2Proof.Machine
end

