-- ==== Sys2Proof/Machine/Wire.lean ====
section
/-! DEFINITION. The bytes of what the part sends and of what a field unit answers (section 11.3): boundary frames,
replies, telegrams of the trackside bus. `out` holds what is sent as data; these are its bytes. -/

namespace Sys2Proof.Machine

/-! ### Trackside bus (11.3.3) -/

def aspectCode : Aspect → Byte
  | .stop => 0
  | .proceed => 1

/-- Kind and data of a telegram of the part. -/
def trackContent : TrackTelegram → List Byte
  | .poll => [1]
  | .throwTo p => [2, posCode p]
  | .showAs a => [3, aspectCode a]
  | .allStop => [4]

/-- A telegram of the trackside bus: address, kind, data, and the check byte over all of them. -/
def trackFrame (address : Nat) (t : TrackTelegram) : List Byte :=
  let content := byte address :: trackContent t
  content ++ [crc8 content]

def pduDetectionOf (b : Byte) : Option PduDetection :=
  [PduDetection.detN, .detR, .moving, .noDetection][b.toNat]?

def sduAspectOf (b : Byte) : Option SduAspect := [SduAspect.stop, .proceed, .dark][b.toNat]?

def rejectReasonOf (b : Byte) : Option RejectReason := [RejectReason.wrongKind, .localMode, .unitFault][b.toNat]?

/-- The body of an answer by its kind; a REPORT is read by the layout of the unit's configured kind (11.3.3). -/
def answerBodyOf (unit : UnitKind) (kind : Byte) (data : List Byte) : Option AnswerBody :=
  match kind.toNat, unit, data with
  | 11, .ch, [a, b, h] => (flagOf h).map fun f => .reportCh a b f
  | 11, .pdu, [d, f] => do some (.reportPdu (← pduDetectionOf d) (← flagOf f))
  | 11, .sdu, [a, f] => do some (.reportSdu (← sduAspectOf a) (← flagOf f))
  | 12, _, [] => some .ack
  | 13, _, [r] => (rejectReasonOf r).map .reject
  | _, _, _ => none

/-- The answer of a unit of a kind that bytes spell (R22, R190): its address, a body of its layout, and a check byte that
agrees; none where they spell none, and the exchange is then missed as one without an answer is. -/
def readAnswer (unit : UnitKind) (address : Nat) (bytes : List Byte) : Option AnswerBody :=
  match bytes with
  | a :: kind :: rest =>
    if a.toNat = address ∧ rest.getLast? = some (crc8 (a :: kind :: rest.dropLast)) then
      answerBodyOf unit kind rest.dropLast
    else none
  | _ => none

def pduDetectionCode : PduDetection → Byte
  | .detN => 0
  | .detR => 1
  | .moving => 2
  | .noDetection => 3

def sduAspectCode : SduAspect → Byte
  | .stop => 0
  | .proceed => 1
  | .dark => 2

def rejectReasonCode : RejectReason → Byte
  | .wrongKind => 0
  | .localMode => 1
  | .unitFault => 2

/-- Whether a unit of a kind can answer so: a REPORT has the layout of the unit's own kind (11.3.3). -/
def canAnswer (unit : UnitKind) : AnswerBody → Bool
  | .reportCh .. => unit == .ch
  | .reportPdu .. => unit == .pdu
  | .reportSdu .. => unit == .sdu
  | .ack => true
  | .reject _ => true

/-- Kind and data of an answer. -/
def answerContent : AnswerBody → List Byte
  | .reportCh a b f => [11, a, b, flagCode f]
  | .reportPdu d f => [11, pduDetectionCode d, flagCode f]
  | .reportSdu a f => [11, sduAspectCode a, flagCode f]
  | .ack => [12]
  | .reject r => [13, rejectReasonCode r]

/-- The bytes of a unit's answer: address, kind, data, and the check byte over all of them. -/
def answerFrame (address : Nat) (b : AnswerBody) : List Byte :=
  let content := byte address :: answerContent b
  content ++ [crc8 content]

/-! ### Boundary links (11.3.2) -/

def dirCode : Dir → Byte
  | .outward => 0
  | .inward => 1
  | .none => 2

def reasonCode : RefuseReason → Byte
  | .link => 0
  | .direction => 1
  | .closed => 2
  | .full => 3
  | .unknown => 4
  | .unavailable => 5

/-- A count followed by its references. -/
def refBytes (l : List Nat) : List Byte := byte l.length :: l.map byte

/-- Kind and body of a boundary telegram. -/
def boundaryBody : BoundaryTelegram → List Byte
  | .status b => [0x40, flagCode b.lineClear, dirCode b.direction] ++ refBytes b.pendingRefs
  | .holdings h =>
    [0x41, dirCode h.direction] ++ refBytes h.acceptancesGiven ++ refBytes h.acceptancesReceived
      ++ refBytes h.assurancesGiven ++ refBytes h.assurancesReceived
  | .dirAsk => [0x42]
  | .dirGive => [0x43]
  | .dirRefuse => [0x44]
  | .acceptAsk r => [0x45, byte r]
  | .acceptGive r => [0x46, byte r]
  | .acceptRefuse r x => [0x47, byte r, reasonCode x]
  | .acceptWithdraw r => [0x48, byte r]
  | .trainHanded r => [0x49, byte r]
  | .acceptEnd r => [0x4A, byte r]
  | .flankAsk r => [0x4B, byte r]
  | .flankGive r => [0x4C, byte r]
  | .flankRefuse r => [0x4D, byte r]
  | .flankDrop r => [0x4E, byte r]
  | .notPermitted k => [0x80, k]

/-- Whether every reference of a boundary telegram a neighbour may send is in its range (R190). -/
def telegramInRange : BoundaryTelegram → Bool
  | .status b => b.wellFormed
  | .holdings h => h.wellFormed
  | .dirAsk => true
  | .dirGive => true
  | .dirRefuse => true
  | .acceptAsk r => refOk r
  | .acceptGive r => refOk r
  | .acceptRefuse r _ => refOk r
  | .acceptWithdraw r => refOk r
  | .trainHanded r => refOk r
  | .acceptEnd r => refOk r
  | .flankAsk r => refOk r
  | .flankGive r => refOk r
  | .flankRefuse r => refOk r
  | .flankDrop r => refOk r
  | .notPermitted _ => false

/-- A boundary frame with the sender's station code (11.3.2). -/
def boundaryFrame (station : Word16) (t : BoundaryTelegram) : List Byte :=
  frame 0x3C ([hiByte station, loByte station] ++ boundaryBody t)

/-! ### Replies and indications (11.3.1) -/

/-- The place of a refusal code in the table of R156, from 2. -/
def refusalByte : RefusalCode → Byte
  | .noAuthority => 2
  | .heldByOther => 3
  | .unknownObject => 4
  | .noRoute => 5
  | .unavailable _ => 6
  | .noInstance => 7
  | .storeFull => 8
  | .duplicate => 9
  | .wrongState => 10
  | .notPermitted => 11
  | .noPending => 12
  | .notConfigured => 13

/-- The result byte of a reply: ACCEPTED, STORED, or the refusal. -/
def resultByte : ReplyBody → Byte
  | .stored => 1
  | .refused c => refusalByte c
  | _ => 0

def wordBytes (w : Word16) : List Byte := [hiByte w, loByte w]

def counterBytes (c : SatCounter) : List Byte := wordBytes c.value ++ [flagCode c.mark]

/-- The counters in the order of R157. -/
def readingBytes (c : CounterReading) : List Byte :=
  counterBytes c.good ++ counterBytes c.discarded ++ counterBytes c.refused ++ wordBytes c.corrected
    ++ wordBytes c.missed
    ++ c.boundaries.flatMap (fun b => wordBytes b.good ++ wordBytes b.discarded ++ wordBytes b.silence)
    ++ counterBytes c.aou.emergencyRelease ++ counterBytes c.aou.sectionReset ++ counterBytes c.aou.suspectClear
    ++ counterBytes c.aou.authForce ++ counterBytes c.aou.boundaryRelease ++ counterBytes c.aou.coldStart

/-- The data of a reply after its result byte; none for a route definition, whose layout the spec does not give. -/
def replyData : ReplyBody → Option (List Byte)
  | .acceptedRoute i r => some (byte i :: twoBytes r)
  | .refused (.unavailable e) => some [byte e]
  | .acceptedCounters c => some (readingBytes c)
  | .acceptedDefinition _ => none
  | _ => some []

/-- The frame of a reply: the request's sequence number, kind 80 and the body. -/
def replyFrame (seq : Word16) (b : ReplyBody) : Option (List Byte) :=
  (replyData b).map fun d => frame 0xC3 (wordBytes seq ++ [0x80, resultByte b] ++ d)

/-- The object class of an indication and the object number. 11.3.1 lists the classes and gives neither their codes nor a
number for a class of one object: the model counts the classes from 0 in the order of the list, and gives part status, the
store and the pending auxiliary operation the number 0 (PRESUMED, log entry 14). -/
def objBytes : Obj → List Byte
  | .partStatus => [0, 0]
  | .area a => [1, byte a]
  | .element e => [2, byte e]
  | .inst i => [3, byte i]
  | .boundary b => [4, byte b]
  | .store => [5, 0]
  | .aux => [6, 0]

/-- The start of an indication's frame content: its number, kind 81, the object. The fields that follow are those of
IndBody in its order; the spec gives no width for them. -/
def indicationHead (number : Word16) (o : Obj) : List Byte := wordBytes number ++ [0x81] ++ objBytes o

/-- The bytes of what was sent, for a part with a station code; none where the spec gives no layout. -/
def Sent.bytes (station : Word16) : Sent → Option (List Byte)
  | .reply _ seq b => replyFrame seq b
  | .indication .. => none
  | .boundary _ t => some (boundaryFrame station t)
  | .track a t => some (trackFrame a t)
  | .counters _ => none

end Sys2Proof.Machine
end

