-- ==== Sys2Proof/Machine/Trackside.lean ====
section
/-! DEFINITION. The Trackside Bus Controller's steps: rounds, exchanges and reachability (R22 to R28), and the timers
of point drives and signal commands (R33, R37). -/

namespace Sys2Proof.Machine

/-! ### Section changes of one step (R55, R121) -/

/-- One section change handed to the LKC, with the RIM taking its notices before the next where the order says so. -/
def handOver1 (changes : List (Nat × Occ)) (s : State) (p : Nat × Bool) : State :=
  match changes.find? fun c => c.1 == p.1 with
  | some c =>
    let s : State := s.sectionChange c.1 c.2
    if p.2 then s.settle else s
  | none => s

/-- The section changes of one step handed to the LKC: those the order names in turn, then the others (R55). -/
def State.handChanges (s : State) (order : Schedule) (changes : List (Nat × Occ)) : State :=
  let s : State := order.foldl (handOver1 changes) s
  (changes.filter fun c => !order.any fun p => p.1 == c.1).foldl (fun s c => s.sectionChange c.1 c.2) s

/-! ### The bus (R22, R23, R26) -/

def State.putUnit (s : State) (u : UnitRow) : State :=
  s.modTbc fun t => { t with units := t.units.map fun x => if x.address == u.address then u else x }

/-- Insertion of an address into an ascending list. -/
def insertAddress (a : Nat) : List Nat → List Nat
  | [] => [a]
  | b :: l => if a ≤ b then a :: b :: l else b :: insertAddress a l

/-- The unit addresses in ascending order (R23). -/
def State.pollOrder (s : State) : List Nat := (s.tbc.units.map UnitRow.address).foldr insertAddress []

/-- The POLL of the next unit of the round; after the last the round ends and raises round-complete (R23, R51). -/
def State.nextPoll (s : State) (order : Schedule) : State :=
  match s.tbc.round with
  | some (a :: rest) =>
    (s.modTbc fun t => { t with exchange := some (.poll a), round := some rest }).send (.track a .poll)
  | some [] =>
    let r := (s.modTbc fun t => { t with round := none }).roundComplete
    r.1.handChanges order r.2
  | none => s

/-- ROUND_START (R23, R24), when 200 ms have passed since the start of the round before: ALL-STOP where it is due, then
the first POLL. -/
def State.startRound (s : State) : State :=
  if s.tbc.exchange.isSome || s.tbc.round.isSome || s.tbc.spacing != .running 0 then s
  else
    let s : State := s.modTbc fun t => { t with spacing := .running Config.roundSpacing }
    match s.cfl.load with
    | .loading => s
    | .configFault _ => s.send (.track 255 .allStop)
    | .operating =>
      let s : State :=
        if s.tbc.allStopDue then (s.modTbc fun t => { t with allStopDue := false }).send (.track 255 .allStop) else s
      (s.modTbc fun t => { t with round := some s.pollOrder }).nextPoll []

/-- ROUND_START (R23). -/
def execRoundStart (s : State) : Host.Outcome State Fault Refusal := .next (State.finish s s.startRound)

/-- COMMAND_EXCHANGE_START (R26): between rounds, with the bus free and the next round not yet due. -/
def State.betweenRounds (s : State) : State :=
  if s.cfl.load = .operating ∧ s.tbc.exchange = none ∧ s.tbc.round = none ∧ s.tbc.spacing ≠ .running 0 then
    s.startCommand
  else s

def execCommandExchangeStart (s : State) : Host.Outcome State Fault Refusal := .next (State.finish s s.betweenRounds)

/-! ### Reachability (R28) -/

/-- A unit becomes UNREACHABLE: the effects by kind (R28). -/
def State.unitLost (s : State) (order : Schedule) (u : UnitRow) : State :=
  match u.kind with
  | .ch =>
    let r := s.chUnreachable u.serves
    r.1.handChanges order r.2
  | .pdu => (s.dequeue u.address).pduUnreachable u.serves
  | .sdu => (s.setCmdMisses u.address 0).sduUnreachable u.serves

/-- A missed exchange (R28): the counts, and the unit UNREACHABLE at three. -/
def State.missed (s : State) (order : Schedule) (a : Nat) : State :=
  let s : State := s.modTbc fun t => { t with missed := satInc t.missed }
  match s.unitAt a with
  | none => s
  | some u =>
    let n := min 3 (u.misses + 1)
    if n = 3 ∧ u.reachable = true then (s.putUnit { u with misses := n, reachable := false }).unitLost order u
    else s.putUnit { u with misses := n }

/-- Whether an answer to a POLL is of the form the unit's kind calls for (R22). -/
def pollForm : UnitKind → AnswerBody → Bool
  | .ch, .reportCh .. => true
  | .pdu, .reportPdu .. => true
  | .sdu, .reportSdu .. => true
  | _, _ => false

/-- Whether an answer to a THROW or SHOW is an ACK or REJECT (R22). -/
def commandForm : AnswerBody → Bool
  | .ack => true
  | .reject _ => true
  | _ => false

/-- The report that bytes answering a POLL of a unit carry: its own address, a right check, its kind's layout (R22, R190);
none where the exchange is missed. -/
def pollAnswer (u : UnitRow) (bytes : List Byte) : Option AnswerBody :=
  (readAnswer u.kind u.address bytes).filter (pollForm u.kind)

/-- The ACK or REJECT that bytes answering a command to a unit carry (R22, R190); none where the exchange is missed. -/
def commandAnswer (u : UnitRow) (bytes : List Byte) : Option AnswerBody :=
  (readAnswer u.kind u.address bytes).filter commandForm

/-- The report of a good POLL handed on (R23, R46 to R49). A CH report goes to the detection point its unit serves; the
counting head a point's record names is read by the image checks alone (log entry 41). -/
def State.handReport (s : State) (order : Schedule) (u : UnitRow) : AnswerBody → State
  | .reportCh a b f =>
    let r := s.chReport u.serves u.misses a b f
    r.1.handChanges order r.2
  | .reportPdu d f => s.pduReport u.serves d f
  | .reportSdu a f => s.sduReport u.serves a f
  | _ => s

/-- A good POLL (R23, R28): the unit's count 0, its report handed on, then the change of reachability acted on. -/
def State.goodPoll (s : State) (order : Schedule) (u : UnitRow) (body : AnswerBody) : State :=
  let s : State := s.putUnit { u with misses := 0, reachable := true }
  let s : State := s.handReport order u body
  if !u.reachable && u.kind == .pdu then s.resumeDrive u.serves else s

/-- The bus goes on after a POLL (R26): one command exchange if one is sendable and a poll is still to come or the
round ends here, else the next POLL. -/
def State.afterPoll (s : State) (order : Schedule) : State :=
  match s.tbc.round with
  | some (_ :: _) =>
    match s.arbiter with
    | some _ => s.startCommand
    | none => s.nextPoll order
  | _ => s.nextPoll order

/-- The bus goes on after a command exchange (R26): in a round with the next POLL. -/
def State.afterCommand (s : State) (order : Schedule) : State :=
  match s.tbc.round with
  | some _ => s.nextPoll order
  | none => s

def State.freeBus (s : State) : State := s.modTbc fun t => { t with exchange := none }

/-- A POLL exchange ends, with its bytes or without an answer (R22, R23). The arbiter picks before the RIM takes the
notices of the report, so a SHOW(STOP) they cause waits for the next opportunity (log entry 39). -/
def State.pollEnds (s : State) (a : Nat) (answer : Option (List Byte)) (order : Schedule) : State :=
  let s : State := s.freeBus
  let good := (s.unitAt a).bind fun u => (answer.bind (pollAnswer u)).map fun body => (u, body)
  let s : State := match good with
    | some (u, body) => s.goodPoll order u body
    | none => s.missed order a
  s.afterPoll order

/-! ### The end of a command exchange (R27) -/

/-- *acknowledged* or *failed* handed to the LKC for the command of a unit (R32, R34, R37, R39). The reason is absent
for an ACK; the inner reason is absent for NO_ANSWER. -/
def State.commandAnswered (s : State) (u : UnitRow) (t : TrackTelegram) (failed : Option (Option RejectReason)) : State :=
  match t, failed with
  | .throwTo _, none => s.throwAcked u.serves
  | .throwTo _, some r => s.throwFailed u.serves r
  | .showAs .stop, none => s.stopAnswered u.serves
  | .showAs .stop, some _ => s.stopFailed u.serves
  | .showAs .proceed, none => s
  | .showAs .proceed, some _ => s.showProceedFailed u.serves
  | _, _ => s

/-- Whether the command of the exchange is the one still queued for its unit: not withdrawn, not replaced (R25). -/
def State.stillQueued (s : State) (a age : Nat) : Option QueuedCmd := (s.queuedAt a).filter fun q => q.age == age

/-- A good answer to a command (R27): it leaves the queue and the LKC is told. An answer to a command withdrawn or
replaced is discarded; that of a SHOW(STOP) still ends its outstanding mark (R25, R39). -/
def State.goodCommand (s : State) (u : UnitRow) (t : TrackTelegram) (age : Nat) (failed : Option (Option RejectReason)) :
    State :=
  let s : State := s.putUnit { u with misses := 0 }
  match s.stillQueued u.address age with
  | some _ => (s.dequeue u.address).commandAnswered u t failed
  | none => if t == .showAs .stop then s.stopAnswered u.serves else s

/-- A missed command exchange (R27, R28). Where the command was replaced while in flight, the miss counts on the unit alone:
a SHOW(STOP) so replaced keeps its outstanding mark, since nothing answered it (the model's choice, log entry 16). -/
def State.missedCommand (s : State) (order : Schedule) (a age : Nat) (t : TrackTelegram) : State :=
  match s.unitAt a with
  | none => s
  | some u =>
    let lost := u.reachable && decide (3 ≤ u.misses + 1)
    let s : State := s.missed order a
    if lost then s
    else
      match s.stillQueued a age with
      | none => s
      | some q =>
        if q.misses + 1 ≥ 3 then (s.dequeue a).commandAnswered u t (some none)
        else s.setCmdMisses a (q.misses + 1)

/-- The reason a good answer hands on: absent for an ACK (R27). -/
def rejectOf : AnswerBody → Option (Option RejectReason)
  | .reject r => some (some r)
  | _ => none

/-- A command exchange ends, with its bytes or without an answer (R27). -/
def State.commandEnds (s : State) (a : Nat) (t : TrackTelegram) (age : Nat) (answer : Option (List Byte))
    (order : Schedule) : State :=
  let s : State := s.freeBus
  let good := (s.unitAt a).bind fun u => (answer.bind (commandAnswer u)).map fun body => (u, body)
  let s : State := match good with
    | some (u, body) => s.goodCommand u t age (rejectOf body)
    | none => s.missedCommand order a age t
  s.afterCommand order

/-- POLL_EXCHANGE_END (R23): an answer ends a POLL exchange. -/
def execPollExchangeEnd (x : List Byte) (order : Schedule) (s : State) : Host.Outcome State Fault Refusal :=
  .next (State.finish s (match s.tbc.exchange with
    | some (.poll a) => s.pollEnds a (some x) order
    | _ => s))

/-- COMMAND_EXCHANGE_END (R27): an answer ends a command exchange. -/
def execCommandExchangeEnd (x : List Byte) (s : State) : Host.Outcome State Fault Refusal :=
  .next (State.finish s (match s.tbc.exchange with
    | some (.command a t age) => s.commandEnds a t age (some x) []
    | _ => s))

/-- EXCHANGE_ANSWER_TIMEOUT (R22): no answer arrives, and the exchange is missed. -/
def execExchangeAnswerTimeout (order : Schedule) (s : State) : Host.Outcome State Fault Refusal :=
  .next (State.finish s (match s.tbc.exchange with
    | some (.poll a) => s.pollEnds a none order
    | some (.command a t age) => s.commandEnds a t age none order
    | none => s))

/-- SUPERVISION_TIMER_EXPIRY (R33): of an ACTIVE drive. -/
def execSupervisionTimerExpiry (e : Nat) (s : State) : Host.Outcome State Fault Refusal :=
  .next (State.finish s (match s.drive e with
    | some d => if d.state == .active && d.timer.isRunning then s.attemptEnds e d else s
    | none => s))

/-- CONFIRMATION_TIMER_EXPIRY (R37). -/
def execConfirmationTimerExpiry (e : Nat) (s : State) : Host.Outcome State Fault Refusal :=
  .next (State.finish s (if (s.cmd e).awaiting.isRunning then s.proceedFails e else s))

end Sys2Proof.Machine
end

