-- ==== Sys2Proof/Machine/Dispatch.lean ====
section
/-! DEFINITION. The dispatch: one arm per row of spec/opcode_table.json. -/

namespace Sys2Proof.Machine

def exec (i : Instr) (s : State) : Host.Outcome State Fault Refusal :=
  match i with
  | .coldStart => Sys2Proof.Machine.execColdStart s
  | .loadComplete img counters => Sys2Proof.Machine.execLoadComplete img counters s
  | .counterWriteComplete readBack => Sys2Proof.Machine.execCounterWriteComplete readBack s
  | .scrubCheck found => Sys2Proof.Machine.execScrubCheck found s
  | .roundStart => Sys2Proof.Machine.execRoundStart s
  | .commandExchangeStart => Sys2Proof.Machine.execCommandExchangeStart s
  | .pollExchangeEnd frame order => Sys2Proof.Machine.execPollExchangeEnd frame order s
  | .commandExchangeEnd frame => Sys2Proof.Machine.execCommandExchangeEnd frame s
  | .exchangeAnswerTimeout order => Sys2Proof.Machine.execExchangeAnswerTimeout order s
  | .supervisionTimerExpiry point => Sys2Proof.Machine.execSupervisionTimerExpiry point s
  | .confirmationTimerExpiry signal => Sys2Proof.Machine.execConfirmationTimerExpiry signal s
  | .operatorTelegramArrival link frame => Sys2Proof.Machine.execOperatorTelegramArrival link frame s
  | .unknownRequestKind link => Sys2Proof.Machine.execUnknownRequestKind link s
  | .replyTransmit link => Sys2Proof.Machine.execReplyTransmit link s
  | .sendIndication link => Sys2Proof.Machine.execSendIndication link s
  | .setRoute link => Sys2Proof.Machine.execSetRoute link s
  | .press link => Sys2Proof.Machine.execPress link s
  | .selectionTimerExpiry link => Sys2Proof.Machine.execSelectionTimerExpiry link s
  | .cancelRoute link => Sys2Proof.Machine.execCancelRoute link s
  | .reClear link => Sys2Proof.Machine.execReClear link s
  | .storeCancel link => Sys2Proof.Machine.execStoreCancel link s
  | .stopArea link => Sys2Proof.Machine.execStopArea link s
  | .pointThrow link => Sys2Proof.Machine.execPointThrow link s
  | .pointReset link => Sys2Proof.Machine.execPointReset link s
  | .signalReset link => Sys2Proof.Machine.execSignalReset link s
  | .block link => Sys2Proof.Machine.execBlock link s
  | .unblock link => Sys2Proof.Machine.execUnblock link s
  | .boundaryOpen link => Sys2Proof.Machine.execBoundaryOpen link s
  | .boundaryClose link => Sys2Proof.Machine.execBoundaryClose link s
  | .dirRequest link => Sys2Proof.Machine.execDirRequest link s
  | .auxIssue link => Sys2Proof.Machine.execAuxIssue link s
  | .auxConfirm link => Sys2Proof.Machine.execAuxConfirm link s
  | .auxWindowExpiry link => Sys2Proof.Machine.execAuxWindowExpiry link s
  | .authTake link => Sys2Proof.Machine.execAuthTake link s
  | .authOffer link => Sys2Proof.Machine.execAuthOffer link s
  | .authReturn link => Sys2Proof.Machine.execAuthReturn link s
  | .offerTimerExpiry area => Sys2Proof.Machine.execOfferTimerExpiry area s
  | .forceTimerExpiry area => Sys2Proof.Machine.execForceTimerExpiry area s
  | .readRoute link => Sys2Proof.Machine.execReadRoute link s
  | .readCounters link => Sys2Proof.Machine.execReadCounters link s
  | .snapshot link => Sys2Proof.Machine.execSnapshot link s
  | .settingTimerExpiry inst => Sys2Proof.Machine.execSettingTimerExpiry inst s
  | .overlapTimerExpiry inst => Sys2Proof.Machine.execOverlapTimerExpiry inst s
  | .approachTimerExpiry inst => Sys2Proof.Machine.execApproachTimerExpiry inst s
  | .emergencyTimerExpiry inst => Sys2Proof.Machine.execEmergencyTimerExpiry inst s
  | .retestRequest => Sys2Proof.Machine.execRetestRequest s
  | .lifetimeTimerExpiry route => Sys2Proof.Machine.execLifetimeTimerExpiry route s
  | .incomingAcceptanceRequest => Sys2Proof.Machine.execIncomingAcceptanceRequest s
  | .statusTimerExpiry b => Sys2Proof.Machine.execStatusTimerExpiry b s
  | .boundaryFrameDiscarded b frame => Sys2Proof.Machine.execBoundaryFrameDiscarded b frame s
  | .operatorRequestOnBoundary b kind => Sys2Proof.Machine.execOperatorRequestOnBoundary b kind s
  | .statusReceived b body => Sys2Proof.Machine.execStatusReceived b body s
  | .holdingsReceived b body => Sys2Proof.Machine.execHoldingsReceived b body s
  | .silenceTimerExpiry b => Sys2Proof.Machine.execSilenceTimerExpiry b s
  | .holdingsResponseTimerExpiry b => Sys2Proof.Machine.execHoldingsResponseTimerExpiry b s
  | .dirAskReceived b => Sys2Proof.Machine.execDirAskReceived b s
  | .dirGiveReceived b => Sys2Proof.Machine.execDirGiveReceived b s
  | .dirRefuseReceived b => Sys2Proof.Machine.execDirRefuseReceived b s
  | .dirResponseTimerExpiry b => Sys2Proof.Machine.execDirResponseTimerExpiry b s
  | .acceptAskReceived b ref => Sys2Proof.Machine.execAcceptAskReceived b ref s
  | .acceptGiveReceived b ref => Sys2Proof.Machine.execAcceptGiveReceived b ref s
  | .acceptRefuseReceived b ref reason => Sys2Proof.Machine.execAcceptRefuseReceived b ref reason s
  | .acceptResponseTimerExpiry b inst => Sys2Proof.Machine.execAcceptResponseTimerExpiry b inst s
  | .acceptWithdrawReceived b ref => Sys2Proof.Machine.execAcceptWithdrawReceived b ref s
  | .trainHandedReceived b ref => Sys2Proof.Machine.execTrainHandedReceived b ref s
  | .acceptEndReceived b ref => Sys2Proof.Machine.execAcceptEndReceived b ref s
  | .flankAskReceived b ref => Sys2Proof.Machine.execFlankAskReceived b ref s
  | .flankGiveReceived b ref => Sys2Proof.Machine.execFlankGiveReceived b ref s
  | .flankRefuseReceived b ref => Sys2Proof.Machine.execFlankRefuseReceived b ref s
  | .flankDropReceived b ref => Sys2Proof.Machine.execFlankDropReceived b ref s
  | .flankResponseTimerExpiry b inst item => Sys2Proof.Machine.execFlankResponseTimerExpiry b inst item s
  | .releaseTimerExpiry b => Sys2Proof.Machine.execReleaseTimerExpiry b s

end Sys2Proof.Machine
end

