-- ==== Sys2Proof/Machine/Time.lean ====
section
/-! DEFINITION. The passing of time: what one step on an empty queue does. -/

namespace Sys2Proof.Machine

def tickDrive (d : Drive) : Drive := { d with timer := d.timer.tick }

def tickInst (r : Inst) : Inst :=
  { r with setting := r.setting.tick, approach := r.approach.tick, overlapTimer := r.overlapTimer.tick
           emergency := r.emergency.tick }

def tickSel (v : Selection) : Selection := { v with timer := v.timer.tick }

def tickEntry (e : StoreEntry) : StoreEntry := { e with lifetime := e.lifetime.tick }

def tickArea (a : Area) : Area := { a with offer := a.offer.tick, force := a.force.tick }

def tickOlc (c : Olc) : Olc := { c with aux := c.aux.map fun a => { a with window := a.window.tick } }

def tickBlc (r : Blc) : Blc :=
  { r with
    changeTimer := r.changeTimer.tick
    outAsks := r.outAsks.map fun a => { a with timer := a.timer.tick }
    assurances := r.assurances.map fun a => { a with timer := a.timer.tick }
    release := r.release.tick
    statusTimer := r.statusTimer.tick
    silenceTimer := r.silenceTimer.tick
    holdingsTimer := r.holdingsTimer.tick }

/-- 100 ms in which no command is taken: every running timer of the part falls by one step, down to 0
(00_scope section 4.2). -/
def State.tick (s : State) : State :=
  { s with
    lkc := { s.lkc with
      drives := s.lkc.drives.map (fun o => o.map tickDrive)
      cmds := s.lkc.cmds.map fun c => { c with awaiting := c.awaiting.tick } }
    tbc := { s.tbc with spacing := s.tbc.spacing.tick }
    rim := { s.rim with
      insts := s.rim.insts.map (fun o => o.map tickInst)
      sel := ⟨s.rim.sel.olC.map tickSel, s.rim.sel.olL.map tickSel⟩ }
    rqs := { s.rqs with store := s.rqs.store.map tickEntry }
    aum := s.aum.map tickArea
    olc := ⟨tickOlc s.olc.olC, tickOlc s.olc.olL⟩
    blc := s.blc.map tickBlc }

end Sys2Proof.Machine
end

