-- ==== Sys2Proof/Safety.lean ====
section
/-! DEFINITION. The vocabulary of the statements: a link ready to take a request, what the taking of notices leaves
as it was, and the invariants of the part. -/

namespace Sys2Proof.Machine

/-- A step that answers a next state, neither a fault nor a refusal. -/
def Continues (s : State) : Prop := ∃ t, step s = .next t

/-! ### What the taking of notices leaves as it was -/

/-- An element as the field and the configuration show it: without locks, slots, flank reference, FAILED flag,
commanded aspect and next position. -/
def Element.seen : Element → Element
  | .unconfigured => .unconfigured
  | .point p => .point { p with failed := false, next := none, lock := .empty, flankRef := none }
  | .signal g =>
    .signal { g with commanded := .stop, failed := false, entrySlot := .empty, exitSlot := .empty, flankRef := none }
  | .track t => .track { t with lock := .empty }
  | .boundary b => .boundary { b with entrySlot := .empty, exitSlot := .empty }

/-- A boundary record without what it holds for route instances: its lists, held-back telegrams and LOST_HOLDINGS. -/
def Blc.line (r : Blc) : Blc :=
  { r with outAsks := [], outgoing := [], inAsks := [], incoming := [], assurances := [], heldBack := []
           lostHoldings := false }

/-- A store entry without the marks of the retest pass. -/
def StoreEntry.unmarked (e : StoreEntry) : StoreEntry := { e with passMark := false, presented := false }

/-- An OLC without its pending set, part status records and the `broken` mark of its pending operation. -/
def Olc.desk (c : Olc) : Olc :=
  { c with marks := [], failure := none, overrun := none
           aux := c.aux.map (fun (a : PendingAux) => { a with broken := false }) }

/-- The part without what the RIM, the LKC and the BLCs write as notices and reports are taken (R80). -/
structure Desk where
  cfl : Cfl
  elements : Vector Element 256
  scrub : Nat
  corrected : Word16
  units : List UnitRow
  exchange : Option Exchange
  round : Option (List Nat)
  spacing : Timer
  allStopDue : Bool
  missed : Word16
  ace : Ace
  rcat : List RouteDef
  sel : PerLink (Option Selection)
  store : List StoreEntry
  removal : PerLink (Option Removal)
  aum : Vector Area 16
  aou : Aou
  olC : Olc
  olL : Olc
  lines : Vector Blc 4
  pending : List Instr
  deriving DecidableEq, Repr

def State.desk (s : State) : Desk where
  cfl := s.cfl
  elements := s.lkc.elements.map Element.seen
  scrub := s.lkc.scrub
  corrected := s.lkc.corrected
  units := s.tbc.units
  exchange := s.tbc.exchange
  round := s.tbc.round
  spacing := s.tbc.spacing
  allStopDue := s.tbc.allStopDue
  missed := s.tbc.missed
  ace := s.ace
  rcat := s.rcat
  sel := s.rim.sel
  store := s.rqs.store.map StoreEntry.unmarked
  removal := s.rqs.removal
  aum := s.aum
  aou := s.aou
  olC := s.olc.olC.desk
  olL := s.olc.olL.desk
  lines := s.blc.map Blc.line
  pending := s.pending

/-! ### A link ready to take a request -/

/-- An OPERATING part with no notice waiting, and a link whose oldest telegram, with sequence number q, is the request:
no reply waits for its transmitter and no answer is held back (R155). -/
abbrev State.Ready (s : State) (l : OpLink) (q : Word16) (r : Request) : Prop :=
  s.cfl.load = .operating ∧ s.notices = [] ∧ (s.olc.get l).reply = none ∧ (s.olc.get l).held = none
    ∧ (s.olc.get l).waiting.head? = some ⟨q, r⟩

/-- The state with the oldest telegram of a link taken. -/
def State.taken (s : State) (l : OpLink) : State := s.modOlc l fun c => { c with waiting := c.waiting.tail }

/-- The 23 rows that take a telegram: their link, and the requests each takes. -/
def rowTakes : Instr → Option (OpLink × (Request → Bool))
  | .unknownRequestKind l => some (l, Request.isUnknown)
  | .setRoute l => some (l, Request.isKind 1)
  | .press l => some (l, Request.isKind 2)
  | .cancelRoute l => some (l, Request.isKind 3)
  | .reClear l => some (l, Request.isKind 4)
  | .storeCancel l => some (l, Request.isKind 5)
  | .stopArea l => some (l, Request.isKind 6)
  | .pointThrow l => some (l, Request.isKind 7)
  | .pointReset l => some (l, Request.isKind 8)
  | .signalReset l => some (l, Request.isKind 9)
  | .block l => some (l, Request.isKind 10)
  | .unblock l => some (l, Request.isKind 11)
  | .boundaryOpen l => some (l, Request.isKind 12)
  | .boundaryClose l => some (l, Request.isKind 13)
  | .dirRequest l => some (l, Request.isKind 14)
  | .auxIssue l => some (l, Request.isKind 15)
  | .auxConfirm l => some (l, Request.isKind 16)
  | .authTake l => some (l, Request.isKind 17)
  | .authOffer l => some (l, Request.isKind 18)
  | .authReturn l => some (l, Request.isKind 19)
  | .readRoute l => some (l, Request.isKind 20)
  | .readCounters l => some (l, Request.isKind 21)
  | .snapshot l => some (l, Request.isKind 22)
  | _ => none

/-- The 16 rows that receive a telegram on a boundary link (section 11.3.2): the link, and whether every field lies in its
range (R190). -/
def telegramRow : Instr → Option (BLink × Bool)
  | .operatorRequestOnBoundary b k => some (b, decide (1 ≤ k.toNat) && decide (k.toNat ≤ 22))
  | .statusReceived b body => some (b, body.wellFormed)
  | .holdingsReceived b body => some (b, body.wellFormed)
  | .dirAskReceived b => some (b, true)
  | .dirGiveReceived b => some (b, true)
  | .dirRefuseReceived b => some (b, true)
  | .acceptAskReceived b ref => some (b, refOk ref)
  | .acceptGiveReceived b ref => some (b, refOk ref)
  | .acceptRefuseReceived b ref _ => some (b, refOk ref)
  | .acceptWithdrawReceived b ref => some (b, refOk ref)
  | .trainHandedReceived b ref => some (b, refOk ref)
  | .acceptEndReceived b ref => some (b, refOk ref)
  | .flankAskReceived b ref => some (b, refOk ref)
  | .flankGiveReceived b ref => some (b, refOk ref)
  | .flankRefuseReceived b ref => some (b, refOk ref)
  | .flankDropReceived b ref => some (b, refOk ref)
  | _ => none

/-- A boundary link in UP that serves, with no notice waiting (R165, R185). -/
abbrev State.Up (s : State) (b : BLink) : Prop :=
  s.cfl.load = .operating ∧ s.notices = [] ∧ (s.blcAt b).used = true ∧ (s.blcAt b).link = .up

/-! ### Releases -/

/-- What a release notice leaves of the RQS by the state of its pass (R138, R139): the rerun flag, nothing with an empty
store, else a pass that presents the oldest entry to the RIM. -/
def State.Triggered (s t : State) : Prop :=
  (s.rqs.running = true → t.rqs = { s.rqs with rerun := true })
    ∧ (s.rqs.running = false → s.rqs.store = [] → t.rqs = s.rqs)
    ∧ ∀ y rest, s.rqs.running = false → s.rqs.store = y :: rest →
      t.rqs.running = true ∧ t.rim.requests = s.rim.requests ++ [.retest y.route]

/-- An instance holds the section or a point of an item. -/
def State.HoldsItem (s : State) (i : Nat) (it : PathItem) : Prop :=
  (∃ x role, s.track? it.sect = some x ∧ x.lock = .held i role)
    ∨ ∃ p ∈ it.points, ∃ x role q, s.point? p.point = some x ∧ x.lock = .held i role q

/-- Some entry of the Flank Claim Table has claimants, and each satisfies a condition. -/
def State.SoleClaims (s : State) (p : Claimant → Prop) : Prop :=
  ∃ n f, s.fctEntry n = some f ∧ f.claimants ≠ [] ∧ ∀ c ∈ f.claimants, p c

/-! ### Invariants -/

/-- An area record as R148 allows it: an offer only while the area has a holder, FORCING only while it is CENTRE. -/
abbrev Area.legal (r : Area) : Prop :=
  (r.holder = .none → r.offer = .stopped) ∧ (r.force ≠ .stopped → r.holder = .centre)

def State.AreasLegal (s : State) : Prop := ∀ a : Fin 16, (s.areaRec a).legal

/-- No more than 4 telegrams wait at a link (R155). -/
def State.WaitingBounded (s : State) : Prop := ∀ l, (s.olc.get l).waiting.length ≤ 4

/-- No link has more than 8 store entries, and no route number stands in the list twice (R136). -/
def State.StoreLegal (s : State) : Prop :=
  (∀ l, (s.rqs.store.filter fun e => e.link == l).length ≤ 8) ∧ (s.rqs.store.map StoreEntry.route).Nodup

/-- A section count record as R44 bounds it and the rows of R50, R52, R53, R57 and R58 leave it, under a tolerance. -/
abbrev SectCount.legal (tolerance : Nat) (c : SectCount) : Prop :=
  -(tolerance : Int) ≤ c.count ∧ c.count ≤ 1023 ∧ c.deficitAge ≤ 1 ∧ (c.count < 0 ↔ c.deficitAge = 1)
    ∧ (c.cause.isSome ↔ c.state = .disturbed) ∧ (c.state = .disturbed → c.count = 0)
    ∧ (c.state = .clear → c.count = 0) ∧ (c.state = .clear ∨ c.state = .resetPending → c.saturated = false)

/-- The tolerance is at most 4, so that no count is below -4 (R44); before the image is loaded there is no section. -/
def State.SectionsLegal (s : State) : Prop :=
  s.cfl.tolerance ≤ 4 ∧ (s.cfl.load = .loading → ∀ e, s.count e = none)
    ∧ ∀ e c, s.count e = some c → c.legal s.cfl.tolerance

/-- The check word of every element record is the one computed when the record was last written (R2). -/
def State.ChecksRight (s : State) : Prop := ∀ e : Fin 256, s.check e = Config.checkWordOf e (s.elem e)

/-- No unit has more than one queued command (R25). -/
def State.QueueSingle (s : State) : Prop := (s.tbc.queue.map QueuedCmd.address).Nodup

/-- Whether a route request is an incoming acceptance request of a link. -/
def RouteRequest.isIncoming (b : BLink) : RouteRequest → Bool
  | .incoming b' _ _ => b' == b
  | _ => false

/-- The incoming acceptance requests of a link that wait in the RIM (R78). -/
def incomingOf (b : BLink) (l : List RouteRequest) : Nat := (l.filter (RouteRequest.isIncoming b)).length

/-- The outgoing acceptance list and the awaiting outgoing asks hold at most 1 entry together; so do the incoming
acceptance list and the pending incoming asks, an ask that waits in the RIM counted (R165, log entry 11). -/
def State.AcceptancesSingle (s : State) : Prop :=
  ∀ b, (s.blcAt b).outgoing.length + (s.blcAt b).outAsks.length ≤ 1
    ∧ (s.blcAt b).incoming.length + (s.blcAt b).inAsks.length + incomingOf b s.rim.requests ≤ 1

/-- A link in DOWN has nothing received and nothing held back, and neither its silence timer nor its HOLDINGS timer
runs (R168). -/
def State.DownEmpty (s : State) : Prop :=
  ∀ b, (s.blcAt b).link = .down →
    (s.blcAt b).outgoing = [] ∧ (s.blcAt b).outAsks = [] ∧ (s.blcAt b).assurances = [] ∧ (s.blcAt b).heldBack = []
      ∧ (s.blcAt b).neighbourClear = false ∧ (s.blcAt b).silenceTimer = .stopped
      ∧ (s.blcAt b).holdingsTimer = .stopped ∧ (s.blcAt b).change = .idle

/-- No object stands twice in a pending indication set (R158). -/
def State.MarksLegal (s : State) : Prop := ∀ l, (s.olc.get l).marks.Nodup

/-! ### Locks (R3) -/

/-- The slots an element can have (R3). -/
inductive SlotKind | point | track | entry | exit
  deriving DecidableEq, Repr

/-- What a slot of an element holds: its owner, without role and position; a slot the element does not have is empty. -/
def Element.slot : SlotKind → Element → Slot
  | .point, .point p =>
    match p.lock with
    | .empty => .empty
    | .held i _ _ => .held i
    | .unknown => .unknown
  | .track, .track t =>
    match t.lock with
    | .empty => .empty
    | .held i _ => .held i
    | .unknown => .unknown
  | .entry, .signal g => g.entrySlot
  | .entry, .boundary b => b.entrySlot
  | .exit, .signal g => g.exitSlot
  | .exit, .boundary b => b.exitSlot
  | _, _ => .empty

/-- Whether a path item or overlap has a slot of an element. -/
def hasSlot (it : PathItem) : SlotKind → Nat → Prop
  | .point, e => e ∈ it.points.map PointReq.point
  | .track, e => it.sect = e
  | _, _ => False

/-- Whether an instance lists a slot in an item not released yet: its entry, its exit, an open path item, or its overlap
where that still counts. -/
def Inst.keeps (r : Inst) (d : RouteDef) (overlapCounts : Prop) : SlotKind → Nat → Prop
  | .entry, e => d.entry = e ∧ r.unreleased 1 = true
  | .exit, e => d.exit = e ∧ r.pathReleased = false
  | k, e => (∃ it ∈ r.openItems d, hasSlot it k e) ∨ (overlapCounts ∧ r.overlapHeld = true ∧ ∃ it ∈ d.overlap, hasSlot it k e)

/-- Every slot is empty, or held by an instance under which `live` stands with the slot among its items, or UNKNOWN on a
SUSPECT element. The overlap of an instance in `gone` does not count. -/
def State.Owned (s : State) (gone : Nat → Prop) (live : Nat → Option (Inst × RouteDef)) : Prop :=
  (∀ k e i, (s.elem e).slot k = .held i → ∃ r d, live i = some (r, d) ∧ r.keeps d (¬ gone i) k e)
    ∧ ∀ k e, (s.elem e).slot k = .unknown → (s.elem e).isSuspect = true

/-- An instance whose OVERLAP_TRANSFERRED notice waits. -/
def State.Transferring (s : State) (i : Nat) : Prop := .overlapTransferred i ∈ s.notices

/-- Each lock's owner is a live route instance that lists the slot in an item not released yet, or the UNKNOWN owner on
a SUSPECT element (R3); no OVERLAP_TRANSFERRED notice waits between steps; the catalogue has one definition for each
number, and none before it is loaded. -/
def State.LocksLegal (s : State) : Prop :=
  s.Owned (fun _ => False) s.live ∧ (∀ i, ¬ s.Transferring i) ∧ (s.rcat.map RouteDef.number).Nodup
    ∧ (s.cfl.load = .loading → s.rcat = [])

end Sys2Proof.Machine
end

