-- ==== Sys2Proof/Certificates/Slice0/Obligations.lean ====
section
/-! DEFINITION. The statements for the provers, one definition each. -/

open Sys2Proof Sys2Proof.Machine

/-! ### The machine -/

/-- A step with a command at the front of the queue is that command's meaning on the state with the queue's rest. -/
def Obligations.StepRunsTheFrontCommand : Prop :=
  ∀ (c : Instr) (rest : List Instr) (s : State), s.pending = c :: rest → step s = exec c { s with pending := rest }

/-- On an empty queue 100 ms pass (the model's choice, log entry 2): a running timer falls by one step and stays
running, a stopped or frozen one stays. The timers are written out record by record: a drive, a signal command, an
instance, a selection, a store entry, an area, a pending operation, a boundary link, the spacing of rounds; nothing but
timers changes. -/
def Obligations.IdleStepIsTime : Prop :=
  ∀ s : State, s.pending = [] → ∃ t, step s = .next t
    ∧ (∀ n, Timer.tick (.running n) = .running (n - 1)) ∧ Timer.tick .stopped = .stopped
    ∧ (∀ n, Timer.tick (.frozen n) = .frozen n)
    ∧ t.tbc = { s.tbc with spacing := s.tbc.spacing.tick }
    ∧ (∀ e, t.drive e = (s.drive e).map fun d => { d with timer := d.timer.tick })
    ∧ (∀ e, t.cmd e = { s.cmd e with awaiting := (s.cmd e).awaiting.tick })
    ∧ (∀ i, t.inst i = (s.inst i).map fun r => { r with
        setting := r.setting.tick, approach := r.approach.tick, overlapTimer := r.overlapTimer.tick
        emergency := r.emergency.tick })
    ∧ (∀ l, t.rim.sel.get l = (s.rim.sel.get l).map fun v => { v with timer := v.timer.tick })
    ∧ t.rqs = { s.rqs with store := s.rqs.store.map fun (y : StoreEntry) => { y with lifetime := y.lifetime.tick } }
    ∧ (∀ a, t.areaRec a = { s.areaRec a with offer := (s.areaRec a).offer.tick, force := (s.areaRec a).force.tick })
    ∧ (∀ l, t.olc.get l = { s.olc.get l with
        aux := (s.olc.get l).aux.map fun (p : PendingAux) => { p with window := p.window.tick } })
    ∧ (∀ b, t.blcAt b = { s.blcAt b with
        changeTimer := (s.blcAt b).changeTimer.tick, release := (s.blcAt b).release.tick
        outAsks := (s.blcAt b).outAsks.map fun (a : OutAsk) => { a with timer := a.timer.tick }
        assurances := (s.blcAt b).assurances.map fun (a : Assurance) => { a with timer := a.timer.tick }
        statusTimer := (s.blcAt b).statusTimer.tick, silenceTimer := (s.blcAt b).silenceTimer.tick
        holdingsTimer := (s.blcAt b).holdingsTimer.tick })
    ∧ t = { s with lkc := { s.lkc with drives := t.lkc.drives, cmds := t.lkc.cmds }, tbc := t.tbc
                   rim := { s.rim with insts := t.rim.insts, sel := t.rim.sel }, rqs := t.rqs, aum := t.aum
                   olc := t.olc, blc := t.blc }

/-- Every command, in every state, answers a next state: neither a fault nor a refusal. Where a command's event cannot
occur in a state, that it answers a next state, and which, is the model's choice (log entry 1). -/
def Obligations.EveryCommandContinues : Prop :=
  (∀ (c : Instr) (s : State), ∃ t, exec c s = .next t) ∧ ∀ s : State, Continues s

/-- What the cold start leaves: LOADING, nothing configured, no unit, no detection point, no instance, an empty
store, every area without holder, empty links with every object pending, boundary links DOWN. COLD_START puts every
block into its cold-start state. What has gone out, and the commands that wait, are outside the part and stay (the
model's choice, log entry 27). -/
def Obligations.ResetIsTheColdStart : Prop :=
  (State.reset.cfl.load = .loading ∧ (∀ e, State.reset.elem e = .unconfigured) ∧ (∀ n, State.reset.fctEntry n = none)
      ∧ (∀ e, State.reset.drive e = none) ∧ State.reset.tbc.units = [] ∧ State.reset.tbc.queue = []
      ∧ State.reset.tbc.missed = 0 ∧ State.reset.lkc.scrub = 0 ∧ State.reset.lkc.corrected = 0
      ∧ (∀ d, State.reset.dp d = none) ∧ (∀ e, State.reset.count e = none) ∧ State.reset.rcat = []
      ∧ (∀ i, State.reset.inst i = none) ∧ (∀ l, State.reset.rim.sel.get l = none) ∧ State.reset.rqs.store = []
      ∧ State.reset.rqs.running = false ∧ State.reset.rqs.rerun = false
      ∧ (∀ a, State.reset.areaRec a = ⟨.none, .stopped, .stopped⟩)
      ∧ (∀ l, State.reset.olc.get l = Olc.cold (snapshotObjects [])) ∧ (∀ b, State.reset.blcAt b = Blc.cold)
      ∧ Blc.cold.link = .down ∧ Blc.cold.isOpen = false ∧ State.reset.pending = [])
  ∧ (∀ s : State, exec .coldStart s = .next { State.reset with out := s.out, pending := s.pending })

/-! ### Loading and the counter area -/

/-- LOAD_COMPLETE with an image every check passes: the part is OPERATING with the clamped values, every block holds its
configured content (elements with their check words, units, detection points, sections, catalogue, boundary records with
their status timers), every section is DISTURBED, the cold-start counter is counted and written, and each pending set
holds every object. What an entry becomes is written out: an element's fields by its kind, with retries to 3 and
supervision time from 20 to 200; a section DISTURBED with count 0 and cause START; a detection point FAILED with cause
START without last counts; a unit REACHABLE without misses, in ascending address order; a route with its times from 100
to 3000, 900 and 600 by default. A value clamped with a default takes the default for 0, the nearer end outside its
range, and stays inside it. Of two entries with one number the first stands (the model's choice, log entry 25); a link
without an entry in the boundary block stays as it was (the model's choice, log entry 51), and one with an entry takes
its used mark from that block, while the boundary element takes the element block's (the model's choice, log entry 50).
-/
def Obligations.LoadFillsEveryBlock : Prop :=
  (∀ (m : Image) (k : Option AouCounters) (s : State), s.cfl.load = .loading → imageFault m = none →
    ∃ t, exec (.loadComplete m k) s = .next t
      ∧ t.cfl.load = .operating ∧ t.cfl.stationCode = m.stationCode
      ∧ t.cfl.settingTime = clampOr 200 50 600 m.settingTime ∧ t.cfl.tolerance = min m.tolerance 4
      ∧ t.cfl.stackLifetime = clampOr 1200 100 6000 m.stackLifetime
      ∧ (∀ x, m.elements.find? (fun y => y.number == x.number) = some x → t.elem x.number = elementOf x)
      ∧ (∀ e, m.elements.all (fun x => x.number != e) = true → t.elem e = s.elem e)
      ∧ (∀ x, m.sections.find? (fun y => y.sect == x.sect) = some x → t.count x.sect = some (sectOf x))
      ∧ (∀ d, m.dps.find? (fun y => y.number == d.number) = some d → t.dp d.number = some (dpOf d))
      ∧ (∀ u, u ∈ t.tbc.units ↔ u ∈ m.units.map unitOfCfg) ∧ t.tbc.units.Pairwise (fun u v => u.address ≤ v.address)
      ∧ t.tbc.spacing = .running 0 ∧ t.ChecksRight ∧ t.rcat = firstOfEach (m.routes.map clampRoute)
      ∧ (∀ n, t.routeDef n = (m.routes.map clampRoute).find? fun d => d.number == n)
      ∧ (∀ c, m.boundaries.find? (fun y => y.link == c.link) = some c → t.blcAt c.link = { s.blcAt c.link with
          used := c.used, senior := c.senior, lineSections := c.lineSections, outRefs := c.outRefs, offers := c.offers
          neighbour := c.neighbour, statusTimer := if c.used then .running 5 else .stopped })
      ∧ (∀ b, m.boundaries.all (fun y => y.link != b) = true → t.blcAt b = s.blcAt b)
      ∧ (∀ l, (t.olc.get l).marks = snapshotObjects t.configured)
      ∧ t.aou.counters = { k.getD AouCounters.zero with coldStart := incCounter (k.getD AouCounters.zero).coldStart }
      ∧ t.aou.areaFault = k.isNone ∧ t.aou.storeFault = false ∧ t.cfl.writing = true
      ∧ (s.cfl.writing = false → t.cfl.counterImage = t.aou.counters ∧ t.out = s.out ++ [.counters t.aou.counters])
      ∧ (∀ l, (t.olc.get l).desk = (s.olc.get l).desk)
      ∧ t = { s with cfl := t.cfl, lkc := { s.lkc with elements := t.lkc.elements, checks := t.lkc.checks }
                     tbc := { s.tbc with units := t.tbc.units, spacing := t.tbc.spacing }
                     ace := t.ace, rcat := t.rcat, aou := t.aou, olc := t.olc, blc := t.blc, out := t.out })
  ∧ (∀ x : ElemCfg,
      (∀ c retries supervision, x.kind = .point c retries supervision → elementOf x = .point {
          area := x.area, containing := c, retries := min retries 3, supervision := max 20 (min 200 supervision)
          detection := .unknown, localMode := false, failed := false, next := none, lock := .empty, flankRef := none
          block := false, suspect := false })
      ∧ (x.kind = .signal → elementOf x = .signal {
          area := x.area, shown := .unknown, commanded := .stop, lampFault := false, failed := false, entrySlot := .empty
          exitSlot := .empty, flankRef := none, block := false, suspect := false })
      ∧ (x.kind = .track → elementOf x = .track {
          area := x.area, occupancy := .disturbed, lock := .empty, block := false, suspect := false })
      ∧ ∀ b used, x.kind = .boundary b used → elementOf x = .boundary {
          area := x.area, link := b, unused := !used, entrySlot := .empty, exitSlot := .empty, suspect := false })
  ∧ (∀ x : SectCfg, sectOf x = { points := x.points, count := 0, state := .disturbed, cause := some .start
                                 deficitAge := 0, sweep := false, saturated := false })
  ∧ (∀ d : DpCfg, dpOf d = { head := d.head, borders := d.borders, boundaryMark := d.boundaryMark
                             state := .failed .start, last := none, pendingA := 0, pendingB := 0 })
  ∧ (∀ u : UnitCfg, unitOfCfg u = { address := u.address, kind := u.kind, serves := u.serves, reachable := true
                                    misses := 0 })
  ∧ (∀ d : RouteDef, clampRoute d = { d with approachTime := clampOr 900 100 3000 d.approachTime
                                             overlapTime := clampOr 600 100 3000 d.overlapTime })
  ∧ ∀ deflt lo hi : Nat, lo ≤ deflt → deflt ≤ hi → clampOr deflt lo hi 0 = deflt ∧ ∀ v, 0 < v →
      (v < lo → clampOr deflt lo hi v = lo) ∧ (lo ≤ v → v ≤ hi → clampOr deflt lo hi v = v)
        ∧ (hi < v → clampOr deflt lo hi v = hi)

/-- LOAD_COMPLETE with an image some check fails: CONFIG_FAULT with the first failing check's code, nothing configured,
part status alone pending; the counters are loaded and counted all the same. Every code is spelt out, each only where
the earlier checks pass: 1 to 3 by the header, 4 by the limits and number ranges, 5 by the references, the addresses and
the rank-1 variants, 6 by the kinds and structural rules, 7 by the duplicates of the catalogue. A range or rule that the
table does not name one by one is by inference, and of two entries with one number a count looks at the first (the
model's choice, log entry 25). When the part is not LOADING the row changes nothing (log entry 1). In CONFIG_FAULT the
boundary records stand at their cold-start values (R165); none was loaded, so no link is used and no status timer runs
(log entry 19). -/
def Obligations.LoadFaultsByTheFirstCheck : Prop :=
  (∀ (m : Image) (k : Option AouCounters) (s : State) (code : Nat), s.cfl.load = .loading → imageFault m = some code →
    ∃ t, exec (.loadComplete m k) s = .next t
      ∧ t.cfl.load = .configFault code ∧ (∀ b, t.blcAt b = Blc.cold) ∧ (∀ l, (t.olc.get l).marks = [.partStatus])
      ∧ t.aou.counters = { k.getD AouCounters.zero with coldStart := incCounter (k.getD AouCounters.zero).coldStart }
      ∧ t.aou.areaFault = k.isNone ∧ t.cfl.writing = true
      ∧ (∀ l, (t.olc.get l).desk = (s.olc.get l).desk)
      ∧ t = { s with cfl := t.cfl, tbc := { s.tbc with spacing := .running 0 }, aou := t.aou, olc := t.olc, blc := t.blc
                     out := t.out })
  ∧ (∀ m : Image, imageFault m = some 1 ↔ (m.readable = false ∨ m.reachesCounters = true))
  ∧ (∀ m : Image, imageFault m = some 2 ↔ (m.readable = true ∧ m.reachesCounters = false ∧ m.checkAgrees = false))
  ∧ (∀ m : Image, imageFault m = some 3 ↔
      (m.readable = true ∧ m.reachesCounters = false ∧ m.checkAgrees = true ∧ m.formatVersion ≠ 2))
  ∧ (∀ m : Image, m.readable = true → m.reachesCounters = false → m.checkAgrees = true → m.formatVersion = 2 →
      (imageFault m = some 4 ↔ limitsOk m = false)
      ∧ (imageFault m = some 5 ↔ limitsOk m = true ∧ referencesOk m = false)
      ∧ (imageFault m = some 6 ↔ limitsOk m = true ∧ referencesOk m = true ∧ kindsOk m = false)
      ∧ (imageFault m = some 7 ↔ limitsOk m = true ∧ referencesOk m = true ∧ kindsOk m = true ∧ catalogueOk m = false)
      ∧ (imageFault m = none ↔ limitsOk m = true ∧ referencesOk m = true ∧ kindsOk m = true ∧ catalogueOk m = true))
  ∧ (∀ (m : Image) (code : Nat), imageFault m = some code → 1 ≤ code ∧ code ≤ 7)
  -- the elements and detection points an image configures, what a flank item and a definition name
  ∧ (∀ (m : Image) (e : Nat), (hasElem m e = true ↔ ∃ x ∈ m.elements, x.number = e)
      ∧ (hasDp m e = true ↔ ∃ y ∈ m.dps, y.number = e)
      ∧ (∀ p, hasKind m p e = true ↔ ∃ x, m.elements.find? (fun y => y.number == e) = some x ∧ p x.kind = true)
      ∧ (∀ x, x ∈ standingElems m ↔ m.elements.find? (fun y => y.number == x.number) = some x)
      ∧ ((standingElems m).map ElemCfg.number).Nodup
      ∧ (∀ d, d ∈ firstOf DpCfg.number m.dps ↔ m.dps.find? (fun y => y.number == d.number) = some d)
      ∧ ((firstOf DpCfg.number m.dps).map DpCfg.number).Nodup
      ∧ (∀ d, d ∈ firstOfEach m.routes ↔ m.routes.find? (fun y => y.number == d.number) = some d)
      ∧ (∀ p, countKind m p = ((standingElems m).filter fun x => p x.kind).length)
      ∧ ∀ k, countUnits m k = (m.units.filter fun u => u.kind == k).length)
  ∧ (∀ k : ElemCfgKind, (isPoint k = true ↔ ∃ c r v, k = .point c r v) ∧ (isSignal k = true ↔ k = .signal)
      ∧ (isTrack k = true ↔ k = .track) ∧ (isBoundary k = true ↔ ∃ b u, k = .boundary b u))
  ∧ (∀ f : FlankItem, (∀ t, f.primary = .claim t → flankTargets f = t :: f.subs)
      ∧ ∀ b r, f.primary = .boundary b r → flankTargets f = f.subs)
  ∧ (∀ d : RouteDef, routeElements d = [d.entry, d.exit] ++ (d.path ++ d.overlap.toList).map PathItem.sect
      ++ (d.path ++ d.overlap.toList).flatMap fun it => it.points.map PointReq.point)
  -- code 4
  ∧ (∀ m : Image, limitsOk m = true ↔
      (countKind m isPoint ≤ 64 ∧ countKind m isSignal ≤ 64 ∧ countKind m isTrack ≤ 96 ∧ countKind m isBoundary = 4
          ∧ (firstOf DpCfg.number m.dps).length ≤ 120
          ∧ countUnits m .ch ≤ 120 ∧ countUnits m .pdu ≤ 64 ∧ countUnits m .sdu ≤ 64)
        ∧ (∀ x ∈ m.elements, x.number ≤ 255 ∧ x.area ≤ 15
            ∧ ∀ c r v, x.kind = .point c r v → 1 ≤ c.length ∧ c.length ≤ 2 ∧ ∀ e ∈ c, e ≤ 255)
        ∧ (∀ u ∈ m.units, 1 ≤ u.address ∧ u.address ≤ 254 ∧ if u.kind = .ch then u.serves < 120 else u.serves ≤ 255)
        ∧ (∀ d ∈ m.dps, d.number < 120 ∧ 1 ≤ d.head ∧ d.head ≤ 254 ∧ ∀ p ∈ d.borders, p.1 ≤ 255)
        ∧ (∀ x ∈ m.sections, x.sect ≤ 255 ∧ ∀ p ∈ x.points, p.1 < 120)
        ∧ (∀ d ∈ m.routes, d.number ≤ 511 ∧ 1 ≤ d.rank ∧ d.rank ≤ 4 ∧ 1 ≤ d.path.length ∧ d.path.length ≤ 12
            ∧ (∀ it ∈ d.path, it.points.length ≤ 3) ∧ (∀ it, d.overlap = some it → it.points.length ≤ 2)
            ∧ d.flank.length ≤ 8 ∧ d.approach.length ≤ 3 ∧ (∀ r, d.inRef = some r → r < 16)
            ∧ (∀ f ∈ d.flank, f.subs.length ≤ 2 ∧ (∀ b r, f.primary = .boundary b r → r < 16)
                ∧ ∀ t ∈ flankTargets f, FlankTarget.elem t ≤ 255)
            ∧ ∀ e ∈ routeElements d ++ d.approach, e ≤ 255)
        ∧ ∀ b ∈ m.boundaries, b.lineSections.length ≤ 4 ∧ b.offers.length ≤ 16 ∧ (∀ e ∈ b.lineSections, e ≤ 255)
            ∧ (∀ p ∈ b.outRefs, p.1 ≤ 511 ∧ p.2 < 16) ∧ ∀ p ∈ b.offers, p.1 < 16 ∧ FlankTarget.elem p.2 ≤ 255)
  -- code 5
  ∧ (∀ m : Image, referencesOk m = true ↔
      (∀ x ∈ m.elements, ∀ c r v, x.kind = .point c r v → ∀ e ∈ c, hasElem m e = true)
        ∧ (∀ u ∈ m.units, if u.kind = .ch then hasDp m u.serves = true else hasElem m u.serves = true)
        ∧ (m.units.map UnitCfg.address).Nodup
        ∧ (∀ d ∈ m.dps, (∃ u ∈ m.units, u.address = d.head) ∧ ∀ p ∈ d.borders, hasElem m p.1 = true)
        ∧ (∀ x ∈ m.sections, hasElem m x.sect = true ∧ ∀ p ∈ x.points, hasDp m p.1 = true)
        ∧ (∀ d ∈ m.routes, (∀ e ∈ routeElements d ++ d.approach, hasElem m e = true)
            ∧ ∀ f ∈ d.flank, ∀ t ∈ flankTargets f, hasElem m (FlankTarget.elem t) = true)
        ∧ (∀ b ∈ m.boundaries, (∀ e ∈ b.lineSections, hasElem m e = true)
            ∧ ∀ p ∈ b.offers, hasElem m (FlankTarget.elem p.2) = true)
        ∧ ∀ d ∈ firstOfEach m.routes, d.cls ≠ .boundaryIn → ∃ x ∈ firstOfEach m.routes,
            x.entry = d.entry ∧ x.exit = d.exit ∧ x.cls ≠ .boundaryIn ∧ x.rank = 1)
  -- code 6
  ∧ (∀ m : Image, kindsOk m = true ↔
      (∀ x ∈ m.elements, (∀ c r v, x.kind = .point c r v → ∀ e ∈ c, hasKind m isTrack e = true)
          ∧ (x.kind = .track → ∃ y ∈ m.sections, y.sect = x.number))
        ∧ (∀ u ∈ m.units, (u.kind = .pdu → hasKind m isPoint u.serves = true)
            ∧ (u.kind = .sdu → hasKind m isSignal u.serves = true))
        ∧ (∀ d ∈ m.dps, (∃ u ∈ m.units, u.address = d.head ∧ u.kind = .ch)
            ∧ (∀ p ∈ d.borders, hasKind m isTrack p.1 = true)
            ∧ ((∃ a, d.borders = [a] ∧ d.boundaryMark = true)
                ∨ ∃ a b, d.borders = [a, b] ∧ d.boundaryMark = false ∧ a.2 ≠ b.2))
        ∧ (∀ x ∈ m.sections, hasKind m isTrack x.sect = true ∧ 2 ≤ x.points.length ∧ x.points.length ≤ 4)
        ∧ (∀ d ∈ m.routes, routeOk m d = true)
        ∧ (∀ x ∈ standingElems m, ∀ y ∈ standingElems m, ∀ b u v, x.kind = .boundary b u → y.kind = .boundary b v → x = y)
        ∧ ∀ b ∈ m.boundaries, (∀ e ∈ b.lineSections, hasKind m isTrack e = true)
            ∧ ∀ p ∈ b.offers, targetOk m p.2 = true)
  ∧ (∀ (m : Image) (d : RouteDef), routeOk m d = true ↔
      (if d.cls = .boundaryIn then hasKind m isBoundary d.entry = true else hasKind m isSignal d.entry = true)
        ∧ (if d.cls = .boundaryOut then hasKind m isBoundary d.exit = true else hasKind m isSignal d.exit = true)
        ∧ (∀ it ∈ d.path ++ d.overlap.toList, hasKind m isTrack it.sect = true
            ∧ ∀ p ∈ it.points, hasKind m isPoint p.point = true ∧ ∃ x c r v,
                m.elements.find? (fun y => y.number == p.point) = some x ∧ x.kind = .point c r v ∧ it.sect ∈ c)
        ∧ (routeElements d).Nodup
        ∧ (∀ e ∈ d.approach, hasKind m isTrack e = true ∧ ∀ it ∈ d.path ++ d.overlap.toList, it.sect ≠ e)
        ∧ (d.overlap ≠ none → d.cls = .main)
        ∧ (d.cls = .boundaryOut → ∃ x b u c, m.elements.find? (fun y => y.number == d.exit) = some x
            ∧ x.kind = .boundary b u ∧ m.boundaries.find? (fun y => y.link == b) = some c
            ∧ ∃ p ∈ c.outRefs, p.1 = d.number)
        ∧ (d.inRef ≠ none ↔ d.cls = .boundaryIn) ∧ (d.cls = .boundaryIn → d.approach = [])
        ∧ ∀ f ∈ d.flank, 1 ≤ f.protects ∧ f.protects ≤ d.path.length
            ∧ ∀ t ∈ flankTargets f, targetOk m t = true ∧ FlankTarget.elem t ∉ routeElements d)
  ∧ (∀ (m : Image) (t : FlankTarget), targetOk m t = true ↔
      (∀ e q, t = .point e q → hasKind m isPoint e = true) ∧ ∀ e, t = .signal e → hasKind m isSignal e = true)
  -- code 7
  ∧ (∀ m : Image, catalogueOk m = true ↔
      (m.routes.map fun d => (d.entry, d.exit, d.rank)).Nodup ∧ (∀ d ∈ m.routes, d.cls = .boundaryIn → d.rank = 1)
        ∧ ((m.routes.filter fun d => d.cls == .boundaryIn).map fun d => (d.entry, d.inRef)).Nodup)
  ∧ ∀ (m : Image) (k : Option AouCounters) (s : State), s.cfl.load ≠ .loading → exec (.loadComplete m k) s = .next s

/-- COUNTER_WRITE_COMPLETE: a record read back that equals the record written clears COUNTER_STORE_FAULT, another or
none sets it; the counters stay, and a change made in flight brings one further write with the counters as they stand.
With no write in flight it changes nothing (the model's choice, log entry 1). -/
def Obligations.CounterWriteEnds : Prop :=
  ∀ (back : Option AouCounters) (ok : Bool) (s : State), s.notices = [] →
    (ok = true ↔ back = some s.cfl.counterImage) →
    (s.cfl.writing = false → exec (.counterWriteComplete back) s = .next s)
    ∧ (s.cfl.writing = true → ∃ t, exec (.counterWriteComplete back) s = .next t
        ∧ t.aou = { s.aou with storeFault := !ok }
        ∧ (s.cfl.writeAgain = false → t.cfl = { s.cfl with writing := false } ∧ t.out = s.out)
        ∧ (s.cfl.writeAgain = true →
            t.cfl = { s.cfl with counterImage := s.aou.counters, writeAgain := false }
              ∧ t.out = s.out ++ [.counters s.aou.counters])
        ∧ (∀ l, (t.olc.get l).desk = (s.olc.get l).desk)
        ∧ (s.aou.storeFault = !ok → t.olc = s.olc)
        ∧ (s.aou.storeFault = ok → ∀ l, .partStatus ∈ (t.olc.get l).marks)
        ∧ t = { s with cfl := t.cfl, aou := t.aou, olc := t.olc, out := t.out })

/-- SCRUB_CHECK completes in every state. While OPERATING the pointer advances by one, from 255 to 0. A correct record
and one already SUSPECT change nothing; a correctable error, or one in an unconfigured record, is counted in CORRECTED
and the record written back with its check word. Any other record is rebuilt by its kind: SUSPECT, BLOCK set, every lock
slot with the UNKNOWN owner, the flank reference that of the entry naming it, no next position; a point with detection
UNKNOWN and its flags clear; a signal with its aspect UNKNOWN, STOP commanded and SHOW(STOP) queued, FAILED at once
where no unit serves it (R21 and R39; in the same step, log entry 31); a section with the state the axle counter holds;
and the RIM is told. While not OPERATING it changes nothing (section 1.9; by inference, log entry 34). Every step keeps
every check word the one of its record. -/
def Obligations.ScrubChecksTheRecordAtThePointer : Prop :=
  (∀ (x : ScrubResult) (s : State), ∃ t, exec (.scrubCheck x) s = .next t
      ∧ (s.cfl.load = .operating → t.lkc.scrub = (s.lkc.scrub + 1) % 256))
  ∧ (∀ (x : ScrubResult) (s : State), s.notices = [] → s.cfl.load ≠ .operating → exec (.scrubCheck x) s = .next s)
  ∧ (∀ (x : ScrubResult) (s : State), s.notices = [] → s.cfl.load = .operating →
    (x = .correct ∨ (x = .uncorrectable ∧ (s.elem s.lkc.scrub).isSuspect = true) →
      exec (.scrubCheck x) s = .next { s with lkc := { s.lkc with scrub := (s.lkc.scrub + 1) % 256 } })
    ∧ (x = .correctable ∨ (x = .uncorrectable ∧ s.elem s.lkc.scrub = .unconfigured) →
      exec (.scrubCheck x) s = .next { s with lkc := { s.lkc with
        scrub := (s.lkc.scrub + 1) % 256, corrected := satInc s.lkc.corrected
        checks := s.lkc.checks.setIfInBounds s.lkc.scrub (Config.checkWordOf s.lkc.scrub (s.elem s.lkc.scrub)) } })
    ∧ (x = .uncorrectable → s.elem s.lkc.scrub ≠ .unconfigured → (s.elem s.lkc.scrub).isSuspect = false →
      let k := s.lkc.scrub
      let r := s.rebuildSuspect k
      exec (.scrubCheck x) s = .next (State.finish s { r with lkc := { r.lkc with scrub := (k + 1) % 256 } })
        ∧ (∀ p, s.point? k = some p → r.point? k = some { p with
            detection := .unknown, localMode := false, failed := false, next := none, lock := .unknown
            flankRef := s.entryNaming k, block := true, suspect := true })
        ∧ (∀ g, s.signal? k = some g → r.signal? k = some { g with
              shown := .unknown, commanded := .stop, lampFault := false, failed := (s.unitOf .sdu k).isNone
              entrySlot := .unknown, exitSlot := .unknown, flankRef := s.entryNaming k, block := true, suspect := true }
            ∧ (r.cmd k).awaiting = .stopped
            ∧ ∀ u, s.unitOf .sdu k = some u → (r.cmd k).stopOutstanding = true
                ∧ r.queuedAt u.address = some ⟨u.address, .showAs .stop, s.tbc.nextAge, 0⟩)
        ∧ (∀ y, s.track? k = some y → r.track? k = some { y with
            occupancy := s.aceState k, lock := .unknown, block := true, suspect := true })
        ∧ (∀ b, s.boundary? k = some b →
            r.boundary? k = some { b with entrySlot := .unknown, exitSlot := .unknown, suspect := true })
        ∧ (∀ e, e ≠ k → r.elem e = s.elem e) ∧ .suspect k ∈ r.notices
        ∧ (∀ n, s.entryNaming k = some n → ∃ f, s.fctEntry n = some f ∧ f.element = k)
        ∧ (s.entryNaming k = none → ∀ n f, s.fctEntry n = some f → f.element ≠ k))
    ∧ (x = .uncorrectable → s.elem s.lkc.scrub ≠ .unconfigured → (s.elem s.lkc.scrub).isSuspect = false →
      ∃ t, exec (.scrubCheck x) s = .next t ∧ t.lkc.scrub = (s.lkc.scrub + 1) % 256
        ∧ t.lkc.corrected = s.lkc.corrected ∧ (t.elem s.lkc.scrub).isSuspect = true
        ∧ (t.elem s.lkc.scrub).block? = (s.elem s.lkc.scrub).block?.map (fun _ => true)
        ∧ (t.elem s.lkc.scrub).area? = (s.elem s.lkc.scrub).area?
        ∧ (∀ e, e ≠ s.lkc.scrub → (t.elem e).seen = (s.elem e).seen)
        ∧ t.desk = { s.desk with elements := t.desk.elements, scrub := t.lkc.scrub }))
  ∧ ∀ s t : State, s.ChecksRight → step s = .next t → t.ChecksRight

/-! ### The trackside bus -/

/-- ROUND_START with the bus free and a round due: the next round is due 200 ms later, ALL-STOP goes first where it is
due, and the first POLL goes to the lowest address; in CONFIG_FAULT ALL-STOP alone goes out. A round without a unit ends
as it starts (the model's choice, log entry 18). With the bus in use, or before 200 ms have passed, it changes nothing
(the model's choice, log entry 1). Poll order is ascending address order, each row once. -/
def Obligations.RoundStartPollsInAddressOrder : Prop :=
  (∀ (s : State) (a : Nat) (rest : List Nat), s.notices = [] → s.cfl.load = .operating → s.tbc.exchange = none →
    s.tbc.round = none → s.tbc.spacing = .running 0 → s.pollOrder = a :: rest →
    exec .roundStart s = .next { s with
      tbc := { s.tbc with spacing := .running 2, allStopDue := false, round := some rest, exchange := some (.poll a) }
      out := s.out ++ (if s.tbc.allStopDue then [.track 255 .allStop] else []) ++ [.track a .poll] })
  ∧ (∀ s : State, s.notices = [] → s.cfl.load = .operating → s.tbc.exchange = none →
    s.tbc.round = none → s.tbc.spacing = .running 0 → s.tbc.units = [] →
    ∃ t, exec .roundStart s = .next t ∧ t.tbc.round = none ∧ t.tbc.exchange = none ∧ t.tbc.spacing = .running 2)
  ∧ (∀ (s : State) (code : Nat), s.notices = [] → s.cfl.load = .configFault code → s.tbc.exchange = none →
    s.tbc.round = none → s.tbc.spacing = .running 0 →
    exec .roundStart s =
      .next { s with tbc := { s.tbc with spacing := .running 2 }, out := s.out ++ [.track 255 .allStop] })
  ∧ (∀ s : State, s.notices = [] →
    (s.tbc.exchange ≠ none ∨ s.tbc.round ≠ none ∨ s.tbc.spacing ≠ .running 0) → exec .roundStart s = .next s)
  ∧ ∀ s : State, s.pollOrder.Pairwise (· ≤ ·) ∧ s.pollOrder.Perm (s.tbc.units.map UnitRow.address)

/-- COMMAND_EXCHANGE_START between rounds sends the arbiter's pick and leaves it queued: among the commands of REACHABLE
units every SHOW(STOP) comes before every other, and of one class the oldest first. With nothing sendable, or not
between rounds, it changes nothing (the model's choice, log entry 1); the time between rounds ends as the spacing
reaches 0 (log entry 35). -/
def Obligations.TheArbiterPicksStopFirstThenOldest : Prop :=
  (∀ (s : State) (q : QueuedCmd), s.notices = [] → s.cfl.load = .operating → s.tbc.exchange = none →
    s.tbc.round = none → s.tbc.spacing ≠ .running 0 → s.arbiter = some q →
    exec .commandExchangeStart s = .next { s with
      tbc := { s.tbc with exchange := some (.command q.address q.telegram q.age) }
      out := s.out ++ [.track q.address q.telegram] })
  ∧ (∀ s : State, s.notices = [] →
    (s.cfl.load ≠ .operating ∨ s.tbc.exchange ≠ none ∨ s.tbc.round ≠ none ∨ s.tbc.spacing = .running 0
      ∨ s.arbiter = none) → exec .commandExchangeStart s = .next s)
  ∧ (∀ (s : State) (q : QueuedCmd), s.arbiter = some q → q ∈ s.sendable
      ∧ (q.telegram = .showAs .stop ∨ ∀ p ∈ s.sendable, p.telegram ≠ .showAs .stop)
      ∧ ∀ p ∈ s.sendable, (p.telegram = .showAs .stop ↔ q.telegram = .showAs .stop) → q.age ≤ p.age)
  ∧ (∀ s : State, s.arbiter = none ↔ s.sendable = [])
  ∧ ∀ (s : State) (q : QueuedCmd), q ∈ s.sendable ↔
      (q ∈ s.tbc.queue ∧ ((s.unitAt q.address).map UnitRow.reachable).getD false = true)

/-- A missed exchange, by timeout or by bytes that are no good answer, counts once on the unit and once on the bus; at
three the unit becomes UNREACHABLE, its point's detection or signal's aspect UNKNOWN, its detection point FAILED. A miss
acts on the command only while that one is still queued, by its age stamp (by inference, log entry 16); else only the
counts change. A missed command stays queued with its age stamp at its first and second miss; its third takes it off the
queue and is *failed*, NO_ANSWER: the attempt of a drive ends, a PROCEED that awaits confirmation is unsuccessful, a
STOP makes the signal FAILED. The miss that takes the unit out of reach hands no *failed* on: a THROW leaves the queue
and an ACTIVE drive is PAUSED with its attempts and its timer; a SHOW stays with miss count 0, and a signal commanded
PROCEED is commanded STOP. A timeout with no exchange changes nothing (the model's choice, log entry 1). -/
def Obligations.AMissedExchangeCounts : Prop :=
  (∀ (s : State) (u : UnitRow) (a age : Nat) (tel : TrackTelegram) (x : List Byte) (order : Schedule) (c : Instr),
    s.unitAt a = some u →
    (s.tbc.exchange = some (.poll a)
        ∧ (c = .exchangeAnswerTimeout order ∨ (c = .pollExchangeEnd x order ∧ pollAnswer u x = none)))
      ∨ (s.tbc.exchange = some (.command a tel age)
        ∧ (c = .exchangeAnswerTimeout order ∨ (c = .commandExchangeEnd x ∧ commandAnswer u x = none))) →
    ∃ t, exec c s = .next t ∧ t.tbc.missed = satInc s.tbc.missed
      ∧ t.tbc.units = s.tbc.units.map (fun v => if v.address == u.address then
          { u with misses := min 3 (u.misses + 1), reachable := u.reachable && decide (u.misses + 1 < 3) } else v)
      ∧ (3 ≤ u.misses + 1 → u.reachable = true →
          (u.kind = .pdu → ∀ p, s.point? u.serves = some p → ∃ p', t.point? u.serves = some p' ∧ p'.detection = .unknown)
          ∧ (u.kind = .sdu → ∀ g, s.signal? u.serves = some g → ∃ g', t.signal? u.serves = some g' ∧ g'.shown = .unknown)
          ∧ (u.kind = .ch → ∀ r, s.dp u.serves = some r → r.state = .normal →
              ∃ r', t.dp u.serves = some r' ∧ r'.state = .failed .noAnswer)))
  ∧ (∀ (s : State) (u : UnitRow) (a age : Nat) (tel : TrackTelegram) (x : List Byte) (order : Schedule) (c : Instr),
    s.tbc.exchange = some (.command a tel age) → s.unitAt a = some u →
    (c = .exchangeAnswerTimeout order ∨ (c = .commandExchangeEnd x ∧ commandAnswer u x = none ∧ order = [])) →
    exec c s = .next (State.finish s ((s.freeBus.missedCommand order a age tel).afterCommand order)))
  ∧ (∀ (s : State) (u : UnitRow) (a age : Nat) (tel : TrackTelegram) (order : Schedule), s.unitAt a = some u →
    (u.misses + 1 < 3 ∨ u.reachable = false →
      (s.missed order a).tbc.queue = s.tbc.queue ∧ s.missed order a = { s with tbc := (s.missed order a).tbc }
      ∧ (s.stillQueued a age = none → s.missedCommand order a age tel = s.missed order a)
      ∧ ∀ q, s.stillQueued a age = some q →
        (q.misses + 1 < 3 → (s.missedCommand order a age tel).tbc.queue =
            s.tbc.queue.map (fun p => if p.address == a then { p with misses := q.misses + 1 } else p)
          ∧ s.missedCommand order a age tel = { s with tbc := (s.missedCommand order a age tel).tbc })
        ∧ (3 ≤ q.misses + 1 →
          s.missedCommand order a age tel = ((s.missed order a).dequeue a).commandAnswered u tel (some none)))
    ∧ (3 ≤ u.misses + 1 → u.reachable = true →
      s.missedCommand order a age tel = s.missed order a
      ∧ (u.kind = .pdu → (s.missed order a).queuedAt a = none
        ∧ ∀ p d, s.point? u.serves = some p → s.drive u.serves = some d → d.state = .active →
          (s.missed order a).drive u.serves = some { d with state := .paused, timer := d.timer.freeze })
      ∧ (u.kind = .sdu → ∀ g, s.signal? u.serves = some g →
        (g.commanded = .stop → (s.missed order a).tbc.queue =
          s.tbc.queue.map (fun p => if p.address == a then { p with misses := 0 } else p))
        ∧ (g.commanded = .proceed → s.unitOf .sdu u.serves = some u →
          (s.missed order a).signal? u.serves = some { g with shown := .unknown, commanded := .stop }
          ∧ (s.missed order a).queuedAt a = some ⟨a, .showAs .stop, s.tbc.nextAge, 0⟩
          ∧ (s.missed order a).cmd u.serves = ⟨.stopped, true⟩
          ∧ ∀ i, g.entrySlot = .held i → .signalNotCleared i u.serves ∈ (s.missed order a).notices))))
  ∧ (∀ (s : State) (u : UnitRow),
    (∀ pos d, s.drive u.serves = some d → s.commandAnswered u (.throwTo pos) (some none) = s.attemptEnds u.serves d)
    ∧ (∀ pos, s.drive u.serves = none → s.commandAnswered u (.throwTo pos) (some none) = s)
    ∧ ((s.cmd u.serves).awaiting.isRunning = true →
        s.commandAnswered u (.showAs .proceed) (some none) = s.proceedFails u.serves)
    ∧ ((s.cmd u.serves).awaiting.isRunning = false → s.commandAnswered u (.showAs .proceed) (some none) = s)
    ∧ ∀ g v, s.signal? u.serves = some g → s.unitOf .sdu u.serves = some v → s.queuedAt v.address = none →
        (s.commandAnswered u (.showAs .stop) (some none)).signal? u.serves = some { g with failed := true }
        ∧ ((s.commandAnswered u (.showAs .stop) (some none)).cmd u.serves).stopOutstanding = false)
  ∧ ∀ (s : State) (order : Schedule), s.notices = [] → s.tbc.exchange = none →
      exec (.exchangeAnswerTimeout order) s = .next s

/-- POLL_EXCHANGE_END with a good answer, as its bytes spell it: the unit is REACHABLE with miss count 0 and nothing
counts as missed; a PDU's detection and LOCAL flag, an SDU's aspect and lamp fault stand in the record; a CH with
SENSOR_FAULT is FAILED, else its counts are the last counts. The bus then goes on before the RIM takes the report's
notices (the model's choice, log entry 39): with a unit still to poll it sends the command the arbiter picks, or with
none the next POLL; with none to poll the round is complete. The bytes of an answer, as their readers take them and with
the codes of log entry 14 and the bit order of the check of log entry 64 (PRESUMED, no source of the spec), read as that
answer. The notices of one written change of a point or a signal: which there are, and to whom; a recipient gets each
kind once. A PDU report by the point's drive: the target detected completes it, LOCAL withdraws it, any other report
lets it go on; a drive that ends with a next position still wanted begins anew toward it, one not wanted is dropped; a
PAUSED drive resumes, redirects or fails. An SDU report by the signal's command: PROCEED confirms one that awaits
confirmation; another aspect ends a PROCEED confirmed before; PROCEED with STOP commanded and none outstanding makes the
signal FAILED and queues SHOW(STOP). A position is wanted by a lock or a claim for it, or by the operator's mark against
no lock and no claim for the other position. The mark of a drive whose next position is dropped stays as it stood (the
model's choice, log entry 62). -/
def Obligations.AGoodPollHandsTheReportOn : Prop :=
  (∀ (s : State) (u : UnitRow) (a : Nat) (x : List Byte) (body : AnswerBody) (order : Schedule),
    s.tbc.exchange = some (.poll a) → s.unitAt a = some u → pollAnswer u x = some body →
    exec (.pollExchangeEnd x order) s = .next (State.finish s ((s.freeBus.goodPoll order u body).afterPoll order))
    ∧ ∃ t, exec (.pollExchangeEnd x order) s = .next t ∧ t.tbc.missed = s.tbc.missed
      ∧ t.tbc.units = s.tbc.units.map (fun v => if v.address == u.address then
          { u with misses := 0, reachable := true } else v)
      ∧ (∀ d f p, body = .reportPdu d f → s.point? u.serves = some p →
          ∃ p', t.point? u.serves = some p' ∧ p'.detection = reportedDetection d ∧ p'.localMode = f)
      ∧ (∀ d f g, body = .reportSdu d f → s.signal? u.serves = some g →
          ∃ g', t.signal? u.serves = some g' ∧ g'.shown = reportedAspect d ∧ g'.lampFault = f)
      ∧ (∀ m n f r, body = .reportCh m n f → s.dp u.serves = some r → ∃ r', t.dp u.serves = some r'
          ∧ (f = true → r'.state = .failed .sensorFault ∧ r'.last = r.last)
          ∧ (f = false → r'.last = some (m, n))))
  ∧ (∀ (unit : UnitKind) (address : Nat) (body : AnswerBody), address < 256 → canAnswer unit body = true →
    readAnswer unit address (answerFrame address body) = some body)
  ∧ (∀ (s : State) (u : UnitRow) (order : Schedule),
    let v : State := s.putUnit { u with misses := 0, reachable := true }
    (∀ d f, u.kind = .pdu → u.reachable = true → s.goodPoll order u (.reportPdu d f) = v.pduReport u.serves d f)
    ∧ (∀ d f, u.kind = .pdu → u.reachable = false →
      s.goodPoll order u (.reportPdu d f) = (v.pduReport u.serves d f).resumeDrive u.serves)
    ∧ (∀ d f, u.kind = .sdu → s.goodPoll order u (.reportSdu d f) = v.sduReport u.serves d f)
    ∧ ∀ m n f, u.kind = .ch → s.goodPoll order u (.reportCh m n f) =
        (v.chReport u.serves u.misses m n f).1.handChanges order (v.chReport u.serves u.misses m n f).2)
  ∧ (∀ (s : State) (order : Schedule),
    (∀ a rest q, s.tbc.round = some (a :: rest) → s.arbiter = some q → s.afterPoll order = { s with
      tbc := { s.tbc with exchange := some (.command q.address q.telegram q.age) }
      out := s.out ++ [.track q.address q.telegram] })
    ∧ (∀ a rest, s.tbc.round = some (a :: rest) → s.arbiter = none → s.afterPoll order = { s with
      tbc := { s.tbc with exchange := some (.poll a), round := some rest }, out := s.out ++ [.track a .poll] })
    ∧ (s.tbc.round = some [] → s.afterPoll order =
      let r := State.roundComplete { s with tbc := { s.tbc with round := none } }
      r.1.handChanges order r.2)
    ∧ (s.tbc.round = none → s.afterPoll order = s))
  ∧ (∀ (s : State) (e : Nat) (old new : PointRec), s.point? e = some old →
    let gains : Pos → Prop := fun q => new.detection = detectionOf q ∧ (old.detection ≠ detectionOf q
      ∨ (old.failed = true ∧ new.failed = false) ∨ (old.localMode = true ∧ new.localMode = false))
    let loses : Pos → Prop := fun q =>
      (old.detection = detectionOf q ∧ new.detection ≠ detectionOf q) ∨ (old.localMode = false ∧ new.localMode = true)
    let claims : Nat → Prop := fun i => ∃ f m, s.claim? new.flankRef = some f ∧ .route i m ∈ f.claimants
    let requires : Nat → Pos → Prop := fun i q =>
      ∃ f m, s.claim? new.flankRef = some f ∧ .route i m ∈ f.claimants ∧ f.required = .pos q
    ∃ l, (s.writePoint e new).notices = s.notices ++ l ∧ (s.writePoint e new).point? e = some new ∧ l.Nodup
      ∧ (∀ i, .position i e ∈ l ↔ ∃ q, gains q ∧ ((∃ role, new.lock = .held i role q) ∨ requires i q))
      ∧ (∀ i, .detectionLost i e ∈ l ↔ ∃ q, loses q ∧ ∃ role, new.lock = .held i role q)
      ∧ (∀ i, .flankLost i e ∈ l ↔ ∃ q, loses q ∧ requires i q)
      ∧ (∀ i, .pointFailed i e ∈ l ↔
        old.failed = false ∧ new.failed = true ∧ ((∃ role q, new.lock = .held i role q) ∨ claims i))
      ∧ ∀ x ∈ l, ∃ i, x = .position i e ∨ x = .detectionLost i e ∨ x = .flankLost i e ∨ x = .pointFailed i e)
  ∧ (∀ (s : State) (e : Nat) (old new : SignalRec), s.signal? e = some old →
    let claims : Nat → Prop := fun i => ∃ f m, s.claim? new.flankRef = some f ∧ .route i m ∈ f.claimants
    ∃ l, (s.writeSignal e new).notices = s.notices ++ l ∧ (s.writeSignal e new).signal? e = some new ∧ l.Nodup
      ∧ (∀ i, .position i e ∈ l ↔ old.shown ≠ .stop ∧ new.shown = .stop ∧ claims i)
      ∧ (∀ i, .flankLost i e ∈ l ↔ old.shown = .stop ∧ new.shown ≠ .stop ∧ claims i)
      ∧ (∀ i, .lampFault i e ∈ l ↔
        old.lampFault = false ∧ new.lampFault = true ∧ new.commanded = .proceed ∧ new.entrySlot = .held i)
      ∧ ∀ x ∈ l, ∃ i, x = .position i e ∨ x = .flankLost i e ∨ x = .lampFault i e)
  ∧ (∀ (s : State) (e : Nat) (p : PointRec) (d : PduDetection) (f : Bool), s.point? e = some p →
    (s.drive e = none → (s.pduReport e d f).point? e = some { p with detection := reportedDetection d, localMode := f }
      ∧ (s.pduReport e d f).drive e = none)
    ∧ ∀ v, s.drive e = some v →
      (reportedDetection d = detectionOf v.target → s.pduReport e d f =
        (s.modPoint e fun p => { p with detection := reportedDetection d, localMode := f }).completeDrive e v)
      ∧ (reportedDetection d ≠ detectionOf v.target → f = true →
        (s.pduReport e d f).point? e =
            some { p with detection := reportedDetection d, localMode := true, next := none }
          ∧ (s.pduReport e d f).drive e = none
          ∧ ∀ u, s.unitOf .pdu e = some u → (s.pduReport e d f).queuedAt u.address = none)
      ∧ (reportedDetection d ≠ detectionOf v.target → f = false →
        (s.pduReport e d f).point? e = some { p with detection := reportedDetection d, localMode := false }
          ∧ (s.pduReport e d f).drive e = some v ∧ (s.pduReport e d f).tbc = s.tbc))
  ∧ (∀ (s : State) (e : Nat) (p : PointRec) (d : Drive), s.point? e = some p →
    (p.next = none → (s.completeDrive e d).point? e = some p ∧ (s.completeDrive e d).drive e = none
      ∧ ∀ u, s.unitOf .pdu e = some u → (s.completeDrive e d).queuedAt u.address = none)
    ∧ ∀ q, p.next = some q →
      (s.wanted p q d.operatorMark = false →
        (s.completeDrive e d).point? e = some { p with next := none } ∧ (s.completeDrive e d).drive e = none)
      ∧ ∀ u, s.wanted p q d.operatorMark = true → s.agrees p q = true → p.flagsClear = true →
        p.detection ≠ detectionOf q → s.movable p = true → s.unitOf .pdu e = some u →
        (s.completeDrive e d).point? e = some { p with next := none }
          ∧ (s.completeDrive e d).drive e = some ⟨q, p.retries, .stopped, .active, false⟩
          ∧ (s.completeDrive e d).queuedAt u.address = some ⟨u.address, .throwTo q, s.tbc.nextAge, 0⟩)
  ∧ (∀ (s : State) (p : PointRec) (q : Pos) (operator : Bool), s.wanted p q operator = true ↔
    (∃ i role, p.lock = .held i role q) ∨ (∃ f, s.claim? p.flankRef = some f ∧ f.required = .pos q)
      ∨ (operator = true ∧ (∀ i role, p.lock ≠ .held i role (oppositePos q))
        ∧ ∀ f, s.claim? p.flankRef = some f → f.required ≠ .pos (oppositePos q)))
  ∧ (∀ (s : State) (e : Nat) (p : PointRec) (d : Drive), s.point? e = some p → s.drive e = some d → d.state = .paused →
    (∀ q, p.next = some q → s.wanted p q d.operatorMark = true → s.resumeDrive e = s.completeDrive e d)
    ∧ (p.next = none → s.containingClear p = false →
      (s.resumeDrive e).drive e = none ∧ (s.resumeDrive e).point? e = some { p with failed := true, next := none })
    ∧ ∀ u, p.next = none → s.throwLaw p d.target = true → s.unitOf .pdu e = some u →
      (s.resumeDrive e).drive e = some { d with state := .active } ∧ (s.resumeDrive e).point? e = some p
        ∧ (s.resumeDrive e).queuedAt u.address = some ⟨u.address, .throwTo d.target, s.tbc.nextAge, 0⟩)
  ∧ ∀ (s : State) (e : Nat) (g : SignalRec) (a : SduAspect) (l : Bool), s.signal? e = some g →
    ((s.cmd e).awaiting.isRunning = true →
      (s.sduReport e a l).signal? e = some { g with shown := reportedAspect a, lampFault := l }
      ∧ (s.sduReport e a l).tbc = s.tbc
      ∧ (a = .proceed → (s.sduReport e a l).cmd e = { s.cmd e with awaiting := .stopped }
          ∧ ∀ i, g.entrySlot = .held i → .confirmed i e ∈ (s.sduReport e a l).notices)
      ∧ (a ≠ .proceed → (s.sduReport e a l).cmd e = s.cmd e))
    ∧ ((s.cmd e).awaiting.isRunning = false → g.commanded = .proceed →
      (a = .proceed → (s.sduReport e a l).signal? e = some { g with shown := reportedAspect a, lampFault := l }
        ∧ (s.sduReport e a l).cmd e = s.cmd e ∧ (s.sduReport e a l).tbc = s.tbc)
      ∧ ∀ u, a ≠ .proceed → s.unitOf .sdu e = some u →
        (s.sduReport e a l).signal? e = some { g with shown := reportedAspect a, lampFault := l, commanded := .stop }
        ∧ (s.sduReport e a l).cmd e = ⟨.stopped, true⟩
        ∧ (s.sduReport e a l).queuedAt u.address = some ⟨u.address, .showAs .stop, s.tbc.nextAge, 0⟩
        ∧ ∀ i, g.entrySlot = .held i → .signalNotCleared i e ∈ (s.sduReport e a l).notices)
    ∧ ((s.cmd e).awaiting.isRunning = false → g.commanded = .stop →
      ((a ≠ .proceed ∨ (s.cmd e).stopOutstanding = true) →
        (s.sduReport e a l).signal? e = some { g with shown := reportedAspect a, lampFault := l }
        ∧ (s.sduReport e a l).cmd e = s.cmd e ∧ (s.sduReport e a l).tbc = s.tbc)
      ∧ ∀ u, a = .proceed → (s.cmd e).stopOutstanding = false → s.unitOf .sdu e = some u →
        (s.sduReport e a l).signal? e = some { g with shown := reportedAspect a, lampFault := l, failed := true }
        ∧ (s.sduReport e a l).cmd e = { s.cmd e with stopOutstanding := true }
        ∧ (s.sduReport e a l).queuedAt u.address = some ⟨u.address, .showAs .stop, s.tbc.nextAge, 0⟩)

/-- COMMAND_EXCHANGE_END with an ACK or REJECT, as its bytes spell it: the unit's miss count is 0, and the command
answered is queued no more (every command queued for the unit afterwards carries a younger age stamp). Between rounds an
ACK to a THROW starts the supervision timer of the ACTIVE drive, or lets a frozen one go on, and does nothing else. An
answer is taken for the command it answers while that one is still queued; else it is discarded, but that to a
SHOW(STOP) still ends its mark (by inference, log entry 16). A THROW rejected for LOCAL_MODE withdraws the drive, for
WRONG_KIND or UNIT_FAULT makes the point FAILED and tells the lock owner and the route claimants; a rejected
SHOW(PROCEED) is unsuccessful while it awaits confirmation; a rejected SHOW(STOP) makes the signal FAILED. Each ACK or
REJECT of a SHOW(STOP) ends the outstanding mark unless a later SHOW(STOP) is queued (by inference, log entry 17). The
bus then goes on with the next POLL of a round. An answer with no exchange changes nothing (the model's choice, log
entry 1). -/
def Obligations.AnAnsweredCommandLeavesTheQueue : Prop :=
  (∀ (s : State) (u : UnitRow) (q : QueuedCmd) (x : List Byte) (body : AnswerBody),
    s.tbc.exchange = some (.command u.address q.telegram q.age) → s.unitAt u.address = some u →
    s.tbc.queue.filter (fun p => p.address == u.address) = [q] → q.age < s.tbc.nextAge →
    commandAnswer u x = some body →
    ∃ t, exec (.commandExchangeEnd x) s = .next t ∧ t.tbc.missed = s.tbc.missed
      ∧ t.tbc.units = s.tbc.units.map (fun v => if v.address == u.address then { u with misses := 0 } else v)
      ∧ ∀ p ∈ t.tbc.queue, p.address = u.address → s.tbc.nextAge ≤ p.age)
  ∧ (∀ (s : State) (u : UnitRow) (q : QueuedCmd) (x : List Byte) (pos : Pos) (p : PointRec) (d : Drive),
    s.notices = [] → s.tbc.exchange = some (.command u.address q.telegram q.age) → s.tbc.round = none →
    s.unitAt u.address = some u → s.queuedAt u.address = some q → q.telegram = .throwTo pos →
    s.point? u.serves = some p → s.drive u.serves = some d → d.state = .active → commandAnswer u x = some .ack →
    exec (.commandExchangeEnd x) s = .next (State.settleMarks s
      (({ s with tbc := { s.tbc with
          exchange := none
          units := s.tbc.units.map (fun v => if v.address == u.address then { u with misses := 0 } else v)
          queue := s.tbc.queue.filter (fun c => c.address != u.address) } } : State).putDrive u.serves
        (some { d with timer := d.timer.resume p.supervision }))))
  ∧ (∀ (s : State) (u : UnitRow) (tel : TrackTelegram) (age : Nat) (x : List Byte) (body : AnswerBody),
    s.tbc.exchange = some (.command u.address tel age) → s.unitAt u.address = some u → commandAnswer u x = some body →
    exec (.commandExchangeEnd x) s =
      .next (State.finish s ((s.freeBus.goodCommand u tel age (rejectOf body)).afterCommand [])))
  ∧ (rejectOf .ack = none ∧ ∀ r, rejectOf (.reject r) = some (some r))
  ∧ (∀ (s : State) (u : UnitRow) (tel : TrackTelegram) (age : Nat) (f : Option (Option RejectReason)),
    let v := s.putUnit { u with misses := 0 }
    (∀ q, s.queuedAt u.address = some q → q.age = age →
      s.goodCommand u tel age f = (v.dequeue u.address).commandAnswered u tel f)
    ∧ ((∀ q, s.queuedAt u.address = some q → q.age ≠ age) →
      (tel = .showAs .stop → s.goodCommand u tel age f = v.stopAnswered u.serves)
      ∧ (tel ≠ .showAs .stop → s.goodCommand u tel age f = v)))
  ∧ (∀ (s : State),
    (s.tbc.round = none → s.afterCommand [] = s)
    ∧ ∀ a rest, s.tbc.round = some (a :: rest) → s.afterCommand [] = { s with
      tbc := { s.tbc with exchange := some (.poll a), round := some rest }, out := s.out ++ [.track a .poll] })
  ∧ (∀ (s : State) (u : UnitRow) (pos : Pos),
    (s.drive u.serves = none → ∀ f, s.commandAnswered u (.throwTo pos) f = s)
    ∧ ∀ d p, s.drive u.serves = some d → s.point? u.serves = some p →
      (d.state = .paused → s.commandAnswered u (.throwTo pos) none = s)
      ∧ (d.state = .active → s.commandAnswered u (.throwTo pos) none =
          s.putDrive u.serves (some { d with timer := d.timer.resume p.supervision }))
      ∧ (∀ t, t = s.commandAnswered u (.throwTo pos) (some (some .localMode)) →
        t.point? u.serves = some { p with next := none } ∧ t.drive u.serves = none
          ∧ ∀ v, s.unitOf .pdu u.serves = some v → t.queuedAt v.address = none)
      ∧ ∀ r t, r ≠ .localMode → t = s.commandAnswered u (.throwTo pos) (some (some r)) →
        t.point? u.serves = some { p with failed := true, next := none } ∧ t.drive u.serves = none
          ∧ (∀ v, s.unitOf .pdu u.serves = some v → t.queuedAt v.address = none)
          ∧ (p.failed = false → ∀ i role q, p.lock = .held i role q → .pointFailed i u.serves ∈ t.notices)
          ∧ (p.failed = false → ∀ i f m, s.claim? p.flankRef = some f → .route i m ∈ f.claimants →
            .pointFailed i u.serves ∈ t.notices))
  ∧ (∀ (s : State) (u : UnitRow),
    s.commandAnswered u (.showAs .proceed) none = s
    ∧ (∀ r, (s.cmd u.serves).awaiting.isRunning = true →
      s.commandAnswered u (.showAs .proceed) (some r) = s.proceedFails u.serves)
    ∧ (∀ r, (s.cmd u.serves).awaiting.isRunning = false → s.commandAnswered u (.showAs .proceed) (some r) = s)
    ∧ ∀ w, s.unitOf .sdu u.serves = some w →
      ((∀ q, s.queuedAt w.address = some q → q.telegram ≠ .showAs .stop) →
        s.commandAnswered u (.showAs .stop) none = s.putCmd u.serves { s.cmd u.serves with stopOutstanding := false }
        ∧ ∀ r g, s.signal? u.serves = some g →
          (s.commandAnswered u (.showAs .stop) (some r)).signal? u.serves = some { g with failed := true }
          ∧ (s.commandAnswered u (.showAs .stop) (some r)).cmd u.serves = { s.cmd u.serves with stopOutstanding := false })
      ∧ ∀ q, s.queuedAt w.address = some q → q.telegram = .showAs .stop → s.commandAnswered u (.showAs .stop) none = s)
  ∧ ∀ (s : State) (x : List Byte), s.notices = [] → s.tbc.exchange = none →
      exec (.commandExchangeEnd x) s = .next s

/-! ### Points, signals, sections -/

/-- SUPERVISION_TIMER_EXPIRY of an ACTIVE drive: with a next position held and still wanted the drive ends and the next
position is taken (see the statement on reports); with one not wanted it is dropped, the operator's mark staying as it
stood (the model's choice, log entry 62), and the rest is as with none. With
a containing section not CLEAR or no attempt left the point becomes FAILED and its drive ends; else one attempt is spent
and THROW toward the target is queued again. A drive that is not ACTIVE, or whose timer does not run, stays as it is.
CONFIRMATION_TIMER_EXPIRY while PROCEED awaits confirmation: the signal is commanded STOP, its command record ends,
SHOW(STOP) is queued for its unit and outstanding, and the instance that holds the ENTRY slot is told
SIGNAL_NOT_CLEARED. An expiry with nothing that runs changes nothing (the model's choice, log entry 1). -/
def Obligations.FieldTimersReplaceRetryOrFail : Prop :=
  ((∀ (s : State) (e n : Nat) (p : PointRec) (d : Drive) (q : Pos), s.point? e = some p → s.drive e = some d →
      d.state = .active → d.timer = .running n → p.next = some q →
      exec (.supervisionTimerExpiry e) s = .next (State.finish s (s.attemptEnds e d))
        ∧ (s.wanted p q d.operatorMark = true → s.attemptEnds e d = s.completeDrive e d)
        ∧ (s.wanted p q d.operatorMark = false →
          (d.attemptsLeft = 0 ∨ s.containingClear p = false →
            (s.attemptEnds e d).drive e = none
              ∧ (s.attemptEnds e d).point? e = some { p with failed := true, next := none })
          ∧ (0 < d.attemptsLeft → s.throwLaw p d.target = true → ∀ u, s.unitOf .pdu e = some u →
            (s.attemptEnds e d).drive e = some { d with attemptsLeft := d.attemptsLeft - 1, timer := .stopped }
              ∧ (s.attemptEnds e d).point? e = some { p with next := none }
              ∧ (s.attemptEnds e d).queuedAt u.address = some ⟨u.address, .throwTo d.target, s.tbc.nextAge, 0⟩)))
    ∧ (∀ (s : State) (e n : Nat) (p : PointRec) (d : Drive), s.point? e = some p → s.drive e = some d → d.state = .active →
      d.timer = .running n → p.next = none →
      exec (.supervisionTimerExpiry e) s = .next (State.finish s (s.attemptEnds e d))
        ∧ (d.attemptsLeft = 0 ∨ s.containingClear p = false →
            (s.attemptEnds e d).drive e = none
              ∧ ∃ p', (s.attemptEnds e d).point? e = some p' ∧ p'.failed = true ∧ p'.next = none)
        ∧ (0 < d.attemptsLeft → s.throwLaw p d.target = true → ∀ u, s.unitOf .pdu e = some u →
            (s.attemptEnds e d).drive e = some { d with attemptsLeft := d.attemptsLeft - 1, timer := .stopped }
              ∧ (s.attemptEnds e d).queuedAt u.address = some ⟨u.address, .throwTo d.target, s.tbc.nextAge, 0⟩))
    ∧ ∀ (s : State) (e : Nat), s.notices = [] →
        ((s.drive e).all fun d => d.state != .active || !d.timer.isRunning) = true →
        exec (.supervisionTimerExpiry e) s = .next s)
  ∧ ((∀ (s : State) (e n : Nat) (g : SignalRec), s.signal? e = some g → (s.cmd e).awaiting = .running n →
      exec (.confirmationTimerExpiry e) s = .next (State.finish s (s.proceedFails e))
        ∧ ((s.proceedFails e).cmd e).awaiting = .stopped
        ∧ (∃ g', (s.proceedFails e).signal? e = some g' ∧ g'.commanded = .stop)
        ∧ (∀ u, s.unitOf .sdu e = some u →
            (s.proceedFails e).queuedAt u.address = some ⟨u.address, .showAs .stop, s.tbc.nextAge, 0⟩
              ∧ ((s.proceedFails e).cmd e).stopOutstanding = true)
        ∧ ∀ i, g.entrySlot = .held i → .signalNotCleared i e ∈ (s.proceedFails e).notices)
    ∧ ∀ (s : State) (e : Nat), s.notices = [] → (s.cmd e).awaiting.isRunning = false →
        exec (.confirmationTimerExpiry e) s = .next s)

/-- Round-complete: every section takes its evaluation from the pending counts as they stand, then every pending count
is 0; the changes handed over are those of the sections whose state changed, each once. The last POLL of a round, good
or missed, raises it and hands the changes over. They reach the occupancy of their sections and of no other, in whatever
order. A change writes the occupancy and tells the lock owner; to CLEAR it starts a retest pass; to another it makes the
points of the section FAILED that are MOVING with an ACTIVE drive, and leaves every other point and drive. -/
def Obligations.RoundCompleteEvaluatesEverySection : Prop :=
  (∀ s : State,
    (∀ e, s.roundComplete.1.count e = (s.count e).map s.evaluated)
    ∧ (∀ d, s.roundComplete.1.dp d = (s.dp d).map (fun (r : DpRec) => { r with pendingA := 0, pendingB := 0 }))
    ∧ (∀ e o, (e, o) ∈ s.roundComplete.2 ↔
        ∃ c, s.count e = some c ∧ (s.evaluated c).state = o ∧ (s.evaluated c).state ≠ c.state)
    ∧ (s.roundComplete.2.map Prod.fst).Nodup
    ∧ s.roundComplete.1.lkc = s.lkc ∧ s.roundComplete.1.rim = s.rim ∧ s.roundComplete.1.tbc = s.tbc)
  ∧ (∀ (s : State) (u : UnitRow) (a : Nat) (order : Schedule), s.tbc.exchange = some (.poll a) → s.unitAt a = some u →
    s.tbc.round = some [] →
    let ends : State → State := fun v =>
      let r := State.roundComplete { v with tbc := { v.tbc with round := none } }
      r.1.handChanges order r.2
    (∀ x body, pollAnswer u x = some body →
      exec (.pollExchangeEnd x order) s = .next (State.finish s (ends (s.freeBus.goodPoll order u body))))
    ∧ (∀ x, pollAnswer u x = none →
      exec (.pollExchangeEnd x order) s = .next (State.finish s (ends (s.freeBus.missed order a))))
    ∧ exec (.exchangeAnswerTimeout order) s = .next (State.finish s (ends (s.freeBus.missed order a))))
  ∧ (∀ (s : State) (order : Schedule) (changes : List (Nat × Occ)) (e : Nat), (changes.map Prod.fst).Nodup →
    (∀ o, (e, o) ∈ changes → ((s.handChanges order changes).track? e).map TrackRec.occupancy = (s.track? e).map fun _ => o)
    ∧ ((∀ o, (e, o) ∉ changes) →
      ((s.handChanges order changes).track? e).map TrackRec.occupancy = (s.track? e).map TrackRec.occupancy))
  ∧ (∀ (s : State) (e : Nat) (o : Occ),
    ((∀ t, s.track? e = some t → t.occupancy = o) → s.sectionChange e o = s)
    ∧ ∀ t, s.track? e = some t → t.occupancy ≠ o →
      (s.sectionChange e o).track? e = some { t with occupancy := o }
      ∧ (∀ i role, t.lock = .held i role → .track i e t.occupancy o ∈ (s.sectionChange e o).notices)
      ∧ (o = .clear → s.sectionChange e o = ((s.writeTrack e { t with occupancy := o }).notifyAll
          (match t.lock with
            | .held i _ => [.track i e t.occupancy o]
            | _ => [])).retestTrigger)
      ∧ (o ≠ .clear → ∀ q p d, s.point? q = some p → e ∈ p.containing → p.detection = .moving → s.drive q = some d →
        d.state = .active → (s.sectionChange e o).point? q = some { p with failed := true, next := none }
          ∧ (s.sectionChange e o).drive q = none)
      ∧ ∀ q p, s.point? q = some p → (o = .clear ∨ e ∉ p.containing ∨ p.detection ≠ .moving
          ∨ (∀ d, s.drive q = some d → d.state ≠ .active)) →
        (s.sectionChange e o).point? q = some p ∧ (s.sectionChange e o).drive q = s.drive q)

/-- At round-complete every section is evaluated, and one in DISTURBED stays as it is. The rows of R52 with the deficit
age of R53, for a section in CLEAR or OCCUPIED, N its count and the round's change. The rows of R58 for a section in
RESET_PENDING, which a detection point failure makes DISTURBED with its sweep mark clear (R50). A persistent deficit in
RESET_PENDING keeps the sweep mark (the model's choice, log entry 36). -/
def Obligations.SectionsTakeTheRowTheirCountMeets : Prop :=
  (∀ (s : State) (e : Nat), s.roundComplete.1.count e = (s.count e).map s.evaluated)
  ∧ (∀ (s : State) (c : SectCount), c.state = .disturbed → s.evaluated c = c)
  ∧ (∀ (s : State) (d : Nat) (r : DpRec) (b : Nat × Orient) (c : SectCount), s.dp d = some r → r.state = .normal →
      b ∈ r.borders → s.count b.1 = some c → c.state = .resetPending →
      (s.chUnreachable d).1.count b.1 =
        some { c with count := 0, state := .disturbed, cause := some (.dpFailed d), deficitAge := 0, sweep := false })
  ∧ (∀ (s : State) (c : SectCount) (N : Int), c.state = .clear ∨ c.state = .occupied → N = c.count + s.roundChange c →
      (1023 < N → s.evaluated c = { c with count := 1023, state := .occupied, deficitAge := 0, saturated := true })
      ∧ (0 < N → N ≤ 1023 → s.evaluated c = { c with count := N, state := .occupied, deficitAge := 0 })
      ∧ (N = 0 → c.saturated = false → s.evaluated c = { c with count := 0, state := .clear, deficitAge := 0 })
      ∧ (N = 0 → c.saturated = true → s.evaluated c = { c with count := 0, state := .occupied, deficitAge := 0 })
      ∧ (-(s.cfl.tolerance : Int) ≤ N → N < 0 → c.deficitAge = 0 →
          s.evaluated c = { c with count := N, state := .occupied, deficitAge := 1 })
      ∧ (-(s.cfl.tolerance : Int) ≤ N → N < 0 → c.deficitAge ≠ 0 → s.evaluated c =
          { c with count := 0, state := .disturbed, cause := some .persistentDeficit, deficitAge := 0 })
      ∧ (N < -(s.cfl.tolerance : Int) →
          s.evaluated c = { c with count := 0, state := .disturbed, cause := some .deficit, deficitAge := 0 }))
  ∧ (∀ (s : State) (c : SectCount) (N : Int), c.state = .resetPending → N = c.count + s.roundChange c →
      (1023 < N → s.evaluated c =
          { c with count := 0, state := .disturbed, cause := some .saturation, deficitAge := 0, sweep := false })
      ∧ (0 < N → N ≤ 1023 → s.evaluated c = { c with count := N, deficitAge := 0, sweep := true })
      ∧ (N = 0 → c.sweep = true → s.evaluated c = { c with count := 0, state := .clear, deficitAge := 0, sweep := false })
      ∧ (N = 0 → c.sweep = false → s.evaluated c = { c with count := 0, deficitAge := 0 })
      ∧ (-(s.cfl.tolerance : Int) ≤ N → N < 0 → c.deficitAge = 0 → s.evaluated c = { c with count := N, deficitAge := 1 })
      ∧ (-(s.cfl.tolerance : Int) ≤ N → N < 0 → c.deficitAge ≠ 0 → s.evaluated c =
          { c with count := 0, state := .disturbed, cause := some .persistentDeficit, deficitAge := 0 })
      ∧ (N < -(s.cfl.tolerance : Int) → s.evaluated c =
          { c with count := 0, state := .disturbed, cause := some .deficit, deficitAge := 0, sweep := false }))

/-- A report of an OK head at a NORMAL detection point: the differences modulo 256, judged against 24 times one plus the
miss count, are added to the pending counts or make the point FAILED with IMPLAUSIBLE and its bordering sections
DISTURBED; the counts of the report become the last counts. A SENSOR_FAULT report makes any point FAILED and reads no
count; at a point already FAILED only the cause changes and no section is marked. An OK report at a FAILED point makes
it NORMAL with the report's counts as its last ones and counts no axle, whatever its unit's miss count; its sections
stay as they are. So the first good POLL of an UNREACHABLE head, with miss count 3, makes the unit REACHABLE and the
point NORMAL. -/
def Obligations.AHeadReportCountsOrFails : Prop :=
  (∀ (s : State) (d misses : Nat) (m n la lb : Byte) (r : DpRec), s.dp d = some r →
    (misses ≤ 2 → r.state = .normal → r.last = some (la, lb) → (m - la).toNat ≤ 24 * (1 + misses) →
      (n - lb).toNat ≤ 24 * (1 + misses) →
      (s.chReport d misses m n false).1.dp d =
          some { r with last := some (m, n), pendingA := r.pendingA + (m - la).toNat, pendingB := r.pendingB + (n - lb).toNat }
        ∧ (s.chReport d misses m n false).2 = [])
    ∧ (misses ≤ 2 → r.state = .normal → r.last = some (la, lb) →
        (24 * (1 + misses) < (m - la).toNat ∨ 24 * (1 + misses) < (n - lb).toNat) →
        (s.chReport d misses m n false).1.dp d =
          some { r with state := .failed .implausible, last := some (m, n), pendingA := 0, pendingB := 0 }
        ∧ ∀ b ∈ r.borders, ∀ c, s.count b.1 = some c → c.state ≠ .disturbed →
            (b.1, Occ.disturbed) ∈ (s.chReport d misses m n false).2
              ∧ (s.chReport d misses m n false).1.count b.1 = some (c.disturb (.dpFailed d)))
    ∧ (∃ r', (s.chReport d misses m n true).1.dp d = some r' ∧ r'.state = .failed .sensorFault ∧ r'.last = r.last)
    ∧ (∀ c, r.state = .failed c →
      s.chReport d misses m n true = (s.putDp d { r with state := .failed .sensorFault }, [])
      ∧ (s.chReport d misses m n false).1.dp d = some { r with state := .normal, last := some (m, n) }
      ∧ (r.pendingA = 0 → r.pendingB = 0 → ∀ r', (s.chReport d misses m n false).1.dp d = some r' →
          r'.pendingA = 0 ∧ r'.pendingB = 0)
      ∧ (s.chReport d misses m n false).2 = []
      ∧ ∀ e, (s.chReport d misses m n false).1.count e = s.count e))
  ∧ ∀ (s : State) (u : UnitRow) (a : Nat) (x : List Byte) (m n : Byte) (order : Schedule) (r : DpRec) (c : DpCause),
    s.tbc.exchange = some (.poll a) → s.unitAt a = some u → u.kind = .ch → pollAnswer u x = some (.reportCh m n false) →
    s.dp u.serves = some r → r.state = .failed c →
    ∃ t, exec (.pollExchangeEnd x order) s = .next t
      ∧ t.tbc.units = s.tbc.units.map (fun v => if v.address == u.address then { u with misses := 0, reachable := true } else v)
      ∧ ∃ r', t.dp u.serves = some r' ∧ r'.state = .normal ∧ r'.last = some (m, n)
        ∧ (r.pendingA = 0 → r.pendingB = 0 → r'.pendingA = 0 ∧ r'.pendingB = 0)

/-! ### Operator links -/

/-- OPERATOR_TELEGRAM_ARRIVAL: a telegram whose check is right joins the waiting telegrams while fewer than 4 wait, and
GOOD is counted; any other is discarded and counted in DISCARDED. Nothing else changes. A counter with a mark goes up by
one below 65535, where its mark is set as it reaches that; at 65535 it stays, its mark set; one without a mark goes up
by one and stays at 65535. -/
def Obligations.AnArrivingTelegramWaitsOrIsDiscarded : Prop :=
  (∀ (s : State) (l : OpLink) (bytes : List Byte), s.notices = [] →
    (∀ t, readOperatorFrame bytes = some t → (s.olc.get l).waiting.length < 4 →
      exec (.operatorTelegramArrival l bytes) s = .next (s.modOlc l fun c =>
        { c with waiting := c.waiting ++ [t], good := incCounter c.good }))
    ∧ ((readOperatorFrame bytes = none ∨ 4 ≤ (s.olc.get l).waiting.length) →
      exec (.operatorTelegramArrival l bytes) s = .next (s.modOlc l fun c =>
        { c with discarded := incCounter c.discarded })))
  ∧ (∀ (v : Word16) (mark : Bool),
      (v.toNat < 65534 → incCounter ⟨v, mark⟩ = ⟨v + 1, mark⟩)
      ∧ (v.toNat = 65534 → incCounter ⟨v, mark⟩ = ⟨65535, true⟩)
      ∧ (v.toNat = 65535 → incCounter ⟨v, mark⟩ = ⟨65535, true⟩))
  ∧ ∀ v : Word16, (v.toNat < 65535 → satInc v = v + 1) ∧ (v.toNat = 65535 → satInc v = 65535)

/-- REPLY_TRANSMIT sends the reply that waits. SEND_INDICATION, with no reply waiting and loading ended, sends the
indication of the first object of the set with the next number. Each changes nothing where it has nothing to send (the
model's choice, log entry 1). What an indication carries is written out object by object, from the state at that moment:
part status of the link (R159), an area (R148), an element with its flank state and, of a section, what the axle counter
holds (R44, R117; the fields the LKC keeps with a drive and a command besides), an instance, free or live, with each
waiting entry's element (R100, R126), a boundary (R184), the store (R147) and the link's pending operation. Remaining
times are whole seconds rounded up; for the press selection that unit is the model's choice (log entry 60). -/
def Obligations.TheTransmitterSendsRepliesBeforeIndications : Prop :=
  (∀ (s : State) (l : OpLink), s.notices = [] →
    (∀ q b, (s.olc.get l).reply = some (q, b) →
      exec (.replyTransmit l) s =
        .next { s with olc := s.olc.set l { s.olc.get l with reply := none }, out := s.out ++ [.reply l q b] }
      ∧ exec (.sendIndication l) s = .next s)
    ∧ ((s.olc.get l).reply = none → exec (.replyTransmit l) s = .next s)
    ∧ (∀ o rest, (s.olc.get l).reply = none → s.cfl.load ≠ .loading → (s.olc.get l).marks = o :: rest →
      exec (.sendIndication l) s =
        .next { s with olc := s.olc.set l { s.olc.get l with marks := rest, indNo := (s.olc.get l).indNo + 1 }
                       out := s.out ++ [.indication l (s.olc.get l).indNo o (s.indicationOf l o)] })
    ∧ ((s.cfl.load = .loading ∨ (s.olc.get l).marks = []) → exec (.sendIndication l) s = .next s))
  ∧ (∀ (s : State) (l : OpLink),
      s.indicationOf l .partStatus = .partStatus {
        load := s.cfl.load, areaFault := s.aou.areaFault, storeFault := s.aou.storeFault
        selection := (s.rim.sel.get l).map fun v => (v.signal, v.timer.seconds)
        failure := (s.olc.get l).failure, overrun := (s.olc.get l).overrun }
      ∧ (∀ a, ∃ offer force, s.indicationOf l (.area a) = .area (s.areaRec a).holder offer force
          ∧ ((s.areaRec a).offer = .stopped → offer = none) ∧ ((s.areaRec a).holder = .none → offer = none)
          ∧ ((s.areaRec a).offer ≠ .stopped → (s.areaRec a).holder = .centre →
              offer = some (.olL, (s.areaRec a).offer.seconds))
          ∧ ((s.areaRec a).offer ≠ .stopped → (s.areaRec a).holder = .localPanel →
              offer = some (.olC, (s.areaRec a).offer.seconds))
          ∧ ((s.areaRec a).force = .stopped → force = none)
          ∧ ((s.areaRec a).force ≠ .stopped → force = some (s.areaRec a).force.seconds))
      ∧ (∀ e, ∃ flank track, s.indicationOf l (.element e) = .element (s.elem e) flank (s.drive e) (s.cmd e) track
          ∧ (s.flankRef e = none → flank = none)
          ∧ (∀ n f, s.flankRef e = some n → s.fctEntry n = some f → flank = some (n, f))
          ∧ (s.count e = none → track = none)
          ∧ ∀ c, s.count e = some c → ∃ v, track = some v ∧ v.count = c.count ∧ v.cause = c.cause ∧ v.sweep = c.sweep
              ∧ v.saturated = c.saturated
              ∧ v.points = c.points.filterMap fun p => (s.dp p.1).map fun (r : DpRec) => (p.1, r.state))
      ∧ (∀ i, s.live i = none → s.indicationOf l (.inst i) = .inst none)
      ∧ (∀ i r d, s.live i = some (r, d) → s.indicationOf l (.inst i) = .inst (some {
          route := r.route, origin := r.origin, state := r.state
          waiting := r.waiting.map fun w => (w, s.waitElem d w)
          flank := r.flank, acceptance := r.acceptance, causes := r.causes, releasePtr := r.releasePtr
          overlap := r.overlap, faultRec := r.faultRec }))
      ∧ (∀ b : BLink, ∃ v release, s.indicationOf l (.boundary b.val) = .boundary v
          ∧ v = { link := (s.blcAt b).link, direction := (s.blcAt b).direction, change := (s.blcAt b).change
                  isOpen := (s.blcAt b).isOpen, senior := (s.blcAt b).senior, used := (s.blcAt b).used
                  neighbourClear := (s.blcAt b).neighbourClear, lineClear := s.lineClear b
                  outAsks := (s.blcAt b).outAsks.map fun (a : OutAsk) => ⟨a.ref, a.inst⟩
                  outgoing := (s.blcAt b).outgoing, inAsks := (s.blcAt b).inAsks, incoming := (s.blcAt b).incoming
                  assurances := (s.blcAt b).assurances.map fun (a : Assurance) => (a.ref, a.inst, a.item, a.assured)
                  lostHoldings := (s.blcAt b).lostHoldings, release := release }
          ∧ ((s.blcAt b).release = .stopped → release = none)
          ∧ ((s.blcAt b).release ≠ .stopped → release = some (s.blcAt b).release.seconds))
      ∧ s.indicationOf l .store =
          .store (s.rqs.store.map fun (y : StoreEntry) => ⟨y.route, y.link, y.area, y.lifetime.seconds⟩)
            (s.rqs.removal.get .olC) (s.rqs.removal.get .olL)
      ∧ s.indicationOf l .aux = .aux ((s.olc.get l).aux.map fun (p : PendingAux) => (p.kind, p.object, p.window.seconds)))
  ∧ (∀ n : Nat, (n ≤ 10 * (Timer.running n).seconds ∧ 10 * (Timer.running n).seconds < n + 10)
      ∧ (n ≤ 10 * (Timer.frozen n).seconds ∧ 10 * (Timer.frozen n).seconds < n + 10))
  ∧ ∀ (s : State) (d : RouteDef),
      (∀ e, s.waitElem d (.point e) = e ∧ s.waitElem d (.track e) = e ∧ ∀ m, s.waitElem d (.flank m e) = e)
      ∧ s.waitElem d .direction = d.exit ∧ s.waitElem d .acceptance = d.exit
      ∧ (∀ m f t, d.flank[m - 1]? = some f → f.primary = .claim t → s.waitElem d (.asking m) = FlankTarget.elem t)
      ∧ ∀ m f b ref, d.flank[m - 1]? = some f → f.primary = .boundary b ref →
          s.waitElem d (.asking m) = s.boundaryElem b

/-- The order of R155, for each of the 23 rows that take a telegram: in CONFIG_FAULT every request is refused
NOT_CONFIGURED, and a SNAPSHOT marks part status; an unknown kind is refused NOT_PERMITTED; a number out of its range is
refused UNKNOWN_OBJECT (an AUX-CONFIRM and a PRESS too, before their owner looks at them: by inference, log entry 36).
The telegram is taken and nothing else changes. A request row changes nothing while the part is LOADING (log entry 34),
while the reply before waits for its transmitter, while an answer is held back, when no telegram waits, or when the
oldest telegram is of another kind (the model's choice, log entry 1); SET_ROUTE then still takes the link's request that
has waited in the RIM, where that is the oldest there (log entry 10). An answer waits for the transmitter with the
request's sequence number, and REFUSED is counted where it is a refusal code, and only there; an answer held back is
given so too, and the link holds none back then. -/
def Obligations.RequestsAreJudgedInTheOrderOfTheArrivalChecks : Prop :=
  ((∀ (c : Instr) (l : OpLink) (pick : Request → Bool) (s : State) (q : Word16) (r : Request) (code : Nat),
      rowTakes c = some (l, pick) → pick r = true → s.cfl.load = .configFault code → s.notices = [] →
      (s.olc.get l).reply = none → (s.olc.get l).held = none → (s.olc.get l).waiting.head? = some ⟨q, r⟩ →
      exec c s = .next (State.settleMarks s
        ((if r = .snapshot then (s.taken l).markAt l .partStatus else s.taken l).answer l q (.refused .notConfigured))))
    ∧ (∀ (c : Instr) (l : OpLink) (pick : Request → Bool) (s : State) (q : Word16) (r : Request),
      rowTakes c = some (l, pick) → pick r = true → s.Ready l q r → r.outOfRange = true →
      exec c s = .next ((s.taken l).answer l q (.refused .unknownObject)))
    ∧ ∀ (l : OpLink) (s : State) (q : Word16) (k : Byte), s.Ready l q (.unknown k) →
      exec (.unknownRequestKind l) s = .next ((s.taken l).answer l q (.refused .notPermitted)))
  ∧ (∀ (c : Instr) (l : OpLink) (pick : Request → Bool) (s : State), rowTakes c = some (l, pick) → s.notices = [] →
      (c = .setRoute l → s.takeWaitingRoute l = none) →
      (s.cfl.load = .loading ∨ (s.olc.get l).reply ≠ none ∨ (s.olc.get l).held ≠ none ∨ (s.olc.get l).waiting = []
        ∨ ∃ t, (s.olc.get l).waiting.head? = some t ∧ pick t.request = false) →
      exec c s = .next s)
  ∧ ∀ (s : State) (l : OpLink) (q : Word16),
      (∀ code, s.answer l q (.refused code) = { s with olc := s.olc.set l { s.olc.get l with
        reply := some (q, .refused code), refused := incCounter (s.olc.get l).refused } })
      ∧ (∀ b, (∀ code, b ≠ .refused code) →
        s.answer l q b = { s with olc := s.olc.set l { s.olc.get l with reply := some (q, b) } })
      ∧ ∀ b, s.answerHeld l q b =
        ({ s with olc := s.olc.set l { s.olc.get l with held := none } } : State).answer l q b

/-- READ_ROUTE answers the definition or UNKNOWN_OBJECT and changes nothing else; the answer is the same at any time
between two cold starts, since no other command but the LOAD_COMPLETE that ends loading writes the catalogue. -/
def Obligations.ReadRouteAnswersTheDefinition : Prop :=
  (∀ (s : State) (l : OpLink) (q : Word16) (n : Nat), s.Ready l q (.readRoute n) →
      (∀ d, n ≤ 511 → s.routeDef n = some d →
        exec (.readRoute l) s = .next ((s.taken l).answer l q (.acceptedDefinition d)))
      ∧ ((511 < n ∨ s.routeDef n = none) →
        exec (.readRoute l) s = .next ((s.taken l).answer l q (.refused .unknownObject))))
  ∧ ∀ (c : Instr) (s t : State), c ≠ .coldStart → s.cfl.load ≠ .loading → exec c s = .next t →
      t.rcat = s.rcat ∧ ∀ n, t.routeDef n = s.routeDef n

/-- READ_COUNTERS answers the counters as they stand, each by its field: GOOD, DISCARDED and REFUSED of the link,
CORRECTED, MISSED_EXCHANGES, the three of each boundary link, the six auxiliary counters; the link's own three,
CORRECTED, MISSED_EXCHANGES and the boundary links' counters return to 0, which marks each boundary whose counters
change; the auxiliary counters and the other link's counters stay. SNAPSHOT is answered ACCEPTED and marks every object
of the sending link's set: those in it keep their places, the others follow in the order part status, areas, configured
elements, instances, boundaries, store, pending operation. -/
def Obligations.ReadCountersAndSnapshot : Prop :=
  (∀ (s : State) (l : OpLink) (q : Word16), s.Ready l q .readCounters →
      ∃ t, exec (.readCounters l) s = .next t
        ∧ t.olc.get l = { s.olc.get l with
            waiting := (s.olc.get l).waiting.tail, reply := some (q, .acceptedCounters
              { good := (s.olc.get l).good, discarded := (s.olc.get l).discarded, refused := (s.olc.get l).refused
                corrected := s.lkc.corrected, missed := s.tbc.missed
                boundaries := [(s.blcAt 0).counts, (s.blcAt 1).counts, (s.blcAt 2).counts, (s.blcAt 3).counts]
                aou := s.aou.counters })
            good := SatCounter.zero, discarded := SatCounter.zero, refused := SatCounter.zero
            marks := (t.olc.get l).marks }
        ∧ t.olc.get (otherLink l) = { s.olc.get (otherLink l) with marks := (t.olc.get (otherLink l)).marks }
        ∧ (∀ k o, o ∈ (t.olc.get k).marks ↔
            o ∈ (s.olc.get k).marks ∨ ∃ b : BLink, o = .boundary b ∧ (s.blcAt b).counts ≠ ⟨0, 0, 0⟩)
        ∧ (∀ b, t.blcAt b = { s.blcAt b with counts := ⟨0, 0, 0⟩ })
        ∧ t = { s with lkc := { s.lkc with corrected := 0 }, tbc := { s.tbc with missed := 0 }, olc := t.olc, blc := t.blc })
  ∧ (∀ (s : State) (l : OpLink) (q : Word16), s.Ready l q .snapshot →
      ∃ t, exec (.snapshot l) s = .next t
        ∧ t.olc.get l = { s.olc.get l with
            waiting := (s.olc.get l).waiting.tail, reply := some (q, .accepted)
            marks := (s.olc.get l).marks
              ++ (snapshotObjects s.configured).filter fun o => !(s.olc.get l).marks.contains o }
        ∧ t.olc.get (otherLink l) = s.olc.get (otherLink l)
        ∧ t = { s with olc := t.olc })

/-! ### Authority and auxiliary operations -/

/-- The four rows of AUTH-TAKE; an area number above 15 is refused UNKNOWN_OBJECT. AUTH-OFFER starts or restarts the
offer timer at 30.0 s, AUTH-RETURN leaves the area without holder; from CENTRE while the area is FORCING either makes
LOCAL the holder; from a link that is not the holder either is refused NO_AUTHORITY. A link has authority over an area
it is the holder of, OL-C as CENTRE and OL-L as LOCAL, and over an element by its area. -/
def Obligations.AuthRequestsByTheHolderOfTheArea : Prop :=
  (∀ (s : State) (l : OpLink) (q : Word16) (a : Nat), 15 < a →
      (s.Ready l q (.authTake a) → exec (.authTake l) s = .next ((s.taken l).answer l q (.refused .unknownObject)))
      ∧ (s.Ready l q (.authOffer a) → exec (.authOffer l) s = .next ((s.taken l).answer l q (.refused .unknownObject)))
      ∧ (s.Ready l q (.authReturn a) →
        exec (.authReturn l) s = .next ((s.taken l).answer l q (.refused .unknownObject))))
  ∧ (∀ (s : State) (l : OpLink) (q : Word16) (a : Nat), s.Ready l q (.authTake a) → a ≤ 15 →
      ((s.areaRec a).holder = .none →
        exec (.authTake l) s = .next (State.settleMarks s
          (((s.taken l).changeHolder a (holderOf l)).answer l q .accepted)))
      ∧ ((s.areaRec a).holder = holderOf l → exec (.authTake l) s = .next ((s.taken l).answer l q .accepted))
      ∧ ((s.areaRec a).holder = holderOf (otherLink l) → (s.areaRec a).offer ≠ .stopped →
        exec (.authTake l) s = .next (State.settleMarks s
          ((((s.taken l).putArea a { s.areaRec a with force := .stopped }).changeHolder a (holderOf l)).answer l q .accepted)))
      ∧ ((s.areaRec a).holder = holderOf (otherLink l) → (s.areaRec a).offer = .stopped →
        exec (.authTake l) s = .next ((s.taken l).answer l q (.refused .heldByOther))))
  ∧ (∀ (s : State) (l : OpLink) (q : Word16) (a : Nat), a ≤ 15 →
      (s.Ready l q (.authOffer a) →
        ((s.areaRec a).holder ≠ holderOf l →
          exec (.authOffer l) s = .next ((s.taken l).answer l q (.refused .noAuthority)))
        ∧ ((s.areaRec a).holder = holderOf l → (s.areaRec a).force = .stopped →
          exec (.authOffer l) s = .next (State.settleMarks s
            (((s.taken l).putArea a { s.areaRec a with offer := .running 300 }).answer l q .accepted)))
        ∧ ((s.areaRec a).holder = holderOf l → (s.areaRec a).force ≠ .stopped →
          exec (.authOffer l) s = .next (State.settleMarks s
            (((s.taken l).changeHolder a .localPanel).answer l q .accepted))))
      ∧ (s.Ready l q (.authReturn a) →
        ((s.areaRec a).holder ≠ holderOf l →
          exec (.authReturn l) s = .next ((s.taken l).answer l q (.refused .noAuthority)))
        ∧ ((s.areaRec a).holder = holderOf l → (s.areaRec a).force = .stopped →
          exec (.authReturn l) s = .next (State.settleMarks s
            (((s.taken l).changeHolder a .none).answer l q .accepted)))
        ∧ ((s.areaRec a).holder = holderOf l → (s.areaRec a).force ≠ .stopped →
          exec (.authReturn l) s = .next (State.settleMarks s
            (((s.taken l).changeHolder a .localPanel).answer l q .accepted)))))
  ∧ (∀ (s : State) (l : OpLink) (a : Nat), s.holdsArea l a = true ↔ a < 16 ∧ (s.areaRec a).holder = holderOf l)
  ∧ (∀ (s : State) (l : OpLink) (e : Nat), s.holdsElem l e = true ↔ ∃ a, (s.elem e).area? = some a ∧ s.holdsArea l a = true)
  ∧ holderOf .olC = .centre ∧ holderOf .olL = .localPanel

/-- A change of holder: the record takes the new holder without offer, and FORCING ends unless the new holder is CENTRE,
which marks the area where its record changes; the old holder's stored entries of the area that are not lifted leave, in
the order of the store, which marks the store where one leaves, and the removal record of the youngest one remains (the
model's choice, log entry 49); its press selection is cleared if the signal lies in the area, which marks its part
status; nothing else changes, and no other area. -/
def Obligations.AChangeOfHolderDropsTheOldHoldersWork : Prop :=
  ∀ (s : State) (a : Nat) (new : Holder), a ≤ 15 → (s.rqs.store.map StoreEntry.route).Nodup →
    let t := s.changeHolder a new
    let r : Area := ⟨new, .stopped, if new = .centre then (s.areaRec a).force else .stopped⟩
    t.areaRec a = r ∧ (∀ x, x ≠ a → t.areaRec x = s.areaRec x)
      ∧ (∀ l, linkOf (s.areaRec a).holder = some l →
          let leaves := s.rqs.store.filter fun e => e.link == l && e.area == a && !e.lifted
          let selected := (s.rim.sel.get l).any fun v => (s.elem v.signal).area? == some a
          t.rqs = { s.rqs with
              store := s.rqs.store.filter fun e => !(e.link == l && e.area == a && !e.lifted)
              removal := match leaves.getLast? with
                | none => s.rqs.removal
                | some e => s.rqs.removal.set l (some ⟨e.route, .authorityLost⟩) }
            ∧ t.rim = { s.rim with sel := if selected then s.rim.sel.set l none else s.rim.sel }
            ∧ ∀ k o, o ∈ (t.olc.get k).marks ↔ o ∈ (s.olc.get k).marks ∨ (o = .area a ∧ s.areaRec a ≠ r)
                ∨ (o = .store ∧ leaves ≠ []) ∨ (o = .partStatus ∧ k = l ∧ selected = true))
      ∧ ((s.areaRec a).holder = .none → t.rqs = s.rqs ∧ t.rim = s.rim
          ∧ ∀ k o, o ∈ (t.olc.get k).marks ↔ o ∈ (s.olc.get k).marks ∨ (o = .area a ∧ s.areaRec a ≠ r))
      ∧ t = { s with aum := t.aum, rqs := t.rqs, rim := t.rim, olc := t.olc }
      ∧ ∀ l, t.olc.get l = { s.olc.get l with marks := (t.olc.get l).marks }

/-- The expiry of the four timers of requests: an offer is removed and the holder stays; a force makes LOCAL the holder;
a window ends the pending auxiliary operation; a selection is cleared. A timer that does not run changes nothing (the
model's choice, log entry 1). -/
def Obligations.RequestTimersEndWhatTheyTime : Prop :=
  (∀ (s : State) (a : Nat), s.notices = [] →
    ((s.areaRec a).offer.isRunning = true → exec (.offerTimerExpiry a) s =
      .next (State.settleMarks s (s.putArea a { s.areaRec a with offer := .stopped })))
    ∧ ((s.areaRec a).offer.isRunning = false → exec (.offerTimerExpiry a) s = .next s)
    ∧ ((s.areaRec a).force.isRunning = true → exec (.forceTimerExpiry a) s =
      .next (State.settleMarks s (s.changeHolder a .localPanel)))
    ∧ ((s.areaRec a).force.isRunning = false → exec (.forceTimerExpiry a) s = .next s))
  ∧ ∀ (s : State) (l : OpLink), s.notices = [] →
    (∀ p, (s.olc.get l).aux = some p → p.window.isRunning = true → exec (.auxWindowExpiry l) s =
      .next (State.settleMarks s ((s.modOlc l fun c => { c with aux := none }).markAt l .aux)))
    ∧ ((s.olc.get l).aux = none → exec (.auxWindowExpiry l) s = .next s)
    ∧ (∀ v, s.rim.sel.get l = some v → v.timer.isRunning = true → exec (.selectionTimerExpiry l) s =
      .next (State.settleMarks s
        (({ s with rim := { s.rim with sel := s.rim.sel.set l none } } : State).markAt l .partStatus)))
    ∧ (s.rim.sel.get l = none → exec (.selectionTimerExpiry l) s = .next s)

/-- AUX-ISSUE by the order of its checks; one that passes becomes the link's pending operation with a window of 20.0 s,
and a refused one leaves the pending operation as it was. Its object, the authority it needs and its owner's
preconditions, one row for each of the five kinds. An instance lists an element while an item of its definition that
names it is not released (by inference, log entry 12), on which the readiness of SUSPECT-CLEAR and the last clause rest.
The lists: an item is open from the release pointer on while the path is not released; an overlap is held while LOCKED
or TIMING; a point is locked by an open item or the held overlap; a flank item stands on the element its chosen target
names while it is CLAIMED and the item it protects is open. -/
def Obligations.AuxIssueByItsChecks : Prop :=
  (∀ (s : State) (l : OpLink) (q : Word16) (k o : Nat), s.Ready l q (.auxIssue k o) →
    ((auxKindOf k = none ∨ (auxKindOf k = some .authForce ∧ l = .olC)) →
      exec (.auxIssue l) s = .next ((s.taken l).answer l q (.refused .notPermitted)))
    ∧ ∀ kind, auxKindOf k = some kind → (kind = .authForce → l = .olL) →
      (s.auxKnown kind o = false → exec (.auxIssue l) s = .next ((s.taken l).answer l q (.refused .unknownObject)))
      ∧ (s.auxKnown kind o = true → s.auxAllowed l kind o = false →
        exec (.auxIssue l) s = .next ((s.taken l).answer l q (.refused .noAuthority)))
      ∧ (s.auxKnown kind o = true → s.auxAllowed l kind o = true → s.auxReady kind o = false →
        exec (.auxIssue l) s = .next ((s.taken l).answer l q (.refused .wrongState)))
      ∧ (s.auxKnown kind o = true → s.auxAllowed l kind o = true → s.auxReady kind o = true →
        exec (.auxIssue l) s = .next (State.settleMarks s
          (((s.taken l).putAux l (some ⟨kind, o, .running 200, false⟩)).answer l q .accepted))))
  ∧ (∀ k, (auxKindOf k = some .emergencyRelease ↔ k = 1) ∧ (auxKindOf k = some .sectionReset ↔ k = 2)
    ∧ (auxKindOf k = some .suspectClear ↔ k = 3) ∧ (auxKindOf k = some .authForce ↔ k = 4)
    ∧ (auxKindOf k = some .boundaryRelease ↔ k = 5))
  ∧ (∀ (s : State) (o : Nat),
    (s.auxKnown .emergencyRelease o = true ↔ o < 48)
    ∧ (s.auxKnown .sectionReset o = true ↔ ∃ t, s.track? o = some t)
    ∧ (s.auxKnown .suspectClear o = true ↔ s.elem o ≠ .unconfigured)
    ∧ (s.auxKnown .authForce o = true ↔ o < 16)
    ∧ (s.auxKnown .boundaryRelease o = true ↔ ∃ b, s.boundary? o = some b))
  ∧ (∀ (s : State) (l : OpLink) (o : Nat),
    (s.live o = none → s.auxAllowed l .emergencyRelease o = true)
    ∧ (∀ r d, s.live o = some (r, d) → s.auxAllowed l .emergencyRelease o = s.holdsElem l d.entry)
    ∧ s.auxAllowed l .sectionReset o = s.holdsElem l o
    ∧ s.auxAllowed l .suspectClear o = s.holdsElem l o
    ∧ s.auxAllowed l .authForce o = true
    ∧ s.auxAllowed l .boundaryRelease o = s.holdsElem l o)
  ∧ (∀ (s : State) (o : Nat),
    (s.auxReady .emergencyRelease o = true ↔ ∃ r, s.inst o = some r
      ∧ (r.state = .inUse ∨ r.state = .seqFault ∨ r.state = .held ∨ r.state = .cancelling))
    ∧ (s.auxReady .sectionReset o = true ↔ ∃ t c, s.track? o = some t ∧ s.count o = some c
      ∧ (c.state = .disturbed ∨ (c.state = .occupied ∧ c.saturated = true))
      ∧ (∀ p ∈ c.points, ∃ r, s.dp p.1 = some r ∧ r.state = .normal)
      ∧ ∀ i role r, t.lock = .held i role → s.inst i = some r → r.state ≠ .clearing ∧ r.state ≠ .cleared)
    ∧ (s.auxReady .suspectClear o = true ↔ (s.elem o).isSuspect = true
      ∧ (∀ i r d, s.live i = some (r, d) → r.lists d o = false) ∧ s.flankRef o = none)
    ∧ (s.auxReady .authForce o = true ↔ (s.areaRec o).holder = .centre ∧ (s.areaRec o).force = .stopped)
    ∧ (s.auxReady .boundaryRelease o = true ↔ ∃ b, s.boundary? o = some b ∧ (s.blcAt b.link).link = .down
      ∧ (s.blcAt b.link).lostHoldings = true ∧ (s.blcAt b.link).release = .stopped))
  ∧ (∀ (r : Inst) (d : RouteDef) (e : Nat),
    (∀ k, r.unreleased k = true ↔ r.releasePtr ≤ k ∧ r.pathReleased = false)
    ∧ (∀ it, it ∈ r.openItems d ↔ ∃ k, 1 ≤ k ∧ d.path[k - 1]? = some it ∧ r.unreleased k = true)
    ∧ (r.overlapHeld = true ↔ r.overlap = .locked ∨ r.overlap = .timing)
    ∧ (r.locksPoint d e = true ↔ (∃ it ∈ r.openItems d, ∃ x ∈ it.points, x.point = e)
      ∨ (r.overlapHeld = true ∧ ∃ it, d.overlap = some it ∧ ∃ x ∈ it.points, x.point = e))
    ∧ ∀ m, m ∈ r.flankOn d e ↔ 1 ≤ m ∧ ∃ f c t, d.flank[m - 1]? = some f ∧ r.flank[m - 1]? = some c
      ∧ c.status = .claimed ∧ r.unreleased f.protects = true ∧ chosenTarget f c.alternative = some t
      ∧ FlankTarget.elem t = e)
  ∧ ∀ (r : Inst) (d : RouteDef) (e : Nat), r.lists d e = true ↔
    (d.entry = e ∧ r.unreleased 1 = true) ∨ (d.exit = e ∧ r.unreleased d.path.length = true)
    ∨ (∃ it ∈ r.openItems d, it.sect = e) ∨ r.locksPoint d e = true
    ∨ (r.overlapHeld = true ∧ overlapSect d = some e) ∨ r.flankOn d e ≠ []

/-- The rows of AUX-CONFIRM: in every one the pending operation is none afterwards; the operation is executed and
counted exactly when the recheck passes. Each counted operation brings a write of the counters, at 65535 too (the
model's choice, log entry 55). An object that is in range but unknown or of the wrong kind is no pending operation's, so
the row that finds none takes it (the model's choice, log entry 59). Counting puts the kind's own counter up by one and
leaves the other five; the six are handed to the CFL and written, or written once more where a write is in flight. -/
def Obligations.AuxConfirmByItsRows : Prop :=
  (∀ (s : State) (l : OpLink) (q : Word16) (k o : Nat), s.Ready l q (.auxConfirm k o) →
    Request.outOfRange (.auxConfirm k o) = false →
    ((s.olc.get l).aux = none → exec (.auxConfirm l) s = .next ((s.taken l).answer l q (.refused .noPending)))
    ∧ ∀ p, (s.olc.get l).aux = some p →
      ((auxKindOf k ≠ some p.kind ∨ o ≠ p.object) → exec (.auxConfirm l) s = .next (State.settleMarks s
        (((s.taken l).putAux l none).answer l q (.refused .noPending))))
      ∧ (auxKindOf k = some p.kind → o = p.object → s.auxAllowed l p.kind o = false →
        exec (.auxConfirm l) s = .next (State.settleMarks s
          (((s.taken l).putAux l none).answer l q (.refused .noAuthority))))
      ∧ (auxKindOf k = some p.kind → o = p.object → s.auxAllowed l p.kind o = true →
        (p.broken = true ∨ s.auxReady p.kind o = false) →
        exec (.auxConfirm l) s = .next (State.settleMarks s
          (((s.taken l).putAux l none).answer l q (.refused .wrongState))))
      ∧ (auxKindOf k = some p.kind → o = p.object → s.auxAllowed l p.kind o = true → p.broken = false →
        s.auxReady p.kind o = true →
        exec (.auxConfirm l) s = .next (State.finish s
            (((((s.taken l).putAux l none).executeAux p.kind o).countOp p.kind).answer l q .accepted))
          ∧ ∃ t, exec (.auxConfirm l) s = .next t ∧ t.aou = { s.aou with counters := countAux s.aou.counters p.kind }
            ∧ (s.cfl.writing = true → t.cfl = { s.cfl with writeAgain := true })
            ∧ (s.cfl.writing = false → t.cfl = { s.cfl with
                counterImage := countAux s.aou.counters p.kind, writing := true, writeAgain := false })
            ∧ (t.olc.get l).aux = none ∧ (t.olc.get l).reply = some (q, .accepted)))
  ∧ (∀ c : AouCounters,
      countAux c .emergencyRelease = { c with emergencyRelease := incCounter c.emergencyRelease }
      ∧ countAux c .sectionReset = { c with sectionReset := incCounter c.sectionReset }
      ∧ countAux c .suspectClear = { c with suspectClear := incCounter c.suspectClear }
      ∧ countAux c .authForce = { c with authForce := incCounter c.authForce }
      ∧ countAux c .boundaryRelease = { c with boundaryRelease := incCounter c.boundaryRelease })
  ∧ ∀ (s : State) (k : AuxKind),
      let n := countAux s.aou.counters k
      (s.cfl.writing = true → s.countOp k = { s with
        aou := { s.aou with counters := n }, cfl := { s.cfl with writeAgain := true } })
      ∧ (s.cfl.writing = false → s.countOp k = { s with
        aou := { s.aou with counters := n }, cfl := { s.cfl with counterImage := n, writing := true, writeAgain := false }
        out := s.out ++ [.counters n] })

/-- What the five operations do: EMERGENCY for 120.0 s with every other timer stopped; a section RESET_PENDING with
count 0; a suspect record of any kind rebuilt from its defaults (a section's occupancy from the axle counter), marked,
and the release notice sent; FORCING for 30.0 s; a release timer of 120.0 s. The release notice sets the rerun flag of a
retest pass that runs; else it starts one that presents the oldest stored entry, or with an empty store does nothing. -/
def Obligations.AuxiliaryOperationsTakeEffect : Prop :=
  (∀ (s : State) (i : Nat) (r : Inst), s.inst i = some r →
    (s.executeAux .emergencyRelease i).inst i = some { r with
      state := .emergency, emergency := .running 1200, setting := .stopped, approach := .stopped, overlapTimer := .stopped })
  ∧ (∀ (s : State) (e : Nat) (c : SectCount), s.count e = some c →
    (s.executeAux .sectionReset e).count e = some { c with
      count := 0, state := .resetPending, cause := none, deficitAge := 0, sweep := false, saturated := false }
    ∧ ∀ t, s.track? e = some t →
        ∃ t', (s.executeAux .sectionReset e).track? e = some t' ∧ t'.occupancy = .resetPending ∧ t'.lock = t.lock)
  ∧ (∀ (s : State) (e : Nat), s.elem e ≠ .unconfigured →
    ((s.executeAux .suspectClear e).elem e).isSuspect = false
      ∧ ((s.executeAux .suspectClear e).elem e).block? = (s.elem e).block?.map (fun _ => false)
      ∧ (∀ p, s.point? e = some p → (s.executeAux .suspectClear e).point? e = some { p with
          detection := .unknown, localMode := false, failed := false, next := none, lock := .empty, flankRef := none
          block := false, suspect := false })
      ∧ (∀ g, s.signal? e = some g → (s.executeAux .suspectClear e).signal? e = some { g with
          shown := .unknown, commanded := .stop, lampFault := false, failed := false, entrySlot := .empty
          exitSlot := .empty, flankRef := none, block := false, suspect := false })
      ∧ (∀ k c, s.track? e = some k → s.count e = some c → (s.executeAux .suspectClear e).track? e = some { k with
          occupancy := c.state, lock := .empty, block := false, suspect := false })
      ∧ (∀ b, s.boundary? e = some b → (s.executeAux .suspectClear e).boundary? e = some { b with
          entrySlot := .empty, exitSlot := .empty, suspect := false })
      ∧ (∀ x, x ≠ e → (s.executeAux .suspectClear e).elem x = s.elem x)
      ∧ ((s.elem e).isSuspect = true → ∀ l, .element e ∈ ((s.executeAux .suspectClear e).olc.get l).marks)
      ∧ (s.rqs.running = true → (s.executeAux .suspectClear e).rqs = { s.rqs with rerun := true })
      ∧ (s.rqs.running = false → s.rqs.store = [] → (s.executeAux .suspectClear e).rqs = s.rqs)
      ∧ ∀ y rest, s.rqs.running = false → s.rqs.store = y :: rest →
        (s.executeAux .suspectClear e).rqs.running = true
          ∧ (s.executeAux .suspectClear e).rim = { s.rim with requests := s.rim.requests ++ [.retest y.route] })
  ∧ (∀ (s : State) (a : Nat), a ≤ 15 → (s.executeAux .authForce a).areaRec a = { s.areaRec a with force := .running 300 })
  ∧ ∀ (s : State) (e : Nat) (r : BoundaryRec), s.boundary? e = some r →
    (s.executeAux .boundaryRelease e).blcAt r.link = { s.blcAt r.link with release := .running 1200 }

/-! ### Route requests -/

/-- SET_ROUTE in the order of its six checks. A stack lifetime of 0 takes the configured one, one above 600 s is 600 s,
any other is itself. The OLC makes the first two as it takes the request, and answers one that fails either at once,
whatever waits in the RIM. One that passes is taken by the RIM at once where no route request waits there, by the other
four. Where one does, the request joins those that wait, in the order they reached the RIM, and its reply is held back;
once it is the oldest there SET_ROUTE takes it, by the other four checks alone, and its reply waits for the transmitter
(the waiting in the RIM is the model's choice, log entry 10). Authority is judged again at the hand-off to the store
alone. -/
def Obligations.SetRouteByItsChecks : Prop :=
  (∀ (s : State) (l : OpLink) (q : Word16) (e x n : Nat) (f : Bool), s.Ready l q (.setRoute e x f n) → e ≤ 255 → x ≤ 255 →
    ((s.signal? e = none ∨ s.isEnd x = false) →
      exec (.setRoute l) s = .next ((s.taken l).answer l q (.refused .unknownObject)))
    ∧ ∀ g, s.signal? e = some g → s.isEnd x = true →
      (s.holdsArea l g.area = false → exec (.setRoute l) s = .next ((s.taken l).answer l q (.refused .noAuthority)))
      ∧ (s.holdsArea l g.area = true → s.rim.requests ≠ [] →
        exec (.setRoute l) s = .next (({ s with rim := { s.rim with
            requests := s.rim.requests ++ [.setRoute l q e x f n] } } : State).modOlc l fun c =>
          { c with waiting := c.waiting.tail, held := some q }))
      ∧ (s.holdsArea l g.area = true → s.rim.requests = [] →
        exec (.setRoute l) s = .next (State.finish s (((s.taken l).rimRoute l e x f n).1.answer l q
            ((s.taken l).rimRoute l e x f n).2))
        ∧ (s.rankOne e x = none → exec (.setRoute l) s = .next ((s.taken l).answer l q (.refused .noRoute)))
        ∧ ∀ one, s.rankOne e x = some one →
          ((s.storeEntry one).isSome = true →
            exec (.setRoute l) s = .next ((s.taken l).answer l q (.refused .duplicate)))
          ∧ ((s.storeEntry one).isSome = false →
            (∀ i d t, (s.taken l).tryRoute (.op l) (s.variants e x) = .reserved i d t →
              exec (.setRoute l) s = .next (State.finish s ((t.checkWaiting i).answer l q (.acceptedRoute i d.number))))
            ∧ ((s.taken l).tryRoute (.op l) (s.variants e x) = .noInstance → f = false →
              exec (.setRoute l) s = .next ((s.taken l).answer l q (.refused .noInstance)))
            ∧ (∀ b, (s.taken l).tryRoute (.op l) (s.variants e x) = .blocked b → f = false →
              exec (.setRoute l) s = .next ((s.taken l).answer l q (.refused (.unavailable b))))
            ∧ (((s.taken l).tryRoute (.op l) (s.variants e x) = .noInstance
                ∨ ∃ b, (s.taken l).tryRoute (.op l) (s.variants e x) = .blocked b) → f = true →
              ((s.rqs.store.filter fun y => y.link == l).length < 8 →
                exec (.setRoute l) s = .next (State.settleMarks s
                  ((({ s.taken l with rqs := { s.rqs with store := s.rqs.store ++
                      [(⟨one, l, g.area, .running (s.lifetimeOf n), false, false, false, false, none⟩ : StoreEntry)] } }
                    : State).mark .store).answer l q .stored)))
              ∧ (8 ≤ (s.rqs.store.filter fun y => y.link == l).length →
                exec (.setRoute l) s = .next ((s.taken l).answer l q (.refused .storeFull)))))))
  ∧ (∀ (s : State) (l : OpLink) (q : Word16) (e x n : Nat) (f : Bool) (rest : List RouteRequest),
    s.rim.requests = .setRoute l q e x f n :: rest → (s.olc.get l).held = some q →
    let s0 : State := { s with rim := { s.rim with requests := rest } }
    exec (.setRoute l) s = .next (State.finish s ((s0.rimRoute l e x f n).1.answerHeld l q (s0.rimRoute l e x f n).2))
      ∧ ∃ t, exec (.setRoute l) s = .next t ∧ (t.olc.get l).held = none
        ∧ (t.olc.get l).reply = some (q, (s0.rimRoute l e x f n).2))
  ∧ (∀ (s : State) (l : OpLink) (e x n : Nat) (f : Bool),
    (s.rankOne e x = none → s.rimRoute l e x f n = (s, .refused .noRoute))
    ∧ ∀ one, s.rankOne e x = some one →
      ((s.storeEntry one).isSome = true → s.rimRoute l e x f n = (s, .refused .duplicate))
      ∧ ((s.storeEntry one).isSome = false →
        (∀ i d t, s.tryRoute (.op l) (s.variants e x) = .reserved i d t →
          s.rimRoute l e x f n = (t.checkWaiting i, .acceptedRoute i d.number))
        ∧ (s.tryRoute (.op l) (s.variants e x) = .noInstance → f = false →
          s.rimRoute l e x f n = (s, .refused .noInstance))
        ∧ (∀ b, s.tryRoute (.op l) (s.variants e x) = .blocked b → f = false →
          s.rimRoute l e x f n = (s, .refused (.unavailable b)))
        ∧ ∀ g, (s.tryRoute (.op l) (s.variants e x) = .noInstance ∨ ∃ b, s.tryRoute (.op l) (s.variants e x) = .blocked b) →
          f = true → s.signal? e = some g →
          s.rimRoute l e x f n = s.handOff l one g.area (s.lifetimeOf n)))
  ∧ (∀ (s : State) (n : Nat), (n = 0 → s.lifetimeOf n = s.cfl.stackLifetime)
    ∧ (1 ≤ n → n ≤ 600 → s.lifetimeOf n = 10 * n) ∧ (600 < n → s.lifetimeOf n = 6000))
  ∧ ∀ (s : State) (l : OpLink) (one a n : Nat), (s.storeEntry one).isSome = false →
    (s.holdsArea l a = false → s.handOff l one a n = (s, .refused .noAuthority))
    ∧ (s.holdsArea l a = true → 8 ≤ (s.rqs.store.filter fun y => y.link == l).length →
      s.handOff l one a n = (s, .refused .storeFull))
    ∧ (s.holdsArea l a = true → (s.rqs.store.filter fun y => y.link == l).length < 8 → s.handOff l one a n =
      (({ s with rqs := { s.rqs with store := s.rqs.store ++
          [(⟨one, l, a, .running n, false, false, false, false, none⟩ : StoreEntry)] } } : State).mark .store, .stored))

/-- The choice of a variant: the lowest free record takes the first variant, in the order given, whose reservation
passes, and it is LOCKING with the setting timer running; when every one is blocked the element named is that which
blocked the first, and when no record is free none is tried. A reservation tests the entry, the exit, the path items
with their points, the overlap with its points, then the flank items; the first that fails is the element named, and
with none it passes. It is blocked without a state of its own: the next variant, and what follows the trial, go on from
the state as it was. The conditions of each item, with the overlap lock that a path item takes over. The variants of an
entry and an exit are their definitions that are not BOUNDARY_IN, in ascending rank; the one of rank 1 names the pair in
the store; an entry element is the entry of such a definition. -/
def Obligations.TheFirstVariantThatReservesIsChosen : Prop :=
  (∀ (s : State) (e x : Nat),
    (∀ d, d ∈ s.variants e x ↔ d ∈ s.rcat ∧ d.entry = e ∧ d.exit = x ∧ d.cls ≠ .boundaryIn ∧ 1 ≤ d.rank ∧ d.rank ≤ 4)
    ∧ (s.variants e x).Pairwise (fun a b => a.rank ≤ b.rank)
    ∧ (s.rankOne e x = none ↔ ∀ d ∈ s.variants e x, d.rank ≠ 1)
    ∧ (∀ n, s.rankOne e x = some n → ∃ d ∈ s.variants e x, d.rank = 1 ∧ d.number = n)
    ∧ (s.isEntry e = true ↔ ∃ d ∈ s.rcat, d.entry = e ∧ d.cls ≠ .boundaryIn))
  ∧ ∀ (s : State) (o : Origin) (ds : List RouteDef),
    (s.tryRoute o ds = .noInstance ↔ ∀ i, i < 48 → s.inst i ≠ none)
    ∧ (∀ i d t, s.tryRoute o ds = .reserved i d t → i < 48 ∧ s.inst i = none ∧ (∀ j, j < i → s.inst j ≠ none)
        ∧ ∃ pre post r, ds = pre ++ d :: post ∧ (∀ p ∈ pre, ∃ e, s.reserve i p = .error e)
          ∧ s.reserve i d = .ok r ∧ t = r.state.putInst i (some (newInst o d r s.cfl.settingTime))
          ∧ t.inst i = some (newInst o d r s.cfl.settingTime)
          ∧ (newInst o d r s.cfl.settingTime).state = .locking
          ∧ (newInst o d r s.cfl.settingTime).setting = .running s.cfl.settingTime
          ∧ (newInst o d r s.cfl.settingTime).releasePtr = 1 ∧ (newInst o d r s.cfl.settingTime).highest = 0
          ∧ (newInst o d r s.cfl.settingTime).causes = []
          ∧ (newInst o d r s.cfl.settingTime).waiting = r.waiting ∧ (newInst o d r s.cfl.settingTime).flank = r.flank
          ∧ (newInst o d r s.cfl.settingTime).route = d.number ∧ (newInst o d r s.cfl.settingTime).origin = o)
    ∧ (∀ d ds' e, ds = d :: ds' → s.tryRoute o ds = .blocked e →
        ∃ i, s.inst i = none ∧ s.reserve i d = .error e ∧ ∀ p ∈ ds', ∃ e', s.reserve i p = .error e')
    ∧ (∀ (i : Nat) (d : RouteDef),
      let items := [(d.entry, s.entryItemOk d), (d.exit, s.exitItemOk d)]
        ++ (indexedPath d).flatMap (fun p => (p.2.sect, s.sectionItemOk d true (shuntLast d p.1) p.2.sect)
            :: p.2.points.map fun r => (r.point, s.pointItemOk d true r))
        ++ d.overlap.toList.flatMap (fun it => (it.sect, s.sectionItemOk d false false it.sect)
            :: it.points.map fun r => (r.point, s.pointItemOk d false r))
      (∀ e, items.find? (fun p => !p.2) = some (e, false) → s.reserve i d = .error e)
      ∧ ((∀ p ∈ items, p.2 = true) →
        (∀ e, s.chooseAll [] d.flank = .error e → s.reserve i d = .error e)
        ∧ ∀ c, s.chooseAll [] d.flank = .ok c → s.reserve i d = .ok (s.applyReservation i d c)))
    ∧ (∀ (chosen : List FlankTarget) (f : FlankItem) (l : List FlankItem),
      s.chooseAll chosen [] = .ok []
      ∧ (s.chooseFlank chosen f = none → s.chooseAll chosen (f :: l) = .error (s.primaryElem f.primary))
      ∧ ∀ c, s.chooseFlank chosen f = some c →
        (∀ e, s.chooseAll (chosen ++ c.2.toList) l = .error e → s.chooseAll chosen (f :: l) = .error e)
        ∧ ∀ r, s.chooseAll (chosen ++ c.2.toList) l = .ok r → s.chooseAll chosen (f :: l) = .ok (c :: r))
    ∧ ∀ (d : RouteDef),
      (∀ inPath last e, s.sectionItemOk d inPath last e = true ↔
        ∃ t, s.track? e = some t ∧ (t.lock = .empty ∨ (inPath = true ∧ ∃ j, s.sectionTransfer d t = some j))
          ∧ t.block = false ∧ t.suspect = false ∧ (t.occupancy = .clear ∨ (last = true ∧ t.occupancy = .occupied)))
      ∧ (∀ k, shuntLast d k = true ↔ d.cls = .shunt ∧ k = d.path.length)
      ∧ (∀ inPath x, s.pointItemOk d inPath x = true ↔
        ∃ p, s.point? x.point = some p ∧ (p.lock = .empty ∨ (inPath = true ∧ ∃ j, s.pointTransfer d p x.pos = some j))
          ∧ (p.flankRef = none ∨ ∃ f, s.claim? p.flankRef = some f ∧ f.required = .pos x.pos)
          ∧ p.failed = false ∧ p.localMode = false ∧ p.suspect = false
          ∧ (p.detection = detectionOf x.pos ∨ (p.block = false
            ∧ ∀ c ∈ p.containing, ∃ t, s.track? c = some t ∧ t.occupancy = .clear ∧ t.block = false)))
      ∧ (∀ t j, s.sectionTransfer d t = some j ↔ t.lock = .held j .overlap
        ∧ ∃ r c, s.live j = some (r, c) ∧ c.exit = d.entry ∧ (r.state = .cleared ∨ r.state = .inUse))
      ∧ (∀ p q j, s.pointTransfer d p q = some j ↔ p.lock = .held j .overlap q
        ∧ ∃ r c, s.live j = some (r, c) ∧ c.exit = d.entry ∧ (r.state = .cleared ∨ r.state = .inUse))
      ∧ (∀ g, s.signal? d.entry = some g → (s.entryItemOk d = true ↔
        g.entrySlot = .empty ∧ g.flankRef = none ∧ g.block = false ∧ g.failed = false ∧ g.suspect = false))
      ∧ (∀ b, s.boundary? d.entry = some b → (s.entryItemOk d = true ↔ b.entrySlot = .empty))
      ∧ (s.signal? d.entry = none → s.boundary? d.entry = none → s.entryItemOk d = false)
      ∧ (∀ g, s.signal? d.exit = some g → (s.exitItemOk d = true ↔ g.exitSlot = .empty))
      ∧ (∀ b, s.boundary? d.exit = some b → (s.exitItemOk d = true ↔ b.exitSlot = .empty ∧ (s.blcAt b.link).link ≠ .down
          ∧ (s.blcAt b.link).isOpen = true ∧ ((s.blcAt b.link).direction = .outward ∨ s.lineClear b.link = true)))
      ∧ (s.signal? d.exit = none → s.boundary? d.exit = none → s.exitItemOk d = false)

/-- A reservation that passes locks every item for the instance, which held none before: its path sections and points
with role PATH, the overlap's with role OVERLAP, and the ENTRY and EXIT slots; and every flank item it chose a claim for
has the instance among the claimants of its element's entry, which requires the item's state (where no flank reference
names a free entry). The claim conditions on a point and on a signal, with the neighbour's rows; an alternative is the
primary, else the first substitute that passes. A claim taken takes the lowest free entry, or joins the element's, and
marks the element. The other effects, in the order of R11: the ENTRY and EXIT slots; the items locked, each lock with
its role and position and no other record; the rest of a transferred overlap released, with a release notice where
something was emptied and OVERLAP_TRANSFERRED to its old owner; the claims; a throw request for each point out of
position, a transferred one too (by inference, log entry 23), in item order (the model's choice, log entry 58); the
direction request of a BOUNDARY_OUT route whose direction is not OUT; and a FLANK-ASK for each BOUNDARY item chosen, in
item order, sent in UP with its response timer running, held back in SYNC, and reported in DOWN (R181). The outstanding
list in item order, with one entry at each flank item (the model's choice, log entry 43). A late substitution claims the
first substitute that passes, throws a point out of position, and awaits it; with none setting fails with FLANK and the
primary's element. -/
def Obligations.AReservationLocksEveryItem : Prop :=
  (∀ (s : State) (i : Nat) (d : RouteDef) (r : Reserved), s.inst i = none → noTwice (routeElements d) = true →
    s.reserve i d = .ok r →
    r.state.entryHeld i d.entry = true ∧ r.state.exitHeld i d.exit = true
    ∧ (∀ it ∈ d.path, (∃ t, r.state.track? it.sect = some t ∧ t.lock = .held i .path)
        ∧ ∀ p ∈ it.points, ∃ x, r.state.point? p.point = some x ∧ x.lock = .held i .path p.pos)
    ∧ (∀ it ∈ d.overlap, (∃ t, r.state.track? it.sect = some t ∧ t.lock = .held i .overlap)
        ∧ ∀ p ∈ it.points, ∃ x, r.state.point? p.point = some x ∧ x.lock = .held i .overlap p.pos)
    ∧ ((∀ e n, s.flankRef e = some n → s.fctEntry n ≠ none) →
      ∀ m f c, 1 ≤ m → d.flank[m - 1]? = some f → r.flank[m - 1]? = some c → c.status = .claimed →
        ∃ t n y, chosenTarget f c.alternative = some t ∧ r.state.flankRef (FlankTarget.elem t) = some n
          ∧ r.state.fctEntry n = some y ∧ y.required = FlankTarget.required t ∧ .route i m ∈ y.claimants))
  ∧ (∀ (s : State) (i : Nat) (d : RouteDef) (choices : List (Nat × Option FlankTarget)),
      let points := (d.path ++ d.overlap.toList).flatMap PathItem.points
      let locked := d.overlap.toList.foldl (State.lockItem i .overlap) (d.path.foldl (State.lockItem i .path)
        ((s.setEntry d.entry fun _ => .held i).setExit d.exit fun _ => .held i))
      let claimed := ((List.range' 1 choices.length).zip choices).foldl (State.claimItem i)
        ((s.transferOwners d).foldl State.transferRest locked)
      let thrown := (points.map (fun p => FlankTarget.point p.point p.pos) ++ choices.filterMap Prod.snd).foldl
        State.throwClaimed claimed
      let asked : State := match s.needsDirection d with
        | some b => thrown.requestDirection b
        | none => thrown
      (s.testItems d = .ok choices → s.reserve i d = .ok (s.applyReservation i d choices))
      ∧ (s.applyReservation i d choices).state = (askedItems d choices).foldl (State.askItem i) asked
      ∧ (s.applyReservation i d choices).flank =
          choices.map (fun (c : Nat × Option FlankTarget) => ⟨c.1, if c.2.isNone then .asking else .claimed⟩)
      ∧ (s.applyReservation i d choices).waiting =
          (if (s.needsDirection d).isSome then [.direction] else []) ++ (if d.cls = .boundaryOut then [.acceptance] else [])
            ++ ((points.filter fun p => !s.inState (.point p.point p.pos)).map fun p => .point p.point)
            ++ ((List.range' 1 choices.length).zip choices).filterMap (fun c =>
              match c.2.2 with
              | none => some (.asking c.1)
              | some t => if s.inState t then none else some (.flank c.1 (FlankTarget.elem t)))
      ∧ (∀ b, s.needsDirection d = some b ↔
          d.cls = .boundaryOut ∧ (s.blcAt b).direction ≠ .outward ∧ ∃ x, s.boundary? d.exit = some x ∧ x.link = b)
      ∧ (∀ j, j ∈ s.transferOwners d ↔ ∃ it ∈ d.path, (∃ t, s.track? it.sect = some t ∧ s.sectionTransfer d t = some j)
          ∨ ∃ p ∈ it.points, ∃ x, s.point? p.point = some x ∧ s.pointTransfer d x p.pos = some j)
      ∧ (s.transferOwners d).Nodup
      ∧ (∀ m f, (m, f) ∈ askedItems d choices ↔ 1 ≤ m ∧ d.flank[m - 1]? = some f ∧ ∃ n, choices[m - 1]? = some (n, none))
      ∧ (askedItems d choices).Pairwise (fun p q => p.1 < q.1))
  ∧ (∀ (s : State) (e : Nat) (f : Slot → Slot),
      (∀ g, s.signal? e = some g → (s.setEntry e f).signal? e = some { g with entrySlot := f g.entrySlot }
        ∧ (s.setExit e f).signal? e = some { g with exitSlot := f g.exitSlot })
      ∧ (∀ b, s.boundary? e = some b → (s.setEntry e f).boundary? e = some { b with entrySlot := f b.entrySlot }
        ∧ (s.setExit e f).boundary? e = some { b with exitSlot := f b.exitSlot })
      ∧ ∀ x, x ≠ e → (s.setEntry e f).elem x = s.elem x ∧ (s.setExit e f).elem x = s.elem x)
  ∧ (∀ (s : State) (i : Nat) (role : Role) (it : PathItem),
      (∀ x, x ≠ it.sect → (∀ p ∈ it.points, p.point ≠ x) → (State.lockItem i role s it).elem x = s.elem x)
      ∧ (∀ t, s.track? it.sect = some t →
        (State.lockItem i role s it).track? it.sect = some { t with lock := .held i role })
      ∧ ((it.points.map PointReq.point).Nodup → ∀ p ∈ it.points, ∀ x, s.point? p.point = some x →
        (State.lockItem i role s it).point? p.point = some { x with lock := .held i role p.pos }))
  ∧ (∀ (s : State) (o : Nat), (s.live o = none → s.transferRest o = s.notify (.overlapTransferred o))
      ∧ ∀ r d, s.live o = some (r, d) →
        (s.transferRest o).notices = s.notices ++ [.overlapTransferred o]
        ∧ (∀ it, d.overlap = some it → ¬ (s.transferRest o).HoldsItem o it)
        ∧ (∀ x, (∀ it, d.overlap = some it → x ≠ it.sect ∧ ∀ p ∈ it.points, p.point ≠ x) →
          (s.transferRest o).elem x = s.elem x)
        ∧ ((∃ it, d.overlap = some it ∧ s.HoldsItem o it) → s.Triggered (s.transferRest o))
        ∧ (¬ (∃ it, d.overlap = some it ∧ s.HoldsItem o it) → s.transferRest o = s.notify (.overlapTransferred o)))
  ∧ (∀ (s : State) (i m n : Nat) (t : FlankTarget),
      State.claimItem i s (m, n, some t) = s.takeClaim (.route i m) t ∧ State.claimItem i s (m, n, none) = s)
  ∧ (∀ (s : State), (∀ e, s.throwClaimed (.signal e) = s)
      ∧ ∀ e q, (s.inState (.point e q) = true → s.throwClaimed (.point e q) = s)
        ∧ (s.inState (.point e q) = false → s.throwClaimed (.point e q) = (s.throwRequest e q false).1))
  ∧ (∀ (s : State) (e : Nat), (∀ q, s.inState (.point e q) = true ↔ ∃ p, s.point? e = some p ∧ p.detection = detectionOf q)
      ∧ (s.inState (.signal e) = true ↔ ∃ g, s.signal? e = some g ∧ g.shown = .stop))
  ∧ (∀ (s : State) (i m : Nat) (f : FlankItem),
      (∀ t, f.primary = .claim t → State.askItem i s (m, f) = s)
      ∧ ∀ b ref, f.primary = .boundary b ref → State.askItem i s (m, f) = s.askAssurance b ref i m)
  ∧ (∀ (s : State) (b : BLink) (ref i m : Nat), let t := s.askAssurance b ref i m
      ((s.blcAt b).link = .down → t = s.notify (.itemLinkDown i b))
      ∧ ((s.blcAt b).link = .sync → t.out = s.out ∧ t.notices = s.notices ∧ (∀ x, x ≠ b → t.blcAt x = s.blcAt x)
        ∧ t.blcAt b = { s.blcAt b with
            assurances := (s.blcAt b).assurances ++ [⟨ref, i, m, false, .stopped⟩]
            heldBack := (s.blcAt b).heldBack ++ [.flankAsk ref] })
      ∧ ((s.blcAt b).link = .up → ∀ pre a post,
        (s.blcAt b).assurances ++ [⟨ref, i, m, false, .stopped⟩] = pre ++ a :: post →
        (∀ x ∈ pre, ¬(x.ref = ref ∧ x.assured = false ∧ x.timer = .stopped)) → a.ref = ref → a.assured = false →
        a.timer = .stopped →
        t.out = s.out ++ [.boundary b (.flankAsk ref)] ∧ t.notices = s.notices ∧ (∀ x, x ≠ b → t.blcAt x = s.blcAt x)
        ∧ t.blcAt b = { s.blcAt b with assurances := pre ++ { a with timer := .running 40 } :: post }))
  ∧ (∀ (s : State) (e : Nat) (neighbour : Bool),
      (∀ (p : PointRec) (q : Pos), s.point? e = some p → (s.claimOk [] (.point e q) neighbour = true ↔
        ((∃ f, s.claim? p.flankRef = some f ∧ f.required = .pos q ∧ f.claimants.length < 8)
          ∨ (s.claim? p.flankRef = none ∧ ∃ n, n < 128 ∧ s.fctEntry n = none))
        ∧ (p.lock = .empty ∨ p.lockPos = some q)
        ∧ p.failed = false ∧ p.localMode = false ∧ p.suspect = false
        ∧ (p.detection = detectionOf q ∨ (neighbour = false ∧ s.movable p = true))))
      ∧ (∀ g : SignalRec, s.signal? e = some g → (s.claimOk [] (.signal e) neighbour = true ↔
        ((∃ f, s.claim? g.flankRef = some f ∧ f.required = .stop ∧ f.claimants.length < 8)
          ∨ (s.claim? g.flankRef = none ∧ ∃ n, n < 128 ∧ s.fctEntry n = none))
        ∧ (∀ i r, g.entrySlot = .held i → s.inst i = some r → r.state ≠ .clearing ∧ r.state ≠ .cleared)
        ∧ g.suspect = false ∧ (neighbour = true → g.shown = .stop ∧ g.commanded = .stop))))
  ∧ (∀ (s : State) (c : Claimant) (t : FlankTarget), let e := FlankTarget.elem t
      (∀ n, (s.point? e ≠ none ∨ s.signal? e ≠ none) → s.flankRef e = none → n < 128 → s.fctEntry n = none →
        (∀ m, m < n → s.fctEntry m ≠ none) →
        (s.takeClaim c t).fctEntry n = some ⟨e, FlankTarget.required t, [c]⟩ ∧ (s.takeClaim c t).flankRef e = some n
          ∧ (∀ m, m ≠ n → (s.takeClaim c t).fctEntry m = s.fctEntry m)
          ∧ (∀ x, x ≠ e → (s.takeClaim c t).elem x = s.elem x)
          ∧ ∀ l, .element e ∈ ((s.takeClaim c t).olc.get l).marks)
      ∧ ∀ n f, s.flankRef e = some n → s.fctEntry n = some f →
        (c ∈ f.claimants → s.takeClaim c t = s)
        ∧ (c ∉ f.claimants →
          (s.takeClaim c t).fctEntry n = some { f with claimants := f.claimants ++ [c] }
            ∧ (∀ m, m ≠ n → (s.takeClaim c t).fctEntry m = s.fctEntry m)
            ∧ (∀ x, (s.takeClaim c t).elem x = s.elem x)
            ∧ ∀ l, .element e ∈ ((s.takeClaim c t).olc.get l).marks))
  ∧ (∀ (s : State) (chosen : List FlankTarget) (f : FlankItem),
      (∀ t, s.primaryOk chosen f.primary = true → f.primary = .claim t → s.chooseFlank chosen f = some (0, some t))
      ∧ (∀ b ref, s.primaryOk chosen f.primary = true → f.primary = .boundary b ref →
        s.chooseFlank chosen f = some (0, none))
      ∧ (∀ pre t post, s.primaryOk chosen f.primary = false → f.subs = pre ++ t :: post →
        (∀ x ∈ pre, s.claimOk chosen x false = false) → s.claimOk chosen t false = true →
        s.chooseFlank chosen f = some (pre.length + 1, some t))
      ∧ (s.primaryOk chosen f.primary = false → (∀ x ∈ f.subs, s.claimOk chosen x false = false) →
        s.chooseFlank chosen f = none))
  ∧ ∀ (s : State) (i m : Nat) (r : Inst) (d : RouteDef) (f : FlankItem), s.live i = some (r, d) → r.state = .locking →
      (r.flank[m - 1]?).any (fun c => c.status == .asking) = true → d.flank[m - 1]? = some f →
      (∀ pre t post, f.subs = pre ++ t :: post → (∀ x ∈ pre, s.claimOk [] x false = false) →
        s.claimOk [] t false = true →
        let s1 : State := ((s.takeClaim (.route i m) t).throwClaimed t).modInst i fun r =>
          { r with flank := r.flank.set (m - 1) ⟨pre.length + 1, .claimed⟩ }
        (s.inState t = true → s.lateSubstitute i m = s1.unwait i (· == .asking m))
        ∧ (s.inState t = false → s.lateSubstitute i m =
            (s1.modInst i (joinWaits d [.flank m (FlankTarget.elem t)])).unwait i (· == .asking m)))
      ∧ ((∀ x ∈ f.subs, s.claimOk [] x false = false) →
        s.lateSubstitute i m = s.settingFails i .flank (s.primaryElem f.primary))

/-- PRESS by the selection of the link and the element pressed; in every row but an authorised entry signal the
selection is empty afterwards. A PRESS that completes a pair issues its SET-ROUTE with the authority as it stands: one
that fails check 1 or 2 is refused at once; one that passes is taken at once where no route request waits in the RIM,
and waits there with its reply held back where one does (the waiting is the model's choice, log entry 10). -/
def Obligations.PressByTheSelection : Prop :=
  ∀ (s : State) (l : OpLink) (q : Word16) (e : Nat), s.Ready l q (.press e) → e ≤ 255 →
    ((s.elem e).area? = none → exec (.press l) s = .next (State.settleMarks s
      (((s.taken l).putSel l none).answer l q (.refused .unknownObject))))
    ∧ ((s.elem e).area? ≠ none → s.rim.sel.get l = none →
      ((s.signal? e).isSome = true → s.isEntry e = true → s.holdsElem l e = true →
        exec (.press l) s = .next (State.settleMarks s
          (((s.taken l).putSel l (some ⟨e, .running 100⟩)).answer l q .accepted)))
      ∧ ((s.signal? e).isSome = true → s.isEntry e = true → s.holdsElem l e = false →
        exec (.press l) s = .next ((s.taken l).answer l q (.refused .noAuthority)))
      ∧ (((s.signal? e).isSome = false ∨ s.isEntry e = false) →
        exec (.press l) s = .next ((s.taken l).answer l q (.refused .noRoute))))
    ∧ ∀ v, (s.elem e).area? ≠ none → s.rim.sel.get l = some v →
      (e = v.signal → exec (.press l) s = .next (State.settleMarks s
        (((s.taken l).putSel l none).answer l q .accepted)))
      ∧ (e ≠ v.signal → s.variants v.signal e ≠ [] →
        ((s.signal? v.signal = none ∨ s.isEnd e = false) → exec (.press l) s = .next (State.settleMarks s
          (((s.taken l).putSel l none).answer l q (.refused .unknownObject))))
        ∧ ∀ g, s.signal? v.signal = some g → s.isEnd e = true →
          (s.holdsArea l g.area = false → exec (.press l) s = .next (State.settleMarks s
            (((s.taken l).putSel l none).answer l q (.refused .noAuthority))))
          ∧ (s.holdsArea l g.area = true → s.rim.requests = [] → exec (.press l) s = .next (State.finish s
            ((((s.taken l).putSel l none).rimRoute l v.signal e false 0).1.answer l q
              (((s.taken l).putSel l none).rimRoute l v.signal e false 0).2)))
          ∧ (s.holdsArea l g.area = true → s.rim.requests ≠ [] → exec (.press l) s = .next (State.settleMarks s
            ((({ s with rim := { s.rim with
                sel := s.rim.sel.set l none
                requests := s.rim.requests ++ [.setRoute l q v.signal e false 0] } } : State).modOlc l
              fun c => { c with waiting := c.waiting.tail, held := some q }).markAt l .partStatus))))
      ∧ (e ≠ v.signal → s.variants v.signal e = [] →
        ((s.signal? e).isSome && s.isEntry e && s.holdsElem l e) = true →
        exec (.press l) s = .next (State.settleMarks s
          (((s.taken l).putSel l (some ⟨e, .running 100⟩)).answer l q .accepted)))
      ∧ (e ≠ v.signal → s.variants v.signal e = [] →
        ((s.signal? e).isSome && s.isEntry e && s.holdsElem l e) = false →
        exec (.press l) s = .next (State.settleMarks s
          (((s.taken l).putSel l none).answer l q (.refused .noRoute))))

/-- CANCEL_ROUTE by its checks and by the state of the entry instance. The entry instance is the live record of lowest
number whose route has that entry, whose release pointer is 1 and whose path is not released; an entry or exit element
is a configured signal or boundary element. What the STOP command does is stated with STOP_AREA. -/
def Obligations.CancelRouteByTheStateOfTheInstance : Prop :=
  (∀ (s : State) (e : Nat),
    let enters := fun i (r : Inst) (d : RouteDef) =>
      s.live i = some (r, d) ∧ d.entry = e ∧ r.releasePtr = 1 ∧ r.pathReleased = false
    (s.entryInst e = none ↔ ∀ i r d, i < 48 → ¬enters i r d)
    ∧ (∀ i r d, s.entryInst e = some (i, r, d) ↔ i < 48 ∧ enters i r d ∧ ∀ j r' d', j < i → ¬enters j r' d')
    ∧ (s.isEnd e = true ↔ (∃ g, s.signal? e = some g) ∨ ∃ b, s.boundary? e = some b))
  ∧ ∀ (s : State) (l : OpLink) (q : Word16) (e : Nat), s.Ready l q (.cancelRoute e) → e ≤ 255 →
    (s.isEnd e = false → exec (.cancelRoute l) s = .next ((s.taken l).answer l q (.refused .unknownObject)))
    ∧ (s.isEnd e = true → s.holdsElem l e = false →
      exec (.cancelRoute l) s = .next ((s.taken l).answer l q (.refused .noAuthority)))
    ∧ (s.isEnd e = true → s.holdsElem l e = true → s.entryInst e = none →
      exec (.cancelRoute l) s = .next ((s.taken l).answer l q (.refused .wrongState)))
    ∧ ∀ i r d, s.isEnd e = true → s.holdsElem l e = true → s.entryInst e = some (i, r, d) →
      (r.state = .locking → exec (.cancelRoute l) s = .next (State.finish s
        (((s.taken l).releaseAll i).answer l q .accepted)))
      ∧ (r.state.supervised = true → d.cls ≠ .boundaryIn → d.approach.all s.isClear = true →
        exec (.cancelRoute l) s = .next (State.finish s
          ((((s.taken l).commandStop d.entry).releaseAll i).answer l q .accepted)))
      ∧ (r.state.supervised = true → d.cls ≠ .boundaryIn → d.approach.all s.isClear = false →
        exec (.cancelRoute l) s = .next (State.finish s
          ((((s.taken l).commandStop d.entry).modInst i fun r =>
            { r with state := .cancelling, approach := .running d.approachTime }).answer l q .accepted)))
      ∧ (r.state ≠ .locking → (r.state.supervised = false ∨ d.cls = .boundaryIn) →
        exec (.cancelRoute l) s = .next ((s.taken l).answer l q (.refused .wrongState)))

/-- RE_CLEAR by its five checks; one that passes clears the instance. A BOUNDARY_IN instance that clears is CLEARED at
once, its setting timer stopped and its causes gone, and its BLC is told the first time alone; any other is CLEARING
with PROCEED commanded at its entry signal. A PROCEED command whose checks hold (the ENTRY slot held by the instance, no
FAILED, SUSPECT or lamp fault, no flank reference, the unit REACHABLE) is commanded, its confirmation timer runs 3.0 s
and SHOW(PROCEED) is queued with a fresh age in place of what was queued for the unit; the outstanding mark of a
SHOW(STOP) so replaced ends, unless that one's exchange has begun. One whose checks fail changes nothing and is answered
SIGNAL_NOT_CLEARED. The conditions of a clearing request, every one of which must hold: the slots; the acceptance of a
BOUNDARY_OUT route; every path item and its points locked, the section CLEAR (the last of a SHUNT route may be
OCCUPIED), the points detected with their flags clear; the overlap LOCKED and locked likewise; every flank item ASSURED,
or CLAIMED with its element in the required state. Notices and reports that name an instance no train has entered. In
LOCKING: POSITION takes the element's entries out of the waiting set, a loss, a failure or a path section not CLEAR puts
its entry in; an empty set sends the clearing request, whose failing items join it, and one of the acceptance alone asks
for it; the events of R87 make setting fail, which frees the record and writes the failure for the links of its origin.
In CLEARING, CLEARED and HELD: each event of R93 is a supervision cause, with which a cleared instance becomes HELD and
its entry signal is commanded STOP, and a HELD one takes the cause; a cause reaches no other state; *confirmed* makes a
CLEARING instance CLEARED. A notice that causes no other ends the taking. A BOUNDARY flank item that was substituted is
none of the link's (the model's choice, log entry 44). A notice of several instances is taken in ascending instance
number (the model's choice, log entry 52); notices are taken at the end of the step (log entry 9), by the items not
released (log entry 12), with one waiting entry for each flank item (log entry 43). In LOCKING OCCUPIED at the only path
item of a SHUNT route puts its section entry in too (the model's choice, log entry 22). The entry instance is the lowest
live record whose route has that entry, its release pointer 1 and its path not released. The causes that bar a RE-CLEAR
are SUSPECT, ASSURANCE_LOST, ACCEPTANCE_LOST, and LINK_DOWN while its link is not UP; a kind of cause is listed once,
with its first element. -/
def Obligations.ReClearByItsChecks : Prop :=
  (∀ (s : State) (l : OpLink) (q : Word16) (e : Nat), s.Ready l q (.reClear e) → e ≤ 255 →
    (s.isEnd e = false → exec (.reClear l) s = .next ((s.taken l).answer l q (.refused .unknownObject)))
    ∧ (s.isEnd e = true → s.holdsElem l e = false →
      exec (.reClear l) s = .next ((s.taken l).answer l q (.refused .noAuthority)))
    ∧ (s.isEnd e = true → s.holdsElem l e = true → s.entryInst e = none →
      exec (.reClear l) s = .next ((s.taken l).answer l q (.refused .wrongState)))
    ∧ ∀ i r d, s.isEnd e = true → s.holdsElem l e = true → s.entryInst e = some (i, r, d) →
      ((r.state ≠ .held ∨ r.causes.any s.causeBars = true ∨ s.clearingFailures i r d ≠ []) →
        exec (.reClear l) s = .next ((s.taken l).answer l q (.refused .wrongState)))
      ∧ (r.state = .held → r.causes.any s.causeBars = false → s.clearingFailures i r d = [] →
        exec (.reClear l) s = .next (State.finish s (((s.taken l).clearingPasses i r d).answer l q .accepted))
        ∧ (d.cls ≠ .boundaryIn → i < 48 → ((s.taken l).clearingPasses i r d).inst i =
            some { r with state := .clearing, setting := .stopped, causes := [] })))
  ∧ (∀ (s : State) (e : Nat),
    let enters := fun i (r : Inst) (d : RouteDef) =>
      s.live i = some (r, d) ∧ d.entry = e ∧ r.releasePtr = 1 ∧ r.pathReleased = false
    (s.entryInst e = none ↔ ∀ i r d, i < 48 → ¬enters i r d)
    ∧ (∀ i r d, s.entryInst e = some (i, r, d) ↔ i < 48 ∧ enters i r d ∧ ∀ j r' d', j < i → ¬enters j r' d')
    ∧ (s.isEnd e = true ↔ (∃ g, s.signal? e = some g) ∨ ∃ b, s.boundary? e = some b))
  ∧ (∀ (s : State) (c : Cause) (e : Nat), s.causeBars (c, e) = true ↔
      c = .suspect ∨ c = .assuranceLost ∨ c = .acceptanceLost
      ∨ (c = .linkDown ∧ ∀ r, s.boundary? e = some r → (s.blcAt r.link).link ≠ .up))
  ∧ (∀ (s : State) (i : Nat) (r : Inst) (d : RouteDef), s.inst i = some r →
      (d.cls ≠ .boundaryIn → s.clearingPasses i r d =
        (s.putInst i (some { r with state := .clearing, setting := .stopped, causes := [] })).commandProceed i d.entry)
      ∧ (d.cls = .boundaryIn →
        (∀ b, r.acceptance = .notGiven → s.entryLink d = some b → s.clearingPasses i r d =
          (s.putInst i (some { r with
            state := .cleared, setting := .stopped, causes := [], acceptance := .given })).acceptanceCleared b i)
        ∧ (r.acceptance ≠ .notGiven → s.clearingPasses i r d =
          s.putInst i (some { r with state := .cleared, setting := .stopped, causes := [] }))))
  ∧ (∀ (s : State) (i e : Nat),
      (s.proceedChecks i e = true ↔ ∃ g u, s.signal? e = some g ∧ s.unitOf .sdu e = some u ∧ g.entrySlot = .held i
        ∧ g.failed = false ∧ g.suspect = false ∧ g.lampFault = false ∧ g.flankRef = none ∧ u.reachable = true)
      ∧ (s.proceedChecks i e = false →
        s.commandProceed i e = { s with notices := s.notices ++ [.signalNotCleared i e] })
      ∧ ∀ g u, s.proceedChecks i e = true → s.signal? e = some g → s.unitOf .sdu e = some u →
        let t := s.commandProceed i e
        t.signal? e = some { g with commanded := .proceed } ∧ (t.cmd e).awaiting = .running 30
        ∧ ((t.cmd e).stopOutstanding = true ↔ (s.cmd e).stopOutstanding = true
            ∧ ((∃ q, s.queuedAt u.address = some q ∧ s.flyingAge = some q.age)
              ∨ ¬∃ q, s.queuedAt u.address = some q ∧ q.telegram = .showAs .stop))
        ∧ t.tbc = { s.tbc with
            queue := s.tbc.queue.filter (fun q => q.address != u.address)
              ++ [⟨u.address, .showAs .proceed, s.tbc.nextAge, 0⟩]
            nextAge := s.tbc.nextAge + 1 }
        ∧ (∀ x, x ≠ e → t.elem x = s.elem x) ∧ t.notices = s.notices)
  ∧ (∀ (c : Cause) (e : Nat) (l : List (Cause × Nat)),
      ((∃ x, (c, x) ∈ l) → addCause c e l = l) ∧ ((∀ x, (c, x) ∉ l) → addCause c e l = l ++ [(c, e)]))
  ∧ (∀ (s : State) (n : Notice), s.notices = [n] → let t := ({ s with notices := [] } : State).takeNotice n
      t.notices = [] → s.settle = t)
  ∧ (∀ (s : State) (i : Nat) (r : Inst) (d : RouteDef), s.live i = some (r, d) → r.state = .locking →
      (∀ e, s.takeNotice (.position i e) = s.unwait i (Wait.isOn e))
      ∧ (∀ p : Wait → Bool, (r.waiting.any p = true → s.unwait i p =
            (s.putInst i (some { r with waiting := r.waiting.filter fun w => !p w })).checkWaiting i)
          ∧ (r.waiting.any p = false → s.unwait i p = s))
      ∧ (∀ ws w, w ∈ (joinWaits d ws r).waiting ↔ w ∈ r.waiting ∨ w ∈ ws)
      ∧ (r.waiting = [] →
        (s.clearingFailures i r d = [] → s.checkWaiting i = s.clearingPasses i r d)
        ∧ (s.clearingFailures i r d ≠ [] → s.checkWaiting i =
            s.putInst i (some (joinWaits d ((s.clearingFailures i r d).filterMap id) r))))
      ∧ (∀ b, r.waiting = [.acceptance] → r.acceptance = .notAsked → s.exitLink d = some b →
        s.checkWaiting i = (s.putInst i (some { r with acceptance := .asked })).askAcceptance b i r.route)
      ∧ (r.waiting ≠ [] → (r.waiting = [.acceptance] → r.acceptance ≠ .notAsked) → s.checkWaiting i = s)
      ∧ (∀ e, r.locksPoint d e = true →
        s.takeNotice (.detectionLost i e) = s.putInst i (some (joinWaits d [.point e] r)))
      ∧ (∀ e, r.flankOn d e ≠ [] → s.takeNotice (.flankLost i e) =
          s.putInst i (some (joinWaits d ((r.flankOn d e).map fun m => .flank m e) r)))
      ∧ (∀ e, (r.locksPoint d e = true ∨ r.flankOn d e ≠ []) → s.takeNotice (.pointFailed i e) =
          s.putInst i (some (joinWaits d ((if r.locksPoint d e then [.point e] else [])
            ++ (r.flankOn d e).map fun m => .flank m e) r)))
      ∧ (∀ e x y j, pathIndex d e = some j →
        ((y = .clear ∨ (y = .occupied ∧ j ≠ 1 ∧ shuntLast d j = true)) →
          s.takeNotice (.track i e x y) = s.unwait i (· == .track e))
        ∧ (y ≠ .clear → ¬(y = .occupied ∧ j ≠ 1 ∧ shuntLast d j = true) →
          s.takeNotice (.track i e x y) = s.putInst i (some (joinWaits d [.track e] r))))
      ∧ s.takeNotice (.acceptanceGiven i) =
          (s.putInst i (some { r with acceptance := .held })).unwait i (· == .acceptance)
      ∧ (∀ m, (r.flank[m - 1]?).any (fun c => c.status == .asking) = true → s.takeNotice (.assuranceGiven i m) =
          (s.putInst i (some { r with flank := r.flank.set (m - 1) ⟨0, .assured⟩ })).unwait i (· == .asking m))
      ∧ (∀ b, s.exitLink d = some b → State.takeDirectionHeld b s i = s.unwait i (· == .direction))
      ∧ (∀ b, .direction ∈ r.waiting → s.exitLink d = some b →
        State.takeDirectionFailed b s i = s.settingFails i .boundary d.exit)
      ∧ (∀ e, r.lists d e = true → State.takeSuspect e s i = s.settingFails i .suspect e)
      ∧ (∀ b, s.onLink r d b = true → State.takeLinkDown b s i = s.settingFails i .link (s.boundaryElem b))
      ∧ s.takeNotice (.acceptanceRefused i) = s.settingFails i .boundary d.exit
      ∧ s.takeNotice (.acceptanceLost i) = s.settingFails i .boundary d.exit
      ∧ (∀ m, s.takeNotice (.assuranceLost i m) = s.settingFails i .boundary (s.waitElem d (.asking m)))
      ∧ ∀ c e, (s.settingFails i c e).inst i = none ∧ (∀ j, j ≠ i → (s.settingFails i c e).inst j = s.inst j)
        ∧ ∀ k, k ∈ failureLinks r.origin → ((s.settingFails i c e).olc.get k).failure = some ⟨i, r.route, c, e⟩)
  ∧ (∀ (s : State) (i : Nat) (r : Inst) (d : RouteDef), s.live i = some (r, d) →
      (r.state = .clearing ∨ r.state = .cleared ∨ r.state = .held) →
      (∀ e, (hasPoint (r.openItems d) e || (r.overlap == .locked && hasPoint d.overlap.toList e)) = true →
        s.takeNotice (.detectionLost i e) = s.supervise i d .detectionLost e)
      ∧ (∀ e, r.flankOn d e ≠ [] → s.takeNotice (.flankLost i e) = s.supervise i d .flankLost e)
      ∧ (∀ e, (r.locksPoint d e = true ∨ r.flankOn d e ≠ []) →
        s.takeNotice (.pointFailed i e) = s.supervise i d .pointFailed e)
      ∧ (∀ e x y j, pathIndex d e = some j →
        (y = .clear → s.takeNotice (.track i e x y) = s)
        ∧ (j = 1 → y = .occupied → s.takeNotice (.track i e x y) = s.trainEntry i r d (r.state != .cleared))
        ∧ (j ≠ 1 → y = .occupied → shuntLast d j = true → s.takeNotice (.track i e x y) = s)
        ∧ (y ≠ .clear → ¬(j = 1 ∧ y = .occupied) → ¬(y = .occupied ∧ shuntLast d j = true) →
          s.takeNotice (.track i e x y) = s.supervise i d .sectionNotClear e))
      ∧ s.takeNotice (.lampFault i d.entry) = s.supervise i d .lampFault d.entry
      ∧ s.takeNotice (.signalNotCleared i d.entry) = s.supervise i d .signalNotCleared d.entry
      ∧ s.takeNotice (.acceptanceLost i) = s.supervise i d .acceptanceLost d.exit
      ∧ (∀ m, s.takeNotice (.assuranceLost i m) = s.supervise i d .assuranceLost (s.waitElem d (.asking m)))
      ∧ (∀ e, r.lists d e = true → State.takeSuspect e s i = s.supervise i d .suspect e)
      ∧ (∀ b, (s.onLink r d b = true → State.takeLinkDown b s i = s.supervise i d .linkDown (s.boundaryElem b))
          ∧ (s.onLink r d b = false → State.takeLinkDown b s i = s))
      ∧ ∀ e, (r.state = .clearing → s.takeNotice (.confirmed i e) = s.putInst i (some { r with state := .cleared }))
        ∧ (r.state ≠ .clearing → s.takeNotice (.confirmed i e) = s))
  ∧ (∀ (s : State) (e : Nat) (b : BLink),
      s.takeNotice (.suspect e) = instNumbers.foldl (State.takeSuspect e) s
      ∧ s.takeNotice (.directionHeld b) = instNumbers.foldl (State.takeDirectionHeld b) s
      ∧ s.takeNotice (.directionFailed b) = instNumbers.foldl (State.takeDirectionFailed b) s
      ∧ s.takeNotice (.linkDown b) = instNumbers.foldl (State.takeLinkDown b) s)
  ∧ (∀ (s : State) (i : Nat) (r : Inst) (d : RouteDef) (c : Cause) (e : Nat), s.inst i = some r →
      ((r.state = .clearing ∨ r.state = .cleared) →
        (s.supervise i d c e).inst i = some { r with state := .held, causes := addCause c e r.causes }
        ∧ (d.cls ≠ .boundaryIn → ∀ g, s.signal? d.entry = some g →
            ∃ g', (s.supervise i d c e).signal? d.entry = some g' ∧ g'.commanded = .stop)
        ∧ (d.cls = .boundaryIn → s.supervise i d c e =
            s.putInst i (some { r with state := .held, causes := addCause c e r.causes })))
      ∧ (r.state = .held → s.supervise i d c e = s.putInst i (some { r with causes := addCause c e r.causes }))
      ∧ (r.state ≠ .clearing → r.state ≠ .cleared → r.state ≠ .held → s.supervise i d c e = s))
  ∧ ∀ (s : State) (i : Nat) (r : Inst) (d : RouteDef),
      let proved := fun (role : Role) (x : PointReq) => ∃ p, s.point? x.point = some p ∧ p.lock = .held i role x.pos
        ∧ p.detection = detectionOf x.pos ∧ p.failed = false ∧ p.localMode = false ∧ p.suspect = false
      (s.clearingFailures i r d = [] ↔
        s.entryHeld i d.entry = true ∧ s.exitHeld i d.exit = true
        ∧ (d.cls = .boundaryOut → r.acceptance = .held)
        ∧ (∀ k it, 1 ≤ k → d.path[k - 1]? = some it →
          (∃ t, s.track? it.sect = some t ∧ t.lock = .held i .path
            ∧ (t.occupancy = .clear ∨ (d.cls = .shunt ∧ k = d.path.length ∧ t.occupancy = .occupied)))
          ∧ ∀ x ∈ it.points, proved .path x)
        ∧ (∀ it, d.overlap = some it → r.overlap = .locked
          ∧ (∃ t, s.track? it.sect = some t ∧ t.lock = .held i .overlap) ∧ ∀ x ∈ it.points, proved .overlap x)
        ∧ ∀ m f c, 1 ≤ m → d.flank[m - 1]? = some f → r.flank[m - 1]? = some c →
          c.status = .assured ∨ (c.status = .claimed ∧ ∃ t y, chosenTarget f c.alternative = some t
            ∧ s.claim? (s.flankRef (FlankTarget.elem t)) = some y ∧ y.required = FlankTarget.required t
            ∧ .route i m ∈ y.claimants ∧ s.inState t = true))
      ∧ (∀ e g, s.signal? e = some g → (s.entryHeld i e = true ↔ g.entrySlot = .held i)
        ∧ (s.exitHeld i e = true ↔ g.exitSlot = .held i))
      ∧ (∀ e b, s.boundary? e = some b → (s.entryHeld i e = true ↔ b.entrySlot = .held i)
        ∧ (s.exitHeld i e = true ↔ b.exitSlot = .held i))
      ∧ (∀ e q, s.inState (.point e q) = true ↔ ∃ p, s.point? e = some p ∧ p.detection = detectionOf q)
      ∧ (∀ e, s.inState (.signal e) = true ↔ ∃ g, s.signal? e = some g ∧ g.shown = .stop)
      ∧ ∀ (f : FlankItem) (t : FlankTarget) (k : Nat),
        (chosenTarget f 0 = some t ↔ f.primary = .claim t) ∧ chosenTarget f (k + 1) = f.subs[k]?

/-- STORE_CANCEL by its checks and the entry's lifted mark. -/
def Obligations.StoreCancelByTheLiftedMark : Prop :=
  ∀ (s : State) (l : OpLink) (q : Word16) (n : Nat), s.Ready l q (.storeCancel n) → n ≤ 511 →
    ((s.routeDef n).all (fun d => d.cls == .boundaryIn) = true →
      exec (.storeCancel l) s = .next ((s.taken l).answer l q (.refused .unknownObject)))
    ∧ ∀ d, s.routeDef n = some d → d.cls ≠ .boundaryIn →
      (s.holdsElem l d.entry = false → exec (.storeCancel l) s = .next ((s.taken l).answer l q (.refused .noAuthority)))
      ∧ (s.holdsElem l d.entry = true →
        (((s.rankOne d.entry d.exit).bind s.storeEntry).all (fun y => y.link != l) = true →
          exec (.storeCancel l) s = .next ((s.taken l).answer l q (.refused .wrongState)))
        ∧ ∀ y, (s.rankOne d.entry d.exit).bind s.storeEntry = some y → y.link = l →
          (y.lifted = false → exec (.storeCancel l) s = .next (State.settleMarks s
            (((s.taken l).removeEntry y .cancelled).answer l q .accepted)))
          ∧ (y.lifted = true → exec (.storeCancel l) s = .next
            (({ s with rqs := { s.rqs with
                store := modEntry y.route (fun (z : StoreEntry) => { z with waitingCancel := some q }) s.rqs.store } }
              : State).modOlc l fun c => { c with waiting := c.waiting.tail, held := some q })))

/-- STOP_AREA holds every CLEARING or CLEARED instance whose entry lies in the area, with cause OPERATOR_STOP, and
commands its entry signal STOP, in ascending instance number (the model's choice, log entry 45); it changes no other
instance; a number above 15 is refused UNKNOWN_OBJECT, an area not held NO_AUTHORITY. A STOP command, whoever gives it,
ends the command record without a notice and commands STOP; where STOP was commanded and is shown and no SHOW is queued,
nothing is queued; else SHOW(STOP) is queued for the unit with a fresh age and is outstanding, also where the signal
comes from an instance in HELD or CANCELLING (the model's choice, log entry 47). A signal no unit serves is FAILED (R21;
in the same step, log entry 31). -/
def Obligations.StopAreaHoldsTheClearedInstancesOfTheArea : Prop :=
  (∀ (s : State) (l : OpLink) (q : Word16) (a : Nat), s.Ready l q (.stopArea a) →
    (15 < a → exec (.stopArea l) s = .next ((s.taken l).answer l q (.refused .unknownObject)))
    ∧ (a ≤ 15 → s.holdsArea l a = false → exec (.stopArea l) s = .next ((s.taken l).answer l q (.refused .noAuthority)))
    ∧ (a ≤ 15 → s.holdsArea l a = true →
      exec (.stopArea l) s = .next (State.finish s ((instNumbers.foldl (State.stopInst a) (s.taken l)).answer l q .accepted))
      ∧ ∀ i, (∀ r d, s.live i = some (r, d) → (r.state = .clearing ∨ r.state = .cleared) →
            (s.elem d.entry).area? = some a →
            (instNumbers.foldl (State.stopInst a) (s.taken l)).inst i =
              some { r with state := .held, causes := addCause .operatorStop d.entry r.causes })
          ∧ (∀ r d g, s.live i = some (r, d) → (r.state = .clearing ∨ r.state = .cleared) →
            (s.elem d.entry).area? = some a → d.cls ≠ .boundaryIn → s.signal? d.entry = some g →
            ∃ g', (instNumbers.foldl (State.stopInst a) (s.taken l)).signal? d.entry = some g' ∧ g'.commanded = .stop)
          ∧ ((∀ r d, s.live i = some (r, d) → (r.state ≠ .clearing ∧ r.state ≠ .cleared)
                ∨ (s.elem d.entry).area? ≠ some a) →
            (instNumbers.foldl (State.stopInst a) (s.taken l)).inst i = s.inst i)))
  ∧ ∀ (s : State) (e : Nat) (g : SignalRec), s.signal? e = some g →
    let t := s.commandStop e
    let quiet := g.commanded = .stop ∧ g.shown = .stop ∧ ∀ u, s.unitOf .sdu e = some u → s.queuedAt u.address = none
    (∀ x, x ≠ e → t.elem x = s.elem x) ∧ t.notices = s.notices ∧ (t.cmd e).awaiting = .stopped
    ∧ (quiet → t.signal? e = some g ∧ t.tbc = s.tbc ∧ (t.cmd e).stopOutstanding = (s.cmd e).stopOutstanding)
    ∧ (¬quiet → ∀ u, s.unitOf .sdu e = some u →
      t.signal? e = some { g with commanded := .stop } ∧ (t.cmd e).stopOutstanding = true
      ∧ t.tbc = { s.tbc with
          queue := s.tbc.queue.filter (fun q => q.address != u.address) ++ [⟨u.address, .showAs .stop, s.tbc.nextAge, 0⟩]
          nextAge := s.tbc.nextAge + 1 })
    ∧ (¬quiet → s.unitOf .sdu e = none →
      t.signal? e = some { g with commanded := .stop, failed := true } ∧ (t.cmd e).stopOutstanding = false
      ∧ t.tbc = s.tbc)

/-! ### Element requests -/

/-- POINT_THROW is accepted exactly when the throw request is taken; POINT_RESET clears FAILED unless the detection is
MOVING, and tells the store; each is refused UNKNOWN_OBJECT for what is no point and NO_AUTHORITY without the area. A
throw request, from any source, by the state of the point: refused where its locks and claims do not agree or a flag is
set; taken with nothing sent where the target is detected; begun as a drive where the point is movable; left to the
drive that runs toward the target, with or without its THROW queued; or held as next position of a drive the other way.
A new drive has the operator's mark clear (the model's choice, log entry 62). A point no unit serves becomes FAILED at
once by a THROW queued for it (R21; in the same step, log entry 31). -/
def Obligations.PointRequestsByTheStateOfThePoint : Prop :=
  (∀ (s : State) (l : OpLink) (q : Word16) (e : Nat), e ≤ 255 →
    (∀ pos, s.Ready l q (.pointThrow e pos) →
      (s.point? e = none → exec (.pointThrow l) s = .next ((s.taken l).answer l q (.refused .unknownObject)))
      ∧ ∀ p, s.point? e = some p →
        (s.holdsArea l p.area = false → exec (.pointThrow l) s = .next ((s.taken l).answer l q (.refused .noAuthority)))
        ∧ (s.holdsArea l p.area = true → (s.throwRequest e pos true).2 = false →
          exec (.pointThrow l) s = .next ((s.taken l).answer l q (.refused .wrongState)))
        ∧ (s.holdsArea l p.area = true → (s.throwRequest e pos true).2 = true →
          exec (.pointThrow l) s = .next (State.finish s (((s.taken l).throwRequest e pos true).1.answer l q .accepted)))
        ∧ (∀ u, s.holdsArea l p.area = true → s.agrees p pos = true → p.flagsClear = true → s.drive e = none →
          p.detection ≠ detectionOf pos → s.movable p = true → s.throwLaw p pos = true → s.unitOf .pdu e = some u →
          exec (.pointThrow l) s = .next (State.settleMarks s
            ((((s.taken l).putDrive e (some ⟨pos, p.retries, .stopped, .active, false⟩)).enqueue u.address
              (.throwTo pos)).answer l q .accepted))))
    ∧ (s.Ready l q (.pointReset e) →
      (s.point? e = none → exec (.pointReset l) s = .next ((s.taken l).answer l q (.refused .unknownObject)))
      ∧ ∀ p, s.point? e = some p →
        (s.holdsArea l p.area = false → exec (.pointReset l) s = .next ((s.taken l).answer l q (.refused .noAuthority)))
        ∧ (s.holdsArea l p.area = true → p.detection = .moving →
          exec (.pointReset l) s = .next ((s.taken l).answer l q (.refused .wrongState)))
        ∧ (s.holdsArea l p.area = true → p.detection ≠ .moving → p.failed = false →
          exec (.pointReset l) s = .next ((s.taken l).answer l q .accepted))
        ∧ (s.holdsArea l p.area = true → p.detection ≠ .moving → p.failed = true →
          exec (.pointReset l) s = .next (State.finish s
            (((s.taken l).writePoint e { p with failed := false }).retestTrigger.answer l q .accepted)))))
  ∧ (∀ (s : State) (e : Nat) (pos : Pos) (operator : Bool),
    (s.point? e = none → s.throwRequest e pos operator = (s, false))
    ∧ ∀ p, s.point? e = some p →
      ((s.agrees p pos = false ∨ p.flagsClear = false) → s.throwRequest e pos operator = (s, false))
      ∧ (s.agrees p pos = true → p.flagsClear = true →
        (s.drive e = none →
          (p.detection = detectionOf pos → s.throwRequest e pos operator = (s, true))
          ∧ (p.detection ≠ detectionOf pos → s.movable p = false → s.throwRequest e pos operator = (s, false))
          ∧ (p.detection ≠ detectionOf pos → s.movable p = true → s.throwRequest e pos operator =
            ((s.putDrive e (some ⟨pos, p.retries, .stopped, .active, false⟩)).enqueueThrow e pos, true)))
        ∧ ∀ d, s.drive e = some d →
          (d.target = pos → s.throwRequest e pos operator = (s, true))
          ∧ (d.target ≠ pos → s.throwRequest e pos operator =
            ((s.writePoint e { p with next := some pos }).putDrive e (some { d with operatorMark := operator }), true))))
  ∧ (∀ (s : State) (e : Nat) (p : PointRec) (pos : Pos), s.point? e = some p →
    (s.throwLaw p pos = false → s.enqueueThrow e pos = s)
    ∧ (s.throwLaw p pos = true → (∀ u, s.unitOf .pdu e = some u → s.enqueueThrow e pos = s.enqueue u.address (.throwTo pos))
      ∧ (s.unitOf .pdu e = none → s.enqueueThrow e pos = s.failPoint e)))
  ∧ ∀ (s : State) (p : PointRec) (pos : Pos),
    (s.agrees p pos = true ↔ (∀ i role x, p.lock = .held i role x → x = pos)
      ∧ (p.flankRef = none ∨ ∃ f, s.claim? p.flankRef = some f ∧ f.required = .pos pos))
    ∧ (p.flagsClear = true ↔ p.failed = false ∧ p.localMode = false ∧ p.suspect = false)
    ∧ (s.movable p = true ↔ p.block = false
      ∧ ∀ c ∈ p.containing, ∃ t, s.track? c = some t ∧ t.occupancy = .clear ∧ t.block = false)
    ∧ (s.throwLaw p pos = true ↔ s.agrees p pos = true ∧ ∀ c ∈ p.containing, ∃ t, s.track? c = some t ∧ t.occupancy = .clear)

/-- SIGNAL_RESET: FAILED with aspect STOP is cleared and the store told; FAILED with any other aspect is refused
WRONG_STATE; a signal not FAILED is accepted and nothing changes. -/
def Obligations.SignalResetByTheShownAspect : Prop :=
  ∀ (s : State) (l : OpLink) (q : Word16) (e : Nat), s.Ready l q (.signalReset e) → e ≤ 255 →
    (s.signal? e = none → exec (.signalReset l) s = .next ((s.taken l).answer l q (.refused .unknownObject)))
    ∧ ∀ g, s.signal? e = some g →
      (s.holdsArea l g.area = false → exec (.signalReset l) s = .next ((s.taken l).answer l q (.refused .noAuthority)))
      ∧ (s.holdsArea l g.area = true → g.failed = false →
        exec (.signalReset l) s = .next ((s.taken l).answer l q .accepted))
      ∧ (s.holdsArea l g.area = true → g.failed = true → g.shown ≠ .stop →
        exec (.signalReset l) s = .next ((s.taken l).answer l q (.refused .wrongState)))
      ∧ (s.holdsArea l g.area = true → g.failed = true → g.shown = .stop →
        exec (.signalReset l) s = .next (State.settleMarks s
          (((s.taken l).putElem e (.signal { g with failed := false })).retestTrigger.answer l q .accepted)))

/-- BLOCK sets and UNBLOCK clears the BLOCK flag of a point, signal or section, and UNBLOCK of a set flag tells the
store; either is accepted whatever the flag; a boundary element and an unconfigured one are refused UNKNOWN_OBJECT.
Writing the flag leaves the record's locks, flank reference and field state as they were, the other elements, the Flank
Claim Table, drives, signal commands, bus and counts too. -/
def Obligations.BlockAndUnblockWriteTheFlag : Prop :=
  ∀ (s : State) (l : OpLink) (q : Word16) (e : Nat), e ≤ 255 →
    (∀ (c : Instr) (r : Request), (c = .block l ∧ r = .block e) ∨ (c = .unblock l ∧ r = .unblock e) → s.Ready l q r →
      ((s.elem e).block? = none → exec c s = .next ((s.taken l).answer l q (.refused .unknownObject)))
      ∧ ((s.elem e).block? ≠ none → s.holdsElem l e = false →
        exec c s = .next ((s.taken l).answer l q (.refused .noAuthority))))
    ∧ (s.Ready l q (.block e) → s.holdsElem l e = true →
      ((s.elem e).block? = some true → exec (.block l) s = .next ((s.taken l).answer l q .accepted))
      ∧ ((s.elem e).block? = some false → exec (.block l) s = .next (State.settleMarks s
          (((s.taken l).putElem e ((s.elem e).withBlock true)).answer l q .accepted))))
    ∧ (s.Ready l q (.unblock e) → s.holdsElem l e = true →
      ((s.elem e).block? = some false → exec (.unblock l) s = .next ((s.taken l).answer l q .accepted))
      ∧ ((s.elem e).block? = some true → exec (.unblock l) s = .next (State.settleMarks s
          (((s.taken l).putElem e ((s.elem e).withBlock false)).retestTrigger.answer l q .accepted))))
    ∧ (∀ v, ((s.elem e).block? ≠ none → ((s.elem e).withBlock v).block? = some v)
        ∧ ((s.elem e).withBlock v).area? = (s.elem e).area? ∧ ((s.elem e).withBlock v).isSuspect = (s.elem e).isSuspect)
    ∧ ∀ v,
      (∀ p, s.elem e = .point p → (s.elem e).withBlock v = .point { p with block := v })
      ∧ (∀ g, s.elem e = .signal g → (s.elem e).withBlock v = .signal { g with block := v })
      ∧ (∀ k, s.elem e = .track k → (s.elem e).withBlock v = .track { k with block := v })
      ∧ ∀ r, let t := s.putElem e r
        t.elem e = r ∧ (∀ x, x ≠ e → t.elem x = s.elem x) ∧ (∀ n, t.fctEntry n = s.fctEntry n)
        ∧ (∀ x, t.drive x = s.drive x ∧ t.cmd x = s.cmd x) ∧ t.tbc = s.tbc ∧ t.ace = s.ace

/-- BOUNDARY_OPEN, BOUNDARY_CLOSE and DIR_REQUEST by the boundary's record. The tests of DIR-REQUEST after the
direction: the link UP, no change going on, the boundary open, the line clear, no incoming acceptance and no pending
ask; the line is clear where every line section is CLEAR, the neighbour reports its own clear, and the link is UP. -/
def Obligations.BoundaryRequestsByTheBoundaryRecord : Prop :=
  ∀ (s : State) (l : OpLink) (q : Word16) (e : Nat), e ≤ 255 →
    (∀ (c : Instr) (r : Request),
      (c = .boundaryOpen l ∧ r = .boundaryOpen e) ∨ (c = .boundaryClose l ∧ r = .boundaryClose e)
        ∨ (c = .dirRequest l ∧ r = .dirRequest e) → s.Ready l q r →
      (s.boundary? e = none → exec c s = .next ((s.taken l).answer l q (.refused .unknownObject)))
      ∧ ∀ b, s.boundary? e = some b → s.holdsArea l b.area = false →
        exec c s = .next ((s.taken l).answer l q (.refused .noAuthority)))
    ∧ (∀ b, s.boundary? e = some b → s.holdsArea l b.area = true →
      (s.Ready l q (.boundaryOpen e) →
        ((s.blcAt b.link).used = true → exec (.boundaryOpen l) s = .next (State.settleMarks s
          (((s.taken l).modBlc b.link fun r => { r with isOpen := true }).answer l q .accepted)))
        ∧ ((s.blcAt b.link).used = false →
          exec (.boundaryOpen l) s = .next ((s.taken l).answer l q (.refused .wrongState))))
      ∧ (s.Ready l q (.boundaryClose e) → exec (.boundaryClose l) s = .next (State.settleMarks s
          (((s.taken l).modBlc b.link fun r => { r with isOpen := false }).answer l q .accepted)))
      ∧ (s.Ready l q (.dirRequest e) →
        ((s.blcAt b.link).used = false ∨ ((s.blcAt b.link).direction ≠ .outward ∧ s.directionTests b.link = false) →
          exec (.dirRequest l) s = .next ((s.taken l).answer l q (.refused .wrongState)))
        ∧ ((s.blcAt b.link).used = true → (s.blcAt b.link).direction = .outward →
          exec (.dirRequest l) s = .next ((s.taken l).answer l q .accepted))
        ∧ ((s.blcAt b.link).used = true → (s.blcAt b.link).direction ≠ .outward → s.directionTests b.link = true →
          exec (.dirRequest l) s = .next (State.settleMarks s
            ((({ (s.taken l).modBlc b.link fun r => { r with change := .asking, changeTimer := .running 40 } with
              out := s.out ++ [.boundary b.link .dirAsk] } : State)).answer l q .accepted)))))
    ∧ (∀ b, s.directionTests b = true ↔ (s.blcAt b).link = .up ∧ (s.blcAt b).change = .idle ∧ (s.blcAt b).isOpen = true
      ∧ s.lineClear b = true ∧ (s.blcAt b).incoming = [] ∧ (s.blcAt b).inAsks = [])
    ∧ ∀ b, s.lineClear b = true ↔
      (∀ x ∈ (s.blcAt b).lineSections, ∃ k, s.track? x = some k ∧ k.occupancy = .clear)
      ∧ (s.blcAt b).neighbourClear = true ∧ (s.blcAt b).link = .up

/-! ### Instances and the store -/

/-- The four timers of an instance. SETTING in LOCKING: setting fails with TIMEOUT and the element of the first waiting
entry, or the entry. APPROACH in CANCELLING and EMERGENCY in EMERGENCY: every item is released. OVERLAP in IN_USE: the
overlap is released when its section is CLEAR, else an OVERLAP overrun is recorded. A timer that does not run, and
one in another state, changes nothing (the model's choice, log entry 1). -/
def Obligations.InstanceTimersByTheState : Prop :=
  ∀ (s : State) (i : Nat),
    (∀ r d n, s.live i = some (r, d) → r.setting = .running n → r.state = .locking →
      exec (.settingTimerExpiry i) s = .next (State.finish s
        (s.settingFails i .timeout ((r.waiting.head?.map (s.waitElem d)).getD d.entry))))
    ∧ (∀ r n, s.inst i = some r → r.approach = .running n → r.state = .cancelling →
      exec (.approachTimerExpiry i) s = .next (State.finish s (s.releaseAll i)))
    ∧ (∀ r n, s.inst i = some r → r.emergency = .running n → r.state = .emergency →
      exec (.emergencyTimerExpiry i) s = .next (State.finish s (s.releaseAll i)))
    ∧ (∀ r d n e, s.live i = some (r, d) → r.overlapTimer = .running n → r.state = .inUse → overlapSect d = some e →
      (s.isClear e = true → exec (.overlapTimerExpiry i) s = .next (State.finish s
        (((s.releaseOverlap i d).modInst i fun r => { r with overlap := .released, overlapTimer := .stopped }).tryFree i)))
      ∧ (s.isClear e = false → s.notices = [] →
        ∃ t, exec (.overlapTimerExpiry i) s = .next t ∧ t.inst i = some { r with overlapTimer := .stopped }
          ∧ (∀ l, (t.olc.get l).overrun = some ⟨i, r.route, .overlap, e⟩) ∧ t.desk = s.desk ∧ t.lkc = s.lkc
          ∧ ∀ j, j ≠ i → t.inst j = s.inst j))
    ∧ (s.notices = [] → ((s.inst i).all fun r => !(r.setting.isRunning && r.state == .locking)) = true →
      exec (.settingTimerExpiry i) s = .next s)
    ∧ (s.notices = [] → ((s.inst i).all fun r => !(r.overlapTimer.isRunning && r.state == .inUse)) = true →
      exec (.overlapTimerExpiry i) s = .next s)
    ∧ (s.notices = [] → ((s.inst i).all fun r => !(r.approach.isRunning && r.state == .cancelling)) = true →
      exec (.approachTimerExpiry i) s = .next s)
    ∧ (s.notices = [] → ((s.inst i).all fun r => !(r.emergency.isRunning && r.state == .emergency)) = true →
      exec (.emergencyTimerExpiry i) s = .next s)

/-- A release of all items frees the record and leaves it no lock, slot or claim. A release is a retest trigger: of one
path item, of the overlap and of all items when, and only when, it empties a slot or deletes an entry of the Flank Claim
Table (R12; by inference, log entry 24), and the freeing of a record always (R129, R138). The freeing breaks a pending
EMERGENCY-RELEASE of the record on either link, and no other pending operation (R133; by inference, log entry 26).
Several BOUNDARY flank items are given up in ascending item index (the model's choice, log entry 63). The train. Its
entry makes the instance IN_USE with highest index and pointer 1, the causes gone and STOP commanded (a BOUNDARY_IN
route has no signal and uses its oldest acceptance), takes the sections ahead that are not CLEAR, records PAST_STOP
where there is an overrun, and starts the overlap timer where the last item is reached; it marks the entry element, a
BOUNDARY_IN route's too (log entry 48). A section ahead found not clear moves the highest index on, with a CLEAR one
between is a JUMP. The pointer's item is released when it was reached, is CLEAR and the next is not or it is the last;
with the next CLEAR too it is a VANISH; a release moves the pointer on, or marks the path released, and gives up the
item's locks, slots and claims and with the last item of a BOUNDARY_OUT route hands the train over, after the flank
items that protect it are given up: the outgoing list loses its oldest entry, and TRAIN-HANDED and ACCEPT-END follow, in
UP at once, in SYNC held back, in DOWN not at all; a flank item given up sends FLANK-DROP where an ASSURED entry left as
the last of its reference; a record with nothing left is freed. SEQ_FAULT and EMERGENCY take no section notice; SUSPECT
of an unreleased section is a fault; a transferred overlap is released. The index of a section is that of its first path
item, the overlap's the one after the last; the sections ahead are those from index 2 on that are not CLEAR, but an
OCCUPIED last one of a SHUNT route. -/
def Obligations.AReleaseOfAllItemsFreesTheInstance : Prop :=
  (∀ (s : State) (i : Nat) (r : Inst) (d : RouteDef), s.live i = some (r, d) →
    (s.releaseAll i).inst i = none
    ∧ (∀ j, j ≠ i → (s.releaseAll i).inst j = s.inst j)
    ∧ (s.releaseAll i).entryHeld i d.entry = false ∧ (s.releaseAll i).exitHeld i d.exit = false
    ∧ (∀ it ∈ d.path ++ d.overlap.toList,
        (∀ t role, (s.releaseAll i).track? it.sect = some t → t.lock ≠ .held i role)
        ∧ ∀ p ∈ it.points, ∀ x role pos, (s.releaseAll i).point? p.point = some x → x.lock ≠ .held i role pos)
    ∧ (∀ n f m, (s.releaseAll i).fctEntry n = some f → .route i m ∉ f.claimants)
    ∧ (s.releaseAll i).desk = s.desk
    ∧ ∀ t, (t = s.releaseAll i ∨ ∃ c e, t = s.settingFails i c e) →
      (∀ l, (t.olc.get l).aux = (s.olc.get l).aux.map fun (a : PendingAux) =>
        if a.kind = .emergencyRelease ∧ a.object = i then { a with broken := true } else a)
      ∧ (s.rqs.store ≠ [] → t.rqs.running = true) ∧ (s.rqs.running = true → t.rqs.rerun = true))
  ∧ (∀ (s : State) (i : Nat) (d : RouteDef),
      (∀ k, let emptied := (k = 1 ∧ s.entryHeld i d.entry = true) ∨ (k = d.path.length ∧ s.exitHeld i d.exit = true)
          ∨ (∃ it, d.path[k - 1]? = some it ∧ s.HoldsItem i it)
          ∨ s.SoleClaims fun c => ∃ m, c = .route i m ∧ (d.flank[m - 1]?).map FlankItem.protects = some k
        (emptied → s.Triggered (s.releasePathItem i d k))
        ∧ (¬ emptied → (s.releasePathItem i d k).rqs = s.rqs ∧ (s.releasePathItem i d k).rim = s.rim)
        ∧ (emptied → ∀ r, s.Triggered (s.releaseItem i r d k)))
      ∧ (let emptied := ∃ it, d.overlap = some it ∧ s.HoldsItem i it
        (emptied → s.Triggered (s.releaseOverlap i d))
        ∧ (¬ emptied → (s.releaseOverlap i d).rqs = s.rqs ∧ (s.releaseOverlap i d).rim = s.rim))
      ∧ (let emptied := s.entryHeld i d.entry = true ∨ s.exitHeld i d.exit = true
          ∨ (∃ it ∈ d.path ++ d.overlap.toList, s.HoldsItem i it) ∨ s.SoleClaims fun c => ∃ m, c = .route i m
        (emptied → s.Triggered (s.releaseItems i d))
        ∧ (¬ emptied → (s.releaseItems i d).rqs = s.rqs ∧ (s.releaseItems i d).rim = s.rim))
      ∧ s.Triggered (s.freeRecord i)
      ∧ ∀ l, ((s.freeRecord i).olc.get l).aux = (s.olc.get l).aux.map fun (a : PendingAux) =>
        if a.kind = .emergencyRelease ∧ a.object = i then { a with broken := true } else a)
  ∧ (∀ (s : State) (i : Nat) (r : Inst) (d : RouteDef) (o : Bool), s.inst i = some r →
      let t := s.trainEntry i r d o
      let entered : Inst := { r with
        state := .inUse, highest := 1, releasePtr := 1, approach := .stopped, causes := [], entryTaken := true
        acceptance := if d.cls = .boundaryIn then .released else r.acceptance }
      t.inst i = (((s.sectionsAhead d).foldl (fun s e => s.advance i e) (s.putInst i (some entered))).inst i).map
          (fun r => if r.state = .inUse then startOverlap d r else r)
        ∧ (s.sectionsAhead d = [] → t.inst i = some (startOverlap d entered))
        ∧ (d.cls ≠ .boundaryIn → ∀ g, s.signal? d.entry = some g →
            ∃ g', t.signal? d.entry = some g' ∧ g'.commanded = .stop)
        ∧ (∀ b, d.cls = .boundaryIn → s.entryLink d = some b → (t.blcAt b).incoming = (s.blcAt b).incoming.tail)
        ∧ (∀ l, .element d.entry ∈ (t.olc.get l).marks)
        ∧ (o = true → ∀ l, (t.olc.get l).overrun = some ⟨i, r.route, .pastStop, pathSect d 1⟩)
        ∧ startOverlap d r = (if r.highest = d.path.length ∧ r.overlap = .locked then
            { r with overlap := .timing, overlapTimer := .running d.overlapTime } else r))
  ∧ (∀ (s : State) (d : RouteDef) (e : Nat),
      (∀ j, pathIndex d e = some j ↔ 1 ≤ j ∧ (∃ it, d.path[j - 1]? = some it ∧ it.sect = e)
        ∧ ∀ k it, 1 ≤ k → k < j → d.path[k - 1]? = some it → it.sect ≠ e)
      ∧ (∀ j, seqIndex d e = some j ↔ pathIndex d e = some j
        ∨ (pathIndex d e = none ∧ (∃ it, d.overlap = some it ∧ it.sect = e) ∧ j = d.path.length + 1))
      ∧ (e ∈ s.sectionsAhead d ↔ ∃ k it, 2 ≤ k ∧ d.path[k - 1]? = some it ∧ it.sect = e ∧ s.isClear e = false
        ∧ ¬(d.cls = .shunt ∧ k = d.path.length ∧ ∃ x, s.track? e = some x ∧ x.occupancy = .occupied)))
  ∧ (∀ (s : State) (i : Nat) (r : Inst) (d : RouteDef), s.live i = some (r, d) → r.state = .inUse →
      (∀ e, seqIndex d e = none → s.advance i e = s)
      ∧ (∀ e j, seqIndex d e = some j →
        ((j ≤ r.highest ∨ (j = d.path.length + 1 ∧ r.highest = d.path.length)) → s.advance i e = s)
        ∧ (r.highest < j → ¬(j = d.path.length + 1 ∧ r.highest = d.path.length) →
          ((∀ k, r.highest < k → k < j → s.isClear (pathSect d k) = false) →
            s.advance i e = s.putInst i (some (startOverlap d { r with highest := min j d.path.length })))
          ∧ ((∃ k, r.highest < k ∧ k < j ∧ s.isClear (pathSect d k) = true) → s.advance i e = s.putInst i
              (some { r with state := .seqFault, faultRec := some (.jump, e), overlapTimer := .stopped }))))
      ∧ (∀ n, (r.pathReleased = true ∨ r.highest < r.releasePtr ∨ s.isClear (pathSect d r.releasePtr) = false) →
        State.tryRelease i (n + 1) s = s)
      ∧ (∀ n, r.pathReleased = false → r.releasePtr ≤ r.highest → s.isClear (pathSect d r.releasePtr) = true →
        ((r.releasePtr = d.path.length ∨ s.isClear (pathSect d (r.releasePtr + 1)) = false) →
          State.tryRelease i (n + 1) s = State.tryRelease i n ((s.releaseItem i r d r.releasePtr).tryFree i))
        ∧ (r.releasePtr ≠ d.path.length → s.isClear (pathSect d (r.releasePtr + 1)) = true →
          State.tryRelease i (n + 1) s = s.putInst i (some { r with
            state := .seqFault, faultRec := some (.vanish, pathSect d r.releasePtr), overlapTimer := .stopped })))
      ∧ (∀ e x y,
        (y ≠ .clear → x = .clear → s.takeNotice (.track i e x y) = s.advance i e)
        ∧ (y ≠ .clear → x ≠ .clear → s.takeNotice (.track i e x y) = s)
        ∧ (y = .clear → ¬(overlapSect d = some e ∧ r.overlap = .timing ∧ r.overlapTimer = .stopped) →
          (pathIndex d e = some r.releasePtr → s.takeNotice (.track i e x y) = State.tryRelease i 13 s)
          ∧ (pathIndex d e ≠ some r.releasePtr → s.takeNotice (.track i e x y) = s))
        ∧ (y = .clear → overlapSect d = some e → r.overlap = .timing → r.overlapTimer = .stopped →
          pathIndex d e ≠ some r.releasePtr →
          s.takeNotice (.track i e x y) = s.putInst i (some { r with overlapTimer := .running d.overlapTime })))
      ∧ ∀ e, r.lists d e = true →
        (((r.openItems d).any fun it => it.sect == e) = true ∨ (r.overlapHeld = true ∧ overlapSect d = some e) →
          State.takeSuspect e s i = s.putInst i
            (some { r with state := .seqFault, faultRec := some (.suspect, e), overlapTimer := .stopped }))
        ∧ (((r.openItems d).any fun it => it.sect == e) = false → ¬(r.overlapHeld = true ∧ overlapSect d = some e) →
          State.takeSuspect e s i = s))
  ∧ (∀ (s : State) (i : Nat) (r : Inst) (d : RouteDef) (e : Nat) (x y : Occ), s.live i = some (r, d) →
      (r.state = .cancelling →
        (pathIndex d e = some 1 → y ≠ .clear → s.takeNotice (.track i e x y) = s.trainEntry i r d true)
        ∧ (pathIndex d e ≠ some 1 ∨ y = .clear → s.takeNotice (.track i e x y) = s))
      ∧ (r.state = .seqFault ∨ r.state = .emergency → s.takeNotice (.track i e x y) = s))
  ∧ (∀ (s : State) (i : Nat) (r : Inst) (d : RouteDef) (k : Nat), s.inst i = some r → let t := s.releaseItem i r d k
      (k = d.path.length → t.inst i = some { r with
        pathReleased := true, acceptance := if d.cls == .boundaryOut then .released else r.acceptance })
      ∧ (k ≠ d.path.length → t.inst i = some { r with
        releasePtr := k + 1
        highest := if d.cls == .shunt && k + 1 == d.path.length && r.highest == k then d.path.length else r.highest })
      ∧ (k = 1 → t.entryHeld i d.entry = false) ∧ (k = d.path.length → t.exitHeld i d.exit = false)
      ∧ (∀ it, d.path[k - 1]? = some it → (∀ z role, t.track? it.sect = some z → z.lock ≠ .held i role)
          ∧ ∀ p ∈ it.points, ∀ z role pos, t.point? p.point = some z → z.lock ≠ .held i role pos)
      ∧ (∀ n f m, t.fctEntry n = some f → .route i m ∈ f.claimants →
          (d.flank[m - 1]?).map FlankItem.protects ≠ some k)
      ∧ (∀ b ref, (s.blcAt b).outRef d.number = some ref →
        ((s.handOver b d.number).blcAt b).outgoing = (s.blcAt b).outgoing.tail
        ∧ ((s.blcAt b).link = .up → (s.handOver b d.number).out =
            s.out ++ [.boundary b (.trainHanded ref), .boundary b (.acceptEnd ref)]))
      ∧ (∀ b ref, k = d.path.length → d.cls = .boundaryOut → s.exitLink d = some b →
        (s.blcAt b).outRef d.number = some ref →
        let u : State := ((r.boundaryItems d).filter fun p => (d.flank[p.1 - 1]?).map FlankItem.protects == some k).foldl
          (fun (s : State) p => s.giveUpAssurance p.2 i p.1) s
        (t.blcAt b).outgoing = (s.blcAt b).outgoing.tail
        ∧ ((s.blcAt b).link = .up → t.out = u.out ++ [.boundary b (.trainHanded ref), .boundary b (.acceptEnd ref)]
          ∧ (t.blcAt b).heldBack = (u.blcAt b).heldBack)
        ∧ ((s.blcAt b).link = .sync → t.out = u.out
          ∧ (t.blcAt b).heldBack = (u.blcAt b).heldBack ++ [.trainHanded ref, .acceptEnd ref])
        ∧ ((s.blcAt b).link = .down → t.out = u.out ∧ (t.blcAt b).heldBack = (u.blcAt b).heldBack))
      ∧ (∀ b m, let rest := (s.blcAt b).assurances.filter fun a => !a.isOf i m
        ((∀ a ∈ (s.blcAt b).assurances, a.isOf i m = false) → s.giveUpAssurance b i m = s)
        ∧ ∀ a, (s.blcAt b).assurances.find? (fun a => a.isOf i m) = some a →
          let v : State := s.modBlc b fun r => { r with assurances := rest }
          (a.assured = true → (∀ x ∈ rest, x.ref ≠ a.ref) → s.giveUpAssurance b i m = v.sendHeld b (.flankDrop a.ref))
          ∧ ((a.assured = false ∨ ∃ x ∈ rest, x.ref = a.ref) → s.giveUpAssurance b i m = v))
      ∧ (r.done = true → (s.tryFree i).inst i = none ∧ s.tryFree i = s.freeRecord i) ∧ (r.done = false → s.tryFree i = s)
      ∧ ((r.state = .cleared ∨ r.state = .inUse) → r.overlapHeld = true → s.takeNotice (.overlapTransferred i) =
          (s.putInst i (some { r with overlap := .released, overlapTimer := .stopped })).tryFree i)
      ∧ (¬((r.state = .cleared ∨ r.state = .inUse) ∧ r.overlapHeld = true) →
        s.takeNotice (.overlapTransferred i) = s))

/-- RETEST_REQUEST takes the retest at the head of the waiting requests. Whether the entry is still the one presented is
told by its mark presented (the model's own, log entry 20). An entry that has gone since it was presented, be the number
stored anew, lets the pass go on; one whose pair reserves a variant leaves the store with reason SET; one that is
blocked is put back and the pass goes on; with no free record it is put back and the pass ends. With another request, or
none, at the head it changes nothing (the model's choice, log entry 1). The pass presents the oldest marked entry; with
none left it ends, and a set rerun flag starts a new pass over a store that is not empty, oldest first. An entry put
back stays, or leaves as EXPIRED, as CANCELLED with the answer to its request, or as AUTHORITY_LOST. The variants tried
are those of the entry's pair. The answer to an entry's waiting STORE-CANCEL is the one its link held back; an entry
without one brings no answer. -/
def Obligations.RetestByTheOutcomeOfTheTrial : Prop :=
  ∀ (s : State),
    (∀ n rest, s.rim.requests = .retest n :: rest →
      let s0 : State := { s with rim := { s.rim with requests := rest } }
      ((∀ e, s.storeEntry n = some e → e.presented = false) →
        exec .retestRequest s = .next (State.finish s s0.nextRetest))
      ∧ ∀ e, s.storeEntry n = some e → e.presented = true →
        let s1 : State := { s0 with rqs := { s.rqs with
          store := modEntry n (fun (x : StoreEntry) => { x with presented := false, lifted := true }) s.rqs.store } }
        let e1 : StoreEntry := { e with presented := false, lifted := true }
        (∀ i d t, s1.tryRoute (.store e.link) (s1.pairVariants n) = .reserved i d t →
          exec .retestRequest s = .next (State.finish s
            ((((t.removeEntry e1 (.set i)).answerCancel e1 (.refused .wrongState)).nextRetest).checkWaiting i)))
        ∧ (∀ b, s1.tryRoute (.store e.link) (s1.pairVariants n) = .blocked b →
          exec .retestRequest s = .next (State.finish s (s1.putBack e1).nextRetest))
        ∧ (s1.tryRoute (.store e.link) (s1.pairVariants n) = .noInstance →
          exec .retestRequest s = .next (State.finish s (s1.putBack e1).endPass)))
    ∧ (s.notices = [] → (∀ n rest, s.rim.requests ≠ .retest n :: rest) → exec .retestRequest s = .next s)
    ∧ (∀ pre e post, s.rqs.store = pre ++ e :: post → (∀ x ∈ pre, x.passMark = false) → e.passMark = true →
      s.nextRetest = { s with
        rqs := { s.rqs with
          store := modEntry e.route (fun (x : StoreEntry) => { x with passMark := false, presented := true }) s.rqs.store }
        rim := { s.rim with requests := s.rim.requests ++ [.retest e.route] } })
    ∧ ((∀ x ∈ s.rqs.store, x.passMark = false) → s.nextRetest = s.endPass)
    ∧ (let plain := s.rqs.store.map (fun (e : StoreEntry) => { e with passMark := false })
      (s.rqs.rerun = false → s.endPass = { s with rqs := { s.rqs with store := plain, running := false } })
      ∧ (s.rqs.rerun = true → s.rqs.store = [] →
        s.endPass = { s with rqs := { s.rqs with running := false, rerun := false } })
      ∧ ∀ y rest, s.rqs.rerun = true → s.rqs.store = y :: rest →
        s.endPass.rqs.running = true ∧ s.endPass.rqs.rerun = false
        ∧ s.endPass.rim = { s.rim with requests := s.rim.requests ++ [.retest y.route] })
    ∧ ∀ e : StoreEntry,
      (e.expired = true → s.putBack e = (s.removeEntry e .expired).answerCancel e .accepted)
      ∧ (e.expired = false → e.waitingCancel ≠ none → s.putBack e = (s.removeEntry e .cancelled).answerCancel e .accepted)
      ∧ (e.expired = false → e.waitingCancel = none → s.holdsArea e.link e.area = false →
        s.putBack e = s.removeEntry e .authorityLost)
      ∧ (e.expired = false → e.waitingCancel = none → s.holdsArea e.link e.area = true →
        s.putBack e = { s with rqs := { s.rqs with
          store := modEntry e.route (fun (x : StoreEntry) => { x with lifted := false }) s.rqs.store } })
      ∧ (∀ n d, s.routeDef n = some d → s.pairVariants n = s.variants d.entry d.exit)
      ∧ (∀ n, s.routeDef n = none → s.pairVariants n = [])
      ∧ ∀ b : ReplyBody, (e.waitingCancel = none → s.answerCancel e b = s)
        ∧ ∀ q, e.waitingCancel = some q → s.answerCancel e b =
          ({ s with olc := s.olc.set e.link { s.olc.get e.link with held := none } } : State).answer e.link q b

/-- LIFETIME_TIMER_EXPIRY: an entry that is not lifted leaves with reason EXPIRED; a lifted one stays with its expiry
mark set; an entry that is gone, or whose timer does not run, changes nothing (the model's choice, log entry 1). -/
def Obligations.LifetimeExpiryByTheLiftedMark : Prop :=
  ∀ (s : State) (n : Nat), s.notices = [] →
    (∀ e k, s.storeEntry n = some e → e.lifetime = .running k → e.lifted = false →
      ∃ t, exec (.lifetimeTimerExpiry n) s = .next t
        ∧ t.rqs = { s.rqs with store := s.rqs.store.filter (fun x => x.route != n)
                               removal := s.rqs.removal.set e.link (some ⟨n, .expired⟩) }
        ∧ (∀ l, .store ∈ (t.olc.get l).marks) ∧ (∀ l, (t.olc.get l).desk = (s.olc.get l).desk)
        ∧ t = { s with rqs := t.rqs, olc := t.olc })
    ∧ (∀ e k, s.storeEntry n = some e → e.lifetime = .running k → e.lifted = true →
      exec (.lifetimeTimerExpiry n) s = .next { s with rqs := { s.rqs with
        store := modEntry n (fun (x : StoreEntry) => { x with expired := true, lifetime := .stopped }) s.rqs.store } })
    ∧ (((s.storeEntry n).all fun e => !e.lifetime.isRunning) = true → exec (.lifetimeTimerExpiry n) s = .next s)

/-- INCOMING_ACCEPTANCE_REQUEST takes the incoming request at the head: the route is reserved for the link and its ask
is pending, or the neighbour is refused UNAVAILABLE; in SYNC that refusal is held back, in DOWN it is not sent (log
entry 11). With another request, or none, at the head it changes nothing (the model's choice, log entry 1). -/
def Obligations.IncomingRequestReservesOrIsRefused : Prop :=
  ∀ (s : State),
    (∀ b ref n rest, s.rim.requests = .incoming b ref n :: rest →
      let s0 : State := { s with rim := { s.rim with requests := rest } }
      (∀ i d t, s0.tryRoute (.blc b) (s0.routeDef n).toList = .reserved i d t →
        exec .incomingAcceptanceRequest s = .next (State.finish s
          ((t.modBlc b fun r => { r with inAsks := r.inAsks ++ [⟨ref, i⟩] }).checkWaiting i)))
      ∧ ((∀ i d t, s0.tryRoute (.blc b) (s0.routeDef n).toList ≠ .reserved i d t) → s.notices = [] →
        ((s.blcAt b).link = .up →
          exec .incomingAcceptanceRequest s =
            .next { s0 with out := s.out ++ [.boundary b (.acceptRefuse ref .unavailable)] })
        ∧ ((s.blcAt b).link = .down → exec .incomingAcceptanceRequest s = .next s0)
        ∧ ((s.blcAt b).link = .sync → exec .incomingAcceptanceRequest s = .next (State.settleMarks s
            (s0.modBlc b fun r => { r with heldBack := r.heldBack ++ [.acceptRefuse ref .unavailable] })))))
    ∧ (s.notices = [] → (∀ b ref n rest, s.rim.requests ≠ .incoming b ref n :: rest) →
      exec .incomingAcceptanceRequest s = .next s)

/-! ### Boundary links -/

/-- STATUS_TIMER_EXPIRY sends a STATUS in every link state and starts the next period of 500 ms; where the link does not
serve, or the timer does not run, it changes nothing (the model's choice, log entry 1). A discarded frame counts in
DISCARDED alone, and a good frame of an unlisted kind in GOOD with a restart of the silence timer (log entry 29); a good
frame of a listed kind is that kind's own row, and changes nothing under this one (the model's choice, log entry 29); a
counter that changes marks the boundary. An operator request is refused NOT_PERMITTED at once in SYNC and UP, and
nothing is sent in DOWN. For every row that receives a telegram, the DIR rows and OPERATOR_REQUEST_ON_BOUNDARY among
them: one whose fields are out of their ranges is a frame with a wrong check, counted in DISCARDED, nothing else (log
entry 29); one whose fields are in range is counted in GOOD, and no more is done, while the part is LOADING and on an
unused link; in CONFIG_FAULT none of them changes anything, and no discarded frame does (the model's choice, log entry
19). A STATUS holds whether every line section here is CLEAR, the direction, and the references of the pending asks. -/
def Obligations.BoundaryFramesAreCountedAndAnswered : Prop :=
  (∀ (s : State) (b : BLink), s.notices = [] →
      (s.linkServes b = true → (s.blcAt b).statusTimer.isRunning = true →
        ∃ t, exec (.statusTimerExpiry b) s = .next t ∧ t.blcAt b = { s.blcAt b with statusTimer := .running 5 }
          ∧ t = { s with blc := t.blc, out := s.out ++ [.boundary b (.status (s.statusOf b))] }
          ∧ ∀ x, x ≠ b → t.blcAt x = s.blcAt x)
      ∧ ((s.linkServes b = false ∨ (s.blcAt b).statusTimer.isRunning = false) →
        exec (.statusTimerExpiry b) s = .next s)
      ∧ (s.linkServes b = true ↔ s.cfl.load = .operating ∧ (s.blcAt b).used = true)
      ∧ (∀ bytes, (∀ n, s.cfl.load ≠ .configFault n) → readBoundaryFrame (s.blcAt b).neighbour bytes = none →
        exec (.boundaryFrameDiscarded b bytes) s = .next (State.settleMarks s (s.modBlc b countDiscarded)))
      ∧ (∀ bytes k, (∀ n, s.cfl.load ≠ .configFault n) → readBoundaryFrame (s.blcAt b).neighbour bytes = some (.other k) →
        exec (.boundaryFrameDiscarded b bytes) s = .next (State.settleMarks s (s.goodFrame b)))
      ∧ (∀ bytes x, readBoundaryFrame (s.blcAt b).neighbour bytes = some x → (∀ k, x ≠ .other k) →
        exec (.boundaryFrameDiscarded b bytes) s = .next s)
      ∧ (∀ bytes n, s.cfl.load = .configFault n → exec (.boundaryFrameDiscarded b bytes) s = .next s)
      ∧ (∀ k : Byte, 1 ≤ k.toNat → k.toNat ≤ 22 → s.linkServes b = true →
        ((s.blcAt b).link ≠ .down → exec (.operatorRequestOnBoundary b k) s =
          .next (State.settleMarks s ((s.goodFrame b).send (.boundary b (.notPermitted k)))))
        ∧ ((s.blcAt b).link = .down →
          exec (.operatorRequestOnBoundary b k) s = .next (State.settleMarks s (s.goodFrame b))))
      ∧ (s.goodFrame b).blcAt b = { s.blcAt b with
          counts := { (s.blcAt b).counts with good := satInc (s.blcAt b).counts.good }
          silenceTimer := (s.blcAt b).silenceTimer.restart 15 }
      ∧ (s.modBlc b countDiscarded).blcAt b = { s.blcAt b with
          counts := { (s.blcAt b).counts with discarded := satInc (s.blcAt b).counts.discarded } }
      ∧ ∀ r : Blc → Blc, r = countDiscarded ∨
          r = (fun x => { countGood x with silenceTimer := x.silenceTimer.restart 15 }) →
        (∀ x, x ≠ b → (s.modBlc b r).blcAt x = s.blcAt x)
        ∧ (∀ l, ((s.modBlc b r).olc.get l).desk = (s.olc.get l).desk)
        ∧ (∀ l o, o ∈ ((s.modBlc b r).olc.get l).marks ↔
            o ∈ (s.olc.get l).marks ∨ (o = .boundary b ∧ (r (s.blcAt b)).counts ≠ (s.blcAt b).counts))
        ∧ s.modBlc b r = { s with blc := (s.modBlc b r).blc, olc := (s.modBlc b r).olc })
  ∧ (∀ (s : State) (b : BLink) (c : Instr) (good : Bool), s.notices = [] → telegramRow c = some (b, good) →
      (∀ n, s.cfl.load = .configFault n → exec c s = .next s)
      ∧ ((∀ n, s.cfl.load ≠ .configFault n) → good = false →
        exec c s = .next (State.settleMarks s (s.modBlc b countDiscarded)))
      ∧ ((∀ n, s.cfl.load ≠ .configFault n) → good = true → s.linkServes b = false →
        exec c s = .next (State.settleMarks s (s.goodFrame b))))
  ∧ ∀ (s : State) (b : BLink),
      ((s.statusOf b).lineClear = true ↔
        ∀ e ∈ (s.blcAt b).lineSections, ∃ k, s.track? e = some k ∧ k.occupancy = .clear)
      ∧ (s.statusOf b).direction = (s.blcAt b).direction
      ∧ (s.statusOf b).pendingRefs = (s.blcAt b).inAsks.map RefInst.ref

/-- STATUS: in every link state the neighbour's line clear flag is taken, the asks the body lists restart their response
timers, and a change that is ASKED ends where the body's direction is OUT; from DOWN the link enters SYNC, sends
HOLDINGS and starts both link timers; in SYNC it does no more; in UP, with no change going on then, a direction that is
not the mirror takes the link into SYNC. HOLDINGS: discarded in DOWN; in SYNC and from UP the link becomes UP with the
direction R172 settles. The direction after resolution: OUT with an outgoing acceptance or ask, be an incoming one
listed too (log entry 33), else IN with an incoming one, else NONE where the neighbour lists one, else by the two
directions: the own where they mirror or the neighbour's is NONE, the mirror of the neighbour's where the own is NONE,
NONE where they clash. What the rules do on the way. Entering SYNC sends one HOLDINGS of this end's view. Lists are
matched by reference, the oldest entry first, each reference with one entry. Of what is received, an outgoing entry not
listed is lost, an awaiting ask listed is taken as given (listed where the direction is OUT, else withdrawn), an ASSURED
entry not listed is lost, an ASKING one listed becomes ASSURED, the rest is kept, and the RIM is told (the order of the
reports is the model's choice, log entry 28). Of what is given, while the line is clear, an incoming entry not listed
that is neither HANDED nor ENDED is dropped and its instance withdrawn, and a claim of the link not listed leaves its
entry of the Flank Claim Table; else all is kept. At the end LOST_HOLDINGS is clear and what was held back goes out in
order, the timer of each ask starting. The order of the assurances given in a HOLDINGS is the model's choice (log entry
61). -/
def Obligations.LinksSynchroniseByStatusAndHoldings : Prop :=
  ((∀ (s : State) (b : BLink) (body : StatusBody), s.notices = [] → s.linkServes b = true → body.wellFormed = true →
      let ends := (s.blcAt b).change = .asked ∧ body.direction = .outward
      let r : Blc := { s.blcAt b with
        silenceTimer := (s.blcAt b).silenceTimer.restart 15, neighbourClear := body.lineClear
        counts := { (s.blcAt b).counts with good := satInc (s.blcAt b).counts.good }
        change := if ends then .idle else (s.blcAt b).change
        changeTimer := if ends then .stopped else (s.blcAt b).changeTimer
        outAsks := (s.blcAt b).outAsks.map fun a =>
          if body.pendingRefs.contains a.ref then { a with timer := a.timer.restart 40 } else a }
      ((s.blcAt b).link = .down → (s.blcAt b).change ≠ .asking → ∃ t, exec (.statusReceived b body) s = .next t
        ∧ t.blcAt b = { s.blcAt b with
            link := .sync, change := .idle, changeTimer := .stopped, release := .stopped, silenceTimer := .running 15
            holdingsTimer := .running 40, neighbourClear := body.lineClear, counts := r.counts, outAsks := r.outAsks }
        ∧ t.out = s.out ++ [.boundary b (.holdings (s.holdingsOf b))]
        ∧ (∀ x, x ≠ b → t.blcAt x = s.blcAt x) ∧ (∀ l, (t.olc.get l).desk = (s.olc.get l).desk)
        ∧ t = { s with blc := t.blc, out := t.out, olc := t.olc })
      ∧ ((s.blcAt b).link = .down → ∃ t, exec (.statusReceived b body) s = .next t ∧ (t.blcAt b).link = .sync
        ∧ (t.blcAt b).neighbourClear = body.lineClear)
      ∧ ((s.blcAt b).link = .sync
          ∨ ((s.blcAt b).link = .up ∧ (r.change ≠ .idle ∨ body.direction = mirror (s.blcAt b).direction)) →
        ∃ t, exec (.statusReceived b body) s = .next t
          ∧ t.blcAt b = r ∧ (∀ x, x ≠ b → t.blcAt x = s.blcAt x) ∧ (∀ l, (t.olc.get l).desk = (s.olc.get l).desk)
          ∧ t = { s with blc := t.blc, olc := t.olc })
      ∧ ((s.blcAt b).link = .up → r.change = .idle → body.direction ≠ mirror (s.blcAt b).direction →
        ∃ t, exec (.statusReceived b body) s = .next t
          ∧ t.blcAt b = { r with
              link := .sync, changeTimer := .stopped, release := .stopped, silenceTimer := .running 15
              holdingsTimer := .running 40 }
          ∧ t.out = s.out ++ [.boundary b (.holdings (s.holdingsOf b))]
          ∧ (∀ x, x ≠ b → t.blcAt x = s.blcAt x) ∧ (∀ l, (t.olc.get l).desk = (s.olc.get l).desk)
          ∧ t = { s with blc := t.blc, out := t.out, olc := t.olc }))
    ∧ ∀ (s : State) (b : BLink) (h : HoldingsBody), s.linkServes b = true → h.wellFormed = true →
      ((s.blcAt b).link = .down → s.notices = [] → exec (.holdingsReceived b h) s =
          .next (State.settleMarks s (s.goodFrame b)))
      ∧ ((s.blcAt b).link = .sync → exec (.holdingsReceived b h) s =
          .next (State.finish s ((s.goodFrame b).resolve b h)))
      ∧ ((s.blcAt b).link = .up → exec (.holdingsReceived b h) s =
          .next (State.finish s (((s.goodFrame b).enterSync b).resolve b h)))
      ∧ ((s.blcAt b).link ≠ .down →
        let u := if (s.blcAt b).link = .sync then s.goodFrame b else (s.goodFrame b).enterSync b
        ∃ t, exec (.holdingsReceived b h) s = .next t
          ∧ (t.blcAt b).direction = resolvedDirection (((u.resolveReceived b h).resolveGiven b h).blcAt b) h)
      ∧ ((s.blcAt b).link ≠ .down → ∃ t, exec (.holdingsReceived b h) s = .next t ∧ (t.blcAt b).link = .up
          ∧ (t.blcAt b).holdingsTimer = .stopped ∧ t.aum = s.aum ∧ t.ace = s.ace ∧ t.aou = s.aou ∧ t.rcat = s.rcat
          ∧ t.rim.sel = s.rim.sel))
  ∧ (∀ (r : Blc) (h : HoldingsBody),
      ((r.outgoing ≠ [] ∨ r.outAsks ≠ []) → resolvedDirection r h = .outward)
      ∧ (r.outgoing = [] → r.outAsks = [] →
        ((r.incoming ≠ [] ∨ r.inAsks ≠ []) → resolvedDirection r h = .inward)
        ∧ (r.incoming = [] → r.inAsks = [] →
          ((h.acceptancesGiven ≠ [] ∨ h.acceptancesReceived ≠ []) → resolvedDirection r h = .none)
          ∧ (h.acceptancesGiven = [] → h.acceptancesReceived = [] →
            (h.direction = mirror r.direction → resolvedDirection r h = r.direction)
            ∧ (r.direction = .none → resolvedDirection r h = mirror h.direction)
            ∧ (h.direction = .none → resolvedDirection r h = r.direction)
            ∧ (r.direction ≠ .none → h.direction = r.direction → resolvedDirection r h = .none)))))
  ∧ (∀ (s : State) (b : BLink), let r := s.blcAt b; let t := s.enterSync b
      s.holdingsOf b = ⟨r.direction, r.incoming.map Incoming.ref, r.outgoing.map RefInst.ref, s.givenRefs b,
        ((r.assurances.filter Assurance.assured).map Assurance.ref).eraseDups⟩
      ∧ (∀ ref, ref ∈ s.givenRefs b ↔ ∃ n f, s.fctEntry n = some f ∧ .boundary b ref ∈ f.claimants)
      ∧ t.blcAt b = { r with
        change := .idle, changeTimer := .stopped, link := .sync, release := .stopped, silenceTimer := .running 15
        holdingsTimer := .running 40 }
      ∧ (∀ x, x ≠ b → t.blcAt x = s.blcAt x) ∧ t.out = s.out ++ [.boundary b (.holdings (s.holdingsOf b))]
      ∧ t.notices = s.notices ++ (if r.change = .asking then [.directionFailed b] else []) ∧ t.lkc = s.lkc)
  ∧ (∀ (α : Type) (ref : α → Nat),
      (∀ refs, matchRefs ref [] refs = ([], [], refs))
      ∧ ∀ a l refs,
        (ref a ∈ refs → matchRefs ref (a :: l) refs =
          let m := matchRefs ref l (refs.erase (ref a))
          (a :: m.1, m.2.1, m.2.2))
        ∧ (ref a ∉ refs → matchRefs ref (a :: l) refs =
          let m := matchRefs ref l refs
          (m.1, a :: m.2.1, m.2.2)))
  ∧ (∀ (s : State) (b : BLink) (h : HoldingsBody), (s.blcAt b).link = .sync →
      let r := s.blcAt b
      let m := matchRefs RefInst.ref r.outgoing h.acceptancesGiven
      let k := matchRefs OutAsk.ref r.outAsks m.2.2
      let t := s.resolveReceived b h
      t.blcAt b = { r with
        outgoing := m.1 ++ (if r.direction = .outward then k.1.map fun a => ⟨a.ref, a.inst⟩ else [])
        outAsks := k.2.1
        heldBack := r.heldBack ++ (if r.direction = .outward then [] else k.1.map fun a => .acceptWithdraw a.ref)
        assurances := (r.assurances.filter fun a => h.assurancesGiven.contains a.ref || !a.assured).map
          fun (a : Assurance) => if h.assurancesGiven.contains a.ref then { a with assured := true, timer := .stopped } else a }
      ∧ t.notices = s.notices ++ m.2.1.map (fun a => .acceptanceLost a.inst)
        ++ k.1.map (fun a => if r.direction = .outward then .acceptanceGiven a.inst else .acceptanceRefused a.inst)
        ++ (r.assurances.filter fun a => a.assured && !h.assurancesGiven.contains a.ref).map
          (fun a => .assuranceLost a.inst a.item)
        ++ (r.assurances.filter fun a => !a.assured && h.assurancesGiven.contains a.ref).map
          (fun a => .assuranceGiven a.inst a.item)
      ∧ (∀ x, x ≠ b → t.blcAt x = s.blcAt x) ∧ t = { s with blc := t.blc, notices := t.notices, olc := t.olc })
  ∧ (∀ (s : State) (b : BLink) (h : HoldingsBody),
      let r := s.blcAt b
      let t := s.resolveGiven b h
      let dropped := (matchRefs Incoming.ref r.incoming h.acceptancesReceived).2.1.filter fun a => !a.handed && !a.ended
      let leaves := fun c => ∃ ref, c = Claimant.boundary b ref ∧ ref ∉ h.assurancesReceived
      (s.lineFree r = true ↔
        (∀ e ∈ r.lineSections, ∃ k, s.track? e = some k ∧ k.occupancy = .clear) ∧ r.neighbourClear = true)
      ∧ (s.lineFree r = false → t = s)
      ∧ (s.lineFree r = true →
        t.blcAt b = { r with incoming := r.incoming.filter fun a => !dropped.contains a }
        ∧ (∀ x, x ≠ b → t.blcAt x = s.blcAt x) ∧ t.out = s.out
        ∧ t.notices = s.notices ++ dropped.map (fun a => .withdrawn a.inst)
        ∧ (∀ n, s.fctEntry n = none → t.fctEntry n = none)
        ∧ ∀ n f, s.fctEntry n = some f →
          ((∀ c ∈ f.claimants, ¬leaves c) → t.fctEntry n = some f)
          ∧ ((∃ c ∈ f.claimants, leaves c) → (∀ c ∈ f.claimants, leaves c) → t.fctEntry n = none)
          ∧ ((∃ c ∈ f.claimants, leaves c) → (∃ c ∈ f.claimants, ¬leaves c) → ∃ l, t.fctEntry n = some { f with claimants := l }
            ∧ l.Sublist f.claimants ∧ ∀ c, c ∈ l ↔ c ∈ f.claimants ∧ ¬leaves c)))
  ∧ (∀ (s : State) (b : BLink) (h : HoldingsBody),
      let v := (s.resolveReceived b h).resolveGiven b h
      let t := s.resolve b h
      t.blcAt b = (v.blcAt b).heldBack.foldl (fun r x => startTimerOf x r) { v.blcAt b with
        direction := resolvedDirection (v.blcAt b) h, link := .up, holdingsTimer := .stopped, lostHoldings := false
        heldBack := [] }
      ∧ (t.blcAt b).direction = resolvedDirection (v.blcAt b) h
      ∧ (∀ x, x ≠ b → t.blcAt x = v.blcAt x) ∧ t.out = v.out ++ (v.blcAt b).heldBack.map (.boundary b)
      ∧ t.notices = v.notices ∧ t.lkc = v.lkc)
  ∧ ∀ (r : Blc) (ref : Nat),
      (∀ pre a post, r.outAsks = pre ++ a :: post → (∀ x ∈ pre, ¬(x.ref = ref ∧ x.timer = .stopped)) → a.ref = ref →
        a.timer = .stopped →
        startTimerOf (.acceptAsk ref) r = { r with outAsks := pre ++ { a with timer := .running 40 } :: post })
      ∧ (∀ pre a post, r.assurances = pre ++ a :: post →
        (∀ x ∈ pre, ¬(x.ref = ref ∧ x.assured = false ∧ x.timer = .stopped)) → a.ref = ref → a.assured = false →
        a.timer = .stopped →
        startTimerOf (.flankAsk ref) r = { r with assurances := pre ++ { a with timer := .running 40 } :: post })
      ∧ ∀ x, (∀ n, x ≠ .acceptAsk n) → (∀ n, x ≠ .flankAsk n) → startTimerOf x r = r

/-- SILENCE_TIMER_EXPIRY and HOLDINGS_RESPONSE_TIMER_EXPIRY take the link DOWN: nothing received stays, nothing is held
back, the neighbour's line is not clear, and the first is counted in SILENCE; other links keep their lines. As the link
goes DOWN, LOST_HOLDINGS is set where something was given, and stays set where it was. As it goes DOWN the RIM is told:
the direction failed where a change was ASKING, the link DOWN, each outgoing acceptance lost, each ASSURED entry lost
(the order of the reports is the model's choice, log entry 28); what was given, the incoming list, the pending asks and
the claims of the link, is kept, nothing is sent, and the link is marked. Something was given where there is an incoming
acceptance, a pending ask or a claim of the link. A timer that does not run changes nothing (the model's choice, log
entry 1). -/
def Obligations.LinkTimersTakeTheLinkDown : Prop :=
  ∀ (s : State) (b : BLink) (c : Instr),
    ((c = .silenceTimerExpiry b ∧ (s.blcAt b).silenceTimer.isRunning = true)
      ∨ (c = .holdingsResponseTimerExpiry b ∧ (s.blcAt b).holdingsTimer.isRunning = true) →
      ∃ t, exec c s = .next t ∧ (t.blcAt b).link = .down ∧ (t.blcAt b).outgoing = [] ∧ (t.blcAt b).outAsks = []
        ∧ (t.blcAt b).assurances = [] ∧ (t.blcAt b).heldBack = [] ∧ (t.blcAt b).neighbourClear = false
        ∧ (t.blcAt b).silenceTimer = .stopped ∧ (t.blcAt b).holdingsTimer = .stopped ∧ (t.blcAt b).change = .idle
        ∧ (t.blcAt b).direction = (s.blcAt b).direction
        ∧ (t.blcAt b).counts = (if c = .silenceTimerExpiry b then
            { (s.blcAt b).counts with silence := satInc (s.blcAt b).counts.silence } else (s.blcAt b).counts)
        ∧ (∀ x, x ≠ b → (t.blcAt x).line = (s.blcAt x).line)
        ∧ t.desk = { s.desk with lines := t.desk.lines })
    ∧ ((s.blcAt b).silenceTimer.isRunning = true → exec (.silenceTimerExpiry b) s =
        .next (State.finish s ((s.modBlc b fun r => { r with
          counts := { r.counts with silence := satInc r.counts.silence } }).goDown b)))
    ∧ ((s.blcAt b).holdingsTimer.isRunning = true →
      exec (.holdingsResponseTimerExpiry b) s = .next (State.finish s (s.goDown b)))
    ∧ (let r := s.blcAt b
      let t := s.goDown b
      t.blcAt b = { r with
        change := .idle, changeTimer := .stopped, link := .down, outgoing := [], outAsks := [], assurances := []
        neighbourClear := false, heldBack := [], silenceTimer := .stopped, holdingsTimer := .stopped
        lostHoldings := r.lostHoldings || s.givesAny b }
      ∧ (∀ x, x ≠ b → t.blcAt x = s.blcAt x) ∧ t.out = s.out ∧ t.lkc = s.lkc
      ∧ t.notices = s.notices ++ (if r.change = .asking then [.directionFailed b] else []) ++ .linkDown b
        :: r.outgoing.map (fun a => .acceptanceLost a.inst)
        ++ (r.assurances.filter Assurance.assured).map (fun a => .assuranceLost a.inst a.item)
      ∧ (r.link ≠ .down → ∀ l, .boundary b ∈ (t.olc.get l).marks)
      ∧ (s.givesAny b = true ↔ r.incoming ≠ [] ∨ r.inAsks ≠ []
        ∨ ∃ n f ref, s.fctEntry n = some f ∧ .boundary b ref ∈ f.claimants))
    ∧ (s.notices = [] →
      ((c = .silenceTimerExpiry b ∧ (s.blcAt b).silenceTimer.isRunning = false)
        ∨ (c = .holdingsResponseTimerExpiry b ∧ (s.blcAt b).holdingsTimer.isRunning = false)) → exec c s = .next s)

/-- DIR_ASK in UP outside a crossing: granted, the direction is IN, the change ASKED with its response timer and
DIR-GIVE goes out; not granted, DIR-REFUSE goes out. In SYNC it is refused. In a crossing the senior end refuses, and
the junior end gives up its own change, which is reported failed, and answers by the same conditions but the EXIT
slot's, which are written out. The answers to a direction change. DIR-GIVE to an ASKING end makes the direction OUT;
DIR-REFUSE, and the response timer in ASKING, leave it; either way the change is IDLE. The response timer in ASKED takes
the link into SYNC. What no change awaits is only counted. A response timer that does not run changes nothing (the
model's choice, log entry 1). The RIM is told of each: direction held with DIR-GIVE, direction failed with DIR-REFUSE
and with the timer in ASKING. A reservation's direction request sends DIR-ASK where the tests pass, and else is reported
failed. -/
def Obligations.DirectionIsAskedGrantedAndRefused : Prop :=
  (∀ (s : State) (b : BLink), s.notices = [] → s.linkServes b = true →
      ((s.blcAt b).link = .up → (s.blcAt b).change ≠ .asking → (s.goodFrame b).grantsDirection b true = true →
        exec (.dirAskReceived b) s = .next (State.settleMarks s
          (((s.goodFrame b).modBlc b fun r =>
            { r with direction := .inward, change := .asked, changeTimer := .running 40 }).send (.boundary b .dirGive))))
      ∧ ((s.blcAt b).link = .up → (s.blcAt b).change ≠ .asking → (s.goodFrame b).grantsDirection b true = false →
        exec (.dirAskReceived b) s = .next (State.settleMarks s ((s.goodFrame b).send (.boundary b .dirRefuse))))
      ∧ ((s.blcAt b).link = .up → (s.blcAt b).change = .asking → (s.blcAt b).senior = true →
        exec (.dirAskReceived b) s = .next (State.settleMarks s ((s.goodFrame b).send (.boundary b .dirRefuse))))
      ∧ ((s.blcAt b).link = .up → (s.blcAt b).change = .asking → (s.blcAt b).senior = false →
        let own : State := ((s.goodFrame b).modBlc b fun r => { r with change := .idle, changeTimer := .stopped }).notify
          (.directionFailed b)
        (own.grantsDirection b false = true → exec (.dirAskReceived b) s = .next (State.finish s
          ((own.modBlc b fun r => { r with direction := .inward, change := .asked, changeTimer := .running 40 }).send
            (.boundary b .dirGive))))
        ∧ (own.grantsDirection b false = false →
          exec (.dirAskReceived b) s = .next (State.finish s (own.send (.boundary b .dirRefuse))))
        ∧ (own.grantsDirection b false = true ↔ (s.blcAt b).isOpen = true ∧ s.lineClear b = true
            ∧ (s.blcAt b).outgoing = [] ∧ (s.blcAt b).outAsks = [] ∧ (s.blcAt b).incoming = [] ∧ (s.blcAt b).inAsks = [])
        ∧ ∃ t, exec (.dirAskReceived b) s = .next t ∧ (t.blcAt b).change ≠ .asking)
      ∧ ((s.goodFrame b).grantsDirection b true = true ↔ (s.blcAt b).isOpen = true ∧ s.lineClear b = true
            ∧ (s.blcAt b).outgoing = [] ∧ (s.blcAt b).outAsks = [] ∧ (s.blcAt b).incoming = [] ∧ (s.blcAt b).inAsks = []
            ∧ ∃ e, s.boundary? (s.boundaryElem b) = some e ∧ e.exitSlot = .empty)
      ∧ ((s.blcAt b).link = .sync →
        exec (.dirAskReceived b) s = .next (State.settleMarks s ((s.goodFrame b).send (.boundary b .dirRefuse))))
      ∧ ((s.blcAt b).link = .down → exec (.dirAskReceived b) s = .next (State.settleMarks s (s.goodFrame b))))
  ∧ (∀ (s : State) (b : BLink),
      (s.linkServes b = true → (s.blcAt b).link = .up → (s.blcAt b).change = .asking →
        exec (.dirGiveReceived b) s = .next (State.finish s (((s.goodFrame b).modBlc b fun r =>
          { r with direction := .outward, change := .idle, changeTimer := .stopped }).notify (.directionHeld b)))
        ∧ exec (.dirRefuseReceived b) s = .next (State.finish s (((s.goodFrame b).modBlc b fun r =>
          { r with change := .idle, changeTimer := .stopped }).notify (.directionFailed b)))
        ∧ (∃ t, exec (.dirGiveReceived b) s = .next t ∧ (t.blcAt b).direction = .outward ∧ (t.blcAt b).change = .idle
          ∧ (t.blcAt b).changeTimer = .stopped ∧ (∀ x, x ≠ b → (t.blcAt x).line = (s.blcAt x).line)
          ∧ t.desk = { s.desk with lines := t.desk.lines })
        ∧ (∃ t, exec (.dirRefuseReceived b) s = .next t ∧ (t.blcAt b).direction = (s.blcAt b).direction
          ∧ (t.blcAt b).change = .idle ∧ (t.blcAt b).changeTimer = .stopped
          ∧ (∀ x, x ≠ b → (t.blcAt x).line = (s.blcAt x).line) ∧ t.desk = { s.desk with lines := t.desk.lines }))
      ∧ ((s.blcAt b).changeTimer.isRunning = true →
        ((s.blcAt b).change = .asking → exec (.dirResponseTimerExpiry b) s = .next (State.finish s
          ((s.modBlc b fun r => { r with change := .idle, changeTimer := .stopped }).notify (.directionFailed b))))
        ∧ ((s.blcAt b).change = .asked → exec (.dirResponseTimerExpiry b) s = .next (State.finish s (s.enterSync b)))
        ∧ ((s.blcAt b).change = .asking → ∃ t, exec (.dirResponseTimerExpiry b) s = .next t
          ∧ (t.blcAt b).line = { s.blcAt b with change := .idle, changeTimer := .stopped }.line
          ∧ (∀ x, x ≠ b → (t.blcAt x).line = (s.blcAt x).line))
        ∧ ((s.blcAt b).change = .asked → ∃ t, exec (.dirResponseTimerExpiry b) s = .next t
          ∧ (t.blcAt b).link = .sync ∧ (t.blcAt b).change = .idle ∧ (t.blcAt b).holdingsTimer = .running 40
          ∧ (t.blcAt b).direction = (s.blcAt b).direction))
      ∧ (s.notices = [] → (s.blcAt b).changeTimer.isRunning = false → exec (.dirResponseTimerExpiry b) s = .next s)
      ∧ (s.notices = [] → s.linkServes b = true → ((s.blcAt b).link ≠ .up ∨ (s.blcAt b).change ≠ .asking) →
        exec (.dirGiveReceived b) s = .next (State.settleMarks s (s.goodFrame b))
          ∧ exec (.dirRefuseReceived b) s = .next (State.settleMarks s (s.goodFrame b))))
  ∧ ∀ (s : State) (b : BLink),
      (s.directionTests b = true → s.requestDirection b =
        (s.modBlc b fun r => { r with change := .asking, changeTimer := .running 40 }).send (.boundary b .dirAsk))
      ∧ (s.directionTests b = false → s.requestDirection b = s.notify (.directionFailed b))

/-- ACCEPT_ASK: in UP the first check that fails gives the reason of the refusal sent at once, and one that passes hands
the route to the RIM; an ask that still waits in the RIM counts for FULL (log entry 11); in SYNC it is refused LINK; in
DOWN it is only counted. The answers to an ACCEPT-ASK of this end, in UP. ACCEPT-GIVE moves the ask to the outgoing list
where the direction is OUT and the RIM is told; ACCEPT-REFUSE and the response timer remove it and the RIM is told; an
ACCEPT-GIVE that no ask or entry awaits is withdrawn. In SYNC and DOWN either answer is only counted. The expiry of no
running ask changes nothing (the model's choice, log entry 1). The route of an incoming reference is the BOUNDARY_IN
definition with the boundary's element as entry and that reference, where only one has them. An instance's acceptance is
asked where its route has a reference, the link is not DOWN, the direction is OUT, the boundary open and nothing
outgoing: sent with its response timer in UP, held back without one in SYNC; else it is refused at once. Giving it up
takes the ask, or else the acceptance, off and sends ACCEPT-WITHDRAW, held back in SYNC and not sent in DOWN. -/
def Obligations.AcceptanceIsAskedAndAnswered : Prop :=
  (∀ (s : State) (b : BLink) (ref : Nat), s.notices = [] → s.linkServes b = true → ref < 16 →
      ((s.blcAt b).link = .up →
        (∀ x, s.acceptAskCheck b ref = .error x → exec (.acceptAskReceived b ref) s =
          .next (State.settleMarks s ((s.goodFrame b).send (.boundary b (.acceptRefuse ref x)))))
        ∧ (∀ d, s.acceptAskCheck b ref = .ok d → exec (.acceptAskReceived b ref) s =
          .next (State.settleMarks s { s.goodFrame b with
            rim := { s.rim with requests := s.rim.requests ++ [.incoming b ref d.number] } })))
      ∧ ((s.blcAt b).link = .sync → exec (.acceptAskReceived b ref) s =
        .next (State.settleMarks s ((s.goodFrame b).send (.boundary b (.acceptRefuse ref .link)))))
      ∧ ((s.blcAt b).link = .down → exec (.acceptAskReceived b ref) s = .next (State.settleMarks s (s.goodFrame b)))
      ∧ ((s.blcAt b).link ≠ .up →
        exec (.acceptGiveReceived b ref) s = .next (State.settleMarks s (s.goodFrame b))
        ∧ ∀ x, exec (.acceptRefuseReceived b ref x) s = .next (State.settleMarks s (s.goodFrame b)))
      ∧ ((s.blcAt b).direction ≠ .inward → s.acceptAskCheck b ref = .error .direction)
      ∧ ((s.blcAt b).direction = .inward → (s.blcAt b).isOpen = false → s.acceptAskCheck b ref = .error .closed)
      ∧ ((s.blcAt b).direction = .inward → (s.blcAt b).isOpen = true →
        ((s.blcAt b).incoming ≠ [] ∨ (s.blcAt b).inAsks ≠ [] ∨ s.askWaits b = true) →
        s.acceptAskCheck b ref = .error .full)
      ∧ ((s.blcAt b).direction = .inward → (s.blcAt b).isOpen = true →
        (s.blcAt b).incoming = [] → (s.blcAt b).inAsks = [] → s.askWaits b = false →
        (s.incomingRoute b ref = none → s.acceptAskCheck b ref = .error .unknown)
        ∧ ∀ d, s.incomingRoute b ref = some d → s.acceptAskCheck b ref = .ok d))
  ∧ (∀ (s : State) (b : BLink) (ref : Nat), s.Up b → ref < 16 →
      (∀ a, (s.blcAt b).outAsks.find? (fun a => a.ref == ref) = some a →
        ((s.blcAt b).direction = .outward → exec (.acceptGiveReceived b ref) s = .next (State.finish s
          (((s.goodFrame b).modBlc b fun r => { r with
            outAsks := dropFirst (fun x => x == a) r.outAsks, outgoing := r.outgoing ++ [⟨a.ref, a.inst⟩] }).notify
              (.acceptanceGiven a.inst))))
        ∧ ((s.blcAt b).direction ≠ .outward → exec (.acceptGiveReceived b ref) s = .next (State.finish s
          ((((s.goodFrame b).modBlc b fun r => { r with outAsks := dropFirst (fun x => x == a) r.outAsks }).send
            (.boundary b (.acceptWithdraw a.ref))).notify (.acceptanceRefused a.inst))))
        ∧ ∀ x, exec (.acceptRefuseReceived b ref x) s = .next (State.finish s
          (((s.goodFrame b).modBlc b fun r => { r with outAsks := dropFirst (fun x => x == a) r.outAsks }).notify
            (.acceptanceRefused a.inst))))
      ∧ ((s.blcAt b).outAsks.all (fun a => a.ref != ref) = true →
        ((s.blcAt b).outgoing.any (fun a => a.ref == ref) = true →
          exec (.acceptGiveReceived b ref) s = .next (State.settleMarks s (s.goodFrame b)))
        ∧ ((s.blcAt b).outgoing.any (fun a => a.ref == ref) = false → exec (.acceptGiveReceived b ref) s =
          .next (State.settleMarks s ((s.goodFrame b).send (.boundary b (.acceptWithdraw ref)))))
        ∧ ∀ x, exec (.acceptRefuseReceived b ref x) s = .next (State.settleMarks s (s.goodFrame b)))
      ∧ ∀ i, (∀ a, (s.blcAt b).outAsks.find? (fun a => a.inst == i && a.timer.isRunning) = some a →
          exec (.acceptResponseTimerExpiry b i) s = .next (State.finish s
            ((s.modBlc b fun r => { r with outAsks := dropFirst (fun x => x == a) r.outAsks }).notify
              (.acceptanceRefused a.inst))))
        ∧ ((s.blcAt b).outAsks.find? (fun a => a.inst == i && a.timer.isRunning) = none →
          exec (.acceptResponseTimerExpiry b i) s = .next s))
  ∧ (∀ (s : State) (b : BLink) (ref : Nat),
      let names := fun (d : RouteDef) => d.cls = .boundaryIn ∧ d.entry = s.boundaryElem b ∧ d.inRef = some ref
      (s.incomingRoute b ref = none ↔ ∀ d ∈ s.rcat, ¬names d)
      ∧ (∀ d, s.incomingRoute b ref = some d → d ∈ s.rcat ∧ names d)
      ∧ (∀ d ∈ s.rcat, names d → (∀ x ∈ s.rcat, names x → x = d) → s.incomingRoute b ref = some d)
      ∧ (∀ e r, s.boundary? e = some r → r.link = b → (∀ x y, x < e → s.boundary? x = some y → y.link ≠ b) →
        s.boundaryElem b = e)
      ∧ (s.askWaits b = true ↔ ∃ ref n, .incoming b ref n ∈ s.rim.requests))
  ∧ ∀ (s : State) (b : BLink) (i : Nat),
      (∀ n, let r := s.blcAt b; let t := s.askAcceptance b i n
        ((r.outRef n = none ∨ r.link = .down ∨ r.direction ≠ .outward ∨ r.isOpen = false ∨ r.outgoing ≠ [] ∨ r.outAsks ≠ []) →
          t = s.notify (.acceptanceRefused i))
        ∧ ∀ ref, r.outRef n = some ref → r.direction = .outward → r.isOpen = true → r.outgoing = [] → r.outAsks = [] →
          (r.link = .up → t.blcAt b = { r with outAsks := [⟨ref, i, .running 40⟩] }
            ∧ t.out = s.out ++ [.boundary b (.acceptAsk ref)])
          ∧ (r.link = .sync → t.blcAt b = { r with
              outAsks := [⟨ref, i, .stopped⟩], heldBack := r.heldBack ++ [.acceptAsk ref] }
            ∧ t.out = s.out))
      ∧ (∀ a, (s.blcAt b).outAsks.find? (fun a => a.inst == i) = some a → s.giveUpAcceptance b i =
        (s.modBlc b fun r => { r with outAsks := r.outAsks.filter fun a => a.inst != i }).sendHeld b (.acceptWithdraw a.ref))
      ∧ ((s.blcAt b).outAsks.find? (fun a => a.inst == i) = none →
        (∀ a, (s.blcAt b).outgoing.find? (fun a => a.inst == i) = some a → s.giveUpAcceptance b i =
          (s.modBlc b fun r => { r with outgoing := r.outgoing.filter fun a => a.inst != i }).sendHeld b
            (.acceptWithdraw a.ref))
        ∧ ((s.blcAt b).outgoing.find? (fun a => a.inst == i) = none → s.giveUpAcceptance b i = s))
      ∧ ∀ x, ((s.blcAt b).link = .up → s.sendHeld b x = s.send (.boundary b x))
        ∧ ((s.blcAt b).link = .sync → s.sendHeld b x = s.modBlc b fun r => { r with heldBack := r.heldBack ++ [x] })
        ∧ ((s.blcAt b).link = .down → s.sendHeld b x = s)

/-- What the neighbour does with an acceptance this end gave, in UP. ACCEPT-WITHDRAW removes an entry that is neither
HANDED nor ENDED and whose instance has taken no entry, or a pending ask, and the RIM is told; TRAIN-HANDED and
ACCEPT-END mark the oldest entry of the reference not yet so marked. In SYNC and DOWN each of the three is only counted.
A withdrawal reaches the RIM as a notice, which releases the instance where it has taken no entry. The release is of all
items, the BOUNDARY flank items given up with them (the model's choice, log entry 56). A pending ask whose instance
clears is answered ACCEPT-GIVE and joins the incoming list where the direction is IN, and else is refused with reason
DIRECTION and the instance withdrawn; one whose instance fails is refused UNAVAILABLE. -/
def Obligations.AnAcceptanceGivenIsWithdrawnOrUsed : Prop :=
  (∀ (s : State) (b : BLink) (ref : Nat) (c : Instr), s.notices = [] → s.linkServes b = true → ref < 16 →
    (s.blcAt b).link ≠ .up → c = .acceptWithdrawReceived b ref ∨ c = .trainHandedReceived b ref ∨ c = .acceptEndReceived b ref →
    exec c s = .next (State.settleMarks s (s.goodFrame b)))
  ∧ (∀ (s : State) (a : Incoming), s.withdrawable a = true ↔
    a.handed = false ∧ a.ended = false ∧ ∀ r, s.inst a.inst = some r → r.entryTaken = false)
  ∧ (∀ (s : State) (i : Nat),
    (s.inst i = none → s.takeNotice (.withdrawn i) = s)
    ∧ ∀ r, s.inst i = some r →
      (r.entryTaken = true → s.takeNotice (.withdrawn i) = s)
      ∧ (r.entryTaken = false → s.takeNotice (.withdrawn i) = s.releaseAll i))
  ∧ (∀ (s : State) (b : BLink) (ref : Nat), s.Up b → ref < 16 →
    (∀ a, (s.blcAt b).incoming.find? (fun a => a.ref == ref) = some a →
      (s.withdrawable a = true → exec (.acceptWithdrawReceived b ref) s = .next (State.finish s
        (((s.goodFrame b).modBlc b fun r => { r with incoming := dropFirst (fun x => x == a) r.incoming }).notify
          (.withdrawn a.inst))))
      ∧ (s.withdrawable a = false →
        exec (.acceptWithdrawReceived b ref) s = .next (State.settleMarks s (s.goodFrame b))))
    ∧ ((s.blcAt b).incoming.all (fun a => a.ref != ref) = true →
      (∀ a, (s.blcAt b).inAsks.find? (fun a => a.ref == ref) = some a →
        exec (.acceptWithdrawReceived b ref) s = .next (State.finish s
          (((s.goodFrame b).modBlc b fun r => { r with inAsks := dropFirst (fun x => x == a) r.inAsks }).notify
            (.withdrawn a.inst))))
      ∧ ((s.blcAt b).inAsks.all (fun a => a.ref != ref) = true →
        exec (.acceptWithdrawReceived b ref) s = .next (State.settleMarks s (s.goodFrame b))))
    ∧ (∃ t, exec (.trainHandedReceived b ref) s = .next t
      ∧ t.blcAt b = { (s.goodFrame b).blcAt b with
          incoming := changeFirst (fun a => a.ref == ref && !a.handed)
            (fun (a : Incoming) => { a with handed := true }) (s.blcAt b).incoming }
      ∧ (∀ x, x ≠ b → t.blcAt x = s.blcAt x) ∧ (∀ l, (t.olc.get l).desk = (s.olc.get l).desk)
      ∧ t = { s with blc := t.blc, olc := t.olc })
    ∧ (∃ t, exec (.acceptEndReceived b ref) s = .next t
      ∧ t.blcAt b = { (s.goodFrame b).blcAt b with
          incoming := changeFirst (fun a => a.ref == ref && !a.ended)
            (fun (a : Incoming) => { a with ended := true }) (s.blcAt b).incoming }
      ∧ (∀ x, x ≠ b → t.blcAt x = s.blcAt x) ∧ (∀ l, (t.olc.get l).desk = (s.olc.get l).desk)
      ∧ t = { s with blc := t.blc, olc := t.olc }))
  ∧ ∀ (s : State) (b : BLink) (i : Nat),
    ((s.blcAt b).inAsks.find? (fun a => a.inst == i) = none → s.acceptanceCleared b i = s ∧ s.refusePending b i = s)
    ∧ ∀ a, (s.blcAt b).inAsks.find? (fun a => a.inst == i) = some a →
      ((s.blcAt b).direction = .inward → s.acceptanceCleared b i =
        (s.modBlc b fun r => { r with
          inAsks := r.inAsks.filter (fun a => a.inst != i), incoming := r.incoming ++ [⟨a.ref, i, false, false⟩] }).sendHeld b
          (.acceptGive a.ref))
      ∧ ((s.blcAt b).direction ≠ .inward → s.acceptanceCleared b i =
        ((s.modBlc b fun r => { r with inAsks := r.inAsks.filter fun a => a.inst != i }).sendHeld b
          (.acceptRefuse a.ref .direction)).notify (.withdrawn i))
      ∧ s.refusePending b i = ((s.modBlc b fun r => { r with inAsks := r.inAsks.filter fun a => a.inst != i }).sendHeld b
          (.acceptRefuse a.ref .unavailable)).checkLost b

/-- Flank assurance over a link. FLANK-ASK in UP is answered as the LKC takes it, at once; FLANK-DROP removes the claim;
FLANK-GIVE makes the oldest ASKING entry ASSURED, FLANK-REFUSE and the response timer remove it, and the RIM is told;
the expiry of no running ask changes nothing (the model's choice, log entry 1). In SYNC FLANK-ASK is refused and
FLANK-DROP still taken; FLANK-GIVE and FLANK-REFUSE, and in DOWN every flank telegram, are only counted.
RELEASE_TIMER_EXPIRY in DOWN: everything given on the link is released: the incoming list and the pending asks are
empty, no claim of the link is left, LOST_HOLDINGS is clear. In another link state, or with no release running, it
changes nothing (the model's choice, log entry 1). A FLANK-ASK is taken by the offer of its reference, of two the first
(the model's choice, log entry 57): with none it is refused; where the link already is a claimant of the offered
element's entry it is given with nothing changed; else the claim test gives it with a claim taken, or refuses it. The
oldest ASKING entry of a reference is the first of the list. -/
def Obligations.AssurancesAndBoundaryRelease : Prop :=
  (∀ (s : State) (b : BLink) (ref : Nat), s.notices = [] → s.linkServes b = true → ref < 16 →
      ((s.blcAt b).link = .sync →
        exec (.flankAskReceived b ref) s =
          .next (State.settleMarks s ((s.goodFrame b).send (.boundary b (.flankRefuse ref))))
        ∧ exec (.flankDropReceived b ref) s = .next (State.settleMarks s ((s.goodFrame b).boundaryDrop b ref)))
      ∧ ((s.blcAt b).link = .down →
        exec (.flankAskReceived b ref) s = .next (State.settleMarks s (s.goodFrame b))
        ∧ exec (.flankDropReceived b ref) s = .next (State.settleMarks s (s.goodFrame b)))
      ∧ ((s.blcAt b).link ≠ .up →
        exec (.flankGiveReceived b ref) s = .next (State.settleMarks s (s.goodFrame b))
        ∧ exec (.flankRefuseReceived b ref) s = .next (State.settleMarks s (s.goodFrame b))))
  ∧ (∀ (s : State) (b : BLink) (ref : Nat), s.Up b → ref < 16 →
      ((((s.goodFrame b).flankAsk b ref).2 = true → exec (.flankAskReceived b ref) s = .next (State.finish s
          (((s.goodFrame b).flankAsk b ref).1.send (.boundary b (.flankGive ref)))))
        ∧ (((s.goodFrame b).flankAsk b ref).2 = false → exec (.flankAskReceived b ref) s =
          .next (State.settleMarks s ((s.goodFrame b).send (.boundary b (.flankRefuse ref))))))
      ∧ exec (.flankDropReceived b ref) s = .next (State.finish s ((s.goodFrame b).boundaryDrop b ref))
      ∧ (∀ n f, ((s.goodFrame b).boundaryDrop b ref).fctEntry n = some f → .boundary b ref ∉ f.claimants)
      ∧ (∀ a, s.askingEntry b ref = some a →
        exec (.flankGiveReceived b ref) s = .next (State.finish s
          (((s.goodFrame b).modBlc b fun r => { r with
            assurances := changeFirst (fun x => x.ref == ref && !x.assured)
              (fun (x : Assurance) => { x with assured := true, timer := .stopped }) r.assurances }).notify
            (.assuranceGiven a.inst a.item)))
        ∧ exec (.flankRefuseReceived b ref) s = .next (State.finish s
          (((s.goodFrame b).modBlc b fun r => { r with assurances := dropFirst (fun x => x == a) r.assurances }).notify
            (.assuranceRefused a.inst a.item))))
      ∧ (s.askingEntry b ref = none →
        exec (.flankRefuseReceived b ref) s = .next (State.settleMarks s (s.goodFrame b))
        ∧ ((s.blcAt b).assurances.any (fun a => a.ref == ref) = true →
          exec (.flankGiveReceived b ref) s = .next (State.settleMarks s (s.goodFrame b)))
        ∧ ((s.blcAt b).assurances.any (fun a => a.ref == ref) = false → exec (.flankGiveReceived b ref) s =
          .next (State.settleMarks s ((s.goodFrame b).send (.boundary b (.flankDrop ref))))))
      ∧ ∀ i m, (∀ a, (s.blcAt b).assurances.find? (fun a => a.isOf i m && !a.assured && a.timer.isRunning) = some a →
          exec (.flankResponseTimerExpiry b i m) s = .next (State.finish s
            ((s.modBlc b fun r => { r with assurances := dropFirst (fun x => x == a) r.assurances }).notify
              (.assuranceRefused a.inst a.item))))
        ∧ ((s.blcAt b).assurances.find? (fun a => a.isOf i m && !a.assured && a.timer.isRunning) = none →
          exec (.flankResponseTimerExpiry b i m) s = .next s))
  ∧ (∀ (s : State) (b : BLink),
      ((s.blcAt b).release.isRunning = true → (s.blcAt b).link = .down →
        exec (.releaseTimerExpiry b) s = .next (State.finish s (s.releaseHoldings b))
        ∧ ((s.releaseHoldings b).blcAt b).incoming = [] ∧ ((s.releaseHoldings b).blcAt b).inAsks = []
        ∧ ((s.releaseHoldings b).blcAt b).lostHoldings = false ∧ ((s.releaseHoldings b).blcAt b).release = .stopped
        ∧ (s.releaseHoldings b).givenRefs b = [])
      ∧ (s.notices = [] → ((s.blcAt b).release.isRunning = false ∨ (s.blcAt b).link ≠ .down) →
        exec (.releaseTimerExpiry b) s = .next s))
  ∧ ∀ (s : State) (b : BLink) (ref : Nat),
      ((∀ o ∈ (s.blcAt b).offers, o.1 ≠ ref) → s.flankAsk b ref = (s, false))
      ∧ (∀ pre t post, (s.blcAt b).offers = pre ++ (ref, t) :: post → (∀ o ∈ pre, o.1 ≠ ref) →
        let held := ∃ f, s.claim? (s.flankRef (FlankTarget.elem t)) = some f ∧ .boundary b ref ∈ f.claimants
        (held → s.flankAsk b ref = (s, true))
        ∧ (¬held → s.claimOk [] t true = true → s.flankAsk b ref = (s.takeClaim (.boundary b ref) t, true))
        ∧ (¬held → s.claimOk [] t true = false → s.flankAsk b ref = (s, false)))
      ∧ s.askingEntry b ref = (s.blcAt b).assurances.find? fun a => a.ref == ref && !a.assured

/-! ### Frames and invariants -/

/-- Reading the frame of a request gives the request back, with its sequence number and every field (11.3.1); the codes
of positions and flags are the model's (PRESUMED, log entry 14), and so are the bit order and the form of the cyclic
check (PRESUMED, log entry 64). Reading the boundary frame of a telegram whose fields are in range gives the telegram
back where the station code it was sent with is the neighbour's, and a wrong check for every other code (11.3.2, R190);
so do the frame of an operator request kind, whatever its body (the model's choice, log entry 29), and that of
NOT_PERMITTED, whose kind no row lists. Only a frame is read: its start byte, a length byte that is that of its content
and in its range, the content, and the check over length and content, most significant byte first. The kind and body of
each boundary telegram of one reference or none. -/
def Obligations.ReadingAWrittenOperatorFrameGivesTheRequest : Prop :=
  (∀ t : Telegram, t.request.fits = true → readOperatorFrame (operatorFrame t) = some t)
  ∧ (∀ (station neighbour : Word16) (t : BoundaryTelegram), telegramInRange t = true →
    (station = neighbour → readBoundaryFrame neighbour (boundaryFrame station t) = some (.telegram t))
    ∧ (station ≠ neighbour → readBoundaryFrame neighbour (boundaryFrame station t) = none))
  ∧ (∀ (station neighbour : Word16) (k : Byte), 1 ≤ k.toNat → k.toNat ≤ 22 →
    (station = neighbour → readBoundaryFrame neighbour (boundaryFrame station (.notPermitted k)) = some (.other 0x80))
    ∧ ∀ body : List Byte, body.length ≤ 39 → station = neighbour →
      readBoundaryFrame neighbour (frame 0x3C (wordBytes station ++ k :: body)) = some (.operatorRequest k))
  ∧ (∀ (bytes : List Byte) (neighbour : Word16),
    (readOperatorFrame bytes ≠ none → ∃ content : List Byte, 3 ≤ content.length ∧ content.length ≤ 250
      ∧ bytes = frame 0xC3 content)
    ∧ (readBoundaryFrame neighbour bytes ≠ none → ∃ body : List Byte, 1 ≤ body.length ∧ body.length ≤ 40
      ∧ bytes = frame 0x3C (wordBytes neighbour ++ body)))
  ∧ (∀ (start : Byte) (content : List Byte), frame start content = start :: byte content.length :: content
    ++ wordBytes (crc16 (byte content.length :: content)))
  ∧ ∀ (station : Word16) (r : Nat) (x : RefuseReason),
    let sent : BoundaryTelegram → List Byte → Prop := fun t body => boundaryFrame station t = frame 0x3C (wordBytes station ++ body)
    sent .dirAsk [0x42] ∧ sent .dirGive [0x43] ∧ sent .dirRefuse [0x44] ∧ sent (.acceptAsk r) [0x45, byte r]
    ∧ sent (.acceptGive r) [0x46, byte r] ∧ sent (.acceptRefuse r x) [0x47, byte r, reasonCode x]
    ∧ sent (.acceptWithdraw r) [0x48, byte r] ∧ sent (.trainHanded r) [0x49, byte r] ∧ sent (.acceptEnd r) [0x4A, byte r]
    ∧ sent (.flankAsk r) [0x4B, byte r] ∧ sent (.flankGive r) [0x4C, byte r] ∧ sent (.flankRefuse r) [0x4D, byte r]
    ∧ sent (.flankDrop r) [0x4E, byte r]

/-- Every step keeps every area record legal, and every lock's owner a live route instance that lists the slot in an
item not released yet, or the UNKNOWN owner on a SUSPECT element (R3), together with what the notices and the catalogue
need for it: no OVERLAP_TRANSFERRED notice waits between steps, and each route number has one definition (log entry 25),
none before the load. -/
def Obligations.EveryStepKeepsTheAreasAndLocksLegal : Prop :=
  (∀ s t : State, s.AreasLegal → step s = .next t → t.AreasLegal)
  ∧ (∀ s t : State, s.LocksLegal → step s = .next t → t.LocksLegal)
  ∧ ∀ (s : State) (k : SlotKind) (e : Nat), s.LocksLegal →
      (∀ i, (s.elem e).slot k = .held i → ∃ r d, s.live i = some (r, d) ∧ r.keeps d True k e)
      ∧ ((s.elem e).slot k = .unknown → (s.elem e).isSuspect = true)

/-- Every step keeps the waiting telegrams and the store within their bounds, at most one command queued for a unit
(R25), and the outgoing and the incoming acceptances of a link at one at most, their asks counted (R165), an ask that
waits in the RIM among them (log entry 11). -/
def Obligations.EveryStepKeepsTheListsBounded : Prop :=
  ∀ s t : State, s.WaitingBounded → s.StoreLegal → s.QueueSingle → s.AcceptancesSingle → step s = .next t →
    t.WaitingBounded ∧ t.StoreLegal ∧ t.QueueSingle ∧ t.AcceptancesSingle

/-- Every step keeps every section count record legal: its count between minus the tolerance and 1023 (so that none is
below -4), its deficit age, cause and state as the rows of R44 to R58 leave them together. -/
def Obligations.EveryStepKeepsTheSectionsLegal : Prop :=
  ∀ s t : State, s.SectionsLegal → step s = .next t → t.SectionsLegal

/-- Every step keeps a DOWN link empty of what it received. -/
def Obligations.EveryStepKeepsADownLinkEmpty : Prop := ∀ s t : State, s.DownEmpty → step s = .next t → t.DownEmpty

/-- Every step keeps the pending indication sets free of repetition. -/
def Obligations.EveryStepKeepsTheMarksDistinct : Prop := ∀ s t : State, s.MarksLegal → step s = .next t → t.MarksLegal

/-- Reset meets every invariant. -/
def Obligations.ResetMeetsTheInvariants : Prop :=
  State.reset.AreasLegal ∧ State.reset.WaitingBounded ∧ State.reset.StoreLegal ∧ State.reset.SectionsLegal
    ∧ State.reset.DownEmpty ∧ State.reset.MarksLegal ∧ State.reset.ChecksRight ∧ State.reset.QueueSingle
    ∧ State.reset.AcceptancesSingle ∧ State.reset.LocksLegal

/-- Only LOAD_COMPLETE and COLD_START change the catalogue, and only they and AUX_CONFIRM an auxiliary counter, which
never falls between two cold starts. -/
def Obligations.TheCatalogueStandsAndTheCountersNeverFall : Prop :=
  ∀ (c : Instr) (s t : State), c ≠ .coldStart → (∀ m k, c ≠ .loadComplete m k) → exec c s = .next t →
    t.rcat = s.rcat
    ∧ s.aou.counters.emergencyRelease.value ≤ t.aou.counters.emergencyRelease.value
    ∧ s.aou.counters.sectionReset.value ≤ t.aou.counters.sectionReset.value
    ∧ s.aou.counters.suspectClear.value ≤ t.aou.counters.suspectClear.value
    ∧ s.aou.counters.authForce.value ≤ t.aou.counters.authForce.value
    ∧ s.aou.counters.boundaryRelease.value ≤ t.aou.counters.boundaryRelease.value
    ∧ t.aou.counters.coldStart = s.aou.counters.coldStart
    ∧ ((∀ l, c ≠ .auxConfirm l) → t.aou.counters = s.aou.counters)
end

