-- ==== Sys2Proof/Laws/State.lean ====
section
/-! SUPPORT. What each update of State leaves as it was, one lemma per field, and what a read gives after a write. -/

set_option Elab.async false

namespace Sys2Proof.Machine

/-! ### modOlc -/

@[simp] theorem modOlc_cfl (s : State) (l : OpLink) (f : Olc → Olc) : (s.modOlc l f).cfl = s.cfl := rfl
@[simp] theorem modOlc_lkc (s : State) (l : OpLink) (f : Olc → Olc) : (s.modOlc l f).lkc = s.lkc := rfl
@[simp] theorem modOlc_tbc (s : State) (l : OpLink) (f : Olc → Olc) : (s.modOlc l f).tbc = s.tbc := rfl
@[simp] theorem modOlc_ace (s : State) (l : OpLink) (f : Olc → Olc) : (s.modOlc l f).ace = s.ace := rfl
@[simp] theorem modOlc_rcat (s : State) (l : OpLink) (f : Olc → Olc) : (s.modOlc l f).rcat = s.rcat := rfl
@[simp] theorem modOlc_rim (s : State) (l : OpLink) (f : Olc → Olc) : (s.modOlc l f).rim = s.rim := rfl
@[simp] theorem modOlc_rqs (s : State) (l : OpLink) (f : Olc → Olc) : (s.modOlc l f).rqs = s.rqs := rfl
@[simp] theorem modOlc_aum (s : State) (l : OpLink) (f : Olc → Olc) : (s.modOlc l f).aum = s.aum := rfl
@[simp] theorem modOlc_aou (s : State) (l : OpLink) (f : Olc → Olc) : (s.modOlc l f).aou = s.aou := rfl
@[simp] theorem modOlc_blc (s : State) (l : OpLink) (f : Olc → Olc) : (s.modOlc l f).blc = s.blc := rfl
@[simp] theorem modOlc_notices (s : State) (l : OpLink) (f : Olc → Olc) : (s.modOlc l f).notices = s.notices := rfl
@[simp] theorem modOlc_out (s : State) (l : OpLink) (f : Olc → Olc) : (s.modOlc l f).out = s.out := rfl
@[simp] theorem modOlc_pending (s : State) (l : OpLink) (f : Olc → Olc) : (s.modOlc l f).pending = s.pending := rfl

/-! ### markAt -/

@[simp] theorem markAt_cfl (s : State) (l : OpLink) (o : Obj) : (s.markAt l o).cfl = s.cfl := rfl
@[simp] theorem markAt_lkc (s : State) (l : OpLink) (o : Obj) : (s.markAt l o).lkc = s.lkc := rfl
@[simp] theorem markAt_tbc (s : State) (l : OpLink) (o : Obj) : (s.markAt l o).tbc = s.tbc := rfl
@[simp] theorem markAt_ace (s : State) (l : OpLink) (o : Obj) : (s.markAt l o).ace = s.ace := rfl
@[simp] theorem markAt_rcat (s : State) (l : OpLink) (o : Obj) : (s.markAt l o).rcat = s.rcat := rfl
@[simp] theorem markAt_rim (s : State) (l : OpLink) (o : Obj) : (s.markAt l o).rim = s.rim := rfl
@[simp] theorem markAt_rqs (s : State) (l : OpLink) (o : Obj) : (s.markAt l o).rqs = s.rqs := rfl
@[simp] theorem markAt_aum (s : State) (l : OpLink) (o : Obj) : (s.markAt l o).aum = s.aum := rfl
@[simp] theorem markAt_aou (s : State) (l : OpLink) (o : Obj) : (s.markAt l o).aou = s.aou := rfl
@[simp] theorem markAt_blc (s : State) (l : OpLink) (o : Obj) : (s.markAt l o).blc = s.blc := rfl
@[simp] theorem markAt_notices (s : State) (l : OpLink) (o : Obj) : (s.markAt l o).notices = s.notices := rfl
@[simp] theorem markAt_out (s : State) (l : OpLink) (o : Obj) : (s.markAt l o).out = s.out := rfl
@[simp] theorem markAt_pending (s : State) (l : OpLink) (o : Obj) : (s.markAt l o).pending = s.pending := rfl

/-! ### mark -/

@[simp] theorem mark_cfl (s : State) (o : Obj) : (s.mark o).cfl = s.cfl := rfl
@[simp] theorem mark_lkc (s : State) (o : Obj) : (s.mark o).lkc = s.lkc := rfl
@[simp] theorem mark_tbc (s : State) (o : Obj) : (s.mark o).tbc = s.tbc := rfl
@[simp] theorem mark_ace (s : State) (o : Obj) : (s.mark o).ace = s.ace := rfl
@[simp] theorem mark_rcat (s : State) (o : Obj) : (s.mark o).rcat = s.rcat := rfl
@[simp] theorem mark_rim (s : State) (o : Obj) : (s.mark o).rim = s.rim := rfl
@[simp] theorem mark_rqs (s : State) (o : Obj) : (s.mark o).rqs = s.rqs := rfl
@[simp] theorem mark_aum (s : State) (o : Obj) : (s.mark o).aum = s.aum := rfl
@[simp] theorem mark_aou (s : State) (o : Obj) : (s.mark o).aou = s.aou := rfl
@[simp] theorem mark_blc (s : State) (o : Obj) : (s.mark o).blc = s.blc := rfl
@[simp] theorem mark_notices (s : State) (o : Obj) : (s.mark o).notices = s.notices := rfl
@[simp] theorem mark_out (s : State) (o : Obj) : (s.mark o).out = s.out := rfl
@[simp] theorem mark_pending (s : State) (o : Obj) : (s.mark o).pending = s.pending := rfl

/-! ### notify -/

@[simp] theorem notify_cfl (s : State) (n : Notice) : (s.notify n).cfl = s.cfl := rfl
@[simp] theorem notify_lkc (s : State) (n : Notice) : (s.notify n).lkc = s.lkc := rfl
@[simp] theorem notify_tbc (s : State) (n : Notice) : (s.notify n).tbc = s.tbc := rfl
@[simp] theorem notify_ace (s : State) (n : Notice) : (s.notify n).ace = s.ace := rfl
@[simp] theorem notify_rcat (s : State) (n : Notice) : (s.notify n).rcat = s.rcat := rfl
@[simp] theorem notify_rim (s : State) (n : Notice) : (s.notify n).rim = s.rim := rfl
@[simp] theorem notify_rqs (s : State) (n : Notice) : (s.notify n).rqs = s.rqs := rfl
@[simp] theorem notify_aum (s : State) (n : Notice) : (s.notify n).aum = s.aum := rfl
@[simp] theorem notify_olc (s : State) (n : Notice) : (s.notify n).olc = s.olc := rfl
@[simp] theorem notify_aou (s : State) (n : Notice) : (s.notify n).aou = s.aou := rfl
@[simp] theorem notify_blc (s : State) (n : Notice) : (s.notify n).blc = s.blc := rfl
@[simp] theorem notify_out (s : State) (n : Notice) : (s.notify n).out = s.out := rfl
@[simp] theorem notify_pending (s : State) (n : Notice) : (s.notify n).pending = s.pending := rfl

/-! ### notifyAll -/

@[simp] theorem notifyAll_cfl (s : State) (l : List Notice) : (s.notifyAll l).cfl = s.cfl := rfl
@[simp] theorem notifyAll_lkc (s : State) (l : List Notice) : (s.notifyAll l).lkc = s.lkc := rfl
@[simp] theorem notifyAll_tbc (s : State) (l : List Notice) : (s.notifyAll l).tbc = s.tbc := rfl
@[simp] theorem notifyAll_ace (s : State) (l : List Notice) : (s.notifyAll l).ace = s.ace := rfl
@[simp] theorem notifyAll_rcat (s : State) (l : List Notice) : (s.notifyAll l).rcat = s.rcat := rfl
@[simp] theorem notifyAll_rim (s : State) (l : List Notice) : (s.notifyAll l).rim = s.rim := rfl
@[simp] theorem notifyAll_rqs (s : State) (l : List Notice) : (s.notifyAll l).rqs = s.rqs := rfl
@[simp] theorem notifyAll_aum (s : State) (l : List Notice) : (s.notifyAll l).aum = s.aum := rfl
@[simp] theorem notifyAll_olc (s : State) (l : List Notice) : (s.notifyAll l).olc = s.olc := rfl
@[simp] theorem notifyAll_aou (s : State) (l : List Notice) : (s.notifyAll l).aou = s.aou := rfl
@[simp] theorem notifyAll_blc (s : State) (l : List Notice) : (s.notifyAll l).blc = s.blc := rfl
@[simp] theorem notifyAll_out (s : State) (l : List Notice) : (s.notifyAll l).out = s.out := rfl
@[simp] theorem notifyAll_pending (s : State) (l : List Notice) : (s.notifyAll l).pending = s.pending := rfl

/-! ### send -/

@[simp] theorem send_cfl (s : State) (x : Sent) : (s.send x).cfl = s.cfl := rfl
@[simp] theorem send_lkc (s : State) (x : Sent) : (s.send x).lkc = s.lkc := rfl
@[simp] theorem send_tbc (s : State) (x : Sent) : (s.send x).tbc = s.tbc := rfl
@[simp] theorem send_ace (s : State) (x : Sent) : (s.send x).ace = s.ace := rfl
@[simp] theorem send_rcat (s : State) (x : Sent) : (s.send x).rcat = s.rcat := rfl
@[simp] theorem send_rim (s : State) (x : Sent) : (s.send x).rim = s.rim := rfl
@[simp] theorem send_rqs (s : State) (x : Sent) : (s.send x).rqs = s.rqs := rfl
@[simp] theorem send_aum (s : State) (x : Sent) : (s.send x).aum = s.aum := rfl
@[simp] theorem send_olc (s : State) (x : Sent) : (s.send x).olc = s.olc := rfl
@[simp] theorem send_aou (s : State) (x : Sent) : (s.send x).aou = s.aou := rfl
@[simp] theorem send_blc (s : State) (x : Sent) : (s.send x).blc = s.blc := rfl
@[simp] theorem send_notices (s : State) (x : Sent) : (s.send x).notices = s.notices := rfl
@[simp] theorem send_pending (s : State) (x : Sent) : (s.send x).pending = s.pending := rfl

/-! ### modTbc -/

@[simp] theorem modTbc_cfl (s : State) (f : Tbc → Tbc) : (s.modTbc f).cfl = s.cfl := rfl
@[simp] theorem modTbc_lkc (s : State) (f : Tbc → Tbc) : (s.modTbc f).lkc = s.lkc := rfl
@[simp] theorem modTbc_ace (s : State) (f : Tbc → Tbc) : (s.modTbc f).ace = s.ace := rfl
@[simp] theorem modTbc_rcat (s : State) (f : Tbc → Tbc) : (s.modTbc f).rcat = s.rcat := rfl
@[simp] theorem modTbc_rim (s : State) (f : Tbc → Tbc) : (s.modTbc f).rim = s.rim := rfl
@[simp] theorem modTbc_rqs (s : State) (f : Tbc → Tbc) : (s.modTbc f).rqs = s.rqs := rfl
@[simp] theorem modTbc_aum (s : State) (f : Tbc → Tbc) : (s.modTbc f).aum = s.aum := rfl
@[simp] theorem modTbc_olc (s : State) (f : Tbc → Tbc) : (s.modTbc f).olc = s.olc := rfl
@[simp] theorem modTbc_aou (s : State) (f : Tbc → Tbc) : (s.modTbc f).aou = s.aou := rfl
@[simp] theorem modTbc_blc (s : State) (f : Tbc → Tbc) : (s.modTbc f).blc = s.blc := rfl
@[simp] theorem modTbc_notices (s : State) (f : Tbc → Tbc) : (s.modTbc f).notices = s.notices := rfl
@[simp] theorem modTbc_out (s : State) (f : Tbc → Tbc) : (s.modTbc f).out = s.out := rfl
@[simp] theorem modTbc_pending (s : State) (f : Tbc → Tbc) : (s.modTbc f).pending = s.pending := rfl

/-! ### putFct -/

@[simp] theorem putFct_cfl (s : State) (n : Nat) (v : Option FctEntry) : (s.putFct n v).cfl = s.cfl := rfl
@[simp] theorem putFct_tbc (s : State) (n : Nat) (v : Option FctEntry) : (s.putFct n v).tbc = s.tbc := rfl
@[simp] theorem putFct_ace (s : State) (n : Nat) (v : Option FctEntry) : (s.putFct n v).ace = s.ace := rfl
@[simp] theorem putFct_rcat (s : State) (n : Nat) (v : Option FctEntry) : (s.putFct n v).rcat = s.rcat := rfl
@[simp] theorem putFct_rim (s : State) (n : Nat) (v : Option FctEntry) : (s.putFct n v).rim = s.rim := rfl
@[simp] theorem putFct_rqs (s : State) (n : Nat) (v : Option FctEntry) : (s.putFct n v).rqs = s.rqs := rfl
@[simp] theorem putFct_aum (s : State) (n : Nat) (v : Option FctEntry) : (s.putFct n v).aum = s.aum := rfl
@[simp] theorem putFct_olc (s : State) (n : Nat) (v : Option FctEntry) : (s.putFct n v).olc = s.olc := rfl
@[simp] theorem putFct_aou (s : State) (n : Nat) (v : Option FctEntry) : (s.putFct n v).aou = s.aou := rfl
@[simp] theorem putFct_blc (s : State) (n : Nat) (v : Option FctEntry) : (s.putFct n v).blc = s.blc := rfl
@[simp] theorem putFct_notices (s : State) (n : Nat) (v : Option FctEntry) : (s.putFct n v).notices = s.notices := rfl
@[simp] theorem putFct_out (s : State) (n : Nat) (v : Option FctEntry) : (s.putFct n v).out = s.out := rfl
@[simp] theorem putFct_pending (s : State) (n : Nat) (v : Option FctEntry) : (s.putFct n v).pending = s.pending := rfl

/-! ### putDp -/

@[simp] theorem putDp_cfl (s : State) (d : Nat) (r : DpRec) : (s.putDp d r).cfl = s.cfl := rfl
@[simp] theorem putDp_lkc (s : State) (d : Nat) (r : DpRec) : (s.putDp d r).lkc = s.lkc := rfl
@[simp] theorem putDp_tbc (s : State) (d : Nat) (r : DpRec) : (s.putDp d r).tbc = s.tbc := rfl
@[simp] theorem putDp_rcat (s : State) (d : Nat) (r : DpRec) : (s.putDp d r).rcat = s.rcat := rfl
@[simp] theorem putDp_rim (s : State) (d : Nat) (r : DpRec) : (s.putDp d r).rim = s.rim := rfl
@[simp] theorem putDp_rqs (s : State) (d : Nat) (r : DpRec) : (s.putDp d r).rqs = s.rqs := rfl
@[simp] theorem putDp_aum (s : State) (d : Nat) (r : DpRec) : (s.putDp d r).aum = s.aum := rfl
@[simp] theorem putDp_olc (s : State) (d : Nat) (r : DpRec) : (s.putDp d r).olc = s.olc := rfl
@[simp] theorem putDp_aou (s : State) (d : Nat) (r : DpRec) : (s.putDp d r).aou = s.aou := rfl
@[simp] theorem putDp_blc (s : State) (d : Nat) (r : DpRec) : (s.putDp d r).blc = s.blc := rfl
@[simp] theorem putDp_notices (s : State) (d : Nat) (r : DpRec) : (s.putDp d r).notices = s.notices := rfl
@[simp] theorem putDp_out (s : State) (d : Nat) (r : DpRec) : (s.putDp d r).out = s.out := rfl
@[simp] theorem putDp_pending (s : State) (d : Nat) (r : DpRec) : (s.putDp d r).pending = s.pending := rfl

/-! ### rewriteCheck -/

@[simp] theorem rewriteCheck_cfl (s : State) (e : Nat) : (s.rewriteCheck e).cfl = s.cfl := rfl
@[simp] theorem rewriteCheck_tbc (s : State) (e : Nat) : (s.rewriteCheck e).tbc = s.tbc := rfl
@[simp] theorem rewriteCheck_ace (s : State) (e : Nat) : (s.rewriteCheck e).ace = s.ace := rfl
@[simp] theorem rewriteCheck_rcat (s : State) (e : Nat) : (s.rewriteCheck e).rcat = s.rcat := rfl
@[simp] theorem rewriteCheck_rim (s : State) (e : Nat) : (s.rewriteCheck e).rim = s.rim := rfl
@[simp] theorem rewriteCheck_rqs (s : State) (e : Nat) : (s.rewriteCheck e).rqs = s.rqs := rfl
@[simp] theorem rewriteCheck_aum (s : State) (e : Nat) : (s.rewriteCheck e).aum = s.aum := rfl
@[simp] theorem rewriteCheck_olc (s : State) (e : Nat) : (s.rewriteCheck e).olc = s.olc := rfl
@[simp] theorem rewriteCheck_aou (s : State) (e : Nat) : (s.rewriteCheck e).aou = s.aou := rfl
@[simp] theorem rewriteCheck_blc (s : State) (e : Nat) : (s.rewriteCheck e).blc = s.blc := rfl
@[simp] theorem rewriteCheck_notices (s : State) (e : Nat) : (s.rewriteCheck e).notices = s.notices := rfl
@[simp] theorem rewriteCheck_out (s : State) (e : Nat) : (s.rewriteCheck e).out = s.out := rfl
@[simp] theorem rewriteCheck_pending (s : State) (e : Nat) : (s.rewriteCheck e).pending = s.pending := rfl
@[simp] theorem rewriteCheck_elem (s : State) (e x : Nat) : (s.rewriteCheck e).elem x = s.elem x := rfl

/-! ### putElem -/

@[simp] theorem putElem_cfl (s : State) (e : Nat) (r : Element) : (s.putElem e r).cfl = s.cfl := by
  unfold State.putElem; split <;> rfl
@[simp] theorem putElem_tbc (s : State) (e : Nat) (r : Element) : (s.putElem e r).tbc = s.tbc := by
  unfold State.putElem; split <;> rfl
@[simp] theorem putElem_ace (s : State) (e : Nat) (r : Element) : (s.putElem e r).ace = s.ace := by
  unfold State.putElem; split <;> rfl
@[simp] theorem putElem_rcat (s : State) (e : Nat) (r : Element) : (s.putElem e r).rcat = s.rcat := by
  unfold State.putElem; split <;> rfl
@[simp] theorem putElem_rim (s : State) (e : Nat) (r : Element) : (s.putElem e r).rim = s.rim := by
  unfold State.putElem; split <;> rfl
@[simp] theorem putElem_rqs (s : State) (e : Nat) (r : Element) : (s.putElem e r).rqs = s.rqs := by
  unfold State.putElem; split <;> rfl
@[simp] theorem putElem_aum (s : State) (e : Nat) (r : Element) : (s.putElem e r).aum = s.aum := by
  unfold State.putElem; split <;> rfl
@[simp] theorem putElem_aou (s : State) (e : Nat) (r : Element) : (s.putElem e r).aou = s.aou := by
  unfold State.putElem; split <;> rfl
@[simp] theorem putElem_blc (s : State) (e : Nat) (r : Element) : (s.putElem e r).blc = s.blc := by
  unfold State.putElem; split <;> rfl
@[simp] theorem putElem_notices (s : State) (e : Nat) (r : Element) : (s.putElem e r).notices = s.notices := by
  unfold State.putElem; split <;> rfl
@[simp] theorem putElem_out (s : State) (e : Nat) (r : Element) : (s.putElem e r).out = s.out := by
  unfold State.putElem; split <;> rfl
@[simp] theorem putElem_pending (s : State) (e : Nat) (r : Element) : (s.putElem e r).pending = s.pending := by
  unfold State.putElem; split <;> rfl

/-! ### putDrive -/

@[simp] theorem putDrive_cfl (s : State) (e : Nat) (d : Option Drive) : (s.putDrive e d).cfl = s.cfl := by
  unfold State.putDrive; (try dsimp only []); split <;> rfl
@[simp] theorem putDrive_tbc (s : State) (e : Nat) (d : Option Drive) : (s.putDrive e d).tbc = s.tbc := by
  unfold State.putDrive; (try dsimp only []); split <;> rfl
@[simp] theorem putDrive_ace (s : State) (e : Nat) (d : Option Drive) : (s.putDrive e d).ace = s.ace := by
  unfold State.putDrive; (try dsimp only []); split <;> rfl
@[simp] theorem putDrive_rcat (s : State) (e : Nat) (d : Option Drive) : (s.putDrive e d).rcat = s.rcat := by
  unfold State.putDrive; (try dsimp only []); split <;> rfl
@[simp] theorem putDrive_rim (s : State) (e : Nat) (d : Option Drive) : (s.putDrive e d).rim = s.rim := by
  unfold State.putDrive; (try dsimp only []); split <;> rfl
@[simp] theorem putDrive_rqs (s : State) (e : Nat) (d : Option Drive) : (s.putDrive e d).rqs = s.rqs := by
  unfold State.putDrive; (try dsimp only []); split <;> rfl
@[simp] theorem putDrive_aum (s : State) (e : Nat) (d : Option Drive) : (s.putDrive e d).aum = s.aum := by
  unfold State.putDrive; (try dsimp only []); split <;> rfl
@[simp] theorem putDrive_aou (s : State) (e : Nat) (d : Option Drive) : (s.putDrive e d).aou = s.aou := by
  unfold State.putDrive; (try dsimp only []); split <;> rfl
@[simp] theorem putDrive_blc (s : State) (e : Nat) (d : Option Drive) : (s.putDrive e d).blc = s.blc := by
  unfold State.putDrive; (try dsimp only []); split <;> rfl
@[simp] theorem putDrive_notices (s : State) (e : Nat) (d : Option Drive) : (s.putDrive e d).notices = s.notices := by
  unfold State.putDrive; (try dsimp only []); split <;> rfl
@[simp] theorem putDrive_out (s : State) (e : Nat) (d : Option Drive) : (s.putDrive e d).out = s.out := by
  unfold State.putDrive; (try dsimp only []); split <;> rfl
@[simp] theorem putDrive_pending (s : State) (e : Nat) (d : Option Drive) : (s.putDrive e d).pending = s.pending := by
  unfold State.putDrive; (try dsimp only []); split <;> rfl

/-! ### putCmd -/

@[simp] theorem putCmd_cfl (s : State) (e : Nat) (c : SignalCmd) : (s.putCmd e c).cfl = s.cfl := by
  unfold State.putCmd; (try dsimp only []); split <;> rfl
@[simp] theorem putCmd_tbc (s : State) (e : Nat) (c : SignalCmd) : (s.putCmd e c).tbc = s.tbc := by
  unfold State.putCmd; (try dsimp only []); split <;> rfl
@[simp] theorem putCmd_ace (s : State) (e : Nat) (c : SignalCmd) : (s.putCmd e c).ace = s.ace := by
  unfold State.putCmd; (try dsimp only []); split <;> rfl
@[simp] theorem putCmd_rcat (s : State) (e : Nat) (c : SignalCmd) : (s.putCmd e c).rcat = s.rcat := by
  unfold State.putCmd; (try dsimp only []); split <;> rfl
@[simp] theorem putCmd_rim (s : State) (e : Nat) (c : SignalCmd) : (s.putCmd e c).rim = s.rim := by
  unfold State.putCmd; (try dsimp only []); split <;> rfl
@[simp] theorem putCmd_rqs (s : State) (e : Nat) (c : SignalCmd) : (s.putCmd e c).rqs = s.rqs := by
  unfold State.putCmd; (try dsimp only []); split <;> rfl
@[simp] theorem putCmd_aum (s : State) (e : Nat) (c : SignalCmd) : (s.putCmd e c).aum = s.aum := by
  unfold State.putCmd; (try dsimp only []); split <;> rfl
@[simp] theorem putCmd_aou (s : State) (e : Nat) (c : SignalCmd) : (s.putCmd e c).aou = s.aou := by
  unfold State.putCmd; (try dsimp only []); split <;> rfl
@[simp] theorem putCmd_blc (s : State) (e : Nat) (c : SignalCmd) : (s.putCmd e c).blc = s.blc := by
  unfold State.putCmd; (try dsimp only []); split <;> rfl
@[simp] theorem putCmd_notices (s : State) (e : Nat) (c : SignalCmd) : (s.putCmd e c).notices = s.notices := by
  unfold State.putCmd; (try dsimp only []); split <;> rfl
@[simp] theorem putCmd_out (s : State) (e : Nat) (c : SignalCmd) : (s.putCmd e c).out = s.out := by
  unfold State.putCmd; (try dsimp only []); split <;> rfl
@[simp] theorem putCmd_pending (s : State) (e : Nat) (c : SignalCmd) : (s.putCmd e c).pending = s.pending := by
  unfold State.putCmd; (try dsimp only []); split <;> rfl

/-! ### putCount -/

@[simp] theorem putCount_cfl (s : State) (e : Nat) (c : SectCount) : (s.putCount e c).cfl = s.cfl := by
  unfold State.putCount; (try dsimp only []); split <;> rfl
@[simp] theorem putCount_lkc (s : State) (e : Nat) (c : SectCount) : (s.putCount e c).lkc = s.lkc := by
  unfold State.putCount; (try dsimp only []); split <;> rfl
@[simp] theorem putCount_tbc (s : State) (e : Nat) (c : SectCount) : (s.putCount e c).tbc = s.tbc := by
  unfold State.putCount; (try dsimp only []); split <;> rfl
@[simp] theorem putCount_rcat (s : State) (e : Nat) (c : SectCount) : (s.putCount e c).rcat = s.rcat := by
  unfold State.putCount; (try dsimp only []); split <;> rfl
@[simp] theorem putCount_rim (s : State) (e : Nat) (c : SectCount) : (s.putCount e c).rim = s.rim := by
  unfold State.putCount; (try dsimp only []); split <;> rfl
@[simp] theorem putCount_rqs (s : State) (e : Nat) (c : SectCount) : (s.putCount e c).rqs = s.rqs := by
  unfold State.putCount; (try dsimp only []); split <;> rfl
@[simp] theorem putCount_aum (s : State) (e : Nat) (c : SectCount) : (s.putCount e c).aum = s.aum := by
  unfold State.putCount; (try dsimp only []); split <;> rfl
@[simp] theorem putCount_aou (s : State) (e : Nat) (c : SectCount) : (s.putCount e c).aou = s.aou := by
  unfold State.putCount; (try dsimp only []); split <;> rfl
@[simp] theorem putCount_blc (s : State) (e : Nat) (c : SectCount) : (s.putCount e c).blc = s.blc := by
  unfold State.putCount; (try dsimp only []); split <;> rfl
@[simp] theorem putCount_notices (s : State) (e : Nat) (c : SectCount) : (s.putCount e c).notices = s.notices := by
  unfold State.putCount; (try dsimp only []); split <;> rfl
@[simp] theorem putCount_out (s : State) (e : Nat) (c : SectCount) : (s.putCount e c).out = s.out := by
  unfold State.putCount; (try dsimp only []); split <;> rfl
@[simp] theorem putCount_pending (s : State) (e : Nat) (c : SectCount) : (s.putCount e c).pending = s.pending := by
  unfold State.putCount; (try dsimp only []); split <;> rfl

/-! ### putInst -/

@[simp] theorem putInst_cfl (s : State) (i : Nat) (v : Option Inst) : (s.putInst i v).cfl = s.cfl := by
  unfold State.putInst; (try dsimp only []); split <;> rfl
@[simp] theorem putInst_lkc (s : State) (i : Nat) (v : Option Inst) : (s.putInst i v).lkc = s.lkc := by
  unfold State.putInst; (try dsimp only []); split <;> rfl
@[simp] theorem putInst_tbc (s : State) (i : Nat) (v : Option Inst) : (s.putInst i v).tbc = s.tbc := by
  unfold State.putInst; (try dsimp only []); split <;> rfl
@[simp] theorem putInst_ace (s : State) (i : Nat) (v : Option Inst) : (s.putInst i v).ace = s.ace := by
  unfold State.putInst; (try dsimp only []); split <;> rfl
@[simp] theorem putInst_rcat (s : State) (i : Nat) (v : Option Inst) : (s.putInst i v).rcat = s.rcat := by
  unfold State.putInst; (try dsimp only []); split <;> rfl
@[simp] theorem putInst_rqs (s : State) (i : Nat) (v : Option Inst) : (s.putInst i v).rqs = s.rqs := by
  unfold State.putInst; (try dsimp only []); split <;> rfl
@[simp] theorem putInst_aum (s : State) (i : Nat) (v : Option Inst) : (s.putInst i v).aum = s.aum := by
  unfold State.putInst; (try dsimp only []); split <;> rfl
@[simp] theorem putInst_aou (s : State) (i : Nat) (v : Option Inst) : (s.putInst i v).aou = s.aou := by
  unfold State.putInst; (try dsimp only []); split <;> rfl
@[simp] theorem putInst_blc (s : State) (i : Nat) (v : Option Inst) : (s.putInst i v).blc = s.blc := by
  unfold State.putInst; (try dsimp only []); split <;> rfl
@[simp] theorem putInst_notices (s : State) (i : Nat) (v : Option Inst) : (s.putInst i v).notices = s.notices := by
  unfold State.putInst; (try dsimp only []); split <;> rfl
@[simp] theorem putInst_out (s : State) (i : Nat) (v : Option Inst) : (s.putInst i v).out = s.out := by
  unfold State.putInst; (try dsimp only []); split <;> rfl
@[simp] theorem putInst_pending (s : State) (i : Nat) (v : Option Inst) : (s.putInst i v).pending = s.pending := by
  unfold State.putInst; (try dsimp only []); split <;> rfl

/-! ### putArea -/

@[simp] theorem putArea_cfl (s : State) (a : Nat) (r : Area) : (s.putArea a r).cfl = s.cfl := by
  unfold State.putArea; split <;> rfl
@[simp] theorem putArea_lkc (s : State) (a : Nat) (r : Area) : (s.putArea a r).lkc = s.lkc := by
  unfold State.putArea; split <;> rfl
@[simp] theorem putArea_tbc (s : State) (a : Nat) (r : Area) : (s.putArea a r).tbc = s.tbc := by
  unfold State.putArea; split <;> rfl
@[simp] theorem putArea_ace (s : State) (a : Nat) (r : Area) : (s.putArea a r).ace = s.ace := by
  unfold State.putArea; split <;> rfl
@[simp] theorem putArea_rcat (s : State) (a : Nat) (r : Area) : (s.putArea a r).rcat = s.rcat := by
  unfold State.putArea; split <;> rfl
@[simp] theorem putArea_rim (s : State) (a : Nat) (r : Area) : (s.putArea a r).rim = s.rim := by
  unfold State.putArea; split <;> rfl
@[simp] theorem putArea_rqs (s : State) (a : Nat) (r : Area) : (s.putArea a r).rqs = s.rqs := by
  unfold State.putArea; split <;> rfl
@[simp] theorem putArea_aou (s : State) (a : Nat) (r : Area) : (s.putArea a r).aou = s.aou := by
  unfold State.putArea; split <;> rfl
@[simp] theorem putArea_blc (s : State) (a : Nat) (r : Area) : (s.putArea a r).blc = s.blc := by
  unfold State.putArea; split <;> rfl
@[simp] theorem putArea_notices (s : State) (a : Nat) (r : Area) : (s.putArea a r).notices = s.notices := by
  unfold State.putArea; split <;> rfl
@[simp] theorem putArea_out (s : State) (a : Nat) (r : Area) : (s.putArea a r).out = s.out := by
  unfold State.putArea; split <;> rfl
@[simp] theorem putArea_pending (s : State) (a : Nat) (r : Area) : (s.putArea a r).pending = s.pending := by
  unfold State.putArea; split <;> rfl

/-! ### putBlc -/

@[simp] theorem putBlc_cfl (s : State) (b : BLink) (r : Blc) : (s.putBlc b r).cfl = s.cfl := by
  unfold State.putBlc; (try dsimp only []); split <;> rfl
@[simp] theorem putBlc_lkc (s : State) (b : BLink) (r : Blc) : (s.putBlc b r).lkc = s.lkc := by
  unfold State.putBlc; (try dsimp only []); split <;> rfl
@[simp] theorem putBlc_tbc (s : State) (b : BLink) (r : Blc) : (s.putBlc b r).tbc = s.tbc := by
  unfold State.putBlc; (try dsimp only []); split <;> rfl
@[simp] theorem putBlc_ace (s : State) (b : BLink) (r : Blc) : (s.putBlc b r).ace = s.ace := by
  unfold State.putBlc; (try dsimp only []); split <;> rfl
@[simp] theorem putBlc_rcat (s : State) (b : BLink) (r : Blc) : (s.putBlc b r).rcat = s.rcat := by
  unfold State.putBlc; (try dsimp only []); split <;> rfl
@[simp] theorem putBlc_rim (s : State) (b : BLink) (r : Blc) : (s.putBlc b r).rim = s.rim := by
  unfold State.putBlc; (try dsimp only []); split <;> rfl
@[simp] theorem putBlc_rqs (s : State) (b : BLink) (r : Blc) : (s.putBlc b r).rqs = s.rqs := by
  unfold State.putBlc; (try dsimp only []); split <;> rfl
@[simp] theorem putBlc_aum (s : State) (b : BLink) (r : Blc) : (s.putBlc b r).aum = s.aum := by
  unfold State.putBlc; (try dsimp only []); split <;> rfl
@[simp] theorem putBlc_aou (s : State) (b : BLink) (r : Blc) : (s.putBlc b r).aou = s.aou := by
  unfold State.putBlc; (try dsimp only []); split <;> rfl
@[simp] theorem putBlc_notices (s : State) (b : BLink) (r : Blc) : (s.putBlc b r).notices = s.notices := by
  unfold State.putBlc; (try dsimp only []); split <;> rfl
@[simp] theorem putBlc_out (s : State) (b : BLink) (r : Blc) : (s.putBlc b r).out = s.out := by
  unfold State.putBlc; (try dsimp only []); split <;> rfl
@[simp] theorem putBlc_pending (s : State) (b : BLink) (r : Blc) : (s.putBlc b r).pending = s.pending := by
  unfold State.putBlc; (try dsimp only []); split <;> rfl

@[simp] theorem settleMarks_cfl (b s : State) : (State.settleMarks b s).cfl = s.cfl := rfl
@[simp] theorem settleMarks_lkc (b s : State) : (State.settleMarks b s).lkc = s.lkc := rfl
@[simp] theorem settleMarks_tbc (b s : State) : (State.settleMarks b s).tbc = s.tbc := rfl
@[simp] theorem settleMarks_ace (b s : State) : (State.settleMarks b s).ace = s.ace := rfl
@[simp] theorem settleMarks_rcat (b s : State) : (State.settleMarks b s).rcat = s.rcat := rfl
@[simp] theorem settleMarks_rim (b s : State) : (State.settleMarks b s).rim = s.rim := rfl
@[simp] theorem settleMarks_rqs (b s : State) : (State.settleMarks b s).rqs = s.rqs := rfl
@[simp] theorem settleMarks_aum (b s : State) : (State.settleMarks b s).aum = s.aum := rfl
@[simp] theorem settleMarks_aou (b s : State) : (State.settleMarks b s).aou = s.aou := rfl
@[simp] theorem settleMarks_blc (b s : State) : (State.settleMarks b s).blc = s.blc := rfl
@[simp] theorem settleMarks_notices (b s : State) : (State.settleMarks b s).notices = s.notices := rfl
@[simp] theorem settleMarks_out (b s : State) : (State.settleMarks b s).out = s.out := rfl
@[simp] theorem settleMarks_pending (b s : State) : (State.settleMarks b s).pending = s.pending := rfl

/-! ### Reads of a written field -/

@[simp] theorem modTbc_tbc (s : State) (f : Tbc → Tbc) : (s.modTbc f).tbc = f s.tbc := rfl
@[simp] theorem notify_notices (s : State) (n : Notice) : (s.notify n).notices = s.notices ++ [n] := rfl
@[simp] theorem notifyAll_notices (s : State) (l : List Notice) : (s.notifyAll l).notices = s.notices ++ l := rfl
@[simp] theorem send_out (s : State) (x : Sent) : (s.send x).out = s.out ++ [x] := rfl

@[simp] theorem get_set_same {α : Type} (p : PerLink α) (l : OpLink) (a : α) : (p.set l a).get l = a := by
  cases l <;> rfl

theorem get_set_other {α : Type} (p : PerLink α) (l k : OpLink) (a : α) (h : k ≠ l) : (p.set l a).get k = p.get k := by
  cases l <;> cases k <;> first | rfl | exact absurd rfl h

@[simp] theorem modOlc_get_same (s : State) (l : OpLink) (f : Olc → Olc) :
    (s.modOlc l f).olc.get l = f (s.olc.get l) := by
  cases l <;> rfl

theorem modOlc_get_other (s : State) (l k : OpLink) (f : Olc → Olc) (h : k ≠ l) :
    (s.modOlc l f).olc.get k = s.olc.get k := by
  cases l <;> cases k <;> first | rfl | exact absurd rfl h

theorem getD_set_same {α : Type} {n : Nat} (v : Vector α n) (i : Nat) (a d : α) (h : i < n) :
    (v.setIfInBounds i a).getD i d = a := by
  simp [Vector.getD, h]

theorem getD_set_ne {α : Type} {n : Nat} (v : Vector α n) (i j : Nat) (a d : α) (h : i ≠ j) :
    (v.setIfInBounds i a).getD j d = v.getD j d := by
  by_cases hj : j < n
  · have h1 := Vector.getElem_setIfInBounds_ne (xs := v) (x := a) hj h
    simp only [Vector.getD, Array.getD, Vector.size_toArray, hj, dif_pos]
    exact h1
  · simp [Vector.getD, hj]

theorem elem_putElem_same (s : State) (e : Nat) (r : Element) (h : e < 256) : (s.putElem e r).elem e = r := by
  unfold State.putElem
  split
  · assumption
  · exact getD_set_same _ _ _ _ h

theorem elem_putElem_ne (s : State) (e x : Nat) (r : Element) (h : e ≠ x) : (s.putElem e r).elem x = s.elem x := by
  unfold State.putElem
  split
  · rfl
  · exact getD_set_ne _ _ _ _ _ h

/-- The check word of a record written is computed anew; the others stand (R2). -/
theorem check_putElem (s : State) (e x : Nat) (r : Element) (hx : x < 256) (h : s.check x = Config.checkWordOf x (s.elem x)) :
    (s.putElem e r).check x = Config.checkWordOf x ((s.putElem e r).elem x) := by
  by_cases he : e = x
  · subst he
    rw [elem_putElem_same _ _ _ hx]
    unfold State.putElem
    split
    · rename_i hr
      exact hr ▸ h
    · exact getD_set_same _ _ _ _ hx
  · rw [elem_putElem_ne _ _ _ _ he, ← h]
    unfold State.putElem
    split
    · rfl
    · exact getD_set_ne _ _ _ _ _ he

theorem check_rewriteCheck (s : State) (e x : Nat) (hx : x < 256) (h : s.check x = Config.checkWordOf x (s.elem x)) :
    (s.rewriteCheck e).check x = Config.checkWordOf x ((s.rewriteCheck e).elem x) := by
  by_cases he : e = x
  · subst he
    exact getD_set_same _ _ _ _ hx
  · exact (getD_set_ne s.lkc.checks _ _ _ _ he).trans h

theorem inst_putInst_same (s : State) (i : Nat) (v : Option Inst) (h : i < 48) : (s.putInst i v).inst i = v := by
  unfold State.putInst
  split
  · assumption
  · exact getD_set_same _ _ _ _ h

theorem inst_putInst_ne (s : State) (i j : Nat) (v : Option Inst) (h : i ≠ j) :
    (s.putInst i v).inst j = s.inst j := by
  unfold State.putInst
  split
  · rfl
  · exact getD_set_ne _ _ _ _ _ h

theorem areaRec_putArea_same (s : State) (a : Nat) (r : Area) (h : a < 16) : (s.putArea a r).areaRec a = r := by
  unfold State.putArea
  split
  · assumption
  · exact getD_set_same _ _ _ _ h

theorem areaRec_putArea_ne (s : State) (a x : Nat) (r : Area) (h : a ≠ x) :
    (s.putArea a r).areaRec x = s.areaRec x := by
  unfold State.putArea
  split
  · rfl
  · exact getD_set_ne _ _ _ _ _ h

@[simp] theorem blcAt_putBlc_same (s : State) (b : BLink) (r : Blc) : (s.putBlc b r).blcAt b = r := by
  unfold State.putBlc
  dsimp only []
  split <;> simp [State.blcAt]

theorem blcAt_putBlc_ne (s : State) (b c : BLink) (r : Blc) (h : b ≠ c) : (s.putBlc b r).blcAt c = s.blcAt c := by
  have hv : (b : Nat) ≠ (c : Nat) := fun x => h (Fin.ext x)
  unfold State.putBlc
  dsimp only []
  split <;> simp [State.blcAt, hv]

@[simp] theorem blcAt_modBlc_same (s : State) (b : BLink) (f : Blc → Blc) :
    (s.modBlc b f).blcAt b = f (s.blcAt b) := blcAt_putBlc_same ..

theorem blcAt_modBlc_ne (s : State) (b c : BLink) (f : Blc → Blc) (h : b ≠ c) :
    (s.modBlc b f).blcAt c = s.blcAt c := blcAt_putBlc_ne s b c _ h

/-! ### The end of a step -/

/-- With no notice sent, the RIM has nothing to take. -/
theorem settle_of_none (s : State) (h : s.notices = []) : s.settle = s := by
  simp [State.settle, settleRounds, settleN, h]

theorem finish_of_none (b s : State) (h : s.notices = []) : State.finish b s = State.settleMarks b s := by
  rw [State.finish, settle_of_none s h]

end Sys2Proof.Machine
end

