-- ==== Sys2Proof/Laws/Field.lean ====
section
/-! SUPPORT. What the LKC does at a report, an acknowledgement and a loss of a point's or signal's unit (R32 to R40), one
lemma for each row. -/

set_option Elab.async false

namespace Sys2Proof.Machine

/-! ### Reads past a write elsewhere -/

section
variable (s : State)

@[simp] theorem elem_putDrive (e x : Nat) (d : Option Drive) : (s.putDrive e d).elem x = s.elem x := by
  unfold State.putDrive; split <;> rfl
@[simp] theorem elem_putCmd (e x : Nat) (c : SignalCmd) : (s.putCmd e c).elem x = s.elem x := by
  unfold State.putCmd; split <;> rfl
@[simp] theorem elem_dequeue (a x : Nat) : (s.dequeue a).elem x = s.elem x := rfl
@[simp] theorem elem_enqueue (a x : Nat) (t : TrackTelegram) : (s.enqueue a t).elem x = s.elem x := rfl
@[simp] theorem elem_notifyAll (l : List Notice) (x : Nat) : (s.notifyAll l).elem x = s.elem x := rfl
@[simp] theorem elem_mark (o : Obj) (x : Nat) : (s.mark o).elem x = s.elem x := rfl

@[simp] theorem drive_putElem (e x : Nat) (r : Element) : (s.putElem e r).drive x = s.drive x := by
  unfold State.putElem; split <;> rfl
@[simp] theorem drive_putCmd (e x : Nat) (c : SignalCmd) : (s.putCmd e c).drive x = s.drive x := by
  unfold State.putCmd; split <;> rfl
@[simp] theorem drive_dequeue (a x : Nat) : (s.dequeue a).drive x = s.drive x := rfl
@[simp] theorem drive_enqueue (a x : Nat) (t : TrackTelegram) : (s.enqueue a t).drive x = s.drive x := rfl
@[simp] theorem drive_notifyAll (l : List Notice) (x : Nat) : (s.notifyAll l).drive x = s.drive x := rfl
@[simp] theorem drive_mark (o : Obj) (x : Nat) : (s.mark o).drive x = s.drive x := rfl

@[simp] theorem cmd_putElem (e x : Nat) (r : Element) : (s.putElem e r).cmd x = s.cmd x := by
  unfold State.putElem; split <;> rfl
@[simp] theorem cmd_dequeue (a x : Nat) : (s.dequeue a).cmd x = s.cmd x := rfl
@[simp] theorem cmd_enqueue (a x : Nat) (t : TrackTelegram) : (s.enqueue a t).cmd x = s.cmd x := rfl
@[simp] theorem cmd_notifyAll (l : List Notice) (x : Nat) : (s.notifyAll l).cmd x = s.cmd x := rfl
@[simp] theorem cmd_mark (o : Obj) (x : Nat) : (s.mark o).cmd x = s.cmd x := rfl

theorem drive_putDrive_same (e : Nat) (d : Option Drive) (h : e < 256) : (s.putDrive e d).drive e = d := by
  unfold State.putDrive
  split
  · assumption
  · exact getD_set_same _ _ _ _ h

theorem cmd_putCmd_same (e : Nat) (c : SignalCmd) (h : e < 256) : (s.putCmd e c).cmd e = c := by
  unfold State.putCmd
  split
  · assumption
  · exact getD_set_same _ _ _ _ h

theorem unitOf_of_units {s t : State} (h : t.tbc.units = s.tbc.units) (k : UnitKind) (e : Nat) :
    t.unitOf k e = s.unitOf k e := by
  unfold State.unitOf
  rw [h]

theorem queuedAt_dequeue (a : Nat) : (s.dequeue a).queuedAt a = none := by
  simp [State.queuedAt, State.dequeue, State.modTbc]

theorem queuedAt_enqueue (a : Nat) (t : TrackTelegram) :
    (s.enqueue a t).queuedAt a = some ⟨a, t, s.tbc.nextAge, 0⟩ := by
  have h := queuedAt_dequeue s a
  unfold State.queuedAt at h ⊢
  show List.find? _ ((s.dequeue a).tbc.queue ++ [_]) = _
  rw [List.find?_append, h]
  simp
  rfl

end

variable {s : State} {e : Nat}

theorem lt_of_point {p : PointRec} (h : s.point? e = some p) : e < 256 := by
  by_cases he : e < 256
  · exact he
  · simp [State.point?, State.elem, Vector.getD, he] at h

theorem lt_of_signal {g : SignalRec} (h : s.signal? e = some g) : e < 256 := by
  by_cases he : e < 256
  · exact he
  · simp [State.signal?, State.elem, Vector.getD, he] at h

theorem point_of_elem {p : PointRec} : s.point? e = some p ↔ s.elem e = .point p := by
  unfold State.point?
  constructor
  · intro h
    split at h
    · rename_i hx
      cases h
      exact hx
    · cases h
  · intro h
    rw [h]

theorem signal_of_elem {g : SignalRec} : s.signal? e = some g ↔ s.elem e = .signal g := by
  unfold State.signal?
  constructor
  · intro h
    split at h
    · rename_i hx
      cases h
      exact hx
    · cases h
  · intro h
    rw [h]

/-! ### Points -/

section
variable {p : PointRec} (h : s.point? e = some p)
include h

theorem modPoint_point (f : PointRec → PointRec) : (s.modPoint e f).point? e = some (f p) := by
  unfold State.modPoint State.writePoint
  rw [h]
  exact point_of_elem.2 (elem_putElem_same _ _ _ (lt_of_point h))

theorem modPoint_drive (f : PointRec → PointRec) (x : Nat) : (s.modPoint e f).drive x = s.drive x := by
  unfold State.modPoint State.writePoint
  rw [h]
  simp

theorem modPoint_tbc (f : PointRec → PointRec) : (s.modPoint e f).tbc = s.tbc := by
  unfold State.modPoint State.writePoint
  rw [h]
  exact putElem_tbc ..

end

theorem endDrive_drive (h : e < 256) : (s.endDrive e).drive e = none := by
  unfold State.endDrive State.withdrawThrow
  split <;> exact drive_putDrive_same _ _ _ h

theorem endDrive_elem (x : Nat) : (s.endDrive e).elem x = s.elem x := by
  unfold State.endDrive State.withdrawThrow
  split <;> simp

theorem endDrive_queued {u : UnitRow} (h : s.unitOf .pdu e = some u) : (s.endDrive e).queuedAt u.address = none := by
  have hu : (s.putDrive e none).unitOf .pdu e = some u := (unitOf_of_units (by simp) _ _).trans h
  unfold State.endDrive State.withdrawThrow
  rw [hu]
  exact queuedAt_dequeue _ _

/-- A point made FAILED: no drive, no THROW queued, no next position (R34). -/
theorem failPoint_fails {p : PointRec} (h : s.point? e = some p) :
    (s.failPoint e).point? e = some { p with failed := true, next := none } ∧ (s.failPoint e).drive e = none
      ∧ ∀ u, s.unitOf .pdu e = some u → (s.failPoint e).queuedAt u.address = none := by
  have hp : (s.endDrive e).point? e = some p := point_of_elem.2 ((endDrive_elem _).trans (point_of_elem.1 h))
  unfold State.failPoint
  refine ⟨modPoint_point hp _, (modPoint_drive hp _ e).trans (endDrive_drive (lt_of_point h)), fun u hu => ?_⟩
  have := endDrive_queued hu
  unfold State.queuedAt at this ⊢
  rw [modPoint_tbc hp]
  exact this

/-- A drive withdrawn: no drive, no THROW queued, no next position, and FAILED as it was (R34). -/
theorem withdrawDrive_withdraws {p : PointRec} {d : Drive} (h : s.point? e = some p) (hd : s.drive e = some d) :
    (s.withdrawDrive e).point? e = some { p with next := none } ∧ (s.withdrawDrive e).drive e = none
      ∧ ∀ u, s.unitOf .pdu e = some u → (s.withdrawDrive e).queuedAt u.address = none := by
  have hp : (s.endDrive e).point? e = some p := point_of_elem.2 ((endDrive_elem _).trans (point_of_elem.1 h))
  unfold State.withdrawDrive
  rw [hd]
  refine ⟨modPoint_point hp _, (modPoint_drive hp _ e).trans (endDrive_drive (lt_of_point h)), fun u hu => ?_⟩
  have := endDrive_queued hu
  unfold State.queuedAt at this ⊢
  rw [modPoint_tbc hp]
  exact this

/-- A drive completed with no next position held: no drive, no THROW queued (R32). -/
theorem completeDrive_ends {p : PointRec} (d : Drive) (h : s.point? e = some p) (hn : p.next = none) :
    (s.completeDrive e d).point? e = some p ∧ (s.completeDrive e d).drive e = none
      ∧ ∀ u, s.unitOf .pdu e = some u → (s.completeDrive e d).queuedAt u.address = none := by
  have hp : (s.endDrive e).point? e = some p := point_of_elem.2 ((endDrive_elem _).trans (point_of_elem.1 h))
  have hs : s.completeDrive e d = s.endDrive e := by
    unfold State.completeDrive State.startNext
    rw [hp]
    simp only [hn]
  rw [hs]
  exact ⟨hp, endDrive_drive (lt_of_point h), fun u hu => endDrive_queued hu⟩

/-! ### Throw requests and next positions (R31, R32) -/

theorem claimPos_putDrive (x : Nat) (d : Option Drive) (p : PointRec) : (s.putDrive x d).claimPos p = s.claimPos p := by
  unfold State.putDrive; split <;> rfl

theorem agrees_putDrive (x : Nat) (d : Option Drive) (p : PointRec) (q : Pos) :
    (s.putDrive x d).agrees p q = s.agrees p q := by
  unfold State.agrees
  rw [claimPos_putDrive]

theorem isClear_putDrive (x y : Nat) (d : Option Drive) : (s.putDrive x d).isClear y = s.isClear y := by
  unfold State.isClear State.occ State.track?
  rw [elem_putDrive]

theorem isClear_of_sectionFree {x : Nat} (h : s.sectionFree x = true) : s.isClear x = true := by
  revert h
  unfold State.sectionFree State.isClear State.occ
  cases s.track? x with
  | none => exact nofun
  | some t => exact fun h => (Bool.and_eq_true_iff.mp h).1

theorem throwLaw_of_movable {p : PointRec} {q : Pos} (ha : s.agrees p q = true) (hm : s.movable p = true) :
    s.throwLaw p q = true := by
  unfold State.movable at hm
  unfold State.throwLaw State.containingClear
  simp only [Bool.and_eq_true, List.all_eq_true] at hm ⊢
  exact ⟨ha, fun x hx => isClear_of_sectionFree (hm.2 x hx)⟩

/-- A throw request at a point out of position without a drive begins one (R31). -/
theorem throwRequest_begins {p : PointRec} {q : Pos} {u : UnitRow} (op : Bool) (h : s.point? e = some p)
    (ha : s.agrees p q = true) (hf : p.flagsClear = true) (hd : s.drive e = none) (hq : p.detection ≠ detectionOf q)
    (hm : s.movable p = true) (hu : s.unitOf .pdu e = some u) :
    s.throwRequest e q op =
      ((s.putDrive e (some ⟨q, p.retries, .stopped, .active, false⟩)).enqueue u.address (.throwTo q), true) := by
  have hp : (s.putDrive e (some ⟨q, p.retries, .stopped, .active, false⟩)).point? e = some p :=
    point_of_elem.2 ((elem_putDrive ..).trans (point_of_elem.1 h))
  have hl : (s.putDrive e (some ⟨q, p.retries, .stopped, .active, false⟩)).throwLaw p q = true := by
    have := throwLaw_of_movable ha hm
    unfold State.throwLaw State.containingClear at this ⊢
    rw [agrees_putDrive, show (s.putDrive e (some ⟨q, p.retries, .stopped, .active, false⟩)).isClear = s.isClear from
      funext fun x => isClear_putDrive e x _]
    exact this
  have hu' : (s.putDrive e (some ⟨q, p.retries, .stopped, .active, false⟩)).unitOf .pdu e = some u :=
    (unitOf_of_units (by simp) _ _).trans hu
  unfold State.throwRequest State.enqueueThrow
  simp only [h, ha, hf, hd, hm, hp, hl, hu', Bool.and_self, if_true, beq_iff_eq, hq, if_false]

/-- What `endDrive` and `dropNext` leave of a point: its record with no next position, and what the tests of a throw
request read. -/
theorem dropNext_endDrive {p : PointRec} (h : s.point? e = some p) :
    let m := (s.endDrive e).dropNext e
    m.point? e = some { p with next := none } ∧ m.drive e = none ∧ m.tbc = (s.endDrive e).tbc
      ∧ (∀ r : PointRec, m.claimPos r = s.claimPos r) ∧ ∀ x, m.sectionFree x = s.sectionFree x := by
  have hp : (s.endDrive e).point? e = some p := point_of_elem.2 ((endDrive_elem _).trans (point_of_elem.1 h))
  have hc : ∀ r : PointRec, (s.endDrive e).claimPos r = s.claimPos r := fun r => by
    unfold State.endDrive State.withdrawThrow
    split <;> exact claimPos_putDrive e none r
  have hf : ∀ x, (s.endDrive e).sectionFree x = s.sectionFree x := fun x => by
    unfold State.sectionFree State.track?
    rw [endDrive_elem]
  refine ⟨modPoint_point hp _, (modPoint_drive hp _ e).trans (endDrive_drive (lt_of_point h)), modPoint_tbc hp _,
    fun r => ?_, fun x => ?_⟩
  · rw [← hc r]
    unfold State.dropNext State.modPoint State.writePoint
    simp only [hp]
    unfold State.putElem
    split <;> rfl
  · rw [← hf x]
    unfold State.dropNext State.modPoint State.writePoint
    simp only [hp]
    unfold State.sectionFree State.track?
    rw [elem_notifyAll]
    by_cases hx : e = x
    · subst hx
      rw [elem_putElem_same _ _ _ (lt_of_point h), point_of_elem.1 hp]
    · rw [elem_putElem_ne _ _ _ _ hx]

/-- A drive ends with a next position held (R32): still wanted, and its conditions hold, it is a fresh drive with full
attempts and a THROW queued; not wanted, it is dropped. -/
theorem completeDrive_next {p : PointRec} {q : Pos} (d : Drive) (h : s.point? e = some p) (hn : p.next = some q) :
    (s.wanted p q d.operatorMark = false →
      (s.completeDrive e d).point? e = some { p with next := none } ∧ (s.completeDrive e d).drive e = none)
    ∧ ∀ u, s.wanted p q d.operatorMark = true → s.agrees p q = true → p.flagsClear = true → p.detection ≠ detectionOf q →
      s.movable p = true → s.unitOf .pdu e = some u →
      (s.completeDrive e d).point? e = some { p with next := none }
        ∧ (s.completeDrive e d).drive e = some ⟨q, p.retries, .stopped, .active, false⟩
        ∧ (s.completeDrive e d).queuedAt u.address = some ⟨u.address, .throwTo q, s.tbc.nextAge, 0⟩ := by
  have hp : (s.endDrive e).point? e = some p := point_of_elem.2 ((endDrive_elem _).trans (point_of_elem.1 h))
  obtain ⟨m1, m2, m3, m4, m5⟩ := dropNext_endDrive h
  have hw : ((s.endDrive e).dropNext e).wanted p q d.operatorMark = s.wanted p q d.operatorMark := by
    unfold State.wanted
    rw [m4]
  unfold State.completeDrive State.startNext
  simp only [hp, hn, hw]
  refine ⟨fun k => ?_, fun u k ha hf hq hm hu => ?_⟩
  · simp only [k]
    exact ⟨m1, m2⟩
  · simp only [k, if_true]
    have hb := throwRequest_begins (s := (s.endDrive e).dropNext e) (e := e) (p := { p with next := none }) (q := q)
      (u := u) false m1
      (by unfold State.agrees at ha ⊢; rw [m4]; exact ha) hf m2 hq
      (by unfold State.movable at hm ⊢; rw [show ((s.endDrive e).dropNext e).sectionFree = s.sectionFree from funext m5]; exact hm)
      ((unitOf_of_units (by rw [m3]; unfold State.endDrive State.withdrawThrow; split <;> simp [State.dequeue, State.modTbc]) _ _).trans hu)
    rw [hb]
    refine ⟨?_, ?_, ?_⟩
    · exact point_of_elem.2 ((elem_enqueue ..).trans ((elem_putDrive ..).trans (point_of_elem.1 m1)))
    · exact (drive_enqueue ..).trans (drive_putDrive_same _ _ _ (lt_of_point h))
    · rw [queuedAt_enqueue, putDrive_tbc, m3]
      unfold State.endDrive State.withdrawThrow
      split <;> simp [State.dequeue, State.modTbc]

/-! ### Reports and losses of a point drive unit (R32, R34, R35) -/

/-- A PDU report by the drive record (R32, R34): the target detected completes the drive, LOCAL withdraws it, else it
goes on; a point without a drive only takes the report. -/
theorem pduReport_rows {p : PointRec} (d : PduDetection) (f : Bool) (h : s.point? e = some p) :
    (s.drive e = none → (s.pduReport e d f).point? e = some { p with detection := reportedDetection d, localMode := f }
      ∧ (s.pduReport e d f).drive e = none)
    ∧ ∀ v, s.drive e = some v →
      (reportedDetection d = detectionOf v.target → s.pduReport e d f =
        (s.modPoint e fun p => { p with detection := reportedDetection d, localMode := f }).completeDrive e v)
      ∧ (reportedDetection d ≠ detectionOf v.target → f = true →
        (s.pduReport e d f).point? e =
            some { p with detection := reportedDetection d, localMode := true, next := none }
          ∧ (s.pduReport e d f).drive e = none
          ∧ ∀ u, s.unitOf .pdu e = some u → (s.pduReport e d f).queuedAt u.address = none)
      ∧ (reportedDetection d ≠ detectionOf v.target → f = false →
        (s.pduReport e d f).point? e = some { p with detection := reportedDetection d, localMode := false }
          ∧ (s.pduReport e d f).drive e = some v ∧ (s.pduReport e d f).tbc = s.tbc) := by
  have hm := modPoint_point h fun p => { p with detection := reportedDetection d, localMode := f }
  have hd := modPoint_drive h (fun p => { p with detection := reportedDetection d, localMode := f }) e
  have ht := modPoint_tbc h fun p => { p with detection := reportedDetection d, localMode := f }
  unfold State.pduReport
  simp only [hd]
  refine ⟨fun k => ?_, fun v k => ⟨fun hr => ?_, fun hr hf => ?_, fun hr hf => ?_⟩⟩
  · simp only [k]
    exact ⟨hm, hd.trans k⟩
  · simp only [k, hr, beq_self_eq_true, if_true]
  · subst hf
    simp only [k, beq_iff_eq, hr, if_false, if_true]
    obtain ⟨h1, h2, h3⟩ := withdrawDrive_withdraws hm (hd.trans k)
    exact ⟨h1, h2, fun u hu => h3 u ((unitOf_of_units (congrArg Tbc.units ht) _ _).trans hu)⟩
  · subst hf
    simp only [k, beq_iff_eq, hr, if_false, Bool.false_eq_true]
    exact ⟨hm, hd.trans k, ht⟩

/-- The PDU is lost: an ACTIVE drive is PAUSED with its attempts and its timer frozen (R35). -/
theorem pauseDrive_pauses {d : Drive} (he : e < 256) (hd : s.drive e = some d) (ha : d.state = .active) :
    (s.pauseDrive e).drive e = some { d with state := .paused, timer := d.timer.freeze } := by
  unfold State.pauseDrive
  simp only [hd, ha, beq_self_eq_true, if_true]
  exact drive_putDrive_same _ _ _ he

theorem dropNext_of_none {p : PointRec} (h : s.point? e = some p) (hn : p.next = none) :
    (s.dropNext e).point? e = some p ∧ (s.dropNext e).tbc = s.tbc
      ∧ (∀ r : PointRec, (s.dropNext e).claimPos r = s.claimPos r) ∧ ∀ x, (s.dropNext e).isClear x = s.isClear x := by
  have hp : ({ p with next := none } : PointRec) = p := by rw [← hn]
  refine ⟨(modPoint_point h _).trans (congrArg some hp), modPoint_tbc h _, fun r => ?_, fun x => ?_⟩
  · unfold State.dropNext State.modPoint State.writePoint
    simp only [h]
    unfold State.putElem
    split <;> rfl
  · unfold State.dropNext State.modPoint State.writePoint
    simp only [h, hp]
    unfold State.isClear State.occ State.track?
    rw [elem_notifyAll]
    by_cases hx : e = x
    · subst hx
      rw [elem_putElem_same _ _ _ (lt_of_point h), point_of_elem.1 h]
    · rw [elem_putElem_ne _ _ _ _ hx]

/-- The PDU answers again and the report did not complete the drive (R35): a next position still wanted redirects it, a
containing section not CLEAR makes the point FAILED, else THROW is queued again without spending an attempt. -/
theorem resumeDrive_rows {p : PointRec} {d : Drive} (h : s.point? e = some p) (hd : s.drive e = some d)
    (hs : d.state = .paused) :
    (∀ q, p.next = some q → s.wanted p q d.operatorMark = true → s.resumeDrive e = s.completeDrive e d)
    ∧ (p.next = none → s.containingClear p = false →
      (s.resumeDrive e).drive e = none ∧ (s.resumeDrive e).point? e = some { p with failed := true, next := none })
    ∧ ∀ u, p.next = none → s.throwLaw p d.target = true → s.unitOf .pdu e = some u →
      (s.resumeDrive e).drive e = some { d with state := .active } ∧ (s.resumeDrive e).point? e = some p
        ∧ (s.resumeDrive e).queuedAt u.address = some ⟨u.address, .throwTo d.target, s.tbc.nextAge, 0⟩ := by
  have hr : ∀ x, p.next = x → s.redirects e d = (match x with | some q => s.wanted p q d.operatorMark | none => false) := by
    intro x hx
    unfold State.redirects
    rw [h]
    simp only [Option.bind_some, hx]
    cases x <;> rfl
  unfold State.resumeDrive
  simp only [hd, hs, beq_self_eq_true, if_true]
  refine ⟨fun q hn hw => ?_, fun hn hc => ?_, fun u hn hl hu => ?_⟩
  · rw [hr _ hn]
    simp only [hw, if_true]
  · rw [hr _ hn]
    obtain ⟨h1, -, -, h4⟩ := dropNext_of_none h hn
    have hc' : (s.dropNext e).containingClear p = false := by
      unfold State.containingClear at hc ⊢
      rw [show (s.dropNext e).isClear = s.isClear from funext h4]
      exact hc
    simp only [Bool.false_eq_true, if_false, h1, hc', Bool.not_false, if_true]
    obtain ⟨f1, f2, -⟩ := failPoint_fails h1
    exact ⟨f2, f1⟩
  · rw [hr _ hn]
    obtain ⟨h1, h2, h3, h4⟩ := dropNext_of_none h hn
    have hl' : (s.dropNext e).throwLaw p d.target = true := by
      unfold State.throwLaw State.agrees State.containingClear at hl ⊢
      rw [show (s.dropNext e).isClear = s.isClear from funext h4, h3]
      exact hl
    have hc' : (s.dropNext e).containingClear p = true := by
      unfold State.throwLaw at hl'
      exact (Bool.and_eq_true _ _ ▸ hl').2
    have hp : ((s.dropNext e).putDrive e (some { d with state := .active })).point? e = some p :=
      point_of_elem.2 ((elem_putDrive ..).trans (point_of_elem.1 h1))
    have hl2 : ((s.dropNext e).putDrive e (some { d with state := .active })).throwLaw p d.target = true := by
      unfold State.throwLaw State.containingClear at hl' ⊢
      rw [agrees_putDrive, show ((s.dropNext e).putDrive e (some { d with state := .active })).isClear
        = (s.dropNext e).isClear from funext fun x => isClear_putDrive e x _]
      exact hl'
    have hu2 : ((s.dropNext e).putDrive e (some { d with state := .active })).unitOf .pdu e = some u :=
      (unitOf_of_units (by rw [putDrive_tbc, h2]) _ _).trans hu
    simp only [Bool.false_eq_true, if_false, h1, hc', Bool.not_true]
    unfold State.enqueueThrow
    simp only [hp, hl2, if_true, hu2]
    refine ⟨?_, ?_, ?_⟩
    · exact (drive_enqueue ..).trans (drive_putDrive_same _ _ _ (lt_of_point h))
    · exact point_of_elem.2 ((elem_enqueue ..).trans (point_of_elem.1 hp))
    · rw [queuedAt_enqueue, putDrive_tbc, h2]

/-- The end of an attempt with a next position still wanted redirects the drive (R33). -/
theorem attemptEnds_redirects {p : PointRec} {q : Pos} (d : Drive) (h : s.point? e = some p) (hn : p.next = some q)
    (hw : s.wanted p q d.operatorMark = true) : s.attemptEnds e d = s.completeDrive e d := by
  have hr : s.redirects e d = true := by
    unfold State.redirects
    rw [h]
    simp only [Option.bind_some, hn]
    exact hw
  unfold State.attemptEnds
  rw [hr]
  rfl

/-! ### Signals (R37 to R40) -/

section
variable {g : SignalRec} (h : s.signal? e = some g)
include h

theorem modSignal_signal (f : SignalRec → SignalRec) : (s.modSignal e f).signal? e = some (f g) := by
  unfold State.modSignal State.writeSignal
  rw [h]
  exact signal_of_elem.2 (elem_putElem_same _ _ _ (lt_of_signal h))

theorem modSignal_cmd (f : SignalRec → SignalRec) (x : Nat) : (s.modSignal e f).cmd x = s.cmd x := by
  unfold State.modSignal State.writeSignal
  rw [h]
  simp

theorem modSignal_tbc (f : SignalRec → SignalRec) : (s.modSignal e f).tbc = s.tbc := by
  unfold State.modSignal State.writeSignal
  rw [h]
  exact putElem_tbc ..

theorem modSignal_notices (f : SignalRec → SignalRec) : ∃ l, (s.modSignal e f).notices = s.notices ++ l := by
  unfold State.modSignal State.writeSignal
  simp only [h]
  exact ⟨_, congrArg (· ++ _) (putElem_notices ..)⟩

end

/-- SHOW(STOP) queued for the unit of a signal, and outstanding (R38 to R40). -/
theorem enqueueStop_queues {u : UnitRow} (he : e < 256) (hu : s.unitOf .sdu e = some u) :
    (∀ x, (s.enqueueStop e).elem x = s.elem x)
      ∧ (s.enqueueStop e).cmd e = { s.cmd e with stopOutstanding := true }
      ∧ (s.enqueueStop e).queuedAt u.address = some ⟨u.address, .showAs .stop, s.tbc.nextAge, 0⟩
      ∧ (s.enqueueStop e).notices = s.notices := by
  unfold State.enqueueStop
  rw [hu]
  refine ⟨fun x => ?_, cmd_putCmd_same _ _ _ he, ?_, ?_⟩
  · simp
  · rw [← queuedAt_enqueue]
    unfold State.queuedAt
    rw [putCmd_tbc]
  · rw [putCmd_notices]
    rfl

/-- A PROCEED command that is unsuccessful (R38). -/
theorem proceedFails_rows {g : SignalRec} {u : UnitRow} (h : s.signal? e = some g) (hu : s.unitOf .sdu e = some u) :
    (s.proceedFails e).signal? e = some { g with commanded := .stop }
      ∧ (s.proceedFails e).cmd e = ⟨.stopped, true⟩
      ∧ (s.proceedFails e).queuedAt u.address = some ⟨u.address, .showAs .stop, s.tbc.nextAge, 0⟩
      ∧ ∀ i, g.entrySlot = .held i → .signalNotCleared i e ∈ (s.proceedFails e).notices := by
  have he := lt_of_signal h
  have h1 : (s.dropCmd e).signal? e = some g := signal_of_elem.2 ((elem_putCmd ..).trans (signal_of_elem.1 h))
  have hc1 : (s.dropCmd e).cmd e = { s.cmd e with awaiting := .stopped } := cmd_putCmd_same _ _ _ he
  have hm := modSignal_signal h1 fun g => { g with commanded := .stop }
  have hc := modSignal_cmd h1 (fun g => { g with commanded := .stop }) e
  have ht : ((s.dropCmd e).modSignal e fun g => { g with commanded := .stop }).tbc = s.tbc :=
    (modSignal_tbc h1 _).trans (putCmd_tbc ..)
  obtain ⟨q1, q2, q3, q4⟩ := enqueueStop_queues he
    ((unitOf_of_units (congrArg Tbc.units ht) .sdu e).trans hu)
  unfold State.proceedFails
  simp only [h]
  refine ⟨?_, ?_, ?_, fun i hi => ?_⟩
  · exact signal_of_elem.2 ((elem_notifyAll ..).trans ((q1 e).trans (signal_of_elem.1 hm)))
  · rw [cmd_notifyAll, q2, hc, hc1]
  · rw [← ht]
    exact q3
  · simp [State.notifyAll, hi, Slot.owner]

/-- An SDU report by the command record, the commanded aspect and the outstanding mark (R37, R38, R40). -/
theorem sduReport_rows {g : SignalRec} (a : SduAspect) (l : Bool) (h : s.signal? e = some g) :
    ((s.cmd e).awaiting.isRunning = true →
      (s.sduReport e a l).signal? e = some { g with shown := reportedAspect a, lampFault := l }
      ∧ (s.sduReport e a l).tbc = s.tbc
      ∧ (a = .proceed → (s.sduReport e a l).cmd e = { s.cmd e with awaiting := .stopped }
          ∧ ∀ i, g.entrySlot = .held i → .confirmed i e ∈ (s.sduReport e a l).notices)
      ∧ (a ≠ .proceed → (s.sduReport e a l).cmd e = s.cmd e))
    ∧ ((s.cmd e).awaiting.isRunning = false → g.commanded = .proceed →
      (a = .proceed → (s.sduReport e a l).signal? e = some { g with shown := reportedAspect a, lampFault := l }
        ∧ (s.sduReport e a l).cmd e = s.cmd e ∧ (s.sduReport e a l).tbc = s.tbc)
      ∧ ∀ u, a ≠ .proceed → s.unitOf .sdu e = some u →
        (s.sduReport e a l).signal? e = some { g with shown := reportedAspect a, lampFault := l, commanded := .stop }
        ∧ (s.sduReport e a l).cmd e = ⟨.stopped, true⟩
        ∧ (s.sduReport e a l).queuedAt u.address = some ⟨u.address, .showAs .stop, s.tbc.nextAge, 0⟩
        ∧ ∀ i, g.entrySlot = .held i → .signalNotCleared i e ∈ (s.sduReport e a l).notices)
    ∧ ((s.cmd e).awaiting.isRunning = false → g.commanded = .stop →
      ((a ≠ .proceed ∨ (s.cmd e).stopOutstanding = true) →
        (s.sduReport e a l).signal? e = some { g with shown := reportedAspect a, lampFault := l }
        ∧ (s.sduReport e a l).cmd e = s.cmd e ∧ (s.sduReport e a l).tbc = s.tbc)
      ∧ ∀ u, a = .proceed → (s.cmd e).stopOutstanding = false → s.unitOf .sdu e = some u →
        (s.sduReport e a l).signal? e = some { g with shown := reportedAspect a, lampFault := l, failed := true }
        ∧ (s.sduReport e a l).cmd e = { s.cmd e with stopOutstanding := true }
        ∧ (s.sduReport e a l).queuedAt u.address = some ⟨u.address, .showAs .stop, s.tbc.nextAge, 0⟩) := by
  have he := lt_of_signal h
  have hm := modSignal_signal h fun g => { g with shown := reportedAspect a, lampFault := l }
  have hc := modSignal_cmd h (fun g => { g with shown := reportedAspect a, lampFault := l }) e
  have ht := modSignal_tbc h fun g => { g with shown := reportedAspect a, lampFault := l }
  unfold State.sduReport
  simp only [hm, hc]
  generalize hx : (s.modSignal e fun g => { g with shown := reportedAspect a, lampFault := l }) = m at hm hc ht ⊢
  refine ⟨fun k => ?_, fun k kc => ⟨fun ka => ?_, fun u ka hu => ?_⟩, fun k kc => ⟨fun ka => ?_, fun u ka ko hu => ?_⟩⟩
  · simp only [k, if_true]
    split
    · rename_i ka
      simp only [beq_iff_eq] at ka
      refine ⟨?_, (putCmd_tbc ..).trans ht, fun _ => ⟨?_, fun i hi => ?_⟩, fun kn => absurd ka kn⟩
      · exact signal_of_elem.2 ((elem_notifyAll ..).trans ((elem_putCmd ..).trans (signal_of_elem.1 hm)))
      · rw [cmd_notifyAll]
        exact (cmd_putCmd_same _ _ _ he).trans (by rw [hc])
      · simp [State.notifyAll, hi, Slot.owner]
    · rename_i ka
      exact ⟨hm, ht, fun kp => absurd (by simp [kp]) ka, fun _ => hc⟩
  · simp only [k, kc, ka, Bool.false_eq_true, if_false, beq_self_eq_true, if_true]
    rw [kc, ka] at hm
    exact ⟨hm, hc, ht⟩
  · simp only [k, kc, Bool.false_eq_true, if_false, beq_self_eq_true, if_true, beq_iff_eq, ka]
    obtain ⟨p1, p2, p3, p4⟩ := proceedFails_rows hm ((unitOf_of_units (congrArg Tbc.units ht) .sdu e).trans hu)
    exact ⟨p1, p2, ht ▸ p3, p4⟩
  · have h1 : ((a == SduAspect.proceed) && !(s.cmd e).stopOutstanding) = false := by
      rcases ka with ka | ka
      · simp [ka]
      · simp [ka]
    simp only [k, kc, Bool.false_eq_true, if_false, h1, show (Aspect.stop == Aspect.proceed) = false from rfl]
    rw [kc] at hm
    exact ⟨hm, hc, ht⟩
  · simp only [k, kc, Bool.false_eq_true, if_false, ka, ko, beq_self_eq_true, Bool.not_false, Bool.and_self, if_true,
      show (Aspect.stop == Aspect.proceed) = false from rfl]
    have hf := modSignal_signal hm fun g => { g with failed := true }
    obtain ⟨q1, q2, q3, -⟩ := enqueueStop_queues he
      (((unitOf_of_units (congrArg Tbc.units (modSignal_tbc hm fun g => { g with failed := true })) .sdu e).trans
        (unitOf_of_units (congrArg Tbc.units ht) .sdu e)).trans hu)
    refine ⟨?_, ?_, ?_⟩
    · exact signal_of_elem.2 ((elem_mark ..).trans ((q1 e).trans (signal_of_elem.1 (by rw [hf]; simp [ka, kc]))))
    · rw [cmd_mark, q2, modSignal_cmd hm, hc]
    · rw [modSignal_tbc hm, ht] at q3
      exact q3

/-! ### Missed exchanges (R27, R28) -/

theorem address_of_unitAt {a : Nat} {u : UnitRow} (h : s.unitAt a = some u) : u.address = a := by
  have := List.find?_some h
  simpa using this

/-- A missed exchange that does not take the unit out of reach: the two counts, and nothing else (R28). -/
theorem missed_counts {a : Nat} {u : UnitRow} (o : Schedule) (hu : s.unitAt a = some u)
    (hl : ¬(3 ≤ u.misses + 1 ∧ u.reachable = true)) :
    s.missed o a = { s with tbc := { s.tbc with
      missed := satInc s.tbc.missed
      units := s.tbc.units.map fun v => if v.address == u.address then { u with misses := min 3 (u.misses + 1) } else v } } := by
  unfold State.missed
  have hu' : (s.modTbc fun t => { t with missed := satInc t.missed }).unitAt a = some u := hu
  simp only [hu']
  rw [if_neg (fun h => hl ⟨by omega, h.2⟩)]
  rfl

/-- The miss of a command whose unit stays in reach (R27): the first and the second keep it queued, with its age stamp and
its count; the third takes it off the queue and hands *failed*, NO_ANSWER, to the LKC; a command no longer queued is
gone. -/
theorem missedCommand_rows {a age : Nat} {tel : TrackTelegram} {u : UnitRow} (o : Schedule) (hu : s.unitAt a = some u)
    (hl : ¬(3 ≤ u.misses + 1 ∧ u.reachable = true)) :
    (s.stillQueued a age = none → s.missedCommand o a age tel = s.missed o a)
    ∧ ∀ q, s.stillQueued a age = some q →
      (q.misses + 1 < 3 → s.missedCommand o a age tel = (s.missed o a).setCmdMisses a (q.misses + 1))
      ∧ (3 ≤ q.misses + 1 →
        s.missedCommand o a age tel = ((s.missed o a).dequeue a).commandAnswered u tel (some none)) := by
  have hs : (s.missed o a).stillQueued a age = s.stillQueued a age := by rw [missed_counts o hu hl]; rfl
  have hf : (u.reachable && decide (3 ≤ u.misses + 1)) = false := by
    cases hr : u.reachable with
    | false => rfl
    | true => simpa using fun h => hl ⟨h, hr⟩
  unfold State.missedCommand
  simp only [hu, hf, Bool.false_eq_true, if_false, hs]
  refine ⟨fun k => by rw [k], fun q k => ⟨fun k3 => ?_, fun k3 => ?_⟩⟩
  · rw [k]
    exact if_neg (by omega)
  · rw [k]
    exact if_pos k3

/-- The LKC's part of a third miss (R33, R37, R39). -/
theorem commandAnswered_noAnswer (u : UnitRow) :
    (∀ pos d, s.drive u.serves = some d → s.commandAnswered u (.throwTo pos) (some none) = s.attemptEnds u.serves d)
    ∧ (∀ pos, s.drive u.serves = none → s.commandAnswered u (.throwTo pos) (some none) = s)
    ∧ ((s.cmd u.serves).awaiting.isRunning = true →
        s.commandAnswered u (.showAs .proceed) (some none) = s.proceedFails u.serves)
    ∧ ((s.cmd u.serves).awaiting.isRunning = false → s.commandAnswered u (.showAs .proceed) (some none) = s)
    ∧ ∀ g v, s.signal? u.serves = some g → s.unitOf .sdu u.serves = some v → s.queuedAt v.address = none →
        (s.commandAnswered u (.showAs .stop) (some none)).signal? u.serves = some { g with failed := true }
        ∧ ((s.commandAnswered u (.showAs .stop) (some none)).cmd u.serves).stopOutstanding = false := by
  refine ⟨fun pos d h => ?_, fun pos h => ?_, fun h => ?_, fun h => ?_, fun g v hg hv hq => ?_⟩
  · unfold State.commandAnswered State.throwFailed
    simp only [h]
  · unfold State.commandAnswered State.throwFailed
    simp only [h]
  · unfold State.commandAnswered State.showProceedFailed
    simp only [h, if_true]
  · unfold State.commandAnswered State.showProceedFailed
    simp only [h, Bool.false_eq_true, if_false]
  · have hn : s.stopQueuedAt v.address = false := by
      unfold State.stopQueuedAt
      rw [hq]
      rfl
    have hs : s.stopAnswered u.serves = s.putCmd u.serves { s.cmd u.serves with stopOutstanding := false } := by
      unfold State.stopAnswered
      rw [hv]
      simp only [hn, Bool.false_eq_true, if_false]
    have hp : (s.stopAnswered u.serves).signal? u.serves = some g := by
      rw [hs]
      exact signal_of_elem.2 ((elem_putCmd ..).trans (signal_of_elem.1 hg))
    unfold State.commandAnswered State.stopFailed
    refine ⟨modSignal_signal hp _, ?_⟩
    rw [modSignal_cmd hp, hs, cmd_putCmd_same _ _ _ (lt_of_signal hg)]

/-- A miss that takes the unit out of reach (R28): no *failed* is handed on for its command. -/
theorem missedCommand_lost {a age : Nat} {tel : TrackTelegram} {u : UnitRow} (o : Schedule) (hu : s.unitAt a = some u)
    (hl : 3 ≤ u.misses + 1 ∧ u.reachable = true) : s.missedCommand o a age tel = s.missed o a := by
  unfold State.missedCommand
  simp [hu, hl.1, hl.2]

end Sys2Proof.Machine
end

