-- ==== Sys2Proof/Laws/Acceptance.lean ====
section
/-! SUPPORT. The conditions of a reservation item by item (R6 to R10), and those of a clearing request (R89). -/

set_option Elab.async false

namespace Sys2Proof.Machine

variable {s : State}

/-! ### Item acceptance (R7 to R10) -/

theorem transferFrom_iff (d : RouteDef) (j : Nat) : s.transferFrom d j = true ↔
    ∃ r c, s.live j = some (r, c) ∧ c.exit = d.entry ∧ (r.state = .cleared ∨ r.state = .inUse) := by
  unfold State.transferFrom
  cases h : s.live j with
  | none => simp
  | some p =>
    obtain ⟨r, c⟩ := p
    simp only [Bool.and_eq_true, Bool.or_eq_true, beq_iff_eq, Option.some.injEq, Prod.mk.injEq]
    exact ⟨fun k => ⟨r, c, ⟨rfl, rfl⟩, k⟩, fun ⟨_, _, ⟨a, b⟩, k⟩ => a ▸ b ▸ k⟩

theorem sectionTransfer_iff (d : RouteDef) (t : TrackRec) (j : Nat) : s.sectionTransfer d t = some j ↔
    t.lock = .held j .overlap
      ∧ ∃ r c, s.live j = some (r, c) ∧ c.exit = d.entry ∧ (r.state = .cleared ∨ r.state = .inUse) := by
  rw [← transferFrom_iff]
  unfold State.sectionTransfer
  split
  · rename_i k hk
    rw [hk]
    split
    · rename_i h
      simp only [Option.some.injEq, TrackLock.held.injEq, and_true]
      exact ⟨fun e => ⟨e, e ▸ h⟩, fun e => e.1⟩
    · rename_i h
      simp only [TrackLock.held.injEq, and_true]
      exact ⟨nofun, fun e => absurd (e.1 ▸ e.2) h⟩
  · rename_i h
    exact ⟨nofun, fun e => absurd e.1 (h j)⟩

theorem pointTransfer_iff (d : RouteDef) (p : PointRec) (q : Pos) (j : Nat) : s.pointTransfer d p q = some j ↔
    p.lock = .held j .overlap q
      ∧ ∃ r c, s.live j = some (r, c) ∧ c.exit = d.entry ∧ (r.state = .cleared ∨ r.state = .inUse) := by
  rw [← transferFrom_iff]
  unfold State.pointTransfer
  split
  · rename_i k x hk
    rw [hk]
    by_cases hq : x = q
    · subst hq
      by_cases h : s.transferFrom d k = true
      · simp only [h, Bool.and_true, beq_self_eq_true, if_true, Option.some.injEq, PointLock.held.injEq, and_true]
        exact ⟨fun e => ⟨e, e ▸ h⟩, fun e => e.1⟩
      · simp only [Bool.not_eq_true] at h
        simp only [h, Bool.and_false, Bool.false_eq_true, if_false, PointLock.held.injEq, and_true]
        exact ⟨nofun, fun e => by rw [← e.1, h] at e; exact absurd e.2 (by simp)⟩
    · simp [hq]
  · rename_i h
    exact ⟨nofun, fun e => absurd e.1 (h j q)⟩

/-- A section item passes (R7). -/
theorem sectionItemOk_iff (d : RouteDef) (inPath last : Bool) (e : Nat) : s.sectionItemOk d inPath last e = true ↔
    ∃ t, s.track? e = some t ∧ (t.lock = .empty ∨ (inPath = true ∧ ∃ j, s.sectionTransfer d t = some j))
      ∧ t.block = false ∧ t.suspect = false ∧ (t.occupancy = .clear ∨ (last = true ∧ t.occupancy = .occupied)) := by
  unfold State.sectionItemOk
  cases h : s.track? e with
  | none => simp
  | some t => simp [Option.isSome_iff_exists, and_assoc]

theorem flagsClear_iff (p : PointRec) : p.flagsClear = true ↔ p.failed = false ∧ p.localMode = false ∧ p.suspect = false := by
  simp [PointRec.flagsClear, and_assoc]

theorem sectionFree_iff (e : Nat) : s.sectionFree e = true ↔
    ∃ t, s.track? e = some t ∧ t.occupancy = .clear ∧ t.block = false := by
  unfold State.sectionFree
  cases h : s.track? e with
  | none => simp
  | some t => simp

theorem movable_iff (p : PointRec) : s.movable p = true ↔
    p.block = false ∧ ∀ c ∈ p.containing, ∃ t, s.track? c = some t ∧ t.occupancy = .clear ∧ t.block = false := by
  simp [State.movable, sectionFree_iff]

theorem claimPos_iff (p : PointRec) (q : Pos) : s.claimPos p = some q ↔
    ∃ f, s.claim? p.flankRef = some f ∧ f.required = .pos q := by
  unfold State.claimPos
  cases h : s.claim? p.flankRef with
  | none => simp
  | some f => cases hf : f.required <;> simp [hf]

/-- A point item passes (R8). -/
theorem pointItemOk_iff (d : RouteDef) (inPath : Bool) (x : PointReq) : s.pointItemOk d inPath x = true ↔
    ∃ p, s.point? x.point = some p ∧ (p.lock = .empty ∨ (inPath = true ∧ ∃ j, s.pointTransfer d p x.pos = some j))
      ∧ (p.flankRef = none ∨ ∃ f, s.claim? p.flankRef = some f ∧ f.required = .pos x.pos)
      ∧ p.failed = false ∧ p.localMode = false ∧ p.suspect = false
      ∧ (p.detection = detectionOf x.pos ∨ (p.block = false
        ∧ ∀ c ∈ p.containing, ∃ t, s.track? c = some t ∧ t.occupancy = .clear ∧ t.block = false)) := by
  unfold State.pointItemOk
  cases h : s.point? x.point with
  | none => simp
  | some p =>
    simp only [Bool.and_eq_true, Bool.or_eq_true, beq_iff_eq, Option.isNone_iff_eq_none, claimPos_iff, flagsClear_iff,
      movable_iff, Option.isSome_iff_exists, Option.some.injEq, exists_eq_left', and_assoc]

theorem track_of_elem {e : Nat} {t : TrackRec} : s.track? e = some t ↔ s.elem e = .track t := by
  unfold State.track?
  cases h : s.elem e <;> simp

theorem boundary_of_elem {e : Nat} {b : BoundaryRec} : s.boundary? e = some b ↔ s.elem e = .boundary b := by
  unfold State.boundary?
  cases h : s.elem e <;> simp

/-- An entry passes (R9). -/
theorem entryItemOk_rows (d : RouteDef) :
    (∀ g, s.signal? d.entry = some g → (s.entryItemOk d = true ↔
      g.entrySlot = .empty ∧ g.flankRef = none ∧ g.block = false ∧ g.failed = false ∧ g.suspect = false))
    ∧ (∀ b, s.boundary? d.entry = some b → (s.entryItemOk d = true ↔ b.entrySlot = .empty))
    ∧ (s.signal? d.entry = none → s.boundary? d.entry = none → s.entryItemOk d = false) := by
  refine ⟨fun g h => ?_, fun b h => ?_, fun h k => ?_⟩
  · rw [signal_of_elem] at h
    simp [State.entryItemOk, h, and_assoc]
  · rw [boundary_of_elem] at h
    simp [State.entryItemOk, h]
  · unfold State.signal? at h
    unfold State.boundary? at k
    unfold State.entryItemOk
    cases hx : s.elem d.entry <;> simp_all

/-- An exit passes (R9). -/
theorem exitItemOk_rows (d : RouteDef) :
    (∀ g, s.signal? d.exit = some g → (s.exitItemOk d = true ↔ g.exitSlot = .empty))
    ∧ (∀ b, s.boundary? d.exit = some b → (s.exitItemOk d = true ↔ b.exitSlot = .empty ∧ (s.blcAt b.link).link ≠ .down
        ∧ (s.blcAt b.link).isOpen = true ∧ ((s.blcAt b.link).direction = .outward ∨ s.lineClear b.link = true)))
    ∧ (s.signal? d.exit = none → s.boundary? d.exit = none → s.exitItemOk d = false) := by
  refine ⟨fun g h => ?_, fun b h => ?_, fun h k => ?_⟩
  · rw [signal_of_elem] at h
    simp [State.exitItemOk, h]
  · rw [boundary_of_elem] at h
    simp [State.exitItemOk, h, and_assoc]
  · unfold State.signal? at h
    unfold State.boundary? at k
    unfold State.exitItemOk
    cases hx : s.elem d.exit <;> simp_all

/-! ### The order of the items (R6) -/

/-- The items of one path item or overlap in order, each with whether it passes. -/
def State.itemTests (s : State) (d : RouteDef) (inPath last : Bool) (it : PathItem) : List (Nat × Bool) :=
  (it.sect, s.sectionItemOk d inPath last it.sect) :: it.points.map fun r => (r.point, s.pointItemOk d inPath r)

/-- The elements of the items that fail. -/
def failing (l : List (Nat × Bool)) : List Nat := (l.filter fun p => !p.2).map Prod.fst

theorem failing_append (l m : List (Nat × Bool)) : failing (l ++ m) = failing l ++ failing m := by
  simp [failing]

theorem failing_flatMap {α : Type} (f : α → List (Nat × Bool)) (l : List α) :
    failing (l.flatMap f) = l.flatMap fun x => failing (f x) := by
  induction l with
  | nil => rfl
  | cons a l ih => rw [List.flatMap_cons, List.flatMap_cons, failing_append, ih]

theorem itemFailures_eq (d : RouteDef) (inPath last : Bool) (it : PathItem) :
    s.itemFailures d inPath last it = failing (s.itemTests d inPath last it) := by
  unfold State.itemFailures State.itemTests failing
  have h : ∀ l : List PointReq, ((l.map fun r => (r.point, s.pointItemOk d inPath r)).filter fun p => !p.2).map Prod.fst
      = (l.filter fun r => !s.pointItemOk d inPath r).map PointReq.point := by
    intro l
    induction l with
    | nil => rfl
    | cons a l ih =>
      simp only [List.map_cons, List.filter_cons]
      cases s.pointItemOk d inPath a <;> simp_all
  cases hx : s.sectionItemOk d inPath last it.sect <;> simp [← h]

theorem failing_head {l : List (Nat × Bool)} :
    (∀ e, l.find? (fun p => !p.2) = some (e, false) → ∃ m, failing l = e :: m)
    ∧ ((∀ p ∈ l, p.2 = true) → failing l = []) := by
  constructor
  · intro e h
    induction l with
    | nil => simp at h
    | cons a l ih =>
      obtain ⟨x, b⟩ := a
      cases b with
      | false =>
        simp only [List.find?_cons, Bool.not_false, Option.some.injEq, Prod.mk.injEq, and_true] at h
        subst h
        exact ⟨failing l, by simp [failing]⟩
      | true =>
        obtain ⟨m, hm⟩ := ih (by simpa [List.find?_cons] using h)
        exact ⟨m, by simpa [failing] using hm⟩
  · intro h
    unfold failing
    rw [List.filter_eq_nil_iff.2 fun p hp => by simp [h p hp]]
    rfl

/-- A reservation request by its items in order (R6): the first that fails is named; with none it is the flank items that
decide, and with none of them it passes. -/
theorem reserve_rows (i : Nat) (d : RouteDef) :
    let items := [(d.entry, s.entryItemOk d), (d.exit, s.exitItemOk d)]
      ++ (indexedPath d).flatMap (fun p => s.itemTests d true (shuntLast d p.1) p.2)
      ++ d.overlap.toList.flatMap (s.itemTests d false false)
    (∀ e, items.find? (fun p => !p.2) = some (e, false) → s.reserve i d = .error e)
    ∧ ((∀ p ∈ items, p.2 = true) →
      (∀ e, s.chooseAll [] d.flank = .error e → s.reserve i d = .error e)
      ∧ ∀ c, s.chooseAll [] d.flank = .ok c → s.reserve i d = .ok (s.applyReservation i d c)) := by
  intro items
  have he : (if s.entryItemOk d then [] else [d.entry]) ++ (if s.exitItemOk d then [] else [d.exit])
      ++ ((indexedPath d).flatMap fun p => s.itemFailures d true (shuntLast d p.1) p.2)
      ++ d.overlap.toList.flatMap (s.itemFailures d false false) = failing items := by
    simp only [items, failing_append, failing_flatMap]
    congr 1
    · congr 1
      · cases s.entryItemOk d <;> cases s.exitItemOk d <;> rfl
      · exact congrArg (fun f => (indexedPath d).flatMap f) (funext fun p => itemFailures_eq ..)
    · exact congrArg (fun f => d.overlap.toList.flatMap f) (funext fun p => itemFailures_eq ..)
  have ht : s.testItems d = match failing items with
      | e :: _ => .error e
      | [] => s.chooseAll [] d.flank := by
    exact congrArg (fun l : List Nat => match l with
      | e :: _ => Except.error e
      | [] => s.chooseAll [] d.flank) he
  have hr : s.reserve i d = match s.testItems d with
      | .error e => .error e
      | .ok c => .ok (s.applyReservation i d c) := rfl
  refine ⟨fun e h => ?_, fun h => ⟨fun e k => ?_, fun c k => ?_⟩⟩
  · obtain ⟨m, hm⟩ := failing_head.1 e h
    rw [hr, ht, hm]
  · rw [hr, ht, failing_head.2 h]
    simp only [k]
  · rw [hr, ht, failing_head.2 h]
    simp only [k]

/-- The flank items in definition order (R107). -/
theorem chooseAll_rows (chosen : List FlankTarget) (f : FlankItem) (l : List FlankItem) :
    s.chooseAll chosen [] = .ok []
    ∧ (s.chooseFlank chosen f = none → s.chooseAll chosen (f :: l) = .error (s.primaryElem f.primary))
    ∧ ∀ c, s.chooseFlank chosen f = some c →
      (∀ e, s.chooseAll (chosen ++ c.2.toList) l = .error e → s.chooseAll chosen (f :: l) = .error e)
      ∧ ∀ r, s.chooseAll (chosen ++ c.2.toList) l = .ok r → s.chooseAll chosen (f :: l) = .ok (c :: r) := by
  refine ⟨rfl, fun h => ?_, fun c h => ⟨fun e k => ?_, fun r k => ?_⟩⟩
  · rw [State.chooseAll, h]
  · rw [State.chooseAll, h]; simp only [k]
  · rw [State.chooseAll, h]; simp only [k]

theorem shuntLast_iff (d : RouteDef) (k : Nat) : shuntLast d k = true ↔ d.cls = .shunt ∧ k = d.path.length := by
  simp [shuntLast]

/-! ### The clearing request (R89) -/

theorem entryHeld_rows (i e : Nat) :
    (∀ g, s.signal? e = some g → (s.entryHeld i e = true ↔ g.entrySlot = .held i)
      ∧ (s.exitHeld i e = true ↔ g.exitSlot = .held i))
    ∧ ∀ b, s.boundary? e = some b → (s.entryHeld i e = true ↔ b.entrySlot = .held i)
      ∧ (s.exitHeld i e = true ↔ b.exitSlot = .held i) := by
  refine ⟨fun g h => ?_, fun b h => ?_⟩
  · rw [signal_of_elem] at h
    simp [State.entryHeld, State.exitHeld, h]
  · rw [boundary_of_elem] at h
    simp [State.entryHeld, State.exitHeld, h]

theorem pointProof_iff (i : Nat) (role : Role) (x : PointReq) : s.pointProof i role x = [] ↔
    ∃ p, s.point? x.point = some p ∧ p.lock = .held i role x.pos ∧ p.detection = detectionOf x.pos
      ∧ p.failed = false ∧ p.localMode = false ∧ p.suspect = false := by
  unfold State.pointProof
  cases h : s.point? x.point with
  | none => simp
  | some p => simp [flagsClear_iff, and_assoc]

theorem itemProof_iff (i : Nat) (d : RouteDef) (k : Nat) (it : PathItem) : s.itemProof i d k it = [] ↔
    (∃ t, s.track? it.sect = some t ∧ t.lock = .held i .path
      ∧ (t.occupancy = .clear ∨ (shuntLast d k = true ∧ t.occupancy = .occupied)))
    ∧ ∀ x ∈ it.points, s.pointProof i .path x = [] := by
  unfold State.itemProof
  rw [List.append_eq_nil_iff, List.flatMap_eq_nil_iff]
  apply and_congr_left'
  cases h : s.track? it.sect with
  | none => simp
  | some t =>
    simp only [List.append_eq_nil_iff, ite_eq_left_iff, imp_false, Decidable.not_not, beq_iff_eq,
      Bool.or_eq_true, Bool.and_eq_true, Option.some.injEq, exists_eq_left', List.cons_ne_nil]

theorem overlapProof_iff (i : Nat) (r : Inst) (it : PathItem) : s.overlapProof i r it = [] ↔
    r.overlap = .locked ∧ (∃ t, s.track? it.sect = some t ∧ t.lock = .held i .overlap)
      ∧ ∀ x ∈ it.points, s.pointProof i .overlap x = [] := by
  unfold State.overlapProof
  by_cases hr : r.overlap = .locked
  · rw [if_pos (by simp [hr]), List.append_eq_nil_iff, List.flatMap_eq_nil_iff]
    cases h : s.track? it.sect with
    | none => simp
    | some t => simp [hr]
  · rw [if_neg (by simpa using hr)]
    simp [hr]

theorem flankProof_iff (i m : Nat) (f : FlankItem) (c : FlankChoice) : s.flankProof i (m, f, c) = [] ↔
    c.status = .assured ∨ (c.status = .claimed ∧ ∃ t y, chosenTarget f c.alternative = some t
      ∧ s.claim? (s.flankRef (FlankTarget.elem t)) = some y ∧ y.required = FlankTarget.required t
      ∧ .route i m ∈ y.claimants ∧ s.inState t = true) := by
  unfold State.flankProof
  cases hc : c.status with
  | assured => simp
  | asking => simp
  | claimed =>
    simp only [reduceCtorEq, false_or, true_and]
    cases ht : chosenTarget f c.alternative with
    | none => simp
    | some t =>
      cases hy : s.claim? (s.flankRef (FlankTarget.elem t)) with
      | none => simp [hy]
      | some y => simp [hy, and_assoc]

theorem mem_indexed {α : Type} (l : List α) (m : Nat) (a : α) :
    (m, a) ∈ (List.range' 1 l.length).zip l ↔ 1 ≤ m ∧ l[m - 1]? = some a := by
  rw [List.mem_iff_getElem?]
  constructor
  · rintro ⟨k, hk⟩
    rw [List.getElem?_zip_eq_some] at hk
    obtain ⟨h1, h2⟩ := hk
    have hkl : k < l.length := by
      rcases Nat.lt_or_ge k l.length with h | h
      · exact h
      · rw [List.getElem?_eq_none (by simpa using h)] at h1; exact nomatch h1
    have : m = 1 + k := by
      rw [List.getElem?_range' (by simpa using hkl)] at h1
      simpa using h1.symm
    subst this
    exact ⟨by omega, by simpa using h2⟩
  · rintro ⟨h1, h2⟩
    have hml : m - 1 < l.length := by
      rcases Nat.lt_or_ge (m - 1) l.length with h | h
      · exact h
      · rw [List.getElem?_eq_none h] at h2; exact nomatch h2
    refine ⟨m - 1, List.getElem?_zip_eq_some.2 ⟨?_, h2⟩⟩
    rw [List.getElem?_range' (by simpa using hml)]
    congr 1
    omega

/-- A clearing request passes exactly when every condition of R89 holds. -/
theorem clearingFailures_iff (i : Nat) (r : Inst) (d : RouteDef) : s.clearingFailures i r d = [] ↔
    s.entryHeld i d.entry = true ∧ s.exitHeld i d.exit = true
    ∧ (d.cls = .boundaryOut → r.acceptance = .held)
    ∧ (∀ k it, 1 ≤ k → d.path[k - 1]? = some it → s.itemProof i d k it = [])
    ∧ (∀ it, d.overlap = some it → s.overlapProof i r it = [])
    ∧ ∀ m f c, 1 ≤ m → d.flank[m - 1]? = some f → r.flank[m - 1]? = some c → s.flankProof i (m, f, c) = [] := by
  unfold State.clearingFailures
  simp only [List.append_eq_nil_iff, List.flatMap_eq_nil_iff, and_assoc]
  have h1 : ∀ b : Bool, (if b = true then ([] : List (Option Wait)) else [none]) = [] ↔ b = true := by
    intro b; cases b <;> simp
  have h3 : (if (d.cls == .boundaryOut && r.acceptance != .held) = true then [some Wait.acceptance] else []) = []
      ↔ (d.cls = .boundaryOut → r.acceptance = .held) := by
    by_cases a : d.cls = .boundaryOut <;> by_cases b : r.acceptance = .held <;> simp [a, b]
  rw [h1, h1, h3]
  refine and_congr_right' (and_congr_right' (and_congr_right' (and_congr ?_ (and_congr ?_ ?_))))
  · constructor
    · intro h k it hk hi
      exact h (k, it) ((mem_indexed d.path k it).2 ⟨hk, hi⟩)
    · rintro h ⟨k, it⟩ hm
      obtain ⟨hk, hi⟩ := (mem_indexed d.path k it).1 hm
      exact h k it hk hi
  · simp
  · constructor
    · intro h m f c hm hf hc
      exact h (m, f, c) ((mem_indexed (d.flank.zip r.flank) m (f, c)).2 ⟨hm, List.getElem?_zip_eq_some.2 ⟨hf, hc⟩⟩)
    · rintro h ⟨m, f, c⟩ hm
      obtain ⟨hk, hi⟩ := (mem_indexed (d.flank.zip r.flank) m (f, c)).1 hm
      obtain ⟨hf, hc⟩ := List.getElem?_zip_eq_some.1 hi
      exact h m f c hk hf hc

end Sys2Proof.Machine
end

