-- ==== Sys2Proof/Laws/Frame.lean ====
section
/-! SUPPORT. How an instance reads past a write, and the operations that leave the instance records as they were. -/

set_option Elab.async false

namespace Sys2Proof.Machine

variable {s : State} {i e : Nat} {r : Inst} {d : RouteDef}

/-! ### Reading an instance past a write -/

theorem lt_of_inst (h : s.inst i = some r) : i < 48 := by
  by_cases hi : i < 48
  · exact hi
  · simp [State.inst, Vector.getD, hi] at h

theorem inst_of_insts {t : State} (h : t.rim.insts = s.rim.insts) (j : Nat) : t.inst j = s.inst j := by
  unfold State.inst
  rw [h]

theorem inst_mark (s : State) (o : Obj) (j : Nat) : (s.mark o).inst j = s.inst j := rfl

theorem inst_of_live (h : s.live i = some (r, d)) : s.inst i = some r := by
  unfold State.live at h
  cases hi : s.inst i with
  | none => simp [hi] at h
  | some x =>
    cases hd : s.routeDef x.route with
    | none => simp [hi, hd] at h
    | some y =>
      simp [hi, hd] at h
      rw [h.1]

theorem routeDef_of_live (h : s.live i = some (r, d)) : s.routeDef r.route = some d := by
  have hi := inst_of_live h
  unfold State.live at h
  cases hd : s.routeDef r.route with
  | none => simp [hi, hd] at h
  | some y => simpa [hi, hd] using h

theorem live_of {x : Inst} (hi : s.inst i = some x) (hd : s.routeDef x.route = some d) : s.live i = some (x, d) := by
  simp [State.live, hi, hd]

theorem modInst_of (f : Inst → Inst) (h : s.inst i = some r) : s.modInst i f = s.putInst i (some (f r)) := by
  simp [State.modInst, h]

theorem inst_modInst (f : Inst → Inst) (h : s.inst i = some r) : (s.modInst i f).inst i = some (f r) := by
  rw [modInst_of f h]
  exact inst_putInst_same _ _ _ (lt_of_inst h)

theorem inst_modInst_map (s : State) (i : Nat) (f : Inst → Inst) : (s.modInst i f).inst i = (s.inst i).map f := by
  cases h : s.inst i with
  | none => simp [State.modInst, h]
  | some r => simpa using inst_modInst f h

theorem inst_modInst_ne (s : State) (i j : Nat) (f : Inst → Inst) (h : i ≠ j) : (s.modInst i f).inst j = s.inst j := by
  unfold State.modInst
  split
  · exact inst_putInst_ne _ _ _ _ h
  · rfl

theorem modInst_rcat (s : State) (i : Nat) (f : Inst → Inst) : (s.modInst i f).rcat = s.rcat := by
  unfold State.modInst
  split <;> simp

theorem routeDef_of_rcat {t : State} (h : t.rcat = s.rcat) (n : Nat) : t.routeDef n = s.routeDef n := by
  unfold State.routeDef
  rw [h]

/-! ### What leaves the instances alone -/

@[simp] theorem modBlc_insts (s : State) (b : BLink) (f : Blc → Blc) : (s.modBlc b f).rim = s.rim := by
  simp [State.modBlc]
@[simp] theorem modBlc_lkc (s : State) (b : BLink) (f : Blc → Blc) : (s.modBlc b f).lkc = s.lkc := putBlc_lkc ..
@[simp] theorem modBlc_notices (s : State) (b : BLink) (f : Blc → Blc) : (s.modBlc b f).notices = s.notices :=
  putBlc_notices ..

@[simp] theorem writeSignal_rim (s : State) (e : Nat) (g : SignalRec) : (s.writeSignal e g).rim = s.rim := by
  unfold State.writeSignal
  split <;> simp

@[simp] theorem modSignal_rim (s : State) (e : Nat) (f : SignalRec → SignalRec) : (s.modSignal e f).rim = s.rim := by
  unfold State.modSignal
  split <;> simp

@[simp] theorem dequeue_rim (s : State) (a : Nat) : (s.dequeue a).rim = s.rim := rfl
@[simp] theorem enqueue_rim (s : State) (a : Nat) (t : TrackTelegram) : (s.enqueue a t).rim = s.rim := rfl
@[simp] theorem dropCmd_rim (s : State) (e : Nat) : (s.dropCmd e).rim = s.rim := by simp [State.dropCmd]

@[simp] theorem enqueueStop_rim (s : State) (e : Nat) : (s.enqueueStop e).rim = s.rim := by
  unfold State.enqueueStop
  split <;> simp

@[simp] theorem commandStop_rim (s : State) (e : Nat) : (s.commandStop e).rim = s.rim := by
  unfold State.commandStop
  split
  · rfl
  · simp only []
    split <;> simp

theorem stopEntry_rim (s : State) (d : RouteDef) : (s.stopEntry d).rim = s.rim := by
  unfold State.stopEntry
  split
  · rfl
  · exact commandStop_rim _ _

/-! ### What leaves the instance records as they were -/

section
variable (s : State)

@[simp] theorem presentMarked_insts : s.presentMarked.rim.insts = s.rim.insts := by
  unfold State.presentMarked
  split <;> rfl

@[simp] theorem startPass_insts : s.startPass.rim.insts = s.rim.insts := by simp [State.startPass]

@[simp] theorem retestTrigger_insts : s.retestTrigger.rim.insts = s.rim.insts := by
  unfold State.retestTrigger
  split
  · rfl
  · split <;> simp

theorem releaseNotice_insts (p : State × Bool) : (releaseNotice p).rim.insts = p.1.rim.insts := by
  unfold releaseNotice
  split <;> simp

@[simp] theorem setEntry_rim (e : Nat) (f : Slot → Slot) : (s.setEntry e f).rim = s.rim := by
  unfold State.setEntry
  split <;> simp
@[simp] theorem setExit_rim (e : Nat) (f : Slot → Slot) : (s.setExit e f).rim = s.rim := by
  unfold State.setExit
  split <;> simp
@[simp] theorem setFlankRef_rim (e : Nat) (f : Option Nat) : (s.setFlankRef e f).rim = s.rim := by
  unfold State.setFlankRef
  split <;> simp

theorem unlockTrack_rim (i e : Nat) (p : State × Bool) : (State.unlockTrack i p e).1.rim = p.1.rim := by
  unfold State.unlockTrack
  split
  · split
    · split <;> simp
    · rfl
  · rfl

theorem unlockPoint_rim (i e : Nat) (p : State × Bool) : (State.unlockPoint i p e).1.rim = p.1.rim := by
  unfold State.unlockPoint
  split
  · split
    · split <;> simp
    · rfl
  · rfl

theorem foldl_rim {α β : Type} {f : State × β → α → State × β} (h : ∀ p x, (f p x).1.rim = p.1.rim) (l : List α)
    (p : State × β) : (l.foldl f p).1.rim = p.1.rim := by
  induction l generalizing p with
  | nil => rfl
  | cons x l ih => rw [List.foldl_cons, ih, h]

theorem unlockItem_rim (i : Nat) (p : State × Bool) (it : PathItem) : (State.unlockItem i p it).1.rim = p.1.rim := by
  unfold State.unlockItem
  rw [foldl_rim (fun p e => unlockPoint_rim i e p), unlockTrack_rim]

theorem unlockEntry_rim (i e : Nat) (p : State × Bool) : (State.unlockEntry i p e).1.rim = p.1.rim := by
  simp [State.unlockEntry]
theorem unlockExit_rim (i e : Nat) (p : State × Bool) : (State.unlockExit i p e).1.rim = p.1.rim := by
  simp [State.unlockExit]

theorem dropFrom_rim (n : Nat) (leaves : Claimant → Bool) : (s.dropFrom n leaves).1.rim = s.rim := by
  unfold State.dropFrom
  split
  · rfl
  · simp only []
    split
    · rfl
    · split <;> simp

theorem dropClaims_rim (leaves : Claimant → Bool) : (s.dropClaims leaves).1.rim = s.rim := by
  unfold State.dropClaims
  generalize List.range Config.fctCount = l
  exact foldl_rim (f := fun (acc : State × Bool) n => ((acc.1.dropFrom n leaves).1, acc.2 || (acc.1.dropFrom n leaves).2))
    (fun p n => dropFrom_rim p.1 n leaves) l (s, false)

@[simp] theorem sendHeld_rim (b : BLink) (t : BoundaryTelegram) : (s.sendHeld b t).rim = s.rim := by
  unfold State.sendHeld
  split <;> simp

@[simp] theorem checkLost_rim (b : BLink) : (s.checkLost b).rim = s.rim := by
  unfold State.checkLost
  split <;> simp

@[simp] theorem giveUpAcceptance_rim (b : BLink) (i : Nat) : (s.giveUpAcceptance b i).rim = s.rim := by
  unfold State.giveUpAcceptance
  simp only []
  split <;> simp

@[simp] theorem giveUpAssurance_rim (b : BLink) (i m : Nat) : (s.giveUpAssurance b i m).rim = s.rim := by
  unfold State.giveUpAssurance
  split
  · simp only []
    split <;> simp
  · rfl

@[simp] theorem dropIncoming_rim (b : BLink) (i : Nat) : (s.dropIncoming b i).rim = s.rim := by
  simp [State.dropIncoming]
@[simp] theorem consumeIncoming_rim (b : BLink) : (s.consumeIncoming b).rim = s.rim := by
  simp [State.consumeIncoming]
@[simp] theorem refusePending_rim (b : BLink) (i : Nat) : (s.refusePending b i).rim = s.rim := by
  unfold State.refusePending
  split <;> simp

@[simp] theorem handOver_rim (b : BLink) (n : Nat) : (s.handOver b n).rim = s.rim := by
  unfold State.handOver
  simp only []
  split <;> simp

theorem foldl_keeps {α β : Type} (g : State → β) {f : State → α → State} (h : ∀ s x, g (f s x) = g s) (l : List α) :
    g (l.foldl f s) = g s := by
  induction l generalizing s with
  | nil => rfl
  | cons x l ih => rw [List.foldl_cons, ih, h]

theorem gaveUp_rim (i : Nat) (l : List (Nat × BLink)) :
    (l.foldl (fun s p => s.giveUpAssurance p.2 i p.1) s).rim = s.rim :=
  foldl_keeps s State.rim (fun s p => giveUpAssurance_rim s p.2 i p.1) l

@[simp] theorem closeMatters_rim (i : Nat) (r : Inst) (d : RouteDef) : (s.closeMatters i r d).rim = s.rim := by
  unfold State.closeMatters
  simp only []
  have h1 : (match s.exitLink d with
      | some b => if d.cls == RouteClass.boundaryOut && (r.acceptance == Acceptance.asked || r.acceptance == Acceptance.held)
          then s.giveUpAcceptance b i else s
      | none => s).rim = s.rim := by
    split
    · split <;> simp
    · rfl
  split
  · split
    · split
      · exact (dropIncoming_rim _ _ _).trans ((gaveUp_rim _ _ _).trans h1)
      · exact (gaveUp_rim _ _ _).trans h1
    · exact (gaveUp_rim _ _ _).trans h1
  · exact (gaveUp_rim _ _ _).trans h1

@[simp] theorem tellRefused_rim (i : Nat) (r : Inst) (d : RouteDef) : (s.tellRefused i r d).rim = s.rim := by
  unfold State.tellRefused
  split
  · split <;> simp
  · rfl

theorem recordFailure_rim (o : Origin) (f : SettingFailure) : (s.recordFailure o f).rim = s.rim :=
  foldl_keeps s State.rim (f := fun s l => (s.modOlc l fun c => { c with failure := some f }).markAt l .partStatus)
    (fun _ _ => rfl) (failureLinks o)

theorem releaseItems_insts (i : Nat) (d : RouteDef) : (s.releaseItems i d).rim.insts = s.rim.insts := by
  unfold State.releaseItems
  simp only []
  rw [releaseNotice_insts]
  simp only [dropClaims_rim]
  rw [foldl_rim (unlockItem_rim i), unlockExit_rim, unlockEntry_rim]

theorem releaseOverlap_insts (i : Nat) (d : RouteDef) : (s.releaseOverlap i d).rim.insts = s.rim.insts := by
  unfold State.releaseOverlap
  rw [releaseNotice_insts, foldl_rim (unlockItem_rim i)]

theorem releasePathItem_insts (i : Nat) (d : RouteDef) (k : Nat) : (s.releasePathItem i d k).rim.insts = s.rim.insts := by
  unfold State.releasePathItem
  simp only []
  rw [releaseNotice_insts]
  simp only [dropClaims_rim]
  rw [foldl_rim (unlockItem_rim i)]
  repeat' split
  all_goals simp [unlockExit_rim, unlockEntry_rim]

end

end Sys2Proof.Machine
end

