-- ==== Sys2Proof/Laws/Locks.lean ====
section
/-! SUPPORT. What a write can do to the owners of the locks (R3), and what a release empties. -/

set_option Elab.async false

namespace Sys2Proof.Machine

/-! ### Records that take no lock -/

/-- A record rewritten so that no slot takes an owner; a slot UNKNOWN afterwards is so on a SUSPECT element, or was. -/
def Element.Sheds (old new : Element) : Prop :=
  ∀ k, (∀ i, new.slot k = .held i → old.slot k = .held i)
    ∧ (new.slot k = .unknown → new.isSuspect = true ∨ (old.slot k = .unknown ∧ old.isSuspect = false))

theorem Element.Sheds.refl (r : Element) : r.Sheds r := fun k => ⟨fun _ h => h, fun h => by
  cases hs : r.isSuspect
  · exact .inr ⟨h, rfl⟩
  · exact .inl rfl⟩

theorem Element.Sheds.trans {a b c : Element} (h : a.Sheds b) (k : b.Sheds c) : a.Sheds c := fun x =>
  ⟨fun i hi => (h x).1 i ((k x).1 i hi), fun hu => by
    rcases (k x).2 hu with h1 | ⟨h1, h2⟩
    · exact .inl h1
    · rcases (h x).2 h1 with h3 | h3
      · rw [h2] at h3; cases h3
      · exact .inr h3⟩

/-- A record with the same slots and the same SUSPECT flag. -/
theorem Element.Sheds.of_same {old new : Element} (h : ∀ k, new.slot k = old.slot k) (hs : new.isSuspect = old.isSuspect) :
    old.Sheds new := fun k => ⟨fun i hi => (h k).symm.trans hi, fun hu => by
  have := (Element.Sheds.refl old k).2 ((h k).symm.trans hu)
  rwa [hs]⟩

/-- A record without owners. -/
theorem Element.Sheds.of_empty (old : Element) {new : Element} (h : ∀ k, new.slot k = .empty) : old.Sheds new := fun k => by
  rw [h k]
  exact ⟨fun _ hi => (nomatch hi), fun hu => (nomatch hu)⟩

/-- A SUSPECT record whose slots are empty or UNKNOWN. -/
theorem Element.Sheds.of_suspect (old : Element) {new : Element} (h : ∀ k i, new.slot k ≠ .held i)
    (hs : new.isSuspect = true) : old.Sheds new := fun k => ⟨fun i hi => absurd hi (h k i), fun _ => .inl hs⟩

theorem sheds_point {p q : PointRec} (h : q.lock = p.lock) (hs : q.suspect = p.suspect) :
    (Element.point p).Sheds (.point q) :=
  .of_same (fun k => by cases k <;> simp [Element.slot, h]) hs

theorem sheds_track {p q : TrackRec} (h : q.lock = p.lock) (hs : q.suspect = p.suspect) :
    (Element.track p).Sheds (.track q) :=
  .of_same (fun k => by cases k <;> simp [Element.slot, h]) hs

theorem sheds_signal {p q : SignalRec} (h : q.entrySlot = p.entrySlot) (hx : q.exitSlot = p.exitSlot)
    (hs : q.suspect = p.suspect) : (Element.signal p).Sheds (.signal q) :=
  .of_same (fun k => by cases k <;> simp [Element.slot, h, hx]) hs

theorem sheds_boundary {p q : BoundaryRec} (h : q.entrySlot = p.entrySlot) (hx : q.exitSlot = p.exitSlot)
    (hs : q.suspect = p.suspect) : (Element.boundary p).Sheds (.boundary q) :=
  .of_same (fun k => by cases k <;> simp [Element.slot, h, hx]) hs

/-- A rewriting of one slot that gives it no owner. -/
def SlotSheds (f : Slot → Slot) : Prop := ∀ x, (∀ i, f x = .held i → x = .held i) ∧ (f x = .unknown → x = .unknown)

theorem releaseBy_sheds (i : Nat) : SlotSheds (Slot.releaseBy i) := fun x => by
  unfold Slot.releaseBy
  split
  · exact ⟨fun _ h => (nomatch h), fun h => (nomatch h)⟩
  · exact ⟨fun _ h => h, id⟩

theorem Element.Sheds.of_slots {old new : Element} (h : ∀ k i, new.slot k = .held i → old.slot k = .held i)
    (hu : ∀ k, new.slot k = .unknown → old.slot k = .unknown) (hs : new.isSuspect = old.isSuspect) : old.Sheds new :=
  fun k => ⟨h k, fun x => by
    rw [hs]
    exact (Element.Sheds.refl old k).2 (hu k x)⟩

section
variable {f : Slot → Slot} (k : SlotSheds f)
include k

theorem sheds_entry_signal {g : SignalRec} : (Element.signal g).Sheds (.signal { g with entrySlot := f g.entrySlot }) :=
  .of_slots (fun x i hi => by cases x <;> first | exact hi | exact (k _).1 i hi)
    (fun x hu => by cases x <;> first | exact hu | exact (k _).2 hu) rfl

theorem sheds_exit_signal {g : SignalRec} : (Element.signal g).Sheds (.signal { g with exitSlot := f g.exitSlot }) :=
  .of_slots (fun x i hi => by cases x <;> first | exact hi | exact (k _).1 i hi)
    (fun x hu => by cases x <;> first | exact hu | exact (k _).2 hu) rfl

theorem sheds_entry_boundary {g : BoundaryRec} :
    (Element.boundary g).Sheds (.boundary { g with entrySlot := f g.entrySlot }) :=
  .of_slots (fun x i hi => by cases x <;> first | exact hi | exact (k _).1 i hi)
    (fun x hu => by cases x <;> first | exact hu | exact (k _).2 hu) rfl

theorem sheds_exit_boundary {g : BoundaryRec} :
    (Element.boundary g).Sheds (.boundary { g with exitSlot := f g.exitSlot }) :=
  .of_slots (fun x i hi => by cases x <;> first | exact hi | exact (k _).1 i hi)
    (fun x hu => by cases x <;> first | exact hu | exact (k _).2 hu) rfl

end

theorem elem_of_point {s : State} {e : Nat} {p : PointRec} (h : s.point? e = some p) : s.elem e = .point p := by
  unfold State.point? at h
  split at h
  · rename_i r hr
    rw [hr]
    cases h
    rfl
  · cases h

theorem elem_of_signal {s : State} {e : Nat} {p : SignalRec} (h : s.signal? e = some p) : s.elem e = .signal p := by
  unfold State.signal? at h
  split at h
  · rename_i r hr
    rw [hr]
    cases h
    rfl
  · cases h

theorem elem_of_track {s : State} {e : Nat} {p : TrackRec} (h : s.track? e = some p) : s.elem e = .track p := by
  unfold State.track? at h
  split at h
  · rename_i r hr
    rw [hr]
    cases h
    rfl
  · cases h

theorem quiet_map {α : Type} (f : α → Notice) (l : List α) (h : ∀ x i, f x ≠ .overlapTransferred i) (i : Nat) :
    .overlapTransferred i ∉ l.map f := fun hm => by
  obtain ⟨x, _, hx⟩ := List.mem_map.1 hm
  exact h x i hx

/-- A point's notices carry no transfer. -/
theorem pointNotices_quiet (s : State) (e : Nat) (p q : PointRec) (i : Nat) :
    .overlapTransferred i ∉ s.pointNotices e p q := by
  unfold State.pointNotices
  dsimp only
  simp only [List.mem_append, List.mem_map, reduceCtorEq, and_false, exists_false, or_self, not_false_eq_true]

/-- A signal's notices carry no transfer. -/
theorem signalNotices_quiet (s : State) (e : Nat) (p q : SignalRec) (i : Nat) :
    .overlapTransferred i ∉ s.signalNotices e p q := by
  unfold State.signalNotices
  dsimp only
  (repeat' split) <;>
    simp only [List.mem_append, List.mem_map, List.not_mem_nil, reduceCtorEq, and_false, exists_false, or_self,
      not_false_eq_true]

/-- A record written at one number. -/
theorem elem_putElem_cases (s : State) (e x : Nat) (r : Element) :
    (s.putElem e r).elem x = s.elem x ∨ (x = e ∧ (s.putElem e r).elem x = r) := by
  by_cases h : e = x
  · subst h
    by_cases he : e < 256
    · exact .inr ⟨rfl, elem_putElem_same _ _ _ he⟩
    · refine .inl ?_
      unfold State.putElem
      split
      · rfl
      · simp [State.elem, State.mark, State.markAt, State.modOlc, Vector.getD, he]
  · exact .inl (elem_putElem_ne _ _ _ _ h)

theorem sheds_putElem {s : State} (e : Nat) (r : Element) (h : (s.elem e).Sheds r) (x : Nat) :
    (s.elem x).Sheds ((s.putElem e r).elem x) := by
  rcases elem_putElem_cases s e x r with k | ⟨k, k2⟩
  · rw [k]; exact .refl _
  · subst k; rw [k2]; exact h

/-! ### Owners -/

theorem Inst.keeps_mono {r : Inst} {d : RouteDef} {p q : Prop} (h : p → q) {k : SlotKind} {e : Nat}
    (x : r.keeps d p k e) : r.keeps d q k e := by
  cases k <;> first
    | exact x
    | exact x.imp id fun y => ⟨h y.1, y.2⟩

/-- Fewer overlaps gone ask for less. -/
theorem State.Owned.fewer {s : State} {g g' : Nat → Prop} {lv : Nat → Option (Inst × RouteDef)} (h : s.Owned g lv)
    (hg : ∀ i, g' i → g i) : s.Owned g' lv :=
  ⟨fun k e i hi => by
    obtain ⟨r, d, h1, h2⟩ := h.1 k e i hi
    exact ⟨r, d, h1, Inst.keeps_mono (fun n x => n (hg i x)) h2⟩, h.2⟩

/-- Records that shed owners stay owned. -/
theorem State.Owned.sheds {s t : State} {g : Nat → Prop} {lv : Nat → Option (Inst × RouteDef)} (h : s.Owned g lv)
    (k : ∀ e, (s.elem e).Sheds (t.elem e)) : t.Owned g lv :=
  ⟨fun x e i hi => h.1 x e i ((k e x).1 i hi), fun x e hu => by
    rcases (k e x).2 hu with h1 | ⟨h1, h2⟩
    · exact h1
    · rw [h.2 x e h1] at h2; cases h2⟩

/-- The live instances that equal records and an equal catalogue give. -/
theorem live_congr {s t : State} (hi : t.rim.insts = s.rim.insts) (hc : t.rcat = s.rcat) : t.live = s.live := by
  funext i
  simp only [State.live, inst_of_insts hi, routeDef_of_rcat hc]

/-! ### Instances rewritten -/

/-- What of an instance record says which slots it keeps. -/
structure Inst.Wider (old new : Inst) : Prop where
  route : new.route = old.route
  unreleased : ∀ k, 1 ≤ k → old.unreleased k = true → new.unreleased k = true
  path : old.pathReleased = false → new.pathReleased = false
  overlap : old.overlapHeld = true → new.overlapHeld = true

/-- The fields of an instance record that say which slots it keeps. -/
def Inst.kept (r : Inst) : Nat × Nat × Bool × OverlapState := (r.route, r.releasePtr, r.pathReleased, r.overlap)

theorem Inst.Wider.of_kept {old new : Inst} (h : new.kept = old.kept) : old.Wider new := by
  simp only [Inst.kept, Prod.mk.injEq] at h
  obtain ⟨h1, h2, h3, h4⟩ := h
  exact ⟨h1, fun k _ => by simp [Inst.unreleased, h2, h3], fun h => h3.trans h, by simp [Inst.overlapHeld, h4]⟩

theorem kept_joinWaits (d : RouteDef) (ws : List Wait) (r : Inst) : (joinWaits d ws r).kept = r.kept := rfl

theorem kept_setChoice (m : Nat) (c : FlankChoice) (r : Inst) : (setChoice m c r).kept = r.kept := rfl

/-- The overlap timer's start keeps the overlap. -/
theorem wider_startOverlap (d : RouteDef) {r r' : Inst} (h : r'.kept = r.kept) : r.Wider (startOverlap d r') := by
  unfold startOverlap
  split
  · rename_i hc
    simp only [Inst.kept, Prod.mk.injEq] at h
    obtain ⟨h1, h2, h3, h4⟩ := h
    exact ⟨h1, fun k _ => by simp [Inst.unreleased, h2, h3], fun h => h3.trans h, fun _ => rfl⟩
  · exact .of_kept h

/-- The train's entry starts the release pointer at the first item. -/
theorem wider_entered (d : RouteDef) (r : Inst) : r.Wider (r.entered d) :=
  ⟨rfl, fun k hk h => by
    simp only [Inst.unreleased, Inst.entered, Bool.and_eq_true, decide_eq_true_eq] at h ⊢
    exact ⟨decide_eq_true hk, h.2⟩, id, id⟩

/-- A number beyond the path has no clear section. -/
theorem lt_of_clear {s : State} {d : RouteDef} {k : Nat} (h : s.isClear (pathSect d k) = true) : k - 1 < d.path.length := by
  by_cases hk : k - 1 < d.path.length
  · exact hk
  · have h1 : pathSect d k = 256 := by
      unfold pathSect
      rw [List.getElem?_eq_none (by omega)]
      rfl
    rw [h1] at h
    simp [State.isClear, State.occ, State.track?, State.elem, Vector.getD] at h

theorem mem_openItems {r : Inst} {d : RouteDef} {it : PathItem} :
    it ∈ r.openItems d ↔ ∃ k, 1 ≤ k ∧ d.path[k - 1]? = some it ∧ r.unreleased k = true := by
  unfold Inst.openItems indexedPath
  simp only [List.mem_map, List.mem_filter, Prod.exists]
  constructor
  · rintro ⟨k, x, ⟨hm, hu⟩, rfl⟩
    obtain ⟨n, hn⟩ := List.getElem?_of_mem hm
    rw [List.getElem?_zip_eq_some] at hn
    obtain ⟨h1, h2⟩ := hn
    have hl := (List.getElem?_eq_some_iff.1 h2).1
    rw [List.getElem?_range' (by simpa using hl)] at h1
    simp only [Option.some.injEq] at h1 h2
    refine ⟨k, by omega, ?_, hu⟩
    rw [show k - 1 = n by omega]
    exact h2
  · rintro ⟨k, hk, hp, hu⟩
    refine ⟨k, it, ⟨?_, hu⟩, rfl⟩
    refine List.mem_of_getElem? (i := k - 1) ?_
    rw [List.getElem?_zip_eq_some]
    refine ⟨?_, hp⟩
    have hl : k - 1 < d.path.length := (List.getElem?_eq_some_iff.1 hp).1
    rw [List.getElem?_range' (by simpa using hl)]
    congr 1
    omega

theorem Inst.keeps_wider {r r' : Inst} (w : r.Wider r') {d : RouteDef} {p : Prop} {k : SlotKind} {e : Nat}
    (h : r.keeps d p k e) : r'.keeps d p k e := by
  have hl : ∀ k, ((∃ it ∈ r.openItems d, hasSlot it k e) ∨ (p ∧ r.overlapHeld = true ∧ ∃ it ∈ d.overlap, hasSlot it k e)) →
      (∃ it ∈ r'.openItems d, hasSlot it k e) ∨ (p ∧ r'.overlapHeld = true ∧ ∃ it ∈ d.overlap, hasSlot it k e) := by
    intro k h
    refine h.imp ?_ fun ⟨a, b, c⟩ => ⟨a, w.overlap b, c⟩
    rintro ⟨it, hm, hh⟩
    obtain ⟨n, h1, h2, h3⟩ := mem_openItems.1 hm
    exact ⟨it, mem_openItems.2 ⟨n, h1, h2, w.unreleased n h1 h3⟩, hh⟩
  cases k with
  | entry => exact ⟨h.1, w.unreleased 1 (Nat.le_refl _) h.2⟩
  | exit => exact ⟨h.1, w.path h.2⟩
  | point => exact hl _ h
  | track => exact hl _ h

theorem live_putInst (s : State) (i : Nat) (v : Option Inst) (hi : i < 48) (j : Nat) :
    (s.putInst i v).live j = if j = i then v.bind fun r => (s.routeDef r.route).map fun d => (r, d) else s.live j := by
  have hr : ∀ n, (s.putInst i v).routeDef n = s.routeDef n := fun n => routeDef_of_rcat (putInst_rcat s i v) n
  unfold State.live
  simp only [hr]
  split
  · rename_i h
    subst h
    rw [inst_putInst_same _ _ _ hi]
  · rename_i h
    rw [inst_putInst_ne _ _ _ _ (Ne.symm h)]

theorem elem_putInst (s : State) (i : Nat) (v : Option Inst) (e : Nat) : (s.putInst i v).elem e = s.elem e := by
  simp [State.elem]

/-- A live instance rewritten so that it keeps, under the same live instances, every slot it holds. -/
theorem State.Owned.rewrite {s : State} {g : Nat → Prop} {i : Nat} {r r' : Inst} (hi : s.inst i = some r)
    (hr : r'.route = r.route)
    (hk : ∀ d k e, s.live i = some (r, d) → (s.elem e).slot k = .held i → r.keeps d (¬ g i) k e → r'.keeps d (¬ g i) k e)
    (h : s.Owned g s.live) : (s.putInst i (some r')).Owned g (s.putInst i (some r')).live := by
  have hl := lt_of_inst hi
  refine ⟨fun k e j hj => ?_, fun k e hu => ?_⟩
  · rw [elem_putInst] at hj
    obtain ⟨x, d, h1, h2⟩ := h.1 k e j hj
    rw [live_putInst s i _ hl]
    by_cases hij : j = i
    · subst hij
      have hx := inst_of_live h1
      rw [hi] at hx
      cases hx
      rw [if_pos rfl]
      refine ⟨r', d, ?_, hk d k e h1 hj h2⟩
      simp [hr, routeDef_of_live h1]
    · rw [if_neg hij]
      exact ⟨x, d, h1, h2⟩
  · rw [elem_putInst] at hu ⊢
    exact h.2 k e hu

/-- An instance that holds nothing freed. -/
theorem State.Owned.free {s : State} {g : Nat → Prop} {i : Nat} (hx : ∀ k e, (s.elem e).slot k ≠ .held i)
    (h : s.Owned g s.live) : (s.putInst i none).Owned g (s.putInst i none).live := by
  refine ⟨fun k e j hj => ?_, fun k e hu => ?_⟩
  · rw [elem_putInst] at hj
    have hij : j ≠ i := fun he => hx k e (he ▸ hj)
    obtain ⟨x, d, h1, h2⟩ := h.1 k e j hj
    refine ⟨x, d, ?_, h2⟩
    by_cases hi : i < 48
    · rw [live_putInst s i _ hi, if_neg hij, h1]
    · rw [← h1]
      have : (s.putInst i none).inst j = s.inst j := inst_putInst_ne _ _ _ _ (Ne.symm hij)
      simp only [State.live, this, routeDef_of_rcat (putInst_rcat s i none)]
  · rw [elem_putInst] at hu ⊢
    exact h.2 k e hu

/-! ### What a release empties (R12) -/

/-- An instance holds none of the slots named. -/
def State.Free (s : State) (i : Nat) (slots : SlotKind → Nat → Prop) : Prop :=
  ∀ k e, slots k e → (s.elem e).slot k ≠ .held i

theorem State.Free.sheds {s t : State} {i : Nat} {P : SlotKind → Nat → Prop} (h : s.Free i P)
    (k : ∀ e, (s.elem e).Sheds (t.elem e)) : t.Free i P := fun x e hp hi => h x e hp ((k e x).1 i hi)

theorem lt_of_elem {s : State} {e : Nat} (h : s.elem e ≠ .unconfigured) : e < 256 := by
  by_cases he : e < 256
  · exact he
  · exact absurd (by simp [State.elem, Vector.getD, he]) h

theorem unlockTrack_free (i e : Nat) (p : State × Bool) :
    (State.unlockTrack i p e).1.Free i fun k x => k = .track ∧ x = e := by
  rintro _ x ⟨rfl, rfl⟩ hi
  unfold State.unlockTrack at hi
  split at hi
  · rename_i t ht
    have he := elem_of_track ht
    split at hi
    · rename_i j q hq
      split at hi
      · rw [elem_putElem_same _ _ _ (lt_of_elem (by rw [he]; nofun))] at hi
        cases hi
      · rename_i hj
        rw [he] at hi
        simp only [Element.slot, hq, Slot.held.injEq] at hi
        exact hj (by simp [hi])
    · rename_i hq
      rw [he] at hi
      simp only [Element.slot] at hi
      split at hi
      · cases hi
      · rename_i j q hq'
        exact hq j q hq'
      · cases hi
  · rename_i ht
    unfold State.track? at ht
    cases he : p.1.elem x <;> rw [he] at ht hi <;> first | (cases hi; done) | (cases ht; done)

theorem unlockPoint_free (i e : Nat) (p : State × Bool) :
    (State.unlockPoint i p e).1.Free i fun k x => k = .point ∧ x = e := by
  rintro _ x ⟨rfl, rfl⟩ hi
  unfold State.unlockPoint at hi
  split at hi
  · rename_i t ht
    have he := elem_of_point ht
    split at hi
    · rename_i j q u hq
      split at hi
      · rw [elem_putElem_same _ _ _ (lt_of_elem (by rw [he]; nofun))] at hi
        cases hi
      · rename_i hj
        rw [he] at hi
        simp only [Element.slot, hq, Slot.held.injEq] at hi
        exact hj (by simp [hi])
    · rename_i hq
      rw [he] at hi
      simp only [Element.slot] at hi
      split at hi
      · cases hi
      · rename_i j q u hq'
        exact hq j q u hq'
      · cases hi
  · rename_i ht
    unfold State.point? at ht
    cases he : p.1.elem x <;> rw [he] at ht hi <;> first | (cases hi; done) | (cases ht; done)

theorem releaseBy_ne (i : Nat) (x : Slot) : x.releaseBy i ≠ .held i := by
  unfold Slot.releaseBy
  split
  · nofun
  · assumption

theorem unlockEntry_free (i e : Nat) (p : State × Bool) :
    (State.unlockEntry i p e).1.Free i fun k x => k = .entry ∧ x = e := by
  rintro _ x ⟨rfl, rfl⟩ hi
  unfold State.unlockEntry State.setEntry at hi
  dsimp only at hi
  split at hi
  · rename_i he
    rw [elem_putElem_same _ _ _ (lt_of_elem (by rw [he]; nofun))] at hi
    exact releaseBy_ne _ _ hi
  · rename_i he
    rw [elem_putElem_same _ _ _ (lt_of_elem (by rw [he]; nofun))] at hi
    exact releaseBy_ne _ _ hi
  · rename_i h1 h2
    cases he : p.1.elem x with
    | signal g => exact h1 g he
    | boundary b => exact h2 b he
    | _ => rw [he] at hi; cases hi

theorem unlockExit_free (i e : Nat) (p : State × Bool) :
    (State.unlockExit i p e).1.Free i fun k x => k = .exit ∧ x = e := by
  rintro _ x ⟨rfl, rfl⟩ hi
  unfold State.unlockExit State.setExit at hi
  dsimp only at hi
  split at hi
  · rename_i he
    rw [elem_putElem_same _ _ _ (lt_of_elem (by rw [he]; nofun))] at hi
    exact releaseBy_ne _ _ hi
  · rename_i he
    rw [elem_putElem_same _ _ _ (lt_of_elem (by rw [he]; nofun))] at hi
    exact releaseBy_ne _ _ hi
  · rename_i h1 h2
    cases he : p.1.elem x with
    | signal g => exact h1 g he
    | boundary b => exact h2 b he
    | _ => rw [he] at hi; cases hi

/-- The slots of a route: its entry, its exit, and those of its path items and its overlap. -/
def listed (d : RouteDef) : SlotKind → Nat → Prop
  | .entry, e => d.entry = e
  | .exit, e => d.exit = e
  | k, e => ∃ it ∈ d.path ++ d.overlap.toList, hasSlot it k e

theorem openItems_path {r : Inst} {d : RouteDef} {it : PathItem} (h : it ∈ r.openItems d) : it ∈ d.path := by
  obtain ⟨k, _, hp, _⟩ := mem_openItems.1 h
  exact List.mem_of_getElem? hp

theorem listed_of_keeps {r : Inst} {d : RouteDef} {p : Prop} {k : SlotKind} {e : Nat} (h : r.keeps d p k e) : listed d k e := by
  have hl : ∀ k, ((∃ it ∈ r.openItems d, hasSlot it k e) ∨ (p ∧ r.overlapHeld = true ∧ ∃ it ∈ d.overlap, hasSlot it k e)) →
      ∃ it ∈ d.path ++ d.overlap.toList, hasSlot it k e := by
    rintro k (⟨it, hm, hh⟩ | ⟨_, _, it, hm, hh⟩)
    · exact ⟨it, List.mem_append_left _ (openItems_path hm), hh⟩
    · exact ⟨it, List.mem_append_right _ (by simpa using hm), hh⟩
  cases k with
  | entry => exact h.1
  | exit => exact h.1
  | point => exact hl _ h
  | track => exact hl _ h

/-- An instance whose path and overlap are released keeps nothing. -/
theorem not_keeps_of_done {r : Inst} {d : RouteDef} {p : Prop} (h : r.done = true) (k : SlotKind) (e : Nat) :
    ¬ r.keeps d p k e := by
  simp only [Inst.done, Bool.and_eq_true, Bool.or_eq_true, beq_iff_eq] at h
  obtain ⟨⟨hp, ho⟩, _⟩ := h
  have hu : ∀ n, r.unreleased n = false := fun n => by simp [Inst.unreleased, hp]
  have hv : r.overlapHeld = false := by rcases ho with ho | ho <;> simp [Inst.overlapHeld, ho]
  have hl : ∀ k, ¬ ((∃ it ∈ r.openItems d, hasSlot it k e)
      ∨ (p ∧ r.overlapHeld = true ∧ ∃ it ∈ d.overlap, hasSlot it k e)) := by
    rintro k (⟨it, hm, _⟩ | ⟨_, hx, _⟩)
    · obtain ⟨n, _, _, hn⟩ := mem_openItems.1 hm
      rw [hu] at hn; cases hn
    · rw [hv] at hx; cases hx
  cases k with
  | entry => rintro ⟨_, h⟩; rw [hu] at h; cases h
  | exit => rintro ⟨_, h⟩; rw [hp] at h; cases h
  | point => exact hl _
  | track => exact hl _

end Sys2Proof.Machine
end

