-- ==== Sys2Proof/Laws/Walk.lean ====
section
/-! SUPPORT. What the shared operations of the LKC, the RIM and the BLCs can do, said once: each is a walk of small
writes, every one of which leaves the desk as it was. -/

set_option Elab.async false

namespace Sys2Proof.Machine

/-- Outgoing acceptances, those still asked for counted (R165). -/
def Blc.outCount (r : Blc) : Nat := r.outgoing.length + r.outAsks.length

/-- Incoming acceptances, those being set counted (R165). -/
def Blc.inCount (r : Blc) : Nat := r.incoming.length + r.inAsks.length

/-- A boundary record rewritten by a service to a route instance: the line is as it was, in DOWN an empty list of
matters open toward the neighbour stays empty, and the capacities of R165 are kept. -/
structure Blc.Serves (old new : Blc) : Prop where
  line : new.line = old.line
  outgoing : old.link = .down → old.outgoing = [] → new.outgoing = []
  outAsks : old.link = .down → old.outAsks = [] → new.outAsks = []
  assurances : old.link = .down → old.assurances = [] → new.assurances = []
  heldBack : old.link = .down → old.heldBack = [] → new.heldBack = []
  outSingle : old.outCount ≤ 1 → new.outCount ≤ 1
  inLess : new.inCount ≤ old.inCount

/-- One small write. -/
inductive Small : State → State → Prop
  | elem (s : State) (e : Nat) (r : Element) (h : r.seen = (s.elem e).seen) : Small s (s.putElem e r)
  | fct (s : State) (n : Nat) (v : Option FctEntry) : Small s (s.putFct n v)
  | drive (s : State) (e : Nat) (d : Option Drive) : Small s (s.putDrive e d)
  | cmd (s : State) (e : Nat) (c : SignalCmd) : Small s (s.putCmd e c)
  | enqueue (s : State) (a : Nat) (t : TrackTelegram) : Small s (s.enqueue a t)
  | dequeue (s : State) (a : Nat) : Small s (s.dequeue a)
  | inst (s : State) (i : Nat) (v : Option Inst) : Small s (s.putInst i v)
  | notifyAll (s : State) (l : List Notice) : Small s (s.notifyAll l)
  | taken (s : State) : Small s { s with notices := [] }
  | send (s : State) (x : Sent) : Small s (s.send x)
  | mark (s : State) (l : OpLink) (o : Obj) : Small s (s.markAt l o)
  | broken (s : State) (l : OpLink) (i : Nat) : Small s (s.modOlc l (breakAux i))
  | failure (s : State) (l : OpLink) (f : SettingFailure) : Small s (s.modOlc l fun c => { c with failure := some f })
  | overrun (s : State) (l : OpLink) (o : Overrun) : Small s (s.modOlc l fun c => { c with overrun := some o })
  | pass (s : State) (q : Rqs) (r : List RouteRequest) (hs : q.store.map StoreEntry.unmarked = s.rqs.store.map StoreEntry.unmarked)
      (hr : q.removal = s.rqs.removal) (hi : ∀ b, incomingOf b r = incomingOf b s.rim.requests) :
      Small s { s with rqs := q, rim := { s.rim with requests := r } }
  | blc (s : State) (b : BLink) (r : Blc) (h : Blc.Serves (s.blcAt b) r) : Small s (s.putBlc b r)

/-- Small writes in sequence. -/
inductive Smalls (a : State) : State → Prop
  | refl : Smalls a a
  | tail {s t : State} (h : Smalls a s) (k : Small s t) : Smalls a t

theorem Smalls.trans {a b c : State} (h : Smalls a b) (k : Smalls b c) : Smalls a c := by
  induction k with
  | refl => exact h
  | tail _ m ih => exact ih.tail m

/-- A predicate every small write keeps holds after small writes. -/
theorem Smalls.keeps {a s : State} {P : State → Prop} (hP : ∀ x y, Small x y → P x → P y) (h : Smalls a s) (ha : P a) :
    P s := by
  induction h with
  | refl => exact ha
  | tail _ k ih => exact hP _ _ k ih

/-- The catalogue stands. -/
theorem Smalls.rcat {a s : State} (h : Smalls a s) : s.rcat = a.rcat :=
  h.keeps (P := fun s => s.rcat = a.rcat) (fun x y k e => by
    rw [← e]
    cases k <;> simp [State.enqueue, State.dequeue, State.putFct]) rfl

/-- A walk: small writes in sequence that give no lock an owner, send no OVERLAP_TRANSFERRED notice, and leave every
lock with an owner that lists it; the overlaps of the instances in `gone` do not count. -/
structure Walk (gone : Nat → Prop) (a s : State) : Prop where
  smalls : Smalls a s
  sheds : ∀ e, (a.elem e).Sheds (s.elem e)
  quiet : ∀ i, s.Transferring i → a.Transferring i
  owned : a.Owned gone a.live → s.Owned gone s.live

namespace Walk

variable {gone : Nat → Prop} {a s : State}

theorem refl : Walk gone a a := ⟨.refl, fun _ => .refl _, fun _ h => h, id⟩

theorem trans {a b c : State} (h : Walk gone a b) (k : Walk gone b c) : Walk gone a c :=
  ⟨h.smalls.trans k.smalls, fun e => (h.sheds e).trans (k.sheds e), fun i x => h.quiet i (k.quiet i x), fun x => k.owned (h.owned x)⟩

/-- A predicate every small write keeps holds after a walk. -/
theorem keeps {P : State → Prop} (hP : ∀ x y, Small x y → P x → P y) (h : Walk gone a s) (ha : P a) : P s :=
  h.smalls.keeps hP ha

theorem foldl {α : Type} {f : State → α → State} (hf : ∀ {s : State} (x : α), Walk gone a s → Walk gone a (f s x)) (l : List α)
    (h : Walk gone a s) : Walk gone a (l.foldl f s) := by
  induction l generalizing s with
  | nil => exact h
  | cons x l ih => exact ih (hf x h)

theorem foldl1 {α β : Type} {f : State × β → α → State × β}
    (hf : ∀ {p : State × β} (x : α), Walk gone a p.1 → Walk gone a (f p x).1) (l : List α) {p : State × β}
    (h : Walk gone a p.1) : Walk gone a (l.foldl f p).1 := by
  induction l generalizing p with
  | nil => exact h
  | cons x l ih => exact ih (hf x h)

theorem rcat (h : Walk gone a s) : s.rcat = a.rcat := h.smalls.rcat

/-! ### Small writes -/

/-- A small write beside the records, the instances, the catalogue and the notices. -/
theorem beside {t : State} (h : Walk gone a s) (k : Small s t) (he : t.lkc.elements = s.lkc.elements)
    (hi : t.rim.insts = s.rim.insts) (hc : t.rcat = s.rcat) (hn : t.notices = s.notices) : Walk gone a t := by
  have hs : ∀ e, t.elem e = s.elem e := fun e => by simp only [State.elem, he]
  have hs' : ∀ e, (s.elem e).Sheds (t.elem e) := fun e => by rw [hs e]; exact .refl _
  exact ⟨h.smalls.tail k, fun e => (h.sheds e).trans (hs' e), fun i x => h.quiet i (by rwa [State.Transferring, hn] at x),
    fun x => live_congr hi hc ▸ (h.owned x).sheds hs'⟩

theorem putElem (e : Nat) (r : Element) (k : r.seen = (s.elem e).seen) (x : (s.elem e).Sheds r) (h : Walk gone a s) :
    Walk gone a (s.putElem e r) :=
  ⟨h.smalls.tail (.elem s e r k), fun y => (h.sheds y).trans (sheds_putElem e r x y),
    fun i y => h.quiet i (by simpa [State.Transferring] using y), fun y =>
    live_congr (s := s) (t := s.putElem e r) (by simp) (by simp) ▸ (h.owned y).sheds (sheds_putElem e r x)⟩

theorem putFct (n : Nat) (v : Option FctEntry) (h : Walk gone a s) : Walk gone a (s.putFct n v) :=
  h.beside (.fct s n v) rfl rfl rfl rfl
theorem putDrive (e : Nat) (d : Option Drive) (h : Walk gone a s) : Walk gone a (s.putDrive e d) :=
  h.beside (.drive s e d) (by unfold State.putDrive; split <;> rfl) (by simp) (by simp) (by simp)
theorem putCmd (e : Nat) (c : SignalCmd) (h : Walk gone a s) : Walk gone a (s.putCmd e c) :=
  h.beside (.cmd s e c) (by unfold State.putCmd; split <;> rfl) (by simp) (by simp) (by simp)
theorem enqueue (n : Nat) (t : TrackTelegram) (h : Walk gone a s) : Walk gone a (s.enqueue n t) :=
  h.beside (.enqueue s n t) rfl rfl rfl rfl
theorem dequeue (n : Nat) (h : Walk gone a s) : Walk gone a (s.dequeue n) := h.beside (.dequeue s n) rfl rfl rfl rfl

/-- A live instance rewritten so that it keeps the slots it holds. -/
theorem putInst {i : Nat} {r r' : Inst} (hi : s.inst i = some r) (hr : r'.route = r.route)
    (hk : ∀ d k e, s.live i = some (r, d) → (s.elem e).slot k = .held i → r.keeps d (¬ gone i) k e →
      r'.keeps d (¬ gone i) k e) (h : Walk gone a s) : Walk gone a (s.putInst i (some r')) :=
  ⟨h.smalls.tail (.inst s i _), fun e => by rw [elem_putInst]; exact h.sheds e,
    fun j y => h.quiet j (by simpa [State.Transferring] using y), fun y => (h.owned y).rewrite hi hr hk⟩

/-- A live instance rewritten without a release. -/
theorem widen {i : Nat} {r r' : Inst} (hi : s.inst i = some r) (w : r.Wider r') (h : Walk gone a s) :
    Walk gone a (s.putInst i (some r')) := h.putInst hi w.route fun _ _ _ _ _ => Inst.keeps_wider w

theorem notifyAll (l : List Notice) (h : Walk gone a s) (hl : ∀ i, .overlapTransferred i ∉ l) :
    Walk gone a (s.notifyAll l) :=
  ⟨h.smalls.tail (.notifyAll s l), h.sheds, fun i y => h.quiet i ((List.mem_append.1 y).resolve_right (hl i)), h.owned⟩
theorem notify (n : Notice) (h : Walk gone a s) (hn : ∀ i, n ≠ .overlapTransferred i := by intro _; nofun) :
    Walk gone a (s.notify n) := h.notifyAll [n] fun i y => hn i (List.mem_singleton.1 y).symm
theorem send (x : Sent) (h : Walk gone a s) : Walk gone a (s.send x) := h.beside (.send s x) rfl rfl rfl rfl
theorem markAt (l : OpLink) (o : Obj) (h : Walk gone a s) : Walk gone a (s.markAt l o) :=
  h.beside (.mark s l o) rfl rfl rfl rfl
theorem mark (o : Obj) (h : Walk gone a s) : Walk gone a (s.mark o) := (h.markAt .olC o).markAt .olL o
theorem putBlc (b : BLink) (r : Blc) (k : Blc.Serves (s.blcAt b) r) (h : Walk gone a s) : Walk gone a (s.putBlc b r) :=
  h.beside (.blc s b r k) (by simp) (by simp) (by simp) (by simp)

theorem modBlc (b : BLink) (f : Blc → Blc) (k : ∀ r, Blc.Serves r (f r)) (h : Walk gone a s) : Walk gone a (s.modBlc b f) :=
  h.putBlc b _ (k _)

theorem widenInst (i : Nat) (f : Inst → Inst) (h : Walk gone a s) (w : ∀ r : Inst, r.Wider (f r)) :
    Walk gone a (s.modInst i f) := by
  unfold State.modInst
  split
  · rename_i r hr
    exact h.widen hr (w r)
  · exact h

theorem modInst (i : Nat) (f : Inst → Inst) (w : ∀ r, (f r).kept = r.kept) (h : Walk gone a s) :
    Walk gone a (s.modInst i f) := h.widenInst i f fun r => .of_kept (w r)

/-- A live instance rewritten beside what it keeps. -/
theorem sameInst {i : Nat} {r : Inst} (hi : s.inst i = some r) (r' : Inst) (h : Walk gone a s)
    (w : r'.kept = r.kept := by rfl) : Walk gone a (s.putInst i (some r')) := h.widen hi (.of_kept w)

/-! ### The retest pass -/

theorem pass {t : State} (h : Walk gone a s)
    (ht : t = { s with rqs := t.rqs, rim := { s.rim with requests := t.rim.requests } })
    (hs : t.rqs.store.map StoreEntry.unmarked = s.rqs.store.map StoreEntry.unmarked)
    (hr : t.rqs.removal = s.rqs.removal) (hi : ∀ b, incomingOf b t.rim.requests = incomingOf b s.rim.requests) :
    Walk gone a t := by
  rw [ht]
  exact h.beside (.pass s _ _ hs hr hi) rfl rfl rfl rfl

theorem modEntry_unmarked (n : Nat) (f : StoreEntry → StoreEntry) (hf : ∀ e, (f e).unmarked = e.unmarked)
    (l : List StoreEntry) : (modEntry n f l).map StoreEntry.unmarked = l.map StoreEntry.unmarked := by
  simp only [modEntry, List.map_map]
  apply List.map_congr_left
  intro e _
  simp only [Function.comp]
  split
  · exact hf e
  · rfl

theorem map_unmarked (l : List StoreEntry) (v : Bool) :
    (l.map fun (e : StoreEntry) => { e with passMark := v }).map StoreEntry.unmarked = l.map StoreEntry.unmarked := by
  simp only [List.map_map]
  rfl

theorem presentMarked (h : Walk gone a s) : Walk gone a s.presentMarked := by
  unfold State.presentMarked
  split
  · refine h.pass rfl ?_ rfl fun b => by simp [incomingOf, RouteRequest.isIncoming]
    exact modEntry_unmarked _ (fun (x : StoreEntry) => { x with passMark := false, presented := true }) (fun _ => rfl) _
  · exact h

theorem startPass (h : Walk gone a s) : Walk gone a s.startPass := by
  unfold State.startPass
  refine presentMarked (h.pass rfl ?_ rfl fun _ => rfl)
  exact map_unmarked _ _

theorem endPass (h : Walk gone a s) : Walk gone a s.endPass := by
  unfold State.endPass
  dsimp only
  split
  · split
    · refine h.pass rfl ?_ rfl fun _ => rfl
      exact map_unmarked _ _
    · refine startPass (h.pass rfl ?_ rfl fun _ => rfl)
      exact map_unmarked _ _
  · refine h.pass rfl ?_ rfl fun _ => rfl
    exact map_unmarked _ _

theorem nextRetest (h : Walk gone a s) : Walk gone a s.nextRetest := by
  unfold State.nextRetest
  split
  · exact h.presentMarked
  · exact h.endPass

theorem retestTrigger (h : Walk gone a s) : Walk gone a s.retestTrigger := by
  unfold State.retestTrigger
  split
  · exact h.pass rfl rfl rfl fun _ => rfl
  · split
    · exact h
    · exact h.startPass

/-! ### Points -/

theorem seen_of_point {s : State} {e : Nat} {p q : PointRec} (h : s.point? e = some p)
    (k : (Element.point q).seen = (Element.point p).seen) : (Element.point q).seen = (s.elem e).seen := by
  unfold State.point? at h
  split at h
  · rename_i r hr
    rw [hr, k]
    cases h
    rfl
  · exact absurd h (by simp)

/-- A point rewritten with what is seen of it and its lock kept. -/
abbrev PointKept (p q : PointRec) : Prop := (Element.point q).seen = (Element.point p).seen ∧ q.lock = p.lock

theorem sheds_of_point {s : State} {e : Nat} {p q : PointRec} (h : s.point? e = some p) (k : PointKept p q) :
    (s.elem e).Sheds (.point q) := by
  rw [elem_of_point h]
  exact sheds_point k.2 (congrArg Element.isSuspect k.1)

theorem writePoint (e : Nat) (new : PointRec) (k : ∀ p, s.point? e = some p → PointKept p new)
    (h : Walk gone a s) : Walk gone a (s.writePoint e new) := by
  unfold State.writePoint
  split
  · rename_i old ho
    exact (h.putElem _ _ (seen_of_point ho (k _ ho).1) (sheds_of_point ho (k _ ho))).notifyAll _
      (pointNotices_quiet _ _ _ _)
  · exact h

/-- A rewriting of a point that keeps what is seen of it, and its lock. -/
def PointKeeps (f : PointRec → PointRec) : Prop := ∀ p, PointKept p (f p)

theorem modPoint (e : Nat) (f : PointRec → PointRec) (k : PointKeeps f)
    (h : Walk gone a s) : Walk gone a (s.modPoint e f) := by
  unfold State.modPoint
  split
  · rename_i p hp
    refine h.writePoint _ _ fun q hq => ?_
    rw [hp] at hq
    cases hq
    exact k p
  · exact h

theorem pointNext (e : Nat) (q : Option Pos) (h : Walk gone a s) : Walk gone a (s.modPoint e fun p => { p with next := q }) :=
  h.modPoint e _ fun _ => ⟨rfl, rfl⟩

theorem withdrawThrow (e : Nat) (h : Walk gone a s) : Walk gone a (s.withdrawThrow e) := by
  unfold State.withdrawThrow
  (repeat' split) <;> simp (maxDischargeDepth := 12) only [dequeue, h]

theorem endDrive (e : Nat) (h : Walk gone a s) : Walk gone a (s.endDrive e) := (h.putDrive e none).withdrawThrow e

theorem failPoint (e : Nat) (h : Walk gone a s) : Walk gone a (s.failPoint e) := (h.endDrive e).modPoint e _ fun _ => ⟨rfl, rfl⟩

theorem withdrawDrive (e : Nat) (h : Walk gone a s) : Walk gone a (s.withdrawDrive e) := by
  unfold State.withdrawDrive
  split
  · exact (h.endDrive e).modPoint e _ fun _ => ⟨rfl, rfl⟩
  · exact h

theorem enqueueThrow (e : Nat) (q : Pos) (h : Walk gone a s) : Walk gone a (s.enqueueThrow e q) := by
  unfold State.enqueueThrow
  (repeat' split) <;> simp (maxDischargeDepth := 12) only [enqueue, failPoint, h]

theorem throwRequest (e : Nat) (q : Pos) (o : Bool) (h : Walk gone a s) : Walk gone a (s.throwRequest e q o).1 := by
  unfold State.throwRequest
  (repeat' split) <;> simp (maxDischargeDepth := 12) only [putDrive, enqueueThrow, pointNext, h]

theorem dropNext (e : Nat) (h : Walk gone a s) : Walk gone a (s.dropNext e) := h.modPoint e _ fun _ => ⟨rfl, rfl⟩

theorem startNext (e : Nat) (o : Bool) (h : Walk gone a s) : Walk gone a (s.startNext e o) := by
  unfold State.startNext
  dsimp only
  (repeat' split) <;> simp (maxDischargeDepth := 12) only [throwRequest, dropNext, h]

theorem completeDrive (e : Nat) (d : Drive) (h : Walk gone a s) : Walk gone a (s.completeDrive e d) :=
  (h.endDrive e).startNext e _

theorem attemptEnds (e : Nat) (d : Drive) (h : Walk gone a s) : Walk gone a (s.attemptEnds e d) := by
  unfold State.attemptEnds
  dsimp only
  (repeat' split) <;> simp (maxDischargeDepth := 12) only [completeDrive, dropNext, failPoint, enqueueThrow, putDrive, h]

/-! ### Signals -/

theorem seen_of_signal {s : State} {e : Nat} {p q : SignalRec} (h : s.signal? e = some p)
    (k : (Element.signal q).seen = (Element.signal p).seen) : (Element.signal q).seen = (s.elem e).seen := by
  unfold State.signal? at h
  split at h
  · rename_i r hr
    rw [hr, k]
    cases h
    rfl
  · exact absurd h (by simp)

/-- A signal rewritten with what is seen of it and its slots kept. -/
abbrev SignalKept (p q : SignalRec) : Prop :=
  (Element.signal q).seen = (Element.signal p).seen ∧ q.entrySlot = p.entrySlot ∧ q.exitSlot = p.exitSlot

theorem sheds_of_signal {s : State} {e : Nat} {p q : SignalRec} (h : s.signal? e = some p) (k : SignalKept p q) :
    (s.elem e).Sheds (.signal q) := by
  rw [elem_of_signal h]
  exact sheds_signal k.2.1 k.2.2 (congrArg Element.isSuspect k.1)

theorem writeSignal (e : Nat) (new : SignalRec) (k : ∀ p, s.signal? e = some p → SignalKept p new)
    (h : Walk gone a s) : Walk gone a (s.writeSignal e new) := by
  unfold State.writeSignal
  split
  · rename_i old ho
    exact (h.putElem _ _ (seen_of_signal ho (k _ ho).1) (sheds_of_signal ho (k _ ho))).notifyAll _
      (signalNotices_quiet _ _ _ _)
  · exact h

/-- A rewriting of a signal that keeps what is seen of it, and its slots. -/
def SignalKeeps (f : SignalRec → SignalRec) : Prop := ∀ p, SignalKept p (f p)

theorem modSignal (e : Nat) (f : SignalRec → SignalRec) (k : SignalKeeps f)
    (h : Walk gone a s) : Walk gone a (s.modSignal e f) := by
  unfold State.modSignal
  split
  · rename_i p hp
    refine h.writeSignal _ _ fun q hq => ?_
    rw [hp] at hq
    cases hq
    exact k p
  · exact h

theorem signalFailed (e : Nat) (h : Walk gone a s) : Walk gone a (s.modSignal e fun g => { g with failed := true }) :=
  h.modSignal e _ fun _ => ⟨rfl, rfl, rfl⟩

theorem signalCommanded (e : Nat) (c : Aspect) (h : Walk gone a s) :
    Walk gone a (s.modSignal e fun g => { g with commanded := c }) := h.modSignal e _ fun _ => ⟨rfl, rfl, rfl⟩

theorem enqueueStop (e : Nat) (h : Walk gone a s) : Walk gone a (s.enqueueStop e) := by
  unfold State.enqueueStop
  (repeat' split) <;> simp (maxDischargeDepth := 12) only [signalFailed, putCmd, enqueue, h]

theorem enqueueProceed (e : Nat) (h : Walk gone a s) : Walk gone a (s.enqueueProceed e) := by
  unfold State.enqueueProceed
  dsimp only
  (repeat' split) <;> simp (maxDischargeDepth := 12) only [putCmd, enqueue, h]

theorem dropCmd (e : Nat) (h : Walk gone a s) : Walk gone a (s.dropCmd e) := h.putCmd _ _

theorem commandStop (e : Nat) (h : Walk gone a s) : Walk gone a (s.commandStop e) := by
  unfold State.commandStop
  dsimp only
  (repeat' split) <;> simp (maxDischargeDepth := 12) only [signalCommanded, dropCmd, enqueueStop, h]

theorem notCleared (e : Nat) (l : List Nat) (h : Walk gone a s) :
    Walk gone a (s.notifyAll (l.map (.signalNotCleared · e))) := h.notifyAll _ (quiet_map _ _ fun _ _ => nofun)

theorem proceedFails (e : Nat) (h : Walk gone a s) : Walk gone a (s.proceedFails e) := by
  unfold State.proceedFails
  dsimp only
  (repeat' split) <;> simp (maxDischargeDepth := 12) only [signalCommanded, dropCmd, enqueueStop, notCleared, h]

theorem commandProceed (i e : Nat) (h : Walk gone a s) : Walk gone a (s.commandProceed i e) := by
  unfold State.commandProceed
  dsimp only
  (repeat' split) <;> simp (maxDischargeDepth := 12) only [signalCommanded, putCmd, enqueueProceed, notify, h,
    ne_eq, reduceCtorEq, not_false_eq_true, implies_true]

/-! ### Flank claims -/

theorem setFlankRef (e : Nat) (r : Option Nat) (h : Walk gone a s) : Walk gone a (s.setFlankRef e r) := by
  unfold State.setFlankRef
  split
  · rename_i p hp
    exact h.putElem _ _ (by rw [hp]; rfl) (by rw [hp]; exact sheds_point rfl rfl)
  · rename_i g hg
    exact h.putElem _ _ (by rw [hg]; rfl) (by rw [hg]; exact sheds_signal rfl rfl rfl)
  · exact h

theorem takeClaim (c : Claimant) (t : FlankTarget) (h : Walk gone a s) : Walk gone a (s.takeClaim c t) := by
  unfold State.takeClaim
  dsimp only
  (repeat' split) <;> simp (maxDischargeDepth := 12) only [mark, putFct, setFlankRef, h]

theorem dropFrom (n : Nat) (p : Claimant → Bool) (h : Walk gone a s) : Walk gone a (s.dropFrom n p).1 := by
  unfold State.dropFrom
  dsimp only
  (repeat' split) <;> simp (maxDischargeDepth := 12) only [mark, putFct, setFlankRef, h]

theorem dropClaims (p : Claimant → Bool) (h : Walk gone a s) : Walk gone a (s.dropClaims p).1 := by
  unfold State.dropClaims
  generalize List.range Config.fctCount = l
  exact foldl1 (f := fun (acc : State × Bool) n => ((acc.1.dropFrom n p).1, acc.2 || (acc.1.dropFrom n p).2))
    (fun n h => dropFrom n p h) l h

theorem boundaryDrop (b : BLink) (ref : Nat) (h : Walk gone a s) : Walk gone a (s.boundaryDrop b ref) := by
  unfold State.boundaryDrop
  dsimp only
  (repeat' split) <;> simp (maxDischargeDepth := 12) only [retestTrigger, dropClaims, h]

theorem flankAsk (b : BLink) (ref : Nat) (h : Walk gone a s) : Walk gone a (s.flankAsk b ref).1 := by
  unfold State.flankAsk
  (repeat' split) <;> simp (maxDischargeDepth := 12) only [takeClaim, h]

theorem throwClaimed (t : FlankTarget) (h : Walk gone a s) : Walk gone a (s.throwClaimed t) := by
  unfold State.throwClaimed
  (repeat' split) <;> simp (maxDischargeDepth := 12) only [throwRequest, h]

/-! ### Boundary links -/

theorem sendNow (b : BLink) (t : BoundaryTelegram) (h : Walk gone a s) : Walk gone a (s.sendNow b t) := by
  unfold State.sendNow
  split <;> simp (maxDischargeDepth := 12) only [send, h]

theorem sendHeld (b : BLink) (t : BoundaryTelegram) (h : Walk gone a s) : Walk gone a (s.sendHeld b t) := by
  unfold State.sendHeld
  split
  · exact h.send _
  · rename_i hl
    refine h.putBlc _ _ ?_
    constructor <;> simp_all [Blc.line, Blc.outCount, Blc.inCount]
  · exact h

theorem length_startAsk (ref : Nat) (l : List OutAsk) : (startAsk ref l).length = l.length := by
  induction l with
  | nil => rfl
  | cons a l ih => unfold startAsk; split <;> simp [ih]

theorem startTimerOf_serves (t : BoundaryTelegram) (r : Blc) : Blc.Serves r (startTimerOf t r) := by
  unfold startTimerOf
  split <;> constructor <;> simp_all [Blc.line, Blc.outCount, Blc.inCount, startAsk, startAssurance, length_startAsk]

theorem flushOne (b : BLink) (t : BoundaryTelegram) (h : Walk gone a s) : Walk gone a (State.flushOne b s t) :=
  (h.send _).modBlc b _ (startTimerOf_serves t)

theorem sendAsk (b : BLink) (t : BoundaryTelegram) (h : Walk gone a s) : Walk gone a (s.sendAsk b t) := by
  unfold State.sendAsk
  split <;> simp (maxDischargeDepth := 12) only [flushOne, sendHeld, h]

theorem checkLost (b : BLink) (h : Walk gone a s) : Walk gone a (s.checkLost b) := by
  unfold State.checkLost
  split
  · exact h.modBlc b _ fun r => by constructor <;> simp_all [Blc.line, Blc.outCount, Blc.inCount]
  · exact h

theorem askAcceptance (b : BLink) (i route : Nat) (h : Walk gone a s) : Walk gone a (s.askAcceptance b i route) := by
  unfold State.askAcceptance
  dsimp only
  split
  · split
    · rename_i hl
      refine sendAsk _ _ (h.putBlc _ _ ?_)
      constructor <;> simp_all [Blc.line, Blc.outCount, Blc.inCount]
    · exact h.notify _
  · exact h.notify _

theorem giveUpAcceptance (b : BLink) (i : Nat) (h : Walk gone a s) : Walk gone a (s.giveUpAcceptance b i) := by
  unfold State.giveUpAcceptance
  dsimp only
  split
  · refine sendHeld _ _ (h.modBlc b _ fun r => ?_)
    have := r.outAsks.length_filter_le fun a => a.inst != i
    constructor <;> simp_all [Blc.line, Blc.outCount, Blc.inCount]
    omega
  · refine sendHeld _ _ (h.modBlc b _ fun r => ?_)
    have := r.outgoing.length_filter_le fun a => a.inst != i
    constructor <;> simp_all [Blc.line, Blc.outCount, Blc.inCount]
    omega
  · exact h

theorem handOver (b : BLink) (route : Nat) (h : Walk gone a s) : Walk gone a (s.handOver b route) := by
  have h1 : Walk gone a ((s.modBlc b fun r => { r with outgoing := r.outgoing.tail }).mark (.boundary b)) :=
    (h.modBlc b _ fun r => by
      constructor <;> simp_all [Blc.line, Blc.outCount, Blc.inCount]
      omega).mark _
  unfold State.handOver
  dsimp only
  split
  · exact (h1.sendHeld _ _).sendHeld _ _
  · exact h1

theorem acceptanceCleared (b : BLink) (i : Nat) (h : Walk gone a s) : Walk gone a (s.acceptanceCleared b i) := by
  unfold State.acceptanceCleared
  split
  · rename_i x hx
    have hm := List.mem_of_find?_eq_some hx
    have hi := List.find?_some hx
    have hl : ((s.blcAt b).inAsks.filter fun a => a.inst != i).length < (s.blcAt b).inAsks.length :=
      List.length_filter_lt_length_iff_exists.2 ⟨x, hm, by simpa using hi⟩
    split
    · refine sendHeld _ _ (h.putBlc _ _ ⟨rfl, fun _ k => k, fun _ k => k, fun _ k => k, fun _ k => k, id, ?_⟩)
      simp only [Blc.inCount, List.length_append, List.length_singleton]
      omega
    · refine notify _ (sendHeld _ _ (h.putBlc _ _ ⟨rfl, fun _ k => k, fun _ k => k, fun _ k => k, fun _ k => k, id, ?_⟩))
      simp only [Blc.inCount]
      omega
  · exact h

theorem refusePending (b : BLink) (i : Nat) (h : Walk gone a s) : Walk gone a (s.refusePending b i) := by
  unfold State.refusePending
  split
  · refine checkLost _ (sendHeld _ _ (h.modBlc _ _ fun r => ?_))
    constructor <;> simp_all [Blc.line, Blc.outCount, Blc.inCount, List.length_filter_le]
  · exact h

theorem consumeIncoming (b : BLink) (h : Walk gone a s) : Walk gone a (s.consumeIncoming b) := by
  refine checkLost _ (h.modBlc _ _ fun r => ?_)
  constructor <;> simp_all [Blc.line, Blc.outCount, Blc.inCount]

theorem dropIncoming (b : BLink) (i : Nat) (h : Walk gone a s) : Walk gone a (s.dropIncoming b i) := by
  refine checkLost _ (h.modBlc _ _ fun r => ?_)
  constructor <;> simp_all [Blc.line, Blc.outCount, Blc.inCount, List.length_filter_le]

theorem askAssurance (b : BLink) (ref i m : Nat) (h : Walk gone a s) : Walk gone a (s.askAssurance b ref i m) := by
  unfold State.askAssurance
  split
  · exact h.notify _
  · refine sendAsk _ _ (h.putBlc _ _ ?_)
    constructor <;> simp_all [Blc.line, Blc.outCount, Blc.inCount]

theorem giveUpAssurance (b : BLink) (i m : Nat) (h : Walk gone a s) : Walk gone a (s.giveUpAssurance b i m) := by
  unfold State.giveUpAssurance
  dsimp only
  split
  · have h1 : Walk gone a (s.modBlc b fun r => { r with assurances := r.assurances.filter fun a => !a.isOf i m }) :=
      h.modBlc _ _ fun r => by constructor <;> simp_all [Blc.line, Blc.outCount, Blc.inCount]
    split
    · exact h1.sendHeld _ _
    · exact h1
  · exact h

/-! ### Locks and slots -/

theorem setEntry (e : Nat) (f : Slot → Slot) (k : SlotSheds f) (h : Walk gone a s) : Walk gone a (s.setEntry e f) := by
  unfold State.setEntry
  split
  · rename_i g hg
    exact h.putElem _ _ (by rw [hg]; rfl) (by rw [hg]; exact sheds_entry_signal k)
  · rename_i g hg
    exact h.putElem _ _ (by rw [hg]; rfl) (by rw [hg]; exact sheds_entry_boundary k)
  · exact h

theorem setExit (e : Nat) (f : Slot → Slot) (k : SlotSheds f) (h : Walk gone a s) : Walk gone a (s.setExit e f) := by
  unfold State.setExit
  split
  · rename_i g hg
    exact h.putElem _ _ (by rw [hg]; rfl) (by rw [hg]; exact sheds_exit_signal k)
  · rename_i g hg
    exact h.putElem _ _ (by rw [hg]; rfl) (by rw [hg]; exact sheds_exit_boundary k)
  · exact h

theorem seen_of_track {s : State} {e : Nat} {p q : TrackRec} (h : s.track? e = some p)
    (k : (Element.track q).seen = (Element.track p).seen) : (Element.track q).seen = (s.elem e).seen := by
  rw [elem_of_track h]
  exact k

theorem unlockTrack (i e : Nat) {p : State × Bool} (h : Walk gone a p.1) : Walk gone a (State.unlockTrack i p e).1 := by
  unfold State.unlockTrack
  split
  · rename_i t ht
    split
    · split
      · exact h.putElem _ _ (seen_of_track ht rfl) (.of_empty _ fun k => by cases k <;> rfl)
      · exact h
    · exact h
  · exact h

theorem unlockPoint (i e : Nat) {p : State × Bool} (h : Walk gone a p.1) : Walk gone a (State.unlockPoint i p e).1 := by
  unfold State.unlockPoint
  split
  · rename_i t ht
    split
    · split
      · exact h.putElem _ _ (seen_of_point ht rfl) (.of_empty _ fun k => by cases k <;> rfl)
      · exact h
    · exact h
  · exact h

theorem unlockItem (i : Nat) (it : PathItem) {p : State × Bool} (h : Walk gone a p.1) :
    Walk gone a (State.unlockItem i p it).1 :=
  foldl1 (fun e h => unlockPoint i e h) _ (unlockTrack i it.sect h)

theorem unlockItems (i : Nat) (l : List PathItem) {p : State × Bool} (h : Walk gone a p.1) :
    Walk gone a (l.foldl (State.unlockItem i) p).1 := foldl1 (fun e h => unlockItem i e h) l h

theorem unlockEntry (i e : Nat) {p : State × Bool} (h : Walk gone a p.1) : Walk gone a (State.unlockEntry i p e).1 :=
  h.setEntry _ _ (releaseBy_sheds i)

theorem unlockExit (i e : Nat) {p : State × Bool} (h : Walk gone a p.1) : Walk gone a (State.unlockExit i p e).1 :=
  h.setExit _ _ (releaseBy_sheds i)

theorem releaseNotice {p : State × Bool} (h : Walk gone a p.1) : Walk gone a (Machine.releaseNotice p) := by
  unfold Machine.releaseNotice
  split <;> simp (maxDischargeDepth := 12) only [retestTrigger, h]

theorem claimItem (i : Nat) (p : Nat × (Nat × Option FlankTarget)) (h : Walk gone a s) : Walk gone a (State.claimItem i s p) := by
  unfold State.claimItem
  split <;> simp (maxDischargeDepth := 12) only [takeClaim, h]

theorem releasePathItem (i : Nat) (d : RouteDef) (k : Nat) (h : Walk gone a s) : Walk gone a (s.releasePathItem i d k) := by
  unfold State.releasePathItem
  dsimp only
  refine releaseNotice ?_
  dsimp only
  refine dropClaims _ (foldl1 (f := State.unlockItem i) (fun e h => unlockItem i e h) _ ?_)
  split
  · split <;> simp (maxDischargeDepth := 12) only [unlockEntry, unlockExit, h]
  · split <;> simp (maxDischargeDepth := 12) only [unlockEntry, h]

theorem unlockItem_free (i : Nat) (it : PathItem) (p : State × Bool) :
    (State.unlockItem i p it).1.Free i (hasSlot it) := by
  have h0 : ∀ (l : List Nat) (p : State × Bool),
      (l.foldl (State.unlockPoint i) p).1.Free i fun k x => k = .point ∧ x ∈ l := by
    intro l
    induction l with
    | nil => rintro p k x ⟨_, hx⟩; cases hx
    | cons y l ih =>
      rintro p k x ⟨hk, hx⟩
      rcases List.mem_cons.1 hx with rfl | hx
      · refine ((unlockPoint_free i x p).sheds ?_) k x ⟨hk, rfl⟩
        exact (foldl1 (gone := fun _ => False) (fun e h => unlockPoint i e h) l refl).sheds
      · exact ih _ k x ⟨hk, hx⟩
  intro k x hx
  cases k with
  | point => exact h0 _ _ _ x ⟨rfl, hx⟩
  | track =>
    refine ((unlockTrack_free i it.sect p).sheds ?_) _ x ⟨rfl, hx.symm⟩
    exact (foldl1 (gone := fun _ => False) (fun e h => unlockPoint i e h) _ refl).sheds
  | entry => cases hx
  | exit => cases hx

theorem unlockItems_free (i : Nat) (l : List PathItem) (p : State × Bool) :
    (l.foldl (State.unlockItem i) p).1.Free i fun k e => ∃ it ∈ l, hasSlot it k e := by
  induction l generalizing p with
  | nil => rintro k e ⟨_, hx, _⟩; cases hx
  | cons y l ih =>
    rintro k e ⟨it, hm, hh⟩
    rcases List.mem_cons.1 hm with rfl | hm
    · refine ((unlockItem_free i it p).sheds ?_) k e hh
      exact (unlockItems (gone := fun _ => False) i l refl).sheds
    · exact ih _ k e ⟨it, hm, hh⟩

theorem releaseOverlap (i : Nat) (d : RouteDef) (h : Walk gone a s) : Walk gone a (s.releaseOverlap i d) :=
  releaseNotice (foldl1 (f := State.unlockItem i) (fun e h => unlockItem i e h) _ h)

theorem releaseItems (i : Nat) (d : RouteDef) (h : Walk gone a s) : Walk gone a (s.releaseItems i d) := by
  unfold State.releaseItems
  dsimp only
  refine releaseNotice ?_
  dsimp only
  refine dropClaims _ (foldl1 (f := State.unlockItem i) (fun e h => unlockItem i e h) _ ?_)
  exact unlockExit i _ (unlockEntry (p := (s, false)) i _ h)

theorem droppedClaims_sheds (p : State × Bool) (f : Claimant → Bool) (e : Nat) :
    (p.1.elem e).Sheds ((Machine.releaseNotice ((p.1.dropClaims f).1, p.2 || (p.1.dropClaims f).2)).elem e) := by
  have h := (refl (gone := fun _ => False) (a := p.1)).dropClaims f
  generalize p.1.dropClaims f = q at h ⊢
  exact (releaseNotice (p := (q.1, p.2 || q.2)) h).sheds e

/-- After the release of path item k the instance holds none of its slots, nor the entry with the first and the exit
with the last. -/
theorem releasePathItem_free (s : State) (i : Nat) (d : RouteDef) (k : Nat) :
    (s.releasePathItem i d k).Free i fun x e => (∃ it, d.path[k - 1]? = some it ∧ hasSlot it x e)
      ∨ (x = .entry ∧ e = d.entry ∧ k = 1) ∨ (x = .exit ∧ e = d.exit ∧ k = d.path.length) := by
  unfold State.releasePathItem
  dsimp only
  generalize hp : (if k = 1 then State.unlockEntry i (s, false) d.entry else (s, false)) = p
  generalize hq : (if k = d.path.length then State.unlockExit i p d.exit else p) = q
  have hpq : ∀ e, (p.1.elem e).Sheds (q.1.elem e) := by
    rw [← hq]
    split
    · exact (unlockExit (gone := fun _ => False) i d.exit refl).sheds
    · exact fun _ => .refl _
  have hql := (unlockItems (gone := fun _ => False) (a := q.1) i (d.path[k - 1]?).toList refl).sheds
  have tail := fun p => droppedClaims_sheds p (protectsItem d i k)
  rintro x e (⟨it, hit, hh⟩ | ⟨rfl, rfl, hk⟩ | ⟨rfl, rfl, hk⟩)
  · exact ((unlockItems_free i (d.path[k - 1]?).toList q).sheds (tail _)) x e ⟨it, by simp [hit], hh⟩
  · rw [if_pos hk] at hp
    exact ((((hp ▸ unlockEntry_free i d.entry (s, false)).sheds hpq).sheds hql).sheds (tail _)) _ _ ⟨rfl, rfl⟩
  · rw [if_pos hk] at hq
    exact (((hq ▸ unlockExit_free i d.exit p).sheds hql).sheds (tail _)) _ _ ⟨rfl, rfl⟩

/-- After a release of all items the instance holds none of its slots. -/
theorem releaseItems_free (s : State) (i : Nat) (d : RouteDef) : (s.releaseItems i d).Free i (listed d) := by
  unfold State.releaseItems
  dsimp only
  have tail := fun p => droppedClaims_sheds p (Claimant.isInst i)
  intro k e hk
  refine State.Free.sheds (P := listed d) ?_ (tail _) k e hk
  clear hk k e
  intro k e hk
  have items := unlockItems_free i (d.path ++ d.overlap.toList) (State.unlockExit i (State.unlockEntry i (s, false) d.entry) d.exit)
  have shed := (unlockItems (gone := fun _ => False) (a := (State.unlockExit i (State.unlockEntry i (s, false) d.entry) d.exit).1)
    i (d.path ++ d.overlap.toList) (p := State.unlockExit i (State.unlockEntry i (s, false) d.entry) d.exit) refl).sheds
  cases k with
  | point => exact items _ e hk
  | track => exact items _ e hk
  | exit => exact ((unlockExit_free i d.exit _).sheds shed) _ e ⟨rfl, hk.symm⟩
  | entry =>
    refine (((unlockEntry_free i d.entry (s, false)).sheds ?_).sheds shed) _ e ⟨rfl, hk.symm⟩
    exact (unlockExit (gone := fun _ => False) i d.exit refl).sheds

/-- The overlap released, and in the record (R127). -/
theorem overlapReleased {i : Nat} {r : Inst} {d : RouteDef} (hl : s.live i = some (r, d)) (f : Inst → Inst)
    (hr : (f r).route = r.route) (hp : (f r).releasePtr = r.releasePtr) (hx : (f r).pathReleased = r.pathReleased)
    (h : Walk gone a s) : Walk gone a ((s.releaseOverlap i d).modInst i f) := by
  have hi : (s.releaseOverlap i d).inst i = some r := (inst_of_insts (releaseOverlap_insts _ _ _) i).trans (inst_of_live hl)
  rw [modInst_of _ hi]
  have hw := h.releaseOverlap i d
  refine hw.putInst hi hr fun d' k e hl' hh hk => ?_
  have hd : d' = d := by
    have h1 := routeDef_of_live hl'
    rw [routeDef_of_rcat ((refl (gone := gone)).releaseOverlap i d).rcat, routeDef_of_live hl] at h1
    exact (Option.some.inj h1).symm
  subst hd
  have hf : (s.releaseOverlap i d').Free i fun k e => ∃ it ∈ d'.overlap.toList, hasSlot it k e :=
    (unlockItems_free i d'.overlap.toList (s, false)).sheds (releaseNotice (gone := fun _ => False) refl).sheds
  have hu : ∀ n, (f r).unreleased n = r.unreleased n := fun n => by simp [Inst.unreleased, hp, hx]
  have path : ∀ k, ((s.releaseOverlap i d').elem e).slot k = .held i →
      ((∃ it ∈ r.openItems d', hasSlot it k e) ∨ (¬ gone i ∧ r.overlapHeld = true ∧ ∃ it ∈ d'.overlap, hasSlot it k e)) →
      (∃ it ∈ (f r).openItems d', hasSlot it k e)
        ∨ (¬ gone i ∧ (f r).overlapHeld = true ∧ ∃ it ∈ d'.overlap, hasSlot it k e) := by
    rintro k hh (⟨it, hm, hs⟩ | ⟨_, _, it, hm, hs⟩)
    · obtain ⟨n, h1, h2, h3⟩ := mem_openItems.1 hm
      exact .inl ⟨it, mem_openItems.2 ⟨n, h1, h2, (hu n).trans h3⟩, hs⟩
    · exact absurd hh (hf k e ⟨it, by simpa using hm, hs⟩)
  cases k with
  | entry => exact ⟨hk.1, (hu 1).trans hk.2⟩
  | exit => exact ⟨hk.1, hx.trans hk.2⟩
  | point => exact path _ hh hk
  | track => exact path _ hh hk

/-! ### The Route Instance Manager -/

/-- An instance that holds nothing freed. -/
theorem freeRecord (i : Nat) (hx : a.Owned gone a.live → s.Free i fun _ _ => True) (h : Walk gone a s) :
    Walk gone a (s.freeRecord i) := by
  have h1 : Walk gone a (s.putInst i none) := ⟨h.smalls.tail (.inst s i none),
    fun e => by rw [elem_putInst]; exact h.sheds e,
    fun j y => h.quiet j (by simpa [State.Transferring] using y),
    fun y => (h.owned y).free fun k e => hx y k e trivial⟩
  exact retestTrigger ((h1.beside (.broken _ .olC i) rfl rfl rfl rfl).beside (.broken _ .olL i) rfl rfl rfl rfl)

theorem tryFree (i : Nat) (h : Walk gone a s) : Walk gone a (s.tryFree i) := by
  unfold State.tryFree
  split
  · rename_i r hr
    split
    · rename_i hd
      refine h.freeRecord i fun ho k e _ hi => ?_
      obtain ⟨x, d, h1, h2⟩ := (h.owned ho).1 k e i hi
      have := inst_of_live h1
      rw [hr] at this
      cases this
      exact not_keeps_of_done hd k e h2
    · exact h
  · exact h

/-- After a release of all items, and what closes its matters before it, a live instance holds nothing. -/
theorem released_free {u : State} {i : Nat} {r : Inst} {d : RouteDef} (hl : s.live i = some (r, d))
    (w : ∀ e, (s.elem e).Sheds (u.elem e)) (ho : s.Owned gone s.live) : (u.releaseItems i d).Free i fun _ _ => True := by
  intro k e _ hi
  have h1 := ((releaseItems (gone := fun _ => False) i d (refl (a := u))).sheds e k).1 i hi
  obtain ⟨x, y, h2, h3⟩ := ho.1 k e i ((w e k).1 i h1)
  cases hl.symm.trans h2
  exact releaseItems_free u i d k e (listed_of_keeps h3) hi

theorem gaveUp (i : Nat) (r : Inst) (d : RouteDef) (h : Walk gone a s) :
    Walk gone a (match s.exitLink d with
      | some b => if (d.cls == .boundaryOut && (r.acceptance == .asked || r.acceptance == .held)) = true then
          s.giveUpAcceptance b i else s
      | none => s) := by
  (repeat' split) <;> simp only [giveUpAcceptance, h]

theorem gaveUpAll (i : Nat) (l : List (Nat × BLink)) (h : Walk gone a s) :
    Walk gone a (l.foldl (fun s p => s.giveUpAssurance p.2 i p.1) s) :=
  foldl (f := fun (s : State) (p : Nat × BLink) => s.giveUpAssurance p.2 i p.1)
    (fun p h => giveUpAssurance p.2 i p.1 h) l h

theorem closeMatters (i : Nat) (r : Inst) (d : RouteDef) (h : Walk gone a s) : Walk gone a (s.closeMatters i r d) := by
  unfold State.closeMatters
  dsimp only
  have h1 := (gaveUp i r d h).gaveUpAll i (r.boundaryItems d)
  revert h1
  generalize List.foldl _ _ (r.boundaryItems d) = x
  intro h1
  (repeat' split) <;> simp only [dropIncoming, h1]

theorem tellRefused (i : Nat) (r : Inst) (d : RouteDef) (h : Walk gone a s) : Walk gone a (s.tellRefused i r d) := by
  unfold State.tellRefused
  (repeat' split) <;> simp (maxDischargeDepth := 12) only [refusePending, h]

theorem releaseAll (i : Nat) (h : Walk gone a s) : Walk gone a (s.releaseAll i) := by
  unfold State.releaseAll
  split
  · rename_i r d hl
    refine (((h.closeMatters i r d).tellRefused i r d).releaseItems i d).freeRecord i fun ho => ?_
    exact released_free hl (((refl (gone := gone)).closeMatters i r d).tellRefused i r d).sheds (h.owned ho)
  · exact h

theorem recordFailure (o : Origin) (f : SettingFailure) (h : Walk gone a s) : Walk gone a (s.recordFailure o f) :=
  foldl (fun l h => (h.beside (.failure _ l f) rfl rfl rfl rfl).markAt l _) _ h

theorem settingFails (i : Nat) (c : FailCause) (e : Nat) (h : Walk gone a s) : Walk gone a (s.settingFails i c e) := by
  unfold State.settingFails
  split
  · rename_i r d hl
    refine ((((h.closeMatters i r d).releaseItems i d).freeRecord i fun ho => ?_).recordFailure _ _).tellRefused i r d
    exact released_free hl ((refl (gone := gone)).closeMatters i r d).sheds (h.owned ho)
  · exact h

theorem clearingPasses (i : Nat) (r : Inst) (d : RouteDef) (h : Walk gone a s) : Walk gone a (s.clearingPasses i r d) := by
  unfold State.clearingPasses
  dsimp only
  repeat' split
  · exact acceptanceCleared _ _ (modInst _ _ (fun _ => rfl) h)
  · exact h.modInst _ _ fun _ => rfl
  · exact h.modInst _ _ fun _ => rfl
  · exact commandProceed _ _ (modInst _ _ (fun _ => rfl) h)

theorem requestClearing (i : Nat) (h : Walk gone a s) : Walk gone a (s.requestClearing i) := by
  unfold State.requestClearing
  repeat' split
  · exact h.clearingPasses _ _ _
  · exact h.modInst _ _ fun _ => rfl
  · exact h

theorem checkWaiting (i : Nat) (h : Walk gone a s) : Walk gone a (s.checkWaiting i) := by
  unfold State.checkWaiting
  repeat' split
  all_goals first
    | exact h
    | exact h.requestClearing _
    | exact askAcceptance _ _ _ (modInst _ _ (fun _ => rfl) h)

theorem unwait (i : Nat) (p : Wait → Bool) (h : Walk gone a s) : Walk gone a (s.unwait i p) := by
  unfold State.unwait
  split
  · rename_i r hr
    split
    · exact (h.sameInst hr _).checkWaiting i
    · exact h
  · exact h

theorem await (i : Nat) (d : RouteDef) (ws : List Wait) (h : Walk gone a s) : Walk gone a (s.await i d ws) :=
  h.modInst _ _ fun _ => rfl

theorem stopEntry (d : RouteDef) (h : Walk gone a s) : Walk gone a (s.stopEntry d) := by
  unfold State.stopEntry
  split <;> simp (maxDischargeDepth := 12) only [commandStop, h]

theorem supervise (i : Nat) (d : RouteDef) (c : Cause) (e : Nat) (h : Walk gone a s) : Walk gone a (s.supervise i d c e) := by
  unfold State.supervise
  split
  · rename_i r hr
    repeat' split
    · exact (h.sameInst hr _).stopEntry d
    · exact h.sameInst hr _
    · exact h
  · exact h

theorem recordOverrun (o : Overrun) (h : Walk gone a s) : Walk gone a (s.recordOverrun o) :=
  foldl (fun l h => (h.beside (.overrun _ l o) rfl rfl rfl rfl).markAt l _) _ h

theorem seqFault (i : Nat) (k : FaultKind) (e : Nat) (h : Walk gone a s) : Walk gone a (s.seqFault i k e) :=
  h.modInst _ _ fun _ => rfl

theorem advance (i e : Nat) (h : Walk gone a s) : Walk gone a (s.advance i e) := by
  unfold State.advance
  dsimp only
  repeat' split
  all_goals first
    | exact h
    | exact h.seqFault _ _ _
    | exact h.widenInst _ _ fun r => wider_startOverlap _ rfl

theorem entering (i : Nat) (r : Inst) (d : RouteDef) (hr : s.inst i = some r) (h : Walk gone a s) :
    Walk gone a (s.entering i r d) := by
  have h1 := (h.widen hr (wider_entered d r)).stopEntry d
  unfold State.entering
  dsimp only
  (repeat' split) <;> simp only [consumeIncoming, h1]

theorem trainEntry (i : Nat) (r : Inst) (d : RouteDef) (o : Bool) (hr : s.inst i = some r) (h : Walk gone a s) :
    Walk gone a (s.trainEntry i r d o) := by
  unfold State.trainEntry
  dsimp only
  refine mark _ (widenInst _ _ ?_ fun x => ?_)
  · split
    · exact recordOverrun _ (foldl (fun e h => advance _ e h) _ (h.entering i r d hr))
    · exact foldl (fun e h => advance _ e h) _ (h.entering i r d hr)
  · split
    · exact wider_startOverlap _ rfl
    · exact .of_kept rfl

/-- Path item k, where the release pointer stands, released in the record once its slots are empty. -/
theorem pointerMoves {u : State} {i : Nat} {r r' : Inst} {d : RouteDef} (hl : u.live i = some (r, d))
    (hn : r.releasePtr - 1 < d.path.length) (hr : r'.route = r.route) (ho : r'.overlap = r.overlap)
    (hx : r.releasePtr ≠ d.path.length → r'.pathReleased = r.pathReleased)
    (hp : r.releasePtr ≠ d.path.length → r'.releasePtr = r.releasePtr + 1)
    (h : Walk gone a (u.releasePathItem i d r.releasePtr)) :
    Walk gone a ((u.releasePathItem i d r.releasePtr).putInst i (some r')) := by
  have hi : (u.releasePathItem i d r.releasePtr).inst i = some r :=
    (inst_of_insts (releasePathItem_insts _ _ _ _) i).trans (inst_of_live hl)
  refine h.putInst hi hr fun d' x e hl' hh hk => ?_
  have hd : d' = d := by
    have h1 := routeDef_of_live hl'
    rw [routeDef_of_rcat (Walk.rcat (gone := fun _ => False) (releasePathItem i d _ refl)), routeDef_of_live hl] at h1
    exact (Option.some.inj h1).symm
  subst hd
  have hf := fun hs => releasePathItem_free u i d' r.releasePtr x e hs hh
  have later : ∀ n, 1 ≤ n → r.unreleased n = true → n ≠ r.releasePtr → n ≤ d'.path.length →
      r'.unreleased n = true := fun n h1 h2 h3 h4 => by
    simp only [Inst.unreleased, Bool.and_eq_true, decide_eq_true_eq, Bool.not_eq_true'] at h2 ⊢
    have h5 : r.releasePtr ≠ d'.path.length := by omega
    rw [hp h5, hx h5]
    exact ⟨by omega, h2.2⟩
  have hl : ∀ x, (∀ it, d'.path[r.releasePtr - 1]? = some it → ¬ (1 ≤ r.releasePtr ∧ hasSlot it x e)) →
      ((∃ it ∈ r.openItems d', hasSlot it x e) ∨ (¬ gone i ∧ r.overlapHeld = true ∧ ∃ it ∈ d'.overlap, hasSlot it x e)) →
      (∃ it ∈ r'.openItems d', hasSlot it x e) ∨ (¬ gone i ∧ r'.overlapHeld = true ∧ ∃ it ∈ d'.overlap, hasSlot it x e) := by
    intro x hno h
    refine h.imp ?_ fun ⟨h1, h2, h3⟩ => ⟨h1, by simpa [Inst.overlapHeld, ho] using h2, h3⟩
    rintro ⟨it, hm, hh⟩
    obtain ⟨n, h1, h2, h3⟩ := mem_openItems.1 hm
    refine ⟨it, mem_openItems.2 ⟨n, h1, h2, later n h1 h3 (fun hc => ?_) ?_⟩, hh⟩
    · subst hc
      exact hno it h2 ⟨h1, hh⟩
    · have := (List.getElem?_eq_some_iff.1 h2).1
      omega
  cases x with
  | entry =>
    refine ⟨hk.1, ?_⟩
    by_cases h1 : r.releasePtr = 1
    · exact absurd (.inr (.inl ⟨rfl, hk.1.symm, h1⟩)) hf
    · exact later 1 (Nat.le_refl _) hk.2 (Ne.symm h1) (by omega)
  | exit =>
    refine ⟨hk.1, ?_⟩
    by_cases h1 : r.releasePtr = d'.path.length
    · exact absurd (.inr (.inr ⟨rfl, hk.1.symm, h1⟩)) hf
    · rw [hx h1]
      exact hk.2
  | point => exact hl _ (fun it hi hs => hf (.inl ⟨it, hi, hs.2⟩)) hk
  | track => exact hl _ (fun it hi hs => hf (.inl ⟨it, hi, hs.2⟩)) hk

theorem releaseItem (i : Nat) (r : Inst) (d : RouteDef) (hl : s.live i = some (r, d))
    (hn : r.releasePtr - 1 < d.path.length) (h : Walk gone a s) : Walk gone a (s.releaseItem i r d r.releasePtr) := by
  unfold State.releaseItem
  dsimp only
  have key : ∀ u, Walk gone a u → u.rim.insts = s.rim.insts → u.rcat = s.rcat →
      Walk gone a ((u.releasePathItem i d r.releasePtr).modInst i fun r' =>
        if r.releasePtr = d.path.length then
          { r' with pathReleased := true, acceptance := if d.cls == .boundaryOut then .released else r'.acceptance }
        else
          { r' with releasePtr := r.releasePtr + 1
                    highest := if d.cls == .shunt && r.releasePtr + 1 == d.path.length && r'.highest == r.releasePtr then
                      d.path.length else r'.highest }) := fun u hu h1 h2 => by
    have hv : u.live i = some (r, d) := by rw [live_congr h1 h2]; exact hl
    rw [modInst_of _ ((inst_of_insts (releasePathItem_insts _ _ _ _) i).trans (inst_of_live hv))]
    refine pointerMoves hv hn ?_ ?_ (fun hc => ?_) (fun hc => ?_) (hu.releasePathItem i d _)
    · split <;> rfl
    · split <;> rfl
    · rw [if_neg hc]
    · rw [if_neg hc]
  refine key _ ?_ ?_ ?_
  · (repeat' split) <;> first | exact (h.gaveUpAll _ _).handOver _ _ | exact h.gaveUpAll _ _
  · (repeat' split) <;> simp [gaveUp_rim]
  · (repeat' split) <;> first
      | exact (((refl (gone := gone)).gaveUpAll _ _).handOver _ _).rcat
      | exact ((refl (gone := gone)).gaveUpAll _ _).rcat

theorem tryRelease (i n : Nat) : ∀ {s : State}, Walk gone a s → Walk gone a (State.tryRelease i n s) := by
  induction n with
  | zero => intro s h; exact h
  | succ n ih =>
    intro s h
    unfold State.tryRelease
    dsimp only
    split
    · split
      · split
        · rename_i hl hc _
          refine ih (tryFree _ (h.releaseItem _ _ _ hl ?_))
          exact lt_of_clear hc.2.2.2
        · exact h.seqFault _ _ _
      · exact h
    · exact h

theorem sectionInLocking (i : Nat) (d : RouteDef) (e : Nat) (o : Occ) (h : Walk gone a s) :
    Walk gone a (s.sectionInLocking i d e o) := by
  unfold State.sectionInLocking
  (repeat' split) <;> simp (maxDischargeDepth := 12) only [unwait, await, h]

theorem sectionSupervised (i : Nat) (r : Inst) (d : RouteDef) (e : Nat) (o : Occ) (hr : s.inst i = some r)
    (h : Walk gone a s) :
    Walk gone a (s.sectionSupervised i r d e o) := by
  unfold State.sectionSupervised
  (repeat' split) <;> simp (maxDischargeDepth := 12) only [trainEntry, supervise, hr, h]

theorem sectionInUse (i : Nat) (r : Inst) (d : RouteDef) (e : Nat) (x y : Occ) (h : Walk gone a s) :
    Walk gone a (s.sectionInUse i r d e x y) := by
  unfold State.sectionInUse
  dsimp only
  have h1 := h.modInst i (fun r => { r with overlapTimer := .running d.overlapTime }) fun _ => rfl
  (repeat' split) <;> simp (maxDischargeDepth := 12) only [tryRelease, advance, h, h1]

theorem takeSection (i e : Nat) (x y : Occ) (h : Walk gone a s) : Walk gone a (s.takeSection i e x y) := by
  unfold State.takeSection
  split
  · rename_i r d hl
    have hr := inst_of_live hl
    (repeat' split) <;>
      simp (maxDischargeDepth := 12) only [sectionInLocking, sectionSupervised, sectionInUse, trainEntry, hr, h]
  · exact h

theorem takeDetectionLost (i e : Nat) (h : Walk gone a s) : Walk gone a (s.takeDetectionLost i e) := by
  unfold State.takeDetectionLost
  (repeat' split) <;> simp (maxDischargeDepth := 12) only [await, supervise, h]

theorem takeFlankLost (i e : Nat) (h : Walk gone a s) : Walk gone a (s.takeFlankLost i e) := by
  unfold State.takeFlankLost
  dsimp only
  (repeat' split) <;> simp (maxDischargeDepth := 12) only [await, supervise, h]

theorem takePointFailed (i e : Nat) (h : Walk gone a s) : Walk gone a (s.takePointFailed i e) := by
  unfold State.takePointFailed
  dsimp only
  (repeat' split) <;> simp (maxDischargeDepth := 12) only [await, supervise, h]

theorem takeSuspect (e i : Nat) (h : Walk gone a s) : Walk gone a (State.takeSuspect e s i) := by
  unfold State.takeSuspect
  (repeat' split) <;> simp (maxDischargeDepth := 12) only [settingFails, seqFault, supervise, h]

theorem takeDirectionFailed (b : BLink) (i : Nat) (h : Walk gone a s) : Walk gone a (State.takeDirectionFailed b s i) := by
  unfold State.takeDirectionFailed
  (repeat' split) <;> simp (maxDischargeDepth := 12) only [settingFails, h]

theorem takeDirectionHeld (b : BLink) (i : Nat) (h : Walk gone a s) : Walk gone a (State.takeDirectionHeld b s i) := by
  unfold State.takeDirectionHeld
  (repeat' split) <;> simp (maxDischargeDepth := 12) only [unwait, h]

theorem takeLinkDown (b : BLink) (i : Nat) (h : Walk gone a s) : Walk gone a (State.takeLinkDown b s i) := by
  unfold State.takeLinkDown
  (repeat' split) <;> simp (maxDischargeDepth := 12) only [settingFails, supervise, h]

theorem takeLost (i : Nat) (c : Cause) (e : RouteDef → Nat) (h : Walk gone a s) : Walk gone a (s.takeLost i c e) := by
  unfold State.takeLost
  (repeat' split) <;> simp (maxDischargeDepth := 12) only [settingFails, supervise, h]

theorem takeAssured (i m : Nat) (h : Walk gone a s) : Walk gone a (s.takeAssured i m) := by
  unfold State.takeAssured
  repeat' split
  · exact unwait _ _ (modInst _ _ (fun _ => rfl) h)
  · exact h
  · exact h

theorem lateSubstitute (i m : Nat) (h : Walk gone a s) : Walk gone a (s.lateSubstitute i m) := by
  unfold State.lateSubstitute
  dsimp only
  repeat' split
  all_goals first
    | exact h
    | exact h.settingFails _ _ _
    | exact unwait _ _ (modInst _ _ (fun _ => rfl) ((h.takeClaim _ _).throwClaimed _))
    | exact unwait _ _ (await _ _ _ (modInst _ _ (fun _ => rfl) ((h.takeClaim _ _).throwClaimed _)))

theorem takeWithdrawn (i : Nat) (h : Walk gone a s) : Walk gone a (s.takeWithdrawn i) := by
  unfold State.takeWithdrawn
  (repeat' split) <;> simp (maxDischargeDepth := 12) only [releaseAll, h]

/-- The overlap of an instance whose overlap does not count. -/
theorem takeTransferred (i : Nat) (hg : gone i) (h : Walk gone a s) : Walk gone a (s.takeTransferred i) := by
  unfold State.takeTransferred
  split
  · rename_i r hr
    split
    · refine tryFree i (h.putInst hr rfl fun d k e _ _ hk => ?_)
      cases k <;> first
        | exact hk
        | exact hk.imp id fun hn => absurd hg hn.1
    · exact h
  · exact h

theorem takeConfirmed (i : Nat) (h : Walk gone a s) : Walk gone a (s.takeConfirmed i) := by
  unfold State.takeConfirmed
  split
  · rename_i r hr
    split
    · exact h.sameInst hr _
    · exact h
  · exact h

theorem takeSignalCause (i e : Nat) (c : Cause) (h : Walk gone a s) : Walk gone a (s.takeSignalCause i e c) := by
  unfold State.takeSignalCause
  (repeat' split) <;> simp (maxDischargeDepth := 12) only [supervise, h]

theorem takeAccepted (i : Nat) (h : Walk gone a s) : Walk gone a (s.takeAccepted i) := by
  unfold State.takeAccepted
  split
  · rename_i r hr
    split
    · exact (h.sameInst hr _).unwait i _
    · exact h
  · exact h

theorem failIfLocking (i : Nat) (c : FailCause) (e : RouteDef → Nat) (h : Walk gone a s) : Walk gone a (s.failIfLocking i c e) := by
  unfold State.failIfLocking
  (repeat' split) <;> simp (maxDischargeDepth := 12) only [settingFails, h]

/-- One notice taken is a walk of small writes; the overlap of an instance told of its transfer does not count. -/
theorem takeNotice (n : Notice) (hg : ∀ i, n = .overlapTransferred i → gone i) (h : Walk gone a s) :
    Walk gone a (s.takeNotice n) := by
  unfold State.takeNotice
  have hs := fun e l => foldl (f := State.takeSuspect e) (fun i h => takeSuspect e i h) l h
  have hh := fun b l => foldl (f := State.takeDirectionHeld b) (fun i h => takeDirectionHeld b i h) l h
  have hf := fun b l => foldl (f := State.takeDirectionFailed b) (fun i h => takeDirectionFailed b i h) l h
  have hd := fun b l => foldl (f := State.takeLinkDown b) (fun i h => takeLinkDown b i h) l h
  generalize instNumbers = l
  split <;>
    simp (maxDischargeDepth := 12) only [unwait, takeDetectionLost, takeFlankLost, takePointFailed, takeSection,
      takeSignalCause, takeConfirmed, takeTransferred, takeAccepted, failIfLocking, takeLost, takeAssured,
      lateSubstitute, takeWithdrawn, hg, h, hs, hh, hf, hd]

theorem takeNotices (l : List Notice) (hg : ∀ i, .overlapTransferred i ∈ l → gone i) (h : Walk gone a s) :
    Walk gone a (l.foldl State.takeNotice s) := by
  induction l generalizing s with
  | nil => exact h
  | cons n l ih =>
    exact ih (fun i hi => hg i (List.mem_cons_of_mem _ hi))
      (h.takeNotice n fun i hn => hg i (hn ▸ List.mem_cons_self))

theorem settleN (n : Nat) (hg : ∀ i, a.Transferring i → gone i) :
    ∀ {s : State}, Walk gone a s → Walk gone a (Machine.settleN n s) := by
  induction n with
  | zero => intro s h; exact h
  | succ n ih =>
    intro s h
    unfold Machine.settleN
    split
    · exact h
    · refine ih (takeNotices _ (fun i hi => hg i (h.quiet i hi)) ?_)
      exact ⟨h.smalls.tail (.taken s), h.sheds, fun i x => (nomatch x), h.owned⟩

/-- The taking of notices is a walk of small writes, where the overlaps transferred do not count. -/
theorem settle (hg : ∀ i, a.Transferring i → gone i) (h : Walk gone a s) : Walk gone a s.settle := settleN _ hg h

end Walk
end Sys2Proof.Machine
end

