-- ==== Sys2Proof/Laws/Desk.lean ====
section
/-! SUPPORT. The taking of notices leaves the desk as it was, and what that says of each of its fields. -/

set_option Elab.async false

namespace Sys2Proof.Machine

theorem map_setIfInBounds_same {α β : Type} {n : Nat} (v : Vector α n) (f : α → β) (i : Nat) (a d : α)
    (h : f a = f (v.getD i d)) : (v.setIfInBounds i a).map f = v.map f := by
  ext j hj
  rw [Vector.getElem_map, Vector.getElem_map]
  by_cases hij : i = j
  · subst hij
    rw [Vector.getElem_setIfInBounds_self, h]
    simp [Vector.getD, hj]
  · rw [Vector.getElem_setIfInBounds_ne _ hij]

theorem map_set_same {α β : Type} {n : Nat} (v : Vector α n) (f : α → β) (i : Nat) (hi : i < n) (a : α)
    (h : f a = f v[i]) : (v.set i a).map f = v.map f := by
  ext j hj
  rw [Vector.getElem_map, Vector.getElem_map]
  by_cases hij : i = j
  · subst hij
    rw [Vector.getElem_set_self, h]
  · rw [Vector.getElem_set_ne _ _ hij]

theorem desk_modOlc (s : State) (l : OpLink) (f : Olc → Olc) (h : ∀ c, (f c).desk = c.desk) :
    (s.modOlc l f).desk = s.desk := by
  cases l <;> simp [State.desk, State.modOlc, PerLink.set, PerLink.get, h]

@[simp] theorem desk_markAt (s : State) (l : OpLink) (o : Obj) : (s.markAt l o).desk = s.desk :=
  desk_modOlc _ _ _ fun _ => rfl

@[simp] theorem desk_mark (s : State) (o : Obj) : (s.mark o).desk = s.desk := by
  simp [State.mark]

theorem desk_settleMarks (b s : State) : (State.settleMarks b s).desk = s.desk := rfl

/-- A small write leaves the desk as it was. -/
theorem Small.desk {x y : State} (h : Small x y) : y.desk = x.desk := by
  cases h with
  | elem e r h =>
    unfold State.putElem
    split
    · rfl
    · rw [desk_mark]
      have := map_setIfInBounds_same x.lkc.elements Element.seen e r .unconfigured h
      simp [State.desk, this]
  | fct => rfl
  | drive e d =>
    unfold State.putDrive
    split
    · rfl
    · rw [desk_mark]; rfl
  | cmd e c =>
    unfold State.putCmd
    split
    · rfl
    · rw [desk_mark]; rfl
  | enqueue => rfl
  | dequeue => rfl
  | inst i v =>
    unfold State.putInst
    split
    · rfl
    · rw [desk_mark]; rfl
  | notifyAll => rfl
  | taken => rfl
  | send => rfl
  | mark => exact desk_markAt _ _ _
  | broken l i =>
    refine desk_modOlc _ _ _ fun c => ?_
    simp only [Olc.desk, breakAux]
    cases c.aux with
    | none => rfl
    | some a => simp only [Option.map_some]; split <;> rfl
  | failure => exact desk_modOlc _ _ _ fun _ => rfl
  | overrun => exact desk_modOlc _ _ _ fun _ => rfl
  | pass q r hs hr => simp [State.desk, hs, hr]
  | blc b r h =>
    have := map_set_same x.blc Blc.line b b.isLt r h.line
    unfold State.putBlc
    dsimp only
    split
    · simp only [State.desk, this]
    · rw [desk_mark]
      simp only [State.desk, this]

/-- Small writes leave the desk as it was. -/
theorem Smalls.desk {a s : State} (h : Smalls a s) : s.desk = a.desk :=
  h.keeps (P := fun s => s.desk = a.desk) (fun _ _ k e => k.desk.trans e) rfl

/-- A walk leaves the desk as it was. -/
theorem Walk.desk {gone : Nat → Prop} {a s : State} (h : Walk gone a s) : s.desk = a.desk := h.smalls.desk

/-- The taking of notices leaves the desk as it was (R80). -/
theorem settle_desk (s : State) : s.settle.desk = s.desk := (Walk.settle (gone := fun _ => True) (fun _ _ => trivial) .refl).desk

theorem finish_desk (b s : State) : (State.finish b s).desk = s.desk :=
  (desk_settleMarks _ _).trans (settle_desk s)

/-! ### Fields that equal desks share -/

section
variable {s t : State} (h : t.desk = s.desk)
include h

theorem cfl_of_desk : t.cfl = s.cfl := congrArg Desk.cfl h
theorem rcat_of_desk : t.rcat = s.rcat := congrArg Desk.rcat h
theorem ace_of_desk : t.ace = s.ace := congrArg Desk.ace h
theorem aum_of_desk : t.aum = s.aum := congrArg Desk.aum h
theorem aou_of_desk : t.aou = s.aou := congrArg Desk.aou h
theorem pending_of_desk : t.pending = s.pending := congrArg Desk.pending h
theorem units_of_desk : t.tbc.units = s.tbc.units := congrArg Desk.units h

theorem olc_of_desk (l : OpLink) : (t.olc.get l).desk = (s.olc.get l).desk := by
  cases l
  · exact congrArg Desk.olC h
  · exact congrArg Desk.olL h

theorem seen_of_desk (e : Nat) : (t.elem e).seen = (s.elem e).seen := by
  have hv : t.lkc.elements.map Element.seen = s.lkc.elements.map Element.seen := congrArg Desk.elements h
  by_cases he : e < 256
  · have := congrArg (fun v : Vector Element 256 => v[e]) hv
    simp only [Vector.getElem_map] at this
    simpa [State.elem, Vector.getD, he] using this
  · simp [State.elem, Vector.getD, he]

theorem line_of_desk (b : BLink) : (t.blcAt b).line = (s.blcAt b).line := by
  have hv : t.blc.map Blc.line = s.blc.map Blc.line := congrArg Desk.lines h
  have := congrArg (fun v : Vector Blc 4 => v[b]) hv
  simpa [State.blcAt, Vector.getElem_map] using this

theorem areaRec_of_desk (a : Nat) : t.areaRec a = s.areaRec a := by
  simp [State.areaRec, aum_of_desk h]

theorem occ_of_desk (e : Nat) : t.occ e = s.occ e := by
  have := seen_of_desk h e
  simp only [State.occ, State.track?]
  cases ht : t.elem e <;> cases hs : s.elem e <;> simp_all [Element.seen]

end

end Sys2Proof.Machine
end

