-- ==== Sys2Proof/Laws/Passage.lean ====
section
/-! SUPPORT. What the RIM does with the notices it takes (R81 to R95) and as a train passes (R118 to R128), one lemma for
each row. -/

set_option Elab.async false

namespace Sys2Proof.Machine

variable {s : State} {i e : Nat} {r : Inst} {d : RouteDef}

section
variable (s : State)

theorem inst_freeRecord (i : Nat) : (s.freeRecord i).inst i = none := by
  have h : ∀ t : State, t.rim.insts = (s.putInst i none).rim.insts → t.inst i = none := by
    intro t ht
    rw [inst_of_insts ht]
    by_cases k : i < 48
    · exact inst_putInst_same _ _ _ k
    · simp [State.inst, Vector.getD, k]
  apply h
  simp [State.freeRecord]

end

/-! ### The waiting set (R81, R83 to R86, R90) -/

theorem mem_insertWait (d : RouteDef) (w x : Wait) (l : List Wait) : x ∈ insertWait d w l ↔ x ∈ l ∨ x = w := by
  unfold insertWait
  split
  · rename_i h
    have : w ∈ l := by simpa using h
    constructor
    · exact Or.inl
    · rintro (k | rfl)
      · exact k
      · exact this
  · have key : x ∈ l ↔ x ∈ l.takeWhile (fun x => waitKey d x ≤ waitKey d w)
        ∨ x ∈ l.dropWhile (fun x => waitKey d x ≤ waitKey d w) := by
      rw [← List.mem_append, List.takeWhile_append_dropWhile]
    rw [key]
    simp only [List.mem_append, List.mem_cons]
    rw [or_assoc, or_comm (a := x = w)]

theorem mem_joinWaits (d : RouteDef) (r : Inst) (w : Wait) (ws : List Wait) :
    w ∈ (joinWaits d ws r).waiting ↔ w ∈ r.waiting ∨ w ∈ ws := by
  have key : ∀ (ws l : List Wait), w ∈ ws.foldl (fun l w => insertWait d w l) l ↔ w ∈ l ∨ w ∈ ws := by
    intro ws
    induction ws with
    | nil => simp
    | cons x ws ih =>
      intro l
      rw [List.foldl_cons, ih, mem_insertWait, List.mem_cons, or_assoc]
  exact key ws r.waiting

theorem checkWaiting_rows (h : s.live i = some (r, d)) :
    (r.state ≠ .locking → s.checkWaiting i = s)
    ∧ (r.state = .locking → r.waiting = [] → s.clearingFailures i r d = [] →
      s.checkWaiting i = s.clearingPasses i r d)
    ∧ (r.state = .locking → r.waiting = [] → s.clearingFailures i r d ≠ [] →
      s.checkWaiting i = s.putInst i (some (joinWaits d ((s.clearingFailures i r d).filterMap id) r)))
    ∧ (∀ b, r.state = .locking → r.waiting = [.acceptance] → r.acceptance = .notAsked → s.exitLink d = some b →
      s.checkWaiting i = (s.putInst i (some { r with acceptance := .asked })).askAcceptance b i r.route)
    ∧ (r.waiting ≠ [] → (r.waiting = [.acceptance] → r.acceptance ≠ .notAsked) → s.checkWaiting i = s) := by
  have hi := inst_of_live h
  refine ⟨fun k => ?_, fun k w c => ?_, fun k w c => ?_, fun b k w a x => ?_, fun w a => ?_⟩
  · simp [State.checkWaiting, h, k]
  · simp [State.checkWaiting, State.requestClearing, h, k, w, c]
  · simp only [State.checkWaiting, h, k, w]
    simp only [State.requestClearing, h]
    cases hc : s.clearingFailures i r d with
    | nil => exact absurd hc c
    | cons x l => simp [modInst_of _ hi]
  · simp [State.checkWaiting, h, k, w, a, x, modInst_of _ hi]
  · simp only [State.checkWaiting, h]
    by_cases k : r.state = .locking
    · simp only [k]
      by_cases v : r.waiting = [.acceptance]
      · simp [v, a v]
      · simp [w, v]
    · simp [k]

theorem unwait_rows (p : Wait → Bool) (h : s.inst i = some r) :
    (r.state = .locking → r.waiting.any p = true →
      s.unwait i p = (s.putInst i (some { r with waiting := r.waiting.filter fun w => !p w })).checkWaiting i)
    ∧ ((r.state ≠ .locking ∨ r.waiting.any p = false) → s.unwait i p = s) := by
  constructor
  · intro a b
    simp only [State.unwait, h, a, b]
    rfl
  · intro a
    simp only [State.unwait, h]
    rcases a with a | a
    · simp [a]
    · rw [a]
      simp

/-! ### Supervision (R93, R94) -/

theorem commandStop_commands {g : SignalRec} (h : s.signal? e = some g) :
    ∃ g', (s.commandStop e).signal? e = some g' ∧ g'.commanded = .stop := by
  have h0 : (s.dropCmd e).signal? e = some g := by
    rw [signal_of_elem] at h ⊢
    simpa [State.dropCmd] using h
  have h1 := modSignal_signal h0 fun g => { g with commanded := .stop }
  unfold State.commandStop
  rw [h]
  simp only []
  split
  · exact ⟨_, h1, rfl⟩
  · unfold State.enqueueStop
    split
    · refine ⟨{ g with commanded := .stop }, ?_, rfl⟩
      rw [signal_of_elem] at h1 ⊢
      simpa using h1
    · have h2 : ((((s.dropCmd e).modSignal e fun g => { g with commanded := .stop }).putCmd e
          { ((s.dropCmd e).modSignal e fun g => { g with commanded := .stop }).cmd e with
            stopOutstanding := false })).signal? e = some { g with commanded := .stop } := by
        rw [signal_of_elem] at h1 ⊢
        simpa using h1
      exact ⟨_, modSignal_signal h2 fun g => { g with failed := true }, rfl⟩

theorem supervise_rows (c : Cause) (x : Nat) (h : s.inst i = some r) :
    ((r.state = .clearing ∨ r.state = .cleared) →
      (s.supervise i d c x).inst i = some { r with state := .held, causes := addCause c x r.causes }
      ∧ (d.cls ≠ .boundaryIn → ∀ g, s.signal? d.entry = some g →
          ∃ g', (s.supervise i d c x).signal? d.entry = some g' ∧ g'.commanded = .stop)
      ∧ (d.cls = .boundaryIn → s.supervise i d c x =
          s.putInst i (some { r with state := .held, causes := addCause c x r.causes })))
    ∧ (r.state = .held → s.supervise i d c x = s.putInst i (some { r with causes := addCause c x r.causes }))
    ∧ (r.state.supervised = false → s.supervise i d c x = s) := by
  have hl := lt_of_inst h
  refine ⟨fun k => ?_, fun k => ?_, fun k => ?_⟩
  · have e0 : s.supervise i d c x =
        (s.putInst i (some { r with causes := addCause c x r.causes, state := .held })).stopEntry d := by
      simp only [State.supervise, h]
      rcases k with k | k <;> simp [k]
    rw [e0]
    refine ⟨?_, fun hb g hg => ?_, fun hb => ?_⟩
    · rw [inst_of_insts (congrArg Rim.insts (stopEntry_rim _ _))]
      exact inst_putInst_same _ _ _ hl
    · simp only [State.stopEntry, beq_iff_eq, hb, if_false]
      apply commandStop_commands (g := g)
      rw [signal_of_elem] at hg ⊢
      unfold State.elem at hg ⊢
      simpa using hg
    · simp [State.stopEntry, hb]
  · simp only [State.supervise, h, k]
    simp
  · simp only [State.supervise, h]
    cases hs : r.state <;> simp [hs, InstState.supervised] at k ⊢

/-! ### Setting fails (R88) -/

@[simp] theorem failure_mark (s : State) (o : Obj) (l : OpLink) : ((s.mark o).olc.get l).failure = (s.olc.get l).failure := by
  cases l <;> rfl

@[simp] theorem failure_modBlc (s : State) (b : BLink) (f : Blc → Blc) (l : OpLink) :
    ((s.modBlc b f).olc.get l).failure = (s.olc.get l).failure := by
  unfold State.modBlc State.putBlc
  simp only []
  split
  · rfl
  · rw [failure_mark]

theorem failure_tellRefused (s : State) (i : Nat) (r : Inst) (d : RouteDef) (l : OpLink) :
    ((s.tellRefused i r d).olc.get l).failure = (s.olc.get l).failure := by
  unfold State.tellRefused State.refusePending State.checkLost State.sendHeld
  (repeat' split) <;> simp

theorem failure_recordFailure (s : State) (o : Origin) (f : SettingFailure) (l : OpLink) (h : l ∈ failureLinks o) :
    ((s.recordFailure o f).olc.get l).failure = some f := by
  cases o with
  | op k => cases k <;> cases l <;> simp [failureLinks] at h <;> rfl
  | store k => cases k <;> cases l <;> simp [failureLinks] at h <;> rfl
  | blc b => cases l <;> rfl

theorem settingFails_rows (c : FailCause) (x : Nat) (h : s.live i = some (r, d)) :
    (s.settingFails i c x).inst i = none
    ∧ (∀ j, j ≠ i → (s.settingFails i c x).inst j = s.inst j)
    ∧ ∀ l, l ∈ failureLinks r.origin → ((s.settingFails i c x).olc.get l).failure = some ⟨i, r.route, c, x⟩ := by
  have hrim : (s.settingFails i c x).rim = (((s.closeMatters i r d).releaseItems i d).freeRecord i).rim := by
    simp only [State.settingFails, h, tellRefused_rim, recordFailure_rim]
  refine ⟨?_, fun j k => ?_, fun l k => ?_⟩
  · rw [inst_of_insts (congrArg Rim.insts hrim)]
    exact inst_freeRecord _ _
  · rw [inst_of_insts (congrArg Rim.insts hrim)]
    have e1 : (((s.closeMatters i r d).releaseItems i d).freeRecord i).rim.insts =
        (((s.closeMatters i r d).releaseItems i d).putInst i none).rim.insts := by
      simp [State.freeRecord]
    rw [inst_of_insts e1, inst_putInst_ne _ _ _ _ (Ne.symm k), inst_of_insts (releaseItems_insts _ _ _),
      inst_of_insts (congrArg Rim.insts (closeMatters_rim _ _ _ _))]
  · simp only [State.settingFails, h]
    rw [failure_tellRefused, failure_recordFailure _ _ _ _ k]

/-! ### Notices taken by the state of the instance (R83 to R87, R91, R93, R118) -/

/-- One notice that causes no other is taken whole, and the round after it takes nothing (R80). -/
theorem settle_one (n : Notice) (h : s.notices = [n]) (k : (({ s with notices := [] } : State).takeNotice n).notices = []) :
    s.settle = ({ s with notices := [] } : State).takeNotice n := by
  have e1 : s.takeRound = ({ s with notices := [] } : State).takeNotice n := by
    simp [State.takeRound, h]
  show settleN 32 s = _
  rw [settleN, h]
  simp only [List.isEmpty_cons]
  rw [e1]
  show settleN 31 _ = _
  rw [settleN, k]
  rfl

section
variable (h : s.live i = some (r, d))
include h

theorem takeDetectionLost_rows :
    (r.state = .locking → r.locksPoint d e = true →
      s.takeDetectionLost i e = s.putInst i (some (joinWaits d [.point e] r)))
    ∧ (r.state ≠ .locking →
      (hasPoint (r.openItems d) e || (r.overlap == .locked && hasPoint d.overlap.toList e)) = true →
      s.takeDetectionLost i e = s.supervise i d .detectionLost e) := by
  have hi := inst_of_live h
  constructor
  · intro a b
    simp [State.takeDetectionLost, h, a, b, State.await, modInst_of _ hi]
  · intro a b
    simp only [State.takeDetectionLost, h, a, if_false]
    rw [if_pos b]

theorem takeFlankLost_rows (k : r.flankOn d e ≠ []) :
    (r.state = .locking →
      s.takeFlankLost i e = s.putInst i (some (joinWaits d ((r.flankOn d e).map fun m => .flank m e) r)))
    ∧ (r.state ≠ .locking → s.takeFlankLost i e = s.supervise i d .flankLost e) := by
  have hi := inst_of_live h
  constructor <;> intro a <;> simp [State.takeFlankLost, h, a, k, State.await, modInst_of _ hi]

theorem takePointFailed_rows (k : r.locksPoint d e = true ∨ r.flankOn d e ≠ []) :
    (r.state = .locking → s.takePointFailed i e = s.putInst i (some (joinWaits d
      ((if r.locksPoint d e then [.point e] else []) ++ (r.flankOn d e).map fun m => .flank m e) r)))
    ∧ (r.state ≠ .locking → s.takePointFailed i e = s.supervise i d .pointFailed e) := by
  have hi := inst_of_live h
  constructor <;> intro a
  · simp [State.takePointFailed, h, a, State.await, modInst_of _ hi]
  · rcases k with k | k <;> simp [State.takePointFailed, h, a, k]

theorem takeSection_rows (x y : Occ) (j : Nat) (k : pathIndex d e = some j) :
    (r.state = .locking → (y = .clear ∨ (y = .occupied ∧ j ≠ 1 ∧ shuntLast d j = true)) →
      s.takeSection i e x y = s.unwait i (· == .track e))
    ∧ (r.state = .locking → y ≠ .clear → ¬(y = .occupied ∧ j ≠ 1 ∧ shuntLast d j = true) →
      s.takeSection i e x y = s.putInst i (some (joinWaits d [.track e] r)))
    ∧ (r.state.supervised = true →
      (y = .clear → s.takeSection i e x y = s)
      ∧ (j = 1 → y = .occupied → s.takeSection i e x y = s.trainEntry i r d (r.state != .cleared))
      ∧ (j ≠ 1 → y = .occupied → shuntLast d j = true → s.takeSection i e x y = s)
      ∧ (y ≠ .clear → ¬(j = 1 ∧ y = .occupied) → ¬(y = .occupied ∧ shuntLast d j = true) →
        s.takeSection i e x y = s.supervise i d .sectionNotClear e)) := by
  have hi := inst_of_live h
  refine ⟨fun a b => ?_, fun a b c => ?_, fun a => ⟨fun b => ?_, fun b c => ?_, fun b c f => ?_, fun b c f => ?_⟩⟩
  · simp only [State.takeSection, h, a, State.sectionInLocking, k]
    rcases b with b | ⟨b, c, f⟩ <;> simp [*]
  · simp only [State.takeSection, h, a, State.sectionInLocking, k]
    have g : (y == .clear || (y == .occupied && j != 1 && shuntLast d j)) = false := by
      simp [b]
      simpa [and_assoc] using c
    rw [g]
    simp [State.await, modInst_of _ hi]
  all_goals
    simp only [State.takeSection, h]
    cases hs : r.state <;> simp [hs, InstState.supervised] at a ⊢ <;> simp [State.sectionSupervised, *]

theorem takeSuspect_rows (k : r.lists d e = true) :
    (r.state = .locking → State.takeSuspect e s i = s.settingFails i .suspect e)
    ∧ (r.state ≠ .locking → r.state ≠ .inUse → State.takeSuspect e s i = s.supervise i d .suspect e)
    ∧ (r.state = .inUse →
      (((r.openItems d).any fun it => it.sect == e) = true ∨ (r.overlapHeld = true ∧ overlapSect d = some e) →
        State.takeSuspect e s i = s.seqFault i .suspect e)
      ∧ (((r.openItems d).any fun it => it.sect == e) = false → ¬(r.overlapHeld = true ∧ overlapSect d = some e) →
        State.takeSuspect e s i = s)) := by
  refine ⟨fun a => ?_, fun a b => ?_, fun a => ⟨fun b => ?_, fun b c => ?_⟩⟩
  · simp [State.takeSuspect, h, k, a]
  · simp [State.takeSuspect, h, k, a, b]
  · have g : ((r.openItems d).any (fun it => it.sect == e) || (r.overlapHeld && overlapSect d == some e)) = true := by
      simpa using b
    simp only [State.takeSuspect, h, k, a]
    simp [g]
  · have g : ((r.openItems d).any (fun it => it.sect == e) || (r.overlapHeld && overlapSect d == some e)) = false := by
      rw [b]
      simpa using c
    simp only [State.takeSuspect, h, k, a]
    simp [g]

theorem boundary_rows (b : BLink) :
    (r.state = .locking → .direction ∈ r.waiting → s.exitLink d = some b →
      State.takeDirectionFailed b s i = s.settingFails i .boundary d.exit)
    ∧ (s.exitLink d = some b → State.takeDirectionHeld b s i = s.unwait i (· == .direction))
    ∧ (s.onLink r d b = true →
      (r.state = .locking → State.takeLinkDown b s i = s.settingFails i .link (s.boundaryElem b))
      ∧ (r.state ≠ .locking → State.takeLinkDown b s i = s.supervise i d .linkDown (s.boundaryElem b)))
    ∧ (s.onLink r d b = false → State.takeLinkDown b s i = s) := by
  refine ⟨fun a c f => ?_, fun a => ?_, fun a => ⟨fun c => ?_, fun c => ?_⟩, fun a => ?_⟩
  · simp [State.takeDirectionFailed, h, a, c, f]
  · simp [State.takeDirectionHeld, h, a]
  · simp [State.takeLinkDown, h, a, c]
  · simp [State.takeLinkDown, h, a, c]
  · simp [State.takeLinkDown, h, a]

theorem report_rows (m : Nat) :
    (r.state = .locking →
      s.takeNotice (.acceptanceGiven i) =
        (s.putInst i (some { r with acceptance := .held })).unwait i (· == .acceptance)
      ∧ s.takeNotice (.acceptanceRefused i) = s.settingFails i .boundary d.exit
      ∧ s.takeNotice (.acceptanceLost i) = s.settingFails i .boundary d.exit
      ∧ s.takeNotice (.assuranceLost i m) = s.settingFails i .boundary (s.waitElem d (.asking m))
      ∧ ((r.flank[m - 1]?).any (fun c => c.status == .asking) = true → s.takeNotice (.assuranceGiven i m) =
          (s.putInst i (some { r with flank := r.flank.set (m - 1) ⟨0, .assured⟩ })).unwait i (· == .asking m)))
    ∧ (r.state ≠ .locking →
      s.takeNotice (.acceptanceGiven i) = s ∧ s.takeNotice (.acceptanceRefused i) = s
      ∧ s.takeNotice (.acceptanceLost i) = s.supervise i d .acceptanceLost d.exit
      ∧ s.takeNotice (.assuranceLost i m) = s.supervise i d .assuranceLost (s.waitElem d (.asking m))
      ∧ s.takeNotice (.assuranceGiven i m) = s)
    ∧ (r.state = .clearing → s.takeNotice (.confirmed i e) = s.putInst i (some { r with state := .cleared }))
    ∧ (r.state ≠ .clearing → s.takeNotice (.confirmed i e) = s)
    ∧ s.takeNotice (.lampFault i d.entry) = s.supervise i d .lampFault d.entry
    ∧ s.takeNotice (.signalNotCleared i d.entry) = s.supervise i d .signalNotCleared d.entry := by
  have hi := inst_of_live h
  refine ⟨fun a => ⟨?_, ?_, ?_, ?_, fun b => ?_⟩, fun a => ⟨?_, ?_, ?_, ?_, ?_⟩, fun a => ?_, fun a => ?_, ?_, ?_⟩
  · simp [State.takeNotice, State.takeAccepted, hi, a]
  · simp [State.takeNotice, State.failIfLocking, h, a]
  · simp [State.takeNotice, State.takeLost, h, a]
  · simp [State.takeNotice, State.takeLost, State.itemBoundary, h, a]
  · simp only [State.takeNotice, State.takeAssured, hi]
    rw [if_pos (by simp [a, b]), modInst_of _ hi]
    rfl
  · simp [State.takeNotice, State.takeAccepted, hi, a]
  · simp [State.takeNotice, State.failIfLocking, h, a]
  · simp [State.takeNotice, State.takeLost, h, a]
  · simp [State.takeNotice, State.takeLost, State.itemBoundary, h, a]
  · simp [State.takeNotice, State.takeAssured, hi, a]
  · simp [State.takeNotice, State.takeConfirmed, hi, a]
  · simp [State.takeNotice, State.takeConfirmed, hi, a]
  · simp [State.takeNotice, State.takeSignalCause, h]
  · simp [State.takeNotice, State.takeSignalCause, h]

end

/-! ### The train (R119 to R128) -/

section
variable (h : s.live i = some (r, d))
include h

theorem advance_rows (hu : r.state = .inUse) (x : Nat) :
    (seqIndex d x = none → s.advance i x = s)
    ∧ ∀ j, seqIndex d x = some j →
      (j ≤ r.highest → s.advance i x = s)
      ∧ (j = d.path.length + 1 → r.highest = d.path.length → s.advance i x = s)
      ∧ (r.highest < j → ¬(j = d.path.length + 1 ∧ r.highest = d.path.length) →
        ((∀ k, r.highest < k → k < j → s.isClear (pathSect d k) = false) →
          s.advance i x = s.putInst i (some (startOverlap d { r with highest := min j d.path.length })))
        ∧ ((∃ k, r.highest < k ∧ k < j ∧ s.isClear (pathSect d k) = true) → s.advance i x = s.putInst i
            (some { r with state := .seqFault, faultRec := some (.jump, x), overlapTimer := .stopped }))) := by
  have hi := inst_of_live h
  have hr : ∀ j, (List.range' (r.highest + 1) (j - 1 - r.highest)).any (fun k => s.isClear (pathSect d k)) = true
      ↔ ∃ k, r.highest < k ∧ k < j ∧ s.isClear (pathSect d k) = true := by
    intro j
    simp only [List.any_eq_true, List.mem_range'_1]
    constructor
    · rintro ⟨k, a, b⟩
      exact ⟨k, by omega, by omega, b⟩
    · rintro ⟨k, a, b, c⟩
      exact ⟨k, by omega, c⟩
  refine ⟨fun a => ?_, fun j a => ⟨fun b => ?_, fun b c => ?_, fun b c => ⟨fun f => ?_, fun f => ?_⟩⟩⟩
  · simp [State.advance, h, a]
  · simp [State.advance, h, a, b]
  · simp [State.advance, h, a, b, c]
  · have g : (List.range' (r.highest + 1) (j - 1 - r.highest)).any (fun k => s.isClear (pathSect d k)) = false := by
      rw [Bool.eq_false_iff]
      intro k
      obtain ⟨k, a, b, c⟩ := (hr j).1 k
      rw [f k a b] at c
      cases c
    simp only [State.advance, h, a]
    rw [if_neg (by simp [hu]; omega), if_neg c, if_neg (by simp [g]), modInst_of _ hi]
  · have g := (hr j).2 f
    simp only [State.advance, h, a]
    rw [if_neg (by simp [hu]; omega), if_neg c, if_pos g]
    simp only [State.seqFault]
    rw [modInst_of _ hi]

theorem tryRelease_rows (n : Nat) :
    ((r.state ≠ .inUse ∨ r.pathReleased = true ∨ r.highest < r.releasePtr
        ∨ s.isClear (pathSect d r.releasePtr) = false) → State.tryRelease i (n + 1) s = s)
    ∧ (r.state = .inUse → r.pathReleased = false → r.releasePtr ≤ r.highest →
      s.isClear (pathSect d r.releasePtr) = true →
      ((r.releasePtr = d.path.length ∨ s.isClear (pathSect d (r.releasePtr + 1)) = false) →
        State.tryRelease i (n + 1) s = State.tryRelease i n ((s.releaseItem i r d r.releasePtr).tryFree i))
      ∧ (r.releasePtr ≠ d.path.length → s.isClear (pathSect d (r.releasePtr + 1)) = true →
        State.tryRelease i (n + 1) s = s.putInst i (some { r with
          state := .seqFault, faultRec := some (.vanish, pathSect d r.releasePtr), overlapTimer := .stopped }))) := by
  have hi := inst_of_live h
  refine ⟨fun a => ?_, fun a b c f => ⟨fun g => ?_, fun g k => ?_⟩⟩
  · simp only [State.tryRelease, h]
    rw [if_neg]
    rintro ⟨b, c, f, g⟩
    rcases a with a | a | a | a
    · exact a b
    · simp [a] at c
    · omega
    · simp [a] at g
  · simp only [State.tryRelease, h]
    rw [if_pos ⟨a, b, c, f⟩, if_pos g]
  · simp only [State.tryRelease, h]
    rw [if_pos ⟨a, b, c, f⟩, if_neg (by simp [g, k])]
    simp only [State.seqFault]
    rw [modInst_of _ hi]

end

theorem inst_putInst_insts {t u : State} (h : t.rim.insts = u.rim.insts) (i : Nat) (v : Option Inst) :
    (t.putInst i v).rim.insts = (u.putInst i v).rim.insts := by
  unfold State.putInst
  rw [inst_of_insts h]
  split
  · exact h
  · simp [h]

theorem advance_insts {t u : State} (h : t.rim.insts = u.rim.insts) (hr : t.rcat = u.rcat) (ho : ∀ x, t.occ x = u.occ x)
    (i e : Nat) : (t.advance i e).rim.insts = (u.advance i e).rim.insts := by
  have hc : ∀ x, t.isClear x = u.isClear x := fun x => by simp [State.isClear, ho]
  have hl : t.live i = u.live i := by
    simp only [State.live, inst_of_insts h, routeDef_of_rcat hr]
  have hm : ∀ f, (t.modInst i f).rim.insts = (u.modInst i f).rim.insts := by
    intro f
    unfold State.modInst
    rw [inst_of_insts h]
    split
    · exact inst_putInst_insts h _ _
    · exact h
  unfold State.advance State.seqFault
  simp only [hl, hc]
  (repeat' split) <;> first | exact h | exact hm _

theorem Smalls.advance {a t : State} (i e : Nat) (h : Smalls a t) : Smalls a (t.advance i e) :=
  h.trans (Walk.advance (gone := fun _ => False) i e .refl).smalls

theorem Smalls.entering {a t : State} (i : Nat) (r : Inst) (d : RouteDef) (h : Smalls a t) :
    Smalls a (t.entering i r d) := by
  have h1 : Smalls a ((t.putInst i (some (r.entered d))).stopEntry d) :=
    (h.tail (.inst _ _ _)).trans (Walk.stopEntry (gone := fun _ => False) d .refl).smalls
  unfold State.entering
  dsimp only
  repeat' split
  all_goals first
    | exact h1
    | exact h1.trans (Walk.consumeIncoming (gone := fun _ => False) _ .refl).smalls

theorem advances_insts (l : List Nat) (i : Nat) {a t u : State} (ht : Smalls a t) (hu : Smalls a u)
    (h : t.rim.insts = u.rim.insts) :
    (l.foldl (fun s e => s.advance i e) t).rim.insts = (l.foldl (fun s e => s.advance i e) u).rim.insts := by
  induction l generalizing t u with
  | nil => exact h
  | cons x l ih =>
    refine ih (ht.advance i x) (hu.advance i x) (advance_insts h ?_ (fun y => ?_) i x)
    · rw [rcat_of_desk ht.desk, rcat_of_desk hu.desk]
    · rw [occ_of_desk ht.desk, occ_of_desk hu.desk]

@[simp] theorem modInst_lkc (s : State) (i : Nat) (f : Inst → Inst) : (s.modInst i f).lkc = s.lkc := by
  unfold State.modInst
  split <;> simp
@[simp] theorem modInst_blc (s : State) (i : Nat) (f : Inst → Inst) : (s.modInst i f).blc = s.blc := by
  unfold State.modInst
  split <;> simp
@[simp] theorem modInst_olc_overrun (s : State) (i : Nat) (f : Inst → Inst) (l : OpLink) :
    ((s.modInst i f).olc.get l).overrun = (s.olc.get l).overrun := by
  unfold State.modInst State.putInst
  (repeat' split) <;> cases l <;> rfl

/-- All that taking a section found not clear can do. -/
theorem advance_cases (s : State) (i e : Nat) : s.advance i e = s ∨ ∃ f, s.advance i e = s.modInst i f := by
  unfold State.advance State.seqFault
  dsimp only
  (repeat' split) <;> first | exact Or.inl rfl | exact Or.inr ⟨_, rfl⟩

theorem advances_keep {β : Type} (g : State → β) (hg : ∀ (s : State) (i : Nat) f, g (s.modInst i f) = g s) (s : State)
    (i : Nat) (l : List Nat) : g (l.foldl (fun s e => s.advance i e) s) = g s :=
  foldl_keeps s g (fun s e => by
    rcases advance_cases s i e with h | ⟨f, h⟩
    · rw [h]
    · rw [h, hg]) l

theorem sectionsAhead_of_occ {t : State} (h : ∀ x, t.occ x = s.occ x) (d : RouteDef) :
    t.sectionsAhead d = s.sectionsAhead d := by
  simp [State.sectionsAhead, State.isClear, h]

theorem entering_insts (s : State) (i : Nat) (r : Inst) (d : RouteDef) :
    (s.entering i r d).rim.insts = (s.putInst i (some (r.entered d))).rim.insts := by
  unfold State.entering
  dsimp only
  (repeat' split) <;> simp [stopEntry_rim]

/-- The overrun record of a train's entry, where there is one. -/
def State.overrunAtEntry (s : State) (i : Nat) (r : Inst) (d : RouteDef) (o : Bool) : State :=
  if o then s.recordOverrun ⟨i, r.route, .pastStop, pathSect d 1⟩ else s

theorem overrunAtEntry_lkc (s : State) (i : Nat) (r : Inst) (d : RouteDef) (o : Bool) :
    (s.overrunAtEntry i r d o).lkc = s.lkc := by
  unfold State.overrunAtEntry
  split <;> rfl
theorem overrunAtEntry_blc (s : State) (i : Nat) (r : Inst) (d : RouteDef) (o : Bool) :
    (s.overrunAtEntry i r d o).blc = s.blc := by
  unfold State.overrunAtEntry
  split <;> rfl

theorem trainEntry_eq (o : Bool) :
    s.trainEntry i r d o =
      ((((s.sectionsAhead d).foldl (fun s e => s.advance i e) (s.entering i r d)).overrunAtEntry i r d o).modInst i
          (fun r => if r.state == .inUse then startOverlap d r else r)).mark (.element d.entry) := by
  have h : (s.entering i r d).sectionsAhead d = s.sectionsAhead d :=
    sectionsAhead_of_occ (fun x => occ_of_desk (Smalls.refl.entering i r d).desk x) d
  rw [← h]
  rfl

/-- The instance after the entry: what steps 1 and 3 write, advanced by the sections ahead, the overlap timer started. -/
theorem trainEntry_inst (o : Bool) :
    (s.trainEntry i r d o).inst i =
      (((s.sectionsAhead d).foldl (fun s e => s.advance i e) (s.putInst i (some (r.entered d)))).inst i).map
        fun r => if r.state == .inUse then startOverlap d r else r := by
  have h1 := advances_insts (s.sectionsAhead d) i (Smalls.refl.entering i r d) (.tail .refl (.inst s i (some (r.entered d))))
    (entering_insts s i r d)
  have h2 : (((s.sectionsAhead d).foldl (fun s e => s.advance i e) (s.entering i r d)).overrunAtEntry i r d o).rim.insts =
      ((s.sectionsAhead d).foldl (fun s e => s.advance i e) (s.putInst i (some (r.entered d)))).rim.insts := by
    rw [← h1]
    unfold State.overrunAtEntry
    split <;> rfl
  rw [trainEntry_eq, inst_mark, inst_modInst_map, inst_of_insts h2]

theorem trainEntry_signal (o : Bool) {g : SignalRec} (hb : d.cls ≠ .boundaryIn) (hg : s.signal? d.entry = some g) :
    ∃ g', (s.trainEntry i r d o).signal? d.entry = some g' ∧ g'.commanded = .stop := by
  have h0 : (s.putInst i (some (r.entered d))).signal? d.entry = some g := by
    rw [signal_of_elem] at hg ⊢
    unfold State.elem at hg ⊢
    simpa using hg
  obtain ⟨g', h1, h2⟩ := commandStop_commands h0
  refine ⟨g', ?_, h2⟩
  have h3 : (s.entering i r d).signal? d.entry = some g' := by
    have : s.entering i r d = (s.putInst i (some (r.entered d))).commandStop d.entry := by
      unfold State.entering State.stopEntry
      dsimp only
      (repeat' split) <;> simp_all
    rw [this]
    exact h1
  have h4 : (s.trainEntry i r d o).lkc = (s.entering i r d).lkc := by
    rw [trainEntry_eq]
    rw [mark_lkc, modInst_lkc, overrunAtEntry_lkc, advances_keep State.lkc modInst_lkc]
  rw [signal_of_elem] at h3 ⊢
  unfold State.elem at h3 ⊢
  rw [h4]
  exact h3

@[simp] theorem overrun_mark (s : State) (o : Obj) (l : OpLink) : ((s.mark o).olc.get l).overrun = (s.olc.get l).overrun := by
  cases l <;> rfl

theorem trainEntry_overrun (l : OpLink) :
    ((s.trainEntry i r d true).olc.get l).overrun = some ⟨i, r.route, .pastStop, pathSect d 1⟩ := by
  rw [trainEntry_eq, overrun_mark, modInst_olc_overrun]
  cases l <;> rfl

theorem trainEntry_incoming (o : Bool) {b : BLink} (hb : d.cls = .boundaryIn) (hl : s.entryLink d = some b) :
    ((s.trainEntry i r d o).blcAt b).incoming = (s.blcAt b).incoming.tail := by
  have h4 : (s.trainEntry i r d o).blc = (s.entering i r d).blc := by
    rw [trainEntry_eq]
    rw [mark_blc, modInst_blc, overrunAtEntry_blc, advances_keep State.blc modInst_blc]
  have h5 : s.entering i r d = (s.putInst i (some (r.entered d))).consumeIncoming b := by
    have : (s.putInst i (some (r.entered d))).entryLink d = some b := by
      unfold State.entryLink State.boundary? State.elem at hl ⊢
      simpa using hl
    unfold State.entering State.stopEntry
    simp [hb, this]
  have h6 : ((s.putInst i (some (r.entered d))).blcAt b) = s.blcAt b := by
    unfold State.blcAt
    simp
  unfold State.blcAt
  rw [h4, h5]
  show (State.blcAt _ b).incoming = _
  unfold State.consumeIncoming State.checkLost
  split <;> simp [h6] <;> rfl

theorem tryFree_rows (h : s.inst i = some r) :
    (r.done = true → (s.tryFree i).inst i = none) ∧ (r.done = false → s.tryFree i = s) := by
  constructor <;> intro a <;> simp [State.tryFree, h, a, inst_freeRecord]

/-- A release of path item k moves the pointer on, or with the last item marks the path released (R122, R123). -/
theorem releaseItem_inst (k : Nat) (h : s.inst i = some r) :
    (k = d.path.length → (s.releaseItem i r d k).inst i = some { r with
      pathReleased := true, acceptance := if d.cls == .boundaryOut then .released else r.acceptance })
    ∧ (k ≠ d.path.length → (s.releaseItem i r d k).inst i = some { r with
      releasePtr := k + 1
      highest := if d.cls == .shunt && k + 1 == d.path.length && r.highest == k then d.path.length else r.highest }) := by
  have key : (s.releaseItem i r d k).inst i = (s.inst i).map fun r =>
      if k = d.path.length then
        { r with pathReleased := true, acceptance := if d.cls == .boundaryOut then .released else r.acceptance }
      else
        { r with releasePtr := k + 1
                 highest := if d.cls == .shunt && k + 1 == d.path.length && r.highest == k then d.path.length
                   else r.highest } := by
    unfold State.releaseItem
    dsimp only
    rw [inst_modInst_map, inst_of_insts (releasePathItem_insts _ _ _ _)]
    refine congrArg _ (inst_of_insts ?_ i)
    (repeat' split) <;> simp [gaveUp_rim]
  rw [key, h]
  constructor <;> intro a <;> simp [a]

/-- The handover at the last path item (R178). -/
theorem handOver_rows (s : State) (b : BLink) (n ref : Nat) (hr : (s.blcAt b).outRef n = some ref) :
    ((s.handOver b n).blcAt b).outgoing = (s.blcAt b).outgoing.tail
    ∧ ((s.blcAt b).link = .up → (s.handOver b n).out =
        s.out ++ [.boundary b (.trainHanded ref), .boundary b (.acceptEnd ref)]) := by
  have h0 : ((s.modBlc b fun r => { r with outgoing := r.outgoing.tail }).mark (.boundary b)).blcAt b =
      { s.blcAt b with outgoing := (s.blcAt b).outgoing.tail } := blcAt_modBlc_same s b _
  have h1 : ({ s.blcAt b with outgoing := (s.blcAt b).outgoing.tail } : Blc).outRef n = some ref := hr
  have hs : ∀ (t : State) (x : BoundaryTelegram), ((t.sendHeld b x).blcAt b).outgoing = (t.blcAt b).outgoing := by
    intro t x
    unfold State.sendHeld
    split
    · rfl
    · simp
    · rfl
  have hu : ∀ (t : State) (x : BoundaryTelegram), (t.blcAt b).link = .up →
      t.sendHeld b x = t.send (.boundary b x) := by
    intro t x h
    simp [State.sendHeld, h]
  unfold State.handOver
  dsimp only
  rw [h0, h1]
  dsimp only
  constructor
  · rw [hs, hs, h0]
  · intro hl
    have hl' := (congrArg Blc.link h0).trans hl
    rw [hu _ (.trainHanded ref) hl', hu _ (.acceptEnd ref)]
    · simp [State.modBlc]
    · exact hl'

/-- A SECTION notice taken in IN_USE (R121, R122, R127), and in the states that take none. -/
theorem sectionInUse_rows (h : s.live i = some (r, d)) (x y : Occ) :
    (r.state = .inUse →
      (y ≠ .clear → x = .clear → s.takeSection i e x y = s.advance i e)
      ∧ (y ≠ .clear → x ≠ .clear → s.takeSection i e x y = s)
      ∧ (y = .clear → ¬(overlapSect d = some e ∧ r.overlap = .timing ∧ r.overlapTimer = .stopped) →
        (pathIndex d e = some r.releasePtr → s.takeSection i e x y = State.tryRelease i 13 s)
        ∧ (pathIndex d e ≠ some r.releasePtr → s.takeSection i e x y = s))
      ∧ (y = .clear → overlapSect d = some e → r.overlap = .timing → r.overlapTimer = .stopped →
        pathIndex d e ≠ some r.releasePtr →
        s.takeSection i e x y = s.putInst i (some { r with overlapTimer := .running d.overlapTime })))
    ∧ (r.state = .cancelling →
      (pathIndex d e = some 1 → y ≠ .clear → s.takeSection i e x y = s.trainEntry i r d true)
      ∧ (pathIndex d e ≠ some 1 ∨ y = .clear → s.takeSection i e x y = s))
    ∧ (r.state = .seqFault ∨ r.state = .emergency → s.takeSection i e x y = s) := by
  have hi := inst_of_live h
  refine ⟨fun a => ⟨fun b c => ?_, fun b c => ?_, fun b c => ⟨fun f => ?_, fun f => ?_⟩, fun b c f g k => ?_⟩,
    fun a => ⟨fun b c => ?_, fun b => ?_⟩, fun a => ?_⟩
  · simp [State.takeSection, h, a, State.sectionInUse, b, c]
  · simp [State.takeSection, h, a, State.sectionInUse, b, c]
  · have g : (overlapSect d == some e && r.overlap == .timing && r.overlapTimer == .stopped) = false := by
      simpa [and_assoc] using c
    simp [State.takeSection, h, a, State.sectionInUse, b, g, f]
  · have g : (overlapSect d == some e && r.overlap == .timing && r.overlapTimer == .stopped) = false := by
      simpa [and_assoc] using c
    simp [State.takeSection, h, a, State.sectionInUse, b, g, f]
  · simp [State.takeSection, h, a, State.sectionInUse, b, c, f, g, k, modInst_of _ hi]
  · simp [State.takeSection, h, a, b, c]
  · simp only [State.takeSection, h, a]
    rcases b with b | b <;> simp [b]
  · rcases a with a | a <;> simp [State.takeSection, h, a]

/-- OVERLAP_TRANSFERRED (R128). -/
theorem takeTransferred_rows (h : s.inst i = some r) :
    ((r.state = .cleared ∨ r.state = .inUse) → r.overlapHeld = true → s.takeTransferred i =
      (s.putInst i (some { r with overlap := .released, overlapTimer := .stopped })).tryFree i)
    ∧ (¬((r.state = .cleared ∨ r.state = .inUse) ∧ r.overlapHeld = true) → s.takeTransferred i = s) := by
  constructor
  · intro a b
    have g : ((r.state == .cleared || r.state == .inUse) && r.overlapHeld) = true := by simpa [b] using a
    simp only [State.takeTransferred, h, g]
    rfl
  · intro a
    have g : ((r.state == .cleared || r.state == .inUse) && r.overlapHeld) = false := by
      rw [Bool.eq_false_iff]
      simpa using a
    simp only [State.takeTransferred, h, g]
    rfl

end Sys2Proof.Machine
end

