-- ==== Sys2Proof/Laws/Claims.lean ====
section
/-! SUPPORT. The making of flank claims in the Flank Claim Table (R103 to R109), one lemma for each row. -/

set_option Elab.async false

namespace Sys2Proof.Machine

variable {s : State} {e : Nat}

/-! ### Claim conditions (R103, R104) -/

theorem freeEntries_ne : 0 < s.freeEntries.length ↔ ∃ n, n < 128 ∧ s.fctEntry n = none := by
  unfold State.freeEntries
  rw [List.length_pos_iff_exists_mem]
  simp [Config.fctCount]

/-- Whether a claim on an element in a state finds room: its entry agrees and has fewer than 8 claimants, or it has none
and one is free. -/
theorem entryRoom_iff (t : FlankTarget) :
    s.entryRoom [] t = true ↔
      (∃ f, s.claim? (s.flankRef (FlankTarget.elem t)) = some f ∧ f.required = FlankTarget.required t ∧ f.claimants.length < 8)
      ∨ (s.claim? (s.flankRef (FlankTarget.elem t)) = none ∧ ∃ n, n < 128 ∧ s.fctEntry n = none) := by
  unfold State.entryRoom
  rw [← freeEntries_ne]
  cases h : s.claim? (s.flankRef (FlankTarget.elem t)) with
  | none => simp
  | some f =>
    simp [Config.maxClaimants] <;> exact fun _ => decide_eq_true_iff

theorem flankRef_point {p : PointRec} (h : s.point? e = some p) : s.flankRef e = p.flankRef := by
  rw [point_of_elem] at h
  simp [State.flankRef, h]

theorem flankRef_signal {g : SignalRec} (h : s.signal? e = some g) : s.flankRef e = g.flankRef := by
  rw [signal_of_elem] at h
  simp [State.flankRef, h]

theorem claimOk_point {p : PointRec} (q : Pos) (nb : Bool) (h : s.point? e = some p) :
    s.claimOk [] (.point e q) nb = true ↔
      ((∃ f, s.claim? p.flankRef = some f ∧ f.required = .pos q ∧ f.claimants.length < 8)
        ∨ (s.claim? p.flankRef = none ∧ ∃ n, n < 128 ∧ s.fctEntry n = none))
      ∧ (p.lock = .empty ∨ p.lockPos = some q)
      ∧ p.failed = false ∧ p.localMode = false ∧ p.suspect = false
      ∧ (p.detection = detectionOf q ∨ (nb = false ∧ s.movable p = true)) := by
  have hr := entryRoom_iff (s := s) (.point e q)
  simp only [FlankTarget.elem, FlankTarget.required, flankRef_point h] at hr
  simp only [State.claimOk, h, Bool.and_eq_true, hr]
  simp [PointRec.flagsClear, and_assoc]

theorem claimOk_signal {g : SignalRec} (nb : Bool) (h : s.signal? e = some g) :
    s.claimOk [] (.signal e) nb = true ↔
      ((∃ f, s.claim? g.flankRef = some f ∧ f.required = .stop ∧ f.claimants.length < 8)
        ∨ (s.claim? g.flankRef = none ∧ ∃ n, n < 128 ∧ s.fctEntry n = none))
      ∧ (∀ i r, g.entrySlot = .held i → s.inst i = some r → r.state ≠ .clearing ∧ r.state ≠ .cleared)
      ∧ g.suspect = false ∧ (nb = true → g.shown = .stop ∧ g.commanded = .stop) := by
  have hr := entryRoom_iff (s := s) (.signal e)
  simp only [FlankTarget.elem, FlankTarget.required, flankRef_signal h] at hr
  have he : s.entryAllowsClaim g = true ↔
      ∀ i r, g.entrySlot = .held i → s.inst i = some r → r.state ≠ .clearing ∧ r.state ≠ .cleared := by
    unfold State.entryAllowsClaim Slot.owner
    cases hs : g.entrySlot with
    | held i =>
      cases hi : s.inst i with
      | none =>
        simp only [Option.bind_some, hi, true_iff]
        rintro j r ⟨⟩ h
        rw [hi] at h
        cases h
      | some r =>
        simp only [Option.bind_some, hi]
        constructor
        · rintro h j x ⟨⟩ hx
          rw [hi] at hx
          cases hx
          simpa using h
        · intro h
          simpa using h i r rfl hi
    | _ => simp
  simp only [State.claimOk, h, Bool.and_eq_true, hr, he, and_assoc]
  cases nb <;> simp

/-- A target whose element is no point, or no signal, is never claimed. -/
theorem claimOk_none (chosen : List FlankTarget) (q : Pos) (nb : Bool) :
    (s.point? e = none → s.claimOk chosen (.point e q) nb = false)
    ∧ (s.signal? e = none → s.claimOk chosen (.signal e) nb = false) := by
  constructor <;> intro h <;> simp [State.claimOk, h]

/-! ### A claim taken (R105) -/

theorem fctEntry_putFct_same (n : Nat) (v : Option FctEntry) (h : n < 128) : (s.putFct n v).fctEntry n = v :=
  getD_set_same _ _ _ _ h

theorem fctEntry_putFct_ne (n m : Nat) (v : Option FctEntry) (h : n ≠ m) : (s.putFct n v).fctEntry m = s.fctEntry m :=
  getD_set_ne _ _ _ _ _ h

theorem mem_addMark (o : Obj) (l : List Obj) : o ∈ addMark o l := by
  unfold addMark
  split
  · rename_i h
    simpa using h
  · simp

theorem mem_mark (s : State) (o : Obj) (l : OpLink) : o ∈ ((s.mark o).olc.get l).marks := by
  cases l
  · exact mem_addMark o s.olc.olC.marks
  · exact mem_addMark o s.olc.olL.marks

theorem filter_range_first {p : Nat → Bool} {n k : Nat} (hn : n < k) (hp : p n = true)
    (hm : ∀ m, m < n → p m = false) : ∃ rest, (List.range k).filter p = n :: rest := by
  obtain ⟨j, rfl⟩ : ∃ j, k = n + (j + 1) := ⟨k - n - 1, by omega⟩
  have h3 : (List.range n).filter p = [] := by
    rw [List.filter_eq_nil_iff]
    intro m hm'
    simp [hm m (List.mem_range.1 hm')]
  rw [List.range_add, List.filter_append, h3, List.nil_append, List.range_succ_eq_map, List.map_cons, Nat.add_zero,
    List.filter_cons_of_pos hp]
  exact ⟨_, rfl⟩

theorem lt_of_record (h : s.point? e ≠ none ∨ s.signal? e ≠ none) : e < 256 := by
  rcases h with h | h
  · obtain ⟨p, h⟩ := Option.ne_none_iff_exists'.1 h
    exact lt_of_point h
  · obtain ⟨p, h⟩ := Option.ne_none_iff_exists'.1 h
    exact lt_of_signal h

/-- The flank reference of a point or signal written, and nothing else of any record. -/
theorem setFlankRef_rows (v : Option Nat) (h : s.point? e ≠ none ∨ s.signal? e ≠ none) :
    (s.setFlankRef e v).flankRef e = v ∧ (∀ x, x ≠ e → (s.setFlankRef e v).elem x = s.elem x)
    ∧ (s.setFlankRef e v).lkc.fct = s.lkc.fct := by
  have hl := lt_of_record h
  have hput : ∀ t r, (State.putElem t e r).lkc.fct = t.lkc.fct := by
    intro t r
    unfold State.putElem
    split <;> rfl
  rcases h with h | h
  · obtain ⟨p, h⟩ := Option.ne_none_iff_exists'.1 h
    rw [point_of_elem] at h
    have e0 : s.setFlankRef e v = s.putElem e (.point { p with flankRef := v }) := by simp [State.setFlankRef, h]
    rw [e0]
    refine ⟨?_, fun x k => elem_putElem_ne _ _ _ _ (Ne.symm k), hput _ _⟩
    simp [State.flankRef, elem_putElem_same _ _ _ hl]
  · obtain ⟨p, h⟩ := Option.ne_none_iff_exists'.1 h
    rw [signal_of_elem] at h
    have e0 : s.setFlankRef e v = s.putElem e (.signal { p with flankRef := v }) := by simp [State.setFlankRef, h]
    rw [e0]
    refine ⟨?_, fun x k => elem_putElem_ne _ _ _ _ (Ne.symm k), hput _ _⟩
    simp [State.flankRef, elem_putElem_same _ _ _ hl]

theorem takeClaim_new (c : Claimant) (t : FlankTarget) (n : Nat)
    (he : s.point? (FlankTarget.elem t) ≠ none ∨ s.signal? (FlankTarget.elem t) ≠ none)
    (hr : s.flankRef (FlankTarget.elem t) = none)
    (hn : n < 128) (hf : s.fctEntry n = none) (hl : ∀ m, m < n → s.fctEntry m ≠ none) :
    (s.takeClaim c t).fctEntry n = some ⟨FlankTarget.elem t, FlankTarget.required t, [c]⟩
    ∧ (s.takeClaim c t).flankRef (FlankTarget.elem t) = some n
    ∧ (∀ m, m ≠ n → (s.takeClaim c t).fctEntry m = s.fctEntry m)
    ∧ (∀ x, x ≠ FlankTarget.elem t → (s.takeClaim c t).elem x = s.elem x)
    ∧ ∀ l, .element (FlankTarget.elem t) ∈ ((s.takeClaim c t).olc.get l).marks := by
  obtain ⟨rest, hfree⟩ : ∃ rest, s.freeEntries = n :: rest :=
    filter_range_first (p := fun n => (s.fctEntry n).isNone) hn (by simp [hf]) fun m k => by
      simpa [Option.isSome_iff_ne_none] using hl m k
  have e0 : s.takeClaim c t =
      ((s.putFct n (some ⟨FlankTarget.elem t, FlankTarget.required t, [c]⟩)).setFlankRef (FlankTarget.elem t)
        (some n)).mark (.element (FlankTarget.elem t)) := by
    simp [State.takeClaim, hr, hfree]
  obtain ⟨h1, h2, h3⟩ := setFlankRef_rows (s := s.putFct n (some ⟨FlankTarget.elem t, FlankTarget.required t, [c]⟩))
    (some n) he
  have h4 : ∀ m, (s.takeClaim c t).fctEntry m =
      (s.putFct n (some ⟨FlankTarget.elem t, FlankTarget.required t, [c]⟩)).fctEntry m := by
    intro m
    rw [e0]
    unfold State.fctEntry
    rw [mark_lkc, h3]
  refine ⟨?_, ?_, fun m k => ?_, fun x k => ?_, fun l => ?_⟩
  · rw [h4, fctEntry_putFct_same _ _ hn]
  · rw [e0]
    exact h1
  · rw [h4, fctEntry_putFct_ne _ _ _ (Ne.symm k)]
  · rw [e0]
    exact h2 x k
  · rw [e0]
    exact mem_mark _ _ l

theorem takeClaim_joins (c : Claimant) (t : FlankTarget) (n : Nat) (f : FctEntry) (hr : s.flankRef (FlankTarget.elem t) = some n)
    (hf : s.fctEntry n = some f) :
    (c ∈ f.claimants → s.takeClaim c t = s)
    ∧ (c ∉ f.claimants →
      (s.takeClaim c t).fctEntry n = some { f with claimants := f.claimants ++ [c] }
      ∧ (∀ m, m ≠ n → (s.takeClaim c t).fctEntry m = s.fctEntry m)
      ∧ (∀ x, (s.takeClaim c t).elem x = s.elem x)
      ∧ ∀ l, .element (FlankTarget.elem t) ∈ ((s.takeClaim c t).olc.get l).marks) := by
  have hn : n < 128 := by
    by_cases k : n < 128
    · exact k
    · simp [State.fctEntry, Vector.getD, k] at hf
  constructor <;> intro k
  · simp [State.takeClaim, hr, hf, k]
  · have e0 : s.takeClaim c t =
        (s.putFct n (some { f with claimants := f.claimants ++ [c] })).mark (.element (FlankTarget.elem t)) := by
      simp [State.takeClaim, hr, hf, k]
    rw [e0]
    refine ⟨fctEntry_putFct_same _ _ hn, fun m h => fctEntry_putFct_ne _ _ _ (Ne.symm h), fun x => rfl, fun l => mem_mark _ _ l⟩

/-! ### The alternative chosen (R107) and late substitution (R109) -/

theorem find_first {α : Type} {P : α → Bool} (pre : List α) (x : α) (post : List α) (k : Nat)
    (hp : ∀ y ∈ pre, P y = false) (hx : P x = true) :
    ((List.range' k (pre ++ x :: post).length).zip (pre ++ x :: post)).find? (fun p => P p.2) = some (k + pre.length, x) := by
  induction pre generalizing k with
  | nil => simp [List.range'_succ, hx]
  | cons y pre ih =>
    have h1 := ih (k + 1) fun z hz => hp z (List.mem_cons_of_mem _ hz)
    have h2 := hp y List.mem_cons_self
    simp only [List.cons_append, List.length_cons, List.range'_succ, List.zip_cons_cons, List.find?_cons, h2]
    rw [h1]
    simp only [Option.some.injEq, Prod.mk.injEq, and_true]
    omega

theorem find_never {α : Type} {P : α → Bool} (l : List α) (k : Nat) (hp : ∀ y ∈ l, P y = false) :
    ((List.range' k l.length).zip l).find? (fun p => P p.2) = none := by
  rw [List.find?_eq_none]
  intro p hm
  simp [hp p.2 (List.of_mem_zip hm).2]

theorem findSome_of_find {α β : Type} (l : List α) (P : α → Bool) (f : α → β) :
    l.findSome? (fun p => if P p then some (f p) else none) = (l.find? P).map f := by
  induction l with
  | nil => rfl
  | cons x l ih =>
    rw [List.findSome?_cons, List.find?_cons]
    cases h : P x <;> simp [ih]

theorem chooseFlank_rows (chosen : List FlankTarget) (f : FlankItem) :
    (∀ t, s.primaryOk chosen f.primary = true → f.primary = .claim t → s.chooseFlank chosen f = some (0, some t))
    ∧ (∀ b ref, s.primaryOk chosen f.primary = true → f.primary = .boundary b ref →
      s.chooseFlank chosen f = some (0, none))
    ∧ (∀ pre t post, s.primaryOk chosen f.primary = false → f.subs = pre ++ t :: post →
      (∀ x ∈ pre, s.claimOk chosen x false = false) → s.claimOk chosen t false = true →
      s.chooseFlank chosen f = some (pre.length + 1, some t))
    ∧ (s.primaryOk chosen f.primary = false → (∀ x ∈ f.subs, s.claimOk chosen x false = false) →
      s.chooseFlank chosen f = none) := by
  have e0 : s.primaryOk chosen f.primary = false → s.chooseFlank chosen f =
      (((List.range' 1 f.subs.length).zip f.subs).find? fun p => s.claimOk chosen p.2 false).map
        fun p => (p.1, some p.2) := by
    intro h
    rw [← findSome_of_find]
    simp only [State.chooseFlank, h]
    rfl
  refine ⟨fun t h k => ?_, fun b ref h k => ?_, fun pre t post h k a b => ?_, fun h k => ?_⟩
  · rw [k] at h
    simp [State.chooseFlank, h, k]
  · rw [k] at h
    simp [State.chooseFlank, h, k]
  · rw [e0 h, k, find_first (P := fun x => s.claimOk chosen x false) pre t post 1 a b]
    simp [Nat.add_comm]
  · rw [e0 h, find_never (P := fun x => s.claimOk chosen x false) f.subs 1 k]
    rfl

theorem lateSubstitute_rows {i m : Nat} {r : Inst} {d : RouteDef} {f : FlankItem} (h : s.live i = some (r, d))
    (hl : r.state = .locking) (ha : (r.flank[m - 1]?).any (fun c => c.status == .asking) = true)
    (hf : d.flank[m - 1]? = some f) :
    (∀ pre t post, f.subs = pre ++ t :: post → (∀ x ∈ pre, s.claimOk [] x false = false) →
      s.claimOk [] t false = true →
      let s1 : State := ((s.takeClaim (.route i m) t).throwClaimed t).modInst i fun r =>
        { r with flank := r.flank.set (m - 1) ⟨pre.length + 1, .claimed⟩ }
      (s.inState t = true → s.lateSubstitute i m = s1.unwait i (· == .asking m))
      ∧ (s.inState t = false → s.lateSubstitute i m =
          (s1.modInst i (joinWaits d [.flank m (FlankTarget.elem t)])).unwait i (· == .asking m)))
    ∧ ((∀ x ∈ f.subs, s.claimOk [] x false = false) →
      s.lateSubstitute i m = s.settingFails i .flank (s.primaryElem f.primary)) := by
  have g : (r.state == .locking && (r.flank[m - 1]?).any fun c => c.status == .asking) = true := by simp [hl, ha]
  constructor
  · intro pre t post hs hp ht
    have hfind := find_first (P := fun x => s.claimOk [] x false) pre t post 1 hp ht
    rw [Nat.add_comm] at hfind
    constructor <;> intro hi
    · simp only [State.lateSubstitute, h, g, hf, Option.map_some, Option.getD_some, hs, indexFrom1, hfind, hi]
      rfl
    · simp only [State.lateSubstitute, h, g, hf, Option.map_some, Option.getD_some, hs, indexFrom1, hfind, hi]
      rfl
  · intro hp
    have hfind := find_never (P := fun x => s.claimOk [] x false) f.subs 1 hp
    simp only [State.lateSubstitute, h, g, hf, Option.map_some, Option.getD_some, indexFrom1, hfind, State.itemBoundary,
      State.waitElem]
    rfl

end Sys2Proof.Machine
end

