-- ==== Sys2Proof/Laws/Authority.lean ====
section
/-! SUPPORT. A change of holder (R153, R145, R77): the store, the removal record, the selection and the marks it leaves. -/

set_option Elab.async false

namespace Sys2Proof.Machine

theorem mem_addMark_iff (o x : Obj) (l : List Obj) : x ∈ addMark o l ↔ x ∈ l ∨ x = o := by
  unfold addMark
  split
  · rename_i h
    have : o ∈ l := by simpa using h
    exact ⟨.inl, fun h => h.elim id fun e => e ▸ this⟩
  · simp

theorem marks_mark_iff (s : State) (o x : Obj) (l : OpLink) :
    x ∈ ((s.mark o).olc.get l).marks ↔ x ∈ (s.olc.get l).marks ∨ x = o := by
  cases l <;> exact mem_addMark_iff o x _

theorem marks_markAt_iff (s : State) (k l : OpLink) (o x : Obj) :
    x ∈ ((s.markAt k o).olc.get l).marks ↔ x ∈ (s.olc.get l).marks ∨ (x = o ∧ l = k) := by
  by_cases h : l = k
  · subst h
    have : ((s.markAt l o).olc.get l).marks = addMark o (s.olc.get l).marks := by cases l <;> rfl
    rw [this, mem_addMark_iff]
    simp
  · have : ((s.markAt k o).olc.get l) = s.olc.get l := modOlc_get_other s k l _ h
    rw [this]
    simp [h]

/-- A state that differs from another in the marks of its links alone, as far as the links go. -/
def MarksOnly (s t : State) : Prop := ∀ l, t.olc.get l = { s.olc.get l with marks := (t.olc.get l).marks }

theorem MarksOnly.refl (s : State) : MarksOnly s s := fun _ => rfl

theorem MarksOnly.trans {a b c : State} (h : MarksOnly a b) (k : MarksOnly b c) : MarksOnly a c := fun l => by
  rw [k l, h l]

theorem marksOnly_mark (s : State) (o : Obj) : MarksOnly s (s.mark o) := fun l => by cases l <;> rfl

theorem marksOnly_markAt (s : State) (k : OpLink) (o : Obj) : MarksOnly s (s.markAt k o) := fun l => by
  cases l <;> cases k <;> rfl

/-! ### The store -/

/-- Several entries of one link removed in turn, with one reason: the store without them, and the removal record of the
last. -/
theorem removeEntries (l : OpLink) (why : RemovalReason) (es : List StoreEntry) : ∀ (s : State), (∀ e ∈ es, e.link = l) →
    let t := es.foldl (fun s e => s.removeEntry e why) s
    t.rqs = { s.rqs with
        store := s.rqs.store.filter fun x => es.all fun e => x.route != e.route
        removal := match es.getLast? with
          | none => s.rqs.removal
          | some e => s.rqs.removal.set l (some ⟨e.route, why⟩) }
      ∧ t = { s with rqs := t.rqs, olc := t.olc } ∧ MarksOnly s t
      ∧ ∀ k o, o ∈ (t.olc.get k).marks ↔ o ∈ (s.olc.get k).marks ∨ (o = .store ∧ es ≠ []) := by
  induction es with
  | nil =>
    intro s _
    have h : s.rqs.store.filter (fun _ => true) = s.rqs.store := List.filter_eq_self.2 fun _ _ => rfl
    exact ⟨by simp [h], rfl, .refl s, by simp⟩
  | cons e es ih =>
    intro s h
    obtain ⟨h1, h2, h3, h4⟩ := ih (s.removeEntry e why) fun x hx => h x (List.mem_cons_of_mem _ hx)
    have hl : e.link = l := h e List.mem_cons_self
    refine ⟨?_, ?_, ?_, ?_⟩
    · rw [List.foldl_cons, h1]
      have hr : (s.removeEntry e why).rqs = { s.rqs with
          store := s.rqs.store.filter (fun (x : StoreEntry) => x.route != e.route)
          removal := s.rqs.removal.set l (some ⟨e.route, why⟩) } := by rw [← hl]; rfl
      rw [hr]
      simp only [List.filter_filter]
      congr 1
      · congr 1
        funext x
        simp [Bool.and_comm]
      · cases hg : es.getLast? with
        | none =>
          have : es = [] := by simpa using hg
          subst this; rfl
        | some y =>
          have : (e :: es).getLast? = some y := by rw [List.getLast?_cons, hg]; rfl
          rw [this]
          cases l <;> rfl
    · rw [List.foldl_cons, h2]; rfl
    · rw [List.foldl_cons]
      exact MarksOnly.trans (marksOnly_mark _ _) h3
    · intro k o
      rw [List.foldl_cons, h4]
      have := marks_mark_iff ({ s with rqs := (s.removeEntry e why).rqs } : State) .store o k
      rw [show s.removeEntry e why = ({ s with rqs := (s.removeEntry e why).rqs } : State).mark .store from rfl, this]
      show (o ∈ (s.olc.get k).marks ∨ o = .store) ∨ _ ↔ _
      constructor
      · rintro ((h | h) | ⟨h, _⟩)
        · exact .inl h
        · exact .inr ⟨h, by simp⟩
        · exact .inr ⟨h, by simp⟩
      · rintro (h | ⟨h, _⟩)
        · exact .inl (.inl h)
        · exact .inl (.inr h)

/-- With no route number twice in a list, two entries of one number are one entry. -/
theorem entry_of_route {l : List StoreEntry} (h : (l.map StoreEntry.route).Nodup) {x e : StoreEntry} (hx : x ∈ l)
    (he : e ∈ l) (k : x.route = e.route) : x = e := by
  induction l with
  | nil => simp at hx
  | cons y l ih =>
    obtain ⟨h1, h2⟩ := List.nodup_cons.1 h
    rcases List.mem_cons.1 hx with rfl | hm <;> rcases List.mem_cons.1 he with rfl | hn
    · rfl
    · exact absurd (k ▸ List.mem_map_of_mem hn) h1
    · exact absurd (k ▸ List.mem_map_of_mem hm) h1
    · exact ih h2 hm hn

/-- With no route number twice in a list, the numbers of the entries that satisfy a test single them out. -/
theorem filter_routes {l : List StoreEntry} (p : StoreEntry → Bool) (h : (l.map StoreEntry.route).Nodup) :
    l.filter (fun x => (l.filter p).all fun e => x.route != e.route) = l.filter fun x => !p x := by
  apply List.filter_congr
  intro x hx
  cases hp : p x with
  | true =>
    simp only [Bool.not_true, List.all_eq_false]
    exact ⟨x, List.mem_filter.2 ⟨hx, hp⟩, by simp⟩
  | false =>
    simp only [Bool.not_false, List.all_eq_true]
    intro e he
    obtain ⟨he, hq⟩ := List.mem_filter.1 he
    have : x.route ≠ e.route := fun k => by
      have := entry_of_route h hx he k
      rw [this, hq] at hp
      exact Bool.noConfusion hp
    simpa using this

/-- A change of holder (R153) with the old holder's stored entries (R145) and its press selection (R77). -/
theorem changeHolder_rows (s : State) (a : Nat) (new : Holder) (ha : a ≤ 15) (hn : (s.rqs.store.map StoreEntry.route).Nodup) :
    let t := s.changeHolder a new
    let r : Area := ⟨new, .stopped, if new = .centre then (s.areaRec a).force else .stopped⟩
    t.areaRec a = r ∧ (∀ x, x ≠ a → t.areaRec x = s.areaRec x)
      ∧ (∀ l, linkOf (s.areaRec a).holder = some l →
          let leaves := s.rqs.store.filter fun e => e.link == l && e.area == a && !e.lifted
          let selected := (s.rim.sel.get l).any fun v => (s.elem v.signal).area? == some a
          t.rqs = { s.rqs with
              store := s.rqs.store.filter fun e => !(e.link == l && e.area == a && !e.lifted)
              removal := match leaves.getLast? with
                | none => s.rqs.removal
                | some e => s.rqs.removal.set l (some ⟨e.route, .authorityLost⟩) }
            ∧ t.rim = { s.rim with sel := if selected then s.rim.sel.set l none else s.rim.sel }
            ∧ ∀ k o, o ∈ (t.olc.get k).marks ↔ o ∈ (s.olc.get k).marks ∨ (o = .area a ∧ s.areaRec a ≠ r)
                ∨ (o = .store ∧ leaves ≠ []) ∨ (o = .partStatus ∧ k = l ∧ selected = true))
      ∧ ((s.areaRec a).holder = .none → t.rqs = s.rqs ∧ t.rim = s.rim
          ∧ ∀ k o, o ∈ (t.olc.get k).marks ↔ o ∈ (s.olc.get k).marks ∨ (o = .area a ∧ s.areaRec a ≠ r))
      ∧ t = { s with aum := t.aum, rqs := t.rqs, rim := t.rim, olc := t.olc }
      ∧ ∀ l, t.olc.get l = { s.olc.get l with marks := (t.olc.get l).marks } := by
  intro t r
  let s1 : State := s.putArea a r
  have hr : s.putArea a ⟨new, .stopped, if new == .centre then (s.areaRec a).force else .stopped⟩ = s1 := by
    simp [s1, r]
  have p1 : s1 = { s with aum := s1.aum, olc := s1.olc } := by
    show s.putArea a r = { s with aum := (s.putArea a r).aum, olc := (s.putArea a r).olc }
    unfold State.putArea
    split <;> rfl
  have p2 : MarksOnly s s1 := by
    show MarksOnly s (s.putArea a r)
    unfold State.putArea
    split
    · exact .refl s
    · exact marksOnly_mark _ _
  have p3 : ∀ k o, o ∈ (s1.olc.get k).marks ↔ o ∈ (s.olc.get k).marks ∨ (o = .area a ∧ s.areaRec a ≠ r) := by
    intro k o
    show o ∈ ((s.putArea a r).olc.get k).marks ↔ _
    unfold State.putArea
    split
    · rename_i h; simp [h]
    · rename_i h
      rw [marks_mark_iff]
      simp [h]
  have a1 : s1.areaRec a = r := areaRec_putArea_same s a r (by omega)
  have a2 : ∀ x, x ≠ a → s1.areaRec x = s.areaRec x := fun x hx => areaRec_putArea_ne s a x r (Ne.symm hx)
  cases hh : linkOf (s.areaRec a).holder with
  | none =>
    have ht : t = s1 := by
      show s.changeHolder a new = s1
      unfold State.changeHolder
      simp only [hh, hr]
    rw [ht]
    refine ⟨a1, a2, fun l h => by simp at h, fun _ => ⟨?_, ?_, p3⟩, ?_, p2⟩
    · rw [p1]
    · rw [p1]
    · have q1 : s1.rqs = s.rqs := by rw [p1]
      have q2 : s1.rim = s.rim := by rw [p1]
      rw [q1, q2]
      exact p1
  | some l =>
    have hne : (s.areaRec a).holder ≠ .none := fun h => by simp [h, linkOf] at hh
    have ht : t = (s1.dropAuthority l a).clearSelection l a := by
      show s.changeHolder a new = _
      unfold State.changeHolder
      simp only [hh, hr]
    have q1 : s1.rqs = s.rqs := by rw [p1]
    have q2 : s1.rim = s.rim := by rw [p1]
    let leaves := s.rqs.store.filter fun e => e.link == l && e.area == a && !e.lifted
    have hd : s1.dropAuthority l a = leaves.foldl (fun s e => s.removeEntry e .authorityLost) s1 := by
      unfold State.dropAuthority; rw [q1]
    obtain ⟨d1, d2, d3, d4⟩ := removeEntries l .authorityLost leaves s1 fun e he => by
      have := (List.mem_filter.1 he).2
      simp at this
      exact this.1.1
    rw [← hd] at d1 d2 d3 d4
    let s2 : State := s1.dropAuthority l a
    have e1 : s2.rqs = { s.rqs with
        store := s.rqs.store.filter fun e => !(e.link == l && e.area == a && !e.lifted)
        removal := match leaves.getLast? with
          | none => s.rqs.removal
          | some e => s.rqs.removal.set l (some ⟨e.route, .authorityLost⟩) } := by
      show (s1.dropAuthority l a).rqs = _
      rw [d1, q1]
      have hf := filter_routes (fun e => e.link == l && e.area == a && !e.lifted) hn
      simp only [leaves] at hf ⊢
      rw [hf]
    have e2 : s2.rim = s.rim := by
      show (s1.dropAuthority l a).rim = _
      rw [d2]; exact q2
    have e3 : s2.lkc = s.lkc := by
      show (s1.dropAuthority l a).lkc = _
      rw [d2]; show s1.lkc = _; rw [p1]
    have e4 : s2.aum = s1.aum := by
      show (s1.dropAuthority l a).aum = _
      rw [d2]
    let selected := (s.rim.sel.get l).any fun v => (s.elem v.signal).area? == some a
    have hc : t = if selected = true then
        ({ s2 with rim := { s2.rim with sel := s2.rim.sel.set l none } } : State).markAt l .partStatus else s2 := by
      rw [ht]
      show s2.clearSelection l a = _
      unfold State.clearSelection State.elem
      rw [e2, e3]
      cases hs : s.rim.sel.get l with
      | none => simp [selected, hs]
      | some v =>
        by_cases hv : (s.elem v.signal).area? = some a
        · have hq : selected = true := by simp [selected, hs, hv]
          have hv2 : (s.lkc.elements.getD v.signal .unconfigured).area? = some a := hv
          simp only [hv2, if_true, hq]
          unfold State.putSel
          rw [if_neg (by rw [e2, hs]; simp), e2, e3]
        · have hq : ¬ selected = true := by simp [selected, hs, hv]
          have hv2 : ¬ (s.lkc.elements.getD v.signal .unconfigured).area? = some a := hv
          rw [if_neg hq]
          simp only [hv2, if_false]
    have f1 : t.aum = s1.aum := by rw [hc]; split <;> simp [e4]
    have f2 : ∀ x, t.areaRec x = s1.areaRec x := fun x => by unfold State.areaRec; rw [f1]
    have f3 : t.rqs = s2.rqs := by rw [hc]; split <;> rfl
    have f4 : t.rim = { s.rim with sel := if selected then s.rim.sel.set l none else s.rim.sel } := by
      rw [hc]
      split
      · rename_i h; simp [e2]
      · rename_i h; simp [e2]
    have f5 : MarksOnly s2 t := by
      rw [hc]
      split
      · exact marksOnly_markAt _ _ _
      · exact .refl _
    refine ⟨by rw [f2]; exact a1, fun x hx => by rw [f2]; exact a2 x hx, fun k hk => ?_, fun h => absurd h hne, ?_, ?_⟩
    · obtain rfl : l = k := by simpa using hk
      refine ⟨by rw [f3]; exact e1, f4, fun k o => ?_⟩
      have g2 : o ∈ (t.olc.get k).marks ↔ o ∈ (s2.olc.get k).marks ∨ (o = .partStatus ∧ k = l ∧ selected = true) := by
        rw [hc]
        split
        · rename_i h
          rw [marks_markAt_iff]
          simp [h]
        · rename_i h
          simp [h]
      rw [g2, d4, p3]
      simp only [or_assoc]
      rfl
    · have g1 : s2 = { s with aum := s2.aum, rqs := s2.rqs, olc := s2.olc } := by
        show s1.dropAuthority l a = _
        have p3 : { s1 with rqs := s2.rqs, olc := s2.olc } =
            { s with aum := s2.aum, rqs := s2.rqs, olc := s2.olc } := by rw [e4, p1]
        exact d2.trans p3
      generalize s2 = s2 at hc g1
      rw [hc]
      split
      · rw [g1]; rfl
      · rw [g1]
    · exact (p2.trans d3).trans f5

end Sys2Proof.Machine
end

