-- ==== Sys2Proof/Laws/Reservation.lean ====
section
/-! SUPPORT. What a reservation does to the owners of the locks (R11), and what it leaves as it was. -/

set_option Elab.async false

namespace Sys2Proof.Machine

/-! ### Small writes that take locks -/

namespace Smalls

variable {a s : State}

theorem foldl {α : Type} {f : State → α → State} (hf : ∀ {s : State} (x : α), Smalls a s → Smalls a (f s x)) (l : List α)
    (h : Smalls a s) : Smalls a (l.foldl f s) := by
  induction l generalizing s with
  | nil => exact h
  | cons x l ih => exact ih (hf x h)

theorem setEntry (e : Nat) (f : Slot → Slot) (h : Smalls a s) : Smalls a (s.setEntry e f) := by
  unfold State.setEntry
  split
  · rename_i g hg
    exact h.tail (.elem _ _ _ (by rw [hg]; rfl))
  · rename_i g hg
    exact h.tail (.elem _ _ _ (by rw [hg]; rfl))
  · exact h

theorem setExit (e : Nat) (f : Slot → Slot) (h : Smalls a s) : Smalls a (s.setExit e f) := by
  unfold State.setExit
  split
  · rename_i g hg
    exact h.tail (.elem _ _ _ (by rw [hg]; rfl))
  · rename_i g hg
    exact h.tail (.elem _ _ _ (by rw [hg]; rfl))
  · exact h

theorem lockItem (i : Nat) (role : Role) (it : PathItem) (h : Smalls a s) : Smalls a (State.lockItem i role s it) := by
  unfold State.lockItem
  dsimp only
  refine foldl (fun {x} r hx => ?_) _ ?_
  · split
    · rename_i p hp
      exact hx.tail (.elem _ _ _ (Walk.seen_of_point hp rfl))
    · exact hx
  · split
    · rename_i t ht
      exact h.tail (.elem _ _ _ (Walk.seen_of_track ht rfl))
    · exact h

theorem transferRest (o : Nat) (h : Smalls a s) : Smalls a (s.transferRest o) := by
  unfold State.transferRest
  dsimp only
  refine tail ?_ (.notifyAll _ [.overlapTransferred o])
  split
  · exact h.trans (Walk.releaseNotice (gone := fun _ => False) (Walk.unlockItems (p := (s, false)) o _ .refl)).smalls
  · exact h

end Smalls

/-! ### What leaves the instance records as they were -/

section
variable (s : State)

@[simp] theorem writePoint_rim (e : Nat) (p : PointRec) : (s.writePoint e p).rim = s.rim := by
  unfold State.writePoint
  split <;> simp

@[simp] theorem modPoint_rim (e : Nat) (f : PointRec → PointRec) : (s.modPoint e f).rim = s.rim := by
  unfold State.modPoint
  split <;> simp

@[simp] theorem withdrawThrow_rim (e : Nat) : (s.withdrawThrow e).rim = s.rim := by
  unfold State.withdrawThrow
  (repeat' split) <;> simp

@[simp] theorem endDrive_rim (e : Nat) : (s.endDrive e).rim = s.rim := by simp [State.endDrive]

@[simp] theorem failPoint_rim (e : Nat) : (s.failPoint e).rim = s.rim := by simp [State.failPoint]

@[simp] theorem enqueueThrow_rim (e : Nat) (q : Pos) : (s.enqueueThrow e q).rim = s.rim := by
  unfold State.enqueueThrow
  (repeat' split) <;> simp

theorem throwRequest_rim (e : Nat) (q : Pos) (o : Bool) : (s.throwRequest e q o).1.rim = s.rim := by
  unfold State.throwRequest
  (repeat' split) <;> simp

@[simp] theorem throwClaimed_rim (t : FlankTarget) : (s.throwClaimed t).rim = s.rim := by
  unfold State.throwClaimed
  split
  · split
    · rfl
    · exact throwRequest_rim ..
  · rfl

theorem takeClaim_rim (c : Claimant) (t : FlankTarget) : (s.takeClaim c t).rim = s.rim := by
  unfold State.takeClaim
  dsimp only
  (repeat' split) <;> simp [State.putFct]

theorem claimItem_rim (i : Nat) (p : Nat × (Nat × Option FlankTarget)) : (State.claimItem i s p).rim = s.rim := by
  unfold State.claimItem
  split
  · exact takeClaim_rim ..
  · rfl

theorem sendAsk_rim (b : BLink) (t : BoundaryTelegram) : (s.sendAsk b t).rim = s.rim := by
  unfold State.sendAsk
  split <;> simp [State.flushOne]

theorem askItem_rim (i : Nat) (p : Nat × FlankItem) : (State.askItem i s p).rim = s.rim := by
  unfold State.askItem
  split
  · unfold State.askAssurance
    split
    · rfl
    · rw [sendAsk_rim]
      simp
  · rfl

theorem sendNow_rim (b : BLink) (t : BoundaryTelegram) : (s.sendNow b t).rim = s.rim := by
  unfold State.sendNow
  split <;> rfl

theorem requestDirection_rim (b : BLink) : (s.requestDirection b).rim = s.rim := by
  unfold State.requestDirection State.askDirection
  split
  · rw [sendNow_rim]
    simp
  · rfl

theorem lockItem_rim (i : Nat) (role : Role) (it : PathItem) : (State.lockItem i role s it).rim = s.rim := by
  unfold State.lockItem
  dsimp only
  rw [foldl_keeps _ State.rim (fun s r => by split <;> simp)]
  split <;> simp

theorem transferRest_insts (o : Nat) : (s.transferRest o).rim.insts = s.rim.insts := by
  unfold State.transferRest
  dsimp only
  rw [notify_rim]
  split
  · rw [releaseNotice_insts, foldl_rim (unlockItem_rim o)]
  · rfl

theorem applyReservation_insts (i : Nat) (d : RouteDef) (c : List (Nat × Option FlankTarget)) :
    (s.applyReservation i d c).state.rim.insts = s.rim.insts := by
  unfold State.applyReservation
  dsimp only
  have k := fun {α : Type} (f : State → α → State) (h : ∀ s x, (f s x).rim.insts = s.rim.insts) l (s : State) =>
    foldl_keeps s (fun s : State => s.rim.insts) h l
  rw [k (State.askItem i) fun s x => congrArg Rim.insts (askItem_rim s i x)]
  have h1 : ((d.overlap.toList.foldl (State.lockItem i .overlap) (d.path.foldl (State.lockItem i .path)
      ((s.setEntry d.entry fun _ => .held i).setExit d.exit fun _ => .held i))).rim.insts) = s.rim.insts := by
    rw [k (State.lockItem i .overlap) fun s x => congrArg Rim.insts (lockItem_rim s i _ x),
      k (State.lockItem i .path) fun s x => congrArg Rim.insts (lockItem_rim s i _ x)]
    simp
  have h2 : ∀ u : State, ((c.filterMap Prod.snd).foldl State.throwClaimed (((d.path ++ d.overlap.toList).flatMap
      PathItem.points).foldl State.throwReq ((indexFrom1 c).foldl (State.claimItem i)
      ((s.transferOwners d).foldl State.transferRest u)))).rim.insts = u.rim.insts := fun u => by
    rw [k State.throwClaimed fun s x => congrArg Rim.insts (throwClaimed_rim s x),
      k State.throwReq fun s x => congrArg Rim.insts (throwClaimed_rim s _),
      k (State.claimItem i) fun s x => congrArg Rim.insts (claimItem_rim s i x),
      k State.transferRest fun s x => transferRest_insts s x]
  split
  · rw [requestDirection_rim]
    exact (h2 _).trans h1
  · exact (h2 _).trans h1

end

/-! ### Owners -/

section
variable {s : State} {gone : Nat → Prop} {lv : Nat → Option (Inst × RouteDef)} {i : Nat} {r : Inst} {d : RouteDef}

/-- A record written whose new owners list the slot. -/
theorem State.Owned.fill (e : Nat) (x : Element) (h : s.Owned gone lv)
    (hk : ∀ k j, x.slot k = .held j → (s.elem e).slot k = .held j
      ∨ ∃ r d, lv j = some (r, d) ∧ r.keeps d (¬ gone j) k e)
    (hu : ∀ k, x.slot k = .unknown → (s.elem e).slot k = .unknown) (hs : x.isSuspect = (s.elem e).isSuspect) :
    (s.putElem e x).Owned gone lv := by
  refine ⟨fun k y j hj => ?_, fun k y hy => ?_⟩
  · rcases elem_putElem_cases s e y x with h1 | ⟨rfl, h1⟩
    · exact h.1 k y j (h1 ▸ hj)
    · rw [h1] at hj
      rcases hk k j hj with h2 | h2
      · exact h.1 k y j h2
      · exact h2
  · rcases elem_putElem_cases s e y x with h1 | ⟨rfl, h1⟩
    · rw [h1] at hy ⊢
      exact h.2 k y hy
    · rw [h1] at hy ⊢
      rw [hs]
      exact h.2 k y (hu k hy)

variable (hl : lv i = some (r, d))
include hl

theorem setEntry_owned (e : Nat) (hk : r.keeps d (¬ gone i) .entry e) (h : s.Owned gone lv) :
    (s.setEntry e fun _ => .held i).Owned gone lv := by
  unfold State.setEntry
  split <;> first
    | exact h
    | (rename_i g hg
       refine h.fill e _ (fun k j hj => ?_) (fun k hu => ?_) (by rw [hg]; rfl)
       · rw [hg]
         cases k <;> first
           | exact .inl hj
           | (cases hj; exact .inr ⟨r, d, hl, hk⟩)
       · rw [hg]
         cases k <;> first
           | exact hu
           | cases hu)

theorem setExit_owned (e : Nat) (hk : r.keeps d (¬ gone i) .exit e) (h : s.Owned gone lv) :
    (s.setExit e fun _ => .held i).Owned gone lv := by
  unfold State.setExit
  split <;> first
    | exact h
    | (rename_i g hg
       refine h.fill e _ (fun k j hj => ?_) (fun k hu => ?_) (by rw [hg]; rfl)
       · rw [hg]
         cases k <;> first
           | exact .inl hj
           | (cases hj; exact .inr ⟨r, d, hl, hk⟩)
       · rw [hg]
         cases k <;> first
           | exact hu
           | cases hu)

theorem lockItem_owned (role : Role) (it : PathItem) (hk : ∀ k e, hasSlot it k e → r.keeps d (¬ gone i) k e)
    (h : s.Owned gone lv) : (State.lockItem i role s it).Owned gone lv := by
  unfold State.lockItem
  dsimp only
  have points : ∀ (l : List PointReq) (s : State), (∀ q ∈ l, q ∈ it.points) → s.Owned gone lv →
      (l.foldl (fun (s : State) (q : PointReq) =>
        match s.point? q.point with
        | some p => s.putElem q.point (.point { p with lock := .held i role q.pos })
        | none => s) s).Owned gone lv := by
    intro l
    induction l with
    | nil => intro s _ h; exact h
    | cons q l ih =>
      intro s hm h
      refine ih _ (fun y hy => hm y (List.mem_cons_of_mem _ hy)) ?_
      dsimp only
      split
      · rename_i p hp
        have hg := elem_of_point hp
        refine h.fill _ _ (fun k j hj => ?_) (fun k hu => ?_) (by rw [hg]; rfl)
        · cases k <;> first
            | (cases hj; done)
            | (cases hj
               exact .inr ⟨r, d, hl, hk .point _ (List.mem_map_of_mem (hm q List.mem_cons_self))⟩)
        · cases k <;> cases hu
      · exact h
  refine points it.points _ (fun _ h => h) ?_
  split
  · rename_i t ht
    have hg := elem_of_track ht
    refine h.fill _ _ (fun k j hj => ?_) (fun k hu => ?_) (by rw [hg]; rfl)
    · cases k <;> first
        | (cases hj; done)
        | (cases hj
           exact .inr ⟨r, d, hl, hk .track _ rfl⟩)
    · cases k <;> cases hu
  · exact h

theorem lockItems_owned (role : Role) (l : List PathItem) (hk : ∀ it ∈ l, ∀ k e, hasSlot it k e → r.keeps d (¬ gone i) k e)
    (h : s.Owned gone lv) : (l.foldl (State.lockItem i role) s).Owned gone lv := by
  induction l generalizing s with
  | nil => exact h
  | cons it l ih =>
    exact ih (fun y hy => hk y (List.mem_cons_of_mem _ hy)) (lockItem_owned hl role it (hk it List.mem_cons_self) h)

end

section
variable {s : State} {gone : Nat → Prop} {lv : Nat → Option (Inst × RouteDef)}

/-- What is left of an old owner's overlap is released: its overlap counts no more. -/
theorem transferRest_owned (o : Nat) (ho : lv o = s.live o) (h : s.Owned gone lv) :
    (s.transferRest o).Owned (fun j => gone j ∨ j = o) lv := by
  unfold State.transferRest
  dsimp only
  show State.Owned (match s.live o with
    | some (_, d) => releaseNotice (d.overlap.toList.foldl (State.unlockItem o) (s, false))
    | none => s) _ lv
  cases hl : s.live o with
  | none =>
    refine ⟨fun k e j hj => ?_, h.2⟩
    obtain ⟨r, d, h1, h2⟩ := h.1 k e j hj
    refine ⟨r, d, h1, Inst.keeps_mono (fun hg hc => hc.elim hg fun hj => ?_) h2⟩
    rw [hj, ho, hl] at h1
    cases h1
  | some x =>
    obtain ⟨r, d⟩ := x
    dsimp only
    have hp := Walk.unlockItems_free o d.overlap.toList (s, false)
    have w : Walk gone s (releaseNotice (d.overlap.toList.foldl (State.unlockItem o) (s, false))) :=
      Walk.releaseNotice (Walk.unlockItems o _ .refl)
    have hf : (releaseNotice (d.overlap.toList.foldl (State.unlockItem o) (s, false))).Free o
        fun k e => ∃ it ∈ d.overlap.toList, hasSlot it k e :=
      hp.sheds (Walk.releaseNotice (gone := gone) .refl).sheds
    refine ⟨fun k e j hj => ?_, (h.sheds w.sheds).2⟩
    obtain ⟨r', d', h1, h2⟩ := (h.sheds w.sheds).1 k e j hj
    refine ⟨r', d', h1, ?_⟩
    by_cases hjo : j = o
    · subst hjo
      rw [ho, hl] at h1
      cases h1
      cases k with
      | entry => exact h2
      | exit => exact h2
      | point =>
        refine .inl (h2.resolve_right fun hx => ?_)
        obtain ⟨it, hm, hh⟩ := hx.2.2
        exact hf _ e ⟨it, by simpa using hm, hh⟩ hj
      | track =>
        refine .inl (h2.resolve_right fun hx => ?_)
        obtain ⟨it, hm, hh⟩ := hx.2.2
        exact hf _ e ⟨it, by simpa using hm, hh⟩ hj
    · exact Inst.keeps_mono (fun hg hc => hc.elim hg hjo) h2

theorem transferRests_owned (l : List Nat) (ho : ∀ o ∈ l, lv o = s.live o) (h : s.Owned gone lv) :
    (l.foldl State.transferRest s).Owned (fun j => gone j ∨ j ∈ l) lv := by
  induction l generalizing s gone with
  | nil => exact h.fewer fun j hj => hj.elim id fun hx => (nomatch hx)
  | cons o l ih =>
    have h1 := transferRest_owned o (ho o List.mem_cons_self) h
    have hv : (s.transferRest o).live = s.live :=
      live_congr (transferRest_insts s o) (Smalls.refl.transferRest o).rcat
    refine (ih (fun x hx => by rw [hv]; exact ho x (List.mem_cons_of_mem _ hx)) h1).fewer fun j hj => ?_
    rcases hj with hj | hj
    · exact .inl (.inl hj)
    · rcases List.mem_cons.1 hj with rfl | hj
      · exact .inl (.inr rfl)
      · exact .inr hj

end

/-- The record of an instance whose locks stand already. -/
theorem State.Owned.register {t : State} {gone : Nat → Prop} {i : Nat} {v : Inst} {d : RouteDef} (hi : i < 48)
    (hd : t.routeDef v.route = some d) (h : t.Owned gone fun j => if j = i then some (v, d) else t.live j) :
    (t.putInst i (some v)).Owned gone (t.putInst i (some v)).live := by
  have hl : (t.putInst i (some v)).live = fun j => if j = i then some (v, d) else t.live j := by
    funext j
    rw [live_putInst _ _ _ hi]
    simp [hd]
  rw [hl]
  exact h.sheds fun e => by rw [elem_putInst]; exact .refl _

/-! ### The reservation -/

theorem live_of_owner {s : State} {d : RouteDef} {o : Nat} (h : o ∈ s.transferOwners d) : ∃ x, s.live o = some x := by
  have key : s.transferFrom d o = true → ∃ x, s.live o = some x := fun h => by
    unfold State.transferFrom at h
    split at h
    · exact ⟨_, by assumption⟩
    · cases h
  unfold State.transferOwners at h
  rw [List.mem_eraseDups, List.mem_flatMap] at h
  obtain ⟨it, _, h⟩ := h
  rw [List.mem_append] at h
  rcases h with h | h
  · simp only [Option.mem_toList, Option.bind_eq_some_iff] at h
    obtain ⟨t, _, h⟩ := h
    unfold State.sectionTransfer at h
    split at h
    · split at h
      · rename_i j _ hj
        cases h
        exact key hj
      · cases h
    · cases h
  · rw [List.mem_filterMap] at h
    obtain ⟨q, _, h⟩ := h
    simp only [Option.bind_eq_some_iff] at h
    obtain ⟨p, _, h⟩ := h
    unfold State.pointTransfer at h
    split at h
    · split at h
      · rename_i hj
        cases h
        simp only [Bool.and_eq_true] at hj
        exact key hj.2
      · cases h
    · cases h

theorem transferRest_quiet {s : State} {o j : Nat} (h : (s.transferRest o).Transferring j) : s.Transferring j ∨ j = o := by
  unfold State.transferRest State.Transferring at h
  dsimp only at h
  rw [notify_notices, List.mem_append, List.mem_singleton] at h
  rcases h with h | h
  · refine .inl ?_
    revert h
    split
    · exact (Walk.releaseNotice (gone := fun _ => False) (Walk.unlockItems (p := (s, false)) o _ .refl)).quiet j
    · exact id
  · cases h
    exact .inr rfl

theorem transferRests_quiet {s : State} {l : List Nat} {j : Nat} (h : (l.foldl State.transferRest s).Transferring j) :
    s.Transferring j ∨ j ∈ l := by
  induction l generalizing s with
  | nil => exact .inl h
  | cons o l ih =>
    rcases ih h with h | h
    · rcases transferRest_quiet h with h | h
      · exact .inl h
      · exact .inr (h ▸ List.mem_cons_self)
    · exact .inr (List.mem_cons_of_mem _ h)

theorem requestDirection_sheds (s : State) (b : BLink) (e : Nat) :
    (s.elem e).Sheds ((s.requestDirection b).elem e) := by
  have h : (s.requestDirection b).lkc = s.lkc := by
    unfold State.requestDirection State.askDirection State.sendNow
    (repeat' split) <;> first | rfl | exact putBlc_lkc ..
  simp only [State.elem, h]
  exact .refl _

theorem requestDirection_quiet {s : State} {b : BLink} {j : Nat} (h : (s.requestDirection b).Transferring j) :
    s.Transferring j := by
  have h1 : (s.requestDirection b).notices = s.notices ∨ (s.requestDirection b).notices = s.notices ++ [.directionFailed b] := by
    unfold State.requestDirection State.askDirection State.sendNow
    (repeat' split) <;> first | exact .inr rfl | exact .inl (putBlc_notices ..)
  unfold State.Transferring at h ⊢
  rcases h1 with h1 | h1 <;> rw [h1] at h
  · exact h
  · simpa using h

theorem Walk.askItem {gone : Nat → Prop} {a s : State} (i : Nat) (p : Nat × FlankItem) (h : Walk gone a s) :
    Walk gone a (State.askItem i s p) := by
  unfold State.askItem
  split
  · exact h.askAssurance _ _ _ _
  · exact h

/-- The locks and slots of a reservation taken (R11). -/
def State.locked (s : State) (i : Nat) (d : RouteDef) : State :=
  d.overlap.toList.foldl (State.lockItem i .overlap) (d.path.foldl (State.lockItem i .path)
    ((s.setEntry d.entry fun _ => .held i).setExit d.exit fun _ => .held i))

theorem locked_smalls (s : State) (i : Nat) (d : RouteDef) : Smalls s (s.locked i d) :=
  Smalls.foldl (f := State.lockItem i .overlap) (fun it h => h.lockItem i _ it) _
    (Smalls.foldl (f := State.lockItem i .path) (fun it h => h.lockItem i _ it) _
      ((Smalls.refl.setEntry _ _).setExit _ _))

theorem locked_insts (s : State) (i : Nat) (d : RouteDef) : (s.locked i d).rim.insts = s.rim.insts := by
  unfold State.locked
  rw [foldl_keeps _ (fun s : State => s.rim.insts) fun s x => congrArg Rim.insts (lockItem_rim s i _ x),
    foldl_keeps _ (fun s : State => s.rim.insts) fun s x => congrArg Rim.insts (lockItem_rim s i _ x)]
  simp

theorem lockItem_notices (s : State) (i : Nat) (role : Role) (it : PathItem) :
    (State.lockItem i role s it).notices = s.notices := by
  unfold State.lockItem
  dsimp only
  rw [foldl_keeps _ State.notices (fun s r => by split <;> simp)]
  split <;> simp

theorem locked_notices (s : State) (i : Nat) (d : RouteDef) : (s.locked i d).notices = s.notices := by
  unfold State.locked
  rw [foldl_keeps _ State.notices fun s x => lockItem_notices s i _ x,
    foldl_keeps _ State.notices fun s x => lockItem_notices s i _ x]
  unfold State.setExit State.setEntry
  (repeat' split) <;> simp

/-- An instance record whose items are all unreleased. -/
structure Inst.Whole (r : Inst) (d : RouteDef) : Prop where
  pointer : r.releasePtr = 1
  path : r.pathReleased = false
  overlap : d.overlap.isSome = true → r.overlapHeld = true

theorem Inst.Whole.keeps {r : Inst} {d : RouteDef} (w : r.Whole d) {p : Prop} (hp : p) {it : PathItem}
    (hm : it ∈ d.path ∨ it ∈ d.overlap.toList) {k : SlotKind} {e : Nat} (hh : hasSlot it k e) : r.keeps d p k e := by
  have h : (∃ it ∈ r.openItems d, hasSlot it k e) ∨ (p ∧ r.overlapHeld = true ∧ ∃ it ∈ d.overlap, hasSlot it k e) := by
    rcases hm with hm | hm
    · obtain ⟨n, hn⟩ := List.getElem?_of_mem hm
      exact .inl ⟨it, mem_openItems.2 ⟨n + 1, by omega, hn, by simp [Inst.unreleased, w.pointer, w.path]⟩, hh⟩
    · have : it ∈ d.overlap := by simpa using hm
      exact .inr ⟨hp, w.overlap (Option.isSome_of_mem this), it, this, hh⟩
  cases k with
  | entry => cases hh
  | exit => cases hh
  | point => exact h
  | track => exact h

theorem locked_owned {s : State} {gone : Nat → Prop} {lv : Nat → Option (Inst × RouteDef)} {i : Nat} {r : Inst}
    {d : RouteDef} (hl : lv i = some (r, d)) (w : r.Whole d) (hg : ¬ gone i) (h : s.Owned gone lv) :
    (s.locked i d).Owned gone lv := by
  have h1 := setEntry_owned hl d.entry ⟨rfl, by simp [Inst.unreleased, w.pointer, w.path]⟩ h
  have h2 := setExit_owned hl d.exit ⟨rfl, w.path⟩ h1
  exact lockItems_owned hl .overlap _ (fun it hm k e hh => w.keeps hg (.inr hm) hh)
    (lockItems_owned hl .path _ (fun it hm k e hh => w.keeps hg (.inl hm) hh) h2)

/-- A reservation for a free record leaves every lock with an owner that lists it, the new instance counted as live; the
overlaps transferred count no more. -/
theorem applyReservation_owned {s : State} {i : Nat} {d : RouteDef} (c : List (Nat × Option FlankTarget)) {r : Inst}
    (hi : s.inst i = none) (w : r.Whole d) (hn : ∀ j, ¬ s.Transferring j) (h : s.Owned (fun _ => False) s.live) :
    (s.applyReservation i d c).state.Owned (s.applyReservation i d c).state.Transferring
      fun j => if j = i then some (r, d) else s.live j := by
  generalize hlv : (fun j => if j = i then some (r, d) else s.live j) = lv
  have hl : lv i = some (r, d) := by rw [← hlv]; exact if_pos rfl
  have hne : ∀ j, j ≠ i → lv j = s.live j := fun j hj => by rw [← hlv]; exact if_neg hj
  have hli : s.live i = none := by simp [State.live, hi]
  have h0 : s.Owned (fun _ => False) lv := ⟨fun k e j hj => by
    obtain ⟨x, y, h1, h2⟩ := h.1 k e j hj
    exact ⟨x, y, by rw [hne j fun hc => by rw [hc, hli] at h1; cases h1]; exact h1, h2⟩, h.2⟩
  have h1 := locked_owned hl w id h0
  have hv : (s.locked i d).live = s.live := live_congr (locked_insts s i d) (locked_smalls s i d).rcat
  have h2 := transferRests_owned (s.transferOwners d) (fun o ho => by
    obtain ⟨x, hx⟩ := live_of_owner ho
    rw [hv]
    exact hne o fun hc => by rw [hc, hli] at hx; cases hx) h1
  have q2 : ∀ j, ((s.transferOwners d).foldl State.transferRest (s.locked i d)).Transferring j →
      j ∈ s.transferOwners d := fun j hj =>
    (transferRests_quiet hj).resolve_left fun hx => hn j (by rwa [State.Transferring, locked_notices] at hx)
  unfold State.applyReservation
  dsimp only
  change ((s.transferOwners d).foldl State.transferRest (s.locked i d)).Owned _ lv at h2
  show (List.foldl (State.askItem i) _ _).Owned (List.foldl (State.askItem i) _ _).Transferring lv
  generalize hu : (s.transferOwners d).foldl State.transferRest (s.locked i d) = u at h2 q2
  unfold State.locked at hu
  rw [hu]
  have w3 : Walk (fun _ => False) u ((c.filterMap Prod.snd).foldl State.throwClaimed (((d.path ++ d.overlap.toList).flatMap
      PathItem.points).foldl State.throwReq ((indexFrom1 c).foldl (State.claimItem i) u))) :=
    Walk.foldl (f := State.throwClaimed) (fun x h => h.throwClaimed x) _
      (Walk.foldl (f := State.throwReq) (fun x h => h.throwClaimed _) _
        (Walk.foldl (f := State.claimItem i) (fun x h => h.claimItem i x) _ .refl))
  generalize List.foldl State.throwClaimed _ _ = v at w3 ⊢
  have w5 : ∀ x : State, Walk (fun _ => False) x ((askedItems d c).foldl (State.askItem i) x) := fun x =>
    Walk.foldl (f := State.askItem i) (fun p h => h.askItem i p) _ .refl
  have last : ∀ x : State, (∀ e, (v.elem e).Sheds (x.elem e)) → (∀ j, x.Transferring j → v.Transferring j) →
      ((askedItems d c).foldl (State.askItem i) x).Owned ((askedItems d c).foldl (State.askItem i) x).Transferring lv :=
    fun x h3 h4 => (((h2.sheds w3.sheds).sheds h3).sheds (w5 x).sheds).fewer fun j hj =>
      .inr (q2 j (w3.quiet j (h4 j ((w5 x).quiet j hj))))
  split
  · exact last _ (requestDirection_sheds v _) fun j hj => requestDirection_quiet hj
  · exact last _ (fun _ => .refl _) fun j hj => hj

end Sys2Proof.Machine
end

