-- ==== Sys2Proof/Laws/Steps.lean ====
section
/-! SUPPORT. The end of a step, and what a row that takes a telegram does, each said once. -/

set_option Elab.async false

namespace Sys2Proof.Machine

/-! ### The end of a step -/

theorem orderMarks_sub {l m : List Obj} (h : ∀ o ∈ m, o ∈ l) : orderMarks l m = m := by
  have h1 : m.filter l.contains = m := List.filter_eq_self.2 fun x hx => by simpa using h x hx
  have h2 : (m.filter fun o => !l.contains o) = [] := by
    apply List.filter_eq_nil_iff.2
    intro a ha
    simpa using h a ha
  rw [orderMarks, h1, h2]
  simp [sortObjs]

/-- A step that marks nothing leaves the order of the marks as it is. -/
theorem settleMarks_of_sub (b s : State) (hC : ∀ o ∈ s.olc.olC.marks, o ∈ b.olc.olC.marks)
    (hL : ∀ o ∈ s.olc.olL.marks, o ∈ b.olc.olL.marks) : State.settleMarks b s = s := by
  rw [State.settleMarks, orderMarks_sub hC, orderMarks_sub hL]

theorem settleMarks_self (s : State) : State.settleMarks s s = s :=
  settleMarks_of_sub s s (fun _ h => h) fun _ h => h

/-- A step without notices or new marks ends as it stands. -/
theorem finish_of_quiet (b s : State) (h : s.notices = []) (hC : ∀ o ∈ s.olc.olC.marks, o ∈ b.olc.olC.marks)
    (hL : ∀ o ∈ s.olc.olL.marks, o ∈ b.olc.olL.marks) : State.finish b s = s := by
  rw [finish_of_none b s h, settleMarks_of_sub b s hC hL]

theorem finish_self (s : State) (h : s.notices = []) : State.finish s s = s :=
  finish_of_quiet s s h (fun _ h => h) fun _ h => h

@[simp] theorem answer_notices (s : State) (l : OpLink) (q : Word16) (b : ReplyBody) :
    (s.answer l q b).notices = s.notices := rfl

@[simp] theorem taken_notices (s : State) (l : OpLink) : (s.taken l).notices = s.notices := rfl

@[simp] theorem answer_markC (s : State) (l : OpLink) (q : Word16) (b : ReplyBody) :
    (s.answer l q b).olc.olC.marks = s.olc.olC.marks := by cases l <;> rfl

@[simp] theorem answer_markL (s : State) (l : OpLink) (q : Word16) (b : ReplyBody) :
    (s.answer l q b).olc.olL.marks = s.olc.olL.marks := by cases l <;> rfl

@[simp] theorem taken_markC (s : State) (l : OpLink) : (s.taken l).olc.olC.marks = s.olc.olC.marks := by
  cases l <;> rfl

@[simp] theorem taken_markL (s : State) (l : OpLink) : (s.taken l).olc.olL.marks = s.olc.olL.marks := by
  cases l <;> rfl

/-- A reply that changes nothing else ends the step as it stands. -/
theorem finish_replied (s : State) (l : OpLink) (q : Word16) (b : ReplyBody) (h : s.notices = []) :
    State.finish s ((s.taken l).answer l q b) = (s.taken l).answer l q b :=
  finish_of_quiet _ _ (by simp [h]) (by simp) (by simp)

/-! ### What a taken telegram leaves as it was -/

section
variable (s : State) (l : OpLink)

@[simp] theorem taken_areaRec (a : Nat) : (s.taken l).areaRec a = s.areaRec a := rfl
@[simp] theorem taken_holdsArea (k : OpLink) (a : Nat) : (s.taken l).holdsArea k a = s.holdsArea k a := rfl
@[simp] theorem taken_holdsElem (k : OpLink) (e : Nat) : (s.taken l).holdsElem k e = s.holdsElem k e := rfl
@[simp] theorem taken_elem (e : Nat) : (s.taken l).elem e = s.elem e := rfl
@[simp] theorem taken_signal_of (e : Nat) : (s.taken l).signal? e = s.signal? e := rfl
@[simp] theorem taken_point_of (e : Nat) : (s.taken l).point? e = s.point? e := rfl
@[simp] theorem taken_track_of (e : Nat) : (s.taken l).track? e = s.track? e := rfl
@[simp] theorem taken_boundary_of (e : Nat) : (s.taken l).boundary? e = s.boundary? e := rfl
@[simp] theorem taken_isEnd (e : Nat) : (s.taken l).isEnd e = s.isEnd e := rfl
@[simp] theorem taken_rankOne (e x : Nat) : (s.taken l).rankOne e x = s.rankOne e x := rfl
@[simp] theorem taken_variants (e x : Nat) : (s.taken l).variants e x = s.variants e x := rfl
@[simp] theorem taken_storeEntry (n : Nat) : (s.taken l).storeEntry n = s.storeEntry n := rfl
@[simp] theorem taken_routeDef (n : Nat) : (s.taken l).routeDef n = s.routeDef n := rfl
@[simp] theorem taken_entryInst (e : Nat) : (s.taken l).entryInst e = s.entryInst e := rfl
@[simp] theorem taken_lifetimeOf (n : Nat) : (s.taken l).lifetimeOf n = s.lifetimeOf n := rfl
@[simp] theorem taken_isEntry (e : Nat) : (s.taken l).isEntry e = s.isEntry e := rfl
@[simp] theorem taken_blcAt (b : BLink) : (s.taken l).blcAt b = s.blcAt b := rfl
@[simp] theorem taken_directionTests (b : BLink) : (s.taken l).directionTests b = s.directionTests b := rfl
@[simp] theorem taken_auxKnown (k : AuxKind) (o : Nat) : (s.taken l).auxKnown k o = s.auxKnown k o := rfl
@[simp] theorem taken_auxAllowed (j : OpLink) (k : AuxKind) (o : Nat) : (s.taken l).auxAllowed j k o = s.auxAllowed j k o := rfl
@[simp] theorem taken_auxReady (k : AuxKind) (o : Nat) : (s.taken l).auxReady k o = s.auxReady k o := rfl
@[simp] theorem taken_clearingFailures (i : Nat) (r : Inst) (d : RouteDef) : (s.taken l).clearingFailures i r d = s.clearingFailures i r d := rfl
@[simp] theorem taken_isClear (e : Nat) : (s.taken l).isClear e = s.isClear e := rfl
@[simp] theorem taken_inst (i : Nat) : (s.taken l).inst i = s.inst i := rfl
@[simp] theorem taken_live (i : Nat) : (s.taken l).live i = s.live i := rfl
@[simp] theorem taken_drive (e : Nat) : (s.taken l).drive e = s.drive e := rfl
@[simp] theorem taken_causeBars (c : Cause × Nat) : (s.taken l).causeBars c = s.causeBars c := rfl
@[simp] theorem taken_configured : (s.taken l).configured = s.configured := rfl
@[simp] theorem taken_rqs : (s.taken l).rqs = s.rqs := rfl
@[simp] theorem taken_rim : (s.taken l).rim = s.rim := rfl
@[simp] theorem taken_out : (s.taken l).out = s.out := rfl

end

/-! ### Taking a request -/

theorem canTake_ready {s : State} {l : OpLink} {q : Word16} {r : Request} (h : s.Ready l q r)
    {pick : Request → Bool} (hp : pick r = true) : s.canTake l pick = some ⟨q, r⟩ := by
  obtain ⟨h1, h2, h3, h4, h5⟩ := h
  unfold State.canTake
  cases hw : (s.olc.get l).waiting with
  | nil => simp [hw] at h5
  | cons t rest =>
    simp only [hw, List.head?_cons, Option.some.injEq] at h5
    subst h5
    simp [h1, h3, h4, hp, hw]

/-- A request that is taken and lies in its ranges is the owner's act on the state without its telegram (R155). -/
theorem runRequest_ready {s : State} {l : OpLink} {q : Word16} {r : Request} (h : s.Ready l q r)
    {pick : Request → Bool} (hp : pick r = true) (act : State → Telegram → State × Option ReplyBody) :
    runRequest l pick act s = .next (State.finish s
      (if r.outOfRange then (s.taken l).answer l q (.refused .unknownObject)
       else match (act (s.taken l) ⟨q, r⟩).2 with
        | some b => (act (s.taken l) ⟨q, r⟩).1.answer l q b
        | none => (act (s.taken l) ⟨q, r⟩).1)) := by
  have hl : (s.modOlc l fun c => { c with waiting := c.waiting.tail }).cfl.load = .operating := h.1
  rw [runRequest, State.takeRequest, canTake_ready h hp]
  simp only [hl]
  rfl

/-- A row that can take nothing changes nothing. -/
theorem runRequest_none {s : State} {l : OpLink} {pick : Request → Bool} (h : s.canTake l pick = none)
    (hn : s.notices = []) (act : State → Telegram → State × Option ReplyBody) :
    runRequest l pick act s = .next s := by
  rw [runRequest, State.takeRequest, h]
  simp only
  rw [finish_self s hn]

end Sys2Proof.Machine
end

