-- ==== Sys2Proof/Laws/Work.lean ====
section
/-! SUPPORT. What every command but COLD_START and LOAD_COMPLETE can do, said once: its step is a sequence of deeds, each
of which keeps the invariants of Safety.lean. -/

set_option Elab.async false

namespace Sys2Proof.Machine

/-- What DownEmpty says of one record. -/
def Blc.Empty (r : Blc) : Prop :=
  r.link = .down → r.outgoing = [] ∧ r.outAsks = [] ∧ r.assurances = [] ∧ r.heldBack = [] ∧ r.neighbourClear = false
    ∧ r.silenceTimer = .stopped ∧ r.holdingsTimer = .stopped ∧ r.change = .idle

/-- What StoreLegal says of a list of entries. -/
def ListLegal (l : List StoreEntry) : Prop :=
  (∀ k, (l.filter fun e => e.link == k).length ≤ 8) ∧ (l.map StoreEntry.route).Nodup

/-- A rewriting of an OLC that keeps the bound of its waiting telegrams and its marks distinct. -/
structure OlcKeeps (c d : Olc) : Prop where
  waiting : c.waiting.length ≤ 4 → d.waiting.length ≤ 4
  marks : c.marks.Nodup → d.marks.Nodup

/-- A boundary record rewritten so that a DOWN link stays empty and the outgoing capacity of R165 is kept; a rewriting
that is calm adds nothing incoming. -/
structure Blc.Step (κ : Bool) (old new : Blc) : Prop where
  empty : Blc.Empty old → Blc.Empty new
  outSingle : old.outCount ≤ 1 → new.outCount ≤ 1
  inLess : κ = true → new.inCount ≤ old.inCount

/-- A rewriting of a boundary record that keeps what Blc.Step says. -/
def BlcKeeps (κ : Bool) (f : Blc → Blc) : Prop := ∀ r, Blc.Step κ r (f r)

/-- No unit twice among the queued commands (R25). -/
abbrev Tbc.Single (t : Tbc) : Prop := (t.queue.map QueuedCmd.address).Nodup

/-- One deed. A calm one (κ true) adds no incoming acceptance and no incoming request. -/
inductive Deed (κ : Bool) : State → State → Prop
  | small {s t : State} (h : Small s t) : Deed κ s t
  | elem (s : State) (e : Nat) (r : Element) : Deed κ s (s.putElem e r)
  | check (s : State) (e : Nat) : Deed κ s (s.rewriteCheck e)
  | tbc (s : State) (t : Tbc) (k : s.tbc.Single → t.Single) : Deed κ s { s with tbc := t }
  | scrub (s : State) (n : Nat) (c : Word16) : Deed κ s { s with lkc := { s.lkc with scrub := n, corrected := c } }
  | dps (s : State) (v : Vector (Option DpRec) 120) : Deed κ s { s with ace := { s.ace with dps := v } }
  | count (s : State) (e : Nat) (c c' : SectCount) (h : s.count e = some c)
      (k : c.legal s.cfl.tolerance → c'.legal s.cfl.tolerance) : Deed κ s (s.putCount e c')
  | store (s : State) (q : Rqs) (r : List RouteRequest) (k : ListLegal s.rqs.store → ListLegal q.store)
      (i : κ = true → ∀ b, incomingOf b r ≤ incomingOf b s.rim.requests) :
      Deed κ s { s with rqs := q, rim := { s.rim with requests := r } }
  | sel (s : State) (p : PerLink (Option Selection)) : Deed κ s { s with rim := { s.rim with sel := p } }
  | olc (s : State) (l : OpLink) (f : Olc → Olc) (k : OlcKeeps (s.olc.get l) (f (s.olc.get l))) :
      Deed κ s (s.modOlc l f)
  | area (s : State) (a : Nat) (r : Area) (k : (s.areaRec a).legal → r.legal) : Deed κ s (s.putArea a r)
  | blc (s : State) (b : BLink) (r : Blc) (k : Blc.Step κ (s.blcAt b) r) : Deed κ s (s.putBlc b r)
  | cfl (s : State) (c : Cfl) (hl : c.load = s.cfl.load) (ht : c.tolerance = s.cfl.tolerance) :
      Deed κ s { s with cfl := c }
  | fault (s : State) (v : Bool) : Deed κ s { s with aou := { s.aou with storeFault := v } }
  | counted (s : State) (k : AuxKind) : Deed κ s { s with aou := { s.aou with counters := countAux s.aou.counters k } }
  | order (b s : State) : Deed κ s (State.settleMarks b s)

/-- Deeds in sequence. -/
inductive Deeds (κ : Bool) (a : State) : State → Prop
  | refl : Deeds κ a a
  | tail {s t : State} (h : Deeds κ a s) (k : Deed κ s t) : Deeds κ a t

namespace Deeds

variable {κ : Bool} {a s : State}

/-- A predicate every deed keeps holds after deeds. -/
theorem keeps {P : State → Prop} (hP : ∀ x y, Deed κ x y → P x → P y) (h : Deeds κ a s) (ha : P a) : P s := by
  induction h with
  | refl => exact ha
  | tail _ k ih => exact hP _ _ k ih

theorem trans {b c : State} (h : Deeds κ a b) (k : Deeds κ b c) : Deeds κ a c := by
  induction k with
  | refl => exact h
  | tail _ m ih => exact ih.tail m

theorem ofSmalls {t : State} (h : Deeds κ a s) (w : Smalls s t) : Deeds κ a t := by
  induction w with
  | refl => exact h
  | tail _ k ih => exact ih.tail (.small k)

theorem foldl {α : Type} {f : State → α → State} (hf : ∀ {s : State} (x : α), Deeds κ a s → Deeds κ a (f s x)) (l : List α)
    (h : Deeds κ a s) : Deeds κ a (l.foldl f s) := by
  induction l generalizing s with
  | nil => exact h
  | cons x l ih => exact ih (hf x h)

end Deeds

/-- The catalogue stands. -/
theorem Deed.rcat {κ : Bool} {s t : State} (h : Deed κ s t) : t.rcat = s.rcat := by
  cases h with
  | small h => exact rcat_of_desk h.desk
  | _ => simp [State.settleMarks]

theorem Deeds.rcat {κ : Bool} {a s : State} (h : Deeds κ a s) : s.rcat = a.rcat :=
  h.keeps (P := fun s => s.rcat = a.rcat) (fun _ _ k e => k.rcat.trans e) rfl

/-- The work of a command: deeds in sequence, after which every lock has an owner that lists it, where every lock had one
before; an overlap whose transfer notice waits does not count. -/
structure Work (κ : Bool) (a s : State) : Prop where
  deeds : Deeds κ a s
  owned : a.LocksLegal → s.Owned s.Transferring s.live

namespace Work

theorem refl {κ : Bool} {a : State} : Work κ a a := ⟨.refl, fun h => h.1.fewer fun i hi => (h.2.1 i hi).elim⟩

/-- A predicate every deed keeps holds after the work. -/
theorem keeps {κ : Bool} {a s : State} {P : State → Prop} (hP : ∀ x y, Deed κ x y → P x → P y) (h : Work κ a s) (ha : P a) :
    P s := h.deeds.keeps hP ha

theorem rcat {κ : Bool} {a s : State} (h : Work κ a s) : s.rcat = a.rcat := h.deeds.rcat

variable {κ : Bool} {a s : State}

theorem ofWalk {t : State} (h : Work κ a s) (w : Walk s.Transferring s t) : Work κ a t :=
  ⟨h.deeds.ofSmalls w.smalls, fun x => (w.owned (h.owned x)).fewer w.quiet⟩

/-- A deed that gives no lock an owner, beside the instances, the catalogue and the notices. -/
theorem shed {t : State} (h : Work κ a s) (k : Deed κ s t) (he : ∀ e, (s.elem e).Sheds (t.elem e))
    (hi : t.rim.insts = s.rim.insts) (hn : t.notices = s.notices) : Work κ a t :=
  ⟨h.deeds.tail k, fun x => by
    have ht : t.Transferring = s.Transferring := by funext i; simp only [State.Transferring, hn]
    rw [ht, live_congr hi k.rcat]
    exact (h.owned x).sheds he⟩

/-- A deed beside the records, the instances, the catalogue and the notices. -/
theorem beside {t : State} (h : Work κ a s) (k : Deed κ s t) (he : t.lkc.elements = s.lkc.elements := by first | rfl | simp)
    (hi : t.rim.insts = s.rim.insts := by first | rfl | simp)
    (hn : t.notices = s.notices := by first | rfl | simp) : Work κ a t :=
  h.shed k (fun e => by simp only [State.elem, he]; exact .refl _) hi hn

theorem foldl {α : Type} {f : State → α → State} (hf : ∀ {s : State} (x : α), Work κ a s → Work κ a (f s x)) (l : List α)
    (h : Work κ a s) : Work κ a (l.foldl f s) := by
  induction l generalizing s with
  | nil => exact h
  | cons x l ih => exact ih (hf x h)

theorem foldl1 {α β : Type} {f : State × β → α → State × β}
    (hf : ∀ {p : State × β} (x : α), Work κ a p.1 → Work κ a (f p x).1) (l : List α) {p : State × β}
    (h : Work κ a p.1) : Work κ a (l.foldl f p).1 := by
  induction l generalizing p with
  | nil => exact h
  | cons x l ih => exact ih (hf x h)

/-! ### Walks -/

theorem putElem (e : Nat) (r : Element) (x : (s.elem e).Sheds r) (h : Work κ a s) : Work κ a (s.putElem e r) :=
  h.shed (.elem s e r) (sheds_putElem e r x) (by simp) (by simp)
theorem putDrive (e : Nat) (d : Option Drive) (h : Work κ a s) : Work κ a (s.putDrive e d) := h.ofWalk (Walk.refl.putDrive e d)
theorem putCmd (e : Nat) (c : SignalCmd) (h : Work κ a s) : Work κ a (s.putCmd e c) := h.ofWalk (Walk.refl.putCmd e c)
theorem enqueue (n : Nat) (t : TrackTelegram) (h : Work κ a s) : Work κ a (s.enqueue n t) := h.ofWalk (Walk.refl.enqueue n t)
theorem dequeue (n : Nat) (h : Work κ a s) : Work κ a (s.dequeue n) := h.ofWalk (Walk.refl.dequeue n)
theorem modInst (i : Nat) (f : Inst → Inst) (w : ∀ r, (f r).kept = r.kept) (h : Work κ a s) : Work κ a (s.modInst i f) :=
  h.ofWalk (Walk.refl.modInst i f w)
theorem notifyAll (l : List Notice) (hl : ∀ i, .overlapTransferred i ∉ l) (h : Work κ a s) : Work κ a (s.notifyAll l) :=
  h.ofWalk (Walk.refl.notifyAll l hl)
theorem notify (n : Notice) (h : Work κ a s) (hn : ∀ i, n ≠ .overlapTransferred i := by intro _; nofun) :
    Work κ a (s.notify n) := h.ofWalk (Walk.refl.notify n hn)
theorem send (x : Sent) (h : Work κ a s) : Work κ a (s.send x) := h.ofWalk (Walk.refl.send x)
theorem markAt (l : OpLink) (o : Obj) (h : Work κ a s) : Work κ a (s.markAt l o) := h.ofWalk (Walk.refl.markAt l o)
theorem mark (o : Obj) (h : Work κ a s) : Work κ a (s.mark o) := h.ofWalk (Walk.refl.mark o)
theorem retestTrigger (h : Work κ a s) : Work κ a s.retestTrigger := h.ofWalk Walk.refl.retestTrigger
theorem nextRetest (h : Work κ a s) : Work κ a s.nextRetest := h.ofWalk Walk.refl.nextRetest
theorem endPass (h : Work κ a s) : Work κ a s.endPass := h.ofWalk Walk.refl.endPass
theorem failPoint (e : Nat) (h : Work κ a s) : Work κ a (s.failPoint e) := h.ofWalk (Walk.refl.failPoint e)
theorem withdrawDrive (e : Nat) (h : Work κ a s) : Work κ a (s.withdrawDrive e) := h.ofWalk (Walk.refl.withdrawDrive e)
theorem enqueueThrow (e : Nat) (q : Pos) (h : Work κ a s) : Work κ a (s.enqueueThrow e q) :=
  h.ofWalk (Walk.refl.enqueueThrow e q)
theorem throwRequest (e : Nat) (q : Pos) (o : Bool) (h : Work κ a s) : Work κ a (s.throwRequest e q o).1 :=
  h.ofWalk (Walk.refl.throwRequest e q o)
theorem dropNext (e : Nat) (h : Work κ a s) : Work κ a (s.dropNext e) := h.ofWalk (Walk.refl.dropNext e)
theorem completeDrive (e : Nat) (d : Drive) (h : Work κ a s) : Work κ a (s.completeDrive e d) :=
  h.ofWalk (Walk.refl.completeDrive e d)
theorem attemptEnds (e : Nat) (d : Drive) (h : Work κ a s) : Work κ a (s.attemptEnds e d) :=
  h.ofWalk (Walk.refl.attemptEnds e d)
theorem enqueueStop (e : Nat) (h : Work κ a s) : Work κ a (s.enqueueStop e) := h.ofWalk (Walk.refl.enqueueStop e)
theorem dropCmd (e : Nat) (h : Work κ a s) : Work κ a (s.dropCmd e) := h.ofWalk (Walk.refl.dropCmd e)
theorem proceedFails (e : Nat) (h : Work κ a s) : Work κ a (s.proceedFails e) := h.ofWalk (Walk.refl.proceedFails e)
theorem stopEntry (d : RouteDef) (h : Work κ a s) : Work κ a (s.stopEntry d) := h.ofWalk (Walk.refl.stopEntry d)
theorem signalFailed (e : Nat) (h : Work κ a s) : Work κ a (s.modSignal e fun g => { g with failed := true }) :=
  h.ofWalk (Walk.refl.signalFailed e)
theorem takeClaim (c : Claimant) (t : FlankTarget) (h : Work κ a s) : Work κ a (s.takeClaim c t) :=
  h.ofWalk (Walk.refl.takeClaim c t)
theorem boundaryDrop (b : BLink) (ref : Nat) (h : Work κ a s) : Work κ a (s.boundaryDrop b ref) :=
  h.ofWalk (Walk.refl.boundaryDrop b ref)
theorem flankAsk (b : BLink) (ref : Nat) (h : Work κ a s) : Work κ a (s.flankAsk b ref).1 :=
  h.ofWalk (Walk.refl.flankAsk b ref)
theorem throwClaimed (t : FlankTarget) (h : Work κ a s) : Work κ a (s.throwClaimed t) := h.ofWalk (Walk.refl.throwClaimed t)
theorem sendNow (b : BLink) (t : BoundaryTelegram) (h : Work κ a s) : Work κ a (s.sendNow b t) :=
  h.ofWalk (Walk.refl.sendNow b t)
theorem sendHeld (b : BLink) (t : BoundaryTelegram) (h : Work κ a s) : Work κ a (s.sendHeld b t) :=
  h.ofWalk (Walk.refl.sendHeld b t)
theorem flushOne (b : BLink) (t : BoundaryTelegram) (h : Work κ a s) : Work κ a (State.flushOne b s t) :=
  h.ofWalk (Walk.refl.flushOne b t)
theorem askAssurance (b : BLink) (ref i m : Nat) (h : Work κ a s) : Work κ a (s.askAssurance b ref i m) :=
  h.ofWalk (Walk.refl.askAssurance b ref i m)
theorem claimItem (i : Nat) (p : Nat × (Nat × Option FlankTarget)) (h : Work κ a s) : Work κ a (State.claimItem i s p) :=
  h.ofWalk (Walk.refl.claimItem i p)
theorem releaseOverlap (i : Nat) (d : RouteDef) (h : Work κ a s) : Work κ a (s.releaseOverlap i d) :=
  h.ofWalk (Walk.refl.releaseOverlap i d)
theorem tryFree (i : Nat) (h : Work κ a s) : Work κ a (s.tryFree i) := h.ofWalk (Walk.refl.tryFree i)
theorem releaseAll (i : Nat) (h : Work κ a s) : Work κ a (s.releaseAll i) := h.ofWalk (Walk.refl.releaseAll i)
theorem settingFails (i : Nat) (c : FailCause) (e : Nat) (h : Work κ a s) : Work κ a (s.settingFails i c e) :=
  h.ofWalk (Walk.refl.settingFails i c e)
theorem clearingPasses (i : Nat) (r : Inst) (d : RouteDef) (h : Work κ a s) : Work κ a (s.clearingPasses i r d) :=
  h.ofWalk (Walk.refl.clearingPasses i r d)
theorem checkWaiting (i : Nat) (h : Work κ a s) : Work κ a (s.checkWaiting i) := h.ofWalk (Walk.refl.checkWaiting i)
theorem supervise (i : Nat) (d : RouteDef) (c : Cause) (e : Nat) (h : Work κ a s) : Work κ a (s.supervise i d c e) :=
  h.ofWalk (Walk.refl.supervise i d c e)
theorem recordOverrun (o : Overrun) (h : Work κ a s) : Work κ a (s.recordOverrun o) := h.ofWalk (Walk.refl.recordOverrun o)
theorem settle (h : Work κ a s) : Work κ a s.settle := h.ofWalk (Walk.settle (fun _ k => k) .refl)

/-- The end of a step. -/
theorem finish (b : State) (h : Work κ a s) : Work κ a (State.finish b s) :=
  h.settle.beside (.order b _)

/-- When the notices have been taken, no OVERLAP_TRANSFERRED notice waits. -/
theorem finish_quiet (b s : State) (i : Nat) : ¬ (State.finish b s).Transferring i := by
  show ¬ s.settle.Transferring i
  unfold State.settle settleRounds
  rw [Machine.settleN]
  split
  · rename_i h
    rw [List.isEmpty_iff] at h
    simp [State.Transferring, h]
  · intro h
    have w1 : Walk (fun _ => True) ({ s with notices := [] } : State) s.takeRound :=
      Walk.takeNotices _ (fun _ _ => trivial) .refl
    have w2 := Walk.settleN (gone := fun _ => True) 31 (fun _ _ => trivial) (Walk.refl (a := s.takeRound))
    exact nomatch w1.quiet i (w2.quiet i h)

/-! ### Other deeds -/

theorem modTbc (f : Tbc → Tbc) (k : s.tbc.Single → (f s.tbc).Single) (h : Work κ a s) : Work κ a (s.modTbc f) :=
  h.beside (.tbc s (f s.tbc) k)
theorem putDp (d : Nat) (r : DpRec) (h : Work κ a s) : Work κ a (s.putDp d r) := h.beside (.dps s _)
theorem modOlc (l : OpLink) (f : Olc → Olc) (k : OlcKeeps (s.olc.get l) (f (s.olc.get l))) (h : Work κ a s) :
    Work κ a (s.modOlc l f) :=
  h.beside (.olc s l f k)
theorem modBlc (b : BLink) (f : Blc → Blc) (k : BlcKeeps κ f) (h : Work κ a s) : Work κ a (s.modBlc b f) :=
  h.beside (.blc s b _ (k _))
/-- A boundary record rewritten outside its acceptance lists. -/
theorem besideLists (b : BLink) (f : Blc → Blc) (k : ∀ r, Blc.Empty r → Blc.Empty (f r))
    (o : ∀ r, (f r).outCount = r.outCount) (i : ∀ r, (f r).inCount = r.inCount) (h : Work κ a s) :
    Work κ a (s.modBlc b f) :=
  h.modBlc b f fun r => ⟨k r, fun x => (o r).symm ▸ x, fun _ => Nat.le_of_eq (i r)⟩
/-- A boundary record rewritten so that no acceptance is added. -/
theorem fewerLists (b : BLink) (f : Blc → Blc) (k : ∀ r, Blc.Empty r → Blc.Empty (f r))
    (o : ∀ r, (f r).outCount ≤ r.outCount) (i : ∀ r, (f r).inCount ≤ r.inCount) (h : Work κ a s) :
    Work κ a (s.modBlc b f) :=
  h.modBlc b f fun r => ⟨k r, fun x => Nat.le_trans (o r) x, fun _ => i r⟩
theorem putCount (e : Nat) (c c' : SectCount) (hc : s.count e = some c)
    (k : c.legal s.cfl.tolerance → c'.legal s.cfl.tolerance) (h : Work κ a s) : Work κ a (s.putCount e c') := h.beside (.count s e c c' hc k)

/-! ### Points and signals -/

theorem writePoint (e : Nat) (q : PointRec) (k : ∀ p, s.point? e = some p → q.lock = p.lock ∧ q.suspect = p.suspect)
    (h : Work κ a s) : Work κ a (s.writePoint e q) := by
  unfold State.writePoint
  split
  · rename_i p hp
    refine notifyAll _ (pointNotices_quiet _ _ _ _) (h.putElem _ _ ?_)
    rw [elem_of_point hp]
    exact sheds_point (k p hp).1 (k p hp).2
  · exact h

theorem modPoint (e : Nat) (f : PointRec → PointRec) (k : ∀ p, (f p).lock = p.lock ∧ (f p).suspect = p.suspect)
    (h : Work κ a s) : Work κ a (s.modPoint e f) := by
  unfold State.modPoint
  split
  · rename_i p hp
    refine h.writePoint _ _ fun q hq => ?_
    cases hp.symm.trans hq
    exact k p
  · exact h

theorem writeSignal (e : Nat) (q : SignalRec)
    (k : ∀ p, s.signal? e = some p → q.entrySlot = p.entrySlot ∧ q.exitSlot = p.exitSlot ∧ q.suspect = p.suspect)
    (h : Work κ a s) : Work κ a (s.writeSignal e q) := by
  unfold State.writeSignal
  split
  · rename_i p hp
    refine notifyAll _ (signalNotices_quiet _ _ _ _) (h.putElem _ _ ?_)
    rw [elem_of_signal hp]
    exact sheds_signal (k p hp).1 (k p hp).2.1 (k p hp).2.2
  · exact h

theorem modSignal (e : Nat) (f : SignalRec → SignalRec)
    (k : ∀ p, (f p).entrySlot = p.entrySlot ∧ (f p).exitSlot = p.exitSlot ∧ (f p).suspect = p.suspect)
    (h : Work κ a s) : Work κ a (s.modSignal e f) := by
  unfold State.modSignal
  split
  · rename_i p hp
    refine h.writeSignal _ _ fun q hq => ?_
    cases hp.symm.trans hq
    exact k p
  · exact h

theorem pauseDrive (e : Nat) (h : Work κ a s) : Work κ a (s.pauseDrive e) := by
  unfold State.pauseDrive
  (repeat' split) <;> simp only [putDrive, h]

theorem resumeDrive (e : Nat) (h : Work κ a s) : Work κ a (s.resumeDrive e) := by
  unfold State.resumeDrive
  dsimp only
  (repeat' split) <;>
    simp (maxDischargeDepth := 12) only [completeDrive, dropNext, failPoint, enqueueThrow, putDrive, h]

theorem pduReport (e : Nat) (d : PduDetection) (l : Bool) (h : Work κ a s) : Work κ a (s.pduReport e d l) := by
  unfold State.pduReport
  have h1 := h.modPoint e (fun p => { p with detection := reportedDetection d, localMode := l }) fun _ => ⟨rfl, rfl⟩
  dsimp only
  (repeat' split) <;> simp (maxDischargeDepth := 12) only [completeDrive, withdrawDrive, h1]

theorem throwAcked (e : Nat) (h : Work κ a s) : Work κ a (s.throwAcked e) := by
  unfold State.throwAcked
  (repeat' split) <;> simp only [putDrive, h]

theorem throwFailed (e : Nat) (r : Option RejectReason) (h : Work κ a s) : Work κ a (s.throwFailed e r) := by
  unfold State.throwFailed
  (repeat' split) <;> simp only [attemptEnds, withdrawDrive, failPoint, h]

theorem pduUnreachable (e : Nat) (h : Work κ a s) : Work κ a (s.pduUnreachable e) :=
  pauseDrive e (h.modPoint e _ fun _ => ⟨rfl, rfl⟩)

theorem sduReport (e : Nat) (x : SduAspect) (l : Bool) (h : Work κ a s) : Work κ a (s.sduReport e x l) := by
  unfold State.sduReport
  have h1 := h.modSignal e (fun g => { g with shown := reportedAspect x, lampFault := l }) fun _ => ⟨rfl, rfl, rfl⟩
  dsimp only
  repeat' split
  all_goals first
    | exact h1
    | exact notifyAll _ (quiet_map _ _ fun _ _ => nofun) (h1.dropCmd e)
    | exact h1.proceedFails e
    | exact ((h1.signalFailed e).enqueueStop e).mark _

theorem sduUnreachable (e : Nat) (h : Work κ a s) : Work κ a (s.sduUnreachable e) := by
  unfold State.sduUnreachable
  have h1 := h.modSignal e (fun g => { g with shown := .unknown }) fun _ => ⟨rfl, rfl, rfl⟩
  dsimp only
  (repeat' split) <;> simp (maxDischargeDepth := 12) only [proceedFails, h1]

theorem stopAnswered (e : Nat) (h : Work κ a s) : Work κ a (s.stopAnswered e) := by
  unfold State.stopAnswered
  (repeat' split) <;> simp only [putCmd, h]

theorem stopFailed (e : Nat) (h : Work κ a s) : Work κ a (s.stopFailed e) :=
  (h.stopAnswered e).signalFailed e

theorem showProceedFailed (e : Nat) (h : Work κ a s) : Work κ a (s.showProceedFailed e) := by
  unfold State.showProceedFailed
  split <;> simp only [proceedFails, h]

/-! ### Sections and axle counting -/

theorem writeTrack (e : Nat) (t : TrackRec) (x : (s.elem e).Sheds (.track t)) (h : Work κ a s) : Work κ a (s.writeTrack e t) := by
  unfold State.writeTrack
  dsimp only
  generalize blinks = l
  refine foldl (fun b h => ?_) l (h.putElem _ _ x)
  split
  · exact h
  · exact h.mark _

theorem sectionChange (e : Nat) (o : Occ) (h : Work κ a s) : Work κ a (s.sectionChange e o) := by
  unfold State.sectionChange
  split
  · exact h
  · rename_i t ht
    split
    · exact h
    · dsimp only
      have h1 := notifyAll (t.owner.toList.map fun i => .track i e t.occupancy o) (quiet_map _ _ fun _ _ => nofun)
        (h.writeTrack e { t with occupancy := o } (by rw [elem_of_track ht]; exact sheds_track rfl rfl))
      split
      · exact h1.retestTrigger
      · exact foldl (f := fun s q => s.failPoint q) (fun q h => h.failPoint q) _ h1

theorem writeDp (d : Nat) (o n : DpRec) (h : Work κ a s) : Work κ a (s.writeDp d o n) := by
  unfold State.writeDp
  dsimp only
  split
  · exact h.putDp d n
  · exact foldl (fun b h => h.mark _) _ (h.putDp d n)

theorem disturb_legal {c : SectCount} (T : Nat) (why : Disturbance) (h : c.legal T) : (c.disturb why).legal T := by
  obtain ⟨h0, h1, h2, h3, h4, h5, h6, h7⟩ := h
  simp [SectCount.legal, SectCount.disturb]

theorem disturbBorder (d : Nat) (b : Nat × Orient) {p : State × List (Nat × Occ)} (h : Work κ a p.1) :
    Work κ a (State.disturbBorder d p b).1 := by
  unfold State.disturbBorder
  split
  · rename_i c hc
    split
    · exact h
    · exact h.putCount _ _ _ hc (disturb_legal _ _)
  · exact h

theorem failDp (d : Nat) (o : DpRec) (c : DpCause) (l : Option (Byte × Byte)) (h : Work κ a s) :
    Work κ a (s.failDp d o c l).1 := by
  unfold State.failDp
  dsimp only
  exact foldl1 (f := State.disturbBorder d) (fun b h => disturbBorder d b h) _ (h.writeDp _ _ _)

theorem chReport (d m : Nat) (x y : Byte) (f : Bool) (h : Work κ a s) : Work κ a (s.chReport d m x y f).1 := by
  unfold State.chReport
  dsimp only
  (repeat' split) <;> simp only [failDp, writeDp, putDp, h]

theorem chUnreachable (d : Nat) (h : Work κ a s) : Work κ a (s.chUnreachable d).1 := by
  unfold State.chUnreachable
  (repeat' split) <;> simp only [failDp, h]

theorem evaluate_legal {c : SectCount} (T : Nat) (n : Int) (hs : c.state ≠ .disturbed)
    (h : c.legal T) : (c.evaluate T n).legal T := by
  obtain ⟨h0, h1, h2, h3, h4, h5, h6, h7⟩ := h
  have hc : c.cause = none := by
    cases hx : c.cause with
    | none => rfl
    | some w => exact absurd (h4.1 (by simp [hx])) hs
  unfold SectCount.evaluate SectCount.deficit
  (repeat' split) <;> simp_all [SectCount.legal] <;> omega

theorem evaluateReset_legal {c : SectCount} (T : Nat) (n : Int) (hs : c.state = .resetPending) (h : c.legal T) :
    (c.evaluateReset T n).legal T := by
  obtain ⟨h0, h1, h2, h3, h4, h5, h6, h7⟩ := h
  have hc : c.cause = none := by
    cases hx : c.cause with
    | none => rfl
    | some w => exact absurd (h4.1 (by simp [hx])) (by simp [hs])
  have h8 := h7 (.inr hs)
  unfold SectCount.evaluateReset SectCount.deficit
  (repeat' split) <;> simp_all [SectCount.legal] <;> omega

theorem evaluated_legal (s : State) {c : SectCount} (h : c.legal s.cfl.tolerance) :
    (s.evaluated c).legal s.cfl.tolerance := by
  unfold State.evaluated
  split
  · exact h
  · rename_i hs
    exact evaluateReset_legal _ _ hs h
  · rename_i h1 _
    exact evaluate_legal _ _ h1 h

theorem evaluateSection (e : Nat) {p : State × List (Nat × Occ)} (h : Work κ a p.1) :
    Work κ a (State.evaluateSection p e).1 := by
  unfold State.evaluateSection
  split
  · rename_i c hc
    exact h.putCount _ _ _ hc (evaluated_legal _)
  · exact h

theorem roundComplete (h : Work κ a s) : Work κ a s.roundComplete.1 := by
  unfold State.roundComplete
  generalize List.range Config.elementCount = l
  have h1 := foldl1 (f := State.evaluateSection) (p := (s, [])) (fun e h => evaluateSection e h) l h
  exact h1.beside (.dps _ _)

theorem sectionReset (e : Nat) (h : Work κ a s) : Work κ a (s.sectionReset e) := by
  unfold State.sectionReset
  split
  · rename_i c hc
    exact (h.putCount _ _ _ hc fun _ => by simp [SectCount.legal]).sectionChange _ _
  · exact h

end Work

/-- The work of a command, at the end of its step: the notices are taken. -/
structure Finished (κ : Bool) (a t : State) : Prop where
  work : Work κ a t
  quiet : ∀ i, ¬ t.Transferring i

theorem Finished.finish {κ : Bool} {a s : State} (b : State) (h : Work κ a s) : Finished κ a (State.finish b s) :=
  ⟨h.finish b, Work.finish_quiet b s⟩

end Sys2Proof.Machine
end

