-- ==== Sys2Proof/Laws/Commands.lean ====
section
/-! SUPPORT. Each command but COLD_START and LOAD_COMPLETE is a sequence of deeds (Laws/Work.lean). -/

set_option Elab.async false

namespace Sys2Proof.Machine
namespace Work

variable {κ : Bool} {a s : State}

/-! ### The store -/

theorem listLegal_filter {l : List StoreEntry} (p : StoreEntry → Bool) (h : ListLegal l) : ListLegal (l.filter p) := by
  refine ⟨fun k => Nat.le_trans (List.Sublist.length_le ?_) (h.1 k), h.2.sublist ?_⟩
  · exact List.filter_sublist.filter _
  · exact List.filter_sublist.map _

theorem listLegal_map {l : List StoreEntry} (f : StoreEntry → StoreEntry) (hl : ∀ e, (f e).link = e.link)
    (hr : ∀ e, (f e).route = e.route) (h : ListLegal l) : ListLegal (l.map f) := by
  have h1 : (l.map f).map StoreEntry.route = l.map StoreEntry.route := by
    rw [List.map_map]; exact List.map_congr_left fun e _ => hr e
  refine ⟨fun k => ?_, by rw [h1]; exact h.2⟩
  have h2 : ((l.map f).filter fun e => e.link == k).length = (l.filter fun e => e.link == k).length := by
    rw [List.filter_map, List.length_map]
    simp only [Function.comp_def, hl]
  rw [h2]
  exact h.1 k

theorem listLegal_modEntry {l : List StoreEntry} (n : Nat) (f : StoreEntry → StoreEntry)
    (hl : ∀ e, (f e).link = e.link) (hr : ∀ e, (f e).route = e.route) (h : ListLegal l) : ListLegal (modEntry n f l) := by
  refine listLegal_map _ (fun e => ?_) (fun e => ?_) h <;> split <;> simp [hl, hr]

theorem listLegal_append {l : List StoreEntry} {x : StoreEntry} (hr : x.route ∉ l.map StoreEntry.route)
    (hq : (l.filter fun e => e.link == x.link).length < 8) (h : ListLegal l) : ListLegal (l ++ [x]) := by
  constructor
  · intro k
    rw [List.filter_append, List.length_append]
    by_cases hk : x.link = k
    · subst hk
      simp
      omega
    · simp [hk, h.1 k]
  · rw [List.map_append]
    exact List.nodup_append.2 ⟨h.2, by simp, by
      intro y hy z hz e
      simp only [List.map_cons, List.map_nil, List.mem_singleton] at hz
      exact hr (hz ▸ e ▸ hy)⟩

theorem withStore (q : Rqs) (k : ListLegal s.rqs.store → ListLegal q.store) (h : Work κ a s) :
    Work κ a { s with rqs := q } := h.beside (.store s q s.rim.requests k fun _ _ => Nat.le_refl _)

theorem withRequests (r : List RouteRequest) (i : κ = true → ∀ b, incomingOf b r ≤ incomingOf b s.rim.requests)
    (h : Work κ a s) : Work κ a { s with rim := { s.rim with requests := r } } := h.beside (.store s s.rqs r id i)

theorem withAnyRequests (r : List RouteRequest) (h : Work false a s) :
    Work false a { s with rim := { s.rim with requests := r } } := h.withRequests r Bool.noConfusion

theorem incomingOf_tail (b : BLink) (x : RouteRequest) (l : List RouteRequest) : incomingOf b l ≤ incomingOf b (x :: l) := by
  unfold incomingOf
  exact List.Sublist.length_le ((List.sublist_cons_self x l).filter _)

theorem removeEntry (e : StoreEntry) (why : RemovalReason) (h : Work κ a s) : Work κ a (s.removeEntry e why) :=
  mark _ (h.withStore _ fun k => listLegal_filter _ k)

theorem modStore (n : Nat) (f : StoreEntry → StoreEntry) (hl : ∀ e, (f e).link = e.link)
    (hr : ∀ e, (f e).route = e.route) (h : Work κ a s) :
    Work κ a { s with rqs := { s.rqs with store := modEntry n f s.rqs.store } } :=
  h.withStore _ fun k => listLegal_modEntry n f hl hr k

theorem handOff (l : OpLink) (r n : Nat) (t : Ticks) (h : Work κ a s) : Work κ a (s.handOff l r n t).1 := by
  unfold State.handOff
  split
  · exact h
  · rename_i hd
    split
    · exact h
    · split
      · exact h
      · rename_i hq
        refine mark _ (h.withStore _ fun k => listLegal_append ?_ ?_ k)
        · simp only [State.storeEntry, Bool.not_eq_true, Option.isSome_eq_false_iff, Option.isNone_iff_eq_none,
            List.find?_eq_none] at hd
          intro hm
          obtain ⟨e, he, hr⟩ := List.mem_map.1 hm
          exact absurd (hd e he) (by simpa using hr)
        · simpa [Config.storeQuota] using hq

theorem dropAuthority (l : OpLink) (n : Nat) (h : Work κ a s) : Work κ a (s.dropAuthority l n) := by
  unfold State.dropAuthority
  generalize s.rqs.store.filter _ = z
  exact foldl (f := fun s e => s.removeEntry e .authorityLost) (fun e h => h.removeEntry e _) z h

theorem putSel (l : OpLink) (v : Option Selection) (h : Work κ a s) : Work κ a (s.putSel l v) := by
  unfold State.putSel
  split
  · exact h
  · exact markAt _ _ (h.beside (.sel s _))

/-! ### OLC records -/

theorem answer (l : OpLink) (q : Word16) (b : ReplyBody) (h : Work κ a s) : Work κ a (s.answer l q b) :=
  h.modOlc l _ ⟨id, id⟩

theorem answerHeld (l : OpLink) (q : Word16) (b : ReplyBody) (h : Work κ a s) : Work κ a (s.answerHeld l q b) :=
  answer l q b (h.modOlc l (fun c => { c with held := none }) ⟨id, id⟩)

theorem answerCancel (e : StoreEntry) (b : ReplyBody) (h : Work κ a s) : Work κ a (s.answerCancel e b) := by
  unfold State.answerCancel
  split
  · exact h.answerHeld _ _ _
  · exact h

theorem putAux (l : OpLink) (v : Option PendingAux) (h : Work κ a s) : Work κ a (s.putAux l v) :=
  markAt l .aux (h.modOlc l (fun c => { c with aux := v }) ⟨id, id⟩)

/-! ### Boundary links -/

theorem flush (b : BLink) (h : Work κ a s) : Work κ a (s.flush b) := by
  unfold State.flush
  dsimp only
  generalize (s.blcAt b).heldBack = z
  refine foldl (fun t h => h.flushOne b t) z (h.besideLists b _ (fun r k hd => ?_) (fun _ => rfl) fun _ => rfl)
  obtain ⟨h1, h2, h3, _, h5, h6, h7, h8⟩ := k hd
  exact ⟨h1, h2, h3, rfl, h5, h6, h7, h8⟩

theorem dropChange (b : BLink) (h : Work κ a s) : Work κ a (s.dropChange b) := by
  have h1 : Work κ a (s.modBlc b fun r => { r with change := .idle, changeTimer := .stopped }) := by
    refine h.besideLists b _ (fun r k hd => ?_) (fun _ => rfl) fun _ => rfl
    obtain ⟨h1, h2, h3, h4, h5, h6, h7, h8⟩ := k hd
    exact ⟨h1, h2, h3, h4, h5, h6, h7, rfl⟩
  unfold State.dropChange
  dsimp only
  split
  · exact h1.notify _
  · exact h1

theorem enterSync (b : BLink) (h : Work κ a s) : Work κ a (s.enterSync b) :=
  ((h.dropChange b).besideLists b (fun r =>
    { r with link := .sync, release := .stopped, silenceTimer := .running Config.silenceTime
             holdingsTimer := .running Config.responseTime }) (fun r _ hd => by simp at hd) (fun _ => rfl)
    fun _ => rfl).sendNow b _

theorem goDown (b : BLink) (h : Work κ a s) : Work κ a (s.goDown b) := by
  unfold State.goDown
  refine notifyAll _ ?_ (besideLists b _ (fun r k hd => k hd) (fun _ => rfl) (fun _ => rfl) ?_)
  · intro i hi
    simp only [List.mem_cons, List.mem_append, List.mem_map, reduceCtorEq, and_false, exists_false, or_self] at hi
  have hc : ((s.dropChange b).blcAt b).change = .idle := by
    unfold State.dropChange
    dsimp only
    split <;> simp [State.notify, State.blcAt] <;> exact congrArg Blc.change (blcAt_modBlc_same ..)
  exact (h.dropChange b).beside (.blc _ b _ ⟨fun _ _ => ⟨rfl, rfl, rfl, rfl, rfl, rfl, rfl, hc⟩, fun _ => Nat.zero_le _,
    fun _ => Nat.le_refl _⟩)

theorem askDirection (b : BLink) (hl : (s.blcAt b).link ≠ .down) (h : Work κ a s) : Work κ a (s.askDirection b) :=
  sendNow b .dirAsk (h.beside (.blc s b { s.blcAt b with change := .asking, changeTimer := .running Config.responseTime }
    ⟨fun _ hd => absurd hd hl, id, fun _ => Nat.le_refl _⟩))

theorem directionTests_link {b : BLink} (h : s.directionTests b = true) : (s.blcAt b).link ≠ .down := by
  intro hd
  simp [State.directionTests, hd] at h

theorem requestDirection (b : BLink) (h : Work κ a s) : Work κ a (s.requestDirection b) := by
  unfold State.requestDirection
  split
  · rename_i ht
    exact h.askDirection b (directionTests_link ht)
  · exact h.notify _

/-! ### Reservation -/

theorem applyReservation_deeds (i : Nat) (d : RouteDef) (c : List (Nat × Option FlankTarget)) :
    Deeds κ s (s.applyReservation i d c).state := by
  unfold State.applyReservation
  dsimp only
  have h2 : Deeds κ s (s.locked i d) := .ofSmalls .refl (locked_smalls s i d)
  unfold State.locked at h2
  have h4 := Deeds.foldl (f := State.transferRest) (fun x h => h.ofSmalls (.transferRest x .refl)) (s.transferOwners d) h2
  have h5 := Deeds.foldl (f := State.claimItem i)
    (fun x h => h.ofSmalls (Walk.claimItem (gone := fun _ => False) i x .refl).smalls) (indexFrom1 c) h4
  have h6 := Deeds.foldl (f := State.throwReq)
    (fun x h => h.ofSmalls (Walk.throwClaimed (gone := fun _ => False) _ .refl).smalls)
    ((d.path ++ d.overlap.toList).flatMap PathItem.points) h5
  have h7 := Deeds.foldl (f := State.throwClaimed)
    (fun x h => h.ofSmalls (Walk.throwClaimed (gone := fun _ => False) x .refl).smalls) (c.filterMap Prod.snd) h6
  refine Deeds.foldl (f := State.askItem i)
    (fun x h => h.ofSmalls (Walk.askItem (gone := fun _ => False) i x .refl).smalls) _ ?_
  split
  · exact h7.trans (refl.requestDirection _).deeds
  · exact h7

theorem newInst_whole (o : Origin) (d : RouteDef) (r : Reserved) (t : Ticks) : (newInst o d r t).Whole d :=
  ⟨rfl, rfl, fun h => by simp [Inst.overlapHeld, newInst, h]⟩

/-- A definition of the catalogue is the one its number names. -/
theorem routeDef_of_mem {d : RouteDef} (hn : (s.rcat.map RouteDef.number).Nodup) (hd : d ∈ s.rcat) :
    s.routeDef d.number = some d := by
  unfold State.routeDef
  revert hn hd
  generalize s.rcat = l
  intro hn hd
  induction l with
  | nil => cases hd
  | cons x l ih =>
    rw [List.map_cons, List.nodup_cons] at hn
    rcases List.mem_cons.1 hd with rfl | hd
    · simp
    · have hx : x.number ≠ d.number := fun hc => hn.1 (hc ▸ List.mem_map_of_mem hd)
      rw [List.find?_cons_of_neg (by simpa using hx)]
      exact ih hn.2 hd

/-- A trial over definitions of the catalogue, for a free record, where no transfer notice waits. -/
theorem tryVariants (o : Origin) (i : Nat) (hi : s.inst i = none) (hi48 : i < 48) (hn : s.notices = a.notices)
    (h : Work κ a s) : ∀ (ds : List RouteDef) (f : Option Nat) {j d t}, (∀ d ∈ ds, d ∈ s.rcat) →
    s.tryVariants o i ds f = .reserved j d t → Work κ a t := by
  intro ds
  induction ds with
  | nil => intro f j d t _ e; simp [State.tryVariants] at e
  | cons x l ih =>
    intro f j d t hm e
    unfold State.tryVariants at e
    split at e
    · rename_i r hr
      cases e
      unfold State.reserve at hr
      split at hr
      · cases hr
      · rename_i c _
        cases hr
        have hd : Deeds κ s (s.applyReservation i x c).state := applyReservation_deeds i x c
        refine ⟨(h.deeds.trans hd).tail (.small (.inst _ _ _)), fun ha => ?_⟩
        have hq : ∀ k, ¬ s.Transferring k := fun k => by rw [State.Transferring, hn]; exact ha.2.1 k
        have ho := applyReservation_owned c hi (newInst_whole o x (s.applyReservation i x c) s.cfl.settingTime) hq
          ((h.owned ha).fewer fun _ hf => hf.elim)
        have hc : (s.applyReservation i x c).state.rcat = s.rcat := hd.rcat
        have hv := live_congr (applyReservation_insts s i x c) hc
        rw [← hv] at ho
        have hr : (s.applyReservation i x c).state.routeDef x.number = some x := by
          rw [routeDef_of_rcat hc]
          exact routeDef_of_mem (h.rcat ▸ ha.2.2.1) (hm x List.mem_cons_self)
        have ht := ho.register (v := newInst o x (s.applyReservation i x c) s.cfl.settingTime) hi48 hr
        rwa [show State.Transferring (State.putInst _ i _) = (s.applyReservation i x c).state.Transferring from
          funext fun j => by simp [State.Transferring]]
    · exact ih _ (fun d hd => hm d (List.mem_cons_of_mem _ hd)) e

theorem tryRoute (o : Origin) (ds : List RouteDef) {j d t} (e : s.tryRoute o ds = .reserved j d t)
    (hm : ∀ d ∈ ds, d ∈ s.rcat) (hn : s.notices = a.notices) (h : Work κ a s) : Work κ a t := by
  unfold State.tryRoute at e
  split at e
  · cases e
  · rename_i i hf
    unfold State.freeInst at hf
    have h1 := List.find?_some hf
    have h2 := List.mem_range.1 (List.mem_of_find?_eq_some hf)
    exact h.tryVariants o i (by simpa using h1) h2 hn ds none hm e

theorem mem_variants {e x : Nat} {d : RouteDef} (h : d ∈ s.variants e x) : d ∈ s.rcat := by
  unfold State.variants at h
  obtain ⟨k, _, h⟩ := List.mem_flatMap.1 h
  exact (List.mem_filter.1 (List.mem_filter.1 h).1).1

theorem rimRoute (l : OpLink) (e x : Nat) (f : Bool) (n : Nat) (hn : s.notices = a.notices) (h : Work κ a s) :
    Work κ a (s.rimRoute l e x f n).1 := by
  unfold State.rimRoute
  repeat' split
  all_goals first
    | exact h
    | exact h.handOff _ _ _ _
    | (rename_i ht; exact (h.tryRoute _ _ ht (fun _ hd => mem_variants hd) hn).checkWaiting _)

theorem reachRim (l : OpLink) (q : Word16) (e x : Nat) (f : Bool) (n : Nat) (hn : s.notices = a.notices) (h : Work κ a s) :
    Work κ a (s.reachRim l q e x f n).1 := by
  unfold State.reachRim
  (repeat' split)
  · exact h
  · exact h.rimRoute _ _ _ _ _ hn
  · exact modOlc l (fun c => { c with held := some q }) ⟨id, id⟩
      (h.withRequests (s.rim.requests ++ [.setRoute l q e x f n]) fun _ b => by
        simp [incomingOf, RouteRequest.isIncoming])

theorem putSel_notices (l : OpLink) (v : Option Selection) : (s.putSel l v).notices = s.notices := by
  unfold State.putSel
  split <;> rfl

theorem pressed (l : OpLink) (q : Word16) (e : Nat) (hn : s.notices = a.notices) (h : Work κ a s) : Work κ a (s.pressed l q e).1 := by
  unfold State.pressed State.pressFirst State.pressSecond State.select
  dsimp only
  repeat' split
  all_goals first
    | exact h
    | exact h.putSel _ _
    | exact (h.putSel _ _).reachRim _ _ _ _ _ _ ((putSel_notices _ _).trans hn)

theorem takeWaitingRoute (l : OpLink) {t : State} (e : s.takeWaitingRoute l = some t) (hn : s.notices = a.notices)
    (h : Work κ a s) : Work κ a t := by
  unfold State.takeWaitingRoute at e
  split at e
  · rename_i hr _
    split at e
    · cases e
      exact answerHeld _ _ _ (rimRoute _ _ _ _ _ hn (h.withRequests _ fun _ b => hr ▸ incomingOf_tail b _ _))
    · cases e
  · cases e

/-! ### Retests and incoming requests -/

theorem putBack (e : StoreEntry) (h : Work κ a s) : Work κ a (s.putBack e) := by
  unfold State.putBack
  repeat' split
  · exact (h.removeEntry _ _).answerCancel _ _
  · exact (h.removeEntry _ _).answerCancel _ _
  · exact h.removeEntry _ _
  · exact h.modStore _ _ (fun _ => rfl) fun _ => rfl

theorem mem_pairVariants {n : Nat} {d : RouteDef} (h : d ∈ s.pairVariants n) : d ∈ s.rcat := by
  unfold State.pairVariants at h
  split at h
  · exact mem_variants h
  · cases h

theorem retest (n : Nat) (hn : s.notices = a.notices) (h : Work κ a s) : Work κ a (s.retest n) := by
  unfold State.retest
  split
  · exact h.nextRetest
  · dsimp only
    have hl : Work κ a { s with rqs := { s.rqs with
        store := modEntry n (fun (x : StoreEntry) => { x with presented := false, lifted := true }) s.rqs.store } } :=
      h.modStore _ _ (fun _ => rfl) fun _ => rfl
    split
    · rename_i ht
      exact ((((hl.tryRoute _ _ ht (fun _ hd => mem_pairVariants hd) hn).removeEntry _ _).answerCancel _ _).nextRetest).checkWaiting _
    · exact (hl.putBack _).nextRetest
    · exact (hl.putBack _).endPass

theorem takeRetest (hn : s.notices = a.notices) (h : Work κ a s) : Work κ a s.takeRetest := by
  unfold State.takeRetest
  split
  · rename_i hr
    exact (h.withRequests _ fun _ b => hr ▸ incomingOf_tail b _ _).retest _ hn
  · exact h

theorem takeIncoming (hn : s.notices = a.notices) (h : Work false a s) : Work false a s.takeIncoming := by
  unfold State.takeIncoming
  split
  · dsimp only
    split
    · rename_i ht
      have h1 := (h.withAnyRequests _).tryRoute _ _ ht (fun d hd => List.mem_of_find?_eq_some (Option.mem_toList.1 hd)) hn
      refine Work.checkWaiting _ (h1.beside (.blc _ _ _ ⟨?_, id, fun k => nomatch k⟩))
      exact fun k hd => k hd
    · exact (h.withAnyRequests _).sendHeld _ _
  · exact h

theorem lifetimeExpires (n : Nat) (h : Work κ a s) : Work κ a (s.lifetimeExpires n) := by
  unfold State.lifetimeExpires
  repeat' split
  · exact h
  · exact h.modStore _ _ (fun _ => rfl) fun _ => rfl
  · exact h.removeEntry _ _
  · exact h

/-! ### Authority and auxiliary operations -/

theorem clearSelection (l : OpLink) (n : Nat) (h : Work κ a s) : Work κ a (s.clearSelection l n) := by
  unfold State.clearSelection
  repeat' split
  · exact h.putSel _ _
  · exact h
  · exact h

theorem changeHolder (n : Nat) (v : Holder) (h : Work κ a s) : Work κ a (s.changeHolder n v) := by
  have h1 : Work κ a (s.putArea n ⟨v, .stopped, if v == .centre then (s.areaRec n).force else .stopped⟩) := by
    refine h.beside (.area s n _ fun _ => ⟨fun _ => rfl, fun hf => ?_⟩)
    by_cases hv : v = .centre
    · exact hv
    · simp [hv] at hf
  unfold State.changeHolder
  dsimp only
  split
  · exact (h1.dropAuthority _ _).clearSelection _ _
  · exact h1

theorem takeArea (l : OpLink) (n : Nat) (h : Work κ a s) : Work κ a (s.takeArea l n).1 := by
  unfold State.takeArea
  dsimp only
  repeat' split
  all_goals first
    | exact h
    | exact h.changeHolder _ _
    | exact changeHolder _ _ (h.beside (.area s n { s.areaRec n with force := .stopped } fun k =>
        ⟨k.1, fun hf => absurd rfl hf⟩))

theorem offerArea (l : OpLink) (n : Nat) (h : Work κ a s) : Work κ a (s.offerArea l n).1 := by
  unfold State.offerArea
  repeat' split
  all_goals first
    | exact h
    | exact h.changeHolder _ _
    | skip
  rename_i hh _
  refine h.beside (.area s n _ fun k => ⟨fun hn => ?_, k.2⟩)
  dsimp only at hn
  cases l <;> simp [hn, holderOf] at hh

theorem returnArea (l : OpLink) (n : Nat) (h : Work κ a s) : Work κ a (s.returnArea l n).1 := by
  unfold State.returnArea
  repeat' split
  all_goals first
    | exact h
    | exact h.changeHolder _ _

theorem issueAux (l : OpLink) (k o : Nat) (h : Work κ a s) : Work κ a (s.issueAux l k o).1 := by
  unfold State.issueAux
  repeat' split
  all_goals first
    | exact h
    | exact h.putAux _ _

theorem withCfl (c : Cfl) (hl : c.load = s.cfl.load) (ht : c.tolerance = s.cfl.tolerance) (h : Work κ a s) :
    Work κ a { s with cfl := c } := h.beside (.cfl s c hl ht)

theorem writeCounters (h : Work κ a s) : Work κ a s.writeCounters := by
  unfold State.writeCounters
  split
  · exact h.withCfl _ rfl rfl
  · exact (h.withCfl { s.cfl with counterImage := s.aou.counters, writing := true, writeAgain := false } rfl rfl).send _

theorem countOp (k : AuxKind) (h : Work κ a s) : Work κ a (s.countOp k) := writeCounters (h.beside (.counted s k))

theorem suspectClear (e : Nat) (h : Work κ a s) : Work κ a (s.suspectClear e) := by
  unfold State.suspectClear
  refine retestTrigger ?_
  split
  · exact h
  · exact h.putElem _ _ (.of_empty _ fun k => by cases k <;> rfl)
  · exact h.putElem _ _ (.of_empty _ fun k => by cases k <;> rfl)
  · exact h.writeTrack _ _ (.of_empty _ fun k => by cases k <;> rfl)
  · exact h.putElem _ _ (.of_empty _ fun k => by cases k <;> rfl)

theorem emergencyRelease (i : Nat) (h : Work κ a s) : Work κ a (s.emergencyRelease i) :=
  h.modInst _ _ fun _ => rfl

/-- AUTH-FORCE needs the area in the centre's hands (R152). -/
theorem executeAux (k : AuxKind) (o : Nat) (hk : s.auxReady k o = true) (h : Work κ a s) : Work κ a (s.executeAux k o) := by
  unfold State.executeAux
  split
  · exact h.emergencyRelease _
  · exact h.sectionReset _
  · exact h.suspectClear _
  · refine h.beside (.area s o _ fun l => ⟨l.1, fun _ => ?_⟩)
    simp only [State.auxReady, Bool.and_eq_true, beq_iff_eq] at hk
    exact hk.1
  · split
    · exact h.besideLists _ _ (fun r k hd => k hd) (fun _ => rfl) fun _ => rfl
    · exact h

theorem confirmAux (l : OpLink) (k o : Nat) (h : Work κ a s) : Work κ a (s.confirmAux l k o).1 := by
  unfold State.confirmAux
  split
  · exact h
  · dsimp only
    have h1 := h.putAux l none
    split
    · exact h1
    · split
      · exact h1
      · split
        · exact h1
        · rename_i hr
          simp only [Bool.or_eq_true, Bool.not_eq_true', not_or, Bool.not_eq_true, Bool.not_eq_false] at hr
          exact (h1.executeAux _ _ hr.2).countOp _

theorem writeEnds (back : Option AouCounters) (h : Work κ a s) : Work κ a (s.writeEnds back) := by
  unfold State.writeEnds
  split
  · exact h
  · dsimp only
    generalize (back == some s.cfl.counterImage) = ok
    have h1 : Work κ a (if s.aou.storeFault = !ok then s
        else ({ s with aou := { s.aou with storeFault := !ok } } : State).mark .partStatus) := by
      split
      · exact h
      · exact mark _ (h.beside (.fault s _))
    generalize (if s.aou.storeFault = !ok then s
        else ({ s with aou := { s.aou with storeFault := !ok } } : State).mark .partStatus) = u at h1 ⊢
    split
    · exact (h1.withCfl { u.cfl with writing := false, writeAgain := false } rfl rfl).writeCounters
    · exact h1.withCfl { u.cfl with writing := false, writeAgain := false } rfl rfl

/-! ### The scrub -/

theorem rebuildSuspect (e : Nat) (h : Work κ a s) : Work κ a (s.rebuildSuspect e) := by
  unfold State.rebuildSuspect
  refine notify _ ?_
  split
  · exact h
  · exact h.putElem _ _ (.of_suspect _ (fun k _ => by cases k <;> nofun) rfl)
  · exact ((h.putElem _ _ (.of_suspect _ (fun k _ => by cases k <;> nofun) rfl)).dropCmd e).enqueueStop e
  · exact h.writeTrack _ _ (.of_suspect _ (fun k _ => by cases k <;> nofun) rfl)
  · exact h.putElem _ _ (.of_suspect _ (fun k _ => by cases k <;> nofun) rfl)

theorem scrubRecord (f : ScrubResult) (h : Work κ a s) : Work κ a (s.scrubRecord f) := by
  unfold State.scrubRecord
  dsimp only
  have h1 : Work κ a { s.rewriteCheck s.lkc.scrub with
      lkc := { (s.rewriteCheck s.lkc.scrub).lkc with corrected := satInc s.lkc.corrected } } :=
    (h.beside (.check s s.lkc.scrub)).beside (.scrub _ s.lkc.scrub _)
  split
  · exact h
  · exact h1
  · split
    · exact h1
    · split
      · exact h
      · exact h.rebuildSuspect _

theorem scrubStep (f : ScrubResult) (h : Work κ a s) : Work κ a (s.scrubStep f) := by
  unfold State.scrubStep
  split
  · exact (h.scrubRecord f).beside (.scrub _ _ (s.scrubRecord f).lkc.corrected)
  · exact h

/-! ### Operator links -/

theorem takeRequest (l : OpLink) (p : Request → Bool) (act : State → Telegram → State × Option ReplyBody)
    (hact : ∀ {x : State} (t : Telegram), x.notices = s.notices → Work κ a x → Work κ a (act x t).1) (h : Work κ a s) :
    Work κ a (s.takeRequest l p act) := by
  unfold State.takeRequest
  split
  · exact h
  · dsimp only
    have h1 : Work κ a (s.modOlc l fun c => { c with waiting := c.waiting.tail }) :=
      h.modOlc l _ ⟨fun k => by simp; omega, id⟩
    have hr : (s.modOlc l fun c => { c with waiting := c.waiting.tail }).notices = s.notices := rfl
    split
    · refine answer _ _ _ ?_
      split
      · exact h1.markAt _ _
      · exact h1
    · split
      · exact h1.answer _ _ _
      · split
        · exact (hact _ hr h1).answer _ _ _
        · exact hact _ hr h1

theorem runRequest (l : OpLink) (p : Request → Bool) (act : State → Telegram → State × Option ReplyBody)
    (hact : ∀ {x : State} (t : Telegram), x.notices = s.notices → Work κ s x → Work κ s (act x t).1) :
    ∃ t, Machine.runRequest l p act s = .next t ∧ Finished κ s t :=
  ⟨_, rfl, .finish _ (takeRequest l p act hact .refl)⟩

theorem arrive (l : OpLink) (bytes : List Byte) (h : Work κ a s) : Work κ a (s.arrive l bytes) := by
  refine h.modOlc l _ ⟨fun k => ?_, fun k => ?_⟩
  · split
    · split
      · rename_i hlt
        simp only [Config.waitingMax] at hlt
        simp
        omega
      · exact k
    · exact k
  · split
    · split
      · exact k
      · exact k
    · exact k

theorem transmitReply (l : OpLink) (h : Work κ a s) : Work κ a (s.transmitReply l) := by
  unfold State.transmitReply
  split
  · exact (h.modOlc l _ ⟨id, id⟩).send _
  · exact h

theorem cancelRoute (l : OpLink) (e : Nat) (h : Work κ a s) : Work κ a (s.cancelRoute l e).1 := by
  unfold State.cancelRoute
  dsimp only
  repeat' split
  all_goals first
    | exact h
    | exact h.releaseAll _
    | exact (h.stopEntry _).releaseAll _
    | exact modInst _ _ (fun _ => rfl) (h.stopEntry _)

theorem reClear (l : OpLink) (e : Nat) (h : Work κ a s) : Work κ a (s.reClear l e).1 := by
  unfold State.reClear
  repeat' split
  all_goals simp (maxDischargeDepth := 12) only [clearingPasses, h]

theorem storeCancel (l : OpLink) (n : Nat) (q : Word16) (h : Work κ a s) : Work κ a (s.storeCancel l n q).1 := by
  unfold State.storeCancel
  repeat' split
  all_goals first
    | exact h
    | exact h.removeEntry _ _
    | exact modOlc l (fun c => { c with held := some q }) ⟨id, id⟩ (h.modStore _
        (fun (x : StoreEntry) => { x with waitingCancel := some q }) (fun _ => rfl) fun _ => rfl)

theorem stopInst (n i : Nat) (h : Work κ a s) : Work κ a (State.stopInst n s i) := by
  unfold State.stopInst
  repeat' split
  all_goals simp only [supervise, h]

theorem stopArea (l : OpLink) (n : Nat) (h : Work κ a s) : Work κ a (s.stopArea l n).1 := by
  unfold State.stopArea
  repeat' split
  · exact h
  · exact h
  · generalize instNumbers = z
    exact foldl (f := State.stopInst n) (fun i h => h.stopInst n i) z h

theorem pointThrow (l : OpLink) (e : Nat) (p : Pos) (h : Work κ a s) : Work κ a (s.pointThrow l e p).1 := by
  unfold State.pointThrow
  dsimp only
  repeat' split
  all_goals simp only [throwRequest, h]

theorem pointReset (l : OpLink) (e : Nat) (h : Work κ a s) : Work κ a (s.pointReset l e).1 := by
  unfold State.pointReset
  repeat' split
  all_goals first
    | exact h
    | (rename_i hp _ _ _
       refine retestTrigger (h.writePoint _ _ fun q hq => ?_)
       cases hp.symm.trans hq
       exact ⟨rfl, rfl⟩)

theorem signalReset (l : OpLink) (e : Nat) (h : Work κ a s) : Work κ a (s.signalReset l e).1 := by
  unfold State.signalReset
  repeat' split
  all_goals first
    | exact h
    | (rename_i hp _ _ _
       refine retestTrigger (h.writeSignal _ _ fun q hq => ?_)
       cases hp.symm.trans hq
       exact ⟨rfl, rfl, rfl⟩)

theorem setBlock (l : OpLink) (e : Nat) (v : Bool) (h : Work κ a s) : Work κ a (s.setBlock l e v).1 := by
  unfold State.setBlock
  have h1 := h.putElem e ((s.elem e).withBlock v) (by
    cases s.elem e
    · exact .refl _
    · exact sheds_point rfl rfl
    · exact sheds_signal rfl rfl rfl
    · exact sheds_track rfl rfl
    · exact .refl _)
  dsimp only
  repeat' split
  all_goals simp (maxDischargeDepth := 12) only [retestTrigger, h, h1]

theorem setOpen (l : OpLink) (e : Nat) (v : Bool) (h : Work κ a s) : Work κ a (s.setOpen l e v).1 := by
  unfold State.setOpen
  repeat' split
  all_goals first
    | exact h
    | exact h.besideLists _ (fun b => { b with isOpen := v }) (fun r k hd => k hd) (fun _ => rfl) fun _ => rfl

theorem dirRequest (l : OpLink) (e : Nat) (h : Work κ a s) : Work κ a (s.dirRequest l e).1 := by
  unfold State.dirRequest
  repeat' split
  all_goals first
    | exact h
    | (rename_i ht; exact h.askDirection _ (directionTests_link ht))

theorem clearCounters (l : OpLink) (h : Work κ a s) : Work κ a (s.clearCounters l) := by
  unfold State.clearCounters
  dsimp only
  generalize blinks = z
  refine foldl (f := State.clearCounts) (fun b h =>
    h.besideLists b _ (fun r k hd => k hd) (fun _ => rfl) fun _ => rfl) z ?_
  have h1 : Work κ a (s.modOlc l fun c =>
      { c with good := SatCounter.zero, discarded := SatCounter.zero, refused := SatCounter.zero }) :=
    h.modOlc l _ ⟨id, id⟩
  exact (h1.beside (.scrub _ s.lkc.scrub 0)).beside (.tbc _ { s.tbc with missed := 0 } id)

theorem snapshot (l : OpLink) (h : Work κ a s) : Work κ a (s.snapshot l) :=
  foldl (f := fun (s : State) o => s.markAt l o) (fun o h => h.markAt l o) _ h

theorem sendIndication (l : OpLink) (h : Work κ a s) : Work κ a (s.sendIndication l) := by
  unfold State.sendIndication
  dsimp only
  split
  · split
    · rename_i o rest ho
      refine send _ (h.modOlc l (fun c => { c with marks := rest, indNo := c.indNo + 1 }) ⟨id, fun k => ?_⟩)
      rw [ho] at k
      exact (List.nodup_cons.1 k).2
    · exact h
  · exact h

end Work
end Sys2Proof.Machine
end

