-- ==== Sys2Proof/Laws/Exec.lean ====
section
/-! SUPPORT. The bus commands and the boundary commands are sequences of deeds too; every command but COLD_START and
LOAD_COMPLETE answers a next state that deeds lead to. -/

set_option Elab.async false

namespace Sys2Proof.Machine
namespace Work

variable {κ : Bool} {a s : State}

/-! ### The trackside bus -/

theorem handOver1 (c : List (Nat × Occ)) (p : Nat × Bool) (h : Work κ a s) : Work κ a (Machine.handOver1 c s p) := by
  unfold Machine.handOver1
  dsimp only
  split
  · split
    · exact (h.sectionChange _ _).settle
    · exact h.sectionChange _ _
  · exact h

theorem handChanges (o : Schedule) (c : List (Nat × Occ)) (h : Work κ a s) : Work κ a (s.handChanges o c) := by
  unfold State.handChanges
  exact foldl (f := fun (s : State) (c : Nat × Occ) => s.sectionChange c.1 c.2) (fun c h => h.sectionChange _ _) _
    (foldl (f := Machine.handOver1 c) (fun p h => h.handOver1 c p) o h)

theorem putUnit (u : UnitRow) (h : Work κ a s) : Work κ a (s.putUnit u) := h.modTbc _ id

theorem setCmdMisses (n k : Nat) (h : Work κ a s) : Work κ a (s.setCmdMisses n k) := by
  refine h.modTbc _ fun q => ?_
  have e : ∀ l : List QueuedCmd, (l.map fun (c : QueuedCmd) => if c.address == n then { c with misses := k } else c).map
      QueuedCmd.address = l.map QueuedCmd.address := fun l => by
    rw [List.map_map]
    refine List.map_congr_left fun c _ => ?_
    simp only [Function.comp]
    split <;> rfl
  exact (congrArg List.Nodup (e s.tbc.queue)).mpr q

theorem startCommand (h : Work κ a s) : Work κ a s.startCommand := by
  unfold State.startCommand
  split
  · exact (h.modTbc _ id).send _
  · exact h

theorem nextPoll (o : Schedule) (h : Work κ a s) : Work κ a (s.nextPoll o) := by
  unfold State.nextPoll
  split
  · exact (h.modTbc _ id).send _
  · exact ((h.modTbc _ id).roundComplete).handChanges _ _
  · exact h

theorem startRound (h : Work κ a s) : Work κ a s.startRound := by
  unfold State.startRound
  dsimp only
  repeat' split
  all_goals first
    | exact h
    | exact h.modTbc _ id
    | exact (h.modTbc _ id).send _
    | exact ((((h.modTbc _ id).modTbc _ id).send _).modTbc _ id).nextPoll _
    | exact ((h.modTbc _ id).modTbc _ id).nextPoll _

theorem betweenRounds (h : Work κ a s) : Work κ a s.betweenRounds := by
  unfold State.betweenRounds
  split
  · exact h.startCommand
  · exact h

theorem unitLost (o : Schedule) (u : UnitRow) (h : Work κ a s) : Work κ a (s.unitLost o u) := by
  unfold State.unitLost
  split
  · exact (h.chUnreachable _).handChanges _ _
  · exact (h.dequeue _).pduUnreachable _
  · exact (h.setCmdMisses _ _).sduUnreachable _

theorem missed (o : Schedule) (n : Nat) (h : Work κ a s) : Work κ a (s.missed o n) := by
  unfold State.missed
  dsimp only
  split
  · exact h.modTbc _ id
  · split
    · exact ((h.modTbc _ id).putUnit _).unitLost _ _
    · exact (h.modTbc _ id).putUnit _

theorem handReport (o : Schedule) (u : UnitRow) (x : AnswerBody) (h : Work κ a s) : Work κ a (s.handReport o u x) := by
  unfold State.handReport
  split
  · exact (h.chReport _ _ _ _ _).handChanges _ _
  · exact h.pduReport _ _ _
  · exact h.sduReport _ _ _
  · exact h

theorem goodPoll (o : Schedule) (u : UnitRow) (x : AnswerBody) (h : Work κ a s) : Work κ a (s.goodPoll o u x) := by
  unfold State.goodPoll
  dsimp only
  split
  · exact ((h.putUnit _).handReport _ _ _).resumeDrive _
  · exact (h.putUnit _).handReport _ _ _

theorem afterPoll (o : Schedule) (h : Work κ a s) : Work κ a (s.afterPoll o) := by
  unfold State.afterPoll
  repeat' split
  all_goals first
    | exact h.startCommand
    | exact h.nextPoll _

theorem afterCommand (o : Schedule) (h : Work κ a s) : Work κ a (s.afterCommand o) := by
  unfold State.afterCommand
  split
  · exact h.nextPoll _
  · exact h

theorem pollEnds (n : Nat) (x : Option (List Byte)) (o : Schedule) (h : Work κ a s) : Work κ a (s.pollEnds n x o) := by
  unfold State.pollEnds
  dsimp only
  refine afterPoll _ ?_
  have h1 : Work κ a s.freeBus := h.modTbc _ id
  split
  · exact h1.goodPoll _ _ _
  · exact h1.missed _ _

theorem commandAnswered (u : UnitRow) (t : TrackTelegram) (f : Option (Option RejectReason)) (h : Work κ a s) :
    Work κ a (s.commandAnswered u t f) := by
  unfold State.commandAnswered
  split <;> simp only [throwAcked, throwFailed, stopAnswered, stopFailed, showProceedFailed, h]

theorem goodCommand (u : UnitRow) (t : TrackTelegram) (n : Nat) (f : Option (Option RejectReason)) (h : Work κ a s) :
    Work κ a (s.goodCommand u t n f) := by
  unfold State.goodCommand
  dsimp only
  split
  · exact ((h.putUnit _).dequeue _).commandAnswered _ _ _
  · split
    · exact (h.putUnit _).stopAnswered _
    · exact h.putUnit _

theorem missedCommand (o : Schedule) (n k : Nat) (t : TrackTelegram) (h : Work κ a s) :
    Work κ a (s.missedCommand o n k t) := by
  unfold State.missedCommand
  dsimp only
  split
  · exact h
  · have h1 := h.missed o n
    repeat' split
    all_goals first
      | exact h1
      | exact (h1.dequeue _).commandAnswered _ _ _
      | exact h1.setCmdMisses _ _

theorem commandEnds (n : Nat) (t : TrackTelegram) (k : Nat) (x : Option (List Byte)) (o : Schedule) (h : Work κ a s) :
    Work κ a (s.commandEnds n t k x o) := by
  unfold State.commandEnds
  dsimp only
  refine afterCommand _ ?_
  have h1 : Work κ a s.freeBus := h.modTbc _ id
  split
  · exact h1.goodCommand _ _ _ _
  · exact h1.missedCommand _ _ _ _

/-! ### Boundary links -/

/-- A frame counted, with the silence timer of a link out of DOWN restarted. -/
theorem goodFrame (b : BLink) (h : Work κ a s) : Work κ a (s.goodFrame b) := by
  refine h.besideLists b _ (fun r k hd => ?_) (fun _ => rfl) fun _ => rfl
  obtain ⟨h1, h2, h3, h4, h5, h6, h7, h8⟩ := k hd
  exact ⟨h1, h2, h3, h4, h5, by simp [h6, Timer.restart], h7, h8⟩

theorem badFrame (b : BLink) (h : Work κ a s) : Work κ a (s.badFrame b) :=
  h.besideLists b countDiscarded (fun _ k hd => k hd) (fun _ => rfl) fun _ => rfl

theorem receive (b : BLink) (g : Bool) (act : State → State) (hact : ∀ {s : State}, Work κ a s → Work κ a (act s))
    (h : Work κ a s) : Work κ a (s.receive b g act) := by
  unfold State.receive
  repeat' split
  · exact h
  · exact h.badFrame _
  · exact hact (h.goodFrame _)
  · exact h.goodFrame _

theorem inUp (b : BLink) (act : State → State)
    (hact : ∀ {s : State}, (s.blcAt b).link ≠ .down → Work κ a s → Work κ a (act s)) (h : Work κ a s) :
    Work κ a (s.inUp b act) := by
  unfold State.inUp
  split
  · rename_i hu
    exact hact (by simp_all) h
  · exact h

theorem frameArrives (b : BLink) (bytes : List Byte) (h : Work κ a s) : Work κ a (s.frameArrives b bytes) := by
  unfold State.frameArrives
  split
  · exact h.receive _ _ _ fun h => h
  · exact h.receive _ _ _ fun h => h
  · exact h

theorem statusDue (b : BLink) (h : Work κ a s) : Work κ a (s.statusDue b) := by
  unfold State.statusDue
  split
  · exact (h.besideLists b (fun r => { r with statusTimer := .running Config.statusPeriod }) (fun _ k hd => k hd)
      (fun _ => rfl) fun _ => rfl).send _
  · exact h

theorem link_sendNow (b c : BLink) (t : BoundaryTelegram) : (s.sendNow b t).blcAt c = s.blcAt c := by
  unfold State.sendNow
  split <;> rfl

theorem link_enterSync (b : BLink) : ((s.enterSync b).blcAt b).link = .sync := by
  unfold State.enterSync
  rw [link_sendNow, blcAt_modBlc_same]

/-- A STATUS taken out of DOWN. -/
theorem tookStatus (b : BLink) (body : StatusBody) (hl : (s.blcAt b).link ≠ .down) (h : Work κ a s) :
    Work κ a (s.modBlc b (takeStatus body)) :=
  h.beside (.blc s b (takeStatus body (s.blcAt b)) ⟨fun _ hd => absurd hd hl, fun k => by
    simpa [Blc.outCount, takeStatus] using k, fun _ => Nat.le_refl _⟩)

theorem status (b : BLink) (body : StatusBody) (h : Work κ a s) : Work κ a (s.status b body) := by
  unfold State.status
  dsimp only
  split
  · exact (h.enterSync b).tookStatus b body (by rw [link_enterSync]; simp)
  · rename_i hl
    exact h.tookStatus b body (by simp [hl])
  · rename_i hl
    have h1 := h.tookStatus b body (by simp [hl])
    split
    · exact h1.enterSync b
    · exact h1

theorem length_dropFirst {α : Type} (p : α → Bool) (l : List α) : (dropFirst p l).length ≤ l.length := by
  induction l with
  | nil => exact Nat.le_refl _
  | cons x l ih => unfold dropFirst; split <;> simp <;> omega

theorem dropFirst_eq_erase {α : Type} [BEq α] (x : α) (l : List α) : dropFirst (fun y => y == x) l = l.erase x := by
  induction l with
  | nil => rfl
  | cons y l ih => unfold dropFirst; rw [List.erase_cons, ih]

theorem length_changeFirst {α : Type} (p : α → Bool) (f : α → α) (l : List α) : (changeFirst p f l).length = l.length := by
  induction l with
  | nil => rfl
  | cons x l ih => unfold changeFirst; split <;> simp [ih]

theorem dropAsk (b : BLink) (p : OutAsk → Bool) (h : Work κ a s) :
    Work κ a (s.modBlc b fun r => { r with outAsks := dropFirst p r.outAsks }) := by
  refine h.fewerLists b _ (fun r k hd => ?_)
    (fun r => Nat.add_le_add_left (length_dropFirst p r.outAsks) _) fun _ => Nat.le_refl _
  obtain ⟨h1, h2, h3, h4, h5, h6, h7, h8⟩ := k hd
  exact ⟨h1, by simp [h2, dropFirst], h3, h4, h5, h6, h7, h8⟩

theorem link_sendHeld (b : BLink) (t : BoundaryTelegram) : ((s.sendHeld b t).blcAt b).link = (s.blcAt b).link := by
  unfold State.sendHeld
  split
  · rfl
  · rw [blcAt_modBlc_same]
  · rfl

theorem outAsks_sendHeld (b : BLink) (t : BoundaryTelegram) :
    ((s.sendHeld b t).blcAt b).outAsks = (s.blcAt b).outAsks := by
  unfold State.sendHeld
  split
  · rfl
  · rw [blcAt_modBlc_same]
  · rfl

theorem link_askGiven (b : BLink) (x : OutAsk) : ((s.askGiven b x).blcAt b).link = (s.blcAt b).link := by
  unfold State.askGiven
  split
  · show ((State.modBlc _ b _).blcAt b).link = _
    rw [blcAt_modBlc_same]
  · show ((State.sendHeld _ b _).blcAt b).link = _
    rw [link_sendHeld, blcAt_modBlc_same]

theorem outAsks_askGiven (b : BLink) (x : OutAsk) :
    ((s.askGiven b x).blcAt b).outAsks = (s.blcAt b).outAsks.erase x := by
  rw [← dropFirst_eq_erase]
  unfold State.askGiven
  split
  · show ((State.modBlc _ b _).blcAt b).outAsks = _
    rw [blcAt_modBlc_same]
  · show ((State.sendHeld _ b _).blcAt b).outAsks = _
    rw [outAsks_sendHeld, blcAt_modBlc_same]

/-- An awaiting ask given keeps the outgoing capacity: it moves to the list, or leaves. -/
theorem askGiven (b : BLink) (x : OutAsk) (hx : x ∈ (s.blcAt b).outAsks) (hl : (s.blcAt b).link ≠ .down)
    (h : Work κ a s) : Work κ a (s.askGiven b x) := by
  unfold State.askGiven
  split
  · refine notify _ (h.beside (.blc _ b _ ⟨fun _ hd => absurd hd hl, fun k => ?_, fun _ => Nat.le_refl _⟩))
    have h1 := List.length_pos_of_mem hx
    have h2 : (dropFirst (fun y => y == x) (s.blcAt b).outAsks).length = (s.blcAt b).outAsks.length - 1 := by
      rw [dropFirst_eq_erase, List.length_erase_of_mem hx]
    simp only [Blc.outCount, List.length_append, List.length_singleton, h2] at k ⊢
    omega
  · exact ((h.dropAsk b fun y => y == x).sendHeld _ _).notify _

theorem asksGiven (b : BLink) (l : List OutAsk) : ∀ {s : State}, (∀ y, l.count y ≤ (s.blcAt b).outAsks.count y) →
    (s.blcAt b).link ≠ .down → Work κ a s →
    Work κ a (l.foldl (fun s x => s.askGiven b x) s)
      ∧ ((l.foldl (fun s x => s.askGiven b x) s).blcAt b).link = (s.blcAt b).link := by
  induction l with
  | nil => intro s _ _ h; exact ⟨h, rfl⟩
  | cons x l ih =>
    intro s hc hl h
    have hx : x ∈ (s.blcAt b).outAsks := List.count_pos_iff.1 (Nat.lt_of_lt_of_le (by simp) (hc x))
    have := ih (s := s.askGiven b x) (fun y => by
      have := hc y
      rw [outAsks_askGiven, List.count_erase]
      rw [List.count_cons] at this
      split at this <;> simp_all <;> omega) (by rw [link_askGiven]; exact hl) (h.askGiven b x hx hl)
    exact ⟨this.1, this.2.trans (link_askGiven b x)⟩

theorem matchRefs_sublist {α : Type} (ref : α → Nat) (l : List α) (refs : List Nat) :
    List.Sublist (matchRefs ref l refs).1 l := by
  induction l generalizing refs with
  | nil => exact .slnil
  | cons x l ih =>
    unfold matchRefs
    split
    · exact (ih _).cons_cons x
    · exact (ih _).cons x

theorem resolveReceived (b : BLink) (x : HoldingsBody) (hl : (s.blcAt b).link ≠ .down) (h : Work κ a s) :
    Work κ a (s.resolveReceived b x) := by
  unfold State.resolveReceived
  dsimp only
  have hm := (matchRefs_sublist RefInst.ref (s.blcAt b).outgoing x.acceptancesGiven).length_le
  generalize matchRefs RefInst.ref (s.blcAt b).outgoing x.acceptancesGiven = m at hm ⊢
  have h1 : Work κ a (s.modBlc b fun r => { r with outgoing := m.1 }) :=
    h.beside (.blc s b _ ⟨fun _ hd => absurd hd hl, fun k => Nat.le_trans (Nat.add_le_add_right hm _) k, fun _ => Nat.le_refl _⟩)
  have hl1 : ((s.modBlc b fun r => { r with outgoing := m.1 }).blcAt b).link ≠ .down := by
    rw [blcAt_modBlc_same]
    exact hl
  have h2 := h1.notifyAll (m.2.1.map fun y => .acceptanceLost y.inst) (quiet_map _ _ fun _ _ => nofun)
  obtain ⟨h3, hl3⟩ := asksGiven b (matchRefs OutAsk.ref (s.blcAt b).outAsks m.2.2).1
    (s := (s.modBlc b fun r => { r with outgoing := m.1 }).notifyAll (m.2.1.map fun y => .acceptanceLost y.inst))
    (fun y => by
      show _ ≤ ((s.modBlc b fun r => { r with outgoing := m.1 }).blcAt b).outAsks.count y
      rw [blcAt_modBlc_same]
      exact (matchRefs_sublist _ _ _).count_le y) hl1 h2
  exact notifyAll _ (quiet_map _ _ fun _ _ => nofun) (notifyAll _ (quiet_map _ _ fun _ _ => nofun) (h3.beside (.blc _ b _ ⟨fun _ hd => absurd (hl3.symm.trans hd) hl1, id,
    fun _ => Nat.le_refl _⟩)))

theorem dropRefs (b : BLink) (l : List Nat) (h : Work κ a s) :
    Work κ a (l.foldl (fun s ref => s.boundaryDrop b ref) s) :=
  foldl (f := fun (s : State) ref => s.boundaryDrop b ref) (fun r h => h.boundaryDrop b r) l h

theorem resolveGiven (b : BLink) (x : HoldingsBody) (h : Work κ a s) : Work κ a (s.resolveGiven b x) := by
  unfold State.resolveGiven
  dsimp only
  split
  · exact dropRefs b _ (notifyAll _ (quiet_map _ _ fun _ _ => nofun) (h.fewerLists b (fun r => { r with incoming := r.incoming.filter _ })
      (fun _ k hd => k hd) (fun _ => Nat.le_refl _) fun r => Nat.add_le_add_right (List.length_filter_le _ _) _))
  · exact h

theorem linkUp (b : BLink) (h : Work κ a s) : Work κ a (s.linkUp b) :=
  (h.besideLists b (fun r => { r with link := .up, holdingsTimer := .stopped, lostHoldings := false })
    (fun r _ hd => by simp at hd) (fun _ => rfl) fun _ => rfl).flush b

theorem resolve (b : BLink) (x : HoldingsBody) (hl : (s.blcAt b).link ≠ .down) (h : Work κ a s) :
    Work κ a (s.resolve b x) :=
  (((h.resolveReceived b x hl).resolveGiven b x).besideLists b (fun r => { r with direction := resolvedDirection r x })
    (fun _ k hd => k hd) (fun _ => rfl) fun _ => rfl).linkUp b

theorem holdings (b : BLink) (x : HoldingsBody) (h : Work κ a s) : Work κ a (s.holdings b x) := by
  unfold State.holdings
  split
  · exact h
  · rename_i hl
    exact h.resolve b x (by simp [hl])
  · exact (h.enterSync b).resolve b x (by rw [link_enterSync]; simp)

theorem silence (b : BLink) (h : Work κ a s) : Work κ a (s.silence b) := by
  unfold State.silence
  split
  · exact (h.besideLists b countSilence (fun _ k hd => k hd) (fun _ => rfl) fun _ => rfl).goDown b
  · exact h

theorem judgeDirAsk (b : BLink) (w : Bool) (h : Work κ a s) : Work κ a (s.judgeDirAsk b w) := by
  unfold State.judgeDirAsk
  split
  · rename_i hg
    refine sendNow _ _ (h.beside (.blc s b _ ⟨fun _ hd => ?_, id, fun _ => Nat.le_refl _⟩))
    have hu : (s.blcAt b).link = .up := by
      simp only [State.grantsDirection, State.lineClear, Bool.and_eq_true, beq_iff_eq] at hg
      exact hg.1.1.1.1.1.2.2
    simp only at hd
    rw [hu] at hd
    cases hd
  · exact h.sendNow _ _

theorem dirAsk (b : BLink) (h : Work κ a s) : Work κ a (s.dirAsk b) := by
  unfold State.dirAsk
  repeat' split
  · exact h.sendNow _ _
  · exact (h.dropChange b).judgeDirAsk b _
  · exact h.judgeDirAsk b _

theorem dirGive (b : BLink) (h : Work κ a s) : Work κ a (s.dirGive b) := by
  unfold State.dirGive
  split
  · refine notify _ (h.besideLists b _ (fun r k hd => ?_) (fun _ => rfl) fun _ => rfl)
    obtain ⟨h1, h2, h3, h4, h5, h6, h7, h8⟩ := k hd
    exact ⟨h1, h2, h3, h4, h5, h6, h7, rfl⟩
  · exact h

theorem dirRefuse (b : BLink) (h : Work κ a s) : Work κ a (s.dirRefuse b) := by
  unfold State.dirRefuse
  split
  · exact h.dropChange b
  · exact h

theorem dirTimeout (b : BLink) (h : Work κ a s) : Work κ a (s.dirTimeout b) := by
  unfold State.dirTimeout
  dsimp only
  repeat' split
  · exact h
  · exact h.dropChange b
  · exact h.enterSync b
  · exact h

theorem acceptAsk (b : BLink) (r : Nat) (h : Work false a s) : Work false a (s.acceptAsk b r) := by
  unfold State.acceptAsk
  split
  · exact h.sendNow _ _
  · exact h.withAnyRequests _

theorem acceptGive (b : BLink) (r : Nat) (hl : (s.blcAt b).link ≠ .down) (h : Work κ a s) : Work κ a (s.acceptGive b r) := by
  unfold State.acceptGive
  repeat' split
  · rename_i hx
    exact h.askGiven b _ (List.mem_of_find?_eq_some hx) hl
  · exact h
  · exact h.sendHeld _ _

theorem askRefused (b : BLink) (x : OutAsk) (h : Work κ a s) : Work κ a (s.askRefused b x) := (h.dropAsk b _).notify _

theorem acceptRefuse (b : BLink) (r : Nat) (h : Work κ a s) : Work κ a (s.acceptRefuse b r) := by
  unfold State.acceptRefuse
  split
  · exact h.askRefused b _
  · exact h

theorem acceptTimeout (b : BLink) (i : Nat) (h : Work κ a s) : Work κ a (s.acceptTimeout b i) := by
  unfold State.acceptTimeout
  split
  · exact h.askRefused b _
  · exact h

theorem acceptWithdraw (b : BLink) (r : Nat) (h : Work κ a s) : Work κ a (s.acceptWithdraw b r) := by
  unfold State.acceptWithdraw
  split
  · split
    · exact (h.fewerLists b (fun r => { r with incoming := dropFirst _ r.incoming }) (fun _ k hd => k hd)
        (fun _ => Nat.le_refl _) fun r => Nat.add_le_add_right (length_dropFirst _ r.incoming) _).notify _
    · exact h
  · split
    · exact (h.fewerLists b (fun r => { r with inAsks := dropFirst _ r.inAsks }) (fun _ k hd => k hd)
        (fun _ => Nat.le_refl _) fun r => Nat.add_le_add_left (length_dropFirst _ r.inAsks) _).notify _
    · exact h

theorem trainHanded (b : BLink) (r : Nat) (h : Work κ a s) : Work κ a (s.trainHanded b r) :=
  h.besideLists b (fun x => { x with incoming := changeFirst _ _ x.incoming }) (fun _ k hd => k hd) (fun _ => rfl)
    fun r => congrArg (· + r.inAsks.length) (length_changeFirst _ _ r.incoming)

theorem acceptEnd (b : BLink) (r : Nat) (h : Work κ a s) : Work κ a (s.acceptEnd b r) :=
  h.besideLists b (fun x => { x with incoming := changeFirst _ _ x.incoming }) (fun _ k hd => k hd) (fun _ => rfl)
    fun r => congrArg (· + r.inAsks.length) (length_changeFirst _ _ r.incoming)

theorem takeFlankAsk (b : BLink) (r : Nat) (h : Work κ a s) : Work κ a (s.takeFlankAsk b r) := (h.flankAsk b r).sendNow _ _

theorem flankGive (b : BLink) (r : Nat) (h : Work κ a s) : Work κ a (s.flankGive b r) := by
  unfold State.flankGive
  split
  · refine notify _ (h.besideLists b _ (fun r k hd => ?_) (fun _ => rfl) fun _ => rfl)
    obtain ⟨h1, h2, h3, h4, h5, h6, h7, h8⟩ := k hd
    exact ⟨h1, h2, by simp [h3, changeFirst], h4, h5, h6, h7, h8⟩
  · split
    · exact h
    · exact h.sendHeld _ _

theorem assuranceFails (b : BLink) (x : Assurance) (h : Work κ a s) : Work κ a (s.assuranceFails b x) := by
  refine notify _ (h.besideLists b _ (fun r k hd => ?_) (fun _ => rfl) fun _ => rfl)
  obtain ⟨h1, h2, h3, h4, h5, h6, h7, h8⟩ := k hd
  exact ⟨h1, h2, by simp [h3, dropFirst], h4, h5, h6, h7, h8⟩

theorem flankRefuse (b : BLink) (r : Nat) (h : Work κ a s) : Work κ a (s.flankRefuse b r) := by
  unfold State.flankRefuse
  split
  · exact h.assuranceFails b _
  · exact h

theorem flankTimeout (b : BLink) (i m : Nat) (h : Work κ a s) : Work κ a (s.flankTimeout b i m) := by
  unfold State.flankTimeout
  split
  · exact h.assuranceFails b _
  · exact h

theorem releaseHoldings (b : BLink) (h : Work κ a s) : Work κ a (s.releaseHoldings b) := by
  unfold State.releaseHoldings
  dsimp only
  have h1 := h.fewerLists b (fun r => { r with incoming := [], inAsks := [], release := .stopped }) (fun _ k hd => k hd)
    (fun _ => Nat.le_refl _) fun _ => Nat.zero_le _
  exact mark _ (besideLists b (fun r => { r with lostHoldings := false }) (fun _ k hd => k hd) (fun _ => rfl) (fun _ => rfl) (dropRefs b _ (notifyAll _ (quiet_map _ _ fun _ _ => nofun) h1)))

end Work

/-! ### Every command -/

/-- The commands that add no incoming acceptance and no incoming request: all but two. -/
def calm : Instr → Bool
  | .acceptAskReceived _ _ | .incomingAcceptanceRequest => false
  | _ => true

/-- Every command but COLD_START and LOAD_COMPLETE answers a next state, and deeds lead to it, calm ones of a calm
command. -/
theorem exec_work (c : Instr) (s : State) (h1 : c ≠ .coldStart) (h2 : ∀ i k, c ≠ .loadComplete i k) :
    ∃ t, exec c s = .next t ∧ Finished (calm c) s t := by
  cases c with
  | coldStart => exact absurd rfl h1
  | loadComplete i k => exact absurd rfl (h2 i k)
  | counterWriteComplete ok => exact ⟨_, rfl, .finish _ (.writeEnds ok .refl)⟩
  | scrubCheck f => exact ⟨_, rfl, .finish _ (.scrubStep f .refl)⟩
  | roundStart => exact ⟨_, rfl, .finish _ (.startRound .refl)⟩
  | commandExchangeStart => exact ⟨_, rfl, .finish _ (.betweenRounds .refl)⟩
  | pollExchangeEnd x o =>
    refine ⟨_, rfl, .finish _ ?_⟩
    split
    · exact .pollEnds _ _ _ .refl
    · exact .refl
  | commandExchangeEnd x =>
    refine ⟨_, rfl, .finish _ ?_⟩
    split
    · exact .commandEnds _ _ _ _ _ .refl
    · exact .refl
  | exchangeAnswerTimeout o =>
    refine ⟨_, rfl, .finish _ ?_⟩
    split
    · exact .pollEnds _ _ _ .refl
    · exact .commandEnds _ _ _ _ _ .refl
    · exact .refl
  | supervisionTimerExpiry e =>
    refine ⟨_, rfl, .finish _ ?_⟩
    repeat' split
    · exact .attemptEnds _ _ .refl
    · exact .refl
    · exact .refl
  | confirmationTimerExpiry e =>
    refine ⟨_, rfl, .finish _ ?_⟩
    split
    · exact .proceedFails _ .refl
    · exact .refl
  | operatorTelegramArrival l f => exact ⟨_, rfl, .finish _ (.arrive l f .refl)⟩
  | unknownRequestKind l => exact Work.runRequest l _ _ fun _ _ h => h
  | replyTransmit l => exact ⟨_, rfl, .finish _ (.transmitReply l .refl)⟩
  | sendIndication l => exact ⟨_, rfl, .finish _ (.sendIndication l .refl)⟩
  | setRoute l =>
    show ∃ t, execSetRoute l s = .next t ∧ _
    unfold execSetRoute
    split
    · rename_i ht
      exact ⟨_, rfl, .finish _ (.takeWaitingRoute l ht rfl .refl)⟩
    · refine Work.runRequest l _ _ fun t hn h => ?_
      split
      · exact h.reachRim _ _ _ _ _ _ hn
      · exact h
  | press l =>
    refine Work.runRequest l _ _ fun t hn h => ?_
    split
    · exact h.pressed _ _ _ hn
    · exact h
  | selectionTimerExpiry l =>
    refine ⟨_, rfl, .finish _ ?_⟩
    repeat' split
    · exact .putSel _ _ .refl
    · exact .refl
    · exact .refl
  | cancelRoute l =>
    refine Work.runRequest l _ _ fun t _ h => ?_
    split
    · exact h.cancelRoute _ _
    · exact h
  | reClear l =>
    refine Work.runRequest l _ _ fun t _ h => ?_
    split
    · exact h.reClear _ _
    · exact h
  | storeCancel l =>
    refine Work.runRequest l _ _ fun t _ h => ?_
    split
    · exact h.storeCancel _ _ _
    · exact h
  | stopArea l =>
    refine Work.runRequest l _ _ fun t _ h => ?_
    split
    · exact h.stopArea _ _
    · exact h
  | pointThrow l =>
    refine Work.runRequest l _ _ fun t _ h => ?_
    split
    · exact h.pointThrow _ _ _
    · exact h
  | pointReset l =>
    refine Work.runRequest l _ _ fun t _ h => ?_
    split
    · exact h.pointReset _ _
    · exact h
  | signalReset l =>
    refine Work.runRequest l _ _ fun t _ h => ?_
    split
    · exact h.signalReset _ _
    · exact h
  | block l =>
    refine Work.runRequest l _ _ fun t _ h => ?_
    split
    · exact h.setBlock _ _ _
    · exact h
  | unblock l =>
    refine Work.runRequest l _ _ fun t _ h => ?_
    split
    · exact h.setBlock _ _ _
    · exact h
  | boundaryOpen l =>
    refine Work.runRequest l _ _ fun t _ h => ?_
    split
    · exact h.setOpen _ _ _
    · exact h
  | boundaryClose l =>
    refine Work.runRequest l _ _ fun t _ h => ?_
    split
    · exact h.setOpen _ _ _
    · exact h
  | dirRequest l =>
    refine Work.runRequest l _ _ fun t _ h => ?_
    split
    · exact h.dirRequest _ _
    · exact h
  | auxIssue l =>
    refine Work.runRequest l _ _ fun t _ h => ?_
    split
    · exact h.issueAux _ _ _
    · exact h
  | auxConfirm l =>
    refine Work.runRequest l _ _ fun t _ h => ?_
    split
    · exact h.confirmAux _ _ _
    · exact h
  | auxWindowExpiry l =>
    refine ⟨_, rfl, .finish _ ?_⟩
    repeat' split
    · exact .putAux _ _ .refl
    · exact .refl
    · exact .refl
  | authTake l =>
    refine Work.runRequest l _ _ fun t _ h => ?_
    split
    · exact h.takeArea _ _
    · exact h
  | authOffer l =>
    refine Work.runRequest l _ _ fun t _ h => ?_
    split
    · exact h.offerArea _ _
    · exact h
  | authReturn l =>
    refine Work.runRequest l _ _ fun t _ h => ?_
    split
    · exact h.returnArea _ _
    · exact h
  | offerTimerExpiry n =>
    refine ⟨_, rfl, .finish _ ?_⟩
    split
    · exact Work.refl.beside (.area s n { s.areaRec n with offer := .stopped } fun k => ⟨fun _ => rfl, k.2⟩)
    · exact .refl
  | forceTimerExpiry n =>
    refine ⟨_, rfl, .finish _ ?_⟩
    split
    · exact .changeHolder _ _ .refl
    · exact .refl
  | readRoute l =>
    refine Work.runRequest l _ _ fun t _ h => ?_
    split <;> exact h
  | readCounters l =>
    refine Work.runRequest l _ _ fun t _ h => ?_
    dsimp only
    exact h.clearCounters l
  | snapshot l =>
    refine Work.runRequest l _ _ fun t _ h => ?_
    dsimp only
    exact h.snapshot l
  | settingTimerExpiry i =>
    refine ⟨_, rfl, .finish _ ?_⟩
    repeat' split
    · exact .settingFails _ _ _ .refl
    · exact .refl
    · exact .refl
  | overlapTimerExpiry i =>
    refine ⟨_, rfl, .finish _ ?_⟩
    repeat' split
    · rename_i hl _ _ _ _ _
      exact .tryFree _ (Work.refl.ofWalk (Walk.overlapReleased hl _ rfl rfl rfl .refl))
    · exact .recordOverrun _ (.modInst _ _ (fun _ => rfl) .refl)
    · exact .refl
    · exact .refl
    · exact .refl
  | approachTimerExpiry i =>
    refine ⟨_, rfl, .finish _ ?_⟩
    repeat' split
    · exact .releaseAll _ .refl
    · exact .refl
    · exact .refl
  | emergencyTimerExpiry i =>
    refine ⟨_, rfl, .finish _ ?_⟩
    repeat' split
    · exact .releaseAll _ .refl
    · exact .refl
    · exact .refl
  | retestRequest => exact ⟨_, rfl, .finish _ (.takeRetest rfl .refl)⟩
  | lifetimeTimerExpiry n => exact ⟨_, rfl, .finish _ (.lifetimeExpires n .refl)⟩
  | incomingAcceptanceRequest => exact ⟨_, rfl, .finish _ (.takeIncoming rfl .refl)⟩
  | statusTimerExpiry b => exact ⟨_, rfl, .finish _ (.statusDue b .refl)⟩
  | boundaryFrameDiscarded b f => exact ⟨_, rfl, .finish _ (.frameArrives b f .refl)⟩
  | operatorRequestOnBoundary b k => exact ⟨_, rfl, .finish _ (.receive _ _ _ (fun h => h.sendNow _ _) .refl)⟩
  | statusReceived b x => exact ⟨_, rfl, .finish _ (.receive _ _ _ (fun h => h.status b x) .refl)⟩
  | holdingsReceived b x => exact ⟨_, rfl, .finish _ (.receive _ _ _ (fun h => h.holdings b x) .refl)⟩
  | silenceTimerExpiry b => exact ⟨_, rfl, .finish _ (.silence b .refl)⟩
  | holdingsResponseTimerExpiry b =>
    refine ⟨_, rfl, .finish _ ?_⟩
    split
    · exact .goDown b .refl
    · exact .refl
  | dirAskReceived b =>
    refine ⟨_, rfl, .finish _ (.receive _ _ _ (fun h => ?_) .refl)⟩
    split
    · exact h
    · exact h.sendNow _ _
    · exact h.dirAsk b
  | dirGiveReceived b => exact ⟨_, rfl, .finish _ (.receive _ _ _ (fun h => h.inUp b _ fun _ h => h.dirGive b) .refl)⟩
  | dirRefuseReceived b =>
    exact ⟨_, rfl, .finish _ (.receive _ _ _ (fun h => h.inUp b _ fun _ h => h.dirRefuse b) .refl)⟩
  | dirResponseTimerExpiry b => exact ⟨_, rfl, .finish _ (.dirTimeout b .refl)⟩
  | acceptAskReceived b r =>
    refine ⟨_, rfl, .finish _ (.receive _ _ _ (fun h => ?_) .refl)⟩
    split
    · exact h
    · exact h.sendNow _ _
    · exact h.acceptAsk b r
  | acceptGiveReceived b r =>
    exact ⟨_, rfl, .finish _ (.receive _ _ _ (fun h => h.inUp b _ fun k h => h.acceptGive b r k) .refl)⟩
  | acceptRefuseReceived b r _ =>
    exact ⟨_, rfl, .finish _ (.receive _ _ _ (fun h => h.inUp b _ fun _ h => h.acceptRefuse b r) .refl)⟩
  | acceptResponseTimerExpiry b i => exact ⟨_, rfl, .finish _ (.acceptTimeout b i .refl)⟩
  | acceptWithdrawReceived b r =>
    exact ⟨_, rfl, .finish _ (.receive _ _ _ (fun h => h.inUp b _ fun _ h => h.acceptWithdraw b r) .refl)⟩
  | trainHandedReceived b r =>
    exact ⟨_, rfl, .finish _ (.receive _ _ _ (fun h => h.inUp b _ fun _ h => h.trainHanded b r) .refl)⟩
  | acceptEndReceived b r =>
    exact ⟨_, rfl, .finish _ (.receive _ _ _ (fun h => h.inUp b _ fun _ h => h.acceptEnd b r) .refl)⟩
  | flankAskReceived b r =>
    refine ⟨_, rfl, .finish _ (.receive _ _ _ (fun h => ?_) .refl)⟩
    split
    · exact h
    · exact h.sendNow _ _
    · exact h.takeFlankAsk b r
  | flankGiveReceived b r =>
    exact ⟨_, rfl, .finish _ (.receive _ _ _ (fun h => h.inUp b _ fun _ h => h.flankGive b r) .refl)⟩
  | flankRefuseReceived b r =>
    exact ⟨_, rfl, .finish _ (.receive _ _ _ (fun h => h.inUp b _ fun _ h => h.flankRefuse b r) .refl)⟩
  | flankDropReceived b r =>
    refine ⟨_, rfl, .finish _ (.receive _ _ _ (fun h => ?_) .refl)⟩
    split
    · exact h
    · exact h.boundaryDrop b r
  | flankResponseTimerExpiry b i m => exact ⟨_, rfl, .finish _ (.flankTimeout b i m .refl)⟩
  | releaseTimerExpiry b =>
    refine ⟨_, rfl, .finish _ ?_⟩
    split
    · exact .releaseHoldings b .refl
    · exact .refl

end Sys2Proof.Machine
end

