-- ==== Sys2Proof/Laws/Notices.lean ====
section
/-! SUPPORT. The notices of one written change of a point or a signal (R13, R110): which there are, and to whom. -/

set_option Elab.async false

namespace Sys2Proof.Machine

variable {s : State} {e : Nat}

theorem mem_addNew {i x : Nat} {l : List Nat} : x ∈ addNew i l ↔ x ∈ l ∨ x = i := by
  unfold addNew
  split
  · rename_i h
    have : i ∈ l := by simpa using h
    exact ⟨.inl, fun k => k.elim id fun a => a ▸ this⟩
  · simp

theorem addNew_nodup {i : Nat} {l : List Nat} (h : l.Nodup) : (addNew i l).Nodup := by
  unfold addNew
  split
  · exact h
  · rename_i k
    have : i ∉ l := by simpa using k
    exact List.nodup_append.2 ⟨h, by simp, fun a ha b hb => by simp at hb; subst hb; exact fun c => this (c ▸ ha)⟩

/-- The route claimants of an entry, each once. -/
theorem routeClaimants_rows (c : Option FctEntry) :
    (∀ i, i ∈ routeClaimants c ↔ ∃ f m, c = some f ∧ .route i m ∈ f.claimants) ∧ (routeClaimants c).Nodup := by
  cases c with
  | none => exact ⟨fun i => by simp [routeClaimants], List.nodup_nil⟩
  | some f =>
    have g : ∀ (l : List Claimant) (a : List Nat), a.Nodup →
        let r := l.foldl (fun acc x => match x with
          | .route i _ => addNew i acc
          | .boundary _ _ => acc) a
        (∀ i, i ∈ r ↔ i ∈ a ∨ ∃ m, .route i m ∈ l) ∧ r.Nodup := by
      intro l
      induction l with
      | nil => intro a h; simpa using h
      | cons x l ih =>
        intro a h
        cases x with
        | route j m =>
          have k := ih (addNew j a) (addNew_nodup h)
          refine ⟨fun i => (k.1 i).trans ?_, k.2⟩
          rw [mem_addNew, or_assoc]
          refine or_congr_right ⟨fun b => b.elim (fun b => ⟨m, by simp [b]⟩) fun ⟨n, b⟩ => ⟨n, by simp [b]⟩, fun ⟨n, b⟩ => ?_⟩
          rcases List.mem_cons.1 b with b | b
          · exact .inl (by cases b; rfl)
          · exact .inr ⟨n, b⟩
        | boundary b r =>
          have k := ih a h
          refine ⟨fun i => (k.1 i).trans (or_congr_right ?_), k.2⟩
          simp
    have k := g f.claimants [] List.nodup_nil
    exact ⟨fun i => (k.1 i).trans (by simp), k.2⟩

/-- POSITION for a position (R13, R110). -/
def PointRec.gains (old new : PointRec) (q : Pos) : Prop :=
  new.detection = detectionOf q ∧ (old.detection ≠ detectionOf q ∨ (old.failed = true ∧ new.failed = false)
    ∨ (old.localMode = true ∧ new.localMode = false))

/-- DETECTION_LOST or FLANK_LOST for a position (R13, R110). -/
def PointRec.loses (old new : PointRec) (q : Pos) : Prop :=
  (old.detection = detectionOf q ∧ new.detection ≠ detectionOf q) ∨ (old.localMode = false ∧ new.localMode = true)

theorem gainsPosition_iff {old new : PointRec} {q : Option Pos} :
    gainsPosition old new q = true ↔ ∃ p, q = some p ∧ old.gains new p := by
  cases q with
  | none => simp [gainsPosition, inPosition]
  | some p => simp [gainsPosition, inPosition, PointRec.gains, or_assoc]

theorem losesPosition_iff {old new : PointRec} {q : Option Pos} :
    losesPosition old new q = true ↔ ∃ p, q = some p ∧ old.loses new p := by
  cases q with
  | none => simp [losesPosition]
  | some p => simp [losesPosition, inPosition, PointRec.loses]

theorem mem_owner {p : PointRec} {i : Nat} : i ∈ p.lockOwner.toList ↔ ∃ role q, p.lock = .held i role q := by
  unfold PointRec.lockOwner
  cases h : p.lock <;> simp [eq_comm]

theorem lockPos_iff {p : PointRec} {q : Pos} : p.lockPos = some q ↔ ∃ i role, p.lock = .held i role q := by
  unfold PointRec.lockPos
  cases h : p.lock <;> simp

theorem nodup_owner (o : Option Nat) : o.toList.Nodup := by cases o <;> simp

theorem mem_foldl_addNew {l a : List Nat} {x : Nat} :
    x ∈ l.foldl (fun acc i => addNew i acc) a ↔ x ∈ a ∨ x ∈ l := by
  induction l generalizing a with
  | nil => simp
  | cons y l ih => rw [List.foldl_cons, ih, mem_addNew]; simp [or_assoc]

theorem nodup_foldl_addNew {l a : List Nat} (h : a.Nodup) : (l.foldl (fun acc i => addNew i acc) a).Nodup := by
  induction l generalizing a with
  | nil => exact h
  | cons y l ih => exact ih (addNew_nodup h)

/-- The notices of a written change of a point (R13, R110). -/
theorem pointNotices_rows (e : Nat) (old new : PointRec) :
    let claims : Nat → Prop := fun i => ∃ f m, s.claim? new.flankRef = some f ∧ .route i m ∈ f.claimants
    let requires : Nat → Pos → Prop := fun i q =>
      ∃ f m, s.claim? new.flankRef = some f ∧ .route i m ∈ f.claimants ∧ f.required = .pos q
    (∀ i, .position i e ∈ s.pointNotices e old new ↔
      ∃ q, old.gains new q ∧ ((∃ role, new.lock = .held i role q) ∨ requires i q))
    ∧ (∀ i, .detectionLost i e ∈ s.pointNotices e old new ↔ ∃ q, old.loses new q ∧ ∃ role, new.lock = .held i role q)
    ∧ (∀ i, .flankLost i e ∈ s.pointNotices e old new ↔ ∃ q, old.loses new q ∧ requires i q)
    ∧ (∀ i, .pointFailed i e ∈ s.pointNotices e old new ↔
      old.failed = false ∧ new.failed = true ∧ ((∃ role q, new.lock = .held i role q) ∨ claims i))
    ∧ (∀ x ∈ s.pointNotices e old new,
      ∃ i, x = .position i e ∨ x = .detectionLost i e ∨ x = .flankLost i e ∨ x = .pointFailed i e)
    ∧ (s.pointNotices e old new).Nodup := by
  intro claims requires
  have hc := routeClaimants_rows (s.claim? new.flankRef)
  have hr : ∀ i, (i ∈ routeClaimants (s.claim? new.flankRef) ↔ claims i) := hc.1
  have hq : ∀ i q, (claims i ∧ s.claimPos new = some q) ↔ requires i q := by
    intro i q
    have cp : s.claimPos new = some q ↔ ∃ f, s.claim? new.flankRef = some f ∧ f.required = .pos q := by
      unfold State.claimPos
      cases h : s.claim? new.flankRef with
      | none => simp
      | some f => cases hf : f.required <;> simp [hf]
    rw [cp]
    constructor
    · rintro ⟨⟨f, m, h1, h2⟩, g, h3, h4⟩
      rw [h1] at h3; cases h3
      exact ⟨f, m, h1, h2, h4⟩
    · rintro ⟨f, m, h1, h2, h3⟩
      exact ⟨⟨f, m, h1, h2⟩, f, h1, h3⟩
  have ho : ∀ i, (i ∈ new.lockOwner.toList ∧ gainsPosition old new new.lockPos = true) ↔
      ∃ q, old.gains new q ∧ ∃ role, new.lock = .held i role q := by
    intro i
    rw [mem_owner, gainsPosition_iff]
    constructor
    · rintro ⟨⟨role, q, h⟩, p, h1, h2⟩
      rw [PointRec.lockPos, h] at h1; cases h1
      exact ⟨q, h2, role, h⟩
    · rintro ⟨q, h, role, k⟩
      exact ⟨⟨role, q, k⟩, q, by rw [PointRec.lockPos, k], h⟩
  have hl : ∀ i, (i ∈ new.lockOwner.toList ∧ losesPosition old new new.lockPos = true) ↔
      ∃ q, old.loses new q ∧ ∃ role, new.lock = .held i role q := by
    intro i
    rw [mem_owner, losesPosition_iff]
    constructor
    · rintro ⟨⟨role, q, h⟩, p, h1, h2⟩
      rw [PointRec.lockPos, h] at h1; cases h1
      exact ⟨q, h2, role, h⟩
    · rintro ⟨q, h, role, k⟩
      exact ⟨⟨role, q, k⟩, q, by rw [PointRec.lockPos, k], h⟩
  have hg : ∀ i, (i ∈ routeClaimants (s.claim? new.flankRef) ∧ gainsPosition old new (s.claimPos new) = true) ↔
      ∃ q, old.gains new q ∧ requires i q := by
    intro i
    rw [hr, gainsPosition_iff]
    exact ⟨fun ⟨a, q, b, c⟩ => ⟨q, c, (hq i q).1 ⟨a, b⟩⟩, fun ⟨q, c, d⟩ => ⟨((hq i q).2 d).1, q, ((hq i q).2 d).2, c⟩⟩
  have hf : ∀ i, (i ∈ routeClaimants (s.claim? new.flankRef) ∧ losesPosition old new (s.claimPos new) = true) ↔
      ∃ q, old.loses new q ∧ requires i q := by
    intro i
    rw [hr, losesPosition_iff]
    exact ⟨fun ⟨a, q, b, c⟩ => ⟨q, c, (hq i q).1 ⟨a, b⟩⟩, fun ⟨q, c, d⟩ => ⟨((hq i q).2 d).1, q, ((hq i q).2 d).2, c⟩⟩
  have ite_mem : ∀ {c : Bool} {l : List Nat} {i : Nat}, (i ∈ if c = true then l else []) ↔ i ∈ l ∧ c = true := by
    intro c l i; cases c <;> simp
  refine ⟨fun i => ?_, fun i => ?_, fun i => ?_, fun i => ?_, fun x hx => ?_, ?_⟩
  · simp only [State.pointNotices, List.mem_append, List.mem_map, reduceCtorEq, and_false, exists_false, or_false,
      Notice.position.injEq, and_true, exists_eq_right, ite_mem, List.mem_filter]
    rw [ho]
    constructor
    · rintro (⟨q, a, b⟩ | ⟨⟨a, _⟩, b⟩)
      · exact ⟨q, a, .inl b⟩
      · obtain ⟨q, c, d⟩ := (hg i).1 ⟨a, b⟩
        exact ⟨q, c, .inr d⟩
    · rintro ⟨q, a, b | b⟩
      · exact .inl ⟨q, a, b⟩
      · obtain ⟨c, d⟩ := (hg i).2 ⟨q, a, b⟩
        by_cases k : gainsPosition old new new.lockPos = true ∧ i ∈ new.lockOwner.toList
        · exact .inl ((ho i).1 ⟨k.2, k.1⟩)
        · refine .inr ⟨⟨c, ?_⟩, d⟩
          rw [← List.contains_iff_mem, ← Bool.and_eq_true] at k
          rw [Bool.not_eq_true', ← Bool.not_eq_true]
          exact k
  · simp only [State.pointNotices, List.mem_append, List.mem_map, reduceCtorEq, and_false, exists_false, or_false, false_or,
      Notice.detectionLost.injEq, and_true, exists_eq_right, ite_mem]
    exact hl i
  · simp only [State.pointNotices, List.mem_append, List.mem_map, reduceCtorEq, and_false, exists_false, or_false, false_or,
      Notice.flankLost.injEq, and_true, exists_eq_right, ite_mem]
    exact hf i
  · simp only [State.pointNotices, List.mem_append, List.mem_map, reduceCtorEq, and_false, exists_false, false_or,
      Notice.pointFailed.injEq, and_true, exists_eq_right, ite_mem, mem_owner, hr, Bool.and_eq_true,
      Bool.not_eq_true']
    by_cases k : old.failed = false ∧ new.failed = true
    · rw [if_pos k, mem_foldl_addNew, mem_owner, hr]
      simp [k]
    · rw [if_neg k]
      simp only [List.not_mem_nil, false_iff]
      exact fun ⟨a, b, _⟩ => k ⟨a, b⟩
  · simp only [State.pointNotices, List.mem_append, List.mem_map] at hx
    rcases hx with ((⟨i, _, a⟩ | ⟨i, _, a⟩) | ⟨i, _, a⟩) | ⟨i, _, a⟩
    · exact ⟨i, .inl a.symm⟩
    · exact ⟨i, .inr (.inl a.symm)⟩
    · exact ⟨i, .inr (.inr (.inl a.symm))⟩
    · exact ⟨i, .inr (.inr (.inr a.symm))⟩
  · have inj : ∀ (f : Nat → Notice) (l : List Nat), (∀ a b, f a = f b → a = b) → l.Nodup → (l.map f).Nodup :=
      fun f l h k => List.Pairwise.map f (fun a b n m => n (h a b m)) k
    have no := nodup_owner new.lockOwner
    have ite_nodup : ∀ {c : Bool} {l : List Nat}, l.Nodup → (if c = true then l else []).Nodup := by
      intro c l h; cases c <;> simp [h]
    have app : ∀ {l m : List Notice}, l.Nodup → m.Nodup → (∀ a ∈ l, a ∉ m) → (l ++ m).Nodup := by
      intro l m h1 h2 h3
      exact List.nodup_append.2 ⟨h1, h2, fun a ha b hb => fun c => h3 a ha (c ▸ hb)⟩
    unfold State.pointNotices
    refine app (app (app (inj _ _ (fun a b h => by injection h) ?_) (inj _ _ (fun a b h => by injection h) (ite_nodup no)) ?_)
      (inj _ _ (fun a b h => by injection h) (ite_nodup hc.2)) ?_) (inj _ _ (fun a b h => by injection h) ?_) ?_
    · refine List.nodup_append.2 ⟨ite_nodup no, ite_nodup (hc.2.filter _), fun a ha b hb c => ?_⟩
      subst c
      rw [ite_mem] at ha hb
      have := (List.mem_filter.1 hb.1).2
      rw [ha.2, List.contains_iff_mem.2 ha.1] at this
      exact nomatch this
    · simp only [List.mem_map]
      rintro _ ⟨a, _, rfl⟩ ⟨b, _, h⟩
      exact nomatch h
    · simp only [List.mem_append, List.mem_map]
      rintro _ (⟨a, _, rfl⟩ | ⟨a, _, rfl⟩) ⟨b, _, h⟩ <;> exact nomatch h
    · split
      · exact nodup_foldl_addNew no
      · exact List.nodup_nil
    · simp only [List.mem_append, List.mem_map]
      rintro _ ((⟨a, _, rfl⟩ | ⟨a, _, rfl⟩) | ⟨a, _, rfl⟩) ⟨b, _, h⟩ <;> exact nomatch h

/-- The notices of a written change of a signal (R13, R110). -/
theorem signalNotices_rows (e : Nat) (old new : SignalRec) :
    let claims : Nat → Prop := fun i => ∃ f m, s.claim? new.flankRef = some f ∧ .route i m ∈ f.claimants
    (∀ i, .position i e ∈ s.signalNotices e old new ↔ old.shown ≠ .stop ∧ new.shown = .stop ∧ claims i)
    ∧ (∀ i, .flankLost i e ∈ s.signalNotices e old new ↔ old.shown = .stop ∧ new.shown ≠ .stop ∧ claims i)
    ∧ (∀ i, .lampFault i e ∈ s.signalNotices e old new ↔
      old.lampFault = false ∧ new.lampFault = true ∧ new.commanded = .proceed ∧ new.entrySlot = .held i)
    ∧ (∀ x ∈ s.signalNotices e old new, ∃ i, x = .position i e ∨ x = .flankLost i e ∨ x = .lampFault i e)
    ∧ (s.signalNotices e old new).Nodup := by
  intro claims
  have hc := routeClaimants_rows (s.claim? new.flankRef)
  have hr : ∀ i, (i ∈ routeClaimants (s.claim? new.flankRef) ↔ claims i) := hc.1
  have ite_mem : ∀ {c : Bool} {l : List Notice} {i : Notice}, (i ∈ if c = true then l else []) ↔ c = true ∧ i ∈ l := by
    intro c l i; cases c <;> simp
  have hown : ∀ i, i ∈ new.entrySlot.owner.toList ↔ new.entrySlot = .held i := by
    intro i
    cases h : new.entrySlot <;> simp [Slot.owner, eq_comm]
  refine ⟨fun i => ?_, fun i => ?_, fun i => ?_, fun x hx => ?_, ?_⟩
  · simp [State.signalNotices, hr, and_assoc]
  · simp [State.signalNotices, hr, and_assoc]
  · simp only [State.signalNotices, ite_mem, List.mem_append, List.mem_map, reduceCtorEq, and_false, exists_false, or_false,
      false_or, Notice.lampFault.injEq, and_true, exists_eq_right, hown]
    simp [and_assoc]
  · simp only [State.signalNotices, List.mem_append, ite_mem, List.mem_map] at hx
    rcases hx with (⟨_, i, _, a⟩ | ⟨_, i, _, a⟩) | ⟨_, i, _, a⟩
    · exact ⟨i, .inl a.symm⟩
    · exact ⟨i, .inr (.inl a.symm)⟩
    · exact ⟨i, .inr (.inr a.symm)⟩
  · have inj : ∀ (f : Nat → Notice) (l : List Nat), (∀ a b, f a = f b → a = b) → l.Nodup → (l.map f).Nodup :=
      fun f l h k => List.Pairwise.map f (fun a b n m => n (h a b m)) k
    have app : ∀ {l m : List Notice}, l.Nodup → m.Nodup → (∀ a ∈ l, a ∉ m) → (l ++ m).Nodup := by
      intro l m h1 h2 h3
      exact List.nodup_append.2 ⟨h1, h2, fun a ha b hb => fun c => h3 a ha (c ▸ hb)⟩
    have ite_nodup : ∀ {c : Bool} {l : List Notice}, l.Nodup → (if c = true then l else []).Nodup := by
      intro c l h; cases c <;> simp [h]
    unfold State.signalNotices
    refine app (app (ite_nodup (inj _ _ (fun a b h => by injection h) hc.2)) (ite_nodup (inj _ _ (fun a b h => by injection h) hc.2)) ?_)
      (ite_nodup (inj _ _ (fun a b h => by injection h) (nodup_owner _))) ?_
    · simp only [ite_mem, List.mem_map]
      rintro _ ⟨_, a, _, rfl⟩ ⟨_, b, _, h⟩
      exact nomatch h
    · simp only [List.mem_append, ite_mem, List.mem_map]
      rintro _ (⟨_, a, _, rfl⟩ | ⟨_, a, _, rfl⟩) ⟨_, b, _, h⟩ <;> exact nomatch h

/-- A record written with its notices (R4, R13). -/
theorem writePoint_rows {old : PointRec} (new : PointRec) (h : s.point? e = some old) :
    (s.writePoint e new).point? e = some new ∧ (s.writePoint e new).notices = s.notices ++ s.pointNotices e old new
    ∧ s.writePoint e new = (s.putElem e (.point new)).notifyAll (s.pointNotices e old new) := by
  have he := lt_of_point h
  have k : s.writePoint e new = (s.putElem e (.point new)).notifyAll (s.pointNotices e old new) := by
    unfold State.writePoint; rw [h]
  refine ⟨?_, by rw [k]; simp, k⟩
  rw [k, point_of_elem]
  simpa using elem_putElem_same s e (.point new) he

theorem writeSignal_rows {old : SignalRec} (new : SignalRec) (h : s.signal? e = some old) :
    (s.writeSignal e new).signal? e = some new ∧ (s.writeSignal e new).notices = s.notices ++ s.signalNotices e old new
    ∧ s.writeSignal e new = (s.putElem e (.signal new)).notifyAll (s.signalNotices e old new) := by
  have he := lt_of_signal h
  have k : s.writeSignal e new = (s.putElem e (.signal new)).notifyAll (s.signalNotices e old new) := by
    unfold State.writeSignal; rw [h]
  refine ⟨?_, by rw [k]; simp, k⟩
  rw [k, signal_of_elem]
  simpa using elem_putElem_same s e (.signal new) he

end Sys2Proof.Machine
end

