-- ==== Sys2Proof/Laws/Bus.lean ====
section
/-! SUPPORT. The bus after an exchange (R23, R26, R27), section changes handed to the LKC (R15, R55), and a throw
request by the state of the point (R30, R31). -/

set_option Elab.async false

namespace Sys2Proof.Machine

variable {s : State} {e : Nat}

/-! ### What follows an exchange (R23, R26) -/

theorem afterPoll_rows (o : Schedule) :
    (∀ a rest q, s.tbc.round = some (a :: rest) → s.arbiter = some q → s.afterPoll o = { s with
      tbc := { s.tbc with exchange := some (.command q.address q.telegram q.age) }
      out := s.out ++ [.track q.address q.telegram] })
    ∧ (∀ a rest, s.tbc.round = some (a :: rest) → s.arbiter = none → s.afterPoll o = { s with
      tbc := { s.tbc with exchange := some (.poll a), round := some rest }, out := s.out ++ [.track a .poll] })
    ∧ (s.tbc.round = some [] → s.afterPoll o =
      let r := State.roundComplete { s with tbc := { s.tbc with round := none } }
      r.1.handChanges o r.2)
    ∧ (s.tbc.round = none → s.afterPoll o = s) := by
  refine ⟨fun a rest q h k => ?_, fun a rest h k => ?_, fun h => ?_, fun h => ?_⟩
  · unfold State.afterPoll
    rw [h]
    simp only [k]
    unfold State.startCommand
    rw [k]
    rfl
  · unfold State.afterPoll
    rw [h]
    simp only [k]
    unfold State.nextPoll
    rw [h]
    rfl
  · unfold State.afterPoll
    rw [h]
    simp only
    unfold State.nextPoll
    rw [h]
    rfl
  · unfold State.afterPoll
    rw [h]
    simp only
    unfold State.nextPoll
    rw [h]

/-! ### A section's record written (R15, R166) -/

theorem foldl_marks (p : State → BLink → Bool) (s : State) :
    ∃ c, (blinks.foldl (fun acc b => if p acc b then acc else acc.mark (.boundary b)) s) = { s with olc := c } := by
  generalize blinks = l
  induction l generalizing s with
  | nil => exact ⟨s.olc, rfl⟩
  | cons b l ih =>
    obtain ⟨c, h⟩ := ih (if p s b then s else s.mark (.boundary b))
    refine ⟨c, h.trans ?_⟩
    split <;> rfl

theorem writeTrack_olc (t : TrackRec) : ∃ c, s.writeTrack e t = { s.putElem e (.track t) with olc := c } := by
  unfold State.writeTrack
  exact foldl_marks (fun _ b => (s.putElem e (.track t)).lineClear b == s.lineClear b) (s.putElem e (.track t))

theorem retestTrigger_rest : ∃ q m, s.retestTrigger = { s with rqs := q, rim := m } := by
  have h1 : ∀ s : State, ∃ q m, s.presentMarked = { s with rqs := q, rim := m } := by
    intro s
    unfold State.presentMarked
    split
    · exact ⟨_, _, rfl⟩
    · exact ⟨s.rqs, s.rim, rfl⟩
  unfold State.retestTrigger
  split
  · exact ⟨_, s.rim, rfl⟩
  · split
    · exact ⟨s.rqs, s.rim, rfl⟩
    · unfold State.startPass
      obtain ⟨q, m, h⟩ := h1 { s with rqs := { s.rqs with
        store := s.rqs.store.map (fun (e : StoreEntry) => { e with passMark := true }), running := true } }
      exact ⟨q, m, h⟩

/-! ### Points that fail (R34) -/

theorem failPoint_frame (q : Nat) :
    (∀ x, x ≠ q → (s.failPoint q).elem x = s.elem x ∧ (s.failPoint q).drive x = s.drive x)
    ∧ ∃ l, (s.failPoint q).notices = s.notices ++ l := by
  have hd : ∀ x, x ≠ q → (s.endDrive q).drive x = s.drive x := by
    intro x hx
    have : (s.putDrive q none).drive x = s.drive x := by
      unfold State.putDrive
      split
      · rfl
      · exact getD_set_ne _ _ _ _ _ (Ne.symm hx)
    unfold State.endDrive State.withdrawThrow
    split <;> simpa using this
  have hn : (s.endDrive q).notices = s.notices := by
    unfold State.endDrive State.withdrawThrow
    split <;> simp [State.dequeue]
  unfold State.failPoint State.modPoint
  split
  · unfold State.writePoint
    split
    · refine ⟨fun x hx => ⟨?_, ?_⟩, ?_⟩
      · rw [elem_notifyAll, elem_putElem_ne _ _ _ _ (Ne.symm hx), endDrive_elem]
      · rw [drive_notifyAll, drive_putElem, hd x hx]
      · simp only [notifyAll_notices, putElem_notices, hn]
        exact ⟨_, rfl⟩
    · exact ⟨fun x hx => ⟨endDrive_elem x, hd x hx⟩, [], by simp [hn]⟩
  · exact ⟨fun x hx => ⟨endDrive_elem x, hd x hx⟩, [], by simp [hn]⟩

theorem failPoints_rows (l : List Nat) :
    (∀ q ∈ l, ∀ p, s.point? q = some p → (l.foldl State.failPoint s).point? q = some { p with failed := true, next := none }
      ∧ (l.foldl State.failPoint s).drive q = none)
    ∧ (∀ q, q ∉ l → (l.foldl State.failPoint s).elem q = s.elem q ∧ (l.foldl State.failPoint s).drive q = s.drive q)
    ∧ ∃ n, (l.foldl State.failPoint s).notices = s.notices ++ n := by
  induction l generalizing s with
  | nil => exact ⟨fun q h => (nomatch h), fun q _ => ⟨rfl, rfl⟩, [], by simp⟩
  | cons a l ih =>
    obtain ⟨i1, i2, n, i3⟩ := ih (s := s.failPoint a)
    obtain ⟨f1, m, f2⟩ := failPoint_frame (s := s) a
    refine ⟨fun q hq p hp => ?_, fun q hq => ?_, m ++ n, ?_⟩
    · rw [List.foldl_cons]
      by_cases hl : q ∈ l
      · by_cases ha : q = a
        · subst ha
          have := i1 q hl _ (failPoint_fails hp).1
          exact this
        · exact i1 q hl p (point_of_elem.2 ((f1 q ha).1.trans (point_of_elem.1 hp)))
      · have ha : q = a := (List.mem_cons.1 hq).resolve_right hl
        subst ha
        have k := i2 q hl
        have f := failPoint_fails hp
        exact ⟨point_of_elem.2 (k.1.trans (point_of_elem.1 f.1)), k.2.trans f.2.1⟩
    · rw [List.foldl_cons]
      have h1 : q ≠ a := fun h => hq (h ▸ List.mem_cons_self)
      have h2 : q ∉ l := fun h => hq (List.mem_cons_of_mem _ h)
      exact ⟨(i2 q h2).1.trans (f1 q h1).1, (i2 q h2).2.trans (f1 q h1).2⟩
    · rw [List.foldl_cons, i3, f2, List.append_assoc]

/-! ### A section change (R15) -/

theorem mem_pointsIn (q : Nat) : q ∈ (s.pointsIn e).filter s.movesNow ↔
    ∃ p d, s.point? q = some p ∧ e ∈ p.containing ∧ p.detection = .moving ∧ s.drive q = some d ∧ d.state = .active := by
  unfold State.pointsIn State.movesNow
  rw [List.mem_filter, List.mem_filter]
  cases h : s.point? q with
  | none => simp
  | some p =>
    have := lt_of_point h
    cases s.drive q <;> simp [Config.elementCount, this]

theorem sectionChange_same (o : Occ) (h : ∀ t, s.track? e = some t → t.occupancy = o) : s.sectionChange e o = s := by
  unfold State.sectionChange
  split
  · rfl
  · rename_i t ht
    simp [h t ht]

theorem sectionChange_eq {t : TrackRec} {o : Occ} (h : s.track? e = some t) (k : t.occupancy ≠ o) :
    let v := (s.writeTrack e { t with occupancy := o }).notifyAll (t.owner.toList.map fun i => .track i e t.occupancy o)
    (o = .clear → s.sectionChange e o = v.retestTrigger)
    ∧ (o ≠ .clear → s.sectionChange e o = ((v.pointsIn e).filter v.movesNow).foldl State.failPoint v) := by
  intro v
  have : s.sectionChange e o = if o == .clear then v.retestTrigger
      else ((v.pointsIn e).filter v.movesNow).foldl (fun s q => s.failPoint q) v := by
    unfold State.sectionChange
    rw [h]
    simp only [beq_iff_eq, k, if_false]
    rfl
  refine ⟨fun a => ?_, fun a => ?_⟩
  · rw [this, if_pos (by simp [a])]
  · rw [this, if_neg (by simpa using a)]

theorem track_lt {t : TrackRec} (h : s.track? e = some t) : e < 256 := by
  rcases Nat.lt_or_ge e 256 with k | k
  · exact k
  · simp [State.track?, State.elem, Vector.getD, Nat.not_lt.2 k] at h

theorem sectionChange_rows {t : TrackRec} {o : Occ} (h : s.track? e = some t) (k : t.occupancy ≠ o) :
    (s.sectionChange e o).track? e = some { t with occupancy := o }
    ∧ (∀ i role, t.lock = .held i role → .track i e t.occupancy o ∈ (s.sectionChange e o).notices)
    ∧ (o ≠ .clear → ∀ q p d, s.point? q = some p → e ∈ p.containing → p.detection = .moving → s.drive q = some d →
      d.state = .active → (s.sectionChange e o).point? q = some { p with failed := true, next := none }
        ∧ (s.sectionChange e o).drive q = none)
    ∧ ∀ q p, s.point? q = some p → (o = .clear ∨ e ∉ p.containing ∨ p.detection ≠ .moving
        ∨ (∀ d, s.drive q = some d → d.state ≠ .active)) →
      (s.sectionChange e o).point? q = some p ∧ (s.sectionChange e o).drive q = s.drive q := by
  have he := track_lt h
  obtain ⟨v, hv⟩ : ∃ v, v = (s.writeTrack e { t with occupancy := o }).notifyAll
    (t.owner.toList.map fun i => .track i e t.occupancy o) := ⟨_, rfl⟩
  obtain ⟨c, hc⟩ := writeTrack_olc (s := s) (e := e) { t with occupancy := o }
  have ve : ∀ x, x ≠ e → v.elem x = s.elem x := fun x hx => by
    rw [hv, elem_notifyAll, hc]
    exact elem_putElem_ne s e x _ (Ne.symm hx)
  have vs : v.elem e = .track { t with occupancy := o } := by
    rw [hv, elem_notifyAll, hc]
    exact elem_putElem_same s e _ he
  have vd : ∀ x, v.drive x = s.drive x := fun x => by
    rw [hv, drive_notifyAll, hc]
    exact drive_putElem s e x _
  have vn : ∀ i role, t.lock = .held i role → .track i e t.occupancy o ∈ v.notices := fun i role hl => by
    rw [hv, notifyAll_notices]
    exact List.mem_append_right _ (by simp [TrackRec.owner, hl])
  have ne : ∀ q p, s.point? q = some p → q ≠ e := fun q p hp hq => by
    subst hq
    rw [point_of_elem] at hp
    rw [State.track?, hp] at h
    exact nomatch h
  have vp : ∀ q p, s.point? q = some p → v.point? q = some p := fun q p hp =>
    point_of_elem.2 ((ve q (ne q p hp)).trans (point_of_elem.1 hp))
  have hx := sectionChange_eq h k
  rw [← hv] at hx
  have tr : ∀ u : State, u.elem e = .track { t with occupancy := o } → u.track? e = some { t with occupancy := o } :=
    fun u hu => by rw [State.track?, hu]
  by_cases ho : o = .clear
  · rw [hx.1 ho]
    obtain ⟨q, m, hr⟩ := retestTrigger_rest (s := v)
    rw [hr]
    exact ⟨tr _ vs, vn, fun a => absurd ho a, fun q p hp _ => ⟨vp q p hp, vd q⟩⟩
  · rw [hx.2 ho]
    obtain ⟨r1, r2, n, r3⟩ := failPoints_rows (s := v) ((v.pointsIn e).filter v.movesNow)
    have hm := mem_pointsIn (s := v) (e := e)
    refine ⟨tr _ ?_, fun i role hl => ?_, fun _ q p d hp a b c f => ?_, fun q p hp a => ?_⟩
    · rw [(r2 e fun a => ?_).1]
      · exact vs
      · obtain ⟨p, d, hp, -⟩ := (hm e).1 a
        rw [point_of_elem, vs] at hp
        exact nomatch hp
    · rw [r3]
      exact List.mem_append_left _ (vn i role hl)
    · exact r1 q ((hm q).2 ⟨p, d, vp q p hp, a, b, (vd q).trans c, f⟩) p (vp q p hp)
    · have : q ∉ (v.pointsIn e).filter v.movesNow := fun b => by
        obtain ⟨p', d, h1, h2, h3, h4, h5⟩ := (hm q).1 b
        rw [vp q p hp] at h1
        cases h1
        rw [vd] at h4
        rcases a with a | a | a | a
        · exact ho a
        · exact a h2
        · exact a h3
        · exact a d h4 h5
      exact ⟨point_of_elem.2 ((r2 q this).1.trans (point_of_elem.1 (vp q p hp))), (r2 q this).2.trans (vd q)⟩

/-- A section change reaches the occupancy of its section, and of no other; the bus goes on as before (R15). -/
def State.occupancyOf (s : State) (e : Nat) : Option Occ := (s.track? e).map TrackRec.occupancy

theorem occupancyOf_desk {t : State} (h : t.desk = s.desk) (x : Nat) : t.occupancyOf x = s.occupancyOf x := by
  have := seen_of_desk h x
  simp only [State.occupancyOf, State.track?]
  cases ht : t.elem x <;> cases hs : s.elem x <;> simp_all [Element.seen]

theorem sectionChange_frame (o : Occ) :
    (∀ x, (s.sectionChange e o).occupancyOf x = if x = e then (s.occupancyOf e).map (fun _ => o) else s.occupancyOf x)
    ∧ (s.sectionChange e o).tbc.round = s.tbc.round ∧ (s.sectionChange e o).tbc.units = s.tbc.units
    ∧ (s.sectionChange e o).ace = s.ace := by
  cases h : s.track? e with
  | none =>
    rw [sectionChange_same o fun t k => by rw [h] at k; exact nomatch k]
    refine ⟨fun x => ?_, rfl, rfl, rfl⟩
    split
    · rename_i k; subst k; simp [State.occupancyOf, h]
    · rfl
  | some t =>
    by_cases k : t.occupancy = o
    · rw [sectionChange_same o fun t' k' => by rw [h] at k'; cases k'; exact k]
      refine ⟨fun x => ?_, rfl, rfl, rfl⟩
      split
      · rename_i k'; subst k'; simp [State.occupancyOf, h, k]
      · rfl
    · have he := track_lt h
      obtain ⟨v, hv⟩ : ∃ v, v = (s.writeTrack e { t with occupancy := o }).notifyAll
        (t.owner.toList.map fun i => .track i e t.occupancy o) := ⟨_, rfl⟩
      have hx := sectionChange_eq h k
      rw [← hv] at hx
      have hd : (s.sectionChange e o).desk = v.desk := by
        by_cases ho : o = .clear
        · rw [hx.1 ho]
          exact (Walk.refl (gone := fun _ => True)).retestTrigger.desk
        · rw [hx.2 ho]
          exact (Walk.foldl (gone := fun _ => True) (fun q h => h.failPoint q) _ .refl).desk
      obtain ⟨c, hc⟩ := writeTrack_olc (s := s) (e := e) { t with occupancy := o }
      have hr : v.tbc = s.tbc := by
        rw [hv, notifyAll_tbc, hc]
        exact putElem_tbc ..
      have ha : v.ace = s.ace := by
        rw [hv, notifyAll_ace, hc]
        exact putElem_ace ..
      refine ⟨fun x => ?_, (congrArg Desk.round hd).trans (congrArg Tbc.round hr),
        (congrArg Desk.units hd).trans (congrArg Tbc.units hr), (congrArg Desk.ace hd).trans ha⟩
      rw [occupancyOf_desk hd]
      unfold State.occupancyOf State.track?
      by_cases hxe : x = e
      · subst hxe
        have : v.elem x = .track { t with occupancy := o } := by
          rw [hv, elem_notifyAll, hc]
          exact elem_putElem_same s x _ he
        rw [this, elem_of_track h, if_pos rfl]
        rfl
      · have : v.elem x = s.elem x := by
          rw [hv, elem_notifyAll, hc]
          exact elem_putElem_ne s e x _ (Ne.symm hxe)
        rw [this, if_neg hxe]

theorem sectionChanges_rows (l : List (Nat × Occ)) (hl : (l.map Prod.fst).Nodup) (x : Nat) :
    let t := l.foldl (fun (s : State) c => s.sectionChange c.1 c.2) s
    (∀ o, (x, o) ∈ l → t.occupancyOf x = (s.occupancyOf x).map (fun _ => o))
    ∧ ((∀ o, (x, o) ∉ l) → t.occupancyOf x = s.occupancyOf x) ∧ t.tbc.round = s.tbc.round := by
  induction l generalizing s with
  | nil => exact ⟨fun o h => (nomatch h), fun _ => rfl, rfl⟩
  | cons c l ih =>
    obtain ⟨y, p⟩ := c
    simp only [List.map_cons, List.nodup_cons] at hl
    obtain ⟨i1, i2, i3⟩ := ih (s := s.sectionChange y p) hl.2
    have f := sectionChange_frame (s := s) (e := y) p
    refine ⟨fun o h => ?_, fun h => ?_, i3.trans f.2.1⟩
    · by_cases hx : x = y
      · subst hx
        have hn : ∀ o, (x, o) ∉ l := fun o k => hl.1 (List.mem_map.2 ⟨_, k, rfl⟩)
        have : p = o := by
          rcases List.mem_cons.1 h with a | a
          · cases a; rfl
          · exact absurd a (hn o)
        subst this
        exact (i2 hn).trans ((f.1 x).trans (if_pos rfl))
      · have : (x, o) ∈ l := (List.mem_cons.1 h).resolve_left fun a => hx (by cases a; rfl)
        exact (i1 o this).trans (by rw [f.1 x, if_neg hx])
    · have hx : x ≠ y := fun a => h p (by subst a; exact List.mem_cons_self)
      exact (i2 fun o k => h o (List.mem_cons_of_mem _ k)).trans ((f.1 x).trans (if_neg hx))

theorem handOver1_rows (changes : List (Nat × Occ)) (hl : (changes.map Prod.fst).Nodup) (p : Nat × Bool) (x : Nat) :
    (∀ o, (x, o) ∈ changes → x = p.1 → (handOver1 changes s p).occupancyOf x = (s.occupancyOf x).map (fun _ => o))
    ∧ ((x ≠ p.1 ∨ ∀ o, (x, o) ∉ changes) → (handOver1 changes s p).occupancyOf x = s.occupancyOf x)
    ∧ (handOver1 changes s p).tbc.round = s.tbc.round := by
  unfold handOver1
  cases h : changes.find? fun c => c.1 == p.1 with
  | none =>
    refine ⟨fun o k hx => ?_, fun _ => rfl, rfl⟩
    have := List.find?_eq_none.1 h _ k
    simp [hx] at this
  | some c =>
    have hm := List.mem_of_find?_eq_some h
    have hc : c.1 = p.1 := by simpa using List.find?_some h
    obtain ⟨y, o'⟩ := c
    simp only at hc
    subst hc
    have f := sectionChange_frame (s := s) (e := p.1) o'
    have hs : ∀ t : State, t = s.sectionChange p.1 o' →
        (if p.2 = true then t.settle else t).occupancyOf x = t.occupancyOf x
          ∧ (if p.2 = true then t.settle else t).tbc.round = t.tbc.round := by
      intro t _
      split
      · exact ⟨occupancyOf_desk (settle_desk t) x, congrArg Desk.round (settle_desk t)⟩
      · exact ⟨rfl, rfl⟩
    have k := hs _ rfl
    refine ⟨fun o a hx => ?_, fun a => ?_, k.2.trans f.2.1⟩
    · subst hx
      have : o = o' := by
        have nd : ∀ {l : List (Nat × Occ)}, (l.map Prod.fst).Nodup → (p.1, o) ∈ l → (p.1, o') ∈ l → o = o' := by
          intro l
          induction l with
          | nil => intro _ a; exact nomatch a
          | cons c l ih =>
            intro n a b
            simp only [List.map_cons, List.nodup_cons] at n
            rcases List.mem_cons.1 a with a | a <;> rcases List.mem_cons.1 b with b | b
            · rw [← a] at b; exact (congrArg Prod.snd b).symm
            · exact absurd (List.mem_map.2 ⟨_, b, by rw [← a]⟩) n.1
            · exact absurd (List.mem_map.2 ⟨_, a, by rw [← b]⟩) n.1
            · exact ih n.2 a b
        exact nd hl a hm
      subst this
      exact k.1.trans ((f.1 p.1).trans (if_pos rfl))
    · rcases a with a | a
      · exact k.1.trans ((f.1 x).trans (if_neg a))
      · by_cases hx : x = p.1
        · subst hx; exact absurd hm (a o')
        · exact k.1.trans ((f.1 x).trans (if_neg hx))

/-- The changes of one step reach their sections, whatever the order they are handed over in (R55). -/
theorem handChanges_rows (order : Schedule) (changes : List (Nat × Occ)) (hl : (changes.map Prod.fst).Nodup) (x : Nat) :
    (∀ o, (x, o) ∈ changes → (s.handChanges order changes).occupancyOf x = (s.occupancyOf x).map (fun _ => o))
    ∧ ((∀ o, (x, o) ∉ changes) → (s.handChanges order changes).occupancyOf x = s.occupancyOf x)
    ∧ (s.handChanges order changes).tbc.round = s.tbc.round := by
  have h1 : ∀ (order : Schedule) (s : State),
      (∀ o, (x, o) ∈ changes → (order.foldl (handOver1 changes) s).occupancyOf x =
        if order.any (fun p => p.1 == x) then (s.occupancyOf x).map (fun _ => o) else s.occupancyOf x)
      ∧ ((∀ o, (x, o) ∉ changes) → (order.foldl (handOver1 changes) s).occupancyOf x = s.occupancyOf x)
      ∧ (order.foldl (handOver1 changes) s).tbc.round = s.tbc.round := by
    intro order
    induction order with
    | nil => exact fun s => ⟨fun o _ => rfl, fun _ => rfl, rfl⟩
    | cons p order ih =>
      intro s
      obtain ⟨i1, i2, i3⟩ := ih (handOver1 changes s p)
      have f := handOver1_rows (s := s) changes hl p x
      refine ⟨fun o a => ?_, fun a => (i2 a).trans (f.2.1 (.inr a)), i3.trans f.2.2⟩
      rw [List.foldl_cons, i1 o a, List.any_cons]
      by_cases hx : x = p.1
      · rw [f.1 o a hx, hx]
        cases s.occupancyOf p.1 <;> simp
      · rw [f.2.1 (.inl hx)]
        have : (p.1 == x) = false := by simpa using fun h => hx h.symm
        rw [this, Bool.false_or]
  obtain ⟨a1, a2, a3⟩ := h1 order s
  have hf : ((changes.filter fun c => !order.any fun p => p.1 == c.1).map Prod.fst).Nodup :=
    hl.sublist ((List.filter_sublist).map _)
  obtain ⟨b1, b2, b3⟩ := sectionChanges_rows (s := order.foldl (handOver1 changes) s) _ hf x
  unfold State.handChanges
  refine ⟨fun o h => ?_, fun h => ?_, b3.trans a3⟩
  · cases ho : order.any (fun p => p.1 == x) with
    | true =>
      refine (b2 fun o' k => ?_).trans ((a1 o h).trans (by rw [ho]; rfl))
      have := (List.mem_filter.1 k).2
      simp [ho] at this
    | false =>
      refine (b1 o (List.mem_filter.2 ⟨h, by simp [ho]⟩)).trans ?_
      rw [a1 o h, ho]
      rfl
  · exact (b2 fun o k => h o (List.mem_filter.1 k).1).trans (a2 h)

/-! ### The round goes on under reports and misses -/

/-- What section changes and the taking of notices keep, handing changes over keeps. -/
theorem handChanges_keeps {β : Type} (g : State → β) (h1 : ∀ (s : State) e o, g (s.sectionChange e o) = g s)
    (h2 : ∀ s : State, g s.settle = g s) (order : Schedule) (changes : List (Nat × Occ)) :
    g (s.handChanges order changes) = g s := by
  have h : ∀ (s : State) (p : Nat × Bool), g (handOver1 changes s p) = g s := by
    intro s p
    unfold handOver1
    split
    · dsimp only
      split
      · exact (h2 _).trans (h1 _ _ _)
      · exact h1 _ _ _
    · rfl
  unfold State.handChanges
  exact (foldl_keeps _ g (f := fun (s : State) (c : Nat × Occ) => s.sectionChange c.1 c.2) (fun s c => h1 s _ _) _).trans
    (foldl_keeps _ g h order)

theorem handChanges_round (order : Schedule) (changes : List (Nat × Occ)) :
    (s.handChanges order changes).tbc.round = s.tbc.round :=
  handChanges_keeps (fun s => s.tbc.round) (fun _ _ o => (sectionChange_frame o).2.1)
    (fun s => congrArg Desk.round (settle_desk s)) order changes

theorem handChanges_units (order : Schedule) (changes : List (Nat × Occ)) :
    (s.handChanges order changes).tbc.units = s.tbc.units :=
  handChanges_keeps (fun s => s.tbc.units) (fun _ _ o => (sectionChange_frame o).2.2.1)
    (fun s => congrArg Desk.units (settle_desk s)) order changes

theorem handChanges_ace (order : Schedule) (changes : List (Nat × Occ)) :
    (s.handChanges order changes).ace = s.ace :=
  handChanges_keeps State.ace (fun _ _ o => (sectionChange_frame o).2.2.2) (fun s => congrArg Desk.ace (settle_desk s)) order changes

theorem modPoint_round (f : PointRec → PointRec) : (s.modPoint e f).tbc.round = s.tbc.round := by
  unfold State.modPoint State.writePoint
  (repeat' split) <;> simp

theorem modSignal_round (f : SignalRec → SignalRec) : (s.modSignal e f).tbc.round = s.tbc.round := by
  unfold State.modSignal State.writeSignal
  (repeat' split) <;> simp

/-- What a walk leaves of the round. -/
theorem Walk.round {gone : Nat → Prop} {a t : State} (h : Walk gone a t) : t.tbc.round = a.tbc.round := congrArg Desk.round h.desk

theorem resumeDrive_round : (s.resumeDrive e).tbc.round = s.tbc.round := by
  have w : ∀ a : State, Walk (fun _ => True) a a := fun _ => .refl
  unfold State.resumeDrive
  split
  · split
    · split
      · exact ((w s).completeDrive e _).round
      · dsimp only
        split
        · exact ((w s).dropNext e).round
        · split
          · exact (((w s).dropNext e).failPoint e).round
          · exact ((((w s).dropNext e).putDrive e _).enqueueThrow e _).round
    · rfl
  · rfl

theorem pduReport_round (d : PduDetection) (l : Bool) : (s.pduReport e d l).tbc.round = s.tbc.round := by
  have w : ∀ a : State, Walk (fun _ => True) a a := fun _ => .refl
  have h := modPoint_round (s := s) (e := e) fun p => { p with detection := reportedDetection d, localMode := l }
  unfold State.pduReport
  dsimp only
  generalize s.modPoint e (fun p => { p with detection := reportedDetection d, localMode := l }) = t at h ⊢
  split
  · split
    · exact ((w t).completeDrive e _).round.trans h
    · split
      · exact ((w t).withdrawDrive e).round.trans h
      · exact h
  · exact h

theorem sduReport_round (a : SduAspect) (l : Bool) : (s.sduReport e a l).tbc.round = s.tbc.round := by
  have w : ∀ a : State, Walk (fun _ => True) a a := fun _ => .refl
  have h := modSignal_round (s := s) (e := e) fun g => { g with shown := reportedAspect a, lampFault := l }
  unfold State.sduReport
  dsimp only
  generalize s.modSignal e (fun g => { g with shown := reportedAspect a, lampFault := l }) = t at h ⊢
  split
  · exact h
  · split
    · split
      · exact ((w t).dropCmd e).round.trans h
      · exact h
    · split
      · split
        · exact h
        · exact ((w t).proceedFails e).round.trans h
      · split
        · exact ((((w t).signalFailed e).enqueueStop e).mark _).round.trans h
        · exact h

theorem disturbBorders_tbc (d : Nat) (l : List (Nat × Orient)) (p : State × List (Nat × Occ)) :
    (l.foldl (State.disturbBorder d) p).1.tbc = p.1.tbc := by
  induction l generalizing p with
  | nil => rfl
  | cons b l ih =>
    rw [List.foldl_cons, ih]
    unfold State.disturbBorder State.putCount
    (repeat' split) <;> rfl

theorem writeDp_tbc (d : Nat) (o n : DpRec) : (s.writeDp d o n).tbc = s.tbc := by
  unfold State.writeDp
  dsimp only
  split
  · rfl
  · exact foldl_keeps _ State.tbc (f := fun (s : State) (b : Nat × Orient) => s.mark (.element b.1)) (fun _ _ => rfl) _

theorem failDp_tbc (d : Nat) (o : DpRec) (c : DpCause) (l : Option (Byte × Byte)) : (s.failDp d o c l).1.tbc = s.tbc := by
  unfold State.failDp
  exact (disturbBorders_tbc d _ _).trans (writeDp_tbc ..)

theorem chReport_tbc (d m : Nat) (a b : Byte) (f : Bool) : (s.chReport d m a b f).1.tbc = s.tbc := by
  unfold State.chReport
  dsimp only
  (repeat' split) <;> simp only [failDp_tbc, writeDp_tbc, putDp_tbc]

theorem chUnreachable_tbc (d : Nat) : (s.chUnreachable d).1.tbc = s.tbc := by
  unfold State.chUnreachable
  (repeat' split) <;> simp only [failDp_tbc]

theorem goodPoll_round (o : Schedule) (u : UnitRow) (body : AnswerBody) : (s.goodPoll o u body).tbc.round = s.tbc.round := by
  have h : ((s.putUnit { u with misses := 0, reachable := true }).handReport o u body).tbc.round = s.tbc.round := by
    unfold State.handReport
    split
    · rw [handChanges_round, chReport_tbc]; rfl
    · exact pduReport_round ..
    · exact sduReport_round ..
    · rfl
  unfold State.goodPoll
  dsimp only
  split
  · exact resumeDrive_round.trans h
  · exact h

theorem missed_round (o : Schedule) (a : Nat) : (s.missed o a).tbc.round = s.tbc.round := by
  have w : ∀ a : State, Walk (fun _ => True) a a := fun _ => .refl
  unfold State.missed
  dsimp only
  split
  · rfl
  · split
    · unfold State.unitLost
      split
      · rw [handChanges_round, chUnreachable_tbc]; rfl
      · unfold State.pduUnreachable State.pauseDrive
        (repeat' split) <;> first
          | exact modPoint_round _
          | exact ((w _).putDrive _ _).round.trans (modPoint_round _)
      · unfold State.sduUnreachable
        dsimp only
        (repeat' split) <;> first
          | exact modSignal_round _
          | exact ((w _).proceedFails _).round.trans (modSignal_round _)
    · rfl

/-- The last POLL of a round ends it: round-complete, then its changes handed over (R23, R51, R55). -/
theorem lastPoll_rows {u : UnitRow} {a : Nat} (o : Schedule) (h : s.tbc.exchange = some (.poll a)) (hu : s.unitAt a = some u)
    (hr : s.tbc.round = some []) :
    let ends : State → State := fun v =>
      let r := State.roundComplete { v with tbc := { v.tbc with round := none } }
      r.1.handChanges o r.2
    (∀ x body, pollAnswer u x = some body →
      execPollExchangeEnd x o s = .next (State.finish s (ends (s.freeBus.goodPoll o u body))))
    ∧ (∀ x, pollAnswer u x = none → execPollExchangeEnd x o s = .next (State.finish s (ends (s.freeBus.missed o a))))
    ∧ execExchangeAnswerTimeout o s = .next (State.finish s (ends (s.freeBus.missed o a))) := by
  intro ends
  have hu' : s.freeBus.unitAt a = some u := hu
  have hm : (s.freeBus.missed o a).afterPoll o = ends (s.freeBus.missed o a) :=
    (afterPoll_rows o).2.2.1 ((missed_round o a).trans hr)
  refine ⟨fun x body k => ?_, fun x k => ?_, ?_⟩
  · have hg : (s.freeBus.goodPoll o u body).afterPoll o = ends (s.freeBus.goodPoll o u body) :=
      (afterPoll_rows o).2.2.1 ((goodPoll_round o u body).trans hr)
    have : s.pollEnds a (some x) o = ends (s.freeBus.goodPoll o u body) := by
      rw [← hg]
      unfold State.pollEnds
      simp only [hu', Option.bind_some, k, Option.map_some]
    unfold execPollExchangeEnd
    rw [h]
    simp only [this]
  · have : s.pollEnds a (some x) o = ends (s.freeBus.missed o a) := by
      rw [← hm]
      unfold State.pollEnds
      simp only [hu', Option.bind_some, k, Option.map_none]
    unfold execPollExchangeEnd
    rw [h]
    simp only [this]
  · have : s.pollEnds a none o = ends (s.freeBus.missed o a) := by
      rw [← hm]
      unfold State.pollEnds
      simp only [hu', Option.bind_some, Option.bind_none, Option.map_none]
    unfold execExchangeAnswerTimeout
    rw [h]
    simp only [this]

/-! ### Answers to commands (R27, R32, R34, R37, R39) -/

/-- *acknowledged* and *failed* for a THROW (R32, R34). -/
theorem throwAnswered_rows (u : UnitRow) (pos : Pos) :
    (s.drive u.serves = none → ∀ f, s.commandAnswered u (.throwTo pos) f = s)
    ∧ ∀ d p, s.drive u.serves = some d → s.point? u.serves = some p →
      (d.state = .paused → s.commandAnswered u (.throwTo pos) none = s)
      ∧ (d.state = .active → s.commandAnswered u (.throwTo pos) none =
          s.putDrive u.serves (some { d with timer := d.timer.resume p.supervision }))
      ∧ (∀ t, t = s.commandAnswered u (.throwTo pos) (some (some .localMode)) →
        t.point? u.serves = some { p with next := none } ∧ t.drive u.serves = none
          ∧ ∀ v, s.unitOf .pdu u.serves = some v → t.queuedAt v.address = none)
      ∧ ∀ r t, r ≠ .localMode → t = s.commandAnswered u (.throwTo pos) (some (some r)) →
        t.point? u.serves = some { p with failed := true, next := none } ∧ t.drive u.serves = none
          ∧ (∀ v, s.unitOf .pdu u.serves = some v → t.queuedAt v.address = none)
          ∧ (p.failed = false → ∀ i role q, p.lock = .held i role q → .pointFailed i u.serves ∈ t.notices)
          ∧ (p.failed = false → ∀ i f m, s.claim? p.flankRef = some f → .route i m ∈ f.claimants →
            .pointFailed i u.serves ∈ t.notices) := by
  refine ⟨fun h f => ?_, fun d p hd hp => ⟨fun h => ?_, fun h => ?_, fun t ht => ?_, fun r t hr ht => ?_⟩⟩
  · cases f with
    | none => unfold State.commandAnswered State.throwAcked; simp only [h]
    | some r => unfold State.commandAnswered State.throwFailed; simp only [h]
  · unfold State.commandAnswered State.throwAcked
    simp only [hd, hp, h]
    rfl
  · unfold State.commandAnswered State.throwAcked
    simp only [hd, hp, h]
    rfl
  · have : t = s.withdrawDrive u.serves := by
      rw [ht]
      unfold State.commandAnswered State.throwFailed
      simp only [hd]
    rw [this]
    exact withdrawDrive_withdraws hp hd
  · have : t = s.failPoint u.serves := by
      rw [ht]
      unfold State.commandAnswered State.throwFailed
      simp only [hd]
    rw [this]
    have k := failPoint_fails hp
    have he : (s.endDrive u.serves).point? u.serves = some p :=
      point_of_elem.2 ((endDrive_elem _).trans (point_of_elem.1 hp))
    have hm : (s.failPoint u.serves).notices = (s.endDrive u.serves).notices
        ++ (s.endDrive u.serves).pointNotices u.serves p { p with failed := true, next := none } := by
      unfold State.failPoint State.modPoint
      rw [he]
      exact (writePoint_rows _ he).2.1
    have hc : (s.endDrive u.serves).claim? p.flankRef = s.claim? p.flankRef := by
      have : ∀ n, (s.endDrive u.serves).fctEntry n = s.fctEntry n := fun n => by
        unfold State.endDrive State.withdrawThrow State.putDrive
        (repeat' split) <;> rfl
      unfold State.claim?
      exact congrArg p.flankRef.bind (funext this)
    refine ⟨k.1, k.2.1, k.2.2, fun hf i role q hl => ?_, fun hf i f m h1 h2 => ?_⟩
    · rw [hm]
      exact List.mem_append_right _ (((pointNotices_rows _ _ _).2.2.2.1 i).2 ⟨hf, rfl, .inl ⟨role, q, hl⟩⟩)
    · rw [hm]
      exact List.mem_append_right _ (((pointNotices_rows _ _ _).2.2.2.1 i).2 ⟨hf, rfl, .inr ⟨f, m, hc.trans h1, h2⟩⟩)

/-- *acknowledged* and *failed* for a SHOW (R37, R39). -/
theorem showAnswered_rows (u : UnitRow) :
    s.commandAnswered u (.showAs .proceed) none = s
    ∧ (∀ r, (s.cmd u.serves).awaiting.isRunning = true →
      s.commandAnswered u (.showAs .proceed) (some r) = s.proceedFails u.serves)
    ∧ (∀ r, (s.cmd u.serves).awaiting.isRunning = false → s.commandAnswered u (.showAs .proceed) (some r) = s)
    ∧ ∀ w, s.unitOf .sdu u.serves = some w →
      ((∀ q, s.queuedAt w.address = some q → q.telegram ≠ .showAs .stop) →
        s.commandAnswered u (.showAs .stop) none = s.putCmd u.serves { s.cmd u.serves with stopOutstanding := false }
        ∧ ∀ r g, s.signal? u.serves = some g →
          (s.commandAnswered u (.showAs .stop) (some r)).signal? u.serves = some { g with failed := true }
          ∧ (s.commandAnswered u (.showAs .stop) (some r)).cmd u.serves = { s.cmd u.serves with stopOutstanding := false })
      ∧ ∀ q, s.queuedAt w.address = some q → q.telegram = .showAs .stop → s.commandAnswered u (.showAs .stop) none = s := by
  have hs : ∀ r, s.commandAnswered u (.showAs .proceed) (some r) = s.showProceedFailed u.serves := fun r => rfl
  refine ⟨rfl, fun r h => ?_, fun r h => ?_, fun w hw => ⟨fun h => ?_, fun q hq h => ?_⟩⟩
  · rw [hs]; unfold State.showProceedFailed; rw [if_pos h]
  · rw [hs]; unfold State.showProceedFailed; rw [if_neg (by simp [h])]
  · have hn : s.stopQueuedAt w.address = false := by
      unfold State.stopQueuedAt
      cases hq : s.queuedAt w.address with
      | none => rfl
      | some q => simpa using h q hq
    have ha : s.stopAnswered u.serves = s.putCmd u.serves { s.cmd u.serves with stopOutstanding := false } := by
      unfold State.stopAnswered
      rw [hw]
      simp only [hn, Bool.false_eq_true, if_false]
    refine ⟨ha, fun r g hg => ?_⟩
    have hp : (s.stopAnswered u.serves).signal? u.serves = some g := by
      rw [ha]
      exact signal_of_elem.2 ((elem_putCmd ..).trans (signal_of_elem.1 hg))
    have : s.commandAnswered u (.showAs .stop) (some r) = s.stopFailed u.serves := rfl
    rw [this]
    unfold State.stopFailed
    refine ⟨modSignal_signal hp _, ?_⟩
    rw [modSignal_cmd hp, ha, cmd_putCmd_same _ _ _ (lt_of_signal hg)]
  · show s.stopAnswered u.serves = s
    unfold State.stopAnswered
    rw [hw]
    simp only
    rw [if_pos]
    simp [State.stopQueuedAt, hq, h]

/-- A good answer to a command by whether the command is still the one queued (R25, R27). -/
theorem goodCommand_rows (u : UnitRow) (t : TrackTelegram) (age : Nat) (f : Option (Option RejectReason)) :
    let v := s.putUnit { u with misses := 0 }
    (∀ q, s.queuedAt u.address = some q → q.age = age →
      s.goodCommand u t age f = (v.dequeue u.address).commandAnswered u t f)
    ∧ ((∀ q, s.queuedAt u.address = some q → q.age ≠ age) →
      (t = .showAs .stop → s.goodCommand u t age f = v.stopAnswered u.serves)
      ∧ (t ≠ .showAs .stop → s.goodCommand u t age f = v)) := by
  intro v
  have hv : v.stillQueued u.address age = (s.queuedAt u.address).filter fun q => q.age == age := rfl
  have hg : s.goodCommand u t age f = match v.stillQueued u.address age with
      | some _ => (v.dequeue u.address).commandAnswered u t f
      | none => if t == .showAs .stop then v.stopAnswered u.serves else v := rfl
  refine ⟨fun q hq ha => ?_, fun h => ?_⟩
  · rw [hg, hv, hq, Option.filter_some, if_pos (by simp [ha])]
  · have : (s.queuedAt u.address).filter (fun q => q.age == age) = none := by
      cases hq : s.queuedAt u.address with
      | none => rfl
      | some q => rw [Option.filter_some, if_neg (by simpa using h q hq)]
    rw [hg, hv, this]
    exact ⟨fun k => by simp [k], fun k => by simp [k]⟩

/-- The bus after a command exchange (R26). -/
theorem afterCommand_rows (o : Schedule) :
    (s.tbc.round = none → s.afterCommand o = s)
    ∧ (∀ a rest, s.tbc.round = some (a :: rest) → s.afterCommand o = { s with
      tbc := { s.tbc with exchange := some (.poll a), round := some rest }, out := s.out ++ [.track a .poll] }) := by
  refine ⟨fun h => ?_, fun a rest h => ?_⟩
  · unfold State.afterCommand; rw [h]
  · unfold State.afterCommand State.nextPoll; rw [h]; rfl

/-! ### A throw request (R30, R31) -/

theorem agrees_iff (p : PointRec) (q : Pos) : s.agrees p q = true ↔
    (∀ i role x, p.lock = .held i role x → x = q)
    ∧ (p.flankRef = none ∨ ∃ f, s.claim? p.flankRef = some f ∧ f.required = .pos q) := by
  have hc : s.claimPos p = some q ↔ ∃ f, s.claim? p.flankRef = some f ∧ f.required = .pos q := by
    unfold State.claimPos
    cases h : s.claim? p.flankRef with
    | none => simp
    | some f => cases hf : f.required <;> simp [hf]
  unfold State.agrees
  rw [Bool.and_eq_true, Bool.or_eq_true, Bool.or_eq_true, beq_iff_eq, beq_iff_eq, beq_iff_eq, Option.isNone_iff_eq_none, hc]
  refine and_congr_left' ?_
  unfold PointRec.lockPos
  cases p.lock <;> simp

theorem throwLaw_iff (p : PointRec) (q : Pos) : s.throwLaw p q = true ↔
    s.agrees p q = true ∧ ∀ c ∈ p.containing, ∃ t, s.track? c = some t ∧ t.occupancy = .clear := by
  have hc : ∀ c, s.isClear c = true ↔ ∃ t, s.track? c = some t ∧ t.occupancy = .clear := by
    intro c
    unfold State.isClear State.occ
    cases h : s.track? c <;> simp
  unfold State.throwLaw State.containingClear
  rw [Bool.and_eq_true, List.all_eq_true]
  simp only [hc]

theorem enqueueThrow_rows {p : PointRec} (q : Pos) (h : s.point? e = some p) :
    (s.throwLaw p q = false → s.enqueueThrow e q = s)
    ∧ (s.throwLaw p q = true → (∀ u, s.unitOf .pdu e = some u → s.enqueueThrow e q = s.enqueue u.address (.throwTo q))
      ∧ (s.unitOf .pdu e = none → s.enqueueThrow e q = s.failPoint e)) := by
  unfold State.enqueueThrow
  rw [h]
  exact ⟨fun k => by simp [k], fun k => ⟨fun u hu => by simp [k, hu], fun hu => by simp [k, hu]⟩⟩

theorem throwRequest_rows (q : Pos) (o : Bool) :
    (s.point? e = none → s.throwRequest e q o = (s, false))
    ∧ ∀ p, s.point? e = some p →
      ((s.agrees p q = false ∨ p.flagsClear = false) → s.throwRequest e q o = (s, false))
      ∧ (s.agrees p q = true → p.flagsClear = true →
        (s.drive e = none →
          (p.detection = detectionOf q → s.throwRequest e q o = (s, true))
          ∧ (p.detection ≠ detectionOf q → s.movable p = false → s.throwRequest e q o = (s, false))
          ∧ (p.detection ≠ detectionOf q → s.movable p = true → s.throwRequest e q o =
            ((s.putDrive e (some ⟨q, p.retries, .stopped, .active, false⟩)).enqueueThrow e q, true)))
        ∧ ∀ d, s.drive e = some d →
          (d.target = q → s.throwRequest e q o = (s, true))
          ∧ (d.target ≠ q → s.throwRequest e q o =
            ((s.writePoint e { p with next := some q }).putDrive e (some { d with operatorMark := o }), true))) := by
  refine ⟨fun h => ?_, fun p h => ⟨fun k => ?_, fun ka kf => ⟨fun hd => ⟨fun a => ?_, fun a b => ?_, fun a b => ?_⟩,
    fun d hd => ⟨fun a => ?_, fun a => ?_⟩⟩⟩⟩
  · unfold State.throwRequest; rw [h]
  · unfold State.throwRequest; rw [h]; rcases k with k | k <;> simp [k]
  · unfold State.throwRequest; rw [h]; simp [ka, kf, hd, a]
  · unfold State.throwRequest; rw [h]; simp [ka, kf, hd, a, b]
  · unfold State.throwRequest; rw [h]; simp [ka, kf, hd, a, b]
  · unfold State.throwRequest; rw [h]; simp [ka, kf, hd, a]
  · unfold State.throwRequest State.modPoint; rw [h]; simp [ka, kf, hd, a]

/-! ### A head that counts again (R23, R47) -/

theorem handChanges_nil (o : Schedule) : s.handChanges o [] = s := by
  unfold State.handChanges
  exact foldl_keeps s id (f := handOver1 []) (fun _ _ => rfl) o

theorem dp_lt {d : Nat} {r : DpRec} (h : s.dp d = some r) : d < 120 := by
  rcases Nat.lt_or_ge d 120 with k | k
  · exact k
  · simp [State.dp, Vector.getD, Nat.not_lt.2 k] at h

theorem dp_putDp {d : Nat} (r : DpRec) (h : d < 120) : (s.putDp d r).dp d = some r := by
  simp [State.dp, State.putDp, Vector.getD, h]

theorem writeDp_dp {d : Nat} (old new : DpRec) (h : d < 120) : (s.writeDp d old new).dp d = some new := by
  unfold State.writeDp
  dsimp only
  split
  · exact dp_putDp _ h
  · exact (foldl_keeps _ (fun s : State => s.dp d) (f := fun (s : State) (b : Nat × Orient) => s.mark (.element b.1))
      (fun _ _ => rfl) _).trans (dp_putDp _ h)

theorem roundComplete_rest : (∀ d, s.roundComplete.1.dp d = (s.dp d).map fun (r : DpRec) => { r with pendingA := 0, pendingB := 0 })
    ∧ s.roundComplete.1.tbc = s.tbc := by
  have h : ∀ (l : List Nat) (p : State × List (Nat × Occ)),
      (l.foldl State.evaluateSection p).1.ace.dps = p.1.ace.dps ∧ (l.foldl State.evaluateSection p).1.tbc = p.1.tbc := by
    intro l
    induction l with
    | nil => exact fun p => ⟨rfl, rfl⟩
    | cons x l ih =>
      intro p
      have k : (State.evaluateSection p x).1.ace.dps = p.1.ace.dps ∧ (State.evaluateSection p x).1.tbc = p.1.tbc := by
        unfold State.evaluateSection
        split
        · dsimp only
          unfold State.putCount
          split <;> exact ⟨rfl, rfl⟩
        · exact ⟨rfl, rfl⟩
      exact ⟨(ih _).1.trans k.1, (ih _).2.trans k.2⟩
  have k := h (List.range Config.elementCount) (s, [])
  generalize hg : (List.range Config.elementCount).foldl State.evaluateSection (s, []) = z at k
  have hz : s.roundComplete.1 = { z.1 with ace := { z.1.ace with dps := z.1.ace.dps.map (fun o =>
      o.map (fun (r : DpRec) => { r with pendingA := 0, pendingB := 0 })) } } := by
    unfold State.roundComplete
    rw [hg]
  refine ⟨fun d => ?_, by rw [hz]; exact k.2⟩
  rw [hz]
  unfold State.dp
  simp only [k.1]
  by_cases hd : d < 120 <;> simp [Vector.getD, hd]

/-- After a POLL a detection point keeps its state and last counts; at the end of a round its pending counts are 0. -/
theorem afterPoll_dp (o : Schedule) {d : Nat} {r : DpRec} (h : s.dp d = some r) :
    (s.afterPoll o).tbc.units = s.tbc.units
    ∧ ((s.afterPoll o).dp d = some r ∨ (s.afterPoll o).dp d = some { r with pendingA := 0, pendingB := 0 }) := by
  have a := afterPoll_rows (s := s) o
  cases hr : s.tbc.round with
  | none => rw [a.2.2.2 hr]; exact ⟨rfl, .inl h⟩
  | some l =>
    cases l with
    | nil =>
      rw [a.2.2.1 hr]
      have hd : ({ s with tbc := { s.tbc with round := none } } : State).dp d = some r := h
      have hu : ({ s with tbc := { s.tbc with round := none } } : State).tbc.units = s.tbc.units := rfl
      generalize ({ s with tbc := { s.tbc with round := none } } : State) = v at hd hu
      have k := roundComplete_rest (s := v)
      generalize v.roundComplete = z at k
      refine ⟨(handChanges_units _ _).trans ((congrArg Tbc.units k.2).trans hu), .inr ?_⟩
      have : ∀ t u : State, t.ace = u.ace → t.dp d = u.dp d := fun t u h => by unfold State.dp; rw [h]
      rw [this _ _ (handChanges_ace _ _), k.1, hd]
      rfl
    | cons x rest =>
      cases ha : s.arbiter with
      | none => rw [a.2.1 x rest hr ha]; exact ⟨rfl, .inl h⟩
      | some q => rw [a.1 x rest q hr ha]; exact ⟨rfl, .inl h⟩

/-- The first good POLL of a head whose point is FAILED, at any miss count (R23, R28, R47). -/
theorem resynchronise_rows {u : UnitRow} {a : Nat} {x : List Byte} {m n : Byte} (o : Schedule) {r : DpRec} {c : DpCause}
    (h : s.tbc.exchange = some (.poll a)) (hu : s.unitAt a = some u) (hk : u.kind = .ch)
    (hx : pollAnswer u x = some (.reportCh m n false)) (hd : s.dp u.serves = some r) (hr : r.state = .failed c) :
    ∃ t, execPollExchangeEnd x o s = .next t
      ∧ t.tbc.units = s.tbc.units.map (fun v => if v.address == u.address then { u with misses := 0, reachable := true } else v)
      ∧ ∃ r', t.dp u.serves = some r' ∧ r'.state = .normal ∧ r'.last = some (m, n)
        ∧ (r.pendingA = 0 → r.pendingB = 0 → r'.pendingA = 0 ∧ r'.pendingB = 0) := by
  have hu' : s.freeBus.unitAt a = some u := hu
  let v := s.freeBus.putUnit { u with misses := 0, reachable := true }
  let r' : DpRec := { r with state := .normal, last := some (m, n) }
  have hv : v.dp u.serves = some r := hd
  have hc : v.chReport u.serves u.misses m n false = (v.writeDp u.serves r r', []) := by
    unfold State.chReport
    rw [hv]
    simp only [hr, Bool.false_eq_true, if_false]
    rfl
  have hg : s.freeBus.goodPoll o u (.reportCh m n false) = v.writeDp u.serves r r' := by
    have : v.handReport o u (.reportCh m n false) = v.writeDp u.serves r r' := by
      unfold State.handReport
      dsimp only
      rw [hc]
      exact handChanges_nil o
    rw [← this]
    unfold State.goodPoll
    have hp : (!u.reachable && u.kind == .pdu) = false := by rw [hk]; cases u.reachable <;> rfl
    simp only [hp, Bool.false_eq_true, if_false]
    rfl
  have hp : s.pollEnds a (some x) o = (v.writeDp u.serves r r').afterPoll o := by
    rw [← hg]
    unfold State.pollEnds
    simp only [hu', Option.bind_some, hx, Option.map_some]
  have ha := afterPoll_dp (s := v.writeDp u.serves r r') o (writeDp_dp r r' (dp_lt hd))
  refine ⟨State.finish s (s.pollEnds a (some x) o), by unfold execPollExchangeEnd; rw [h], ?_, ?_⟩
  · rw [units_of_desk (finish_desk _ _), hp, ha.1, writeDp_tbc]
    rfl
  · have he : ∀ t u : State, t.ace = u.ace → t.dp = u.dp := fun t u h => by funext d; unfold State.dp; rw [h]
    rw [he _ _ (ace_of_desk (finish_desk _ _)), hp]
    rcases ha.2 with k | k
    · exact ⟨r', k, rfl, rfl, fun a b => ⟨a, b⟩⟩
    · exact ⟨_, k, rfl, rfl, fun _ _ => ⟨rfl, rfl⟩⟩

end Sys2Proof.Machine
end

