-- ==== Sys2Proof/Laws/Auxiliary.lean ====
section
/-! SUPPORT. The checks of an auxiliary operation, one row for each kind (R19, R56, R133, R152, R161, R183), and
what SUSPECT-CLEAR does (R19, R138). -/

set_option Elab.async false

namespace Sys2Proof.Machine

variable {s : State}

theorem auxKnown_rows (o : Nat) :
    (s.auxKnown .emergencyRelease o = true ↔ o < 48)
    ∧ (s.auxKnown .sectionReset o = true ↔ ∃ t, s.track? o = some t)
    ∧ (s.auxKnown .suspectClear o = true ↔ s.elem o ≠ .unconfigured)
    ∧ (s.auxKnown .authForce o = true ↔ o < 16)
    ∧ (s.auxKnown .boundaryRelease o = true ↔ ∃ b, s.boundary? o = some b) := by
  refine ⟨by simp [State.auxKnown], by simp [State.auxKnown, Option.isSome_iff_exists], ?_, by simp [State.auxKnown],
    by simp [State.auxKnown, Option.isSome_iff_exists]⟩
  unfold State.auxKnown
  cases h : s.elem o <;> simp [Element.area?]

theorem auxAllowed_rows (l : OpLink) (o : Nat) :
    (s.live o = none → s.auxAllowed l .emergencyRelease o = true)
    ∧ (∀ r d, s.live o = some (r, d) → s.auxAllowed l .emergencyRelease o = s.holdsElem l d.entry)
    ∧ s.auxAllowed l .sectionReset o = s.holdsElem l o
    ∧ s.auxAllowed l .suspectClear o = s.holdsElem l o
    ∧ s.auxAllowed l .authForce o = true
    ∧ s.auxAllowed l .boundaryRelease o = s.holdsElem l o :=
  ⟨fun h => by simp [State.auxAllowed, h], fun r d h => by simp [State.auxAllowed, h], rfl, rfl, rfl, rfl⟩

theorem lists_iff (r : Inst) (d : RouteDef) (e : Nat) : r.lists d e = true ↔
    (d.entry = e ∧ r.unreleased 1 = true) ∨ (d.exit = e ∧ r.unreleased d.path.length = true)
    ∨ (∃ it ∈ r.openItems d, it.sect = e) ∨ r.locksPoint d e = true
    ∨ (r.overlapHeld = true ∧ overlapSect d = some e) ∨ r.flankOn d e ≠ [] := by
  simp [Inst.lists, or_assoc]

theorem auxReady_rows (o : Nat) :
    (s.auxReady .emergencyRelease o = true ↔ ∃ r, s.inst o = some r
      ∧ (r.state = .inUse ∨ r.state = .seqFault ∨ r.state = .held ∨ r.state = .cancelling))
    ∧ (s.auxReady .sectionReset o = true ↔ ∃ t c, s.track? o = some t ∧ s.count o = some c
      ∧ (c.state = .disturbed ∨ (c.state = .occupied ∧ c.saturated = true))
      ∧ (∀ p ∈ c.points, ∃ r, s.dp p.1 = some r ∧ r.state = .normal)
      ∧ ∀ i role r, t.lock = .held i role → s.inst i = some r → r.state ≠ .clearing ∧ r.state ≠ .cleared)
    ∧ (s.auxReady .suspectClear o = true ↔ (s.elem o).isSuspect = true
      ∧ (∀ i r d, s.live i = some (r, d) → r.lists d o = false) ∧ s.flankRef o = none)
    ∧ (s.auxReady .authForce o = true ↔ (s.areaRec o).holder = .centre ∧ (s.areaRec o).force = .stopped)
    ∧ (s.auxReady .boundaryRelease o = true ↔ ∃ b, s.boundary? o = some b ∧ (s.blcAt b.link).link = .down
      ∧ (s.blcAt b.link).lostHoldings = true ∧ (s.blcAt b.link).release = .stopped) := by
  refine ⟨?_, ?_, ?_, ?_, ?_⟩
  · unfold State.auxReady
    cases h : s.inst o with
    | none => simp
    | some r => cases hr : r.state <;> simp [InstState.releasable, hr]
  · unfold State.auxReady State.resetOk
    cases ht : s.track? o with
    | none => simp
    | some t =>
      cases hc : s.count o with
      | none => simp
      | some c =>
        have hl : s.resetLockOk t = true ↔
            ∀ i role r, t.lock = .held i role → s.inst i = some r → r.state ≠ .clearing ∧ r.state ≠ .cleared := by
          unfold State.resetLockOk TrackRec.owner
          cases h : t.lock with
          | empty => simp
          | unknown => simp
          | held i role =>
            cases hi : s.inst i with
            | none =>
              simp only [Option.bind_some, hi, true_iff]
              intro j r x a b
              cases a
              rw [hi] at b
              exact nomatch b
            | some r =>
              simp only [Option.bind_some, hi, Bool.and_eq_true, bne_iff_ne]
              refine ⟨fun k j role' x a b => ?_, fun k => k i role r rfl hi⟩
              cases a
              rw [hi] at b
              cases b
              exact k
        have hp : c.points.all (fun p => (s.dp p.1).any fun r => r.state == .normal) = true ↔
            ∀ p ∈ c.points, ∃ r, s.dp p.1 = some r ∧ r.state = .normal := by
          rw [List.all_eq_true]
          refine forall_congr' fun p => forall_congr' fun _ => ?_
          cases s.dp p.1 <;> simp
        simp only [Bool.and_eq_true, Bool.or_eq_true, beq_iff_eq, hl, hp, and_assoc]
        exact ⟨fun k => ⟨t, c, rfl, rfl, k⟩, fun ⟨_, _, a, b, k⟩ => by cases a; cases b; exact k⟩
  · have hl : s.isListed o = false ↔ ∀ i r d, s.live i = some (r, d) → r.lists d o = false := by
      unfold State.isListed
      rw [List.any_eq_false]
      constructor
      · intro h i r d hl
        have := h i (by simpa [instNumbers, Config.instCount] using lt_of_inst (inst_of_live hl))
        simpa [hl] using this
      · intro h i _
        cases hl : s.live i with
        | none => simp
        | some p => simp [h i p.1 p.2 hl]
    simp only [State.auxReady, Bool.and_eq_true, Bool.not_eq_true', hl, Option.isNone_iff_eq_none, and_assoc]
  · simp [State.auxReady]
  · unfold State.auxReady
    cases h : s.boundary? o with
    | none => simp
    | some b => simp [and_assoc]

/-! ### The rebuilt record and the release notice (R19, R138) -/

/-- The release notice by the state of the pass: the rerun flag, nothing with an empty store, else a pass that presents
the oldest entry (R138, R139). -/
theorem retestTrigger_rows (s : State) :
    (s.rqs.running = true → s.retestTrigger.rqs = { s.rqs with rerun := true })
    ∧ (s.rqs.running = false → s.rqs.store = [] → s.retestTrigger.rqs = s.rqs)
    ∧ ∀ y rest, s.rqs.running = false → s.rqs.store = y :: rest →
      s.retestTrigger.rqs.running = true
        ∧ s.retestTrigger.rim = { s.rim with requests := s.rim.requests ++ [.retest y.route] } := by
  refine ⟨fun h => ?_, fun h hs => ?_, fun y rest h hs => ?_⟩
  · simp [State.retestTrigger, h]
  · simp [State.retestTrigger, h, hs]
  · have hn : State.nextMarked { s with rqs := { s.rqs with
        store := s.rqs.store.map (fun (e : StoreEntry) => { e with passMark := true }), running := true } } =
        some { y with passMark := true } := by simp [State.nextMarked, hs]
    have e : s.retestTrigger = s.startPass := by simp [State.retestTrigger, h, hs]
    rw [e]
    unfold State.startPass State.presentMarked
    rw [hn]
    exact ⟨rfl, rfl⟩

theorem writeTrack_marks (s : State) (e : Nat) (k : TrackRec) (o : Obj) (l : OpLink)
    (h : o ∈ ((s.putElem e (.track k)).olc.get l).marks) : o ∈ ((s.writeTrack e k).olc.get l).marks := by
  have key : ∀ (p : BLink → Bool) (bs : List BLink) (a : State), o ∈ (a.olc.get l).marks →
      o ∈ ((bs.foldl (fun acc b => if p b then acc else acc.mark (.boundary b)) a).olc.get l).marks := by
    intro p bs
    induction bs with
    | nil => intro a ha; exact ha
    | cons b bs ih =>
      intro a ha
      refine ih _ ?_
      dsimp only
      split
      · exact ha
      · exact (marks_mark_iff a _ _ l).2 (.inl ha)
  exact key _ blinks _ h

/-- A record SUSPECT-CLEAR leaves: rebuilt from its defaults, a section's occupancy from the axle counter (R19). -/
def State.cleared (s : State) (e : Nat) : Element :=
  match s.elem e with
  | .unconfigured => .unconfigured
  | .point p => .point { p with
      detection := .unknown, localMode := false, failed := false, next := none, lock := .empty, flankRef := none
      block := false, suspect := false }
  | .signal g => .signal { g with
      shown := .unknown, commanded := .stop, lampFault := false, failed := false, entrySlot := .empty
      exitSlot := .empty, flankRef := none, block := false, suspect := false }
  | .track k => .track { k with occupancy := s.aceState e, lock := .empty, block := false, suspect := false }
  | .boundary b => .boundary { b with entrySlot := .empty, exitSlot := .empty, suspect := false }

/-- SUSPECT-CLEAR on a configured record: the record rebuilt, a change of it marked, and the release notice. -/
theorem suspectClear_rows (s : State) (e : Nat) (h : s.elem e ≠ .unconfigured) :
    (s.suspectClear e).elem e = s.cleared e
    ∧ (s.cleared e ≠ s.elem e → ∀ l, .element e ∈ ((s.suspectClear e).olc.get l).marks)
    ∧ (s.rqs.running = true → (s.suspectClear e).rqs = { s.rqs with rerun := true })
    ∧ (s.rqs.running = false → s.rqs.store = [] → (s.suspectClear e).rqs = s.rqs)
    ∧ ∀ y rest, s.rqs.running = false → s.rqs.store = y :: rest →
      (s.suspectClear e).rqs.running = true
        ∧ (s.suspectClear e).rim = { s.rim with requests := s.rim.requests ++ [.retest y.route] } := by
  have hb : e < 256 := Decidable.byContradiction fun k => h (by simp [State.elem, Vector.getD, k])
  have mk : ∀ r, r ≠ s.elem e → ∀ l, Obj.element e ∈ ((s.putElem e r).olc.get l).marks := fun r hr l => by
    unfold State.putElem
    rw [if_neg (Ne.symm hr)]
    exact mem_mark _ _ l
  obtain ⟨u, hu, he, hm, hq, hr⟩ : ∃ u : State, s.suspectClear e = u.retestTrigger ∧ u.elem e = s.cleared e
      ∧ (s.cleared e ≠ s.elem e → ∀ l, .element e ∈ (u.olc.get l).marks) ∧ u.rqs = s.rqs ∧ u.rim = s.rim := by
    have put : s.suspectClear e = (s.putElem e (s.cleared e)).retestTrigger →
        ∃ u : State, s.suspectClear e = u.retestTrigger ∧ u.elem e = s.cleared e
          ∧ (s.cleared e ≠ s.elem e → ∀ l, .element e ∈ (u.olc.get l).marks) ∧ u.rqs = s.rqs ∧ u.rim = s.rim :=
      fun h => ⟨_, h, elem_putElem_same s e _ hb, fun k => mk _ k, putElem_rqs .., putElem_rim ..⟩
    cases hx : s.elem e with
    | unconfigured => exact absurd hx h
    | point p => exact hx ▸ put (by simp only [State.suspectClear, State.cleared, hx])
    | signal g => exact hx ▸ put (by simp only [State.suspectClear, State.cleared, hx])
    | boundary b => exact hx ▸ put (by simp only [State.suspectClear, State.cleared, hx])
    | track k =>
      have hc : s.cleared e = .track { k with occupancy := s.aceState e, lock := .empty, block := false, suspect := false } := by
        simp [State.cleared, hx]
      obtain ⟨c, hw⟩ := writeTrack_olc (s := s) (e := e)
        { k with occupancy := s.aceState e, lock := .empty, block := false, suspect := false }
      refine ⟨s.writeTrack e { k with occupancy := s.aceState e, lock := .empty, block := false, suspect := false },
        by simp [State.suspectClear, hx], ?_, fun hn l => writeTrack_marks s e _ _ l (mk _ (hc ▸ hx ▸ hn) l), ?_, ?_⟩
      · rw [hw, hc]; exact elem_putElem_same s e _ hb
      · rw [hw]; exact putElem_rqs ..
      · rw [hw]; exact putElem_rim ..
  obtain ⟨t1, t2, t3⟩ := retestTrigger_rows u
  obtain ⟨q, m, hqm⟩ := retestTrigger_rest (s := u)
  rw [hq] at t1 t2 t3
  rw [hr] at t3
  rw [hu]
  exact ⟨by rw [hqm]; exact he, by rw [hqm]; exact hm, t1, t2, t3⟩

end Sys2Proof.Machine
end

