-- ==== Sys2Proof/Laws/Commanded.lean ====
section
/-! SUPPORT. What a signal command does (R37, R39), and the answer *pass* to a clearing request (R90). -/

set_option Elab.async false

namespace Sys2Proof.Machine

section
variable {s : State} {e : Nat} {g : SignalRec}

/-- A signal's record written with its aspect and its lamp fault as they were: no notice, no other record. -/
theorem modSignal_quiet (h : s.signal? e = some g) (f : SignalRec → SignalRec) (hs : (f g).shown = g.shown)
    (hl : (f g).lampFault = g.lampFault) :
    (s.modSignal e f).notices = s.notices ∧ ∀ x, x ≠ e → (s.modSignal e f).elem x = s.elem x := by
  have hn : s.signalNotices e g (f g) = [] := by
    cases hx : g.shown <;> cases hy : g.lampFault <;> simp [State.signalNotices, hs, hl, hx, hy]
  simp only [State.modSignal, State.writeSignal, h, hn]
  exact ⟨by simp [State.notifyAll], fun x hx => by rw [elem_notifyAll, elem_putElem_ne _ _ _ _ (Ne.symm hx)]⟩

/-- A queue with a command of a unit joined: the unit's own before it is gone (R25). -/
theorem enqueue_tbc (a : Nat) (t : TrackTelegram) : (s.enqueue a t).tbc = { s.tbc with
    queue := s.tbc.queue.filter (fun q => q.address != a) ++ [⟨a, t, s.tbc.nextAge, 0⟩], nextAge := s.tbc.nextAge + 1 } := rfl

/-- The conditions of a PROCEED command (R37). -/
theorem proceedChecks_iff (i : Nat) : s.proceedChecks i e = true ↔
    ∃ g u, s.signal? e = some g ∧ s.unitOf .sdu e = some u ∧ g.entrySlot = .held i ∧ g.failed = false
      ∧ g.suspect = false ∧ g.lampFault = false ∧ g.flankRef = none ∧ u.reachable = true := by
  unfold State.proceedChecks
  cases hg : s.signal? e with
  | none => simp
  | some g =>
    cases hu : s.unitOf .sdu e with
    | none => simp
    | some u => simp [and_assoc]

/-- Whether a queued command is in flight, and whether it is a SHOW(STOP). -/
theorem queued_rows (a : Nat) :
    ((s.queuedAt a).any (fun q => s.flyingAge == some q.age) = true ↔ ∃ q, s.queuedAt a = some q ∧ s.flyingAge = some q.age)
    ∧ (s.stopQueuedAt a = true ↔ ∃ q, s.queuedAt a = some q ∧ q.telegram = .showAs .stop) := by
  unfold State.stopQueuedAt
  cases s.queuedAt a <;> simp

/-- A PROCEED command (R37), by its checks. -/
theorem commandProceed_rows (i : Nat) :
    (s.proceedChecks i e = false → s.commandProceed i e = { s with notices := s.notices ++ [.signalNotCleared i e] })
    ∧ ∀ g u, s.proceedChecks i e = true → s.signal? e = some g → s.unitOf .sdu e = some u →
      (s.commandProceed i e).signal? e = some { g with commanded := .proceed }
      ∧ ((s.commandProceed i e).cmd e).awaiting = .running 30
      ∧ (((s.commandProceed i e).cmd e).stopOutstanding = true ↔ (s.cmd e).stopOutstanding = true
          ∧ ((∃ q, s.queuedAt u.address = some q ∧ s.flyingAge = some q.age)
            ∨ ¬∃ q, s.queuedAt u.address = some q ∧ q.telegram = .showAs .stop))
      ∧ (s.commandProceed i e).tbc = { s.tbc with
          queue := s.tbc.queue.filter (fun q => q.address != u.address) ++ [⟨u.address, .showAs .proceed, s.tbc.nextAge, 0⟩]
          nextAge := s.tbc.nextAge + 1 }
      ∧ (∀ x, x ≠ e → (s.commandProceed i e).elem x = s.elem x)
      ∧ (s.commandProceed i e).notices = s.notices := by
  refine ⟨fun h => by simp only [State.commandProceed, h]; rfl, fun g u h hg hu => ?_⟩
  have he := lt_of_signal hg
  obtain ⟨v, hv⟩ : ∃ v : State, v = s.modSignal e fun g => { g with commanded := .proceed } := ⟨_, rfl⟩
  have h1 : v.signal? e = some { g with commanded := .proceed } := hv ▸ modSignal_signal hg _
  have h2 : v.cmd e = s.cmd e := hv ▸ modSignal_cmd hg _ e
  have h3 : v.tbc = s.tbc := hv ▸ modSignal_tbc hg _
  obtain ⟨h4, h5⟩ := modSignal_quiet hg (fun g => { g with commanded := .proceed }) rfl rfl
  rw [← hv] at h4 h5
  obtain ⟨w, hw⟩ : ∃ w : State, w = v.putCmd e { v.cmd e with awaiting := .running Config.confirmTime } := ⟨_, rfl⟩
  have w1 : ∀ x, w.elem x = v.elem x := fun x => hw ▸ elem_putCmd ..
  have w2 : w.cmd e = { v.cmd e with awaiting := .running 30 } := hw ▸ cmd_putCmd_same _ _ _ he
  have w3 : w.tbc = s.tbc := (hw ▸ putCmd_tbc ..  : w.tbc = v.tbc).trans h3
  have w4 : w.notices = s.notices := (hw ▸ putCmd_notices .. : w.notices = v.notices).trans h4
  have hu' : w.unitOf .sdu e = some u := (unitOf_of_units (congrArg Tbc.units w3) .sdu e).trans hu
  have hq : ∀ a, w.queuedAt a = s.queuedAt a := fun a => by simp only [State.queuedAt, w3]
  have hf : w.flyingAge = s.flyingAge := by simp only [State.flyingAge, w3]
  have key : s.commandProceed i e = (w.enqueue u.address (.showAs .proceed)).putCmd e
      { w.cmd e with stopOutstanding := (w.cmd e).stopOutstanding
          && ((w.queuedAt u.address).any (fun q => w.flyingAge == some q.age) || !w.stopQueuedAt u.address) } := by
    simp only [State.commandProceed, h, if_true, ← hv, ← hw, State.enqueueProceed, hu']
  rw [key]
  have hc := cmd_putCmd_same (s := w.enqueue u.address (.showAs .proceed)) e
    { w.cmd e with stopOutstanding := (w.cmd e).stopOutstanding
          && ((w.queuedAt u.address).any (fun q => w.flyingAge == some q.age) || !w.stopQueuedAt u.address) } he
  refine ⟨?_, ?_, ?_, ?_, fun x hx => ?_, ?_⟩
  · rw [signal_of_elem, elem_putCmd, elem_enqueue, w1, ← signal_of_elem, h1]
  · rw [hc, w2]
  · rw [hc, w2, h2]
    have q1 := queued_rows (s := s) u.address
    have q2 : w.stopQueuedAt u.address = s.stopQueuedAt u.address := by simp only [State.stopQueuedAt, hq]
    simp only [Bool.and_eq_true, Bool.or_eq_true, Bool.not_eq_true', ← Bool.not_eq_true, hq, hf, q2, q1.1, q1.2]
  · rw [putCmd_tbc, enqueue_tbc, w3]
  · rw [elem_putCmd, elem_enqueue, w1, h5 x hx]
  · rw [putCmd_notices]
    exact w4

/-- A STOP command (R39): where STOP is commanded and shown and nothing is queued for the unit, nothing is queued; else
SHOW(STOP) is queued and outstanding, or the signal FAILED where no unit serves it (R21). -/
theorem commandStop_rows (h : s.signal? e = some g) :
    let quiet := g.commanded = .stop ∧ g.shown = .stop ∧ ∀ u, s.unitOf .sdu e = some u → s.queuedAt u.address = none
    (∀ x, x ≠ e → (s.commandStop e).elem x = s.elem x) ∧ (s.commandStop e).notices = s.notices
    ∧ ((s.commandStop e).cmd e).awaiting = .stopped
    ∧ (quiet → (s.commandStop e).signal? e = some g ∧ (s.commandStop e).tbc = s.tbc
      ∧ ((s.commandStop e).cmd e).stopOutstanding = (s.cmd e).stopOutstanding)
    ∧ (¬quiet → ∀ u, s.unitOf .sdu e = some u →
      (s.commandStop e).signal? e = some { g with commanded := .stop }
      ∧ ((s.commandStop e).cmd e).stopOutstanding = true
      ∧ (s.commandStop e).tbc = { s.tbc with
          queue := s.tbc.queue.filter (fun q => q.address != u.address) ++ [⟨u.address, .showAs .stop, s.tbc.nextAge, 0⟩]
          nextAge := s.tbc.nextAge + 1 })
    ∧ (¬quiet → s.unitOf .sdu e = none →
      (s.commandStop e).signal? e = some { g with commanded := .stop, failed := true }
      ∧ ((s.commandStop e).cmd e).stopOutstanding = false ∧ (s.commandStop e).tbc = s.tbc) := by
  intro quiet
  have he := lt_of_signal h
  obtain ⟨v, hv⟩ : ∃ v : State, v = s.dropCmd e := ⟨_, rfl⟩
  have v1 : ∀ x, v.elem x = s.elem x := fun x => hv ▸ elem_putCmd ..
  have v2 : v.cmd e = { s.cmd e with awaiting := .stopped } := hv ▸ cmd_putCmd_same _ _ _ he
  have v3 : v.tbc = s.tbc := hv ▸ putCmd_tbc ..
  have v4 : v.notices = s.notices := hv ▸ putCmd_notices ..
  have v5 : v.signal? e = some g := signal_of_elem.2 ((v1 e).trans (signal_of_elem.1 h))
  obtain ⟨w, hw⟩ : ∃ w : State, w = v.modSignal e fun g => { g with commanded := .stop } := ⟨_, rfl⟩
  have w1 : w.signal? e = some { g with commanded := .stop } := hw ▸ modSignal_signal v5 _
  have w2 : w.cmd e = { s.cmd e with awaiting := .stopped } := (hw ▸ modSignal_cmd v5 _ e : w.cmd e = v.cmd e).trans v2
  have w3 : w.tbc = s.tbc := (hw ▸ modSignal_tbc v5 _ : w.tbc = v.tbc).trans v3
  obtain ⟨w4, w5⟩ := modSignal_quiet v5 (fun g => { g with commanded := .stop }) rfl rfl
  rw [← hw] at w4 w5
  have hu : ∀ k, w.unitOf k e = s.unitOf k e := fun k => unitOf_of_units (congrArg Tbc.units w3) k e
  have hq : (g.commanded == .stop && g.shown == .stop && !v.showQueued e) = true ↔ quiet := by
    have : v.showQueued e = s.showQueued e := by
      simp only [State.showQueued, State.unitOf, State.queuedAt, v3]
    rw [this]
    simp only [State.showQueued, Bool.and_eq_true, beq_iff_eq, Bool.not_eq_true', quiet, and_assoc]
    cases hs : s.unitOf .sdu e with
    | none => simp
    | some u => cases hx : s.queuedAt u.address <;> simp [hx]
  have key : s.commandStop e =
      if (g.commanded == .stop && g.shown == .stop && !v.showQueued e) = true then w else w.enqueueStop e := by
    simp only [State.commandStop, h, ← hv, ← hw]
  by_cases hx : quiet
  · rw [key, if_pos (hq.2 hx)]
    refine ⟨fun x k => (w5 x k).trans (v1 x), w4.trans v4, by rw [w2], fun _ => ⟨?_, w3, by rw [w2]⟩,
      fun k => absurd hx k, fun k => absurd hx k⟩
    rw [w1]
    cases g
    cases hx.1
    rfl
  · rw [key, if_neg (fun k => hx (hq.1 k))]
    cases hs : s.unitOf .sdu e with
    | some u =>
      have key2 : w.enqueueStop e = (w.enqueue u.address (.showAs .stop)).putCmd e { w.cmd e with stopOutstanding := true } := by
        simp only [State.enqueueStop, (hu _).trans hs]
      rw [key2]
      have hc := cmd_putCmd_same (s := w.enqueue u.address (.showAs .stop)) e { w.cmd e with stopOutstanding := true } he
      refine ⟨fun x k => ?_, ?_, ?_, fun k => absurd k hx, fun _ u' k => ?_, fun _ k => (nomatch k)⟩
      · rw [elem_putCmd, elem_enqueue, w5 x k, v1]
      · rw [putCmd_notices]; exact w4.trans v4
      · rw [hc, w2]
      · cases k
        refine ⟨?_, by rw [hc], ?_⟩
        · rw [signal_of_elem, elem_putCmd, elem_enqueue, ← signal_of_elem, w1]
        · rw [putCmd_tbc, enqueue_tbc, w3]
    | none =>
      obtain ⟨y, hy⟩ : ∃ y : State, y = w.putCmd e { w.cmd e with stopOutstanding := false } := ⟨_, rfl⟩
      have key2 : w.enqueueStop e = y.modSignal e fun g => { g with failed := true } := by
        simp only [State.enqueueStop, (hu _).trans hs, hy]
      have y1 : y.signal? e = some { g with commanded := .stop } := by
        rw [signal_of_elem, hy, elem_putCmd, ← signal_of_elem, w1]
      have y2 : y.cmd e = { w.cmd e with stopOutstanding := false } := hy ▸ cmd_putCmd_same _ _ _ he
      have y3 := modSignal_quiet y1 (fun g => { g with failed := true }) rfl rfl
      have y4 := modSignal_cmd y1 (fun g => { g with failed := true }) e
      rw [key2]
      refine ⟨fun x k => ?_, ?_, ?_, fun k => absurd k hx, fun _ _ k => (nomatch k), fun _ _ => ⟨?_, ?_, ?_⟩⟩
      · rw [y3.2 x k, hy, elem_putCmd, w5 x k, v1]
      · rw [y3.1, hy, putCmd_notices]; exact w4.trans v4
      · rw [y4, y2, w2]
      · exact modSignal_signal y1 _
      · rw [y4, y2]
      · rw [modSignal_tbc y1, hy, putCmd_tbc, w3]

end

/-- The answer *pass* (R90): a BOUNDARY_IN instance is CLEARED at once, and its BLC told the first time; any other is CLEARING
with PROCEED commanded at its entry signal. -/
theorem clearingPasses_rows {s : State} {i : Nat} {r : Inst} (d : RouteDef) (h : s.inst i = some r) :
    (d.cls ≠ .boundaryIn → s.clearingPasses i r d =
      (s.putInst i (some { r with state := .clearing, setting := .stopped, causes := [] })).commandProceed i d.entry)
    ∧ (d.cls = .boundaryIn →
      (∀ b, r.acceptance = .notGiven → s.entryLink d = some b → s.clearingPasses i r d =
        (s.putInst i (some { r with state := .cleared, setting := .stopped, causes := [], acceptance := .given })).acceptanceCleared
          b i)
      ∧ (r.acceptance ≠ .notGiven → s.clearingPasses i r d =
        s.putInst i (some { r with state := .cleared, setting := .stopped, causes := [] }))) := by
  have hm : ∀ f : Inst → Inst, s.modInst i f = s.putInst i (some (f r)) := fun f => by simp only [State.modInst, h]
  refine ⟨fun k => ?_, fun k => ⟨fun b ha hb => ?_, fun ha => ?_⟩⟩
  · simp only [State.clearingPasses, beq_iff_eq, k, if_false, hm]
  · have : ∀ v, (s.putInst i v).entryLink d = s.entryLink d := fun v => by
      simp only [State.entryLink, State.boundary?, State.elem, putInst_lkc]
    simp only [State.clearingPasses, k, beq_self_eq_true, if_true, hm, ha, this, hb]
  · have e1 : (if (r.acceptance == .notGiven) = true then Acceptance.given else r.acceptance) = r.acceptance := by simp [ha]
    simp only [State.clearingPasses, k, beq_self_eq_true, if_true, hm, beq_iff_eq, ha, if_false]
    split <;> rfl

end Sys2Proof.Machine
end

