-- ==== Sys2Proof/Laws/Image.lean ====
section
/-! SUPPORT. The image checks said as what they ask (R186), the order of their codes, and what the configured content
becomes (R21, R187). -/

set_option Elab.async false

namespace Sys2Proof.Machine

/-! ### The lists of the image -/

/-- An entry stands where it is the first of its number (log entry 25). -/
theorem mem_firstOf {α : Type} (number : α → Nat) (a : α) (l : List α) :
    a ∈ firstOf number l ↔ l.find? (fun x => number x == number a) = some a := by
  induction l with
  | nil => simp [firstOf]
  | cons b l ih =>
    simp only [firstOf, List.mem_cons, List.mem_filter, ih, List.find?_cons]
    by_cases h : number b = number a
    · simp [h]; exact ⟨fun h => h.symm, fun h => h.symm⟩
    · have : a ≠ b := fun h' => h (h' ▸ rfl)
      simp [this, Ne.symm h, beq_eq_false_iff_ne.2 h]

theorem noTwice_iff {α : Type} [BEq α] [LawfulBEq α] (l : List α) : noTwice l = true ↔ l.Nodup := by
  induction l with
  | nil => simp [noTwice]
  | cons a l ih => simp [noTwice, ih]

/-- No number stands twice among the entries that stand (log entry 25). -/
theorem firstOf_number {α : Type} (number : α → Nat) (l : List α) : ((firstOf number l).map number).Nodup := by
  induction l with
  | nil => exact List.nodup_nil
  | cons d l ih =>
    unfold firstOf
    rw [List.map_cons, List.nodup_cons]
    refine ⟨fun hd => ?_, ih.sublist (List.filter_sublist.map _)⟩
    obtain ⟨x, hx, hn⟩ := List.mem_map.1 hd
    have := (List.mem_filter.1 hx).2
    simp [hn] at this

theorem flankTargets_rows (f : FlankItem) :
    (∀ t, f.primary = .claim t → flankTargets f = t :: f.subs)
      ∧ ∀ b r, f.primary = .boundary b r → flankTargets f = f.subs := by
  constructor <;> intros <;> simp_all [flankTargets]

theorem hasElem_iff (m : Image) (e : Nat) : hasElem m e = true ↔ ∃ x ∈ m.elements, x.number = e := by
  simp [hasElem, Image.elem]

theorem hasDp_iff (m : Image) (d : Nat) : hasDp m d = true ↔ ∃ y ∈ m.dps, y.number = d := by
  simp [hasDp]

theorem hasKind_iff (m : Image) (p : ElemCfgKind → Bool) (e : Nat) :
    hasKind m p e = true ↔ ∃ x, m.elements.find? (fun y => y.number == e) = some x ∧ p x.kind = true := by
  simp only [hasKind, Image.elem, Option.any_eq_true]

/-! ### The checks -/

theorem elemOk_iff (e : Nat) : elemOk e = true ↔ e ≤ 255 := by simp [elemOk]
theorem dpOk_iff (e : Nat) : dpOk e = true ↔ e < 120 := by simp [dpOk]
theorem addressOk_iff (a : Nat) : addressOk a = true ↔ 1 ≤ a ∧ a ≤ 254 := by simp [addressOk]

/-- Code 4 of one definition. -/
theorem routeLimitsOk_iff (d : RouteDef) : routeLimitsOk d = true ↔
    d.number ≤ 511 ∧ 1 ≤ d.rank ∧ d.rank ≤ 4 ∧ 1 ≤ d.path.length ∧ d.path.length ≤ 12
      ∧ (∀ it ∈ d.path, it.points.length ≤ 3) ∧ (∀ it, d.overlap = some it → it.points.length ≤ 2)
      ∧ d.flank.length ≤ 8 ∧ d.approach.length ≤ 3 ∧ (∀ r, d.inRef = some r → r < 16)
      ∧ (∀ f ∈ d.flank, f.subs.length ≤ 2 ∧ (∀ b r, f.primary = .boundary b r → r < 16)
          ∧ ∀ t ∈ flankTargets f, FlankTarget.elem t ≤ 255)
      ∧ ∀ e ∈ routeElements d ++ d.approach, e ≤ 255 := by
  simp only [routeLimitsOk, Bool.and_eq_true, decide_eq_true_eq, List.all_eq_true, Option.all_eq_true, elemOk_iff,
    refOk]
  have h : ∀ f : FlankItem, (match f.primary with
      | .boundary _ r => decide (r < 16)
      | .claim _ => true) = true ↔ ∀ b r, f.primary = .boundary b r → r < 16 := by
    intro f; cases hp : f.primary <;> simp
  constructor
  · rintro ⟨⟨⟨⟨⟨⟨⟨⟨⟨⟨⟨⟨a, b⟩, c⟩, d⟩, e⟩, f⟩, g⟩, i⟩, j⟩, k⟩, l⟩, m⟩, n⟩
    exact ⟨a, b, c, d, e, f, g, i, j, k, fun x hx => ⟨(l x hx).1, (h x).1 (l x hx).2, n x hx⟩, m⟩
  · rintro ⟨a, b, c, d, e, f, g, i, j, k, l, m⟩
    exact ⟨⟨⟨⟨⟨⟨⟨⟨⟨⟨⟨⟨a, b⟩, c⟩, d⟩, e⟩, f⟩, g⟩, i⟩, j⟩, k⟩, fun x hx => ⟨(l x hx).1, (h x).2 (l x hx).2.1⟩⟩, m⟩,
      fun x hx => (l x hx).2.2⟩

/-- Code 4. -/
theorem limitsOk_iff (m : Image) : limitsOk m = true ↔
    (countKind m isPoint ≤ 64 ∧ countKind m isSignal ≤ 64 ∧ countKind m isTrack ≤ 96 ∧ countKind m isBoundary = 4
        ∧ (firstOf DpCfg.number m.dps).length ≤ 120
        ∧ countUnits m .ch ≤ 120 ∧ countUnits m .pdu ≤ 64 ∧ countUnits m .sdu ≤ 64)
      ∧ (∀ x ∈ m.elements, x.number ≤ 255 ∧ x.area ≤ 15
          ∧ ∀ c r v, x.kind = .point c r v → 1 ≤ c.length ∧ c.length ≤ 2 ∧ ∀ e ∈ c, e ≤ 255)
      ∧ (∀ u ∈ m.units, 1 ≤ u.address ∧ u.address ≤ 254 ∧ if u.kind = .ch then u.serves < 120 else u.serves ≤ 255)
      ∧ (∀ d ∈ m.dps, d.number < 120 ∧ 1 ≤ d.head ∧ d.head ≤ 254 ∧ ∀ p ∈ d.borders, p.1 ≤ 255)
      ∧ (∀ x ∈ m.sections, x.sect ≤ 255 ∧ ∀ p ∈ x.points, p.1 < 120)
      ∧ (∀ d ∈ m.routes, routeLimitsOk d = true)
      ∧ ∀ b ∈ m.boundaries, b.lineSections.length ≤ 4 ∧ b.offers.length ≤ 16 ∧ (∀ e ∈ b.lineSections, e ≤ 255)
          ∧ (∀ p ∈ b.outRefs, p.1 ≤ 511 ∧ p.2 < 16) ∧ ∀ p ∈ b.offers, p.1 < 16 ∧ FlankTarget.elem p.2 ≤ 255 := by
  have h : ∀ x : ElemCfg, (match x.kind with
      | .point c _ _ => decide (1 ≤ c.length) && decide (c.length ≤ 2) && c.all elemOk
      | _ => true) = true ↔ ∀ c r v, x.kind = .point c r v → 1 ≤ c.length ∧ c.length ≤ 2 ∧ ∀ e ∈ c, e ≤ 255 := by
    intro x; cases hx : x.kind <;> simp [elemOk, and_assoc]
  have h2 : ∀ u : UnitCfg, (if u.kind = .ch then dpOk u.serves else elemOk u.serves) = true ↔
      if u.kind = .ch then u.serves < 120 else u.serves ≤ 255 := by
    intro u; by_cases hu : u.kind = .ch <;> simp [hu, dpOk, elemOk]
  simp only [limitsOk, Bool.and_eq_true, decide_eq_true_eq, List.all_eq_true, elemOk_iff, dpOk_iff, addressOk_iff,
    beq_iff_eq, refOk, and_assoc]
  repeat' apply and_congr
  all_goals first
    | exact Iff.rfl
    | exact forall₂_congr fun x _ => and_congr Iff.rfl (and_congr Iff.rfl (h x))
    | exact forall₂_congr fun u _ => and_congr Iff.rfl (and_congr Iff.rfl (h2 u))

/-- Code 5. -/
theorem referencesOk_iff (m : Image) : referencesOk m = true ↔
    (∀ x ∈ m.elements, ∀ c r v, x.kind = .point c r v → ∀ e ∈ c, hasElem m e = true)
      ∧ (∀ u ∈ m.units, if u.kind = .ch then hasDp m u.serves = true else hasElem m u.serves = true)
      ∧ (m.units.map UnitCfg.address).Nodup
      ∧ (∀ d ∈ m.dps, (∃ u ∈ m.units, u.address = d.head) ∧ ∀ p ∈ d.borders, hasElem m p.1 = true)
      ∧ (∀ x ∈ m.sections, hasElem m x.sect = true ∧ ∀ p ∈ x.points, hasDp m p.1 = true)
      ∧ (∀ d ∈ m.routes, (∀ e ∈ routeElements d ++ d.approach, hasElem m e = true)
          ∧ ∀ f ∈ d.flank, ∀ t ∈ flankTargets f, hasElem m (FlankTarget.elem t) = true)
      ∧ (∀ b ∈ m.boundaries, (∀ e ∈ b.lineSections, hasElem m e = true) ∧ ∀ p ∈ b.offers, hasElem m (FlankTarget.elem p.2) = true)
      ∧ ∀ d ∈ firstOf RouteDef.number m.routes, d.cls ≠ .boundaryIn → ∃ x ∈ firstOf RouteDef.number m.routes,
          x.entry = d.entry ∧ x.exit = d.exit ∧ x.cls ≠ .boundaryIn ∧ x.rank = 1 := by
  have h : ∀ x : ElemCfg, (match x.kind with
      | .point c _ _ => c.all (hasElem m)
      | _ => true) = true ↔ ∀ c r v, x.kind = .point c r v → ∀ e ∈ c, hasElem m e = true := by
    intro x; cases hx : x.kind <;> simp
  have h2 : ∀ u : UnitCfg, (if u.kind = .ch then hasDp m u.serves else hasElem m u.serves) = true ↔
      if u.kind = .ch then hasDp m u.serves = true else hasElem m u.serves = true := by
    intro u; by_cases hu : u.kind = .ch <;> simp [hu]
  have h3 : rankOnesOk (firstOfEach m.routes) = true ↔
      ∀ d ∈ firstOf RouteDef.number m.routes, d.cls ≠ .boundaryIn → ∃ x ∈ firstOf RouteDef.number m.routes,
          x.entry = d.entry ∧ x.exit = d.exit ∧ x.cls ≠ .boundaryIn ∧ x.rank = 1 := by
    simp only [rankOnesOk, firstOfEach, List.all_eq_true, Bool.or_eq_true, List.any_eq_true, Bool.and_eq_true, beq_iff_eq,
      bne_iff_ne, and_assoc]
    exact forall_congr' fun d => forall_congr' fun _ => by
      constructor
      · rintro (h | h) hc
        · exact absurd h hc
        · exact h
      · intro h; by_cases hc : d.cls = .boundaryIn
        · exact .inl hc
        · exact .inr (h hc)
  simp only [referencesOk, Bool.and_eq_true, List.all_eq_true, List.any_eq_true, beq_iff_eq, noTwice_iff, and_assoc, h3]
  repeat' apply and_congr
  all_goals first
    | exact Iff.rfl
    | exact forall₂_congr fun x _ => h x
    | exact forall₂_congr fun u _ => h2 u


theorem liesIn_iff (m : Image) (p t : Nat) : liesIn m p t = true ↔
    ∃ x c r v, m.elements.find? (fun y => y.number == p) = some x ∧ x.kind = .point c r v ∧ t ∈ c := by
  simp only [liesIn, Image.elem, Option.any_eq_true]
  constructor
  · rintro ⟨x, h, hk⟩
    cases hx : x.kind with
    | point c r v => exact ⟨x, c, r, v, h, hx, by simpa [hx] using hk⟩
    | _ => simp [hx] at hk
  · rintro ⟨x, c, r, v, h, hx, ht⟩
    exact ⟨x, h, by simpa [hx] using ht⟩

theorem hasOutRef_iff (m : Image) (d : RouteDef) : hasOutRef m d = true ↔
    ∃ x b u c, m.elements.find? (fun y => y.number == d.exit) = some x ∧ x.kind = .boundary b u
      ∧ m.boundaries.find? (fun y => y.link == b) = some c ∧ ∃ p ∈ c.outRefs, p.1 = d.number := by
  simp only [hasOutRef, Image.elem, Option.any_eq_true]
  constructor
  · rintro ⟨x, h, hk⟩
    cases hx : x.kind with
    | boundary b u =>
      obtain ⟨c, hc, hp⟩ : ∃ c, m.boundaries.find? (fun y => y.link == b) = some c ∧ _ := by
        simpa only [hx, Option.any_eq_true] using hk
      exact ⟨x, b, u, c, h, hx, hc, by simpa [List.any_eq_true] using hp⟩
    | _ => simp [hx] at hk
  · rintro ⟨x, b, u, c, h, hx, hc, hp⟩
    refine ⟨x, h, ?_⟩
    simp only [hx, Option.any_eq_true]
    exact ⟨c, hc, by simpa [List.any_eq_true] using hp⟩

theorem targetOk_iff (m : Image) (t : FlankTarget) : targetOk m t = true ↔
    (∀ e q, t = .point e q → hasKind m isPoint e = true) ∧ ∀ e, t = .signal e → hasKind m isSignal e = true := by
  cases t <;> simp [targetOk]

/-- Code 6 of one definition (R62 to R64). -/
theorem routeOk_iff (m : Image) (d : RouteDef) : routeOk m d = true ↔
    (if d.cls = .boundaryIn then hasKind m isBoundary d.entry = true else hasKind m isSignal d.entry = true)
      ∧ (if d.cls = .boundaryOut then hasKind m isBoundary d.exit = true else hasKind m isSignal d.exit = true)
      ∧ (∀ it ∈ d.path ++ d.overlap.toList, hasKind m isTrack it.sect = true
          ∧ ∀ p ∈ it.points, hasKind m isPoint p.point = true ∧ liesIn m p.point it.sect = true)
      ∧ (routeElements d).Nodup
      ∧ (∀ e ∈ d.approach, hasKind m isTrack e = true ∧ ∀ it ∈ d.path ++ d.overlap.toList, it.sect ≠ e)
      ∧ (d.overlap ≠ none → d.cls = .main) ∧ (d.cls = .boundaryOut → hasOutRef m d = true)
      ∧ (d.inRef ≠ none ↔ d.cls = .boundaryIn) ∧ (d.cls = .boundaryIn → d.approach = [])
      ∧ ∀ f ∈ d.flank, 1 ≤ f.protects ∧ f.protects ≤ d.path.length
          ∧ ∀ t ∈ flankTargets f, targetOk m t = true ∧ FlankTarget.elem t ∉ routeElements d := by
  have h1 : ∀ (c : RouteClass) (e : Nat), hasKind m (if d.cls = c then isBoundary else isSignal) e = true ↔
      if d.cls = c then hasKind m isBoundary e = true else hasKind m isSignal e = true := by
    intro c e; by_cases hc : d.cls = c <;> simp [hc]
  have h2 : d.inRef.isSome = (d.cls == .boundaryIn) ↔ (d.inRef ≠ none ↔ d.cls = .boundaryIn) := by
    cases d.inRef <;> by_cases hc : d.cls = .boundaryIn <;> simp [hc]
  simp only [routeOk, Bool.and_eq_true, List.all_eq_true, Bool.or_eq_true, noTwice_iff, beq_iff_eq, h2, bne_iff_ne,
    decide_eq_true_eq, Option.isNone_iff_eq_none, List.isEmpty_iff, Bool.not_eq_true', and_assoc, routeItems,
    List.contains_eq_mem, decide_eq_false_iff_not, List.mem_map, not_exists, not_and, imp_iff_not_or, ne_eq, not_not, h1]

/-- Two members of a list related pairwise are related one way or the other. -/
theorem rel_of_pairwise {α : Type} {R : α → α → Prop} {l : List α} (h : l.Pairwise R) {x y : α} (hx : x ∈ l) (hy : y ∈ l)
    (hne : x ≠ y) : R x y ∨ R y x := by
  induction h with
  | nil => simp at hx
  | cons ha _ ih =>
    rcases List.mem_cons.1 hx with rfl | hx' <;> rcases List.mem_cons.1 hy with rfl | hy'
    · exact absurd rfl hne
    · exact .inl (ha _ hy')
    · exact .inr (ha _ hx')
    · exact ih hx' hy'

/-- No two boundary elements of one link, said of the elements. -/
theorem nodup_links (l : List ElemCfg) (hl : (l.map ElemCfg.number).Nodup) :
    (l.filterMap fun x => match x.kind with
      | .boundary b _ => some b
      | _ => none).Nodup ↔
    ∀ x ∈ l, ∀ y ∈ l, ∀ b u v, x.kind = .boundary b u → y.kind = .boundary b v → x = y := by
  have hf : ∀ (x : ElemCfg) (b : BLink), (match x.kind with
      | .boundary b _ => some b
      | _ => none) = some b ↔ ∃ u, x.kind = .boundary b u := by
    intro x b; cases hx : x.kind <;> simp
  rw [List.Nodup, List.pairwise_filterMap]
  constructor
  · intro h x hx y hy b u v hxb hyb
    by_contra hne
    rcases rel_of_pairwise h hx hy hne with h | h
    · exact h b ((hf x b).2 ⟨u, hxb⟩) b ((hf y b).2 ⟨v, hyb⟩) rfl
    · exact h b ((hf y b).2 ⟨v, hyb⟩) b ((hf x b).2 ⟨u, hxb⟩) rfl
  · intro h
    refine List.Pairwise.imp_of_mem ?_ (List.pairwise_map.1 hl)
    intro x y hx hy hne b hb c hc e
    subst e
    obtain ⟨u, hu⟩ := (hf x b).1 hb
    obtain ⟨v, hv⟩ := (hf y b).1 hc
    exact hne (congrArg ElemCfg.number (h x hx y hy b u v hu hv))

/-- The border rule of a detection point (R42, R43). -/
theorem bordersOk_iff (d : DpCfg) : bordersOk d = true ↔
    (∃ a, d.borders = [a] ∧ d.boundaryMark = true)
      ∨ ∃ a b, d.borders = [a, b] ∧ d.boundaryMark = false ∧ a.2 ≠ b.2 := by
  unfold bordersOk
  rcases hb : d.borders with _ | ⟨a, _ | ⟨b, _ | _⟩⟩
  · simp
  · simp
  · simp only [Bool.and_eq_true, Bool.not_eq_true', bne_iff_ne, List.cons.injEq, and_true, List.cons_ne_nil, and_false,
      false_and, exists_false, false_or]
    exact ⟨fun h => ⟨a, b, ⟨rfl, rfl⟩, h⟩, fun ⟨_, _, ⟨e, e'⟩, h⟩ => e ▸ e' ▸ h⟩
  · simp
  
/-- Code 6. -/
theorem kindsOk_iff (m : Image) : kindsOk m = true ↔
    (∀ x ∈ m.elements, (∀ c r v, x.kind = .point c r v → ∀ e ∈ c, hasKind m isTrack e = true)
        ∧ (x.kind = .track → ∃ y ∈ m.sections, y.sect = x.number))
      ∧ (∀ u ∈ m.units, (u.kind = .pdu → hasKind m isPoint u.serves = true)
          ∧ (u.kind = .sdu → hasKind m isSignal u.serves = true))
      ∧ (∀ d ∈ m.dps, (∃ u ∈ m.units, u.address = d.head ∧ u.kind = .ch)
          ∧ (∀ p ∈ d.borders, hasKind m isTrack p.1 = true) ∧ bordersOk d = true)
      ∧ (∀ x ∈ m.sections, hasKind m isTrack x.sect = true ∧ 2 ≤ x.points.length ∧ x.points.length ≤ 4)
      ∧ (∀ d ∈ m.routes, routeOk m d = true)
      ∧ (∀ x ∈ standingElems m, ∀ y ∈ standingElems m, ∀ b u v, x.kind = .boundary b u → y.kind = .boundary b v → x = y)
      ∧ ∀ b ∈ m.boundaries, (∀ e ∈ b.lineSections, hasKind m isTrack e = true) ∧ ∀ p ∈ b.offers, targetOk m p.2 = true := by
  have h : ∀ x : ElemCfg, (match x.kind with
      | .point c _ _ => c.all (hasKind m isTrack)
      | .track => m.sections.any fun y => y.sect == x.number
      | _ => true) = true ↔ (∀ c r v, x.kind = .point c r v → ∀ e ∈ c, hasKind m isTrack e = true)
        ∧ (x.kind = .track → ∃ y ∈ m.sections, y.sect = x.number) := by
    intro x; cases hx : x.kind <;> simp
  have h2 : ∀ u : UnitCfg, (match u.kind with
      | .ch => true
      | .pdu => hasKind m isPoint u.serves
      | .sdu => hasKind m isSignal u.serves) = true ↔ (u.kind = .pdu → hasKind m isPoint u.serves = true)
          ∧ (u.kind = .sdu → hasKind m isSignal u.serves = true) := by
    intro u; cases hu : u.kind <;> simp
  have h3 := nodup_links (standingElems m) (firstOf_number _ _)
  simp only [kindsOk, Bool.and_eq_true, List.all_eq_true, List.any_eq_true, beq_iff_eq, noTwice_iff, and_assoc,
    decide_eq_true_eq]
  repeat' apply and_congr
  all_goals first
    | exact Iff.rfl
    | exact forall₂_congr fun x _ => h x
    | exact forall₂_congr fun x _ => h2 x
    | exact h3

/-- Code 7. -/
theorem catalogueOk_iff (m : Image) : catalogueOk m = true ↔
    (m.routes.map fun d => (d.entry, d.exit, d.rank)).Nodup ∧ (∀ d ∈ m.routes, d.cls = .boundaryIn → d.rank = 1)
      ∧ ((m.routes.filter fun d => d.cls == .boundaryIn).map fun d => (d.entry, d.inRef)).Nodup := by
  simp only [catalogueOk, Bool.and_eq_true, List.all_eq_true, Bool.or_eq_true, noTwice_iff, bne_iff_ne, beq_iff_eq, and_assoc,
    imp_iff_not_or, ne_eq]

/-- The code of the first check that fails (R186). -/
theorem imageFault_codes (m : Image) (h1 : m.readable = true) (h2 : m.reachesCounters = false)
    (h3 : m.checkAgrees = true) (h4 : m.formatVersion = 2) :
    (imageFault m = some 4 ↔ limitsOk m = false)
      ∧ (imageFault m = some 5 ↔ limitsOk m = true ∧ referencesOk m = false)
      ∧ (imageFault m = some 6 ↔ limitsOk m = true ∧ referencesOk m = true ∧ kindsOk m = false)
      ∧ (imageFault m = some 7 ↔ limitsOk m = true ∧ referencesOk m = true ∧ kindsOk m = true ∧ catalogueOk m = false)
      ∧ (imageFault m = none ↔ limitsOk m = true ∧ referencesOk m = true ∧ kindsOk m = true ∧ catalogueOk m = true) := by
  unfold imageFault
  cases limitsOk m <;> cases referencesOk m <;> cases kindsOk m <;> cases catalogueOk m <;> simp [h1, h2, h3, h4]

/-- No image brings another code. -/
theorem imageFault_le (m : Image) (code : Nat) (h : imageFault m = some code) : 1 ≤ code ∧ code ≤ 7 := by
  revert h
  unfold imageFault
  split_ifs <;> simp <;> omega

/-! ### What the configured content becomes (R20, R187) -/

/-- A value with a default (R187). -/
theorem clampOr_rows (deflt lo hi : Nat) (h1 : lo ≤ deflt) (h2 : deflt ≤ hi) :
    clampOr deflt lo hi 0 = deflt ∧ ∀ v, 0 < v →
      (v < lo → clampOr deflt lo hi v = lo) ∧ (lo ≤ v → v ≤ hi → clampOr deflt lo hi v = v)
        ∧ (hi < v → clampOr deflt lo hi v = hi) := by
  refine ⟨by simp [clampOr, clamp]; omega, fun v hv => ?_⟩
  simp only [clampOr, clamp, Nat.pos_iff_ne_zero.1 hv, if_false]
  omega

/-- The unit table stands in ascending address order (R21). -/
theorem insertUnit_sorted (u : UnitRow) (l : List UnitRow) (h : l.Pairwise fun a b => a.address ≤ b.address) :
    (insertUnit u l).Pairwise fun a b => a.address ≤ b.address := by
  have hm : ∀ (l : List UnitRow) (x : UnitRow), x ∈ insertUnit u l ↔ x = u ∨ x ∈ l := by
    intro l x
    induction l with
    | nil => simp [insertUnit]
    | cons v l ih => unfold insertUnit; split <;> simp [ih, or_left_comm]
  induction l with
  | nil => simp [insertUnit]
  | cons v l ih =>
    rw [List.pairwise_cons] at h
    unfold insertUnit
    split
    · rename_i hle
      refine List.pairwise_cons.2 ⟨fun x hx => ?_, List.pairwise_cons.2 h⟩
      rcases List.mem_cons.1 hx with rfl | hx
      · exact hle
      · exact hle.trans (h.1 x hx)
    · rename_i hle
      refine List.pairwise_cons.2 ⟨fun x hx => ?_, ih h.2⟩
      rcases (hm l x).1 hx with rfl | hx
      · omega
      · exact h.1 x hx

/-- The table the image's units make is in ascending address order (R21). -/
theorem units_sorted (l : List UnitRow) : (l.foldr insertUnit []).Pairwise fun a b => a.address ≤ b.address := by
  induction l with
  | nil => simp
  | cons u l ih => exact insertUnit_sorted u _ ih

end Sys2Proof.Machine
end

