-- ==== Sys2Proof/Laws/Keeps.lean ====
section
/-! SUPPORT. Each deed keeps each invariant of Safety.lean. -/

set_option Elab.async false

namespace Sys2Proof.Machine

/-! ### Areas -/

theorem Deed.areas {κ : Bool} {s t : State} (h : Deed κ s t) (k : s.AreasLegal) : t.AreasLegal := by
  have same : t.aum = s.aum → t.AreasLegal := fun e a => by
    have := k a
    simpa [State.areaRec, e] using this
  cases h with
  | small h => exact same (aum_of_desk h.desk)
  | area _ a r hr =>
    intro b
    by_cases hb : a = b
    · rw [hb, areaRec_putArea_same _ _ _ b.isLt]
      exact hr (hb ▸ k b)
    · rw [areaRec_putArea_ne _ _ _ _ hb]
      exact k b
  | _ => exact same (by simp [State.settleMarks])

/-! ### Lists -/

theorem OlcKeeps.all {s : State} {l : OpLink} {f : Olc → Olc} (P : Olc → Prop) (hf : P (s.olc.get l) → P (f (s.olc.get l)))
    (k : ∀ j, P (s.olc.get j)) (j : OpLink) : P ((s.modOlc l f).olc.get j) := by
  by_cases hj : j = l
  · subst hj
    rw [modOlc_get_same]
    exact hf (k j)
  · rw [modOlc_get_other _ _ _ _ hj]
    exact k j

theorem Deed.waiting {κ : Bool} {s t : State} (h : Deed κ s t) (k : s.WaitingBounded) : t.WaitingBounded := by
  have mark : ∀ {u : State} (o : Obj), u.WaitingBounded → (u.mark o).WaitingBounded := fun o h =>
    OlcKeeps.all (fun c => c.waiting.length ≤ 4) id (OlcKeeps.all (fun c => c.waiting.length ≤ 4) id h)
  cases h with
  | small h =>
    intro l
    have := congrArg (fun c => c.waiting.length) (olc_of_desk h.desk l)
    simp only [Olc.desk] at this
    rw [this]
    exact k l
  | olc _ l f hf => exact OlcKeeps.all (fun c => c.waiting.length ≤ 4) hf.waiting k
  | order b _ =>
    intro l
    cases l
    · exact k .olC
    · exact k .olL
  | elem _ e r => unfold State.putElem; split <;> first | exact k | exact mark _ k
  | count _ e c d hc hd => unfold State.putCount; split <;> first | exact k | exact mark _ k
  | area _ a r => unfold State.putArea; split <;> first | exact k | exact mark _ k
  | blc _ b r => unfold State.putBlc; dsimp only; split <;> first | exact k | exact mark _ k
  | _ => exact k

theorem listLegal_of_unmarked {l m : List StoreEntry} (h : m.map StoreEntry.unmarked = l.map StoreEntry.unmarked)
    (k : ListLegal l) : ListLegal m := by
  have key : ∀ z : List StoreEntry, ListLegal z ↔ ListLegal (z.map StoreEntry.unmarked) := fun z => by
    have h2 : ∀ j, ((z.map StoreEntry.unmarked).filter fun e => e.link == j).length
        = (z.filter fun e => e.link == j).length := fun j => by
      rw [List.filter_map, List.length_map]; rfl
    have h3 : (z.map StoreEntry.unmarked).map StoreEntry.route = z.map StoreEntry.route := by
      rw [List.map_map]; rfl
    unfold ListLegal
    rw [h3]
    simp only [h2]
  exact (key m).2 (h ▸ (key l).1 k)

theorem Deed.store_legal {κ : Bool} {s t : State} (h : Deed κ s t) (k : s.StoreLegal) : t.StoreLegal := by
  have same : t.rqs = s.rqs → t.StoreLegal := fun e => by
    unfold State.StoreLegal
    rw [e]
    exact k
  cases h with
  | small h => exact listLegal_of_unmarked (congrArg Desk.store h.desk) k
  | store _ q r hq => exact hq k
  | _ => exact same (by simp [State.settleMarks])

/-! ### Sections -/

theorem count_putCount {s : State} {e x : Nat} {c d : SectCount} (h : (s.putCount e c).count x = some d) :
    (x = e ∧ d = c) ∨ s.count x = some d := by
  unfold State.putCount at h
  split at h
  · exact .inr h
  · by_cases hx : e = x
    · subst hx
      by_cases he : e < 256
      · have := getD_set_same s.ace.counts e (some c) none he
        refine .inl ⟨rfl, ?_⟩
        have h2 : some c = some d := this.symm.trans h
        exact (Option.some.inj h2).symm
      · simp [State.count, State.mark, State.markAt, State.modOlc, Vector.getD, he] at h
    · exact .inr ((getD_set_ne s.ace.counts e x (some c) none hx).symm.trans h)

/-- A deed leaves the load state and the tolerance as they are. -/
theorem Deed.cfl_kept {κ : Bool} {s t : State} (h : Deed κ s t) :
    t.cfl.load = s.cfl.load ∧ t.cfl.tolerance = s.cfl.tolerance := by
  cases h with
  | small h => rw [cfl_of_desk h.desk]; exact ⟨rfl, rfl⟩
  | cfl _ c hl ht => exact ⟨hl, ht⟩
  | _ => simp [State.settleMarks]

theorem Deed.sections {κ : Bool} {s t : State} (h : Deed κ s t) (k : s.SectionsLegal) : t.SectionsLegal := by
  obtain ⟨hl, ht⟩ := h.cfl_kept
  obtain ⟨k1, k2, k3⟩ := k
  suffices hc : (s.cfl.load = .loading → ∀ e, t.count e = none) ∧ ∀ e c, t.count e = some c → c.legal s.cfl.tolerance by
    unfold State.SectionsLegal
    rw [hl, ht]
    exact ⟨k1, hc⟩
  have same : t.ace.counts = s.ace.counts →
      (s.cfl.load = .loading → ∀ e, t.count e = none) ∧ ∀ e c, t.count e = some c → c.legal s.cfl.tolerance := fun e => by
    simp only [State.count, e]
    exact ⟨k2, k3⟩
  cases h with
  | small h => exact same (congrArg (fun (d : Desk) => d.ace.counts) h.desk)
  | count _ e c d hc hd =>
    refine ⟨fun hx => ?_, fun x y hy => ?_⟩
    · rw [k2 hx e] at hc
      cases hc
    · rcases count_putCount hy with ⟨_, rfl⟩ | h'
      · exact hd (k3 e c hc)
      · exact k3 x y h'
  | _ => exact same (by simp [State.settleMarks])

/-! ### Check words -/

theorem Deed.checks {κ : Bool} {s t : State} (h : Deed κ s t) (k : s.ChecksRight) : t.ChecksRight := by
  have same : t.lkc.checks = s.lkc.checks → t.lkc.elements = s.lkc.elements → t.ChecksRight := fun c e x => by
    have := k x
    simpa only [State.check, State.elem, c, e] using this
  have put : ∀ e r, (s.putElem e r).ChecksRight := fun e r x => check_putElem s e x r x.isLt (k x)
  cases h with
  | small h =>
    cases h with
    | elem e r hr => exact put e r
    | drive e d => unfold State.putDrive; split <;> exact k
    | cmd e c => unfold State.putCmd; split <;> exact k
    | _ => exact same (by simp [State.enqueue, State.dequeue, State.putFct]) (by simp [State.enqueue, State.dequeue, State.putFct])
  | elem _ e r => exact put e r
  | check _ e => exact fun x => check_rewriteCheck s e x x.isLt (k x)
  | _ => exact same (by simp [State.settleMarks]) (by simp [State.settleMarks])

/-! ### The command queue -/

theorem nodup_dequeue {s : State} (n : Nat) (k : s.QueueSingle) : (s.dequeue n).QueueSingle :=
  List.Nodup.sublist (List.filter_sublist.map _) k

theorem nodup_enqueue {s : State} (n : Nat) (x : TrackTelegram) (k : s.QueueSingle) : (s.enqueue n x).QueueSingle := by
  show ((((s.dequeue n).tbc.queue ++ [_]).map QueuedCmd.address)).Nodup
  rw [List.map_append]
  refine List.nodup_append.2 ⟨nodup_dequeue n k, by simp, fun y hy z hz e => ?_⟩
  simp only [List.map_cons, List.map_nil, List.mem_singleton] at hz
  subst hz
  subst e
  obtain ⟨q, hq, hy⟩ := List.mem_map.1 hy
  have := (List.mem_filter.1 hq).2
  simp [hy] at this

theorem Deed.queue {κ : Bool} {s t : State} (h : Deed κ s t) (k : s.QueueSingle) : t.QueueSingle := by
  have same : t.tbc.queue = s.tbc.queue → t.QueueSingle := fun e => by
    unfold State.QueueSingle
    rw [e]
    exact k
  cases h with
  | small h =>
    cases h with
    | enqueue n x => exact nodup_enqueue n x k
    | dequeue n => exact nodup_dequeue n k
    | _ => exact same (by simp)
  | tbc _ v hv => exact hv k
  | _ => exact same (by simp [State.settleMarks])

/-! ### Boundary links -/

theorem Deed.down {κ : Bool} {s t : State} (h : Deed κ s t) (k : s.DownEmpty) : t.DownEmpty := by
  have same : t.blc = s.blc → t.DownEmpty := fun e b => by
    have := k b
    simpa [State.blcAt, e] using this
  have put : ∀ (b : BLink) (r : Blc), Blc.Empty r → (s.putBlc b r).DownEmpty := fun b r hr c => by
    by_cases hc : b = c
    · subst hc
      rw [blcAt_putBlc_same]
      exact hr
    · rw [blcAt_putBlc_ne _ _ _ _ hc]
      exact k c
  cases h with
  | small h =>
    cases h with
    | blc b r hr =>
      refine put b r fun hd => ?_
      have hl : (s.blcAt b).link = .down := (congrArg Blc.link hr.line).symm.trans hd
      obtain ⟨h1, h2, h3, h4, h5, h6, h7, h8⟩ := k b hl
      exact ⟨hr.outgoing hl h1, hr.outAsks hl h2, hr.assurances hl h3, hr.heldBack hl h4,
        (congrArg Blc.neighbourClear hr.line).trans h5, (congrArg Blc.silenceTimer hr.line).trans h6,
        (congrArg Blc.holdingsTimer hr.line).trans h7, (congrArg Blc.change hr.line).trans h8⟩
    | _ => exact same (by simp [State.enqueue, State.dequeue])
  | blc _ b r hr => exact put b r (hr.empty (k b))
  | _ => exact same (by simp [State.settleMarks])

/-! ### Acceptances -/

/-- Incoming acceptances of a link, those being set and those still to be taken counted (R165, log entry 11). -/
def State.inTotal (s : State) (b : BLink) : Nat := (s.blcAt b).inCount + incomingOf b s.rim.requests

theorem Deed.outSingle {κ : Bool} {s t : State} (h : Deed κ s t) (k : ∀ b, (s.blcAt b).outCount ≤ 1) (b : BLink) :
    (t.blcAt b).outCount ≤ 1 := by
  have same : t.blc = s.blc → (t.blcAt b).outCount ≤ 1 := fun e => by
    have := k b
    simpa only [State.blcAt, e] using this
  have put : ∀ c r, ((s.blcAt c).outCount ≤ 1 → r.outCount ≤ 1) → ((s.putBlc c r).blcAt b).outCount ≤ 1 := fun c r hr => by
    by_cases hc : c = b
    · subst hc
      rw [blcAt_putBlc_same]
      exact hr (k c)
    · rw [blcAt_putBlc_ne _ _ _ _ hc]
      exact k b
  cases h with
  | small h =>
    cases h with
    | blc c r hr => exact put c r hr.outSingle
    | _ => exact same (by simp [State.enqueue, State.dequeue])
  | blc _ c r hr => exact put c r hr.outSingle
  | _ => exact same (by simp [State.settleMarks])

theorem Deed.inLess {s t : State} (h : Deed true s t) (b : BLink) : t.inTotal b ≤ s.inTotal b := by
  have same : t.blc = s.blc → t.rim.requests = s.rim.requests → t.inTotal b ≤ s.inTotal b := fun e r => by
    simp [State.inTotal, State.blcAt, e, r]
  have put : ∀ c r, r.inCount ≤ (s.blcAt c).inCount → (s.putBlc c r).inTotal b ≤ s.inTotal b := fun c r hr => by
    unfold State.inTotal
    rw [putBlc_rim]
    by_cases hc : c = b
    · subst hc
      rw [blcAt_putBlc_same]
      exact Nat.add_le_add_right hr _
    · exact Nat.le_of_eq (by rw [blcAt_putBlc_ne _ _ _ _ hc])
  cases h with
  | small h =>
    cases h with
    | blc c r hr => exact put c r hr.inLess
    | pass q r hs hr hi => exact Nat.add_le_add_left (Nat.le_of_eq (hi b)) _
    | inst i v => exact same (by simp) (by unfold State.putInst; split <;> rfl)
    | _ => exact same (by simp [State.enqueue, State.dequeue]) (by simp [State.enqueue, State.dequeue])
  | blc _ c r hr => exact put c r (hr.inLess rfl)
  | store _ q r hq hi => exact Nat.add_le_add_left (hi rfl b) _
  | _ => exact same (by simp [State.settleMarks]) (by simp [State.settleMarks])

theorem Work.inLess {a s : State} (h : Work true a s) (b : BLink) : s.inTotal b ≤ a.inTotal b :=
  h.keeps (P := fun s => s.inTotal b ≤ a.inTotal b) (fun _ _ k e => Nat.le_trans (k.inLess b) e) (Nat.le_refl _)

theorem incomingOf_append (b : BLink) (l m : List RouteRequest) :
    incomingOf b (l ++ m) = incomingOf b l + incomingOf b m := by
  simp [incomingOf]

/-- An ask handed to the RIM finds no other incoming matter of its link (R179). -/
theorem inTotal_of_acceptAskCheck {s : State} {b : BLink} {r : Nat} {d : RouteDef} (h : s.acceptAskCheck b r = .ok d) :
    s.inTotal b = 0 := by
  unfold State.acceptAskCheck at h
  dsimp only at h
  split at h
  · cases h
  · split at h
    · cases h
    · split at h
      · cases h
      · rename_i hf
        simp only [Bool.or_eq_true, Bool.not_eq_true', not_or, Bool.not_eq_false, List.isEmpty_iff, Bool.not_eq_true] at hf
        obtain ⟨⟨h1, h2⟩, h3⟩ := hf
        have h4 : incomingOf b s.rim.requests = 0 := by
          refine List.length_eq_zero_iff.2 (List.filter_eq_nil_iff.2 fun q hq hb => ?_)
          have := List.any_eq_false.1 h3 q hq
          cases q <;> simp_all [RouteRequest.isIncoming]
        simp [State.inTotal, Blc.inCount, h1, h2, h4]

theorem acceptAsk_inTotal {a s : State} {b : BLink} (r : Nat) (h : Work true a s) (k : ∀ c, a.inTotal c ≤ 1) (c : BLink) :
    (s.acceptAsk b r).inTotal c ≤ 1 := by
  unfold State.acceptAsk
  split
  · exact Nat.le_trans ((h.sendNow b _).inLess c) (k c)
  · rename_i d hd
    show (s.blcAt c).inCount + incomingOf c (s.rim.requests ++ [.incoming b r d.number]) ≤ 1
    rw [incomingOf_append, ← Nat.add_assoc]
    have hc : s.inTotal c ≤ 1 := Nat.le_trans (h.inLess c) (k c)
    by_cases hb : b = c
    · subst hb
      have := inTotal_of_acceptAskCheck hd
      simp only [State.inTotal] at this
      rw [this]
      simp [incomingOf, RouteRequest.isIncoming]
    · have : incomingOf c [RouteRequest.incoming b r d.number] = 0 := by
        simp [incomingOf, RouteRequest.isIncoming, hb]
      rw [this]
      exact hc

theorem takeIncoming_inTotal {s : State} (k : ∀ c, s.inTotal c ≤ 1) (c : BLink) : s.takeIncoming.inTotal c ≤ 1 := by
  unfold State.takeIncoming
  split
  · rename_i b ref n l hl
    dsimp only
    generalize hu : ({ s with rim := { s.rim with requests := l } } : State) = u
    have hu1 : u.inTotal c + incomingOf c [.incoming b ref n] ≤ 1 := by
      have := k c
      simp only [State.inTotal, hl] at this
      rw [show RouteRequest.incoming b ref n :: l = [.incoming b ref n] ++ l from rfl, incomingOf_append] at this
      subst hu
      simp only [State.inTotal]
      show (s.blcAt c).inCount + incomingOf c l + _ ≤ 1
      omega
    split
    · rename_i i d v hv
      have h1 := (Work.tryRoute _ _ hv (fun d hd => List.mem_of_find?_eq_some (Option.mem_toList.1 hd)) rfl
        (.refl (κ := true))).inLess c
      refine Nat.le_trans (((Work.refl (κ := true)).checkWaiting i).inLess c) ?_
      unfold State.inTotal at h1 hu1 ⊢
      rw [show (v.modBlc b fun r => { r with inAsks := r.inAsks ++ [⟨ref, i⟩] }).rim = v.rim from putBlc_rim ..]
      by_cases hb : b = c
      · subst hb
        rw [blcAt_modBlc_same]
        simp only [Blc.inCount, List.length_append, List.length_singleton, incomingOf, RouteRequest.isIncoming,
          List.filter_cons, beq_self_eq_true, List.filter_nil, if_true] at h1 hu1 ⊢
        omega
      · rw [blcAt_modBlc_ne _ _ _ _ hb]
        omega
    · exact Nat.le_trans (((Work.refl (κ := true)).sendHeld b _).inLess c) (Nat.le_trans (Nat.le_add_right _ _) hu1)
  · exact k c

/-- Every command but COLD_START and LOAD_COMPLETE keeps the capacities of R165. -/
theorem exec_acceptances {c : Instr} {s t : State} (h1 : c ≠ .coldStart) (h2 : ∀ i k, c ≠ .loadComplete i k)
    (h : exec c s = .next t) (k : s.AcceptancesSingle) : t.AcceptancesSingle := by
  have ho : ∀ b, (t.blcAt b).outCount ≤ 1 := by
    obtain ⟨u, hu, w⟩ := exec_work c s h1 h2
    cases hu.symm.trans h
    exact w.work.keeps (P := fun s => ∀ b, (s.blcAt b).outCount ≤ 1) (fun _ _ d => d.outSingle) fun b => (k b).1
  have ki : ∀ b, s.inTotal b ≤ 1 := fun b => (k b).2
  suffices hi : ∀ b, t.inTotal b ≤ 1 from fun b => ⟨ho b, hi b⟩
  by_cases hc : calm c = true
  · obtain ⟨u, hu, w⟩ := exec_work c s h1 h2
    cases hu.symm.trans h
    rw [hc] at w
    exact fun b => Nat.le_trans (w.work.inLess b) (ki b)
  · unfold calm at hc
    split at hc
    · rename_i b r
      cases (show exec (.acceptAskReceived b r) s = .next _ from rfl).symm.trans h
      intro c
      refine Nat.le_trans ((Work.finish s (.refl (κ := true))).inLess c) ?_
      unfold State.receive
      have hw : Work true s (s.goodFrame b) := Work.refl.goodFrame b
      split
      · exact ki c
      · split
        · exact Nat.le_trans ((Work.refl (κ := true)).badFrame b |>.inLess c) (ki c)
        · split
          · dsimp only
            split
            · exact Nat.le_trans (hw.inLess c) (ki c)
            · exact Nat.le_trans ((hw.sendNow b _).inLess c) (ki c)
            · exact acceptAsk_inTotal r hw ki c
          · exact Nat.le_trans (hw.inLess c) (ki c)
    · cases (show exec .incomingAcceptanceRequest s = .next _ from rfl).symm.trans h
      intro c
      exact Nat.le_trans ((Work.finish s (.refl (κ := true))).inLess c) (takeIncoming_inTotal ki c)
    · exact absurd rfl hc

/-! ### Locks -/

/-- Every command but COLD_START and LOAD_COMPLETE keeps the owners of the locks live. -/
theorem exec_locks {c : Instr} {s t : State} (h1 : c ≠ .coldStart) (h2 : ∀ i k, c ≠ .loadComplete i k)
    (h : exec c s = .next t) (k : s.LocksLegal) : t.LocksLegal := by
  obtain ⟨u, hu, w⟩ := exec_work c s h1 h2
  cases hu.symm.trans h
  have hl : t.cfl.load = s.cfl.load := w.work.keeps (P := fun s' => s'.cfl.load = s.cfl.load)
    (fun _ _ d e => d.cfl_kept.1.trans e) rfl
  refine ⟨(w.work.owned k).fewer fun _ hi => hi.elim, w.quiet, ?_, fun x => ?_⟩
  · rw [w.work.rcat]
    exact k.2.2.1
  · rw [w.work.rcat]
    exact k.2.2.2 (hl.symm.trans x)

/-- Time keeps the owners of the locks live. -/
theorem tick_locks {s : State} (k : s.LocksLegal) : s.tick.LocksLegal := by
  refine ⟨⟨fun x e i hi => ?_, k.1.2⟩, k.2⟩
  obtain ⟨r, d, hl, hk⟩ := k.1.1 x e i hi
  refine ⟨tickInst r, d, ?_, ?_⟩
  · have h : s.tick.inst i = (s.inst i).map tickInst := by
      by_cases hj : i < 48 <;> simp [State.inst, State.tick, Vector.getD, hj]
    unfold State.live
    rw [h, inst_of_live hl]
    simp only [Option.map_some, Option.bind_some]
    rw [show s.tick.routeDef (tickInst r).route = some d from (routeDef_of_live hl : s.routeDef r.route = some d)]
    rfl
  · exact hk

/-- A part in which no slot has an owner, with no notice waiting and one definition for each number. -/
theorem locks_of_empty {s : State} (h : ∀ k e i, (s.elem e).slot k ≠ .held i)
    (hu : ∀ k e, (s.elem e).slot k = .unknown → (s.elem e).isSuspect = true) (hn : ∀ i, ¬ s.Transferring i)
    (hr : (s.rcat.map RouteDef.number).Nodup) (hl : s.cfl.load = .loading → s.rcat = []) : s.LocksLegal :=
  ⟨⟨fun k e i x => absurd x (h k e i), hu⟩, hn, hr, hl⟩

/-- After reset no element is configured. -/
theorem reset_elem (e : Nat) : State.reset.elem e = .unconfigured := by
  by_cases he : e < 256 <;> simp [State.elem, State.reset, Lkc.cold, Vector.getD, he]

theorem slot_elementOf (x : ElemCfg) (k : SlotKind) : (elementOf x).slot k = .empty := by
  unfold elementOf
  split <;> cases k <;> rfl

/-- An element of a filled table is a configured one or stands as it was. -/
theorem fillTable_cases (l : List ElemCfg) (v : Vector Element 256) (e : Nat) :
    (∃ x, (fillTable ElemCfg.number elementOf l v).getD e .unconfigured = elementOf x)
      ∨ (fillTable ElemCfg.number elementOf l v).getD e .unconfigured = v.getD e .unconfigured := by
  unfold fillTable
  induction l with
  | nil => exact .inr rfl
  | cons x l ih =>
    rw [List.foldr_cons]
    by_cases hx : x.number = e
    · by_cases he : e < 256
      · subst hx
        exact .inl ⟨x, getD_set_same _ _ _ _ he⟩
      · exact .inr (by simp [Vector.getD, he])
    · rw [getD_set_ne _ _ _ _ _ hx]
      exact ih

/-- A load keeps the owners of the locks live: before it there is none. -/
theorem load_locks {s : State} (m : Image) (c : Option AouCounters) (k : s.LocksLegal) : (loadEnds s m c).LocksLegal := by
  unfold loadEnds
  split
  · rename_i hl
    have hr := k.2.2.2 hl
    have h : ∀ x e i, (s.elem e).slot x ≠ .held i := fun x e i hi => by
      obtain ⟨r, d, h1, -⟩ := k.1.1 x e i hi
      have h2 := routeDef_of_live h1
      simp [State.routeDef, hr] at h2
    have rest : ∀ u : State, u.LocksLegal → (countColdStart (loadCounters u c)).LocksLegal := fun u a => by
      have : ∀ w : State, w.cfl.load = u.cfl.load → w.lkc = u.lkc → w.rim = u.rim → w.rcat = u.rcat →
          w.notices = u.notices → w.LocksLegal := fun w h1 h2 h3 h4 h5 => by
        have hv : w.live = u.live := live_congr (by rw [h3]) h4
        unfold State.LocksLegal State.Owned State.elem State.Transferring
        rw [hv, h1, h2, h4, h5]
        exact a
      refine this _ ?_ ?_ ?_ ?_ ?_ <;>
        (unfold countColdStart loadCounters State.writeCounters; dsimp only; (repeat' split) <;> rfl)
    refine rest _ ?_
    split
    · have he : ∀ e, (fillBlocks s m).elem e = (fillTable ElemCfg.number elementOf m.elements s.lkc.elements).getD e .unconfigured :=
        fun _ => rfl
      refine locks_of_empty (fun x e i hi => ?_) (fun x e hu => ?_) k.2.1 (firstOf_number ..) fun x => nomatch x
      · rw [he] at hi
        rcases fillTable_cases m.elements s.lkc.elements e with ⟨y, hy⟩ | hy
        · rw [hy, slot_elementOf] at hi; cases hi
        · rw [hy] at hi; exact h x e i hi
      · rw [he] at hu ⊢
        rcases fillTable_cases m.elements s.lkc.elements e with ⟨y, hy⟩ | hy
        · rw [hy, slot_elementOf] at hu; cases hu
        · rw [hy] at hu ⊢; exact k.1.2 x e hu
    · refine locks_of_empty h k.1.2 k.2.1 ?_ fun x => nomatch x
      exact k.2.2.1
  · exact k

/-! ### Pending indication sets -/

theorem addMark_nodup {o : Obj} {l : List Obj} (h : l.Nodup) : (addMark o l).Nodup := by
  unfold addMark
  split
  · exact h
  · rename_i ho
    refine List.nodup_append.2 ⟨h, by simp, fun x hx y hy e => ?_⟩
    simp only [List.mem_singleton] at hy
    subst hy
    subst e
    simp [hx] at ho

theorem perm_insertObj (o : Obj) (l : List Obj) : (insertObj o l).Perm (o :: l) := by
  induction l with
  | nil => exact .refl _
  | cons p l ih =>
    unfold insertObj
    split
    · exact .refl _
    · exact (ih.cons p).trans (.swap o p l)

theorem perm_sortObjs (l : List Obj) : (sortObjs l).Perm l := by
  induction l with
  | nil => exact .refl _
  | cons p l ih => exact (perm_insertObj _ _).trans (ih.cons p)

theorem orderMarks_nodup {b l : List Obj} (h : l.Nodup) : (orderMarks b l).Nodup := by
  unfold orderMarks
  refine List.nodup_append.2 ⟨h.filter _, (perm_sortObjs _).nodup_iff.2 (h.filter _), fun x hx y hy e => ?_⟩
  have hy := (perm_sortObjs _).mem_iff.1 hy
  simp only [List.mem_filter] at hx hy
  subst e
  exact absurd hx.2 (by simpa using hy.2)

theorem marks_markAt {s : State} (l : OpLink) (o : Obj) (k : s.MarksLegal) : (s.markAt l o).MarksLegal :=
  OlcKeeps.all (fun c => c.marks.Nodup) addMark_nodup k

theorem marks_mark {s : State} (o : Obj) (k : s.MarksLegal) : (s.mark o).MarksLegal := marks_markAt _ _ (marks_markAt _ _ k)

theorem Deed.marks {κ : Bool} {s t : State} (h : Deed κ s t) (k : s.MarksLegal) : t.MarksLegal := by
  cases h with
  | small h =>
    cases h with
    | mark l o => exact marks_markAt _ _ k
    | broken l i => exact OlcKeeps.all (fun c => c.marks.Nodup) id k
    | failure l f => exact OlcKeeps.all (fun c => c.marks.Nodup) id k
    | overrun l f => exact OlcKeeps.all (fun c => c.marks.Nodup) id k
    | elem e r => unfold State.putElem; split <;> first | exact k | exact marks_mark _ k
    | drive e d => unfold State.putDrive; split <;> first | exact k | exact marks_mark _ k
    | cmd e c => unfold State.putCmd; split <;> first | exact k | exact marks_mark _ k
    | inst i v => unfold State.putInst; split <;> first | exact k | exact marks_mark _ k
    | blc b r => unfold State.putBlc; dsimp only; split <;> first | exact k | exact marks_mark _ k
    | _ => exact k
  | olc _ l f hf => exact OlcKeeps.all (fun c => c.marks.Nodup) hf.marks k
  | order b _ =>
    intro l
    cases l
    · exact orderMarks_nodup (k .olC)
    · exact orderMarks_nodup (k .olL)
  | elem _ e r => unfold State.putElem; split <;> first | exact k | exact marks_mark _ k
  | count _ e c d hc hd => unfold State.putCount; split <;> first | exact k | exact marks_mark _ k
  | area _ a r => unfold State.putArea; split <;> first | exact k | exact marks_mark _ k
  | blc _ b r => unfold State.putBlc; dsimp only; split <;> first | exact k | exact marks_mark _ k
  | _ => exact k

end Sys2Proof.Machine
end

