-- ==== Sys2Proof/Laws/Receive.lean ====
section
/-! SUPPORT. A boundary telegram received: the counters, the link that serves, and what a STATUS does (R165, R168, R169,
R185). -/

set_option Elab.async false

namespace Sys2Proof.Machine

variable (s : State) (b : BLink)

/-! ### A boundary record changed -/

theorem modBlc_eq (f : Blc → Blc) :
    s.modBlc b f = { s with blc := s.blc.set b (f (s.blcAt b)), olc := (s.modBlc b f).olc } := by
  unfold State.modBlc State.putBlc
  dsimp only
  split <;> rfl

theorem modBlc_marks (f : Blc → Blc) : MarksOnly s (s.modBlc b f) := by
  unfold State.modBlc State.putBlc
  dsimp only
  split
  · exact fun l => rfl
  · exact marksOnly_mark _ _

theorem marksOnly_settle (base t : State) : MarksOnly t (State.settleMarks base t) := fun l => by cases l <;> rfl

theorem finish_quietly (t : State) (h : t.notices = s.notices) (k : s.notices = []) :
    State.finish s t = State.settleMarks s t := finish_of_none _ _ (h.trans k)

/-! ### What every telegram does (R165, R168, R185) -/

theorem goodFrame_notices : (s.goodFrame b).notices = s.notices := by simp [State.goodFrame, State.modBlc]

theorem badFrame_notices : (s.badFrame b).notices = s.notices := by simp [State.badFrame, State.modBlc]

theorem goodFrame_at : (s.goodFrame b).blcAt b =
    { countGood (s.blcAt b) with silenceTimer := (s.blcAt b).silenceTimer.restart 15 } := by
  simp [State.goodFrame, countGood, Config.silenceTime]

theorem goodFrame_link : ((s.goodFrame b).blcAt b).link = (s.blcAt b).link := by simp [goodFrame_at, countGood]

/-- A well-formed telegram on a link that serves is counted and acted on. -/
theorem receive_good (act : State → State) (h : s.linkServes b = true) : s.receive b true act = act (s.goodFrame b) := by
  have : s.cfl.load = .operating := by simp [State.linkServes] at h; exact h.1
  simp [State.receive, this, h]

/-- In CONFIG_FAULT nothing is received (log entry 19). -/
theorem receive_configFault (good : Bool) (act : State → State) (n : Nat) (h : s.cfl.load = .configFault n) :
    s.receive b good act = s := by
  simp [State.receive, h]

theorem receive_bad (act : State →
    State) (h : ∀ n, s.cfl.load ≠ .configFault n) : s.receive b false act = s.badFrame b := by
  unfold State.receive
  split
  · rename_i n k; exact absurd k (h n)
  · simp

/-- A well-formed telegram while LOADING or on an unused link is counted and no more. -/
theorem receive_idle (act : State → State) (h : ∀ n, s.cfl.load ≠ .configFault n) (k : s.linkServes b = false) :
    s.receive b true act = s.goodFrame b := by
  unfold State.receive
  split
  · rename_i n k; exact absurd k (h n)
  · simp [k]

/-- Every telegram row is the receipt of its telegram, followed by the taking of notices. -/
theorem telegramRow_exec (c : Instr) (good : Bool) (h : telegramRow c = some (b, good)) :
    ∃ act, ∀ s, exec c s = .next (State.finish s (s.receive b good act)) := by
  cases c <;> simp only [telegramRow, Option.some.injEq, Prod.mk.injEq, reduceCtorEq] at h <;> obtain ⟨rfl, rfl⟩ := h
  all_goals exact ⟨_, fun s => rfl⟩

/-! ### STATUS (R169) -/

/-- A STATUS by the state of the link. -/
theorem statusReceived_rows (body : StatusBody) (hn : s.notices = []) (hs : s.linkServes b = true) (hw : body.wellFormed = true) :
      let ends := (s.blcAt b).change = .asked ∧ body.direction = .outward
      let r : Blc := { s.blcAt b with
        silenceTimer := (s.blcAt b).silenceTimer.restart 15, neighbourClear := body.lineClear
        counts := { (s.blcAt b).counts with good := satInc (s.blcAt b).counts.good }
        change := if ends then .idle else (s.blcAt b).change
        changeTimer := if ends then .stopped else (s.blcAt b).changeTimer
        outAsks := (s.blcAt b).outAsks.map fun a =>
          if body.pendingRefs.contains a.ref then { a with timer := a.timer.restart 40 } else a }
      ((s.blcAt b).link = .down → (s.blcAt b).change ≠ .asking → ∃ t, execStatusReceived b body s = .next t
        ∧ t.blcAt b = { s.blcAt b with
            link := .sync, change := .idle, changeTimer := .stopped, release := .stopped, silenceTimer := .running 15
            holdingsTimer := .running 40, neighbourClear := body.lineClear, counts := r.counts, outAsks := r.outAsks }
        ∧ t.out = s.out ++ [.boundary b (.holdings (s.holdingsOf b))]
        ∧ (∀ x, x ≠ b → t.blcAt x = s.blcAt x) ∧ (∀ l, (t.olc.get l).desk = (s.olc.get l).desk)
        ∧ t = { s with blc := t.blc, out := t.out, olc := t.olc })
      ∧ ((s.blcAt b).link = .sync
          ∨ ((s.blcAt b).link = .up ∧ (r.change ≠ .idle ∨ body.direction = mirror (s.blcAt b).direction)) →
        ∃ t, execStatusReceived b body s = .next t
          ∧ t.blcAt b = r ∧ (∀ x, x ≠ b → t.blcAt x = s.blcAt x) ∧ (∀ l, (t.olc.get l).desk = (s.olc.get l).desk)
          ∧ t = { s with blc := t.blc, olc := t.olc })
      ∧ ((s.blcAt b).link = .up → r.change = .idle → body.direction ≠ mirror (s.blcAt b).direction →
        ∃ t, execStatusReceived b body s = .next t
          ∧ t.blcAt b = { r with
              link := .sync, changeTimer := .stopped, release := .stopped, silenceTimer := .running 15
              holdingsTimer := .running 40 }
          ∧ t.out = s.out ++ [.boundary b (.holdings (s.holdingsOf b))]
          ∧ (∀ x, x ≠ b → t.blcAt x = s.blcAt x) ∧ (∀ l, (t.olc.get l).desk = (s.olc.get l).desk)
          ∧ t = { s with blc := t.blc, out := t.out, olc := t.olc }) := by
  intro ends r
  have e : execStatusReceived b body s = .next (State.finish s ((s.goodFrame b).status b body)) := by
    show Host.Outcome.next _ = _
    rw [hw, receive_good _ _ _ hs]
  -- facts about a chain of changes of one record
  have step : ∀ (t : State) (f : Blc → Blc), (∀ x, x ≠ b → t.blcAt x = s.blcAt x) → MarksOnly s t →
      t = { s with blc := t.blc, out := t.out, olc := t.olc } →
      (∀ x, x ≠ b → (t.modBlc b f).blcAt x = s.blcAt x) ∧ MarksOnly s (t.modBlc b f)
          ∧ t.modBlc b f = { s with blc := (t.modBlc b f).blc, out := (t.modBlc b f).out, olc := (t.modBlc b f).olc }
          ∧ (t.modBlc b f).out = t.out ∧ (t.modBlc b f).blcAt b = f (t.blcAt b) := by
    intro t f h1 h2 h3
    refine ⟨fun x hx => (blcAt_modBlc_ne _ _ _ _ (Ne.symm hx)).trans (h1 x hx), h2.trans (modBlc_marks _ _ _), ?_,
        by rw [modBlc_eq], blcAt_modBlc_same _ _ _⟩
    have := modBlc_eq t b f
    rw [this]
    rw [h3]
  have wrap : ∀ t : State, t.notices = [] → (∀ x, x ≠ b → t.blcAt x = s.blcAt x) → MarksOnly s t →
      t = { s with blc := t.blc, out := t.out, olc := t.olc } →
      (∀ x, x ≠ b → (State.finish s t).blcAt x = s.blcAt x)
          ∧ (∀ l, ((State.finish s t).olc.get l).desk = (s.olc.get l).desk)
          ∧ State.finish s t = { s with blc := (State.finish s t).blc, out := (State.finish s t).out, olc :=
          (State.finish s t).olc } ∧ (State.finish s t).out = t.out ∧ (State.finish s t).blcAt b = t.blcAt b := by
    intro t h0 h1 h2 h3
    have hf : State.finish s t = State.settleMarks s t := finish_of_none _ _ h0
    rw [hf]
    refine ⟨h1, fun l => ?_, ?_, rfl, rfl⟩
    · have := (h2.trans (marksOnly_settle s t)) l
      rw [this]; rfl
    · rw [h3]; rfl
  obtain ⟨g1, g2, g3, g4, g5⟩ := step s
    (fun r => { countGood r with silenceTimer := r.silenceTimer.restart Config.silenceTime }) (fun _ _ => rfl) (.refl s) rfl
  have gl := goodFrame_link s b
  change (∀ x, x ≠ b → (s.goodFrame b).blcAt x = _) at g1
  change MarksOnly s (s.goodFrame b) at g2
  change s.goodFrame b = _ at g3
  change (s.goodFrame b).out = _ at g4
  change (s.goodFrame b).blcAt b = _ at g5
  obtain ⟨k1, k2, k3, k4, k5⟩ := step (s.goodFrame b) (takeStatus body) g1 g2 g3
  have hr : takeStatus body ((s.goodFrame b).blcAt b) = r := by
    rw [g5]
    simp only [takeStatus, countGood, r, ends, Config.silenceTime, Config.responseTime]
    by_cases a : (s.blcAt b).change = .asked <;> by_cases c : body.direction = .outward <;> simp [a, c] <;> rfl
  have hno : ∀ t : State, t = { s with blc := t.blc, out := t.out, olc := t.olc } →
      t.notices = [] := fun t h => by rw [h]; exact hn
  have hgiven : ∀ t : State, t = { s with blc := t.blc, out := t.out, olc := t.olc } →
      ∀ b, t.givenRefs b = s.givenRefs b := by
    intro t h b; rw [h]; rfl
  -- entering SYNC from a state t
  have sync : ∀ (t : State), (∀ x, x ≠ b → t.blcAt x = s.blcAt x) → MarksOnly s t →
      t = { s with blc := t.blc, out := t.out, olc := t.olc } → t.out = s.out →
      (t.blcAt b).change ≠ .asking → (t.blcAt b).direction = (s.blcAt b).direction →
      (t.blcAt b).incoming = (s.blcAt b).incoming → (t.blcAt b).outgoing = (s.blcAt b).outgoing →
      (t.blcAt b).assurances = (s.blcAt b).assurances →
      (∀ x, x ≠ b → (t.enterSync b).blcAt x = s.blcAt x) ∧ MarksOnly s (t.enterSync b)
        ∧ t.enterSync b = { s with blc := (t.enterSync b).blc, out := (t.enterSync b).out, olc := (t.enterSync b).olc }
        ∧ (t.enterSync b).out = s.out ++ [.boundary b (.holdings (s.holdingsOf b))]
        ∧ (t.enterSync b).blcAt b = { t.blcAt b with
            change := .idle, changeTimer := .stopped, link := .sync, release := .stopped, silenceTimer := .running 15
            holdingsTimer := .running 40 } := by
    intro t h1 h2 h3 h4 h5 i1 i2 i3 i4
    obtain ⟨a1, a2, a3, a4, a5⟩ := step t (fun r => { r with change := .idle, changeTimer := .stopped }) h1 h2 h3
    have hd : t.dropChange b = t.modBlc b (fun r => { r with change := .idle, changeTimer := .stopped }) := by
      unfold State.dropChange
      simp [h5]
    rw [← hd] at a1 a2 a3 a4 a5
    obtain ⟨b1, b2, b3, b4, b5⟩ := step (t.dropChange b) (fun r => { r with
      link := .sync, release := .stopped, silenceTimer := .running Config.silenceTime
      holdingsTimer := .running Config.responseTime }) a1 a2 a3
    let u : State := (t.dropChange b).modBlc b (fun r => { r with
      link := .sync, release := .stopped, silenceTimer := .running Config.silenceTime
      holdingsTimer := .running Config.responseTime })
    have hu : t.enterSync b = u.send (.boundary b (.holdings (u.holdingsOf b))) := by
      have : (u.blcAt b).link = .sync := by
        show ((State.modBlc _ _ _).blcAt b).link = _
        rw [b5]
      unfold State.enterSync State.sendNow
      rw [if_neg]
      · rw [show ((t.dropChange b).modBlc b _).blcAt b = u.blcAt b from rfl, this]; simp
    have hh : u.holdingsOf b = s.holdingsOf b := by
      have hb : u.blcAt b = _ := b5
      unfold State.holdingsOf
      rw [hb, a5, hgiven u b3]
      simp only [i1, i2, i3, i4]
    rw [hu]
    refine ⟨b1, b2, ?_, ?_, ?_⟩
    · have : u = _ := b3
      rw [this]; rfl
    · rw [hh]
      show u.out ++ _ = _
      have : u.out = s.out := (b4.trans a4).trans h4
      rw [this]
    · show u.blcAt b = _
      have : u.blcAt b = _ := b5
      rw [this, a5]
      rfl
  refine ⟨fun hl hc => ?_, fun hl => ?_, fun hl hc hd => ?_⟩
  · obtain ⟨c1, c2, c3, c4, c5⟩ := sync (s.goodFrame b) g1 g2 g3 g4 (by rw [g5]; exact hc) (by rw [g5]; rfl)
      (by rw [g5]; rfl) (by rw [g5]; rfl) (by rw [g5]; rfl)
    obtain ⟨d1, d2, d3, d4, d5⟩ := step _ (takeStatus body) c1 c2 c3
    have hx : (s.goodFrame b).status b body = ((s.goodFrame b).enterSync b).modBlc b (takeStatus body) := by
      unfold State.status; rw [gl, hl]
    rw [hx] at e
    obtain ⟨w1, w2, w3, w4, w5⟩ := wrap _ (hno _ d3) d1 d2 d3
    refine ⟨_, e, ?_, w4.trans (d4.trans c4), w1, w2, w3⟩
    rw [w5, d5, c5, g5]
    simp [takeStatus, countGood, r, Config.responseTime]
  · have hx : (s.goodFrame b).status b body = (s.goodFrame b).modBlc b (takeStatus body) := by
      unfold State.status
      rcases hl with hl | ⟨hl, hc⟩
      · rw [gl, hl]
      · rw [gl, hl]
        simp only []
        rw [k5, hr, if_neg]
        rcases hc with hc | hc
        · simp [hc]
        · simp [hc, r]
    rw [hx] at e
    obtain ⟨w1, w2, w3, w4, w5⟩ := wrap _ (hno _ k3) k1 k2 k3
    refine ⟨_, e, w5.trans (k5.trans hr), w1, w2, ?_⟩
    have : (State.finish s ((s.goodFrame b).modBlc b (takeStatus body))).out = s.out := w4.trans (k4.trans g4)
    rw [this] at w3
    exact w3
  · have hx : (s.goodFrame b).status b body = ((s.goodFrame b).modBlc b (takeStatus body)).enterSync b := by
      unfold State.status
      rw [gl, hl]
      simp only []
      rw [k5, hr, if_pos]
      have hrd : r.direction = (s.blcAt b).direction := rfl
      rw [hc, hrd]; simp [hd]
    obtain ⟨c1, c2, c3, c4, c5⟩ := sync ((s.goodFrame b).modBlc b (takeStatus body)) k1 k2 k3 (k4.trans g4)
        (by rw [k5, hr, hc]; simp) (by rw [k5, hr]) (by rw [k5, hr]) (by rw [k5, hr]) (by rw [k5, hr])
    rw [hx] at e
    obtain ⟨w1, w2, w3, w4, w5⟩ := wrap _ (hno _ c3) c1 c2 c3
    refine ⟨_, e, ?_, w4.trans c4, w1, w2, w3⟩
    rw [w5, c5, k5, hr]
    clear_value r
    cases r; cases hc; rfl

end Sys2Proof.Machine
end

