-- ==== Sys2Proof/Laws/Resolution.lean ====
section
/-! SUPPORT. A link as it goes DOWN or synchronises: HOLDINGS sent and resolved, claims dropped, telegrams held back (R112,
R115, R168 to R172), and the handover of a train over it (R178). -/

set_option Elab.async false

namespace Sys2Proof.Machine

variable (s : State) (b : BLink)

/-! ### What leaves the links alone -/

/-- What a state holds for its neighbours and for the RIM: the boundary records, what has gone out, the waiting notices. -/
def State.wires (s : State) : Vector Blc 4 × List Sent × List Notice := (s.blc, s.out, s.notices)

@[simp] theorem putElem_wires (e : Nat) (r : Element) : (s.putElem e r).wires = s.wires := by simp [State.wires]
@[simp] theorem putFct_wires (n : Nat) (v : Option FctEntry) : (s.putFct n v).wires = s.wires := rfl
@[simp] theorem mark_wires (o : Obj) : (s.mark o).wires = s.wires := rfl

@[simp] theorem setFlankRef_wires (e : Nat) (r : Option Nat) : (s.setFlankRef e r).wires = s.wires := by
  unfold State.setFlankRef
  split <;> simp

@[simp] theorem retestTrigger_wires : s.retestTrigger.wires = s.wires := by
  unfold State.retestTrigger State.startPass State.presentMarked
  (repeat' split) <;> rfl

@[simp] theorem releaseNotice_wires (p : State × Bool) : (releaseNotice p).wires = p.1.wires := by
  unfold releaseNotice
  split <;> simp

theorem foldl_wires {α β : Type} {f : State × β → α → State × β} (h : ∀ p x, (f p x).1.wires = p.1.wires) (l : List α)
    (p : State × β) : (l.foldl f p).1.wires = p.1.wires := by
  induction l generalizing p with
  | nil => rfl
  | cons x l ih => rw [List.foldl_cons, ih, h]

theorem dropFrom_wires (n : Nat) (p : Claimant → Bool) : (s.dropFrom n p).1.wires = s.wires := by
  unfold State.dropFrom
  split
  · rfl
  · dsimp only
    (repeat' split) <;> simp

@[simp] theorem dropClaims_wires (p : Claimant → Bool) : (s.dropClaims p).1.wires = s.wires :=
  foldl_wires (f := fun (acc : State × Bool) n => ((acc.1.dropFrom n p).1, acc.2 || (acc.1.dropFrom n p).2))
    (fun a n => dropFrom_wires a.1 n p) _ (s, false)

@[simp] theorem boundaryDrop_wires (ref : Nat) : (s.boundaryDrop b ref).wires = s.wires := by
  unfold State.boundaryDrop
  dsimp only
  split <;> simp

theorem unlockItem_wires (i : Nat) (p : State × Bool) (it : PathItem) : (State.unlockItem i p it).1.wires = p.1.wires := by
  have ht : ∀ e, (State.unlockTrack i p e).1.wires = p.1.wires := fun e => by
    unfold State.unlockTrack
    (repeat' split) <;> simp
  have hp : ∀ (q : State × Bool) e, (State.unlockPoint i q e).1.wires = q.1.wires := fun q e => by
    unfold State.unlockPoint
    (repeat' split) <;> simp
  exact (foldl_wires hp _ _).trans (ht _)

@[simp] theorem releasePathItem_wires (i : Nat) (d : RouteDef) (k : Nat) : (s.releasePathItem i d k).wires = s.wires := by
  have h1 : ∀ (p : State × Bool) e, (State.unlockEntry i p e).1.wires = p.1.wires := fun p e => by
    unfold State.unlockEntry State.setEntry
    dsimp only
    split <;> simp
  have h2 : ∀ (p : State × Bool) e, (State.unlockExit i p e).1.wires = p.1.wires := fun p e => by
    unfold State.unlockExit State.setExit
    dsimp only
    split <;> simp
  unfold State.releasePathItem
  dsimp only
  rw [releaseNotice_wires]
  dsimp only
  rw [dropClaims_wires, foldl_wires (unlockItem_wires i)]
  (repeat' split) <;> simp only [h1, h2]

/-! ### Claims that leave (R113, R115) -/

/-- An entry of the Flank Claim Table without the claimants that leave it; deleted when the last one leaves (R113). -/
def leaveEntry (p : Claimant → Bool) (o : Option FctEntry) : Option FctEntry :=
  o.bind fun f =>
    let rest := f.claimants.filter fun c => !p c
    if rest.length = f.claimants.length then some f
    else if rest.isEmpty then none else some { f with claimants := rest }

theorem fctEntry_of_ge (n : Nat) (h : ¬ n < 128) : s.fctEntry n = none := by
  simp [State.fctEntry, Vector.getD, h]

@[simp] theorem fctEntry_setFlankRef (e : Nat) (r : Option Nat) (m : Nat) : (s.setFlankRef e r).fctEntry m = s.fctEntry m := by
  have hp : ∀ x : Element, (s.putElem e x).fctEntry m = s.fctEntry m := fun x => by
    unfold State.putElem State.fctEntry
    split <;> rfl
  unfold State.setFlankRef
  split <;> simp only [hp]

theorem dropFrom_fct (n : Nat) (p : Claimant → Bool) (m : Nat) :
    (s.dropFrom n p).1.fctEntry m = if m = n then leaveEntry p (s.fctEntry m) else s.fctEntry m := by
  unfold State.dropFrom
  cases h : s.fctEntry n with
  | none =>
    dsimp only
    split
    · subst_vars; rw [h]; rfl
    · rfl
  | some f =>
    have hn : n < 128 := Decidable.byContradiction fun k => by rw [fctEntry_of_ge s n k] at h; cases h
    have hs : ∀ v, (s.putFct n v).fctEntry m = if m = n then v else s.fctEntry m := fun v => by
      split
      · subst_vars; exact fctEntry_putFct_same _ _ hn
      · rename_i k; exact fctEntry_putFct_ne _ _ _ (Ne.symm k)
    have hm : ∀ (t : State) o, (t.mark o).fctEntry m = t.fctEntry m := fun _ _ => rfl
    dsimp only
    by_cases hm' : m = n
    · subst hm'
      simp only [leaveEntry, h, Option.bind_some, if_true]
      split
      · exact h
      · split <;> simp only [hm, fctEntry_setFlankRef, hs, if_true]
    · (repeat' split) <;> simp_all

theorem dropClaims_fct (p : Claimant → Bool) (m : Nat) : (s.dropClaims p).1.fctEntry m = leaveEntry p (s.fctEntry m) := by
  have key : ∀ (l : List Nat) (a : State × Bool), l.Nodup →
      (l.foldl (fun (acc : State × Bool) n => ((acc.1.dropFrom n p).1, acc.2 || (acc.1.dropFrom n p).2)) a).1.fctEntry m =
        if m ∈ l then leaveEntry p (a.1.fctEntry m) else a.1.fctEntry m := by
    intro l
    induction l with
    | nil => intro a _; simp
    | cons x l ih =>
      intro a hl
      rw [List.foldl_cons, ih _ (List.nodup_cons.1 hl).2]
      dsimp only
      rw [dropFrom_fct]
      by_cases hx : m = x
      · subst hx
        simp [(List.nodup_cons.1 hl).1]
      · simp [hx]
  have := key (List.range Config.fctCount) (s, false) List.nodup_range
  by_cases hm : m ∈ List.range Config.fctCount
  · rw [if_pos hm] at this; exact this
  · rw [if_neg hm] at this
    have hm' : ¬ m < 128 := fun h => hm (List.mem_range.2 h)
    rw [fctEntry_of_ge s m hm'] at this ⊢
    exact this

theorem boundaryDrop_fct (ref m : Nat) :
    (s.boundaryDrop b ref).fctEntry m = leaveEntry (fun c => c == .boundary b ref) (s.fctEntry m) := by
  have hr : ∀ t : State, t.retestTrigger.fctEntry m = t.fctEntry m := fun t => by
    unfold State.retestTrigger State.startPass State.presentMarked
    (repeat' split) <;> rfl
  unfold State.boundaryDrop
  dsimp only
  split
  · rw [hr, dropClaims_fct]
  · rw [dropClaims_fct]

theorem leaveEntry_comp (p q : Claimant → Bool) (o : Option FctEntry) :
    leaveEntry q (leaveEntry p o) = leaveEntry (fun c => p c || q c) o := by
  cases o with
  | none => rfl
  | some f =>
    have hf : f.claimants.filter (fun c => !(p c || q c)) = (f.claimants.filter fun c => !p c).filter fun c => !q c := by
      rw [List.filter_filter]
      exact List.filter_congr fun c _ => by cases p c <;> cases q c <;> rfl
    simp only [leaveEntry, Option.bind_some, hf]
    by_cases h1 : (f.claimants.filter fun c => !p c).length = f.claimants.length
    · have e : (f.claimants.filter fun c => !p c) = f.claimants := List.filter_sublist.eq_of_length h1
      simp only [e, if_true, Option.bind_some]
    · have hle : (f.claimants.filter fun c => !p c).length ≤ f.claimants.length := List.length_filter_le ..
      have hle2 : ((f.claimants.filter fun c => !p c).filter fun c => !q c).length ≤ (f.claimants.filter fun c => !p c).length :=
        List.length_filter_le ..
      have h2 : ¬ ((f.claimants.filter fun c => !p c).filter fun c => !q c).length = f.claimants.length := by omega
      rw [if_neg h1, if_neg h2]
      by_cases h3 : (f.claimants.filter fun c => !p c).isEmpty = true
      · have e : (f.claimants.filter fun c => !p c) = [] := by simpa using h3
        simp [e]
      · rw [if_neg h3]
        simp only [Option.bind_some]
        by_cases h4 : ((f.claimants.filter fun c => !p c).filter fun c => !q c).length = (f.claimants.filter fun c => !p c).length
        · have e := List.filter_sublist.eq_of_length h4
          rw [if_pos h4, e, if_neg h3]
        · rw [if_neg h4]

theorem boundaryDrops_fct (refs : List Nat) (m : Nat) :
    (refs.foldl (fun (s : State) ref => s.boundaryDrop b ref) s).fctEntry m =
      leaveEntry (fun c => refs.any fun ref => c == .boundary b ref) (s.fctEntry m) := by
  induction refs generalizing s with
  | nil =>
    cases h : s.fctEntry m <;> simp [leaveEntry, h]
  | cons ref refs ih =>
    rw [List.foldl_cons, ih, boundaryDrop_fct, leaveEntry_comp]
    rfl

/-- What an entry is without the claimants that leave it. -/
theorem leaveEntry_rows (p : Claimant → Bool) (f : FctEntry) :
    ((∀ c ∈ f.claimants, p c = false) → leaveEntry p (some f) = some f)
    ∧ ((∃ c ∈ f.claimants, p c = true) → leaveEntry p (some f) =
      if (f.claimants.filter fun c => !p c) = [] then none else some { f with claimants := f.claimants.filter fun c => !p c }) := by
  refine ⟨fun h => ?_, fun ⟨c, hc, hp⟩ => ?_⟩
  · have e : (f.claimants.filter fun c => !p c) = f.claimants := List.filter_eq_self.2 fun c hc => by simp [h c hc]
    simp only [leaveEntry, Option.bind_some, e, if_true]
  · have h : ¬ (f.claimants.filter fun c => !p c).length = f.claimants.length := fun h => by
      have e := (List.filter_sublist.eq_of_length h) ▸ hc
      have := (List.mem_filter.1 e).2
      simp [hp] at this
    simp only [leaveEntry, Option.bind_some, if_neg h, List.isEmpty_iff]

/-- What an entry is without the claimants that leave it, by who leaves. -/
theorem leaveEntry_cases (p : Claimant → Bool) (q : Claimant → Prop) (hq : ∀ c, p c = true ↔ q c) (f : FctEntry) :
    ((∀ c ∈ f.claimants, ¬q c) → leaveEntry p (some f) = some f)
    ∧ ((∃ c ∈ f.claimants, q c) → (∀ c ∈ f.claimants, q c) → leaveEntry p (some f) = none)
    ∧ ((∃ c ∈ f.claimants, q c) → (∃ c ∈ f.claimants, ¬q c) → ∃ l, leaveEntry p (some f) = some { f with claimants := l }
      ∧ l.Sublist f.claimants ∧ ∀ c, c ∈ l ↔ c ∈ f.claimants ∧ ¬q c) := by
  obtain ⟨h1, h2⟩ := leaveEntry_rows p f
  refine ⟨fun k => h1 fun c hc => ?_, fun ⟨c, hc, hl⟩ k => ?_, fun ⟨c, hc, hl⟩ ⟨c', hc', hl'⟩ => ?_⟩
  · exact Bool.eq_false_iff.2 fun x => k c hc ((hq c).1 x)
  · refine (h2 ⟨c, hc, (hq c).2 hl⟩).trans (if_pos (List.filter_eq_nil_iff.2 fun x hx => ?_))
    simp [(hq x).2 (k x hx)]
  · refine ⟨_, (h2 ⟨c, hc, (hq c).2 hl⟩).trans (if_neg fun he => ?_), List.filter_sublist, fun x => ?_⟩
    · have := List.filter_eq_nil_iff.1 he c' hc'
      exact hl' ((hq c').1 (by simpa using this))
    · rw [List.mem_filter]
      refine and_congr_right fun _ => ?_
      rw [← hq x]; simp

/-! ### Lists matched by reference (R170, R171) -/

/-- Matching takes the oldest entry first, and each reference at most one entry. -/
theorem matchRefs_rows {α : Type} (ref : α → Nat) :
    (∀ refs, matchRefs ref [] refs = ([], [], refs))
    ∧ ∀ a l refs,
      (ref a ∈ refs → matchRefs ref (a :: l) refs =
        let m := matchRefs ref l (refs.erase (ref a))
        (a :: m.1, m.2.1, m.2.2))
      ∧ (ref a ∉ refs → matchRefs ref (a :: l) refs =
        let m := matchRefs ref l refs
        (m.1, a :: m.2.1, m.2.2)) := by
  refine ⟨fun _ => rfl, fun a l refs => ⟨fun h => ?_, fun h => ?_⟩⟩ <;> simp [matchRefs, h]

/-- A matched entry's reference is one of those matched against. -/
theorem matchRefs_mem {α : Type} (ref : α → Nat) (l : List α) (refs : List Nat) :
    ∀ a ∈ (matchRefs ref l refs).1, ref a ∈ refs := by
  induction l generalizing refs with
  | nil => simp [matchRefs]
  | cons x l ih =>
    intro a ha
    unfold matchRefs at ha
    split at ha
    · rename_i h
      rcases List.mem_cons.1 ha with rfl | ha
      · simpa using h
      · exact List.mem_of_mem_erase (ih _ a ha)
    · exact ih _ a ha

/-- Dropping the matched entries one by one leaves those not matched. -/
theorem dropMatched (l : List OutAsk) (refs : List Nat) :
    (matchRefs OutAsk.ref l refs).1.foldl (fun l a => dropFirst (fun x => x == a) l) l = (matchRefs OutAsk.ref l refs).2.1 := by
  have skip : ∀ (m : List OutAsk) (x : OutAsk) (l : List OutAsk), (∀ a ∈ m, a ≠ x) →
      m.foldl (fun l a => dropFirst (fun y => y == a) l) (x :: l) = x :: m.foldl (fun l a => dropFirst (fun y => y == a) l) l := by
    intro m
    induction m with
    | nil => intros; rfl
    | cons a m ih =>
      intro x l h
      have hx : (x == a) = false := by
        have := h a (List.mem_cons_self ..)
        simpa using Ne.symm this
      simp only [List.foldl_cons, dropFirst, hx]
      exact ih x _ fun c hc => h c (List.mem_cons_of_mem _ hc)
  induction l generalizing refs with
  | nil => rfl
  | cons x l ih =>
    unfold matchRefs
    split
    · simp only [List.foldl_cons, dropFirst, beq_self_eq_true, if_true]
      exact ih _
    · rename_i h
      rw [skip _ x l fun a ha he => h (by simpa [he] using matchRefs_mem _ _ _ a ha), ih]

/-! ### Received items (R170) -/

theorem notifyAll_blcAt (l : List Notice) : (s.notifyAll l).blcAt b = s.blcAt b := rfl
theorem notify_blcAt (n : Notice) : (s.notify n).blcAt b = s.blcAt b := rfl
theorem send_blcAt (x : Sent) : (s.send x).blcAt b = s.blcAt b := rfl
theorem mark_blcAt (o : Obj) : (s.mark o).blcAt b = s.blcAt b := rfl

/-- A state that differs in boundary record b, in its notices and in the pending sets alone. -/
def State.beside (s t : State) (b : BLink) : Prop :=
  (∀ x, x ≠ b → t.blcAt x = s.blcAt x) ∧ MarksOnly s t ∧ t = { s with blc := t.blc, notices := t.notices, olc := t.olc }

theorem beside_refl : s.beside s b := ⟨fun _ _ => rfl, .refl s, rfl⟩

theorem State.beside.modBlc {s t : State} {b : BLink} (h : s.beside t b) (f : Blc → Blc) : s.beside (t.modBlc b f) b := by
  refine ⟨fun x hx => (blcAt_modBlc_ne _ _ _ _ (Ne.symm hx)).trans (h.1 x hx), h.2.1.trans (modBlc_marks _ _ _), ?_⟩
  rw [modBlc_eq, h.2.2]

theorem State.beside.notifyAll {s t : State} {b : BLink} (h : s.beside t b) (l : List Notice) : s.beside (t.notifyAll l) b :=
  ⟨h.1, h.2.1, by rw [h.2.2]; rfl⟩

theorem State.beside.trans {s t u : State} {b : BLink} (h : s.beside t b) (k : t.beside u b) : s.beside u b := by
  refine ⟨fun x hx => (k.1 x hx).trans (h.1 x hx), h.2.1.trans k.2.1, ?_⟩
  have e := k.2.2
  rw [h.2.2] at e
  exact e

theorem sendHeld_sync (x : BoundaryTelegram) (h : (s.blcAt b).link = .sync) :
    s.sendHeld b x = s.modBlc b fun r => { r with heldBack := r.heldBack ++ [x] } := by
  simp [State.sendHeld, h]

/-- Awaiting asks that the neighbour lists as given, in SYNC (R170, R177). -/
theorem asksGiven_rows (asks : List OutAsk) (hl : (s.blcAt b).link = .sync) :
    let t := asks.foldl (fun (s : State) a => s.askGiven b a) s
    let r := s.blcAt b
    let out := r.direction = .outward
    t.blcAt b = { r with
      outAsks := asks.foldl (fun l a => dropFirst (fun x => x == a) l) r.outAsks
      outgoing := r.outgoing ++ (if out then asks.map fun a => ⟨a.ref, a.inst⟩ else [])
      heldBack := r.heldBack ++ (if out then [] else asks.map fun a => .acceptWithdraw a.ref) }
    ∧ t.notices = s.notices ++ asks.map (fun a => if out then .acceptanceGiven a.inst else .acceptanceRefused a.inst)
    ∧ s.beside t b := by
  induction asks generalizing s with
  | nil => simp [beside_refl]
  | cons a asks ih =>
    have h1 : (s.askGiven b a).blcAt b = { s.blcAt b with
          outAsks := dropFirst (fun x => x == a) (s.blcAt b).outAsks
          outgoing := (s.blcAt b).outgoing ++ (if (s.blcAt b).direction = .outward then [⟨a.ref, a.inst⟩] else [])
          heldBack := (s.blcAt b).heldBack ++ (if (s.blcAt b).direction = .outward then [] else [.acceptWithdraw a.ref]) }
        ∧ (s.askGiven b a).notices = s.notices ++
          [if (s.blcAt b).direction = .outward then .acceptanceGiven a.inst else .acceptanceRefused a.inst]
        ∧ s.beside (s.askGiven b a) b := by
      unfold State.askGiven
      by_cases hd : (s.blcAt b).direction = .outward
      · simp only [hd, beq_self_eq_true, if_true]
        refine ⟨?_, by simp [State.notify], ((beside_refl s b).modBlc _).notifyAll [_]⟩
        rw [notify_blcAt, blcAt_modBlc_same]; simp [hd]
      · have hd' : ((s.blcAt b).direction == .outward) = false := by simpa using hd
        simp only [hd', if_neg hd, Bool.false_eq_true, if_false]
        rw [sendHeld_sync _ _ _ (by rw [blcAt_modBlc_same]; exact hl)]
        refine ⟨?_, by simp [State.notify], (((beside_refl s b).modBlc _).modBlc _).notifyAll [_]⟩
        rw [notify_blcAt, blcAt_modBlc_same, blcAt_modBlc_same]; simp
    obtain ⟨k1, k2, k3⟩ := h1
    obtain ⟨i1, i2, i3⟩ := ih (s.askGiven b a) (by rw [k1]; exact hl)
    rw [List.foldl_cons]
    refine ⟨?_, ?_, ?_⟩
    · rw [i1, k1]
      by_cases hd : (s.blcAt b).direction = .outward <;> simp [hd, List.append_assoc]
    · rw [i2, k2, k1]
      simp [List.append_assoc]
    · exact k3.trans i3

/-- Received items resolved against the neighbour's lists of items given, in SYNC (R170). -/
theorem resolveReceived_rows (h : HoldingsBody) (hl : (s.blcAt b).link = .sync) :
    let r := s.blcAt b
    let m := matchRefs RefInst.ref r.outgoing h.acceptancesGiven
    let k := matchRefs OutAsk.ref r.outAsks m.2.2
    let t := s.resolveReceived b h
    t.blcAt b = { r with
      outgoing := m.1 ++ (if r.direction = .outward then k.1.map fun a => ⟨a.ref, a.inst⟩ else [])
      outAsks := k.2.1
      heldBack := r.heldBack ++ (if r.direction = .outward then [] else k.1.map fun a => .acceptWithdraw a.ref)
      assurances := (r.assurances.filter fun a => h.assurancesGiven.contains a.ref || !a.assured).map fun (a : Assurance) =>
        if h.assurancesGiven.contains a.ref then { a with assured := true, timer := .stopped } else a }
    ∧ t.notices = s.notices ++ m.2.1.map (fun a => .acceptanceLost a.inst)
      ++ k.1.map (fun a => if r.direction = .outward then .acceptanceGiven a.inst else .acceptanceRefused a.inst)
      ++ (r.assurances.filter fun a => a.assured && !h.assurancesGiven.contains a.ref).map (fun a => .assuranceLost a.inst a.item)
      ++ (r.assurances.filter fun a => !a.assured && h.assurancesGiven.contains a.ref).map
        (fun a => .assuranceGiven a.inst a.item)
    ∧ s.beside t b := by
  intro r m k t
  let s1 : State := (s.modBlc b fun r => { r with outgoing := m.1 }).notifyAll (m.2.1.map fun a => .acceptanceLost a.inst)
  have e1 : s1.blcAt b = { r with outgoing := m.1 } := blcAt_modBlc_same s b _
  have b1 : s.beside s1 b := ((beside_refl s b).modBlc _).notifyAll _
  have n1 : s1.notices = s.notices ++ m.2.1.map fun a => .acceptanceLost a.inst := by simp [s1]
  let s2 : State := k.1.foldl (fun (s : State) a => s.askGiven b a) s1
  obtain ⟨e2, n2, b2⟩ := asksGiven_rows s1 b k.1 (by rw [e1]; exact hl)
  rw [e1] at e2 n2
  have c2 : s.beside s2 b := b1.trans b2
  have ha : (s2.blcAt b).assurances = r.assurances := by rw [show s2.blcAt b = _ from e2]
  let f : Blc → Blc := fun x => { x with
    assurances := (r.assurances.filter fun a => h.assurancesGiven.contains a.ref || !a.assured).map fun (a : Assurance) =>
      if h.assurancesGiven.contains a.ref then { a with assured := true, timer := .stopped } else a }
  have et : t = ((s2.modBlc b f).notifyAll ((r.assurances.filter fun a =>
        a.assured && !h.assurancesGiven.contains a.ref).map fun a => .assuranceLost a.inst a.item)).notifyAll
      ((r.assurances.filter fun a => !a.assured && h.assurancesGiven.contains a.ref).map fun a => .assuranceGiven a.inst a.item) := by
    show State.resolveReceived s b h = _
    unfold State.resolveReceived
    dsimp only
    rw [show ((List.foldl _ (State.notifyAll _ _) _ : State).blcAt b).assurances = r.assurances from ha]
  rw [et]
  refine ⟨?_, ?_, ((c2.modBlc _).notifyAll _).notifyAll _⟩
  · rw [notifyAll_blcAt, notifyAll_blcAt, blcAt_modBlc_same, show s2.blcAt b = _ from e2]
    simp only [f, r]
    rw [show k.1.foldl _ (s.blcAt b).outAsks = k.2.1 from dropMatched _ _]
  · have : s2.notices = _ := n2
    simp [this, n1, List.append_assoc]

/-! ### Given items (R171) -/

theorem mem_givenRefs (ref : Nat) : ref ∈ s.givenRefs b ↔ ∃ n f, s.fctEntry n = some f ∧ .boundary b ref ∈ f.claimants := by
  unfold State.givenRefs
  simp only [List.mem_flatMap, List.mem_range]
  constructor
  · rintro ⟨n, hn, h⟩
    cases hf : s.fctEntry n with
    | none => simp [hf] at h
    | some f =>
      simp only [hf, List.mem_filterMap] at h
      obtain ⟨c, hc, hx⟩ := h
      cases c with
      | route i m => simp at hx
      | boundary b' r =>
        by_cases hb : b' = b
        · subst hb
          simp at hx
          subst hx
          exact ⟨n, f, hf, hc⟩
        · simp [hb] at hx
  · rintro ⟨n, f, hf, hc⟩
    have hn : n < 128 := Decidable.byContradiction fun k => by rw [fctEntry_of_ge s n k] at hf; cases hf
    refine ⟨n, hn, ?_⟩
    simp only [hf, List.mem_filterMap]
    exact ⟨_, hc, by simp⟩

/-- Whether a claimant leaves as the given items of a link are resolved: it is of the link, and the neighbour does not
list its reference as received (R171). -/
def Claimant.unlisted (b : BLink) (h : HoldingsBody) : Claimant → Bool
  | .boundary b' ref => b' == b && !h.assurancesReceived.contains ref
  | .route _ _ => false

theorem Claimant.unlisted_iff (h : HoldingsBody) (c : Claimant) :
    c.unlisted b h = true ↔ ∃ ref, c = .boundary b ref ∧ ref ∉ h.assurancesReceived := by
  cases c with
  | route i m => simp [Claimant.unlisted]
  | boundary b' ref =>
    simp only [Claimant.unlisted, Bool.and_eq_true, beq_iff_eq, Bool.not_eq_true', List.contains_eq_mem,
      decide_eq_false_iff_not, Claimant.boundary.injEq]
    constructor
    · rintro ⟨rfl, h⟩; exact ⟨_, ⟨rfl, rfl⟩, h⟩
    · rintro ⟨_, ⟨rfl, rfl⟩, h⟩; exact ⟨rfl, h⟩

/-- Given items resolved against the neighbour's lists of items received (R171). -/
theorem resolveGiven_rows (h : HoldingsBody) :
    let r := s.blcAt b
    let t := s.resolveGiven b h
    let dropped := (matchRefs Incoming.ref r.incoming h.acceptancesReceived).2.1.filter fun a => !a.handed && !a.ended
    (s.lineFree r = false → t = s)
    ∧ (s.lineFree r = true →
      t.blcAt b = { r with incoming := r.incoming.filter fun a => !dropped.contains a }
      ∧ (∀ x, x ≠ b → t.blcAt x = s.blcAt x) ∧ t.out = s.out
      ∧ t.notices = s.notices ++ dropped.map (fun a => .withdrawn a.inst)
      ∧ ∀ n, t.fctEntry n = leaveEntry (Claimant.unlisted b h) (s.fctEntry n)) := by
  intro r t dropped
  refine ⟨fun hf => ?_, fun hf => ?_⟩
  · simp [t, State.resolveGiven, show s.lineFree (s.blcAt b) = false from hf]
  · let s1 : State := (s.modBlc b fun r => { r with incoming := r.incoming.filter fun a => !dropped.contains a }).notifyAll
      (dropped.map fun a => .withdrawn a.inst)
    let refs := (s1.givenRefs b).filter fun ref => !h.assurancesReceived.contains ref
    have et : t = refs.foldl (fun (s : State) ref => s.boundaryDrop b ref) s1 := by
      show State.resolveGiven s b h = _
      unfold State.resolveGiven
      rw [if_pos hf]
    have hw : t.wires = s1.wires := by rw [et]; exact foldl_keeps _ State.wires (fun s ref => boundaryDrop_wires s b ref) refs
    have hb : t.blc = s1.blc := congrArg Prod.fst hw
    have ho : t.out = s1.out := congrArg (fun p => p.2.1) hw
    have hn : t.notices = s1.notices := congrArg (fun p => p.2.2) hw
    have hc : ∀ x, t.blcAt x = s1.blcAt x := fun x => by unfold State.blcAt; rw [hb]
    have hfct : ∀ n, s1.fctEntry n = s.fctEntry n := fun n => by
      show State.fctEntry (State.modBlc _ _ _) n = _
      unfold State.fctEntry
      rw [modBlc_lkc]
    refine ⟨(hc b).trans (blcAt_modBlc_same s b _), fun x hx => (hc x).trans (blcAt_modBlc_ne _ _ _ _ (Ne.symm hx)),
      ho.trans (by simp [s1, State.modBlc]), hn.trans (by simp [s1]), fun n => ?_⟩
    rw [et, boundaryDrops_fct, hfct]
    cases hx : s.fctEntry n with
    | none => rfl
    | some f =>
      have : (f.claimants.filter fun c => !refs.any fun ref => c == .boundary b ref) = f.claimants.filter fun c => !c.unlisted b h := by
        refine List.filter_congr fun c hm => congrArg not (Bool.eq_iff_iff.2 ?_)
        simp only [List.any_eq_true, beq_iff_eq, refs, List.mem_filter]
        constructor
        · rintro ⟨ref, ⟨-, hr⟩, rfl⟩
          simpa [Claimant.unlisted] using hr
        · intro hl
          cases c with
          | route i m => simp [Claimant.unlisted] at hl
          | boundary b' ref =>
            simp only [Claimant.unlisted, Bool.and_eq_true, beq_iff_eq] at hl
            obtain ⟨rfl, hr⟩ := hl
            exact ⟨ref, ⟨(mem_givenRefs _ _ _).2 ⟨n, f, (hfct n).trans hx, hm⟩, hr⟩, rfl⟩
      simp only [leaveEntry, Option.bind_some, this]

/-! ### A link going DOWN (R168) -/

theorem marks_modBlc_of_mem (f : Blc → Blc) (o : Obj) (l : OpLink) (h : o ∈ (s.olc.get l).marks) :
    o ∈ ((s.modBlc b f).olc.get l).marks := by
  unfold State.modBlc State.putBlc
  dsimp only
  split
  · exact h
  · exact (marks_mark_iff _ _ _ l).2 (.inl h)

theorem marks_modBlc_of_change (f : Blc → Blc) (l : OpLink) (h : (f (s.blcAt b)).still ≠ (s.blcAt b).still) :
    .boundary b ∈ ((s.modBlc b f).olc.get l).marks := by
  unfold State.modBlc State.putBlc
  dsimp only
  rw [if_neg fun k => h k.1]
  exact mem_mark _ _ l

/-- A change given up: IDLE, and one in ASKING reported failed (R168, R169, R173). -/
theorem dropChange_rows :
    let t := s.dropChange b
    t.blcAt b = { s.blcAt b with change := .idle, changeTimer := .stopped } ∧ (∀ x, x ≠ b → t.blcAt x = s.blcAt x)
    ∧ t.out = s.out ∧ t.notices = s.notices ++ (if (s.blcAt b).change = .asking then [.directionFailed b] else [])
    ∧ t.lkc = s.lkc := by
  intro t
  refine ⟨?_, fun x hx => ?_, ?_, ?_, ?_⟩
  · simp only [t, State.dropChange]
    split <;> exact blcAt_modBlc_same s b _
  · simp only [t, State.dropChange]
    split <;> exact blcAt_modBlc_ne s b x _ (Ne.symm hx)
  · simp only [t, State.dropChange]
    split <;> simp [State.modBlc]
  · simp only [t, State.dropChange]
    by_cases h : (s.blcAt b).change = .asking <;> simp [h, State.notify]
  · simp only [t, State.dropChange]
    split <;> simp

/-- The link goes DOWN: what was received leaves, what was given stays, and the RIM is told (R168). -/
theorem goDown_rows :
    let r := s.blcAt b
    let t := s.goDown b
    t.blcAt b = { r with
      change := .idle, changeTimer := .stopped, link := .down, outgoing := [], outAsks := [], assurances := []
      neighbourClear := false, heldBack := [], silenceTimer := .stopped, holdingsTimer := .stopped
      lostHoldings := r.lostHoldings || s.givesAny b }
    ∧ (∀ x, x ≠ b → t.blcAt x = s.blcAt x) ∧ t.out = s.out ∧ t.lkc = s.lkc
    ∧ t.notices = s.notices ++ (if r.change = .asking then [.directionFailed b] else []) ++ .linkDown b
      :: r.outgoing.map (fun a => .acceptanceLost a.inst)
      ++ (r.assurances.filter Assurance.assured).map (fun a => .assuranceLost a.inst a.item)
    ∧ (r.link ≠ .down → ∀ l, .boundary b ∈ (t.olc.get l).marks) := by
  intro r t
  obtain ⟨d1, d2, d3, d4, d5⟩ := dropChange_rows s b
  let d : State := s.dropChange b
  let u : State := d.modBlc b fun r =>
    { r with link := .down, outgoing := [], outAsks := [], assurances := [], neighbourClear := false
             heldBack := [], silenceTimer := .stopped, holdingsTimer := .stopped }
  have u1 : u.blcAt b = _ := blcAt_modBlc_same d b _
  rw [show d.blcAt b = _ from d1] at u1
  have u2 : ∀ x, x ≠ b → u.blcAt x = s.blcAt x := fun x hx => (blcAt_modBlc_ne _ _ _ _ (Ne.symm hx)).trans (d2 x hx)
  have u3 : u.out = s.out := (by simp [u, State.modBlc] : u.out = d.out).trans d3
  have u4 : u.notices = _ := (modBlc_notices ..).trans d4
  have u5 : u.lkc = s.lkc := (modBlc_lkc ..).trans d5
  have u6 : r.link ≠ .down → ∀ l, .boundary b ∈ (u.olc.get l).marks := fun h l => by
    refine marks_modBlc_of_change d b _ l fun k => h ?_
    have := congrArg Blc.link k
    rw [show d.blcAt b = _ from d1] at this
    exact this.symm
  have ug : u.givesAny b = s.givesAny b := by
    have hg : u.givenRefs b = s.givenRefs b := by
      unfold State.givenRefs State.fctEntry
      rw [u5]
    unfold State.givesAny
    rw [u1, hg]
  let v : State := u.modBlc b fun r => { r with lostHoldings := r.lostHoldings || u.givesAny b }
  have et : t = v.notifyAll (.linkDown b :: r.outgoing.map (fun a => .acceptanceLost a.inst)
      ++ (r.assurances.filter Assurance.assured).map (fun a => .assuranceLost a.inst a.item)) := rfl
  have v1 : v.blcAt b = _ := blcAt_modBlc_same u b _
  rw [u1, ug] at v1
  have v2 : ∀ x, x ≠ b → v.blcAt x = s.blcAt x := fun x hx => (blcAt_modBlc_ne _ _ _ _ (Ne.symm hx)).trans (u2 x hx)
  have v3 : v.out = s.out := (by simp [v, State.modBlc] : v.out = u.out).trans u3
  have v4 : v.notices = _ := (modBlc_notices ..).trans u4
  have v5 : v.lkc = s.lkc := (modBlc_lkc ..).trans u5
  have v6 : r.link ≠ .down → ∀ l, .boundary b ∈ (v.olc.get l).marks := fun h l =>
    marks_modBlc_of_mem u b _ _ l (u6 h l)
  rw [et]
  clear_value v
  refine ⟨v1, v2, v3, v5, ?_, v6⟩
  simp only [State.notifyAll, v4, List.append_assoc, List.cons_append]
  rfl

/-! ### The link in SYNC, and UP again (R169) -/

/-- The link enters SYNC: the change IDLE, HOLDINGS sent, both link timers started (R169). -/
theorem enterSync_rows :
    let t := s.enterSync b
    t.blcAt b = { s.blcAt b with
      change := .idle, changeTimer := .stopped, link := .sync, release := .stopped, silenceTimer := .running 15
      holdingsTimer := .running 40 }
    ∧ (∀ x, x ≠ b → t.blcAt x = s.blcAt x)
    ∧ t.out = s.out ++ [.boundary b (.holdings (s.holdingsOf b))]
    ∧ t.notices = s.notices ++ (if (s.blcAt b).change = .asking then [.directionFailed b] else [])
    ∧ t.lkc = s.lkc := by
  intro t
  let d : State := s.dropChange b
  obtain ⟨d1, d2, d3, d4, d5⟩ : d.blcAt b = _ ∧ _ ∧ d.out = _ ∧ d.notices = _ ∧ d.lkc = _ := dropChange_rows s b
  let u : State := d.modBlc b fun r => { r with
    link := .sync, release := .stopped, silenceTimer := .running Config.silenceTime
    holdingsTimer := .running Config.responseTime }
  have u1 : u.blcAt b = _ := blcAt_modBlc_same d b _
  rw [d1] at u1
  have hh : u.holdingsOf b = s.holdingsOf b := by
    have hg : u.givenRefs b = s.givenRefs b := by
      unfold State.givenRefs State.fctEntry
      rw [show u.lkc = s.lkc from (modBlc_lkc ..).trans d5]
    unfold State.holdingsOf
    rw [u1, hg]
  have et : t = u.send (.boundary b (.holdings (s.holdingsOf b))) := by
    show State.enterSync s b = _
    rw [← hh]
    show State.sendNow u b _ = _
    unfold State.sendNow
    rw [u1]
    rfl
  rw [et]
  have u2 : ∀ x, x ≠ b → u.blcAt x = s.blcAt x := fun x hx => (blcAt_modBlc_ne _ _ _ _ (Ne.symm hx)).trans (d2 x hx)
  have u3 : u.out = s.out := (by simp [u, State.modBlc] : u.out = d.out).trans d3
  have u4 : u.notices = _ := (modBlc_notices ..).trans d4
  have u5 : u.lkc = s.lkc := (modBlc_lkc ..).trans d5
  clear_value u
  refine ⟨u1, u2, ?_, u4, u5⟩
  rw [send_out, u3]

/-- The held-back telegrams sent in order, each ask with its response timer (R169). -/
theorem flushed_rows (held : List BoundaryTelegram) :
    let t := held.foldl (State.flushOne b) s
    t.blcAt b = held.foldl (fun r x => startTimerOf x r) (s.blcAt b) ∧ (∀ x, x ≠ b → t.blcAt x = s.blcAt x)
    ∧ t.out = s.out ++ held.map (.boundary b) ∧ t.notices = s.notices ∧ t.lkc = s.lkc := by
  induction held generalizing s with
  | nil => simp
  | cons x held ih =>
    have e1 : (State.flushOne b s x).blcAt b = startTimerOf x (s.blcAt b) := blcAt_modBlc_same (s.send _) b _
    have e2 : ∀ y, y ≠ b → (State.flushOne b s x).blcAt y = s.blcAt y := fun y hy => blcAt_modBlc_ne (s.send _) b y _ (Ne.symm hy)
    have e3 : (State.flushOne b s x).out = s.out ++ [.boundary b x] := by simp [State.flushOne, State.modBlc]
    have e4 : (State.flushOne b s x).notices = s.notices := by simp [State.flushOne, State.send]
    have e5 : (State.flushOne b s x).lkc = s.lkc := by simp [State.flushOne, State.send]
    obtain ⟨i1, i2, i3, i4, i5⟩ := ih (State.flushOne b s x)
    refine ⟨by rw [List.foldl_cons, List.foldl_cons, i1, e1], fun y hy => (i2 y hy).trans (e2 y hy), ?_, i4.trans e4, i5.trans e5⟩
    rw [List.foldl_cons, i3, e3]
    simp

/-- The timer of an ask starts as its telegram goes out: that of the oldest entry of the reference whose timer stands. -/
theorem startTimerOf_rows (r : Blc) (ref : Nat) :
    (∀ pre a post, r.outAsks = pre ++ a :: post → (∀ x ∈ pre, ¬(x.ref = ref ∧ x.timer = .stopped)) → a.ref = ref →
      a.timer = .stopped →
      startTimerOf (.acceptAsk ref) r = { r with outAsks := pre ++ { a with timer := .running 40 } :: post })
    ∧ (∀ pre a post, r.assurances = pre ++ a :: post →
      (∀ x ∈ pre, ¬(x.ref = ref ∧ x.assured = false ∧ x.timer = .stopped)) → a.ref = ref → a.assured = false →
      a.timer = .stopped →
      startTimerOf (.flankAsk ref) r = { r with assurances := pre ++ { a with timer := .running 40 } :: post })
    ∧ ∀ x, (∀ n, x ≠ .acceptAsk n) → (∀ n, x ≠ .flankAsk n) → startTimerOf x r = r := by
  refine ⟨fun pre a post h hp hr ht => ?_, fun pre a post h hp hr hs ht => ?_, fun x h1 h2 => ?_⟩
  · have key : startAsk ref (pre ++ a :: post) = pre ++ { a with timer := .running 40 } :: post := by
      clear h
      induction pre with
      | nil => simp [startAsk, hr, ht, Config.responseTime]
      | cons x pre ih =>
        have hx : (x.ref == ref && x.timer == .stopped) = false := by
          have := hp x (List.mem_cons_self ..)
          simpa using this
        simp only [List.cons_append, startAsk, hx, Bool.false_eq_true, if_false]
        rw [ih fun y hy => hp y (List.mem_cons_of_mem _ hy)]
    simp [startTimerOf, h, key]
  · have key : startAssurance ref (pre ++ a :: post) = pre ++ { a with timer := .running 40 } :: post := by
      clear h
      induction pre with
      | nil => simp [startAssurance, hr, hs, ht, Config.responseTime]
      | cons x pre ih =>
        have hx : (x.ref == ref && !x.assured && x.timer == .stopped) = false := by
          have := hp x (List.mem_cons_self ..)
          simpa [and_assoc] using this
        simp only [List.cons_append, startAssurance, hx, Bool.false_eq_true, if_false]
        rw [ih fun y hy => hp y (List.mem_cons_of_mem _ hy)]
    simp [startTimerOf, h, key]
  · cases x <;> first | rfl | exact absurd rfl (h1 _) | exact absurd rfl (h2 _)

/-- The neighbour's HOLDINGS resolved: the direction as R172 settles it from the lists R170 and R171 leave, the link UP,
and what was held back sent (R169). -/
theorem resolve_rows (h : HoldingsBody) :
    let v := (s.resolveReceived b h).resolveGiven b h
    let t := s.resolve b h
    t.blcAt b = (v.blcAt b).heldBack.foldl (fun r x => startTimerOf x r) { v.blcAt b with
      direction := resolvedDirection (v.blcAt b) h, link := .up, holdingsTimer := .stopped, lostHoldings := false
      heldBack := [] }
    ∧ (∀ x, x ≠ b → t.blcAt x = v.blcAt x) ∧ t.out = v.out ++ (v.blcAt b).heldBack.map (.boundary b)
    ∧ t.notices = v.notices ∧ t.lkc = v.lkc := by
  intro v t
  let w : State := v.modBlc b fun r => { r with direction := resolvedDirection r h }
  let x : State := w.modBlc b fun r => { r with link := .up, holdingsTimer := .stopped, lostHoldings := false }
  let y : State := x.modBlc b fun r => { r with heldBack := [] }
  have w1 : w.blcAt b = _ := blcAt_modBlc_same v b _
  have x1 : x.blcAt b = _ := blcAt_modBlc_same w b _
  have y1 : y.blcAt b = _ := blcAt_modBlc_same x b _
  rw [w1] at x1
  rw [x1] at y1
  have et : t = (v.blcAt b).heldBack.foldl (State.flushOne b) y := by
    show List.foldl (State.flushOne b) y (x.blcAt b).heldBack = _
    rw [x1]
  obtain ⟨f1, f2, f3, f4, f5⟩ := flushed_rows y b (v.blcAt b).heldBack
  rw [et]
  refine ⟨by rw [f1, y1], fun z hz => ?_, ?_, ?_, ?_⟩
  · rw [f2 z hz, blcAt_modBlc_ne _ _ _ _ (Ne.symm hz), blcAt_modBlc_ne _ _ _ _ (Ne.symm hz),
      blcAt_modBlc_ne _ _ _ _ (Ne.symm hz)]
  · rw [f3]; simp [y, x, w, State.modBlc]
  · rw [f4]; simp [y, x, w]
  · rw [f5]; simp [y, x, w]

/-- The start of response timers leaves the line of a link. -/
theorem startTimerOf_line (x : BoundaryTelegram) (r : Blc) : (startTimerOf x r).line = r.line := by
  unfold startTimerOf
  split <;> rfl

theorem startTimers_line (l : List BoundaryTelegram) (r : Blc) : (l.foldl (fun r x => startTimerOf x r) r).line = r.line := by
  induction l generalizing r with
  | nil => rfl
  | cons x l ih => rw [List.foldl_cons, ih, startTimerOf_line]

/-- HOLDINGS in SYNC or UP leave the link UP with the direction R172 settles (R169). -/
theorem holdingsReceived_direction (h : HoldingsBody) (hs : s.linkServes b = true) (hw : h.wellFormed = true)
    (hl : (s.blcAt b).link ≠ .down) :
    let u := if (s.blcAt b).link = .sync then s.goodFrame b else (s.goodFrame b).enterSync b
    ∃ t, execHoldingsReceived b h s = .next t
      ∧ (t.blcAt b).direction = resolvedDirection (((u.resolveReceived b h).resolveGiven b h).blcAt b) h := by
  intro u
  have hh : (s.goodFrame b).holdings b h = u.resolve b h := by
    unfold State.holdings
    rw [goodFrame_link]
    cases hk : (s.blcAt b).link with
    | down => exact absurd hk hl
    | sync => simp only [u, hk, if_true]
    | up => simp only [u, hk, reduceCtorEq, if_false]
  have e : execHoldingsReceived b h s = .next (State.finish s (u.resolve b h)) := by
    unfold execHoldingsReceived
    rw [hw, receive_good _ _ _ hs, hh]
  have line : ∀ r : Blc, r.line.direction = r.direction := fun _ => rfl
  refine ⟨_, e, ?_⟩
  rw [← line, line_of_desk (finish_desk s (u.resolve b h)) b, (resolve_rows u b h).1, startTimers_line, line]

/-- A STATUS in DOWN takes the link into SYNC whatever change was going on (R167, R169). -/
theorem statusReceived_down (body : StatusBody) (hs : s.linkServes b = true) (hw : body.wellFormed = true)
    (hd : (s.blcAt b).link = .down) :
    ∃ t, execStatusReceived b body s = .next t ∧ (t.blcAt b).link = .sync ∧ (t.blcAt b).neighbourClear = body.lineClear := by
  let u : State := (s.goodFrame b).enterSync b
  have e : execStatusReceived b body s = .next (State.finish s (u.modBlc b (takeStatus body))) := by
    unfold execStatusReceived
    rw [hw, receive_good _ _ _ hs, State.status]
    rw [goodFrame_link, hd]
  have hx := line_of_desk (finish_desk s (u.modBlc b (takeStatus body))) b
  rw [blcAt_modBlc_same, (enterSync_rows (s.goodFrame b) b).1] at hx
  refine ⟨_, e, ?_⟩
  generalize (State.finish s (u.modBlc b (takeStatus body))).blcAt b = r at hx
  exact ⟨congrArg Blc.link hx, congrArg Blc.neighbourClear hx⟩

/-! ### Flank items given up, and the train handed over (R112, R178, R181) -/

/-- A flank item given up toward the neighbour (R181). -/
theorem giveUpAssurance_rows (i m : Nat) :
    let rest := (s.blcAt b).assurances.filter fun a => !a.isOf i m
    ((∀ a ∈ (s.blcAt b).assurances, a.isOf i m = false) → s.giveUpAssurance b i m = s)
    ∧ ∀ a, (s.blcAt b).assurances.find? (fun a => a.isOf i m) = some a →
      let t : State := s.modBlc b fun r => { r with assurances := rest }
      (a.assured = true → (∀ x ∈ rest, x.ref ≠ a.ref) → s.giveUpAssurance b i m = t.sendHeld b (.flankDrop a.ref))
      ∧ ((a.assured = false ∨ ∃ x ∈ rest, x.ref = a.ref) → s.giveUpAssurance b i m = t) := by
  intro rest
  refine ⟨fun h => ?_, fun a ha => ?_⟩
  · have hn : (s.blcAt b).assurances.find? (fun a => a.isOf i m) = none := List.find?_eq_none.2 fun a k => by simp [h a k]
    simp only [State.giveUpAssurance, hn]
  · intro t
    have he : s.giveUpAssurance b i m = if a.assured && !(rest.any fun x => x.ref == a.ref) then
        t.sendHeld b (.flankDrop a.ref) else t := by
      rw [← show (t.blcAt b).assurances = rest by simp only [t, blcAt_modBlc_same]]
      unfold State.giveUpAssurance
      rw [ha]
      rfl
    rw [he]
    refine ⟨fun h k => if_pos ?_, fun h => if_neg ?_⟩
    · simpa [h] using k
    · rcases h with h | ⟨x, hx, hr⟩
      · simp [h]
      · simpa using fun _ => ⟨x, hx, hr⟩

theorem sendHeld_frame (c : BLink) (x : BoundaryTelegram) :
    ((s.sendHeld c x).blcAt b).outgoing = (s.blcAt b).outgoing ∧ ((s.sendHeld c x).blcAt b).link = (s.blcAt b).link
    ∧ ((s.sendHeld c x).blcAt b).outRefs = (s.blcAt b).outRefs := by
  unfold State.sendHeld
  split
  · exact ⟨rfl, rfl, rfl⟩
  · by_cases h : c = b
    · subst h; rw [blcAt_modBlc_same]; exact ⟨rfl, rfl, rfl⟩
    · rw [blcAt_modBlc_ne _ _ _ _ h]; exact ⟨rfl, rfl, rfl⟩
  · exact ⟨rfl, rfl, rfl⟩

/-- What a flank item given up leaves of a link. -/
theorem giveUpAssurance_frame (c : BLink) (i m : Nat) :
    ((s.giveUpAssurance c i m).blcAt b).outgoing = (s.blcAt b).outgoing
    ∧ ((s.giveUpAssurance c i m).blcAt b).link = (s.blcAt b).link
    ∧ ((s.giveUpAssurance c i m).blcAt b).outRefs = (s.blcAt b).outRefs := by
  have h1 : ∀ l, let t : State := s.modBlc c fun r => { r with assurances := l }
      (t.blcAt b).outgoing = (s.blcAt b).outgoing ∧ (t.blcAt b).link = (s.blcAt b).link
        ∧ (t.blcAt b).outRefs = (s.blcAt b).outRefs := by
    intro l t
    by_cases h : c = b
    · subst h; simp only [t, blcAt_modBlc_same, and_self]
    · simp only [t, blcAt_modBlc_ne _ _ _ _ h, and_self]
  unfold State.giveUpAssurance
  split
  · dsimp only
    split
    · have k := sendHeld_frame (s.modBlc c fun r => { r with assurances := r.assurances.filter fun a => !a.isOf i m }) b c
      exact ⟨(k _).1.trans (h1 _).1, (k _).2.1.trans (h1 _).2.1, (k _).2.2.trans (h1 _).2.2⟩
    · exact h1 _
  · exact ⟨rfl, rfl, rfl⟩

/-- A handover over a link, by its state (R178). -/
theorem handOver_link (n ref : Nat) (hr : (s.blcAt b).outRef n = some ref) :
    let t := s.handOver b n
    ((s.blcAt b).link = .up → t.out = s.out ++ [.boundary b (.trainHanded ref), .boundary b (.acceptEnd ref)]
      ∧ (t.blcAt b).heldBack = (s.blcAt b).heldBack)
    ∧ ((s.blcAt b).link = .sync → t.out = s.out
      ∧ (t.blcAt b).heldBack = (s.blcAt b).heldBack ++ [.trainHanded ref, .acceptEnd ref])
    ∧ ((s.blcAt b).link = .down → t.out = s.out ∧ (t.blcAt b).heldBack = (s.blcAt b).heldBack)
    ∧ (t.blcAt b).outgoing = (s.blcAt b).outgoing.tail := by
  intro t
  let u : State := (s.modBlc b fun r => { r with outgoing := r.outgoing.tail }).mark (.boundary b)
  have u1 : u.blcAt b = { s.blcAt b with outgoing := (s.blcAt b).outgoing.tail } := blcAt_modBlc_same s b _
  have u2 : u.out = s.out := by simp [u, State.modBlc]
  have ul : (u.blcAt b).link = (s.blcAt b).link := by rw [u1]
  have et : t = (u.sendHeld b (.trainHanded ref)).sendHeld b (.acceptEnd ref) := by
    show State.handOver s b n = _
    unfold State.handOver
    dsimp only
    rw [(congrArg (Blc.outRef · n) u1).trans hr]
  refine ⟨fun h => ?_, fun h => ?_, fun h => ?_, (handOver_rows s b n ref hr).1⟩
  · have h1 : ∀ (v : State) x, (v.blcAt b).link = .up → v.sendHeld b x = v.send (.boundary b x) := fun v x k => by
      simp [State.sendHeld, k]
    rw [et, h1 u _ (ul.trans h), h1 (u.send _) _ ((congrArg Blc.link (send_blcAt ..)).trans (ul.trans h))]
    rw [send_out, send_out, send_blcAt, send_blcAt, u1, u2]
    simp
  · rw [et, sendHeld_sync u b _ (ul.trans h), sendHeld_sync _ b _ (by rw [blcAt_modBlc_same]; exact ul.trans h)]
    refine ⟨by simp [State.modBlc, u2], ?_⟩
    rw [blcAt_modBlc_same, blcAt_modBlc_same, u1]
    simp
  · have h1 : ∀ (v : State) x, (v.blcAt b).link = .down → v.sendHeld b x = v := fun v x k => by
      simp [State.sendHeld, k]
    rw [et, h1 u _ (ul.trans h), h1 u _ (ul.trans h), u1]
    exact ⟨u2, rfl⟩

/-- The release of the last path item of a BOUNDARY_OUT route hands the train over: the flank items that protect the item
are given up first, then the outgoing list loses its oldest entry and the two telegrams follow (R112, R123, R178). -/
theorem releaseItem_handsOver (i : Nat) (r : Inst) (d : RouteDef) (ref : Nat) (hc : d.cls = .boundaryOut)
    (hx : s.exitLink d = some b) (hr : (s.blcAt b).outRef d.number = some ref) :
    let k := d.path.length
    let u : State := ((r.boundaryItems d).filter fun p => (d.flank[p.1 - 1]?).map FlankItem.protects == some k).foldl
      (fun (s : State) p => s.giveUpAssurance p.2 i p.1) s
    let t := s.releaseItem i r d k
    (t.blcAt b).outgoing = (s.blcAt b).outgoing.tail
    ∧ ((s.blcAt b).link = .up → t.out = u.out ++ [.boundary b (.trainHanded ref), .boundary b (.acceptEnd ref)]
      ∧ (t.blcAt b).heldBack = (u.blcAt b).heldBack)
    ∧ ((s.blcAt b).link = .sync → t.out = u.out
      ∧ (t.blcAt b).heldBack = (u.blcAt b).heldBack ++ [.trainHanded ref, .acceptEnd ref])
    ∧ ((s.blcAt b).link = .down → t.out = u.out ∧ (t.blcAt b).heldBack = (u.blcAt b).heldBack) := by
  intro k u t
  have frame : ∀ (l : List (Nat × BLink)) (s : State),
      let u := l.foldl (fun (s : State) p => s.giveUpAssurance p.2 i p.1) s
      (u.blcAt b).outgoing = (s.blcAt b).outgoing ∧ (u.blcAt b).link = (s.blcAt b).link
        ∧ (u.blcAt b).outRefs = (s.blcAt b).outRefs ∧ u.lkc = s.lkc := by
    intro l
    induction l with
    | nil => intro s; exact ⟨rfl, rfl, rfl, rfl⟩
    | cons p l ih =>
      intro s
      obtain ⟨a1, a2, a3, a4⟩ := ih (s.giveUpAssurance p.2 i p.1)
      obtain ⟨b1, b2, b3⟩ := giveUpAssurance_frame s b p.2 i p.1
      have b4 : (s.giveUpAssurance p.2 i p.1).lkc = s.lkc := by
        unfold State.giveUpAssurance State.sendHeld
        dsimp only
        (repeat' split) <;> simp [State.send]
      exact ⟨a1.trans b1, a2.trans b2, a3.trans b3, a4.trans b4⟩
  obtain ⟨u1, u2, u3, u4⟩ := frame _ s
  have hx' : u.exitLink d = some b := by
    unfold State.exitLink State.boundary? State.elem at hx ⊢
    rw [show u.lkc = s.lkc from u4]
    exact hx
  have hr' : (u.blcAt b).outRef d.number = some ref := by
    unfold Blc.outRef at hr ⊢
    rw [show (u.blcAt b).outRefs = _ from u3]
    exact hr
  have et : t = ((u.handOver b d.number).releasePathItem i d k).modInst i fun r =>
      if k = d.path.length then
        { r with pathReleased := true, acceptance := if d.cls == .boundaryOut then .released else r.acceptance }
      else
        { r with releasePtr := k + 1
                 highest := if d.cls == .shunt && k + 1 == d.path.length && r.highest == k then d.path.length else r.highest } := by
    show State.releaseItem s i r d k = _
    unfold State.releaseItem
    dsimp only
    rw [show State.exitLink _ d = some b from hx']
    dsimp only
    rw [if_pos ⟨rfl, hc⟩]
  have hw : t.wires = (u.handOver b d.number).wires := by
    rw [et]
    refine Eq.trans ?_ (releasePathItem_wires _ i d k)
    unfold State.modInst
    split <;> simp [State.wires]
  have hb : ∀ x, t.blcAt x = (u.handOver b d.number).blcAt x := fun x => by
    unfold State.blcAt
    rw [show t.blc = (u.handOver b d.number).blc from congrArg Prod.fst hw]
  have ho : t.out = (u.handOver b d.number).out := congrArg (fun p => p.2.1) hw
  obtain ⟨h1, h2, h3, h4⟩ := handOver_link u b d.number ref hr'
  rw [show (u.blcAt b).link = _ from u2] at h1 h2 h3
  rw [hb, ho]
  exact ⟨h4.trans (congrArg List.tail u1), h1, h2, h3⟩

end Sys2Proof.Machine
end

