-- ==== Sys2Proof/Laws/Lookups.lean ====
section
/-! SUPPORT. What the lookups of the catalogue and of the route instances give (R65, R96), and what the tests of a RE-CLEAR,
of a boundary request and of a neighbour's FLANK-ASK ask (R79, R97, R114, R166, R173); what an instance's lists and a route's
path and overlap sections hold (R13, R80, R119, R121); who holds an element, which position is wanted, how a retest pass goes
on (R31, R139, R154); how acceptance and direction are asked over a link (R168, R173, R177 to R180). -/

set_option Elab.async false

namespace Sys2Proof.Machine

variable (s : State)

/-! ### The catalogue (R65) -/

/-- The variants of a pair: its definitions that are not BOUNDARY_IN, in ascending rank. -/
theorem variants_rows (entry exit : Nat) :
    (∀ d, d ∈ s.variants entry exit ↔ d ∈ s.rcat ∧ d.entry = entry ∧ d.exit = exit ∧ d.cls ≠ .boundaryIn
      ∧ 1 ≤ d.rank ∧ d.rank ≤ 4)
    ∧ (s.variants entry exit).Pairwise fun a b => a.rank ≤ b.rank := by
  unfold State.variants
  refine ⟨fun d => ?_, ?_⟩
  · simp only [List.mem_flatMap, List.mem_filter, Bool.and_eq_true, beq_iff_eq, bne_iff_ne, List.mem_cons, List.not_mem_nil,
      or_false]
    constructor
    · rintro ⟨k, hk, ⟨h, ⟨h1, h2⟩, h3⟩, rfl⟩
      exact ⟨h, h1, h2, h3, by omega, by omega⟩
    · rintro ⟨h, h1, h2, h3, h4, h5⟩
      exact ⟨d.rank, by omega, ⟨h, ⟨h1, h2⟩, h3⟩, rfl⟩
  · rw [List.pairwise_flatMap]
    refine ⟨fun k _ => ?_, ?_⟩
    · refine List.Pairwise.imp_of_mem (R := fun _ _ => True) ?_ (List.pairwise_iff_forall_sublist.2 fun _ => trivial)
      intro a b ha hb _
      have := (List.mem_filter.1 ha).2
      have := (List.mem_filter.1 hb).2
      simp_all
    · refine List.Pairwise.imp (R := fun a b => a ≤ b) ?_ (by decide)
      intro k m hk a ha b hb
      have := (List.mem_filter.1 ha).2
      have := (List.mem_filter.1 hb).2
      simp_all

theorem rankOne_rows (entry exit : Nat) :
    (s.rankOne entry exit = none ↔ ∀ d ∈ s.variants entry exit, d.rank ≠ 1)
    ∧ ∀ n, s.rankOne entry exit = some n → ∃ d ∈ s.variants entry exit, d.rank = 1 ∧ d.number = n := by
  unfold State.rankOne
  refine ⟨by simp [List.find?_eq_none], fun n h => ?_⟩
  obtain ⟨d, hd, rfl⟩ := Option.map_eq_some_iff.1 h
  exact ⟨d, List.mem_of_find?_eq_some hd, by simpa using List.find?_some hd, rfl⟩

theorem isEntry_iff (e : Nat) : s.isEntry e = true ↔ ∃ d ∈ s.rcat, d.entry = e ∧ d.cls ≠ .boundaryIn := by
  simp [State.isEntry]

/-- The BOUNDARY_IN definition a boundary and an incoming reference name. -/
theorem incomingRoute_rows (b : BLink) (ref : Nat) :
    let names := fun (d : RouteDef) => d.cls = .boundaryIn ∧ d.entry = s.boundaryElem b ∧ d.inRef = some ref
    (s.incomingRoute b ref = none ↔ ∀ d ∈ s.rcat, ¬names d)
    ∧ (∀ d, s.incomingRoute b ref = some d → d ∈ s.rcat ∧ names d)
    ∧ ∀ d ∈ s.rcat, names d → (∀ x ∈ s.rcat, names x → x = d) → s.incomingRoute b ref = some d := by
  intro names
  have test : ∀ d : RouteDef, (d.cls == .boundaryIn && d.entry == s.boundaryElem b && d.inRef == some ref) = true ↔ names d :=
    fun d => by simp [names, and_assoc]
  have gives : ∀ d, s.incomingRoute b ref = some d → d ∈ s.rcat ∧ names d := fun d h =>
    ⟨List.mem_of_find?_eq_some h, (test d).1 (by simpa using List.find?_some h)⟩
  have gone : s.incomingRoute b ref = none ↔ ∀ d ∈ s.rcat, ¬names d := by
    unfold State.incomingRoute
    rw [List.find?_eq_none]
    exact forall_congr' fun d => forall_congr' fun _ => not_congr (test d)
  refine ⟨gone, gives, fun d hd hn hu => ?_⟩
  cases h : s.incomingRoute b ref with
  | none => exact absurd hn (gone.1 h d hd)
  | some x => rw [hu x (gives x h).1 (gives x h).2]

/-! ### The entry instance (R96) -/

/-- The entry instance of an element: the lowest record with that entry, its pointer 1 and path item 1 not released. -/
theorem entryInst_rows (e : Nat) :
    let enters := fun i (r : Inst) (d : RouteDef) =>
      s.live i = some (r, d) ∧ d.entry = e ∧ r.releasePtr = 1 ∧ r.pathReleased = false
    (s.entryInst e = none ↔ ∀ i r d, i < 48 → ¬enters i r d)
    ∧ (∀ i r d, s.entryInst e = some (i, r, d) ↔ i < 48 ∧ enters i r d ∧ ∀ j r' d', j < i → ¬enters j r' d') := by
  intro enters
  let f : Nat → Option (Nat × Inst × RouteDef) := fun i =>
    match s.live i with
    | some (r, d) => if d.entry == e && r.releasePtr == 1 && !r.pathReleased then some (i, r, d) else none
    | none => none
  have hf : ∀ i j r d, f i = some (j, r, d) ↔ j = i ∧ enters i r d := by
    intro i j r d
    simp only [f, enters]
    cases h : s.live i with
    | none => simp
    | some p =>
      obtain ⟨r', d'⟩ := p
      dsimp only
      split
      · rename_i k
        simp only [Bool.and_eq_true, beq_iff_eq, Bool.not_eq_true'] at k
        simp only [Option.some.injEq, Prod.mk.injEq]
        constructor
        · rintro ⟨rfl, rfl, rfl⟩
          exact ⟨rfl, ⟨rfl, rfl⟩, k.1.1, k.1.2, k.2⟩
        · rintro ⟨rfl, ⟨rfl, rfl⟩, -⟩
          exact ⟨rfl, rfl, rfl⟩
      · rename_i k
        simp only [reduceCtorEq, false_iff, Option.some.injEq, Prod.mk.injEq]
        rintro ⟨-, ⟨rfl, rfl⟩, h1, h2, h3⟩
        exact k (by simp [h1, h2, h3])
  have hn : ∀ i, f i = none ↔ ∀ r d, ¬enters i r d := fun i => by
    constructor
    · intro h r d k
      have := (hf i i r d).2 ⟨rfl, k⟩
      rw [h] at this
      cases this
    · intro h
      cases k : f i with
      | none => rfl
      | some p => exact absurd ((hf i p.1 p.2.1 p.2.2).1 k).2 (h _ _)
  have he : s.entryInst e = instNumbers.findSome? f := rfl
  refine ⟨?_, fun i r d => ?_⟩
  · rw [he, List.findSome?_eq_none_iff]
    constructor
    · exact fun h i r d hi => (hn i).1 (h i (List.mem_range.2 hi)) r d
    · exact fun h i hi => (hn i).2 fun r d => h i r d (List.mem_range.1 hi)
  · rw [he, List.findSome?_eq_some_iff]
    constructor
    · rintro ⟨pre, x, post, hl, hx, hp⟩
      obtain ⟨rfl, k⟩ := (hf x i r d).1 hx
      have hlen : pre.length = i := by
        have := congrArg (fun l => l[pre.length]?) hl
        simp only [instNumbers, Config.instCount, List.getElem?_append_right (Nat.le_refl _), Nat.sub_self,
          List.getElem?_cons_zero] at this
        rw [List.getElem?_range] at this
        · simpa using this
        · have := congrArg List.length hl
          simp [instNumbers, Config.instCount] at this
          omega
      have hi : i ∈ instNumbers := hl ▸ List.mem_append_right _ (List.mem_cons_self ..)
      refine ⟨List.mem_range.1 hi, k, fun j r' d' hj => (hn j).1 (hp j ?_) r' d'⟩
      have : instNumbers[j]? = some j := by
        have := List.mem_range.1 hi
        simp only [instNumbers]
        rw [List.getElem?_range (by omega)]
      rw [hl, List.getElem?_append_left (by omega)] at this
      exact List.mem_of_getElem? this
    · rintro ⟨hi, k, hp⟩
      refine ⟨List.range i, i, List.range' (i + 1) (47 - i), ?_, (hf i i r d).2 ⟨rfl, k⟩, fun j hj => (hn j).2 fun r' d' =>
        hp j r' d' (List.mem_range.1 hj)⟩
      simp only [instNumbers, Config.instCount, List.range_eq_range']
      rw [show i :: List.range' (i + 1) (47 - i) = List.range' i (48 - i) by
        rw [show 48 - i = (47 - i) + 1 by omega, List.range'_succ]]
      have hr := List.range'_append_1 (s := 0) (m := i) (n := 48 - i)
      rw [Nat.zero_add, show i + (48 - i) = 48 by omega] at hr
      exact hr.symm

/-! ### Supervision causes (R79, R97) -/

theorem causeBars_iff (c : Cause) (e : Nat) :
    s.causeBars (c, e) = true ↔ c = .suspect ∨ c = .assuranceLost ∨ c = .acceptanceLost
      ∨ (c = .linkDown ∧ ∀ r, s.boundary? e = some r → (s.blcAt r.link).link ≠ .up) := by
  cases c <;> simp [State.causeBars]
  cases s.boundary? e <;> simp

theorem addCause_rows (c : Cause) (e : Nat) (l : List (Cause × Nat)) :
    ((∃ x, (c, x) ∈ l) → addCause c e l = l) ∧ ((∀ x, (c, x) ∉ l) → addCause c e l = l ++ [(c, e)]) := by
  unfold addCause
  refine ⟨fun ⟨x, h⟩ => if_pos (List.any_eq_true.2 ⟨_, h, by simp⟩), fun h => if_neg fun k => ?_⟩
  obtain ⟨p, hp, hc⟩ := List.any_eq_true.1 k
  exact h p.2 (by have := beq_iff_eq.1 hc; subst this; exact hp)

/-! ### The line and the direction (R166, R173) -/

theorem isClear_iff (e : Nat) : s.isClear e = true ↔ ∃ k, s.track? e = some k ∧ k.occupancy = .clear := by
  unfold State.isClear State.occ
  cases s.track? e <;> simp

theorem lineClear_iff (b : BLink) :
    s.lineClear b = true ↔ (∀ e ∈ (s.blcAt b).lineSections, ∃ k, s.track? e = some k ∧ k.occupancy = .clear)
      ∧ (s.blcAt b).neighbourClear = true ∧ (s.blcAt b).link = .up := by
  simp only [State.lineClear, State.lineFree, Bool.and_eq_true, List.all_eq_true, isClear_iff, beq_iff_eq, and_assoc]

/-- The tests of a direction request after the first two rows of R173. -/
theorem directionTests_iff (b : BLink) :
    s.directionTests b = true ↔ (s.blcAt b).link = .up ∧ (s.blcAt b).change = .idle ∧ (s.blcAt b).isOpen = true
      ∧ s.lineClear b = true ∧ (s.blcAt b).incoming = [] ∧ (s.blcAt b).inAsks = [] := by
  simp only [State.directionTests, Bool.and_eq_true, beq_iff_eq, List.isEmpty_iff, and_assoc]

theorem statusOf_rows (b : BLink) :
    ((s.statusOf b).lineClear = true ↔ ∀ e ∈ (s.blcAt b).lineSections, ∃ k, s.track? e = some k ∧ k.occupancy = .clear)
    ∧ (s.statusOf b).direction = (s.blcAt b).direction
    ∧ (s.statusOf b).pendingRefs = (s.blcAt b).inAsks.map RefInst.ref := by
  refine ⟨?_, rfl, rfl⟩
  simp only [State.statusOf, State.ownLineClear, List.all_eq_true, isClear_iff]

/-! ### A neighbour's flank ask (R114) -/

/-- A FLANK-ASK by the offer it names, the claimants of the element's entry and the claim test. -/
theorem flankAsk_rows (b : BLink) (ref : Nat) :
    ((∀ o ∈ (s.blcAt b).offers, o.1 ≠ ref) → s.flankAsk b ref = (s, false))
    ∧ ∀ pre t post, (s.blcAt b).offers = pre ++ (ref, t) :: post → (∀ o ∈ pre, o.1 ≠ ref) →
      let held := ∃ f, s.claim? (s.flankRef (FlankTarget.elem t)) = some f ∧ .boundary b ref ∈ f.claimants
      (held → s.flankAsk b ref = (s, true))
      ∧ (¬held → s.claimOk [] t true = true → s.flankAsk b ref = (s.takeClaim (.boundary b ref) t, true))
      ∧ (¬held → s.claimOk [] t true = false → s.flankAsk b ref = (s, false)) := by
  unfold State.flankAsk
  refine ⟨fun h => ?_, fun pre t post ho hp => ?_⟩
  · rw [List.find?_eq_none.2 fun o k => by simpa using h o k]
  · have hf : (s.blcAt b).offers.find? (fun o => o.1 == ref) = some (ref, t) := by
      rw [ho, List.find?_append, List.find?_eq_none.2 fun o k => by simpa using hp o k]
      simp
    rw [hf]
    dsimp only
    have hh : ((s.claim? (s.flankRef (FlankTarget.elem t))).any fun f => f.claimants.contains (.boundary b ref)) = true ↔
        ∃ f, s.claim? (s.flankRef (FlankTarget.elem t)) = some f ∧ .boundary b ref ∈ f.claimants := by
      cases s.claim? (s.flankRef (FlankTarget.elem t)) <;> simp
    refine ⟨fun k => if_pos (hh.2 k), fun k c => ?_, fun k c => ?_⟩
    · rw [if_neg (mt hh.1 k), if_pos c]
    · rw [if_neg (mt hh.1 k), c]; rfl

/-! ### The RIM's lists (R80, R119, R121) -/

theorem mem_indexFrom1 {α : Type} (l : List α) (m : Nat) (a : α) :
    (m, a) ∈ indexFrom1 l ↔ 1 ≤ m ∧ l[m - 1]? = some a := mem_indexed l m a

/-- Where an instance locks a point, and the CLAIMED flank items that stand on an element (R13, R80). -/
theorem lists_rows (r : Inst) (d : RouteDef) (e : Nat) :
    (r.locksPoint d e = true ↔ (∃ it ∈ r.openItems d, ∃ x ∈ it.points, x.point = e)
      ∨ (r.overlapHeld = true ∧ ∃ it, d.overlap = some it ∧ ∃ x ∈ it.points, x.point = e))
    ∧ ∀ m, m ∈ r.flankOn d e ↔ 1 ≤ m ∧ ∃ f c t, d.flank[m - 1]? = some f ∧ r.flank[m - 1]? = some c
      ∧ c.status = .claimed ∧ r.unreleased f.protects = true ∧ chosenTarget f c.alternative = some t
      ∧ FlankTarget.elem t = e := by
  refine ⟨?_, fun m => ?_⟩
  · simp [Inst.locksPoint, hasPoint]
  · unfold Inst.flankOn
    simp only [List.mem_filterMap]
    constructor
    · rintro ⟨⟨k, f, c⟩, hk, h⟩
      obtain ⟨h1, h2⟩ := (mem_indexFrom1 _ _ _).1 hk
      rw [List.getElem?_zip_eq_some] at h2
      dsimp only at h
      split at h
      · rename_i hc
        simp only [Bool.and_eq_true, beq_iff_eq, Option.map_eq_some_iff] at hc
        obtain ⟨⟨hs, hu⟩, t, ht, he⟩ := hc
        obtain rfl : k = m := by simpa using h
        exact ⟨h1, f, c, t, h2.1, h2.2, hs, hu, ht, he⟩
      · cases h
    · rintro ⟨hm, f, c, t, hf, hc, hs, hu, ht, he⟩
      refine ⟨(m, f, c), (mem_indexFrom1 _ _ _).2 ⟨hm, List.getElem?_zip_eq_some.2 ⟨hf, hc⟩⟩, ?_⟩
      simp [hs, hu, ht, he]

theorem mem_indexedPath (d : RouteDef) (k : Nat) (it : PathItem) :
    (k, it) ∈ indexedPath d ↔ 1 ≤ k ∧ d.path[k - 1]? = some it := mem_indexFrom1 d.path k it

/-- The index of a section in the path: that of the first item with it; the overlap's follows the last (R121). -/
theorem pathIndex_rows (d : RouteDef) (e : Nat) :
    (∀ j, pathIndex d e = some j ↔ 1 ≤ j ∧ (∃ it, d.path[j - 1]? = some it ∧ it.sect = e)
      ∧ ∀ k it, 1 ≤ k → k < j → d.path[k - 1]? = some it → it.sect ≠ e)
    ∧ ∀ j, seqIndex d e = some j ↔ pathIndex d e = some j
      ∨ (pathIndex d e = none ∧ (∃ it, d.overlap = some it ∧ it.sect = e) ∧ j = d.path.length + 1) := by
  have entry : ∀ n, (indexedPath d)[n]? = (d.path[n]?).map fun it => (n + 1, it) := fun n => by
    unfold indexedPath
    cases h : d.path[n]? with
    | none =>
      rw [List.getElem?_eq_none_iff] at h
      simp only [Option.map_none, List.getElem?_eq_none_iff, List.length_zip, List.length_range']
      omega
    | some it =>
      rw [Option.map_some, List.getElem?_zip_eq_some]
      refine ⟨?_, h⟩
      rw [List.getElem?_range' (List.getElem?_eq_some_iff.1 h).1]
      congr 1
      omega
  refine ⟨fun j => ?_, fun j => ?_⟩
  · unfold pathIndex
    rw [Option.map_eq_some_iff]
    constructor
    · rintro ⟨⟨k, it⟩, hf, rfl⟩
      obtain ⟨hs, n, hn, hx, hp⟩ := List.find?_eq_some_iff_getElem.1 hf
      have hx' := List.getElem?_eq_some_iff.2 ⟨hn, hx⟩
      rw [entry] at hx'
      obtain ⟨it', h1, h2⟩ := Option.map_eq_some_iff.1 hx'
      obtain ⟨rfl, rfl⟩ := Prod.mk.injEq .. ▸ h2
      refine ⟨by omega, ⟨it', h1, by simpa using hs⟩, fun k it hk hl hi he => ?_⟩
      have hl' : k - 1 < n := by omega
      have := hp (k - 1) hl'
      have hg : (indexedPath d)[k - 1]? = some (k - 1 + 1, it) := by rw [entry, hi]; rfl
      rw [(List.getElem?_eq_some_iff.1 hg).2] at this
      simp [he] at this
    · rintro ⟨hj, ⟨it, hi, he⟩, hp⟩
      refine ⟨(j, it), List.find?_eq_some_iff_getElem.2 ⟨by simp [he], j - 1, ?_⟩, rfl⟩
      have hg : (indexedPath d)[j - 1]? = some (j, it) := by
        rw [entry, hi, Option.map_some, show j - 1 + 1 = j by omega]
      obtain ⟨hl, hx⟩ := List.getElem?_eq_some_iff.1 hg
      refine ⟨hl, hx, fun n hn => ?_⟩
      have hn' : (indexedPath d)[n]? = some (indexedPath d)[n] := List.getElem?_eq_some_iff.2 ⟨by omega, rfl⟩
      rw [entry] at hn'
      obtain ⟨x, h1, h2⟩ := Option.map_eq_some_iff.1 hn'
      rw [← h2]
      simpa using hp (n + 1) x (by omega) (by omega) (by simpa using h1)
  · unfold seqIndex
    cases pathIndex d e with
    | some k => simp
    | none =>
      unfold overlapSect
      cases d.overlap with
      | none => simp
      | some it =>
        simp only [Option.map_some, beq_iff_eq, Option.some.injEq]
        split
        · simp_all [eq_comm]
        · simp_all

theorem mem_sectionsAhead (d : RouteDef) (e : Nat) :
    e ∈ s.sectionsAhead d ↔ ∃ k it, 2 ≤ k ∧ d.path[k - 1]? = some it ∧ it.sect = e ∧ s.isClear e = false
      ∧ ¬(d.cls = .shunt ∧ k = d.path.length ∧ ∃ x, s.track? e = some x ∧ x.occupancy = .occupied) := by
  have ho : ∀ e, s.occ e = .occupied ↔ ∃ x, s.track? e = some x ∧ x.occupancy = .occupied := fun e => by
    unfold State.occ
    cases s.track? e <;> simp
  unfold State.sectionsAhead
  simp only [List.mem_map, List.mem_filter, Bool.and_eq_true, Bool.not_eq_true', decide_eq_true_eq]
  constructor
  · rintro ⟨⟨k, it⟩, ⟨hm, ⟨hk, hc⟩, hs⟩, rfl⟩
    refine ⟨k, it, hk, ((mem_indexedPath _ _ _).1 hm).2, rfl, hc, fun ⟨h1, h2, h3⟩ => ?_⟩
    rw [(ho _).2 h3] at hs
    simp [shuntLast, h1, h2] at hs
  · rintro ⟨k, it, hk, hi, rfl, hc, hs⟩
    refine ⟨(k, it), ⟨(mem_indexedPath _ _ _).2 ⟨by omega, hi⟩, ⟨hk, hc⟩, ?_⟩, rfl⟩
    refine Bool.eq_false_iff.2 fun h => hs ?_
    simp only [shuntLast, Bool.and_eq_true, beq_iff_eq] at h
    exact ⟨h.1.1, h.1.2, (ho _).1 h.2⟩

/-! ### Authority, the wanted position and the store (R31, R139, R154) -/

/-- A position is wanted by a lock, by a claim, or by the operator against none of either (R31). -/
theorem wanted_iff (p : PointRec) (q : Pos) (operator : Bool) : s.wanted p q operator = true ↔
    (∃ i role, p.lock = .held i role q) ∨ (∃ f, s.claim? p.flankRef = some f ∧ f.required = .pos q)
      ∨ (operator = true ∧ (∀ i role, p.lock ≠ .held i role (oppositePos q))
        ∧ ∀ f, s.claim? p.flankRef = some f → f.required ≠ .pos (oppositePos q)) := by
  have hc : ∀ q, s.claimPos p = some q ↔ ∃ f, s.claim? p.flankRef = some f ∧ f.required = .pos q := fun q => by
    unfold State.claimPos
    cases h : s.claim? p.flankRef with
    | none => simp
    | some f => cases hf : f.required <;> simp [hf]
  have hl : ∀ q, p.lockPos = some q ↔ ∃ i role, p.lock = .held i role q := fun q => by
    unfold PointRec.lockPos
    cases p.lock <;> simp
  unfold State.wanted
  simp only [Bool.or_eq_true, Bool.and_eq_true, beq_iff_eq, bne_iff_ne, ne_eq, hc, hl, not_exists, not_and, or_assoc,
    and_assoc]

theorem holdsArea_iff (l : OpLink) (a : Nat) : s.holdsArea l a = true ↔ a < 16 ∧ (s.areaRec a).holder = holderOf l := by
  simp [State.holdsArea]

theorem holdsElem_iff (l : OpLink) (e : Nat) :
    s.holdsElem l e = true ↔ ∃ a, (s.elem e).area? = some a ∧ s.holdsArea l a = true := by
  unfold State.holdsElem
  cases (s.elem e).area? <;> simp

/-- The pass presents its oldest marked entry, or ends. -/
theorem nextRetest_rows :
    (∀ pre e post, s.rqs.store = pre ++ e :: post → (∀ x ∈ pre, x.passMark = false) → e.passMark = true →
      s.nextRetest = { s with
        rqs := { s.rqs with
          store := modEntry e.route (fun (x : StoreEntry) => { x with passMark := false, presented := true }) s.rqs.store }
        rim := { s.rim with requests := s.rim.requests ++ [.retest e.route] } })
    ∧ ((∀ x ∈ s.rqs.store, x.passMark = false) → s.nextRetest = s.endPass) := by
  refine ⟨fun pre e post h hp he => ?_, fun h => ?_⟩
  · have : s.nextMarked = some e := by
      unfold State.nextMarked
      rw [h, List.find?_append, List.find?_eq_none.2 (by simpa using hp)]
      simp [he]
    unfold State.nextRetest State.presentMarked
    simp only [this]
  · have : s.nextMarked = none := List.find?_eq_none.2 (by simpa using h)
    unfold State.nextRetest
    simp only [this]

/-- A pass ends, or a rerun starts with the oldest entry of a store that is not empty. -/
theorem endPass_rows :
    let plain := s.rqs.store.map (fun (e : StoreEntry) => { e with passMark := false })
    (s.rqs.rerun = false → s.endPass = { s with rqs := { s.rqs with store := plain, running := false } })
    ∧ (s.rqs.rerun = true → s.rqs.store = [] → s.endPass = { s with rqs := { s.rqs with running := false, rerun := false } })
    ∧ ∀ y rest, s.rqs.rerun = true → s.rqs.store = y :: rest →
      s.endPass.rqs.running = true ∧ s.endPass.rqs.rerun = false
      ∧ s.endPass.rim = { s.rim with requests := s.rim.requests ++ [.retest y.route] } :=
  ⟨fun h => by simp [State.endPass, h], fun h k => by simp [State.endPass, h, k],
    fun y rest h k => by simp [State.endPass, State.startPass, State.presentMarked, State.nextMarked, h, k]⟩

/-- A lifted entry goes back, or leaves by what befell it meanwhile. -/
theorem putBack_rows (e : StoreEntry) :
    (e.expired = true → s.putBack e = (s.removeEntry e .expired).answerCancel e .accepted)
    ∧ (e.expired = false → e.waitingCancel ≠ none → s.putBack e = (s.removeEntry e .cancelled).answerCancel e .accepted)
    ∧ (e.expired = false → e.waitingCancel = none → s.holdsArea e.link e.area = false →
      s.putBack e = s.removeEntry e .authorityLost)
    ∧ (e.expired = false → e.waitingCancel = none → s.holdsArea e.link e.area = true →
      s.putBack e = { s with rqs := { s.rqs with
        store := modEntry e.route (fun (x : StoreEntry) => { x with lifted := false }) s.rqs.store } }) := by
  unfold State.putBack
  refine ⟨fun h => by simp [h], fun h k => ?_, fun h k m => by simp [h, k, m], fun h k m => by simp [h, k, m]⟩
  obtain ⟨x, hx⟩ := Option.ne_none_iff_exists'.1 k
  simp [h, hx]

/-! ### Acceptance and direction over a link (R168, R173, R177 to R180) -/

theorem givesAny_iff (b : BLink) : s.givesAny b = true ↔ (s.blcAt b).incoming ≠ [] ∨ (s.blcAt b).inAsks ≠ []
    ∨ ∃ n f ref, s.fctEntry n = some f ∧ .boundary b ref ∈ f.claimants := by
  have hg : s.givenRefs b ≠ [] ↔ ∃ n f ref, s.fctEntry n = some f ∧ .boundary b ref ∈ f.claimants := by
    constructor
    · intro h
      obtain ⟨ref, hr⟩ := List.exists_mem_of_ne_nil _ h
      obtain ⟨n, f, hf, hc⟩ := (mem_givenRefs s b ref).1 hr
      exact ⟨n, f, ref, hf, hc⟩
    · rintro ⟨n, f, ref, hf, hc⟩
      exact List.ne_nil_of_mem ((mem_givenRefs s b ref).2 ⟨n, f, hf, hc⟩)
  rw [← hg]
  simp [State.givesAny, or_assoc]

theorem requestDirection_rows (b : BLink) :
    (s.directionTests b = true → s.requestDirection b =
      (s.modBlc b fun r => { r with change := .asking, changeTimer := .running 40 }).send (.boundary b .dirAsk))
    ∧ (s.directionTests b = false → s.requestDirection b = s.notify (.directionFailed b)) := by
  refine ⟨fun h => ?_, fun h => by simp [State.requestDirection, h]⟩
  have hu := ((directionTests_iff s b).1 h).1
  simp only [State.requestDirection, h, if_true, State.askDirection, State.sendNow, blcAt_modBlc_same, hu]
  rfl

/-- The boundary element of a link is its lowest. -/
theorem boundaryElem_eq (b : BLink) {e : Nat} {r : BoundaryRec} (h : s.boundary? e = some r) (hl : r.link = b)
    (hn : ∀ x y, x < e → s.boundary? x = some y → y.link ≠ b) : s.boundaryElem b = e := by
  have hb : ∀ x y, s.boundary? x = some y ↔ s.elem x = .boundary y := fun x y => by
    unfold State.boundary?
    cases s.elem x <;> simp
  have he : e < 256 := by
    rcases Nat.lt_or_ge e 256 with k | k
    · exact k
    · have := (hb e r).1 h
      simp [State.elem, Vector.getD, Nat.not_lt.2 k] at this
  let names : Nat → Bool := fun e =>
    match s.elem e with
    | .boundary r => r.link == b
    | _ => false
  have hf : (List.range Config.elementCount).find? names = some e := by
    refine List.find?_range_eq_some.2 ⟨?_, List.mem_range.2 he, fun x hx => ?_⟩
    · simp only [names, (hb e r).1 h, hl, beq_self_eq_true]
    · dsimp only [names]
      split
      · rename_i y hy
        simpa using hn x y hx ((hb x y).2 hy)
      · rfl
  have : s.boundaryElem b = ((List.range Config.elementCount).find? names).getD Config.elementCount := rfl
  rw [this, hf]
  rfl

theorem askWaits_iff (b : BLink) : s.askWaits b = true ↔ ∃ ref n, .incoming b ref n ∈ s.rim.requests := by
  unfold State.askWaits
  rw [List.any_eq_true]
  constructor
  · rintro ⟨q, hq, h⟩
    split at h
    · obtain rfl := beq_iff_eq.1 h; exact ⟨_, _, hq⟩
    · cases h
  · rintro ⟨ref, n, h⟩
    exact ⟨_, h, by simp⟩

theorem sendHeld_rows (b : BLink) (x : BoundaryTelegram) :
    ((s.blcAt b).link = .up → s.sendHeld b x = s.send (.boundary b x))
    ∧ ((s.blcAt b).link = .sync → s.sendHeld b x = s.modBlc b fun r => { r with heldBack := r.heldBack ++ [x] })
    ∧ ((s.blcAt b).link = .down → s.sendHeld b x = s) := by
  unfold State.sendHeld
  exact ⟨fun h => by simp only [h], fun h => by simp only [h], fun h => by simp only [h]⟩

/-- An acceptance asked for: refused at once, sent with its response timer, or held back without one (R177). -/
theorem askAcceptance_rows (b : BLink) (i n : Nat) :
    let r := s.blcAt b
    let t := s.askAcceptance b i n
    ((r.outRef n = none ∨ r.link = .down ∨ r.direction ≠ .outward ∨ r.isOpen = false ∨ r.outgoing ≠ [] ∨ r.outAsks ≠ []) →
      t = s.notify (.acceptanceRefused i))
    ∧ ∀ ref, r.outRef n = some ref → r.direction = .outward → r.isOpen = true → r.outgoing = [] → r.outAsks = [] →
      (r.link = .up → t.blcAt b = { r with outAsks := [⟨ref, i, .running 40⟩] }
        ∧ t.out = s.out ++ [.boundary b (.acceptAsk ref)])
      ∧ (r.link = .sync → t.blcAt b = { r with
          outAsks := [⟨ref, i, .stopped⟩], heldBack := r.heldBack ++ [.acceptAsk ref] }
        ∧ t.out = s.out) := by
  intro r t
  have ht : t = match r.outRef n with
      | some ref =>
        if r.link != .down && r.direction == .outward && r.isOpen && r.outgoing.isEmpty && r.outAsks.isEmpty then
          (s.modBlc b fun r => { r with outAsks := r.outAsks ++ [⟨ref, i, .stopped⟩] }).sendAsk b (.acceptAsk ref)
        else s.notify (.acceptanceRefused i)
      | none => s.notify (.acceptanceRefused i) := rfl
  refine ⟨fun h => ?_, fun ref hr hd ho h1 h2 => ?_⟩
  · rw [ht]
    cases hr : r.outRef n with
    | none => rfl
    | some ref =>
      refine if_neg fun k => ?_
      simp only [Bool.and_eq_true, bne_iff_ne, beq_iff_eq, List.isEmpty_iff] at k
      rcases h with h | h | h | h | h | h
      · rw [hr] at h; cases h
      · exact k.1.1.1.1 h
      · exact h k.1.1.1.2
      · rw [h] at k; simp at k
      · exact h k.1.2
      · exact h k.2
  · rw [hr] at ht
    let u : State := s.modBlc b fun r => { r with outAsks := r.outAsks ++ [⟨ref, i, .stopped⟩] }
    have hu : u.blcAt b = { r with outAsks := [⟨ref, i, .stopped⟩] } := by
      rw [show u = s.modBlc b _ from rfl, blcAt_modBlc_same]
      exact congrArg (fun l => ({ r with outAsks := l ++ [⟨ref, i, .stopped⟩] } : Blc)) h2
    have uo : u.out = s.out := by simp [u, State.modBlc]
    have hs : r.link ≠ .down → t = u.sendAsk b (.acceptAsk ref) := fun h => by
      rw [ht]; exact if_pos (by simp [h, hd, ho, h1, h2])
    refine ⟨fun hl => ?_, fun hl => ?_⟩
    · have : t = State.flushOne b u (.acceptAsk ref) := by
        rw [hs (by simp [hl]), State.sendAsk, hu]; simp only [hl]
      rw [this]
      obtain ⟨i1, -, i3, -⟩ := flushed_rows u b [.acceptAsk ref]
      refine ⟨i1.trans ?_, i3.trans (by rw [uo]; rfl)⟩
      rw [hu]
      exact (startTimerOf_rows _ ref).1 [] ⟨ref, i, .stopped⟩ [] rfl (fun _ h => nomatch h) rfl rfl
    · have : t = u.sendHeld b (.acceptAsk ref) := by
        rw [hs (by simp [hl]), State.sendAsk, hu]; simp only [hl]
      rw [this, (sendHeld_rows u b _).2.1 (by rw [hu]; exact hl)]
      refine ⟨by rw [blcAt_modBlc_same, hu], ?_⟩
      rw [← uo]; simp [State.modBlc]

/-- An instance's acceptance given up (R177). -/
theorem giveUpAcceptance_rows (b : BLink) (i : Nat) :
    (∀ a, (s.blcAt b).outAsks.find? (fun a => a.inst == i) = some a → s.giveUpAcceptance b i =
      (s.modBlc b fun r => { r with outAsks := r.outAsks.filter fun a => a.inst != i }).sendHeld b (.acceptWithdraw a.ref))
    ∧ ((s.blcAt b).outAsks.find? (fun a => a.inst == i) = none →
      (∀ a, (s.blcAt b).outgoing.find? (fun a => a.inst == i) = some a → s.giveUpAcceptance b i =
        (s.modBlc b fun r => { r with outgoing := r.outgoing.filter fun a => a.inst != i }).sendHeld b
          (.acceptWithdraw a.ref))
      ∧ ((s.blcAt b).outgoing.find? (fun a => a.inst == i) = none → s.giveUpAcceptance b i = s)) := by
  unfold State.giveUpAcceptance
  exact ⟨fun a h => by simp only [h], fun h => ⟨fun a k => by simp only [h, k], fun k => by simp only [h, k]⟩⟩

/-- The end of a pending ask of the neighbour: given or refused as the route clears, refused as it fails (R178). -/
theorem pendingAsk_rows (b : BLink) (i : Nat) :
    ((s.blcAt b).inAsks.find? (fun a => a.inst == i) = none → s.acceptanceCleared b i = s ∧ s.refusePending b i = s)
    ∧ ∀ a, (s.blcAt b).inAsks.find? (fun a => a.inst == i) = some a →
      ((s.blcAt b).direction = .inward → s.acceptanceCleared b i =
        (s.modBlc b fun r => { r with
          inAsks := r.inAsks.filter (fun a => a.inst != i), incoming := r.incoming ++ [⟨a.ref, i, false, false⟩] }).sendHeld b
          (.acceptGive a.ref))
      ∧ ((s.blcAt b).direction ≠ .inward → s.acceptanceCleared b i =
        ((s.modBlc b fun r => { r with inAsks := r.inAsks.filter fun a => a.inst != i }).sendHeld b
          (.acceptRefuse a.ref .direction)).notify (.withdrawn i))
      ∧ s.refusePending b i = ((s.modBlc b fun r => { r with inAsks := r.inAsks.filter fun a => a.inst != i }).sendHeld b
          (.acceptRefuse a.ref .unavailable)).checkLost b := by
  unfold State.acceptanceCleared State.refusePending
  refine ⟨fun h => by simp only [h]; exact ⟨trivial, trivial⟩, fun a h => ?_⟩
  simp only [h]
  exact ⟨fun k => by simp [k], fun k => by rw [if_neg (by simpa using k)], trivial⟩

end Sys2Proof.Machine
end

