-- ==== Sys2Proof/Laws/Counters.lean ====
section
/-! SUPPORT. What the counters, the answers and an idle step do: a counter with its saturation (R157, R163), the write an
operation brings (R164), an answer and its REFUSED (R156), a stack lifetime (R67), the variants of a pair and the answer of a
waiting STORE-CANCEL (R65, R144), and the timers of an idle step record by record. -/

set_option Elab.async false

namespace Sys2Proof.Machine

/-! ### An idle step -/

/-- An idle step ticks each record's own timers; only timers change. -/
theorem tick_rows (s : State) :
    (∀ e, s.tick.drive e = (s.drive e).map fun d => { d with timer := d.timer.tick })
    ∧ (∀ e, s.tick.cmd e = { s.cmd e with awaiting := (s.cmd e).awaiting.tick })
    ∧ (∀ i, s.tick.inst i = (s.inst i).map fun r => { r with
        setting := r.setting.tick, approach := r.approach.tick, overlapTimer := r.overlapTimer.tick
        emergency := r.emergency.tick })
    ∧ (∀ l, s.tick.rim.sel.get l = (s.rim.sel.get l).map fun v => { v with timer := v.timer.tick })
    ∧ (∀ a, s.tick.areaRec a = { s.areaRec a with
        offer := (s.areaRec a).offer.tick, force := (s.areaRec a).force.tick })
    ∧ (∀ l, s.tick.olc.get l = { s.olc.get l with
        aux := (s.olc.get l).aux.map fun (p : PendingAux) => { p with window := p.window.tick } })
    ∧ ∀ b, s.tick.blcAt b = { s.blcAt b with
        changeTimer := (s.blcAt b).changeTimer.tick, release := (s.blcAt b).release.tick
        outAsks := (s.blcAt b).outAsks.map fun (a : OutAsk) => { a with timer := a.timer.tick }
        assurances := (s.blcAt b).assurances.map fun (a : Assurance) => { a with timer := a.timer.tick }
        statusTimer := (s.blcAt b).statusTimer.tick, silenceTimer := (s.blcAt b).silenceTimer.tick
        holdingsTimer := (s.blcAt b).holdingsTimer.tick } := by
  refine ⟨?_, ?_, ?_, ?_, ?_, ?_, ?_⟩
  · intro e; by_cases he : e < 256 <;> simp [State.drive, State.tick, Vector.getD, he]; rfl
  · intro e; by_cases he : e < 256 <;> simp [State.cmd, State.tick, Vector.getD, he]; rfl
  · intro e; by_cases he : e < 48 <;> simp [State.inst, State.tick, Vector.getD, he]; rfl
  · intro l; cases l <;> rfl
  · intro e; by_cases he : e < 16 <;> simp [State.areaRec, State.tick, Vector.getD, he] <;> rfl
  · intro l; cases l <;> rfl
  · intro b; simp [State.blcAt, State.tick, tickBlc]

/-! ### Counters -/

/-- A counter with its mark (R157, R163). -/
theorem incCounter_rows (v : Word16) (mark : Bool) :
      (v.toNat < 65534 → incCounter ⟨v, mark⟩ = ⟨v + 1, mark⟩)
      ∧ (v.toNat = 65534 → incCounter ⟨v, mark⟩ = ⟨65535, true⟩)
      ∧ (v.toNat = 65535 → incCounter ⟨v, mark⟩ = ⟨65535, true⟩) := by
  refine ⟨fun h => ?_, fun h => ?_, fun h => ?_⟩
  · have h1 : ¬v = 0xFFFF := by intro k; subst k; simp at h
    have h2 : (v + 1 == 0xFFFF) = false := by
      simp only [beq_eq_false_iff_ne, ne_eq]; intro k
      have := congrArg BitVec.toNat k
      simp at this; omega
    simp only [incCounter, satInc, if_neg h1, h2, Bool.or_false]
  · have : v = 65534#16 := by apply BitVec.eq_of_toNat_eq; simp [h]
    subst this; cases mark <;> rfl
  · have : v = 65535#16 := by apply BitVec.eq_of_toNat_eq; simp [h]
    subst this; cases mark <;> rfl

/-- A counter without a mark (R157). -/
theorem satInc_rows (v : Word16) : (v.toNat < 65535 → satInc v = v + 1) ∧ (v.toNat = 65535 → satInc v = 65535) := by
  refine ⟨fun h => ?_, fun h => ?_⟩
  · have h1 : ¬v = 0xFFFF := by intro k; subst k; simp at h
    simp only [satInc, if_neg h1]
  · have : v = 65535#16 := by apply BitVec.eq_of_toNat_eq; simp [h]
    subst this; rfl

/-- An operation counted: its own counter, and the counters sent or a further write asked for (R164, log entry 55). -/
theorem countOp_rows (s : State) (k : AuxKind) :
      let n := countAux s.aou.counters k
      (s.cfl.writing = true → s.countOp k = { s with
        aou := { s.aou with counters := n }, cfl := { s.cfl with writeAgain := true } })
      ∧ (s.cfl.writing = false → s.countOp k = { s with
        aou := { s.aou with counters := n }, cfl := { s.cfl with counterImage := n, writing := true, writeAgain := false }
        out := s.out ++ [.counters n] }) := by
  refine ⟨fun h => ?_, fun h => ?_⟩ <;> simp [State.countOp, State.writeCounters, h, State.send]

/-! ### Answers, lifetimes and pairs -/

/-- An answer waits for the transmitter; REFUSED counts a refusal code, and only that (R156, R157). -/
theorem answer_rows (s : State) (l : OpLink) (q : Word16) :
      (∀ code, s.answer l q (.refused code) = { s with olc := s.olc.set l { s.olc.get l with
        reply := some (q, .refused code), refused := incCounter (s.olc.get l).refused } })
      ∧ (∀ b, (∀ code, b ≠ .refused code) →
        s.answer l q b = { s with olc := s.olc.set l { s.olc.get l with reply := some (q, b) } })
      ∧ ∀ b, s.answerHeld l q b =
        ({ s with olc := s.olc.set l { s.olc.get l with held := none } } : State).answer l q b := by
  refine ⟨fun _ => rfl, fun b h => ?_, fun _ => rfl⟩
  cases b <;> first | rfl | exact absurd rfl (h _)

/-- A stack lifetime (R67). -/
theorem lifetimeOf_rows (s : State) (n : Nat) : (n = 0 → s.lifetimeOf n = s.cfl.stackLifetime)
    ∧ (1 ≤ n → n ≤ 600 → s.lifetimeOf n = 10 * n) ∧ (600 < n → s.lifetimeOf n = 6000) := by
  refine ⟨fun h => by simp [State.lifetimeOf, h], fun h k => ?_, fun h => ?_⟩
  · simp [State.lifetimeOf, show n ≠ 0 by omega, Nat.min_eq_left k]
  · simp [State.lifetimeOf, show n ≠ 0 by omega, Nat.min_eq_right (Nat.le_of_lt h)]

/-- The variants of a stored pair (R65, R136). -/
theorem pairVariants_rows (s : State) :
      (∀ n d, s.routeDef n = some d → s.pairVariants n = s.variants d.entry d.exit)
      ∧ (∀ n, s.routeDef n = none → s.pairVariants n = []) :=
  ⟨fun n d h => by simp [State.pairVariants, h], fun n h => by simp [State.pairVariants, h]⟩

/-- The answer of a waiting STORE-CANCEL (R144). -/
theorem answerCancel_rows (s : State) (e : StoreEntry) (b : ReplyBody) : (e.waitingCancel = none → s.answerCancel e b = s)
        ∧ ∀ q, e.waitingCancel = some q → s.answerCancel e b =
          ({ s with olc := s.olc.set e.link { s.olc.get e.link with held := none } } : State).answer e.link q b :=
  ⟨fun h => by simp [State.answerCancel, h], fun q h => by simp only [State.answerCancel, h]; rfl⟩

/-! ### Auxiliary operations (R163, R164) -/

/-- A section change writes neither the counters nor the CFL. -/
theorem sectionChange_cfl (s : State) (e : Nat) (o : Occ) : (s.sectionChange e o).cfl = s.cfl ∧ (s.sectionChange e o).aou = s.aou := by
  cases h : s.track? e with
  | none => simp [State.sectionChange, h]
  | some t =>
    by_cases k : t.occupancy = o
    · rw [sectionChange_same o fun t' k' => by rw [h] at k'; cases k'; exact k]; exact ⟨rfl, rfl⟩
    · obtain ⟨v, hv⟩ : ∃ v, v = (s.writeTrack e { t with occupancy := o }).notifyAll
        (t.owner.toList.map fun i => .track i e t.occupancy o) := ⟨_, rfl⟩
      have hx := sectionChange_eq h k
      rw [← hv] at hx
      have hd : (s.sectionChange e o).desk = v.desk := by
        by_cases ho : o = .clear
        · rw [hx.1 ho]
          exact (Walk.refl (gone := fun _ => True)).retestTrigger.desk
        · rw [hx.2 ho]
          exact (Walk.foldl (gone := fun _ => True) (fun q h => h.failPoint q) _ .refl).desk
      obtain ⟨c, hc⟩ := writeTrack_olc (s := s) (e := e) { t with occupancy := o }
      refine ⟨(cfl_of_desk hd).trans ?_, (aou_of_desk hd).trans ?_⟩ <;> rw [hv] <;> simp [hc]

theorem modBlc_rest (s : State) (b : BLink) (f : Blc → Blc) : (s.modBlc b f).cfl = s.cfl ∧ (s.modBlc b f).aou = s.aou := by
  unfold State.modBlc State.putBlc
  (try dsimp only []); split <;> exact ⟨rfl, rfl⟩

/-- The execution of an auxiliary operation writes neither the counters nor the CFL (R163, R164). -/
theorem executeAux_rest (s : State) (k : AuxKind) (o : Nat) :
    (s.executeAux k o).cfl = s.cfl ∧ (s.executeAux k o).aou = s.aou := by
  cases k with
  | emergencyRelease =>
    simp only [State.executeAux, State.emergencyRelease, State.modInst]
    split <;> simp
  | sectionReset =>
    simp only [State.executeAux, State.sectionReset]
    split
    · simp [sectionChange_cfl]
    · simp
  | suspectClear =>
    simp only [State.executeAux, State.suspectClear]
    have hr : ∀ v : State, v.retestTrigger.cfl = v.cfl ∧ v.retestTrigger.aou = v.aou := fun v => by
      obtain ⟨q, m, h⟩ := retestTrigger_rest (s := v)
      simp [h]
    rw [(hr _).1, (hr _).2]
    split
    · simp
    · simp
    · simp
    · rename_i t _
      obtain ⟨c, hc⟩ := writeTrack_olc (s := s) (e := o) { t with occupancy := s.aceState o, lock := .empty, block := false, suspect := false }
      simp [hc]
    · simp
  | authForce => simp [State.executeAux]
  | boundaryRelease =>
    simp only [State.executeAux]
    split
    · exact modBlc_rest _ _ _
    · simp

/-- AUX_CONFIRM carried out counts its kind and sends the counters, or has them sent when the write in flight ends. -/
theorem auxConfirm_counts (s : State) (l : OpLink) (q : Word16) (k o : Nat) (p : PendingAux) (hr : s.Ready l q (.auxConfirm k o))
    (hu : Request.outOfRange (.auxConfirm k o) = false) (ha : (s.olc.get l).aux = some p) (h1 : auxKindOf k = some p.kind)
    (h2 : o = p.object) (h3 : s.auxAllowed l p.kind o = true) (h4 : p.broken = false) (h5 : s.auxReady p.kind o = true) :
    ∃ t, exec (.auxConfirm l) s = .next t ∧ t.aou = { s.aou with counters := countAux s.aou.counters p.kind }
            ∧ (s.cfl.writing = true → t.cfl = { s.cfl with writeAgain := true })
            ∧ (s.cfl.writing = false → t.cfl = { s.cfl with
                counterImage := countAux s.aou.counters p.kind, writing := true, writeAgain := false }) := by
  refine ⟨State.finish s (((((s.taken l).putAux l none).executeAux p.kind o).countOp p.kind).answer l q .accepted), ?_, ?_⟩
  · have ha' : ((s.taken l).olc.get l).aux = some p := by cases l <;> exact ha
    have h3' : ((s.taken l).putAux l none).auxAllowed l p.kind o = true := by rw [← h3]; rfl
    have h5' : ((s.taken l).putAux l none).auxReady p.kind o = true := by rw [← h5]; rfl
    show runRequest _ _ _ s = _
    rw [runRequest_ready hr (by rfl)]
    simp only [hu, atOnce, State.confirmAux, ha']
    simp [h1, ← h2, h3', h4, h5']
  · have hd := finish_desk s (((((s.taken l).putAux l none).executeAux p.kind o).countOp p.kind).answer l q .accepted)
    rw [aou_of_desk hd, cfl_of_desk hd]
    have hx := executeAux_rest ((s.taken l).putAux l none) p.kind o
    have c1 : ((s.taken l).putAux l none).cfl = s.cfl := rfl
    have c2 : ((s.taken l).putAux l none).aou = s.aou := rfl
    rw [c1, c2] at hx
    have e1 : ∀ u : State, (u.answer l q .accepted).cfl = u.cfl := fun _ => rfl
    have e2 : ∀ u : State, (u.answer l q .accepted).aou = u.aou := fun _ => rfl
    rw [e1, e2]
    cases hw : s.cfl.writing <;> simp [State.countOp, State.writeCounters, hx, hw]
end Sys2Proof.Machine
end

