-- ==== Sys2Proof/Laws/Releases.lean ====
section
/-! SUPPORT. A release as a retest trigger (R12, R129, R138): which releases send a release notice, and what the freeing of an
instance leaves of the pass and of a pending EMERGENCY-RELEASE (R133). -/

set_option Elab.async false

namespace Sys2Proof.Machine

/-! ### What a release leaves alone -/

/-- The RQS and the pending operations. -/
def State.aside (s : State) : Rqs × Option PendingAux × Option PendingAux := (s.rqs, s.olc.olC.aux, s.olc.olL.aux)

/-- The LKC, the RIM, the RQS and the pending operations: what a boundary link has no part in. -/
def State.inland (s : State) : Lkc × Rim × Rqs × Option PendingAux × Option PendingAux := (s.lkc, s.rim, s.aside)

variable (s : State)

@[simp] theorem mark_inland (o : Obj) : (s.mark o).inland = s.inland := rfl
@[simp] theorem mark_aside (o : Obj) : (s.mark o).aside = s.aside := rfl
@[simp] theorem send_inland (x : Sent) : (s.send x).inland = s.inland := rfl
@[simp] theorem putFct_aside (n : Nat) (v : Option FctEntry) : (s.putFct n v).aside = s.aside := rfl

@[simp] theorem putElem_aside (e : Nat) (r : Element) : (s.putElem e r).aside = s.aside := by
  unfold State.putElem
  split <;> rfl

@[simp] theorem setFlankRef_aside (e : Nat) (r : Option Nat) : (s.setFlankRef e r).aside = s.aside := by
  unfold State.setFlankRef
  split <;> simp

@[simp] theorem modBlc_inland (b : BLink) (f : Blc → Blc) : (s.modBlc b f).inland = s.inland := by
  unfold State.modBlc State.putBlc
  dsimp only
  split <;> rfl

@[simp] theorem sendHeld_inland (b : BLink) (t : BoundaryTelegram) : (s.sendHeld b t).inland = s.inland := by
  unfold State.sendHeld
  split <;> simp

@[simp] theorem checkLost_inland (b : BLink) : (s.checkLost b).inland = s.inland := by
  unfold State.checkLost
  split <;> simp

@[simp] theorem giveUpAssurance_inland (b : BLink) (i m : Nat) : (s.giveUpAssurance b i m).inland = s.inland := by
  unfold State.giveUpAssurance
  split
  · simp only []
    split <;> simp
  · rfl

@[simp] theorem handOver_inland (b : BLink) (n : Nat) : (s.handOver b n).inland = s.inland := by
  unfold State.handOver
  dsimp only
  split <;> simp

theorem gaveUp_inland (i : Nat) (l : List (Nat × BLink)) :
    (l.foldl (fun (s : State) p => s.giveUpAssurance p.2 i p.1) s).inland = s.inland :=
  foldl_keeps s State.inland (fun s p => giveUpAssurance_inland s p.2 i p.1) l

@[simp] theorem giveUpAcceptance_inland (b : BLink) (i : Nat) : (s.giveUpAcceptance b i).inland = s.inland := by
  unfold State.giveUpAcceptance
  simp only []
  split <;> simp

@[simp] theorem dropIncoming_inland (b : BLink) (i : Nat) : (s.dropIncoming b i).inland = s.inland := by
  simp [State.dropIncoming]

@[simp] theorem closeMatters_inland (i : Nat) (r : Inst) (d : RouteDef) : (s.closeMatters i r d).inland = s.inland := by
  unfold State.closeMatters
  simp only []
  have h1 : (match s.exitLink d with
      | some b => if d.cls == RouteClass.boundaryOut && (r.acceptance == Acceptance.asked || r.acceptance == Acceptance.held)
          then s.giveUpAcceptance b i else s
      | none => s).inland = s.inland := by
    split
    · split <;> simp
    · rfl
  have h2 := (gaveUp_inland _ i (r.boundaryItems d)).trans h1
  split
  · split
    · split
      · exact (dropIncoming_inland _ _ _).trans h2
      · exact h2
    · exact h2
  · exact h2

@[simp] theorem tellRefused_inland (i : Nat) (r : Inst) (d : RouteDef) : (s.tellRefused i r d).inland = s.inland := by
  have h : ∀ b, (s.refusePending b i).inland = s.inland := fun b => by
    unfold State.refusePending
    split <;> simp
  unfold State.tellRefused
  (repeat' split) <;> simp [h]

theorem Inland.aside {s t : State} (h : t.inland = s.inland) : t.aside = s.aside := congrArg (fun x => x.2.2) h
theorem Inland.lkc {s t : State} (h : t.inland = s.inland) : t.lkc = s.lkc := congrArg Prod.fst h
theorem Inland.rim {s t : State} (h : t.inland = s.inland) : t.rim = s.rim := congrArg (fun x => x.2.1) h

theorem Aside.rqs {s t : State} (h : t.aside = s.aside) : t.rqs = s.rqs := congrArg Prod.fst h
theorem Aside.aux {s t : State} (h : t.aside = s.aside) (l : OpLink) : (t.olc.get l).aux = (s.olc.get l).aux := by
  cases l
  · exact congrArg (fun x => x.2.1) h
  · exact congrArg (fun x => x.2.2) h

/-! ### Which releases empty something -/

/-- What one part of a release does to the state and its mark of something emptied: nothing where nothing is held; else the
mark is set, and neither the table of claims nor what stands beside the records changes. -/
def Sheds1 (held : Prop) (a b : State × Bool) : Prop :=
  (b = a ∧ ¬ held) ∨ (b.2 = true ∧ held ∧ b.1.aside = a.1.aside ∧ b.1.rim = a.1.rim ∧ ∀ n, b.1.fctEntry n = a.1.fctEntry n)

theorem Sheds1.trans {p q : State → Prop} {a b c : State × Bool} (h : Sheds1 (p a.1) a b) (k : Sheds1 (q b.1) b c) :
    Sheds1 (p a.1 ∨ q a.1) a c := by
  rcases h with ⟨rfl, hp⟩ | ⟨hb, hp, ha, hr, hf⟩
  · rcases k with ⟨rfl, hq⟩ | ⟨hc, hq, hk⟩
    · exact .inl ⟨rfl, fun h => h.elim hp hq⟩
    · exact .inr ⟨hc, .inr hq, hk⟩
  · rcases k with ⟨rfl, -⟩ | ⟨hc, -, ka, kr, kf⟩
    · exact .inr ⟨hb, .inl hp, ha, hr, hf⟩
    · exact .inr ⟨hc, .inl hp, ka.trans ha, kr.trans hr, fun n => (kf n).trans (hf n)⟩

theorem Sheds1.foldl {α : Type} {f : State × Bool → α → State × Bool} {p : α → State → Prop}
    (hf : ∀ a x, Sheds1 (p x a.1) a (f a x)) (l : List α) (a : State × Bool) :
    Sheds1 (∃ x ∈ l, p x a.1) a (l.foldl f a) := by
  induction l generalizing a with
  | nil => exact .inl ⟨rfl, fun ⟨_, h, _⟩ => nomatch h⟩
  | cons x l ih =>
    have := (hf a x).trans (q := fun s => ∃ x ∈ l, p x s) (ih (f a x))
    simpa [Sheds1] using this

theorem fctEntry_putElem (e : Nat) (r : Element) (n : Nat) : (s.putElem e r).fctEntry n = s.fctEntry n := by
  unfold State.putElem State.fctEntry
  split <;> rfl

theorem sheds1_putElem (a : State × Bool) {held : Prop} (h : held) (e : Nat) (r : Element) :
    Sheds1 held a (a.1.putElem e r, true) :=
  .inr ⟨rfl, h, putElem_aside .., putElem_rim .., fun n => fctEntry_putElem _ e r n⟩

theorem unlockTrack_sheds (i e : Nat) (a : State × Bool) :
    Sheds1 (∃ x role, a.1.track? e = some x ∧ x.lock = .held i role) a (State.unlockTrack i a e) := by
  unfold State.unlockTrack
  cases ht : a.1.track? e with
  | none => exact .inl ⟨rfl, by simp⟩
  | some t =>
    dsimp only
    cases hl : t.lock with
    | held j role =>
      dsimp only
      by_cases hj : j = i
      · subst hj
        rw [if_pos (beq_self_eq_true j)]
        exact sheds1_putElem a ⟨t, role, rfl, hl⟩ ..
      · rw [if_neg (by simpa using hj)]
        exact .inl ⟨rfl, fun ⟨x, r, hx, hr⟩ => hj (by cases hx; rw [hl] at hr; cases hr; rfl)⟩
    | _ => exact .inl ⟨rfl, fun ⟨x, r, hx, hr⟩ => by cases hx; rw [hl] at hr; cases hr⟩

theorem unlockPoint_sheds (i e : Nat) (a : State × Bool) :
    Sheds1 (∃ x role q, a.1.point? e = some x ∧ x.lock = .held i role q) a (State.unlockPoint i a e) := by
  unfold State.unlockPoint
  cases ht : a.1.point? e with
  | none => exact .inl ⟨rfl, by simp⟩
  | some t =>
    dsimp only
    cases hl : t.lock with
    | held j role q =>
      dsimp only
      by_cases hj : j = i
      · subst hj
        rw [if_pos (beq_self_eq_true j)]
        exact sheds1_putElem a ⟨t, role, q, rfl, hl⟩ ..
      · rw [if_neg (by simpa using hj)]
        exact .inl ⟨rfl, fun ⟨x, r, q, hx, hr⟩ => hj (by cases hx; rw [hl] at hr; cases hr; rfl)⟩
    | _ => exact .inl ⟨rfl, fun ⟨x, r, q, hx, hr⟩ => by cases hx; rw [hl] at hr; cases hr⟩

theorem unlockItem_sheds (i : Nat) (it : PathItem) (a : State × Bool) :
    Sheds1 (a.1.HoldsItem i it) a (State.unlockItem i a it) := by
  have h := Sheds1.foldl (p := fun e s => ∃ x role q, s.point? e = some x ∧ x.lock = .held i role q)
    (fun a e => unlockPoint_sheds i e a) (it.points.map PointReq.point) (State.unlockTrack i a it.sect)
  have k := (unlockTrack_sheds i it.sect a).trans
    (p := fun s => ∃ x role, s.track? it.sect = some x ∧ x.lock = .held i role)
    (q := fun s => ∃ e ∈ it.points.map PointReq.point, ∃ x role q, s.point? e = some x ∧ x.lock = .held i role q) h
  simpa [Sheds1, State.HoldsItem, State.unlockItem] using k

theorem unlockItems_sheds (i : Nat) (l : List PathItem) (a : State × Bool) :
    Sheds1 (∃ it ∈ l, a.1.HoldsItem i it) a (l.foldl (State.unlockItem i) a) :=
  Sheds1.foldl (p := fun it s => s.HoldsItem i it) (fun a it => unlockItem_sheds i it a) l a

theorem slot_release (a : State × Bool) (held : Prop) (t : State) (e : Nat)
    (h : (t = a.1 ∧ ¬ held) ∨ (held ∧ t.elem e ≠ a.1.elem e ∧ ∃ r, t = a.1.putElem e r)) :
    Sheds1 held a (t, a.2 || t.elem e != a.1.elem e) := by
  rcases h with ⟨rfl, h⟩ | ⟨h, hn, r, rfl⟩
  · exact .inl ⟨by simp, h⟩
  · exact .inr ⟨by simp [hn], h, putElem_aside .., putElem_rim .., fun n => fctEntry_putElem _ e r n⟩

theorem releaseBy_cases (i : Nat) (x : Slot) : (x = .held i ∧ x.releaseBy i = .empty) ∨ (x ≠ .held i ∧ x.releaseBy i = x) := by
  unfold Slot.releaseBy
  split
  · exact .inl ⟨by assumption, rfl⟩
  · exact .inr ⟨by assumption, rfl⟩

theorem unlockEntry_sheds (i e : Nat) (a : State × Bool) :
    Sheds1 (a.1.entryHeld i e = true) a (State.unlockEntry i a e) := by
  refine slot_release a _ _ e ?_
  unfold State.setEntry State.entryHeld
  cases he : a.1.elem e with
  | signal g =>
    have hb : e < 256 := lt_of_elem (s := a.1) (by rw [he]; nofun)
    rcases releaseBy_cases i g.entrySlot with ⟨h1, h2⟩ | ⟨h1, h2⟩
    · refine .inr ⟨by simp [h1], ?_, _, rfl⟩
      dsimp only
      rw [elem_putElem_same _ _ _ hb, h2]
      intro h
      rw [← Element.signal.inj h] at h1
      cases h1
    · exact .inl ⟨by dsimp only; rw [h2]; simp [State.putElem, he], by simpa using h1⟩
  | boundary g =>
    have hb : e < 256 := lt_of_elem (s := a.1) (by rw [he]; nofun)
    rcases releaseBy_cases i g.entrySlot with ⟨h1, h2⟩ | ⟨h1, h2⟩
    · refine .inr ⟨by simp [h1], ?_, _, rfl⟩
      dsimp only
      rw [elem_putElem_same _ _ _ hb, h2]
      intro h
      rw [← Element.boundary.inj h] at h1
      cases h1
    · exact .inl ⟨by dsimp only; rw [h2]; simp [State.putElem, he], by simpa using h1⟩
  | _ => exact .inl ⟨rfl, by simp⟩

theorem unlockExit_sheds (i e : Nat) (a : State × Bool) :
    Sheds1 (a.1.exitHeld i e = true) a (State.unlockExit i a e) := by
  refine slot_release a _ _ e ?_
  unfold State.setExit State.exitHeld
  cases he : a.1.elem e with
  | signal g =>
    have hb : e < 256 := lt_of_elem (s := a.1) (by rw [he]; nofun)
    rcases releaseBy_cases i g.exitSlot with ⟨h1, h2⟩ | ⟨h1, h2⟩
    · refine .inr ⟨by simp [h1], ?_, _, rfl⟩
      dsimp only
      rw [elem_putElem_same _ _ _ hb, h2]
      intro h
      rw [← Element.signal.inj h] at h1
      cases h1
    · exact .inl ⟨by dsimp only; rw [h2]; simp [State.putElem, he], by simpa using h1⟩
  | boundary g =>
    have hb : e < 256 := lt_of_elem (s := a.1) (by rw [he]; nofun)
    rcases releaseBy_cases i g.exitSlot with ⟨h1, h2⟩ | ⟨h1, h2⟩
    · refine .inr ⟨by simp [h1], ?_, _, rfl⟩
      dsimp only
      rw [elem_putElem_same _ _ _ hb, h2]
      intro h
      rw [← Element.boundary.inj h] at h1
      cases h1
    · exact .inl ⟨by dsimp only; rw [h2]; simp [State.putElem, he], by simpa using h1⟩
  | _ => exact .inl ⟨rfl, by simp⟩

/-! ### Claims that leave -/

/-- Whether every claimant of an entry, and there is one, satisfies a test. -/
def FctEntry.allLeave (p : Claimant → Bool) (f : FctEntry) : Prop := f.claimants ≠ [] ∧ ∀ c ∈ f.claimants, p c = true

theorem dropFrom_deletes (n : Nat) (p : Claimant → Bool) :
    (s.dropFrom n p).2 = true ↔ ∃ f, s.fctEntry n = some f ∧ f.allLeave p := by
  unfold State.dropFrom
  cases h : s.fctEntry n with
  | none => simp
  | some f =>
    dsimp only
    have he : (f.claimants.filter fun c => !p c).isEmpty = true ↔ ∀ c ∈ f.claimants, p c = true := by
      simp [List.isEmpty_iff]
    split
    · rename_i hl
      have hall := List.length_filter_eq_length_iff.1 hl
      refine ⟨(nomatch ·), fun ⟨g, hg, hne, ha⟩ => ?_⟩
      cases hg
      obtain ⟨c, hc⟩ := List.exists_mem_of_ne_nil _ hne
      have := hall c hc
      simp [ha c hc] at this
    · rename_i hl
      have hne : f.claimants ≠ [] := by rintro hn; simp [hn] at hl
      split
      · rename_i hx
        exact ⟨fun _ => ⟨f, rfl, hne, he.1 hx⟩, fun _ => rfl⟩
      · rename_i hx
        exact ⟨(nomatch ·), fun ⟨g, hg, _, ha⟩ => by cases hg; exact absurd (he.2 ha) hx⟩

theorem dropFrom_aside (n : Nat) (p : Claimant → Bool) : (s.dropFrom n p).1.aside = s.aside := by
  unfold State.dropFrom
  split
  · rfl
  · dsimp only
    (repeat' split) <;> simp

/-- A release of claims deletes an entry when all its claimants leave (R112, R113); nothing beside the records changes. -/
theorem dropClaims_rows (p : Claimant → Bool) :
    ((s.dropClaims p).2 = true ↔ s.SoleClaims fun c => p c = true) ∧ (s.dropClaims p).1.aside = s.aside := by
  have key : ∀ (l : List Nat) (a : State × Bool), l.Nodup →
      let r := l.foldl (fun (acc : State × Bool) n => ((acc.1.dropFrom n p).1, acc.2 || (acc.1.dropFrom n p).2)) a
      (r.2 = true ↔ a.2 = true ∨ ∃ n ∈ l, ∃ f, a.1.fctEntry n = some f ∧ f.allLeave p) ∧ r.1.aside = a.1.aside := by
    intro l
    induction l with
    | nil => intro a _; simp
    | cons x l ih =>
      intro a hl
      obtain ⟨hx, hl⟩ := List.nodup_cons.1 hl
      obtain ⟨h1, h2⟩ := ih ((a.1.dropFrom x p).1, a.2 || (a.1.dropFrom x p).2) hl
      refine ⟨h1.trans ?_, h2.trans (dropFrom_aside ..)⟩
      have hf : ∀ n ∈ l, (a.1.dropFrom x p).1.fctEntry n = a.1.fctEntry n := fun n hn => by
        rw [dropFrom_fct, if_neg (by rintro rfl; exact hx hn)]
      have hq : (∃ n ∈ l, ∃ f, (a.1.dropFrom x p).1.fctEntry n = some f ∧ f.allLeave p) ↔
          ∃ n ∈ l, ∃ f, a.1.fctEntry n = some f ∧ f.allLeave p :=
        exists_congr fun n => and_congr_right fun hn => by rw [hf n hn]
      dsimp only
      rw [hq]
      simp only [Bool.or_eq_true, dropFrom_deletes, List.mem_cons, exists_eq_or_imp, or_assoc]
  obtain ⟨h1, h2⟩ := key (List.range Config.fctCount) (s, false) List.nodup_range
  refine ⟨h1.trans ?_, h2⟩
  simp only [Bool.false_eq_true, false_or]
  constructor
  · rintro ⟨n, -, f, hf, hne, ha⟩
    exact ⟨n, f, hf, hne, ha⟩
  · rintro ⟨n, f, hf, hne, ha⟩
    refine ⟨n, List.mem_range.2 (Decidable.byContradiction fun k => ?_), f, hf, hne, ha⟩
    rw [fctEntry_of_ge s n k] at hf
    cases hf

/-! ### Releases (R12) -/

/-- A state with the same RQS and waiting requests stands for the one before. -/
theorem State.Triggered.of_eq {a b s t : State} (h : a.Triggered s) (hq : b.rqs = a.rqs)
    (hr : b.rim.requests = a.rim.requests) (kq : t.rqs = s.rqs) (kr : t.rim.requests = s.rim.requests) : b.Triggered t := by
  unfold State.Triggered at h ⊢
  rw [hq, hr, kq, kr]
  exact h

theorem triggered_retest : s.Triggered s.retestTrigger :=
  ⟨(retestTrigger_rows s).1, (retestTrigger_rows s).2.1, fun y rest h k =>
    ⟨((retestTrigger_rows s).2.2 y rest h k).1, by rw [((retestTrigger_rows s).2.2 y rest h k).2]⟩⟩

/-- The end of a release: the claims leave, and the notice goes out when something was emptied. -/
theorem release_rows (held : Prop) (p : Claimant → Bool) (a : State × Bool) (h : Sheds1 held (s, false) a) :
    let t := releaseNotice ((a.1.dropClaims p).1, a.2 || (a.1.dropClaims p).2)
    (held ∨ s.SoleClaims (fun c => p c = true) → s.Triggered t)
      ∧ (¬ (held ∨ s.SoleClaims fun c => p c = true) → t.rqs = s.rqs ∧ t.rim = s.rim) := by
  have hx : a.1.aside = s.aside ∧ a.1.rim = s.rim ∧ (∀ n, a.1.fctEntry n = s.fctEntry n) ∧ (a.2 = true ↔ held) := by
    rcases h with ⟨rfl, hn⟩ | ⟨h2, hh, ha, hr, hf⟩
    · exact ⟨rfl, rfl, fun _ => rfl, ⟨(nomatch ·), fun h => absurd h hn⟩⟩
    · exact ⟨ha, hr, hf, ⟨fun _ => hh, fun _ => h2⟩⟩
  obtain ⟨ha, hr, hf, h2⟩ := hx
  obtain ⟨k1, k2⟩ := dropClaims_rows a.1 p
  have hs : a.1.SoleClaims (fun c => p c = true) ↔ s.SoleClaims fun c => p c = true := by
    simp only [State.SoleClaims, hf]
  have hq : (a.1.dropClaims p).1.rqs = s.rqs := Aside.rqs (k2.trans ha)
  have hm : (a.1.dropClaims p).1.rim = s.rim := (dropClaims_rim a.1 p).trans hr
  have hb : (a.2 || (a.1.dropClaims p).2) = true ↔ held ∨ s.SoleClaims fun c => p c = true := by
    rw [Bool.or_eq_true, h2, k1, hs]
  intro t
  refine ⟨fun h => ?_, fun h => ?_⟩
  · have : t = (a.1.dropClaims p).1.retestTrigger := by
      show releaseNotice _ = _
      unfold releaseNotice
      rw [if_pos (hb.2 h)]
    rw [this]
    exact (triggered_retest _).of_eq hq.symm (by rw [hm]) rfl rfl
  · have : t = (a.1.dropClaims p).1 := by
      show releaseNotice _ = _
      unfold releaseNotice
      rw [if_neg (fun k => h (hb.1 k))]
    rw [this]
    exact ⟨hq, hm⟩

theorem sheds1_if (c : Prop) [Decidable c] {held : Prop} {a b : State × Bool} (h : Sheds1 held a b) :
    Sheds1 (c ∧ held) a (if c then b else a) := by
  split
  · rename_i hc
    simpa [Sheds1, hc] using h
  · rename_i hc
    exact .inl ⟨rfl, fun k => hc k.1⟩

/-- The release of one path item is a retest trigger exactly when it empties a slot or deletes an entry (R12, R138). -/
theorem releasePathItem_rows (i : Nat) (d : RouteDef) (k : Nat) :
    let emptied := (k = 1 ∧ s.entryHeld i d.entry = true) ∨ (k = d.path.length ∧ s.exitHeld i d.exit = true)
      ∨ (∃ it, d.path[k - 1]? = some it ∧ s.HoldsItem i it)
      ∨ s.SoleClaims fun c => ∃ m, c = .route i m ∧ (d.flank[m - 1]?).map FlankItem.protects = some k
    (emptied → s.Triggered (s.releasePathItem i d k))
      ∧ (¬ emptied → (s.releasePathItem i d k).rqs = s.rqs ∧ (s.releasePathItem i d k).rim = s.rim) := by
  have hp : ∀ c, protectsItem d i k c = true ↔ ∃ m, c = .route i m ∧ (d.flank[m - 1]?).map FlankItem.protects = some k := by
    intro c
    cases c with
    | route j m =>
      simp only [protectsItem, Bool.and_eq_true, beq_iff_eq, Claimant.route.injEq]
      exact ⟨fun ⟨h, h'⟩ => ⟨m, ⟨h, rfl⟩, h'⟩, fun ⟨m', ⟨h, h'⟩, h''⟩ => ⟨h, h' ▸ h''⟩⟩
    | boundary b r => simp [protectsItem]
  have h1 := sheds1_if (k = 1) (unlockEntry_sheds i d.entry (s, false))
  have h2 := h1.trans (p := fun s => k = 1 ∧ s.entryHeld i d.entry = true)
    (q := fun s => k = d.path.length ∧ s.exitHeld i d.exit = true) (sheds1_if (k = d.path.length) (unlockExit_sheds i d.exit _))
  have h3 := h2.trans (p := fun s => (k = 1 ∧ s.entryHeld i d.entry = true) ∨ k = d.path.length ∧ s.exitHeld i d.exit = true)
    (q := fun s => ∃ it ∈ (d.path[k - 1]?).toList, s.HoldsItem i it) (unlockItems_sheds i (d.path[k - 1]?).toList _)
  have h4 := release_rows s _ (protectsItem d i k) _ h3
  simpa only [hp, Option.mem_toList, or_assoc, State.releasePathItem, Option.mem_def] using h4

/-- The release of the overlap (R12, R127, R138). -/
theorem releaseOverlap_rows (i : Nat) (d : RouteDef) :
    let emptied := ∃ it, d.overlap = some it ∧ s.HoldsItem i it
    (emptied → s.Triggered (s.releaseOverlap i d))
      ∧ (¬ emptied → (s.releaseOverlap i d).rqs = s.rqs ∧ (s.releaseOverlap i d).rim = s.rim) := by
  have h := unlockItems_sheds i d.overlap.toList (s, false)
  simp only [Option.mem_toList] at h
  intro emptied
  unfold State.releaseOverlap
  rcases h with ⟨he, hn⟩ | ⟨h2, hh, ha, hr, -⟩
  · rw [he]
    exact ⟨fun h => absurd h hn, fun _ => ⟨rfl, rfl⟩⟩
  · refine ⟨fun _ => ?_, fun h => absurd hh h⟩
    unfold releaseNotice
    rw [if_pos h2]
    exact (triggered_retest _).of_eq (Aside.rqs ha).symm (by rw [hr]) rfl rfl

/-- The release of all items (R12, R138). -/
theorem releaseItems_rows (i : Nat) (d : RouteDef) :
    let emptied := s.entryHeld i d.entry = true ∨ s.exitHeld i d.exit = true
      ∨ (∃ it ∈ d.path ++ d.overlap.toList, s.HoldsItem i it) ∨ s.SoleClaims fun c => ∃ m, c = .route i m
    (emptied → s.Triggered (s.releaseItems i d))
      ∧ (¬ emptied → (s.releaseItems i d).rqs = s.rqs ∧ (s.releaseItems i d).rim = s.rim) := by
  have hp : ∀ c, Claimant.isInst i c = true ↔ ∃ m, c = .route i m := by
    intro c
    cases c <;> simp [Claimant.isInst]
  have h1 := unlockEntry_sheds i d.entry (s, false)
  have h2 := h1.trans (p := fun s => s.entryHeld i d.entry = true) (q := fun s => s.exitHeld i d.exit = true)
    (unlockExit_sheds i d.exit _)
  have h3 := h2.trans (p := fun s => s.entryHeld i d.entry = true ∨ s.exitHeld i d.exit = true)
    (q := fun s => ∃ it ∈ d.path ++ d.overlap.toList, s.HoldsItem i it) (unlockItems_sheds i (d.path ++ d.overlap.toList) _)
  have h4 := release_rows s _ (Claimant.isInst i) _ h3
  simpa only [hp, or_assoc, State.releaseItems] using h4

/-! ### Freeing (R129, R133) -/

/-- A pending EMERGENCY-RELEASE of an instance remembers that it was freed (R133). -/
def brokenFor (i : Nat) (a : PendingAux) : PendingAux :=
  if a.kind = .emergencyRelease ∧ a.object = i then { a with broken := true } else a

theorem breakAux_aux (i : Nat) (c : Olc) : (breakAux i c).aux = c.aux.map (brokenFor i) := by
  simp only [breakAux, Bool.and_eq_true, beq_iff_eq]
  rfl

/-- The freeing of a record: no record, a retest trigger, and the pending EMERGENCY-RELEASE of it broken on either link. -/
theorem freeRecord_rows (i : Nat) :
    s.Triggered (s.freeRecord i)
      ∧ ∀ l, ((s.freeRecord i).olc.get l).aux = (s.olc.get l).aux.map (brokenFor i) := by
  have hi : (s.putInst i none).rqs = s.rqs ∧ (s.putInst i none).rim.requests = s.rim.requests
      ∧ ∀ l, ((s.putInst i none).olc.get l).aux = (s.olc.get l).aux := by
    unfold State.putInst
    split
    · exact ⟨rfl, rfl, fun _ => rfl⟩
    · exact ⟨rfl, rfl, fun l => by cases l <;> rfl⟩
  obtain ⟨q, m, h⟩ := retestTrigger_rest (s := ((s.putInst i none).modOlc .olC (breakAux i)).modOlc .olL (breakAux i))
  refine ⟨(triggered_retest _).of_eq (by simp) (by simp [hi.2.1]) rfl rfl, fun l => ?_⟩
  unfold State.freeRecord
  rw [h, ← hi.2.2 l, ← breakAux_aux]
  cases l <;> rfl

/-- After a release with a freeing a pass runs where the store has an entry, and a pass that ran is to run again. -/
theorem freed_pass {u v : State} (hu : s.Triggered u ∨ u.rqs = s.rqs) (hv : u.Triggered v) :
    (s.rqs.store ≠ [] → v.rqs.running = true) ∧ (s.rqs.running = true → v.rqs.rerun = true) := by
  obtain ⟨v1, -, v3⟩ := hv
  have run : u.rqs.running = true → v.rqs.running = true ∧ v.rqs.rerun = true := fun h => by rw [v1 h]; exact ⟨h, rfl⟩
  rcases hu with ⟨u1, -, u3⟩ | hu
  · cases hr : s.rqs.running with
    | true => exact ⟨fun _ => (run (by rw [u1 hr]; exact hr)).1, fun _ => (run (by rw [u1 hr]; exact hr)).2⟩
    | false =>
      refine ⟨fun hs => ?_, fun h => nomatch h⟩
      obtain ⟨y, rest, hy⟩ := List.exists_cons_of_ne_nil hs
      exact (run (u3 y rest hr hy).1).1
  · cases hr : s.rqs.running with
    | true => exact ⟨fun _ => (run (by rw [hu]; exact hr)).1, fun _ => (run (by rw [hu]; exact hr)).2⟩
    | false =>
      refine ⟨fun hs => ?_, fun h => nomatch h⟩
      obtain ⟨y, rest, hy⟩ := List.exists_cons_of_ne_nil hs
      exact (v3 y rest (by rw [hu]; exact hr) (by rw [hu]; exact hy)).1

theorem releaseItems_aside (i : Nat) (d : RouteDef) (l : OpLink) :
    ((s.releaseItems i d).olc.get l).aux = (s.olc.get l).aux := by
  have h1 := unlockEntry_sheds i d.entry (s, false)
  have h2 := h1.trans (p := fun s => s.entryHeld i d.entry = true) (q := fun s => s.exitHeld i d.exit = true)
    (unlockExit_sheds i d.exit _)
  have h3 := h2.trans (p := fun s => s.entryHeld i d.entry = true ∨ s.exitHeld i d.exit = true)
    (q := fun s => ∃ it ∈ d.path ++ d.overlap.toList, s.HoldsItem i it) (unlockItems_sheds i (d.path ++ d.overlap.toList) _)
  have h4 := (dropClaims_rows ((d.path ++ d.overlap.toList).foldl (State.unlockItem i)
    (State.unlockExit i (State.unlockEntry i (s, false) d.entry) d.exit)).1 (Claimant.isInst i)).2
  have h5 : ((d.path ++ d.overlap.toList).foldl (State.unlockItem i)
      (State.unlockExit i (State.unlockEntry i (s, false) d.entry) d.exit)).1.aside = s.aside := by
    rcases h3 with h | h
    · rw [h.1]
    · exact h.2.2.1
  have hn : ∀ p : State × Bool, ((releaseNotice p).olc.get l).aux = (p.1.olc.get l).aux := fun p => by
    unfold releaseNotice
    split
    · obtain ⟨q, m, h⟩ := retestTrigger_rest (s := p.1)
      rw [h]
    · rfl
  unfold State.releaseItems
  dsimp only
  rw [hn]
  refine Aside.aux (s := s) ?_ l
  dsimp only
  exact h4.trans h5

theorem freed_rows (i : Nat) (d : RouteDef) {u : State} (hu : u.inland = s.inland) :
    let t := (u.releaseItems i d).freeRecord i
    (∀ l, (t.olc.get l).aux = (s.olc.get l).aux.map (brokenFor i))
      ∧ (s.rqs.store ≠ [] → t.rqs.running = true) ∧ (s.rqs.running = true → t.rqs.rerun = true) := by
  obtain ⟨h1, h2⟩ := freeRecord_rows (u.releaseItems i d) i
  refine ⟨fun l => (h2 l).trans (by rw [releaseItems_aside, Aside.aux (Inland.aside hu) l]), ?_⟩
  have hq : u.rqs = s.rqs := Aside.rqs (Inland.aside hu)
  rw [← hq]
  refine freed_pass u ?_ h1
  obtain ⟨k1, k2⟩ := releaseItems_rows u i d
  by_cases he : u.entryHeld i d.entry = true ∨ u.exitHeld i d.exit = true
      ∨ (∃ it ∈ d.path ++ d.overlap.toList, u.HoldsItem i it) ∨ u.SoleClaims fun c => ∃ m, c = .route i m
  · exact .inl (k1 he)
  · exact .inr (k2 he).1

/-- A release of all items with the freeing, and a setting failure, are retest triggers and break the pending
EMERGENCY-RELEASE (R88, R129, R133, R138). -/
theorem releaseAll_frees (i : Nat) (r : Inst) (d : RouteDef) (h : s.live i = some (r, d)) (t : State)
    (ht : t = s.releaseAll i ∨ ∃ c e, t = s.settingFails i c e) :
    (∀ l, (t.olc.get l).aux = (s.olc.get l).aux.map (brokenFor i))
      ∧ (s.rqs.store ≠ [] → t.rqs.running = true) ∧ (s.rqs.running = true → t.rqs.rerun = true) := by
  rcases ht with rfl | ⟨c, e, rfl⟩
  · simp only [State.releaseAll, h]
    exact freed_rows s i d (by simp)
  · have hf : ∀ (v : State) o f, (State.recordFailure v o f).aside = v.aside := fun v o f => by
      rcases o with l | l | b <;> first | (cases l <;> rfl) | rfl
    simp only [State.settingFails, h]
    obtain ⟨h1, h2⟩ := freed_rows s i d (u := s.closeMatters i r d) (by simp)
    have hs := (Inland.aside (tellRefused_inland (State.recordFailure ((((s.closeMatters i r d).releaseItems i d)).freeRecord i)
      r.origin ⟨i, r.route, c, e⟩) i r d)).trans (hf _ _ _)
    exact ⟨fun l => (Aside.aux hs l).trans (h1 l), by rw [Aside.rqs hs]; exact h2⟩

/-- The release of a path item by the train is a retest trigger when it empties a slot or deletes an entry (R12, R123). -/
theorem releaseItem_triggers (i : Nat) (r : Inst) (d : RouteDef) (k : Nat)
    (h : (k = 1 ∧ s.entryHeld i d.entry = true) ∨ (k = d.path.length ∧ s.exitHeld i d.exit = true)
      ∨ (∃ it, d.path[k - 1]? = some it ∧ s.HoldsItem i it)
      ∨ s.SoleClaims fun c => ∃ m, c = .route i m ∧ (d.flank[m - 1]?).map FlankItem.protects = some k) :
    s.Triggered (s.releaseItem i r d k) := by
  have hm : ∀ (v : State) f, (v.modInst i f).rqs = v.rqs ∧ (v.modInst i f).rim.requests = v.rim.requests := fun v f => by
    unfold State.modInst State.putInst
    (repeat' split) <;> exact ⟨rfl, rfl⟩
  obtain ⟨u, hu, hi⟩ : ∃ u : State, u.inland = s.inland ∧ ∃ f, s.releaseItem i r d k = (u.releasePathItem i d k).modInst i f := by
    refine ⟨_, ?_, _, rfl⟩
    (repeat' split) <;> simp only [handOver_inland, gaveUp_inland]
  obtain ⟨f, hi⟩ := hi
  rw [hi]
  have hl : u.lkc = s.lkc := Inland.lkc hu
  refine ((releasePathItem_rows u i d k).1 ?_).of_eq (Aside.rqs (Inland.aside hu)).symm (by rw [Inland.rim hu]) (hm _ _).1 (hm _ _).2
  simpa only [State.entryHeld, State.exitHeld, State.HoldsItem, State.SoleClaims, State.track?, State.point?, State.elem,
    State.fctEntry, hl] using h

end Sys2Proof.Machine
end

