-- ==== Sys2Proof/Laws/Effects.lean ====
section
/-! SUPPORT. What a reservation does besides its locks and claims (R6, R10, R11, R81, R181): the outstanding list, the transfer of
an overlap, the throws, the direction request and the FLANK-ASKs. -/

set_option Elab.async false

namespace Sys2Proof.Machine

/-! ### The outstanding list (R6, R81) -/

section
variable {s t : State}

/-- What the field shows of a claimed element, and the boundary of an exit, are the desk's. -/
theorem inState_of_desk (h : t.desk = s.desk) (x : FlankTarget) : t.inState x = s.inState x := by
  cases x with
  | point e q =>
    have := seen_of_desk h e
    simp only [State.inState, State.point?]
    cases ht : t.elem e <;> cases hs : s.elem e <;> simp_all [Element.seen]
  | signal e =>
    have := seen_of_desk h e
    simp only [State.inState, State.signal?]
    cases ht : t.elem e <;> cases hs : s.elem e <;> simp_all [Element.seen]

/-- Whether a claimed element stands in its required state (R6). -/
theorem inState_iff (e : Nat) : (∀ q, s.inState (.point e q) = true ↔ ∃ p, s.point? e = some p ∧ p.detection = detectionOf q)
    ∧ (s.inState (.signal e) = true ↔ ∃ g, s.signal? e = some g ∧ g.shown = .stop) :=
  ⟨fun q => by simp [State.inState, Option.any_eq_true], by simp [State.inState, Option.any_eq_true]⟩

theorem needsDirection_of_desk (h : t.desk = s.desk) (d : RouteDef) : t.needsDirection d = s.needsDirection d := by
  have hd : ∀ b, (t.blcAt b).direction = (s.blcAt b).direction := fun b =>
    (show (t.blcAt b).line.direction = _ by rw [line_of_desk h b]; rfl)
  have hl : t.exitLink d = s.exitLink d := by
    have := seen_of_desk h d.exit
    simp only [State.exitLink, State.boundary?]
    cases ht : t.elem d.exit <;> cases hs : s.elem d.exit <;> simp_all [Element.seen]
  simp only [State.needsDirection, hl, hd]

theorem outstanding_of_desk (h : t.desk = s.desk) (d : RouteDef) (c : List (Nat × Option FlankTarget)) :
    t.outstanding d c = s.outstanding d c := by
  simp only [State.outstanding, needsDirection_of_desk h, inState_of_desk h]

/-- The direction request of a reservation (R6). -/
theorem needsDirection_iff (d : RouteDef) (b : BLink) : s.needsDirection d = some b ↔
    d.cls = .boundaryOut ∧ (s.blcAt b).direction ≠ .outward ∧ ∃ x, s.boundary? d.exit = some x ∧ x.link = b := by
  unfold State.needsDirection State.exitLink
  cases hx : s.boundary? d.exit with
  | none => simp
  | some x =>
    simp only [Option.map_some, Option.bind_some, Bool.and_eq_true, beq_iff_eq, bne_iff_ne, Option.ite_none_right_eq_some,
      Option.some.injEq]
    constructor
    · rintro ⟨⟨h1, h2⟩, rfl⟩
      exact ⟨h1, h2, x, rfl, rfl⟩
    · rintro ⟨h1, h2, y, rfl, rfl⟩
      exact ⟨⟨h1, h2⟩, rfl⟩

/-- The reservation's effects in the order of R11, its choices and its outstanding list, which the locks, claims and throws
leave as it was. -/
theorem applyReservation_rows (s : State) (i : Nat) (d : RouteDef) (c : List (Nat × Option FlankTarget)) :
    let points := (d.path ++ d.overlap.toList).flatMap PathItem.points
    let locked := d.overlap.toList.foldl (State.lockItem i .overlap) (d.path.foldl (State.lockItem i .path)
      ((s.setEntry d.entry fun _ => .held i).setExit d.exit fun _ => .held i))
    let claimed := (indexFrom1 c).foldl (State.claimItem i) ((s.transferOwners d).foldl State.transferRest locked)
    let thrown := (points.map (fun p => FlankTarget.point p.point p.pos) ++ c.filterMap Prod.snd).foldl State.throwClaimed
      claimed
    let asked : State := match s.needsDirection d with
      | some b => thrown.requestDirection b
      | none => thrown
    s.applyReservation i d c = ⟨(askedItems d c).foldl (State.askItem i) asked, c.map choiceOf, s.outstanding d c⟩ := by
  intro points locked claimed thrown asked
  have ht : thrown.desk = s.desk := by
    refine Smalls.desk ?_
    have h1 : Smalls s ((s.transferOwners d).foldl State.transferRest locked) :=
      Smalls.foldl (f := State.transferRest) (fun o h => h.transferRest o) _ (locked_smalls s i d)
    have w : ∀ x : State, Walk (fun _ => True) x ((points.map (fun p => FlankTarget.point p.point p.pos) ++ c.filterMap Prod.snd).foldl
        State.throwClaimed ((indexFrom1 c).foldl (State.claimItem i) x)) := fun x =>
      Walk.foldl (f := State.throwClaimed) (fun t h => h.throwClaimed t) _
        (Walk.foldl (f := State.claimItem i) (fun p h => h.claimItem i p) _ .refl)
    exact h1.trans (w _).smalls
  have hf : ∀ x : State, (points.map fun p => FlankTarget.point p.point p.pos).foldl State.throwClaimed x =
      points.foldl State.throwReq x := fun x => by rw [List.foldl_map]; rfl
  have hth : thrown = (c.filterMap Prod.snd).foldl State.throwClaimed (points.foldl State.throwReq claimed) := by
    show List.foldl _ _ _ = _
    rw [List.foldl_append, hf]
  have e1 : (c.filterMap Prod.snd).foldl State.throwClaimed (points.foldl State.throwReq claimed) = thrown := hth.symm
  show Reserved.mk _ _ _ = _
  rw [e1, outstanding_of_desk ht, needsDirection_of_desk ht] <;> rfl

/-! ### Locks (R11) -/

theorem setEntry_rows (e : Nat) (f : Slot → Slot) :
    (∀ g, s.signal? e = some g → (s.setEntry e f).signal? e = some { g with entrySlot := f g.entrySlot })
      ∧ (∀ b, s.boundary? e = some b → (s.setEntry e f).boundary? e = some { b with entrySlot := f b.entrySlot })
      ∧ ∀ x, x ≠ e → (s.setEntry e f).elem x = s.elem x := by
  refine ⟨fun g h => ?_, fun b h => ?_, fun x h => ?_⟩
  · have he := elem_of_signal h
    have hb := lt_of_elem (s := s) (e := e) (by rw [he]; nofun)
    simp only [State.setEntry, he, State.signal?, elem_putElem_same _ _ _ hb]
  · have he := boundary_of_elem.1 h
    have hb := lt_of_elem (s := s) (e := e) (by rw [he]; nofun)
    simp only [State.setEntry, he, State.boundary?, elem_putElem_same _ _ _ hb]
  · unfold State.setEntry
    split <;> first | rfl | exact elem_putElem_ne _ _ _ _ (Ne.symm h)

theorem setExit_rows (e : Nat) (f : Slot → Slot) :
    (∀ g, s.signal? e = some g → (s.setExit e f).signal? e = some { g with exitSlot := f g.exitSlot })
      ∧ (∀ b, s.boundary? e = some b → (s.setExit e f).boundary? e = some { b with exitSlot := f b.exitSlot })
      ∧ ∀ x, x ≠ e → (s.setExit e f).elem x = s.elem x := by
  refine ⟨fun g h => ?_, fun b h => ?_, fun x h => ?_⟩
  · have he := elem_of_signal h
    have hb := lt_of_elem (s := s) (e := e) (by rw [he]; nofun)
    simp only [State.setExit, he, State.signal?, elem_putElem_same _ _ _ hb]
  · have he := boundary_of_elem.1 h
    have hb := lt_of_elem (s := s) (e := e) (by rw [he]; nofun)
    simp only [State.setExit, he, State.boundary?, elem_putElem_same _ _ _ hb]
  · unfold State.setExit
    split <;> first | rfl | exact elem_putElem_ne _ _ _ _ (Ne.symm h)

end

theorem point_congr {s t : State} {e : Nat} (h : t.elem e = s.elem e) : t.point? e = s.point? e := by
  simp only [State.point?, h]

theorem track_congr {s t : State} {e : Nat} (h : t.elem e = s.elem e) : t.track? e = s.track? e := by
  simp only [State.track?, h]

/-- The points of an item locked one after the other. -/
theorem lockPoints_rows (i : Nat) (role : Role) (l : List PointReq) (s : State) :
    let t := l.foldl (fun (s : State) r =>
      match s.point? r.point with
      | some p => s.putElem r.point (.point { p with lock := .held i role r.pos })
      | none => s) s
    (∀ x, (∀ p ∈ l, p.point ≠ x) → t.elem x = s.elem x)
      ∧ (∀ x, s.point? x = none → t.elem x = s.elem x)
      ∧ ((l.map PointReq.point).Nodup → ∀ p ∈ l, ∀ x, s.point? p.point = some x →
        t.point? p.point = some { x with lock := .held i role p.pos }) := by
  induction l generalizing s with
  | nil => exact ⟨fun _ _ => rfl, fun _ _ => rfl, fun _ p hp => nomatch hp⟩
  | cons r l ih =>
    simp only [List.foldl_cons]
    generalize hu : (match s.point? r.point with
      | some p => s.putElem r.point (.point { p with lock := .held i role r.pos })
      | none => s) = u
    have h1 : ∀ x, x ≠ r.point → u.elem x = s.elem x := fun x hx => by
      rw [← hu]
      split
      · exact elem_putElem_ne _ _ _ _ (Ne.symm hx)
      · rfl
    have h2 : ∀ y, s.point? r.point = some y → u.point? r.point = some { y with lock := .held i role r.pos } := fun y hy => by
      have hb := lt_of_elem (s := s) (e := r.point) (by rw [elem_of_point hy]; nofun)
      rw [← hu, hy]
      simp only [State.point?, elem_putElem_same _ _ _ hb]
    obtain ⟨i1, i2, i3⟩ := ih u
    refine ⟨fun x hx => ?_, fun x hx => ?_, fun hn p hp x hx => ?_⟩
    · rw [i1 x fun p hp => hx p (List.mem_cons_of_mem _ hp), h1 x (Ne.symm (hx r (List.mem_cons_self ..)))]
    · by_cases hr : x = r.point
      · subst hr
        have : u = s := by rw [← hu, hx]
        rw [i2 _ (by rw [this]; exact hx), this]
      · rw [i2 x (by rw [point_congr (h1 x hr)]; exact hx), h1 x hr]
    · obtain ⟨ha, hn⟩ := List.nodup_cons.1 hn
      rcases List.mem_cons.1 hp with rfl | hp
      · have := i1 p.point fun q hq e => ha (e ▸ List.mem_map_of_mem hq)
        rw [point_congr this]
        exact h2 x hx
      · have hne : p.point ≠ r.point := fun e => ha (e ▸ List.mem_map_of_mem hp)
        exact i3 hn p hp x (by rw [point_congr (h1 _ hne)]; exact hx)

/-- A path item or overlap locked (R11): its section and its points, and no other record. -/
theorem lockItem_rows (s : State) (i : Nat) (role : Role) (it : PathItem) :
    (∀ x, x ≠ it.sect → (∀ p ∈ it.points, p.point ≠ x) → (State.lockItem i role s it).elem x = s.elem x)
      ∧ (∀ t, s.track? it.sect = some t → (State.lockItem i role s it).track? it.sect = some { t with lock := .held i role })
      ∧ ((it.points.map PointReq.point).Nodup → ∀ p ∈ it.points, ∀ x, s.point? p.point = some x →
        (State.lockItem i role s it).point? p.point = some { x with lock := .held i role p.pos }) := by
  generalize hu : (match s.track? it.sect with
    | some t => s.putElem it.sect (.track { t with lock := .held i role })
    | none => s) = u
  have h1 : ∀ x, x ≠ it.sect → u.elem x = s.elem x := fun x hx => by
    rw [← hu]
    split
    · exact elem_putElem_ne _ _ _ _ (Ne.symm hx)
    · rfl
  have h2 : ∀ y, s.track? it.sect = some y → u.track? it.sect = some { y with lock := .held i role } := fun y hy => by
    have hb := lt_of_elem (s := s) (e := it.sect) (by rw [elem_of_track hy]; nofun)
    rw [← hu, hy]
    simp only [State.track?, elem_putElem_same _ _ _ hb]
  obtain ⟨i1, i2, i3⟩ := lockPoints_rows i role it.points u
  have hl : State.lockItem i role s it = it.points.foldl (fun (s : State) r =>
      match s.point? r.point with
      | some p => s.putElem r.point (.point { p with lock := .held i role r.pos })
      | none => s) u := by
    rw [← hu]; rfl
  rw [hl]
  refine ⟨fun x hx hp => by rw [i1 x hp, h1 x hx], fun t ht => ?_, fun hn p hp x hx => ?_⟩
  · have h3 := h2 t ht
    rw [track_congr (i2 it.sect (by simp only [State.point?, elem_of_track h3]))]
    exact h3
  · refine i3 hn p hp x ?_
    by_cases hs : p.point = it.sect
    · have : u = s := by
        rw [← hu, ← hs]
        simp only [State.track?, elem_of_point hx]
      rw [this]
      exact hx
    · rw [point_congr (h1 _ hs)]
      exact hx

/-! ### Transfer (R10, R11) -/

theorem nodup_eraseDups {α : Type} [BEq α] [LawfulBEq α] (l : List α) : l.eraseDups.Nodup := by
  induction hn : l.length using Nat.strong_induction_on generalizing l with
  | _ n ih =>
    cases l with
    | nil => exact List.nodup_nil
    | cons a l =>
      rw [List.eraseDups_cons, List.nodup_cons]
      refine ⟨fun h => ?_, ih _ ?_ _ rfl⟩
      · rw [List.mem_eraseDups] at h
        simp at h
      · rw [← hn]
        exact Nat.lt_succ_of_le (List.length_filter_le _ _)

/-- The old owners whose overlap the path takes over (R10), each once. -/
theorem mem_transferOwners (s : State) (d : RouteDef) (j : Nat) : j ∈ s.transferOwners d ↔
    ∃ it ∈ d.path, (∃ t, s.track? it.sect = some t ∧ s.sectionTransfer d t = some j)
      ∨ ∃ p ∈ it.points, ∃ x, s.point? p.point = some x ∧ s.pointTransfer d x p.pos = some j := by
  simp only [State.transferOwners, List.mem_eraseDups, List.mem_flatMap, List.mem_append, Option.mem_toList, List.mem_filterMap,
    Option.bind_eq_some_iff]

/-- The unlocking of items touches their own records alone. -/
theorem unlockItems_elem (i : Nat) (l : List PathItem) (a : State × Bool) (x : Nat)
    (hx : ∀ it ∈ l, x ≠ it.sect ∧ ∀ p ∈ it.points, p.point ≠ x) :
    (l.foldl (State.unlockItem i) a).1.elem x = a.1.elem x := by
  have h1 : ∀ (a : State × Bool) e, x ≠ e → (State.unlockTrack i a e).1.elem x = a.1.elem x := fun a e he => by
    unfold State.unlockTrack
    (repeat' split) <;> first | rfl | exact elem_putElem_ne _ _ _ _ (Ne.symm he)
  have h2 : ∀ (l : List Nat) (a : State × Bool), x ∉ l → (l.foldl (State.unlockPoint i) a).1.elem x = a.1.elem x := by
    intro l
    induction l with
    | nil => intro a _; rfl
    | cons e l ih =>
      intro a he
      simp only [List.mem_cons, not_or] at he
      obtain ⟨hn, he⟩ := he
      rw [List.foldl_cons, ih _ he]
      unfold State.unlockPoint
      (repeat' split) <;> first | rfl | exact elem_putElem_ne _ _ _ _ (Ne.symm hn)
  induction l generalizing a with
  | nil => rfl
  | cons it l ih =>
    obtain ⟨hs, hp⟩ := hx it (List.mem_cons_self ..)
    rw [List.foldl_cons, ih _ fun y hy => hx y (List.mem_cons_of_mem _ hy)]
    unfold State.unlockItem
    rw [h2 _ _ (fun hm => by obtain ⟨p, hm, e⟩ := List.mem_map.1 hm; exact hp p hm e), h1 _ _ hs]

theorem nodup_transferOwners (s : State) (d : RouteDef) : (s.transferOwners d).Nodup := nodup_eraseDups _

/-- The rest of an overlap released as it is transferred (R11): nothing of it is held by the old owner any more, no other record
changes, a release notice goes out when something was emptied (R12), and the owner is told. -/
theorem transferRest_rows (s : State) (o : Nat) :
    (s.live o = none → s.transferRest o = s.notify (.overlapTransferred o))
      ∧ ∀ r d, s.live o = some (r, d) →
        (s.transferRest o).notices = s.notices ++ [.overlapTransferred o]
        ∧ (∀ it, d.overlap = some it → ¬ (s.transferRest o).HoldsItem o it)
        ∧ (∀ x, (∀ it, d.overlap = some it → x ≠ it.sect ∧ ∀ p ∈ it.points, p.point ≠ x) →
          (s.transferRest o).elem x = s.elem x)
        ∧ ((∃ it, d.overlap = some it ∧ s.HoldsItem o it) → s.Triggered (s.transferRest o))
        ∧ (¬ (∃ it, d.overlap = some it ∧ s.HoldsItem o it) → s.transferRest o = s.notify (.overlapTransferred o)) := by
  refine ⟨fun h => by simp only [State.transferRest, h], fun r d h => ?_⟩
  have ht : s.transferRest o = (s.releaseOverlap o d).notify (.overlapTransferred o) := by
    simp only [State.transferRest, h]
    rfl
  obtain ⟨k1, k2⟩ := releaseOverlap_rows s o d
  have he : ∀ x, (s.transferRest o).elem x = (d.overlap.toList.foldl (State.unlockItem o) (s, false)).1.elem x := fun x => by
    rw [ht]
    show (releaseNotice _).elem x = _
    unfold releaseNotice
    split
    · obtain ⟨q, m, hq⟩ := retestTrigger_rest (s := (d.overlap.toList.foldl (State.unlockItem o) (s, false)).1)
      rw [hq]
      rfl
    · rfl
  refine ⟨?_, fun it hit => ?_, fun x hx => ?_, fun hh => ?_, fun hh => ?_⟩
  · have : (s.releaseOverlap o d).wires = s.wires := by
      unfold State.releaseOverlap
      rw [releaseNotice_wires, foldl_wires (unlockItem_wires o)]
    rw [ht]
    show (s.releaseOverlap o d).notices ++ _ = _
    rw [show (s.releaseOverlap o d).notices = s.notices from congrArg (fun w => w.2.2) this]
  · have hf := Walk.unlockItems_free o d.overlap.toList (s, false)
    rintro (⟨x, role, hx, hl⟩ | ⟨p, hp, x, role, q, hx, hl⟩)
    · refine hf .track it.sect ⟨it, by simpa using hit, rfl⟩ ?_
      rw [← he, elem_of_track hx]
      simp only [Element.slot, hl]
    · refine hf .point p.point ⟨it, by simpa using hit, List.mem_map_of_mem hp⟩ ?_
      rw [← he, elem_of_point hx]
      simp only [Element.slot, hl]
  · rw [he]
    exact unlockItems_elem o d.overlap.toList (s, false) x fun it hit => hx it (by simpa using hit)
  · rw [ht]
    exact (k1 hh).of_eq rfl rfl rfl rfl
  · have := unlockItems_sheds o d.overlap.toList (s, false)
    simp only [Option.mem_toList] at this
    rcases this with ⟨h1, -⟩ | ⟨-, h2, -⟩
    · simp only [State.transferRest, h, h1, releaseNotice, Bool.false_eq_true, if_false]
    · exact absurd h2 hh

/-! ### FLANK-ASK (R181) -/

/-- The items asked of a neighbour: the BOUNDARY primaries chosen, in item order. -/
theorem mem_askedItems (d : RouteDef) (choices : List (Nat × Option FlankTarget)) (m : Nat) (f : FlankItem) :
    (m, f) ∈ askedItems d choices ↔ 1 ≤ m ∧ d.flank[m - 1]? = some f ∧ ∃ n, choices[m - 1]? = some (n, none) := by
  unfold askedItems indexFrom1
  simp only [List.mem_filterMap]
  constructor
  · rintro ⟨⟨p, n, t⟩, hm, hp⟩
    dsimp only at hp
    cases t with
    | some t => simp at hp
    | none =>
      simp only [Option.isNone_none, if_true, Option.some.injEq] at hp
      subst hp
      obtain ⟨k, hk⟩ := List.mem_iff_getElem?.1 hm
      rw [List.getElem?_zip_eq_some, List.getElem?_zip_eq_some] at hk
      obtain ⟨⟨h1, h2⟩, h3⟩ := hk
      have hkl : k < d.flank.length := (List.getElem?_eq_some_iff.1 h2).1
      rw [List.getElem?_range' (by simpa using hkl)] at h1
      have : m = 1 + k := by simpa using h1.symm
      subst this
      exact ⟨by omega, by simpa using h2, n, by simpa using h3⟩
  · rintro ⟨h1, h2, n, h3⟩
    refine ⟨((m, f), n, none), ?_, by simp⟩
    rw [List.mem_iff_getElem?]
    have hml : m - 1 < d.flank.length := (List.getElem?_eq_some_iff.1 h2).1
    refine ⟨m - 1, List.getElem?_zip_eq_some.2 ⟨List.getElem?_zip_eq_some.2 ⟨?_, h2⟩, h3⟩⟩
    rw [List.getElem?_range' (by simpa using hml)]
    exact congrArg some (by dsimp only; omega)

theorem zip_pairwise {α β : Type} {R : α → α → Prop} {l : List α} (h : l.Pairwise R) (m : List β) :
    (l.zip m).Pairwise fun p q => R p.1 q.1 := by
  induction h generalizing m with
  | nil => exact List.Pairwise.nil
  | cons ha _ ih =>
    cases m with
    | nil => exact List.Pairwise.nil
    | cons b m => exact List.Pairwise.cons (fun p hp => ha _ (List.of_mem_zip hp).1) (ih m)

theorem askedItems_rising (d : RouteDef) (choices : List (Nat × Option FlankTarget)) :
    (askedItems d choices).Pairwise fun p q => p.1 < q.1 := by
  unfold askedItems indexFrom1
  rw [List.pairwise_filterMap]
  refine (zip_pairwise (zip_pairwise List.pairwise_lt_range' d.flank) choices).imp ?_
  rintro ⟨p, n, t⟩ ⟨q, n', t'⟩ hlt x hx y hy
  cases t <;> cases t' <;> simp_all

/-- FLANK-ASK for an item by the state of the link (R181). -/
theorem askAssurance_rows (s : State) (b : BLink) (ref i m : Nat) :
    ((s.blcAt b).link = .down → s.askAssurance b ref i m = s.notify (.itemLinkDown i b))
      ∧ ((s.blcAt b).link = .sync → let t := s.askAssurance b ref i m
        t.out = s.out ∧ t.notices = s.notices ∧ (∀ x, x ≠ b → t.blcAt x = s.blcAt x)
        ∧ t.blcAt b = { s.blcAt b with
            assurances := (s.blcAt b).assurances ++ [⟨ref, i, m, false, .stopped⟩]
            heldBack := (s.blcAt b).heldBack ++ [.flankAsk ref] })
      ∧ ((s.blcAt b).link = .up → ∀ pre a post,
        (s.blcAt b).assurances ++ [⟨ref, i, m, false, .stopped⟩] = pre ++ a :: post →
        (∀ x ∈ pre, ¬(x.ref = ref ∧ x.assured = false ∧ x.timer = .stopped)) → a.ref = ref → a.assured = false →
        a.timer = .stopped → let t := s.askAssurance b ref i m
        t.out = s.out ++ [.boundary b (.flankAsk ref)] ∧ t.notices = s.notices ∧ (∀ x, x ≠ b → t.blcAt x = s.blcAt x)
        ∧ t.blcAt b = { s.blcAt b with assurances := pre ++ { a with timer := .running 40 } :: post }) := by
  let u : State := s.modBlc b fun r => { r with assurances := r.assurances ++ [⟨ref, i, m, false, .stopped⟩] }
  have hu : u.blcAt b = { s.blcAt b with assurances := (s.blcAt b).assurances ++ [⟨ref, i, m, false, .stopped⟩] } :=
    blcAt_modBlc_same ..
  have un : ∀ x, x ≠ b → u.blcAt x = s.blcAt x := fun x hx => blcAt_modBlc_ne s b x _ (Ne.symm hx)
  have uo : u.out = s.out := by simp [u, State.modBlc]
  have ut : u.notices = s.notices := modBlc_notices ..
  have hs : (s.blcAt b).link ≠ .down → s.askAssurance b ref i m = u.sendAsk b (.flankAsk ref) := fun h =>
    if_neg (by simpa using h)
  refine ⟨fun h => if_pos (by simp [h]), fun h => ?_, fun h pre a post he hp hr ha ht => ?_⟩
  · intro t
    have : t = u.modBlc b fun r => { r with heldBack := r.heldBack ++ [.flankAsk ref] } := by
      show s.askAssurance b ref i m = _
      rw [hs (by simp [h]), State.sendAsk, hu]
      simp only [h]
      rw [State.sendHeld, hu]
      simp only [h]
    rw [this]
    exact ⟨by rw [← uo]; simp [State.modBlc], (modBlc_notices ..).trans ut,
      fun x hx => (blcAt_modBlc_ne u b x _ (Ne.symm hx)).trans (un x hx), by rw [blcAt_modBlc_same, hu]⟩
  · intro t
    have : t = State.flushOne b u (.flankAsk ref) := by
      show s.askAssurance b ref i m = _
      rw [hs (by simp [h]), State.sendAsk, hu]
      simp only [h]
    rw [this]
    obtain ⟨i1, i2, i3, i4⟩ := flushed_rows u b [.flankAsk ref]
    refine ⟨i3.trans (by rw [uo]; rfl), ?_, fun x hx => (i2 x hx).trans (un x hx), i1.trans ?_⟩
    · exact (modBlc_notices ..).trans ut
    · rw [hu]
      exact ((startTimerOf_rows _ ref).2.1 pre a post he hp hr ha ht)

end Sys2Proof.Machine
end

