-- ==== Sys2Proof/Laws/Indications.lean ====
section
/-! SUPPORT. What each object's indication carries (R44, R100, R117, R126, R147, R148, R159, R184). -/

set_option Elab.async false

namespace Sys2Proof.Machine

/-- Remaining times are whole seconds rounded up. -/
theorem seconds_rounds_up (n : Nat) :
    (n ≤ 10 * (Timer.running n).seconds ∧ 10 * (Timer.running n).seconds < n + 10)
      ∧ (n ≤ 10 * (Timer.frozen n).seconds ∧ 10 * (Timer.frozen n).seconds < n + 10) := by
  simp only [Timer.seconds]
  omega

/-- The area indication (R148). -/
theorem areaBody_rows (r : Area) : ∃ offer force, areaBody r = .area r.holder offer force
    ∧ (r.offer = .stopped → offer = none) ∧ (r.holder = .none → offer = none)
    ∧ (r.offer ≠ .stopped → r.holder = .centre → offer = some (.olL, r.offer.seconds))
    ∧ (r.offer ≠ .stopped → r.holder = .localPanel → offer = some (.olC, r.offer.seconds))
    ∧ (r.force = .stopped → force = none) ∧ (r.force ≠ .stopped → force = some r.force.seconds) := by
  refine ⟨_, _, rfl, ?_, ?_, ?_, ?_, ?_, ?_⟩ <;> intros <;> simp_all [linkOf, otherLink]

/-- The indication of an element (R17, R44, R117). -/
theorem elementBody_rows (s : State) (e : Nat) : ∃ flank track,
    s.elementBody e = .element (s.elem e) flank (s.drive e) (s.cmd e) track
      ∧ (s.flankRef e = none → flank = none)
      ∧ (∀ n f, s.flankRef e = some n → s.fctEntry n = some f → flank = some (n, f))
      ∧ (s.count e = none → track = none)
      ∧ ∀ c, s.count e = some c → ∃ v, track = some v ∧ v.count = c.count ∧ v.cause = c.cause ∧ v.sweep = c.sweep
          ∧ v.saturated = c.saturated
          ∧ v.points = c.points.filterMap fun p => (s.dp p.1).map fun (r : DpRec) => (p.1, r.state) := by
  refine ⟨_, _, rfl, ?_, ?_, ?_, ?_⟩
  · intro h; rw [h]; rfl
  · intro n f h hf; simp [h, hf]
  · intro h; rw [h]; rfl
  · intro c h; rw [h]; exact ⟨_, rfl, rfl, rfl, rfl, rfl, rfl⟩

/-- The indication of an instance (R100, R126). -/
theorem instIndication_rows (s : State) (l : OpLink) (i : Nat) :
    (s.live i = none → s.indicationOf l (.inst i) = .inst none)
      ∧ ∀ r d, s.live i = some (r, d) → s.indicationOf l (.inst i) = .inst (some (s.instView (r, d))) :=
  ⟨fun h => by simp [State.indicationOf, h], fun r d h => by simp [State.indicationOf, h]⟩

/-- The boundary indication (R184). -/
theorem boundaryIndication_rows (s : State) (l : OpLink) (b : BLink) : ∃ v release,
    s.indicationOf l (.boundary b.val) = .boundary v
      ∧ v = { link := (s.blcAt b).link, direction := (s.blcAt b).direction, change := (s.blcAt b).change
              isOpen := (s.blcAt b).isOpen, senior := (s.blcAt b).senior, used := (s.blcAt b).used
              neighbourClear := (s.blcAt b).neighbourClear, lineClear := s.lineClear b
              outAsks := (s.blcAt b).outAsks.map fun (a : OutAsk) => ⟨a.ref, a.inst⟩
              outgoing := (s.blcAt b).outgoing, inAsks := (s.blcAt b).inAsks, incoming := (s.blcAt b).incoming
              assurances := (s.blcAt b).assurances.map fun (a : Assurance) => (a.ref, a.inst, a.item, a.assured)
              lostHoldings := (s.blcAt b).lostHoldings, release := release }
      ∧ ((s.blcAt b).release = .stopped → release = none)
      ∧ ((s.blcAt b).release ≠ .stopped → release = some (s.blcAt b).release.seconds) := by
  have hb : Fin.ofNat 4 b.val = b := Fin.ext (Nat.mod_eq_of_lt b.isLt)
  refine ⟨s.boundaryView b, (s.boundaryView b).release, by rw [State.indicationOf, hb], rfl, ?_, ?_⟩ <;> intro h <;>
    simp [State.boundaryView, h]

/-- The element of a waiting entry (R100); an ASKING flank item's is its primary's. -/
theorem waitElem_asking (s : State) (d : RouteDef) (m : Nat) (f : FlankItem) (h : d.flank[m - 1]? = some f) :
    (∀ t, f.primary = .claim t → s.waitElem d (.asking m) = FlankTarget.elem t)
      ∧ ∀ b ref, f.primary = .boundary b ref → s.waitElem d (.asking m) = s.boundaryElem b := by
  constructor <;> intros <;> simp_all [State.waitElem, State.primaryElem]

end Sys2Proof.Machine
end

