-- ==== Sys2Proof/Laws/PerInstr.lean ====
section
/-! SUPPORT. A per-command statement: a command is well formed when, and only when, each of its numbers lies in its
range. -/

set_option Elab.async false

namespace Sys2Proof.Laws.Forms

/-- A number with its lowest and highest value. -/
structure Range where
  low : Nat
  value : Nat
  high : Nat

def Range.holds (r : Range) : Prop := r.low ≤ r.value ∧ r.value ≤ r.high

/-- The element numbers an order names. -/
def orderRanges (o : Schedule) : List Range := o.map fun p => ⟨0, p.1, 255⟩

/-- Boundary references, and how many of them a list may hold. -/
def refRanges (most : Nat) (l : List Nat) : List Range := ⟨0, l.length, most⟩ :: l.map fun r => ⟨0, r, 15⟩

/-- The numbers of a command with their ranges (00_scope section 4.1, chapter 11). -/
def ranges : Instr → List Range
  | .pollExchangeEnd _ o => orderRanges o
  | .exchangeAnswerTimeout o => orderRanges o
  | .supervisionTimerExpiry e => [⟨0, e, 255⟩]
  | .confirmationTimerExpiry e => [⟨0, e, 255⟩]
  | .offerTimerExpiry a => [⟨0, a, 15⟩]
  | .forceTimerExpiry a => [⟨0, a, 15⟩]
  | .settingTimerExpiry i => [⟨0, i, 47⟩]
  | .overlapTimerExpiry i => [⟨0, i, 47⟩]
  | .approachTimerExpiry i => [⟨0, i, 47⟩]
  | .emergencyTimerExpiry i => [⟨0, i, 47⟩]
  | .lifetimeTimerExpiry r => [⟨0, r, 511⟩]
  | .operatorRequestOnBoundary _ k => [⟨1, k.toNat, 22⟩]
  | .statusReceived _ b => refRanges 1 b.pendingRefs
  | .holdingsReceived _ b =>
    refRanges 1 b.acceptancesGiven ++ refRanges 1 b.acceptancesReceived ++ refRanges 16 b.assurancesGiven
      ++ refRanges 16 b.assurancesReceived
  | .acceptAskReceived _ r => [⟨0, r, 15⟩]
  | .acceptGiveReceived _ r => [⟨0, r, 15⟩]
  | .acceptRefuseReceived _ r _ => [⟨0, r, 15⟩]
  | .acceptResponseTimerExpiry _ i => [⟨0, i, 47⟩]
  | .acceptWithdrawReceived _ r => [⟨0, r, 15⟩]
  | .trainHandedReceived _ r => [⟨0, r, 15⟩]
  | .acceptEndReceived _ r => [⟨0, r, 15⟩]
  | .flankAskReceived _ r => [⟨0, r, 15⟩]
  | .flankGiveReceived _ r => [⟨0, r, 15⟩]
  | .flankRefuseReceived _ r => [⟨0, r, 15⟩]
  | .flankDropReceived _ r => [⟨0, r, 15⟩]
  | .flankResponseTimerExpiry _ i m => [⟨0, i, 47⟩, ⟨1, m, 8⟩]
  | _ => []

/-- The check of WellFormed.lean says that every number of the command lies in its range. -/
def Statement (i : Instr) : Prop := i.wellFormed = true ↔ ∀ r ∈ ranges i, r.holds

/-- A command without numbers is well formed. -/
theorem of_none {i : Instr} (h : i.wellFormed = true) (k : ranges i = []) : Statement i := by
  simp [Statement, h, k]

/-- A command with one number that counts from 0. -/
theorem of_one {i : Instr} {n k : Nat} (h : i.wellFormed = decide (n < k + 1)) (e : ranges i = [⟨0, n, k⟩]) :
    Statement i := by
  simp only [Statement, h, e, List.mem_singleton, forall_eq, Range.holds, decide_eq_true_eq]
  omega

theorem refs_iff (most : Nat) (l : List Nat) :
    (∀ r ∈ refRanges most l, r.holds) ↔ l.length ≤ most ∧ l.all refOk = true := by
  simp only [refRanges, List.forall_mem_cons, List.forall_mem_map, Range.holds, List.all_eq_true, refOk,
    decide_eq_true_eq, Nat.zero_le, true_and, Nat.lt_succ_iff]

theorem order_iff (o : Schedule) : (∀ r ∈ orderRanges o, r.holds) ↔ o.wellFormed = true := by
  simp only [orderRanges, List.forall_mem_map, Range.holds, Schedule.wellFormed, List.all_eq_true,
    decide_eq_true_eq, Nat.zero_le, true_and, Nat.lt_succ_iff]

theorem coldStart : Statement .coldStart := of_none rfl rfl
theorem loadComplete (img : Image) (counters : Option AouCounters) :
    Statement (.loadComplete img counters) := of_none rfl rfl
theorem counterWriteComplete (readBack : Option AouCounters) : Statement (.counterWriteComplete readBack) :=
  of_none rfl rfl
theorem scrubCheck (found : ScrubResult) : Statement (.scrubCheck found) := of_none rfl rfl
theorem roundStart : Statement .roundStart := of_none rfl rfl
theorem commandExchangeStart : Statement .commandExchangeStart := of_none rfl rfl
theorem pollExchangeEnd (frame : List Byte) (order : Schedule) : Statement (.pollExchangeEnd frame order) := by
  simp only [Statement, Instr.wellFormed, ranges, order_iff]

theorem commandExchangeEnd (frame : List Byte) : Statement (.commandExchangeEnd frame) := of_none rfl rfl

theorem exchangeAnswerTimeout (order : Schedule) : Statement (.exchangeAnswerTimeout order) := by
  simp only [Statement, Instr.wellFormed, ranges, order_iff]

theorem supervisionTimerExpiry (point : Nat) : Statement (.supervisionTimerExpiry point) := of_one rfl rfl
theorem confirmationTimerExpiry (signal : Nat) : Statement (.confirmationTimerExpiry signal) := of_one rfl rfl
theorem operatorTelegramArrival (link : OpLink) (frame : List Byte) :
    Statement (.operatorTelegramArrival link frame) := of_none rfl rfl
theorem unknownRequestKind (link : OpLink) : Statement (.unknownRequestKind link) := of_none rfl rfl
theorem replyTransmit (link : OpLink) : Statement (.replyTransmit link) := of_none rfl rfl
theorem sendIndication (link : OpLink) : Statement (.sendIndication link) := of_none rfl rfl
theorem setRoute (link : OpLink) : Statement (.setRoute link) := of_none rfl rfl
theorem press (link : OpLink) : Statement (.press link) := of_none rfl rfl
theorem selectionTimerExpiry (link : OpLink) : Statement (.selectionTimerExpiry link) := of_none rfl rfl
theorem cancelRoute (link : OpLink) : Statement (.cancelRoute link) := of_none rfl rfl
theorem reClear (link : OpLink) : Statement (.reClear link) := of_none rfl rfl
theorem storeCancel (link : OpLink) : Statement (.storeCancel link) := of_none rfl rfl
theorem stopArea (link : OpLink) : Statement (.stopArea link) := of_none rfl rfl
theorem pointThrow (link : OpLink) : Statement (.pointThrow link) := of_none rfl rfl
theorem pointReset (link : OpLink) : Statement (.pointReset link) := of_none rfl rfl
theorem signalReset (link : OpLink) : Statement (.signalReset link) := of_none rfl rfl
theorem block (link : OpLink) : Statement (.block link) := of_none rfl rfl
theorem unblock (link : OpLink) : Statement (.unblock link) := of_none rfl rfl
theorem boundaryOpen (link : OpLink) : Statement (.boundaryOpen link) := of_none rfl rfl
theorem boundaryClose (link : OpLink) : Statement (.boundaryClose link) := of_none rfl rfl
theorem dirRequest (link : OpLink) : Statement (.dirRequest link) := of_none rfl rfl
theorem auxIssue (link : OpLink) : Statement (.auxIssue link) := of_none rfl rfl
theorem auxConfirm (link : OpLink) : Statement (.auxConfirm link) := of_none rfl rfl
theorem auxWindowExpiry (link : OpLink) : Statement (.auxWindowExpiry link) := of_none rfl rfl
theorem authTake (link : OpLink) : Statement (.authTake link) := of_none rfl rfl
theorem authOffer (link : OpLink) : Statement (.authOffer link) := of_none rfl rfl
theorem authReturn (link : OpLink) : Statement (.authReturn link) := of_none rfl rfl
theorem offerTimerExpiry (area : Nat) : Statement (.offerTimerExpiry area) := of_one rfl rfl
theorem forceTimerExpiry (area : Nat) : Statement (.forceTimerExpiry area) := of_one rfl rfl
theorem readRoute (link : OpLink) : Statement (.readRoute link) := of_none rfl rfl
theorem readCounters (link : OpLink) : Statement (.readCounters link) := of_none rfl rfl
theorem snapshot (link : OpLink) : Statement (.snapshot link) := of_none rfl rfl
theorem settingTimerExpiry (inst : Nat) : Statement (.settingTimerExpiry inst) := of_one rfl rfl
theorem overlapTimerExpiry (inst : Nat) : Statement (.overlapTimerExpiry inst) := of_one rfl rfl
theorem approachTimerExpiry (inst : Nat) : Statement (.approachTimerExpiry inst) := of_one rfl rfl
theorem emergencyTimerExpiry (inst : Nat) : Statement (.emergencyTimerExpiry inst) := of_one rfl rfl
theorem retestRequest : Statement .retestRequest := of_none rfl rfl
theorem lifetimeTimerExpiry (route : Nat) : Statement (.lifetimeTimerExpiry route) := of_one rfl rfl
theorem incomingAcceptanceRequest : Statement .incomingAcceptanceRequest := of_none rfl rfl
theorem statusTimerExpiry (b : BLink) : Statement (.statusTimerExpiry b) := of_none rfl rfl
theorem boundaryFrameDiscarded (b : BLink) (frame : List Byte) :
    Statement (.boundaryFrameDiscarded b frame) := of_none rfl rfl
theorem operatorRequestOnBoundary (b : BLink) (kind : Byte) : Statement (.operatorRequestOnBoundary b kind) := by
  simp [Statement, Instr.wellFormed, ranges, Range.holds]

theorem statusReceived (b : BLink) (body : StatusBody) : Statement (.statusReceived b body) := by
  simp only [Statement, Instr.wellFormed, ranges, refs_iff, StatusBody.wellFormed, Bool.and_eq_true, decide_eq_true_eq]

theorem holdingsReceived (b : BLink) (body : HoldingsBody) : Statement (.holdingsReceived b body) := by
  simp only [Statement, Instr.wellFormed, ranges, List.forall_mem_append, refs_iff, HoldingsBody.wellFormed,
    Bool.and_eq_true, decide_eq_true_eq]
  constructor
  · rintro ⟨⟨⟨⟨⟨⟨⟨h1, h2⟩, h3⟩, h4⟩, h5⟩, h6⟩, h7⟩, h8⟩
    exact ⟨⟨⟨⟨h1, h5⟩, h2, h6⟩, h3, h7⟩, h4, h8⟩
  · rintro ⟨⟨⟨⟨h1, h5⟩, h2, h6⟩, h3, h7⟩, h4, h8⟩
    exact ⟨⟨⟨⟨⟨⟨⟨h1, h2⟩, h3⟩, h4⟩, h5⟩, h6⟩, h7⟩, h8⟩

theorem silenceTimerExpiry (b : BLink) : Statement (.silenceTimerExpiry b) := of_none rfl rfl
theorem holdingsResponseTimerExpiry (b : BLink) : Statement (.holdingsResponseTimerExpiry b) := of_none rfl rfl
theorem dirAskReceived (b : BLink) : Statement (.dirAskReceived b) := of_none rfl rfl
theorem dirGiveReceived (b : BLink) : Statement (.dirGiveReceived b) := of_none rfl rfl
theorem dirRefuseReceived (b : BLink) : Statement (.dirRefuseReceived b) := of_none rfl rfl
theorem dirResponseTimerExpiry (b : BLink) : Statement (.dirResponseTimerExpiry b) := of_none rfl rfl
theorem acceptAskReceived (b : BLink) (ref : Nat) : Statement (.acceptAskReceived b ref) := of_one rfl rfl
theorem acceptGiveReceived (b : BLink) (ref : Nat) : Statement (.acceptGiveReceived b ref) := of_one rfl rfl
theorem acceptRefuseReceived (b : BLink) (ref : Nat) (reason : RefuseReason) :
    Statement (.acceptRefuseReceived b ref reason) := of_one rfl rfl
theorem acceptResponseTimerExpiry (b : BLink) (inst : Nat) :
    Statement (.acceptResponseTimerExpiry b inst) := of_one rfl rfl
theorem acceptWithdrawReceived (b : BLink) (ref : Nat) : Statement (.acceptWithdrawReceived b ref) := of_one rfl rfl
theorem trainHandedReceived (b : BLink) (ref : Nat) : Statement (.trainHandedReceived b ref) := of_one rfl rfl
theorem acceptEndReceived (b : BLink) (ref : Nat) : Statement (.acceptEndReceived b ref) := of_one rfl rfl
theorem flankAskReceived (b : BLink) (ref : Nat) : Statement (.flankAskReceived b ref) := of_one rfl rfl
theorem flankGiveReceived (b : BLink) (ref : Nat) : Statement (.flankGiveReceived b ref) := of_one rfl rfl
theorem flankRefuseReceived (b : BLink) (ref : Nat) : Statement (.flankRefuseReceived b ref) := of_one rfl rfl
theorem flankDropReceived (b : BLink) (ref : Nat) : Statement (.flankDropReceived b ref) := of_one rfl rfl
theorem flankResponseTimerExpiry (b : BLink) (inst : Nat) (item : Nat) :
    Statement (.flankResponseTimerExpiry b inst item) := by
  simp only [Statement, Instr.wellFormed, ranges, List.forall_mem_cons, Range.holds, Bool.and_eq_true,
    decide_eq_true_eq, List.not_mem_nil, false_implies, implies_true, and_true]
  omega

theorem releaseTimerExpiry (b : BLink) : Statement (.releaseTimerExpiry b) := of_none rfl rfl

end Sys2Proof.Laws.Forms
end

