-- ==== Sys2Proof/Laws/RouteRequest.lean ====
section
/-! SUPPORT. The checks of a SET-ROUTE said once: those the OLC makes, those the RIM makes, and the hand-off (R68, R137). -/

set_option Elab.async false

namespace Sys2Proof.Machine

variable {s : State}

/-- Checks 1 and 2 (R68). -/
theorem routeRefusal_rows (l : OpLink) (e x : Nat) :
    ((s.signal? e = none ∨ s.isEnd x = false) → s.routeRefusal l e x = some .unknownObject)
    ∧ ∀ g, s.signal? e = some g → s.isEnd x = true →
      (s.holdsArea l g.area = false → s.routeRefusal l e x = some .noAuthority)
      ∧ (s.holdsArea l g.area = true → s.routeRefusal l e x = none) := by
  refine ⟨fun h => ?_, fun g hg hx => ⟨fun h => ?_, fun h => ?_⟩⟩
  · unfold State.routeRefusal
    rcases h with h | h
    · rw [h]
    · split <;> simp [h]
  · simp [State.routeRefusal, hg, hx, h]
  · simp [State.routeRefusal, hg, hx, h]

theorem areaOf_signal {e : Nat} {g : SignalRec} (h : s.signal? e = some g) : s.areaOf e = g.area := by
  unfold State.signal? at h
  unfold State.areaOf
  split at h <;> simp_all [Element.area?]

/-- The hand-off to the store (R73, R137). -/
theorem handOff_rows (l : OpLink) (one a n : Nat) :
    ((s.storeEntry one).isSome = true → s.handOff l one a n = (s, .refused .duplicate))
    ∧ ((s.storeEntry one).isSome = false →
      (s.holdsArea l a = false → s.handOff l one a n = (s, .refused .noAuthority))
      ∧ (s.holdsArea l a = true → 8 ≤ (s.rqs.store.filter fun y => y.link == l).length →
        s.handOff l one a n = (s, .refused .storeFull))
      ∧ (s.holdsArea l a = true → (s.rqs.store.filter fun y => y.link == l).length < 8 → s.handOff l one a n =
        (({ s with rqs := { s.rqs with store := s.rqs.store ++
            [(⟨one, l, a, .running n, false, false, false, false, none⟩ : StoreEntry)] } } : State).mark .store, .stored))) := by
  refine ⟨fun h => by simp [State.handOff, h], fun h => ⟨fun k => by simp [State.handOff, h, k], fun k m => ?_, fun k m => ?_⟩⟩
  · simp [State.handOff, h, k, Config.storeQuota, m]
  · have : ¬ 8 ≤ (s.rqs.store.filter fun y => y.link == l).length := by omega
    simp [State.handOff, h, k, Config.storeQuota, this]

/-- Checks 3 to 6, with the choice of a variant (R68, R70 to R74). -/
theorem rimRoute_rows (l : OpLink) (e x n : Nat) (f : Bool) :
    (s.rankOne e x = none → s.rimRoute l e x f n = (s, .refused .noRoute))
    ∧ ∀ one, s.rankOne e x = some one →
      ((s.storeEntry one).isSome = true → s.rimRoute l e x f n = (s, .refused .duplicate))
      ∧ ((s.storeEntry one).isSome = false →
        (∀ i d t, s.tryRoute (.op l) (s.variants e x) = .reserved i d t →
          s.rimRoute l e x f n = (t.checkWaiting i, .acceptedRoute i d.number))
        ∧ (s.tryRoute (.op l) (s.variants e x) = .noInstance → f = false →
          s.rimRoute l e x f n = (s, .refused .noInstance))
        ∧ (∀ b, s.tryRoute (.op l) (s.variants e x) = .blocked b → f = false →
          s.rimRoute l e x f n = (s, .refused (.unavailable b)))
        ∧ ∀ g, (s.tryRoute (.op l) (s.variants e x) = .noInstance ∨ ∃ b, s.tryRoute (.op l) (s.variants e x) = .blocked b) →
          f = true → s.signal? e = some g →
          s.rimRoute l e x f n = s.handOff l one g.area (s.lifetimeOf n)) := by
  refine ⟨fun h => by simp [State.rimRoute, h], fun one h => ⟨fun k => by simp [State.rimRoute, h, k],
    fun k => ⟨fun i d t m => by simp [State.rimRoute, h, k, m], fun m o => by simp [State.rimRoute, h, k, m, o],
      fun b m o => by simp [State.rimRoute, h, k, m, o], fun g m o z => ?_⟩⟩⟩
  rcases m with m | ⟨b, m⟩ <;> simp [State.rimRoute, h, k, m, o, areaOf_signal z]

/-- A link with no answer held back has no request in the RIM. -/
theorem takeWaitingRoute_none (l : OpLink) (h : (s.olc.get l).held = none) : s.takeWaitingRoute l = none := by
  unfold State.takeWaitingRoute
  split <;> simp_all

end Sys2Proof.Machine
end

