-- ==== Sys2Proof/Laws/Wire.lean ====
section
/-! SUPPORT. Frames (section 11.3): reading what was written gives the content back. -/

set_option Elab.async false

namespace Sys2Proof.Machine

theorem unframe_frame (start : Byte) (lo hi : Nat) (content : List Byte)
    (hlo : lo ≤ content.length) (hhi : content.length ≤ hi) (hb : hi ≤ 255) :
    unframe start lo hi (frame start content) = some content := by
  have hn : (BitVec.ofNat 8 content.length).toNat = content.length := by
    simp only [BitVec.toNat_ofNat]; omega
  simp only [unframe, frame, List.cons_append, hn, List.take_left', List.drop_left', List.length_append,
    List.length_cons, List.length_nil]
  simp [hlo, hhi]

theorem hiByte_loByte_word (w : Word16) : word (hiByte w) (loByte w) = w := by
  apply BitVec.eq_of_getLsbD_eq
  intro i hi
  simp only [word, hiByte, loByte, BitVec.getLsbD_append, BitVec.getLsbD_extractLsb']
  by_cases h : i < 8
  · simp [h]
  · simp [h, show i - 8 < 8 by omega, show 8 + (i - 8) = i by omega]

theorem byte_toNat {n : Nat} (h : n < 256) : (byte n).toNat = n := by
  simp only [byte, BitVec.toNat_ofNat]; omega

theorem refList_refBytes (most : Nat) (l : List Nat) (rest : List Byte) (hl : l.length ≤ most) (hm : most ≤ 255)
    (h : l.all refOk = true) : refList most (refBytes l ++ rest) = some (l, rest) := by
  have hr : ∀ x ∈ l, x < 16 := fun x hx => by simpa [refOk] using List.all_eq_true.mp h x hx
  have hn : (byte l.length).toNat = l.length := byte_toNat (by omega)
  have ht : (l.map byte ++ rest).take l.length = l.map byte := by simp
  have hd : (l.map byte ++ rest).drop l.length = rest := by simp
  have ha : (l.map byte).all (fun b => decide (b.toNat < 16)) = true := by
    simp only [List.all_map, List.all_eq_true]
    intro x hx
    have := hr x hx
    simpa [byte_toNat (show x < 256 by omega)] using this
  have hm' : (l.map byte).map BitVec.toNat = l := by
    rw [List.map_map]
    conv => rhs; rw [← List.map_id l]
    exact List.map_congr_left fun x hx => byte_toNat (by have := hr x hx; omega)
  simp only [refBytes, List.cons_append, refList, hn, ht, hd, ha, hm', List.length_append, List.length_map]
  rw [if_pos ⟨hl, by omega, trivial⟩]

theorem dirOf_dirCode (d : Dir) : dirOf (dirCode d) = some d := by cases d <;> rfl

theorem reasonOf_reasonCode (r : RefuseReason) : reasonOf (reasonCode r) = some r := by cases r <;> rfl

theorem flagOf_flagCode (b : Bool) : flagOf (flagCode b) = some b := by cases b <;> rfl

theorem statusBodyOf_bytes (b : StatusBody) (h : b.wellFormed = true) :
    statusBodyOf ([flagCode b.lineClear, dirCode b.direction] ++ refBytes b.pendingRefs) = some b := by
  simp only [StatusBody.wellFormed, Bool.and_eq_true, decide_eq_true_eq] at h
  have := refList_refBytes 1 b.pendingRefs [] h.1 (by omega) h.2
  rw [List.append_nil] at this
  simp [statusBodyOf, flagOf_flagCode, dirOf_dirCode, this]

theorem holdingsBodyOf_bytes (b : HoldingsBody) (h : b.wellFormed = true) :
    holdingsBodyOf ([dirCode b.direction] ++ refBytes b.acceptancesGiven ++ refBytes b.acceptancesReceived
      ++ refBytes b.assurancesGiven ++ refBytes b.assurancesReceived) = some b := by
  simp only [HoldingsBody.wellFormed, Bool.and_eq_true, decide_eq_true_eq] at h
  obtain ⟨⟨⟨⟨⟨⟨⟨h1, h2⟩, h3⟩, h4⟩, r1⟩, r2⟩, r3⟩, r4⟩ := h
  have e := refList_refBytes 16 b.assurancesReceived [] h4 (by omega) r4
  rw [List.append_nil] at e
  simp only [List.cons_append, List.nil_append, List.append_assoc, holdingsBodyOf, dirOf_dirCode,
    refList_refBytes 1 _ _ h1 (by omega) r1, refList_refBytes 1 _ _ h2 (by omega) r2,
    refList_refBytes 16 _ _ h3 (by omega) r3, e, Option.bind_eq_bind, Option.bind_some, List.isEmpty_nil, if_true]

/-- The body of a telegram in range fits the length of a boundary frame (11.3.2). -/
theorem boundaryBody_length (t : BoundaryTelegram) (h : telegramInRange t = true) :
    1 ≤ (boundaryBody t).length ∧ (boundaryBody t).length ≤ 40 := by
  cases t with
  | status b =>
    simp only [telegramInRange, StatusBody.wellFormed, Bool.and_eq_true, decide_eq_true_eq] at h
    simp [boundaryBody, refBytes]; omega
  | holdings b =>
    simp only [telegramInRange, HoldingsBody.wellFormed, Bool.and_eq_true, decide_eq_true_eq] at h
    simp [boundaryBody, refBytes]; omega
  | _ => simp [boundaryBody]

theorem boundaryContentOf_body (t : BoundaryTelegram) (h : telegramInRange t = true) :
    ∃ k body, boundaryBody t = k :: body ∧ boundaryContentOf k body = some (.telegram t) := by
  cases t with
  | status b =>
    refine ⟨_, _, rfl, ?_⟩
    have := statusBodyOf_bytes b h
    simp only [List.cons_append, List.nil_append] at this
    simp [boundaryContentOf, this]
  | holdings b =>
    refine ⟨_, _, rfl, ?_⟩
    have := holdingsBodyOf_bytes b h
    simp only [List.cons_append, List.nil_append, List.append_assoc] at this
    simp [boundaryContentOf, this]
  | dirAsk => exact ⟨_, _, rfl, rfl⟩
  | dirGive => exact ⟨_, _, rfl, rfl⟩
  | dirRefuse => exact ⟨_, _, rfl, rfl⟩
  | notPermitted k => cases h
  | acceptRefuse r x =>
    simp only [telegramInRange, refOk, decide_eq_true_eq] at h
    refine ⟨_, _, rfl, ?_⟩
    simp [boundaryContentOf, byte_toNat (show r < 256 by omega), h, reasonOf_reasonCode]
  | _ r =>
    simp only [telegramInRange, refOk, decide_eq_true_eq] at h
    refine ⟨_, _, rfl, ?_⟩
    simp [boundaryContentOf, refTelegram, byte_toNat (show r < 256 by omega), h]

/-- A boundary frame of the neighbour reads as its telegram (11.3.2, R190). -/
theorem readBoundaryFrame_boundaryFrame (station : Word16) (t : BoundaryTelegram) (h : telegramInRange t = true) :
    readBoundaryFrame station (boundaryFrame station t) = some (.telegram t) := by
  obtain ⟨k, body, hb, hc⟩ := boundaryContentOf_body t h
  have hl := boundaryBody_length t h
  have := unframe_frame 0x3C 3 42 ([hiByte station, loByte station] ++ boundaryBody t)
    (by simp; omega) (by simp; omega) (by omega)
  rw [readBoundaryFrame, boundaryFrame, this, hb]
  simp [hiByte_loByte_word, hc]

theorem answerBodyOf_content (b : AnswerBody) (unit : UnitKind) (h : canAnswer unit b = true) :
    ∃ k data, answerContent b = k :: data ∧ answerBodyOf unit k data = some b := by
  cases b with
  | reportCh x y f =>
    cases unit <;> cases h <;> exact ⟨_, _, rfl, by cases f <;> rfl⟩
  | reportPdu d f =>
    cases unit <;> cases h <;> exact ⟨_, _, rfl, by cases d <;> cases f <;> rfl⟩
  | reportSdu x f =>
    cases unit <;> cases h <;> exact ⟨_, _, rfl, by cases x <;> cases f <;> rfl⟩
  | ack => cases unit <;> exact ⟨_, _, rfl, rfl⟩
  | reject r => cases unit <;> exact ⟨_, _, rfl, by cases r <;> rfl⟩

/-- The bytes of a unit's answer read as that answer (11.3.3, R190). -/
theorem readAnswer_answerFrame (unit : UnitKind) (address : Nat) (b : AnswerBody) (ha : address < 256)
    (h : canAnswer unit b = true) : readAnswer unit address (answerFrame address b) = some b := by
  obtain ⟨k, data, hc, hb⟩ := answerBodyOf_content b unit h
  simp only [answerFrame, hc, List.cons_append, readAnswer, byte_toNat ha]
  simp [hb]

/-! ### Only frames are read (R190) -/

/-- What a reader takes is a frame with a right check of its content. -/
theorem unframe_some {start : Byte} {lo hi : Nat} {bytes content : List Byte} (h : unframe start lo hi bytes = some content) :
    lo ≤ content.length ∧ content.length ≤ hi ∧ bytes = frame start content := by
  unfold unframe at h
  split at h
  next s0 len rest =>
    simp only at h
    split at h
    next c =>
      obtain ⟨rfl, h1, h2, h3, h4⟩ := c
      have hc : content = rest.take len.toNat := (Option.some.inj h).symm
      have hl : content.length = len.toNat := by rw [hc, List.length_take]; omega
      refine ⟨by omega, by omega, ?_⟩
      have hb : BitVec.ofNat 8 content.length = len := by rw [hl]; simp
      rw [← hc] at h4
      rw [frame, hb]
      simp only [List.cons_append, List.cons.injEq, true_and]
      rw [← h4, hc, List.take_append_drop]
    · cases h
  · cases h

/-- Only frames are read on either kind of link. -/
theorem frames_only (bytes : List Byte) (neighbour : Word16) :
    (readOperatorFrame bytes ≠ none → ∃ content : List Byte, 3 ≤ content.length ∧ content.length ≤ 250
      ∧ bytes = frame 0xC3 content)
    ∧ (readBoundaryFrame neighbour bytes ≠ none → ∃ body : List Byte, 1 ≤ body.length ∧ body.length ≤ 40
      ∧ bytes = frame 0x3C (wordBytes neighbour ++ body)) := by
  constructor
  · intro h
    unfold readOperatorFrame at h
    split at h
    next hu => exact ⟨_, unframe_some hu⟩
    · exact absurd rfl h
  · intro h
    unfold readBoundaryFrame at h
    split at h
    next hi lo kind body hu =>
      split at h
      next hw =>
        obtain ⟨h1, h2, h3⟩ := unframe_some hu
        refine ⟨kind :: body, by simp, by simp at h2 ⊢; omega, ?_⟩
        rw [h3, ← hw]
        congr 1
        simp only [wordBytes, List.cons_append, List.nil_append, List.cons.injEq, and_true]
        constructor
        · apply BitVec.eq_of_getLsbD_eq; intro i hi'
          rw [word, hiByte, BitVec.getLsbD_extractLsb', BitVec.getLsbD_append]; simp [hi', BitVec.getLsbD_eq_getElem]
        · apply BitVec.eq_of_getLsbD_eq; intro i hi'
          rw [word, loByte, BitVec.getLsbD_extractLsb', BitVec.getLsbD_append]; simp [hi', BitVec.getLsbD_eq_getElem]
      · exact absurd rfl h
    · exact absurd rfl h

/-- A boundary frame is taken for the neighbour's station code alone. -/
theorem readBoundaryFrame_frame (station neighbour : Word16) (k : Byte) (body : List Byte) (hl : body.length ≤ 39) :
    readBoundaryFrame neighbour (frame 0x3C (wordBytes station ++ k :: body)) =
      if station = neighbour then boundaryContentOf k body else none := by
  have := unframe_frame 0x3C 3 42 (wordBytes station ++ k :: body) (by simp [wordBytes]) (by simp [wordBytes]; omega) (by omega)
  rw [readBoundaryFrame, this]
  simp [wordBytes, hiByte_loByte_word]

end Sys2Proof.Machine
end

