-- ==== Sys2Proof/Tests/Slice0.lean ====
section
/-! SUPPORT. The author's own tests: the WellFormed smoke test, one small step of each command, and for each statement
with hypotheses a state and operands that meet them, at the boundaries of their ranges. -/

set_option Elab.async false

namespace Sys2Proof.Tests
open Sys2Proof Sys2Proof.Machine

/-! ### A small station -/

/-- The state a step answers; reset where it answers none. -/
def after : Host.Outcome State Fault Refusal → State
  | .next s => s
  | _ => State.reset

/-- The state a command leads to. -/
def run (s : State) (c : Instr) : State := after (exec c s)

/-- An OPERATING part with nothing configured and nothing pending. -/
def quiet : State :=
  { State.reset with cfl := { Cfl.cold with load := .operating }, olc := ⟨Olc.cold [], Olc.cold []⟩ }

/-- A part in CONFIG_FAULT. -/
def faulty : State := { quiet with cfl := { Cfl.cold with load := .configFault 5 } }

def signalRec (area : Nat) : SignalRec := ⟨area, .stop, .stop, false, false, .empty, .empty, none, false, false⟩
def trackRec : TrackRec := ⟨2, .clear, .empty, false, false⟩
def pointRec : PointRec := ⟨2, [20], 1, 60, .detN, false, false, none, .empty, none, false, false⟩
def boundaryRec : BoundaryRec := ⟨2, 1, false, .empty, .empty, false⟩

def putAll (elements : List (Nat × Element)) : Vector Element 256 :=
  elements.foldr (fun p v => v.setIfInBounds p.1 p.2) Lkc.cold.elements

/-- A MAIN route with an overlap, its variant, and routes out of and into the station. -/
def route12 : RouteDef :=
  ⟨12, .main, 110, 130, 1, [⟨20, [⟨80, .n⟩]⟩, ⟨21, []⟩], some ⟨22, []⟩, [], [23], 900, 600, none⟩
def route13 : RouteDef := ⟨13, .main, 110, 130, 2, [⟨20, [⟨80, .r⟩]⟩, ⟨24, []⟩], none, [], [23], 900, 600, none⟩
def route40 : RouteDef := ⟨40, .boundaryOut, 110, 225, 1, [⟨21, []⟩], none, [], [], 900, 600, none⟩
def route41 : RouteDef := ⟨41, .boundaryIn, 225, 130, 1, [⟨21, []⟩], none, [], [], 900, 600, some 2⟩

def clearCount : SectCount := ⟨[(0, .plus), (0, .minus)], 0, .clear, none, 0, false, false⟩
def dpRec : DpRec := ⟨1, [(20, .plus), (21, .minus)], false, .normal, some (5, 5), 0, 0⟩
def chUnit : UnitRow := ⟨1, .ch, 0, true, 0⟩
def pduUnit : UnitRow := ⟨40, .pdu, 80, true, 2⟩
def sduUnit : UnitRow := ⟨90, .sdu, 110, true, 2⟩

def blcRec : Blc :=
  { Blc.cold with
    used := true, senior := true, outRefs := [(40, 3)], offers := [(4, .point 80 .n)], neighbour := 7, link := .up
    isOpen := true, neighbourClear := true, statusTimer := .running 5, silenceTimer := .running 15 }

/-- A small station: signals 110 and 130, point 80 in section 20, sections 20 to 24, boundary 225 on link 1; OL-C holds
area 2. -/
def site : State :=
  { quiet with
    lkc := { Lkc.cold with elements := putAll [
        (110, .signal (signalRec 2)), (130, .signal (signalRec 3)), (20, .track trackRec), (21, .track trackRec),
        (22, .track trackRec), (23, .track trackRec), (24, .track trackRec), (80, .point pointRec),
        (225, .boundary boundaryRec)] }
    tbc := { Tbc.cold with units := [chUnit, pduUnit, sduUnit], spacing := .running 0 }
    ace := ⟨Ace.cold.dps.setIfInBounds 0 (some dpRec),
      [20, 21, 22, 23, 24].foldr (fun e v => v.setIfInBounds e (some clearCount)) Ace.cold.counts⟩
    rcat := [route12, route13, route40, route41]
    aum := (Vector.replicate 16 Area.cold).setIfInBounds 2 ⟨.centre, .stopped, .stopped⟩
    blc := (Vector.replicate 4 Blc.cold).setIfInBounds 1 blcRec }

/-- The same part with a request as the oldest telegram of a link. -/
def asked (s : State) (l : OpLink) (r : Request) : State := s.modOlc l fun c => { c with waiting := [⟨5, r⟩] }

/-- A waiting request changes the operator links alone: what a witness says of the state holds with the request too. -/
theorem asked_keeps (s : State) (l : OpLink) (r : Request) : asked s l r = { s with olc := (asked s l r).olc } := rfl

/-- The reply that waits after OL-C's request r is taken by row c. -/
def replyTo (s : State) (c : Instr) (r : Request) : Option ReplyBody :=
  ((run (asked s .olC r) c).olc.olC.reply).map Prod.snd

/-- An element record replaced, without marks. -/
def withElem (s : State) (e : Nat) (r : Element) : State :=
  { s with lkc := { s.lkc with elements := s.lkc.elements.setIfInBounds e r } }

def withInst (s : State) (i : Nat) (r : Inst) : State :=
  { s with rim := { s.rim with insts := s.rim.insts.setIfInBounds i (some r) } }

def withDrive (s : State) (e : Nat) (d : Drive) : State :=
  { s with lkc := { s.lkc with drives := s.lkc.drives.setIfInBounds e (some d) } }

def withCmd (s : State) (e : Nat) (c : SignalCmd) : State :=
  { s with lkc := { s.lkc with cmds := s.lkc.cmds.setIfInBounds e c } }

def withTbc (s : State) (t : Tbc) : State := { s with tbc := t }

def withBlc (s : State) (b : BLink) (r : Blc) : State := { s with blc := s.blc.set b r }

def withArea (s : State) (a : Nat) (r : Area) : State := { s with aum := s.aum.setIfInBounds a r }

def withStore (s : State) (l : List StoreEntry) : State := { s with rqs := { s.rqs with store := l } }

def withRequests (s : State) (l : List RouteRequest) : State := { s with rim := { s.rim with requests := l } }

def withSel (s : State) (v : Option Selection) : State := { s with rim := { s.rim with sel := ⟨v, none⟩ } }

def withAux (s : State) (a : Option PendingAux) : State := s.modOlc .olC fun c => { c with aux := a }

/-- An instance of route 12. -/
def inst12 : Inst :=
  ⟨12, .op .olC, .locking, [.point 80], [], .absent, [], 1, 0, .locked, false, false, none, .running 0, .stopped, .stopped,
    .stopped⟩

def entry12 : StoreEntry := ⟨12, .olC, 2, .running 0, false, false, false, false, none⟩

/-- The entry of route 12 as a pass has presented it to the RIM. -/
def shown12 : StoreEntry := { entry12 with presented := true }

/-- A SHUNT route whose last section may be occupied, and one with a claimed flank and a boundary flank. -/
def route14 : RouteDef := ⟨14, .shunt, 110, 130, 3, [⟨21, []⟩, ⟨24, []⟩], none, [], [], 900, 600, none⟩
def route15 : RouteDef :=
  ⟨15, .main, 110, 130, 4, [⟨21, []⟩, ⟨22, []⟩, ⟨24, []⟩], none,
    [⟨.claim (.point 80 .n), 1, [.point 80 .r]⟩, ⟨.boundary 1 6, 2, [.point 80 .n, .signal 130]⟩], [], 900, 600, none⟩

/-- Route 12 set: its instance is CLEARING. -/
def setUp : State := (run (asked site .olC (.setRoute 110 130 false 0)) (.setRoute .olC)).modOlc .olC fun c =>
  { c with reply := none }

/-- Route 12 set and then HELD by the operator. -/
def heldUp : State := { setUp.modInst 0 fun r => { r with state := .held, causes := [(.operatorStop, 110)] } with
  notices := [] }

/-- The station with these routes and an instance of one of them in record 0. -/
def withRoute (r : Inst) : State := withInst { site with rcat := site.rcat ++ [route14, route15] } 0 r

/-- An instance of route 15: the point claimed, the boundary asked. -/
def inst15 (st : InstState) : Inst :=
  { inst12 with route := 15, state := st, waiting := [.asking 2], flank := [⟨0, .claimed⟩, ⟨0, .asking⟩], overlap := .none }

/-- The instances of the boundary routes out and in. -/
def inst40 (st : InstState) : Inst :=
  { inst12 with route := 40, state := st, waiting := [.acceptance], acceptance := .notAsked, overlap := .none }
def inst41 (st : InstState) : Inst :=
  { inst12 with route := 41, state := st, waiting := [], acceptance := .given, overlap := .none }
def inst14 (st : InstState) : Inst := { inst12 with route := 14, state := st, overlap := .none }

def drive80 : Drive := ⟨.r, 1, .running 0, .active, false⟩

/-- A sound image of one signal pair, two sections and the four boundary elements. -/
def image : Image where
  readable := true
  reachesCounters := false
  checkAgrees := true
  formatVersion := 2
  stationCode := 7
  settingTime := 0
  tolerance := 5
  stackLifetime := 0
  elements := [⟨110, 2, .signal⟩, ⟨130, 2, .signal⟩, ⟨20, 2, .track⟩, ⟨21, 2, .track⟩, ⟨80, 2, .point [20] 1 60⟩,
    ⟨252, 2, .boundary 0 false⟩, ⟨253, 2, .boundary 1 true⟩, ⟨254, 2, .boundary 2 false⟩, ⟨255, 2, .boundary 3 false⟩]
  units := [⟨40, .pdu, 80⟩, ⟨1, .ch, 0⟩, ⟨90, .sdu, 110⟩]
  dps := [⟨0, 1, [(20, .plus), (21, .minus)], false⟩]
  sections := [⟨20, [(0, .plus), (0, .minus)]⟩, ⟨21, [(0, .plus), (0, .minus)]⟩]
  routes := [⟨12, .main, 110, 130, 1, [⟨20, [⟨80, .n⟩]⟩, ⟨21, []⟩], none, [], [], 0, 0, none⟩]
  boundaries := [⟨1, true, true, [], [], [], 9⟩]

/-- Whether a trial is as named. -/
def trialReserved : Trial → Bool
  | .reserved .. => true
  | _ => false

def trialBlocked : Trial → Bool
  | .blocked _ => true
  | _ => false

def trialNone : Trial → Bool
  | .noInstance => true
  | _ => false

theorem reserved_of {t : Trial} (h : trialReserved t = true) : ∃ i d u, t = .reserved i d u := by
  cases t with
  | reserved i d u => exact ⟨i, d, u, rfl⟩
  | blocked e => cases h
  | noInstance => cases h

theorem blocked_of {t : Trial} (h : trialBlocked t = true) : ∃ b, t = .blocked b := by
  cases t with
  | blocked e => exact ⟨e, rfl⟩
  | reserved i d u => cases h
  | noInstance => cases h

theorem none_of {t : Trial} (h : trialNone t = true) : t = .noInstance := by
  cases t with
  | noInstance => rfl
  | reserved i d u => cases h
  | blocked e => cases h

/-- The requests, with the row that takes each. -/
def requestRows1 : List (Instr × Request) :=
  [(.unknownRequestKind .olC, .unknown 23), (.setRoute .olC, .setRoute 0 0 false 0), (.press .olC, .press 0),
   (.cancelRoute .olC, .cancelRoute 0), (.reClear .olC, .reClear 0), (.storeCancel .olC, .storeCancel 0),
   (.stopArea .olC, .stopArea 0), (.pointThrow .olC, .pointThrow 0 .n)]
def requestRows2 : List (Instr × Request) :=
  [(.pointReset .olC, .pointReset 0), (.signalReset .olC, .signalReset 0), (.block .olC, .block 0),
   (.unblock .olC, .unblock 0), (.boundaryOpen .olC, .boundaryOpen 0), (.boundaryClose .olC, .boundaryClose 0),
   (.dirRequest .olC, .dirRequest 0), (.auxIssue .olC, .auxIssue 0 0)]
def requestRows3 : List (Instr × Request) :=
  [(.auxConfirm .olC, .auxConfirm 0 0), (.authTake .olC, .authTake 0), (.authOffer .olC, .authOffer 0),
   (.authReturn .olC, .authReturn 0), (.readRoute .olC, .readRoute 0), (.readCounters .olC, .readCounters),
   (.snapshot .olC, .snapshot)]
def requestRows : List (Instr × Request) := requestRows1 ++ requestRows2 ++ requestRows3

/-- Whether a row of OL-C takes the request. -/
def takesIt (p : Instr × Request) : Bool :=
  match rowTakes p.1 with
  | some (l, pick) => l == .olC && pick p.2
  | none => false

/-- A link ready to take the request r, with sequence number 5. -/
abbrev Asks (s : State) (l : OpLink) (r : Request) : Prop := (asked s l r).Ready l 5 r

/-- Section 20 of the small station with another count. -/
def counted (n : Int) (st : Occ) (age : Nat) (sweep sat : Bool) : SectCount :=
  { clearCount with count := n, state := st, deficitAge := age, sweep := sweep, saturated := sat, points := [(0, .plus)] }

/-- Three axles counted in at detection point 0 since the last round. -/
def axles : State := { site with ace := { site.ace with dps := site.ace.dps.setIfInBounds 0 (some { dpRec with
  pendingA := 3 }) } }

def failedSection (st : Occ) : State := { site with ace := { site.ace with
  counts := site.ace.counts.setIfInBounds 20 (some (counted 1 st 0 false false)) } }

/-- Entries of OL-C under other route numbers. -/
def entries (n : Nat) : List StoreEntry := (List.range n).map fun k => { entry12 with route := 100 + k }

/-- Every instance record live. -/
def crowded (s : State) : State := { s with rim := { s.rim with insts := Vector.replicate 48 (some inst12) } }

/-- A section occupied. -/
def occupied (s : State) (e : Nat) : State := withElem s e (.track { trackRec with occupancy := .occupied })

/-- The small station with another boundary record on link 1. -/
def onLink (r : Blc) : State := withBlc site 1 r

def isReserved : Except Nat Reserved → Bool
  | .ok _ => true
  | .error _ => false

theorem ok_of {x : Except Nat Reserved} (h : isReserved x = true) : ∃ r, x = .ok r := by
  cases x with
  | ok r => exact ⟨r, rfl⟩
  | error e => cases h

theorem error_of {x : Except Nat Reserved} (h : isReserved x = false) : ∃ e, x = .error e := by
  cases x with
  | error e => exact ⟨e, rfl⟩
  | ok r => cases h

/-- The reason of a check that refuses, or the route of one that passes. -/
def verdict : Except RefuseReason RouteDef → Option RefuseReason × Option RouteDef
  | .error x => (some x, none)
  | .ok d => (none, some d)

/-- Whether an instance of the state and a route of the class enter at the element. -/
def enters (s : State) (e : Nat) (st : InstState) (cls : RouteClass) : Bool :=
  (s.entryInst e).any fun x => x.2.1.state == st && x.2.2.cls == cls

/-! ### WellFormed refuses an ill-formed term at each check -/

theorem test_wf_poll_order : (Instr.pollExchangeEnd [] [(256, true)]).wellFormed = false := by decide
theorem test_wf_timeout_order : (Instr.exchangeAnswerTimeout [(255, true), (256, false)]).wellFormed = false := by decide
theorem test_wf_point : (Instr.supervisionTimerExpiry 256).wellFormed = false := by decide
theorem test_wf_signal : (Instr.confirmationTimerExpiry 256).wellFormed = false := by decide
theorem test_wf_offer_area : (Instr.offerTimerExpiry 16).wellFormed = false := by decide
theorem test_wf_force_area : (Instr.forceTimerExpiry 16).wellFormed = false := by decide
theorem test_wf_setting : (Instr.settingTimerExpiry 48).wellFormed = false := by decide
theorem test_wf_overlap : (Instr.overlapTimerExpiry 48).wellFormed = false := by decide
theorem test_wf_approach : (Instr.approachTimerExpiry 48).wellFormed = false := by decide
theorem test_wf_emergency : (Instr.emergencyTimerExpiry 48).wellFormed = false := by decide
theorem test_wf_lifetime : (Instr.lifetimeTimerExpiry 512).wellFormed = false := by decide
theorem test_wf_low_kind : (Instr.operatorRequestOnBoundary 0 0).wellFormed = false := by decide
theorem test_wf_high_kind : (Instr.operatorRequestOnBoundary 0 23).wellFormed = false := by decide
theorem test_wf_status_count : (Instr.statusReceived 0 ⟨true, .none, [1, 2]⟩).wellFormed = false := by decide
theorem test_wf_status_ref : (Instr.statusReceived 0 ⟨true, .none, [16]⟩).wellFormed = false := by decide
theorem test_wf_holdings_acceptances :
    ∀ h ∈ [HoldingsBody.mk .none [1, 2] [] [] [], ⟨.none, [16], [], [], []⟩, ⟨.none, [], [1, 2], [], []⟩,
      ⟨.none, [], [16], [], []⟩], (Instr.holdingsReceived 0 h).wellFormed = false := by decide
theorem test_wf_holdings_assurances :
    ∀ h ∈ [HoldingsBody.mk .none [] [] (List.range 17) [], ⟨.none, [], [], [16], []⟩,
      ⟨.none, [], [], [], List.replicate 17 0⟩, ⟨.none, [], [], [], [16]⟩],
      (Instr.holdingsReceived 0 h).wellFormed = false := by decide
theorem test_wf_references :
    ∀ c ∈ [Instr.acceptAskReceived 0 16, .acceptGiveReceived 0 16, .acceptRefuseReceived 0 16 .full,
      .acceptWithdrawReceived 0 16, .trainHandedReceived 0 16, .acceptEndReceived 0 16, .flankAskReceived 0 16,
      .flankGiveReceived 0 16, .flankRefuseReceived 0 16, .flankDropReceived 0 16], c.wellFormed = false := by decide
theorem test_wf_accept_response : (Instr.acceptResponseTimerExpiry 0 48).wellFormed = false := by decide
theorem test_wf_flank_response :
    ∀ c ∈ [Instr.flankResponseTimerExpiry 0 48 1, .flankResponseTimerExpiry 0 0 0, .flankResponseTimerExpiry 0 0 9],
      c.wellFormed = false := by decide
theorem test_wf_accepts_the_ends_of_the_ranges :
    ∀ c ∈ [Instr.commandExchangeEnd [0], .pollExchangeEnd [] [(255, true)],
      .supervisionTimerExpiry 255, .offerTimerExpiry 15, .settingTimerExpiry 47, .lifetimeTimerExpiry 511,
      .operatorRequestOnBoundary 3 22, .statusReceived 3 ⟨true, .none, [15]⟩, .acceptAskReceived 3 15,
      .flankResponseTimerExpiry 3 47 8], c.wellFormed = true := by decide

/-! ### Frames (section 11.3) -/

/-- The two polynomials' well-known check values for the digits 1 to 9. -/
theorem test_crc16 : crc16 ((List.range' 0x31 9).map byte) = 0x29B1 := by decide +kernel
theorem test_crc8 : crc8 ((List.range' 0x31 9).map byte) = 0xF4 := by decide +kernel

theorem test_trackFrame :
    trackFrame 7 .poll = [7, 1, 0x6C] ∧ trackFrame 255 .allStop = [255, 4, 0xCB]
    ∧ (trackFrame 7 (.throwTo .r)).take 3 = [7, 2, 1] := by decide +kernel

theorem test_readAnswer :
    readAnswer .ch 9 [9, 11, 3, 4, 0, crc8 [9, 11, 3, 4, 0]] = some (.reportCh 3 4 false)
    ∧ readAnswer .pdu 9 [9, 11, 2, 0, 1] = none ∧ readAnswer .sdu 9 [9, 12, crc8 [9, 12]] = some .ack
    ∧ readAnswer .sdu 8 [9, 12, crc8 [9, 12]] = none
    ∧ readAnswer .sdu 9 [9, 11, 0, 0, 0, crc8 [9, 11, 0, 0, 0]] = none := by decide +kernel

theorem test_replyFrame :
    (replyFrame 0x0102 (.refused (.unavailable 200))).map (fun l => l.take 7)
      = some [0xC3, 5, 1, 2, 0x80, 6, 200] := by decide +kernel

theorem test_boundaryFrame :
    (boundaryFrame 0x0A0B (.acceptRefuse 3 .full)).take 7 = [0x3C, 5, 0x0A, 0x0B, 0x47, 3, 3]
    ∧ readBoundaryFrame 0x0A0B (boundaryFrame 0x0A0B (.acceptRefuse 3 .full))
      = some (.telegram (.acceptRefuse 3 .full)) := by decide +kernel

theorem test_readOperatorFrame_flag :
    readOperatorFrame (frame 0xC3 [0, 5, 1, 110, 130, 2, 0, 0]) = none := by decide +kernel
theorem test_readOperatorFrame_length :
    readOperatorFrame (frame 0xC3 [0, 5, 2, 110, 0]) = none := by decide +kernel
theorem test_readBoundaryFrame :
    readBoundaryFrame 7 (frame 0x3C [0, 7, 0x47, 3, 2]) = some (.telegram (.acceptRefuse 3 .closed)) := by decide +kernel
theorem test_readBoundaryFrame_station :
    readBoundaryFrame 8 (frame 0x3C [0, 7, 0x42]) = none := by decide +kernel

/-! ### One small step of each command -/

theorem test_coldStart : (run site .coldStart).cfl.load = .loading := by decide +kernel
theorem test_loadComplete : (run State.reset (.loadComplete image none)).cfl
    = ⟨.operating, 7, 200, 4, 1200, { AouCounters.zero with coldStart := ⟨1, false⟩ }, true, false⟩ := by decide +kernel
theorem test_loadComplete_fault :
    (run State.reset (.loadComplete { image with formatVersion := 1 } none)).cfl.load = .configFault 3 := by decide +kernel
theorem test_counterWriteComplete :
    (run { site with cfl := { site.cfl with writing := true } } (.counterWriteComplete none)).aou.storeFault = true := by
  decide +kernel
theorem test_scrubCheck :
    (run { site with lkc := { site.lkc with scrub := 255 } } (.scrubCheck .correctable)).lkc.corrected = 1 := by
  decide +kernel
theorem test_roundStart :
    (run site .roundStart).out = [.track 255 .allStop, .track 1 .poll] := by decide +kernel
theorem test_commandExchangeStart :
    (run (withTbc site { site.tbc with
      queue := [⟨40, .throwTo .r, 0, 0⟩, ⟨90, .showAs .stop, 1, 0⟩], spacing := .running 1 })
      .commandExchangeStart).out = [.track 90 (.showAs .stop)] := by decide +kernel
theorem test_pollExchangeEnd :
    ((run (withTbc site { site.tbc with exchange := some (.poll 1), round := some [40] })
      (.pollExchangeEnd (answerFrame 1 (.reportCh 8 5 false)) [])).dp 0).map DpRec.pendingA = some 3 := by decide +kernel
theorem test_commandExchangeEnd :
    (run (withTbc site { site.tbc with
      exchange := some (.command 90 (.showAs .stop) 0), queue := [⟨90, .showAs .stop, 0, 2⟩], nextAge := 1 })
      (.commandExchangeEnd (answerFrame 90 .ack))).tbc.queue = [] := by decide +kernel
theorem test_exchangeAnswerTimeout :
    (run (withTbc site { site.tbc with exchange := some (.poll 40), round := some [90] })
      (.exchangeAnswerTimeout [])).tbc.units = [chUnit, ⟨40, .pdu, 80, false, 3⟩, sduUnit] := by decide +kernel
theorem test_supervisionTimerExpiry :
    (run (withDrive site 80 drive80) (.supervisionTimerExpiry 80)).drive 80
      = some { drive80 with attemptsLeft := 0, timer := .stopped } := by decide +kernel
theorem test_confirmationTimerExpiry :
    (run (withCmd site 110 ⟨.running 0, false⟩) (.confirmationTimerExpiry 110)).tbc.queue
      = [⟨90, .showAs .stop, 0, 0⟩] := by decide +kernel
theorem test_operatorTelegramArrival :
    (run site (.operatorTelegramArrival .olL (operatorFrame ⟨9, .setRoute 110 130 true 60⟩))).olc.olL.waiting
      = [⟨9, .setRoute 110 130 true 60⟩] := by decide +kernel
theorem test_unknownRequestKind :
    replyTo site (.unknownRequestKind .olC) (.unknown 23) = some (.refused .notPermitted) := by decide +kernel
theorem test_replyTransmit :
    (run (site.modOlc .olC fun c => { c with reply := some (5, .accepted) }) (.replyTransmit .olC)).out
      = [.reply .olC 5 .accepted] := by decide +kernel
theorem test_sendIndication :
    (run (site.modOlc .olC fun c => { c with marks := [.area 2] }) (.sendIndication .olC)).out
      = [.indication .olC 0 (.area 2) (.area .centre none none)] := by decide +kernel
theorem test_setRoute : replyTo site (.setRoute .olC) (.setRoute 110 130 false 0) = some (.acceptedRoute 0 12) := by
  decide +kernel
theorem test_setRoute_clears : (setUp.inst 0).map Inst.state = some .clearing := by decide +kernel
theorem test_press : (run (asked site .olC (.press 110)) (.press .olC)).rim.sel.olC = some ⟨110, .running 100⟩ := by
  decide +kernel
theorem test_selectionTimerExpiry :
    (run (withSel site (some ⟨110, .running 0⟩)) (.selectionTimerExpiry .olC)).rim.sel.olC = none := by decide +kernel
theorem test_cancelRoute : (run (asked setUp .olC (.cancelRoute 110)) (.cancelRoute .olC)).inst 0 = none := by
  decide +kernel
theorem test_reClear : ((run (asked heldUp .olC (.reClear 110)) (.reClear .olC)).inst 0).map Inst.state
    = some .clearing := by decide +kernel
theorem test_storeCancel :
    (run (asked (withStore site [entry12]) .olC (.storeCancel 13)) (.storeCancel .olC)).rqs.removal.olC
      = some ⟨12, .cancelled⟩ := by decide +kernel
theorem test_stopArea : ((run (asked setUp .olC (.stopArea 2)) (.stopArea .olC)).inst 0).map Inst.causes
    = some [(.operatorStop, 110)] := by decide +kernel
theorem test_pointThrow : (run (asked site .olC (.pointThrow 80 .r)) (.pointThrow .olC)).tbc.queue
    = [⟨40, .throwTo .r, 0, 0⟩] := by decide +kernel
theorem test_pointReset :
    ((run (asked (withElem site 80 (.point { pointRec with failed := true })) .olC (.pointReset 80))
      (.pointReset .olC)).point? 80).map PointRec.failed = some false := by decide +kernel
theorem test_signalReset :
    ((run (asked (withElem site 110 (.signal { signalRec 2 with failed := true })) .olC (.signalReset 110))
      (.signalReset .olC)).signal? 110).map SignalRec.failed = some false := by decide +kernel
theorem test_block : ((run (asked site .olC (.block 21)) (.block .olC)).elem 21).block? = some true := by decide +kernel
theorem test_unblock :
    ((run (asked (withElem site 21 (.track { trackRec with block := true })) .olC (.unblock 21)) (.unblock .olC)).elem
      21).block? = some false := by decide +kernel
theorem test_boundaryOpen :
    ((run (asked (withBlc site 1 { blcRec with isOpen := false }) .olC (.boundaryOpen 225)) (.boundaryOpen .olC)).blcAt
      1).isOpen = true := by decide +kernel
theorem test_boundaryClose :
    ((run (asked site .olC (.boundaryClose 225)) (.boundaryClose .olC)).blcAt 1).isOpen = false := by decide +kernel
theorem test_dirRequest :
    (run (asked site .olC (.dirRequest 225)) (.dirRequest .olC)).out = [.boundary 1 .dirAsk] := by decide +kernel
theorem test_auxIssue :
    ((run (asked (withElem site 21 (.track { trackRec with suspect := true })) .olC (.auxIssue 3 21)) (.auxIssue .olC)).olc.olC.aux)
      = some ⟨.suspectClear, 21, .running 200, false⟩ := by decide +kernel
theorem test_auxConfirm :
    (run (asked (withAux (withElem site 21 (.track { trackRec with suspect := true }))
      (some ⟨.suspectClear, 21, .running 0, false⟩)) .olC (.auxConfirm 3 21)) (.auxConfirm .olC)).aou.counters.suspectClear
      = ⟨1, false⟩ := by decide +kernel
theorem test_auxWindowExpiry :
    (run (withAux site (some ⟨.authForce, 2, .running 0, false⟩)) (.auxWindowExpiry .olC)).olc.olC.aux = none := by
  decide +kernel
theorem test_authTake : (run (asked site .olL (.authTake 15)) (.authTake .olL)).areaRec 15
    = ⟨.localPanel, .stopped, .stopped⟩ := by decide +kernel
theorem test_authOffer : (run (asked site .olC (.authOffer 2)) (.authOffer .olC)).areaRec 2
    = ⟨.centre, .running 300, .stopped⟩ := by decide +kernel
theorem test_authReturn : (run (asked site .olC (.authReturn 2)) (.authReturn .olC)).areaRec 2
    = ⟨.none, .stopped, .stopped⟩ := by decide +kernel
theorem test_offerTimerExpiry :
    (run (withArea site 2 ⟨.centre, .running 0, .stopped⟩) (.offerTimerExpiry 2)).areaRec 2
      = ⟨.centre, .stopped, .stopped⟩ := by decide +kernel
theorem test_forceTimerExpiry :
    (run (withArea site 2 ⟨.centre, .stopped, .running 0⟩) (.forceTimerExpiry 2)).areaRec 2
      = ⟨.localPanel, .stopped, .stopped⟩ := by decide +kernel
theorem test_readRoute : replyTo site (.readRoute .olC) (.readRoute 41) = some (.acceptedDefinition route41) := by
  decide +kernel
theorem test_readCounters :
    (run (asked (withTbc site { site.tbc with missed := 9 }) .olC .readCounters) (.readCounters .olC)).tbc.missed = 0 := by
  decide +kernel
theorem test_snapshot : replyTo faulty (.snapshot .olC) .snapshot = some (.refused .notConfigured) := by decide +kernel
theorem test_settingTimerExpiry :
    (run (withInst site 0 inst12) (.settingTimerExpiry 0)).olc.olC.failure = some ⟨0, 12, .timeout, 80⟩ := by
  decide +kernel
theorem test_overlapTimerExpiry :
    ((run (withInst site 0 { inst12 with
      state := .inUse, overlap := .timing, overlapTimer := .running 0, highest := 2 }) (.overlapTimerExpiry 0)).inst 0).map
      Inst.overlap = some .released := by decide +kernel
theorem test_approachTimerExpiry :
    (run (withInst site 0 { inst12 with state := .cancelling, approach := .running 0 }) (.approachTimerExpiry 0)).inst 0
      = none := by decide +kernel
theorem test_emergencyTimerExpiry :
    (run (withInst site 0 { inst12 with state := .emergency, emergency := .running 0 }) (.emergencyTimerExpiry 0)).inst 0
      = none := by decide +kernel
theorem test_retestRequest :
    (run (withRequests (withStore site [shown12]) [.retest 12]) .retestRequest).rqs.removal.olC
      = some ⟨12, .set 0⟩ := by decide +kernel
theorem test_lifetimeTimerExpiry :
    (run (withStore site [entry12]) (.lifetimeTimerExpiry 12)).rqs.removal.olC = some ⟨12, .expired⟩ := by decide +kernel
theorem test_incomingAcceptanceRequest :
    (run (withRequests (withBlc site 1 { blcRec with direction := .inward }) [.incoming 1 2 41])
      .incomingAcceptanceRequest).out = [.boundary 1 (.acceptGive 2)] := by decide +kernel
theorem test_statusTimerExpiry :
    (run site (.statusTimerExpiry 1)).out = [.boundary 1 (.status ⟨true, .none, []⟩)] := by decide +kernel
theorem test_boundaryFrameDiscarded :
    ((run site (.boundaryFrameDiscarded 1 [])).blcAt 1).counts = ⟨0, 1, 0⟩ := by decide +kernel
theorem test_operatorRequestOnBoundary :
    (run site (.operatorRequestOnBoundary 1 22)).out = [.boundary 1 (.notPermitted 22)] := by decide +kernel
theorem test_statusReceived :
    (run (withBlc site 1 { blcRec with link := .down, silenceTimer := .stopped })
      (.statusReceived 1 ⟨true, .none, []⟩)).out = [.boundary 1 (.holdings ⟨.none, [], [], [], []⟩)] := by decide +kernel
theorem test_holdingsReceived :
    ((run (withBlc site 1 { blcRec with link := .sync, holdingsTimer := .running 0 })
      (.holdingsReceived 1 ⟨.outward, [], [], [], []⟩)).blcAt 1).direction = .inward := by decide +kernel
theorem test_silenceTimerExpiry : ((run site (.silenceTimerExpiry 1)).blcAt 1).counts = ⟨0, 0, 1⟩ := by decide +kernel
theorem test_holdingsResponseTimerExpiry :
    ((run (withBlc site 1 { blcRec with link := .sync, holdingsTimer := .running 0 })
      (.holdingsResponseTimerExpiry 1)).blcAt 1).link = .down := by decide +kernel
theorem test_dirAskReceived : (run site (.dirAskReceived 1)).out = [.boundary 1 .dirGive] := by decide +kernel
theorem test_dirGiveReceived :
    ((run (withBlc site 1 { blcRec with change := .asking, changeTimer := .running 0 }) (.dirGiveReceived 1)).blcAt
      1).direction = .outward := by decide +kernel
theorem test_dirRefuseReceived :
    ((run (withBlc site 1 { blcRec with change := .asking, changeTimer := .running 0 }) (.dirRefuseReceived 1)).blcAt
      1).change = .idle := by decide +kernel
theorem test_dirResponseTimerExpiry :
    ((run (withBlc site 1 { blcRec with change := .asked, changeTimer := .running 0 }) (.dirResponseTimerExpiry 1)).blcAt
      1).link = .sync := by decide +kernel
theorem test_acceptAskReceived :
    (run (withBlc site 1 { blcRec with direction := .inward }) (.acceptAskReceived 1 2)).rim.requests
      = [.incoming 1 2 41] := by decide +kernel
theorem test_acceptGiveReceived :
    ((run (withBlc site 1 { blcRec with direction := .outward, outAsks := [⟨3, 0, .running 0⟩] })
      (.acceptGiveReceived 1 3)).blcAt 1).outgoing = [⟨3, 0⟩] := by decide +kernel
theorem test_acceptRefuseReceived :
    ((run (withBlc site 1 { blcRec with outAsks := [⟨3, 0, .running 0⟩] }) (.acceptRefuseReceived 1 3 .full)).blcAt
      1).outAsks = [] := by decide +kernel
theorem test_acceptResponseTimerExpiry :
    ((run (withBlc site 1 { blcRec with outAsks := [⟨3, 0, .running 0⟩] }) (.acceptResponseTimerExpiry 1 0)).blcAt
      1).outAsks = [] := by decide +kernel
theorem test_acceptWithdrawReceived :
    ((run (withBlc site 1 { blcRec with incoming := [⟨2, 0, false, false⟩] }) (.acceptWithdrawReceived 1 2)).blcAt
      1).incoming = [] := by decide +kernel
theorem test_trainHandedReceived :
    ((run (withBlc site 1 { blcRec with incoming := [⟨2, 0, false, false⟩] }) (.trainHandedReceived 1 2)).blcAt
      1).incoming = [⟨2, 0, true, false⟩] := by decide +kernel
theorem test_acceptEndReceived :
    ((run (withBlc site 1 { blcRec with incoming := [⟨2, 0, true, false⟩] }) (.acceptEndReceived 1 2)).blcAt
      1).incoming = [⟨2, 0, true, true⟩] := by decide +kernel
theorem test_flankAskReceived : (run site (.flankAskReceived 1 4)).out = [.boundary 1 (.flankGive 4)] := by decide +kernel
theorem test_flankGiveReceived :
    ((run (withBlc site 1 { blcRec with assurances := [⟨6, 0, 1, false, .running 0⟩] }) (.flankGiveReceived 1 6)).blcAt
      1).assurances = [⟨6, 0, 1, true, .stopped⟩] := by decide +kernel
theorem test_flankRefuseReceived :
    ((run (withBlc site 1 { blcRec with assurances := [⟨6, 0, 1, false, .running 0⟩] }) (.flankRefuseReceived 1 6)).blcAt
      1).assurances = [] := by decide +kernel
theorem test_flankDropReceived :
    (run (run site (.flankAskReceived 1 4)) (.flankDropReceived 1 4)).fctEntry 0 = none := by decide +kernel
theorem test_flankResponseTimerExpiry :
    ((run (withBlc site 1 { blcRec with assurances := [⟨6, 0, 1, false, .running 0⟩] })
      (.flankResponseTimerExpiry 1 0 1)).blcAt 1).assurances = [] := by decide +kernel
theorem test_releaseTimerExpiry :
    ((run (withBlc site 1 { blcRec with link := .down, release := .running 0, lostHoldings := true
                                        incoming := [⟨2, 0, false, false⟩] }) (.releaseTimerExpiry 1)).blcAt 1).lostHoldings
      = false := by decide +kernel

/-! ### Each statement's hypotheses are met, clause by clause -/

theorem witness_StepRunsTheFrontCommand :
    ({ quiet with pending := [.roundStart, .coldStart] } : State).pending = .roundStart :: [.coldStart] := rfl

theorem witness_IdleStepIsTime : site.pending = [] ∧ State.reset.pending = [] := ⟨rfl, rfl⟩

theorem witness_LoadFillsEveryBlock :
    State.reset.cfl.load = .loading ∧ imageFault image = none
    ∧ (∀ x ∈ image.elements, image.elements.find? (fun y => y.number == x.number) = some x)
    ∧ image.elements.all (fun x => x.number != 0) = true
    ∧ (∀ x ∈ image.sections, image.sections.find? (fun y => y.sect == x.sect) = some x)
    ∧ (∀ d ∈ image.dps, image.dps.find? (fun y => y.number == d.number) = some d)
    ∧ (∀ c ∈ image.boundaries, image.boundaries.find? (fun y => y.link == c.link) = some c)
    ∧ (∀ b : BLink, b ≠ 1 → image.boundaries.all (fun y => y.link != b) = true)
    ∧ State.reset.cfl.writing = false := by decide +kernel

theorem witness_LoadFaultsByTheFirstCheck :
    State.reset.cfl.load = .loading ∧ imageFault { image with readable := false } = some 1
    ∧ imageFault { image with reachesCounters := true } = some 1
    ∧ imageFault { image with checkAgrees := false } = some 2
    ∧ imageFault { image with formatVersion := 3 } = some 3
    ∧ imageFault { image with elements := ⟨256, 2, .signal⟩ :: image.elements } = some 4
    ∧ imageFault { image with routes := image.routes.map fun d => { d with entry := 77 } } = some 5
    ∧ imageFault { image with routes := image.routes.map fun d => { d with entry := 20 } } = some 6
    ∧ imageFault { image with routes := image.routes ++ image.routes } = some 7
    ∧ site.cfl.load ≠ .loading := by decide +kernel

theorem witness_CounterWriteEnds :
    site.notices = [] ∧ site.cfl.writing = false
    ∧ (∀ again ∈ [false, true], ({ site with cfl := { site.cfl with writing := true, writeAgain := again } } : State).notices
        = []) ∧ site.aou.storeFault = !true ∧ site.aou.storeFault = false
    ∧ (true = true ↔ some AouCounters.zero = some site.cfl.counterImage)
    ∧ (false = true ↔ (none : Option AouCounters) = some site.cfl.counterImage)
    ∧ (false = true ↔ some { AouCounters.zero with coldStart := ⟨1, false⟩ } = some site.cfl.counterImage) := by
  decide +kernel

theorem witness_ScrubChecksTheRecordAtThePointer :
    site.notices = [] ∧ site.cfl.load = .operating ∧ site.lkc.scrub = 0 ∧ site.elem 0 = .unconfigured
    ∧ (∀ e ∈ [20, 80, 110, 225], ({ site with lkc := { site.lkc with scrub := e } } : State).elem e ≠ .unconfigured
        ∧ (site.elem e).isSuspect = false)
    ∧ ((withElem site 20 (.track { trackRec with suspect := true })).elem 20).isSuspect = true
    ∧ site.point? 80 = some pointRec ∧ site.signal? 110 = some (signalRec 2) ∧ site.track? 20 = some trackRec
    ∧ site.boundary? 225 = some boundaryRec ∧ site.unitOf .sdu 110 = some sduUnit ∧ site.entryNaming 80 = none
    ∧ (site.takeClaim (.route 0 1) (.point 80 .n)).entryNaming 80 = some 0 := by decide +kernel

/-- The check word's function stays free: a state whose words are right, and what a step of it answers. -/
theorem witness_ScrubChecksTheRecordAtThePointer_checks :
    State.reset.ChecksRight ∧ step { State.reset with pending := [.roundStart] } = .next State.reset :=
  ⟨fun e => by simp [State.check, State.reset, Lkc.cold, State.elem, Vector.getD], rfl⟩

theorem witness_RoundStartPollsInAddressOrder :
    site.notices = [] ∧ site.cfl.load = .operating ∧ site.tbc.exchange = none ∧ site.tbc.round = none
    ∧ site.tbc.spacing = .running 0 ∧ site.pollOrder = 1 :: [40, 90]
    ∧ (withTbc site { site.tbc with units := [] }).tbc.units = [] ∧ faulty.cfl.load = .configFault 5
    ∧ faulty.notices = [] ∧ (withTbc faulty { faulty.tbc with spacing := .running 0 }).tbc.exchange = none
    ∧ (withTbc site { site.tbc with exchange := some (.poll 1) }).tbc.exchange ≠ none
    ∧ (withTbc site { site.tbc with round := some [] }).tbc.round ≠ none
    ∧ (withTbc site { site.tbc with spacing := .running 1 }).tbc.spacing ≠ .running 0 ∧ quiet.tbc.spacing ≠ .running 0 := by
  decide +kernel

theorem witness_TheArbiterPicksStopFirstThenOldest :
    (withTbc site { site.tbc with
      queue := [⟨40, .throwTo .r, 0, 0⟩, ⟨90, .showAs .stop, 1, 0⟩], spacing := .running 1 }).arbiter
      = some ⟨90, .showAs .stop, 1, 0⟩
    ∧ (withTbc site { site.tbc with queue := [⟨40, .throwTo .r, 0, 0⟩], spacing := .running 1 }).arbiter
      = some ⟨40, .throwTo .r, 0, 0⟩
    ∧ site.arbiter = none ∧ faulty.cfl.load ≠ .operating ∧ site.tbc.spacing = .running 0
    ∧ site.notices = [] ∧ site.tbc.exchange = none ∧ site.tbc.round = none := by decide +kernel

theorem witness_AMissedExchangeCounts :
    (withTbc site { site.tbc with exchange := some (.poll 40) }).unitAt 40 = some pduUnit
    ∧ (withTbc site { site.tbc with exchange := some (.command 90 (.showAs .stop) 0) }).unitAt 90 = some sduUnit
    ∧ pollAnswer pduUnit [] = none ∧ pollAnswer pduUnit (answerFrame 40 .ack) = none
    ∧ pollAnswer pduUnit (answerFrame 41 (.reportPdu .detN false)) = none
    ∧ commandAnswer sduUnit (answerFrame 90 (.reportSdu .stop false)) = none ∧ site.unitAt 1 = some chUnit
    ∧ (3 ≤ pduUnit.misses + 1 ∧ pduUnit.reachable = true ∧ site.point? pduUnit.serves = some pointRec)
    ∧ (3 ≤ sduUnit.misses + 1 ∧ sduUnit.reachable = true ∧ site.signal? sduUnit.serves = some (signalRec 2))
    ∧ (let ch : UnitRow := { chUnit with misses := 2 }
       3 ≤ ch.misses + 1 ∧ (withTbc site { site.tbc with units := [ch], exchange := some (.poll 1) }).unitAt 1 = some ch
        ∧ site.dp ch.serves = some dpRec ∧ dpRec.state = .normal)
    ∧ site.notices = [] ∧ site.tbc.exchange = none := by decide +kernel

/-- Which exchanges miss, which commands stay, and what a last miss finds. -/
theorem witness_AMissedExchangeCounts_commands :
    (∀ n ∈ [0, 1, 2], let q : QueuedCmd := ⟨90, .showAs .stop, 3, n⟩
      (withTbc site { site.tbc with queue := [q] }).stillQueued 90 3 = some q
        ∧ (withTbc site { site.tbc with queue := [q] }).stillQueued 90 2 = none)
    ∧ (let u : UnitRow := { sduUnit with misses := 1 }
       (withTbc site { site.tbc with units := [u] }).unitAt 90 = some u ∧ u.misses + 1 < 3)
    ∧ (let u : UnitRow := { sduUnit with misses := 3, reachable := false }
       (withTbc site { site.tbc with units := [u] }).unitAt 90 = some u)
    ∧ (3 ≤ sduUnit.misses + 1 ∧ sduUnit.reachable = true ∧ site.unitAt 90 = some sduUnit)
    ∧ (3 ≤ pduUnit.misses + 1 ∧ pduUnit.reachable = true ∧ site.unitAt 40 = some pduUnit)
    ∧ site.point? pduUnit.serves = some pointRec ∧ (withDrive site 80 drive80).drive pduUnit.serves = some drive80
    ∧ drive80.state = .active ∧ site.drive pduUnit.serves = none
    ∧ (∀ a ∈ [Aspect.stop, .proceed], (withElem site 110 (.signal { signalRec 2 with
        commanded := a, entrySlot := .held 0 })).signal? sduUnit.serves
          = some { signalRec 2 with commanded := a, entrySlot := .held 0 })
    ∧ site.unitOf .sdu sduUnit.serves = some sduUnit ∧ site.queuedAt sduUnit.address = none
    ∧ ((withCmd site 110 ⟨.running 0, false⟩).cmd sduUnit.serves).awaiting.isRunning = true
    ∧ (site.cmd sduUnit.serves).awaiting.isRunning = false := by decide +kernel

theorem witness_AGoodPollHandsTheReportOn :
    (∀ p ∈ [(chUnit, AnswerBody.reportCh 6 5 false), (chUnit, .reportCh 6 5 true), (pduUnit, .reportPdu .moving true),
      (sduUnit, .reportSdu .dark true)], site.unitAt p.1.address = some p.1
        ∧ pollAnswer p.1 (answerFrame p.1.address p.2) = some p.2 ∧ canAnswer p.1.kind p.2 = true ∧ p.1.address < 256
        ∧ (withTbc site { site.tbc with exchange := some (.poll p.1.address) }).tbc.exchange = some (.poll p.1.address))
    ∧ site.point? pduUnit.serves = some pointRec ∧ site.signal? sduUnit.serves = some (signalRec 2)
    ∧ site.dp chUnit.serves = some dpRec := by decide +kernel

/-- The drives and signals that a report finds. -/
theorem witness_AGoodPollHandsTheReportOn_records :
    (pduUnit.kind = .pdu ∧ pduUnit.reachable = true ∧ sduUnit.kind = .sdu) ∧ ({ pduUnit with reachable := false }).reachable = false
    ∧ site.drive 80 = none ∧ (withDrive site 80 drive80).drive 80 = some drive80
    ∧ reportedDetection .detR = detectionOf drive80.target ∧ reportedDetection .detN ≠ detectionOf drive80.target
    ∧ site.unitOf .pdu 80 = some pduUnit ∧ pointRec.next = none
    ∧ (∀ f ∈ [false, true], let p : PointRec := { pointRec with next := some .r, failed := f }
      (withElem site 80 (.point p)).point? 80 = some p ∧ (withElem site 80 (.point p)).wanted p .r f = f
        ∧ (withElem site 80 (.point p)).agrees p .r = true ∧ p.detection ≠ detectionOf .r)
    ∧ (let p : PointRec := { pointRec with next := some .r }
       p.flagsClear = true ∧ (withElem site 80 (.point p)).movable p = true)
    ∧ (withDrive site 80 { drive80 with state := .paused }).drive 80 = some { drive80 with state := .paused }
    ∧ (occupied site 20).containingClear pointRec = false ∧ site.throwLaw pointRec .r = true
    ∧ (∀ a ∈ [Aspect.stop, .proceed], (withElem site 110 (.signal { signalRec 2 with
        commanded := a, entrySlot := .held 0 })).signal? 110 = some { signalRec 2 with commanded := a, entrySlot := .held 0 })
    ∧ (∀ b ∈ [false, true], ((withCmd site 110 ⟨.stopped, b⟩).cmd 110) = ⟨.stopped, b⟩)
    ∧ ((withCmd site 110 ⟨.running 0, false⟩).cmd 110).awaiting.isRunning = true ∧ site.unitOf .sdu 110 = some sduUnit := by
  decide +kernel

theorem witness_AnAnsweredCommandLeavesTheQueue :
    (let q : QueuedCmd := ⟨40, .throwTo .r, 0, 1⟩
     let s := withTbc (withDrive site 80 drive80) { site.tbc with
      exchange := some (.command 40 (.throwTo .r) 0), queue := [q], nextAge := 1 }
     s.unitAt 40 = some pduUnit ∧ s.tbc.queue.filter (fun p => p.address == 40) = [q] ∧ q.age < s.tbc.nextAge
      ∧ commandAnswer pduUnit (answerFrame 40 .ack) = some .ack
      ∧ commandAnswer pduUnit (answerFrame 40 (.reject .unitFault)) = some (.reject .unitFault) ∧ s.notices = [] ∧ s.tbc.round = none
      ∧ s.queuedAt 40 = some q ∧ s.point? 80 = some pointRec ∧ s.drive 80 = some drive80 ∧ drive80.state = .active)
    ∧ site.notices = [] ∧ site.tbc.exchange = none := by decide +kernel

theorem witness_FieldTimersReplaceRetryOrFail :
    (∀ n ∈ [0, 1], let d : Drive := { drive80 with attemptsLeft := n }
      (withDrive site 80 d).drive 80 = some d ∧ d.state = .active ∧ d.timer = .running 0
        ∧ (withDrive site 80 d).point? 80 = some pointRec)
    ∧ pointRec.next = none ∧ site.throwLaw pointRec .r = true ∧ site.unitOf .pdu 80 = some pduUnit
    ∧ (∀ f ∈ [false, true], let p : PointRec := { pointRec with next := some .r, failed := f }
      (withElem site 80 (.point p)).point? 80 = some p ∧ (withElem site 80 (.point p)).wanted p .r false = false)
    ∧ (withElem site 80 (.point { pointRec with next := some .r })).wanted { pointRec with next := some .r } .r true = true
    ∧ (withElem site 80 (.point { pointRec with next := some .r })).throwLaw { pointRec with next := some .r } .r = true
    ∧ (occupied site 20).containingClear pointRec = false
    ∧ ((site.drive 80).all fun d => d.state != .active || !d.timer.isRunning) = true
    ∧ (let s := withCmd (withElem site 110 (.signal { signalRec 2 with entrySlot := .held 0 })) 110 ⟨.running 0, false⟩
       s.signal? 110 = some { signalRec 2 with entrySlot := .held 0 } ∧ (s.cmd 110).awaiting = .running 0
        ∧ s.unitOf .sdu 110 = some sduUnit)
    ∧ site.notices = [] ∧ (site.cmd 255).awaiting.isRunning = false := by decide +kernel

theorem witness_SectionsTakeTheRowTheirCountMeets :
    site.cfl.tolerance = 2
    ∧ (∀ n ∈ [1024, 1023, 4, 3, 0, -1, -2], ∀ st ∈ [Occ.clear, .occupied, .resetPending],
        n = (counted (n - 3) st 0 false false).count + axles.roundChange (counted (n - 3) st 0 false false))
    ∧ (∀ n ∈ [1, 0, -1, -2, -3], ∀ age ∈ [0, 1], ∀ mark ∈ [false, true],
        n = (counted n .occupied age mark mark).count + site.roundChange (counted n .occupied age mark mark))
    ∧ (counted 0 .disturbed 0 false false).state = .disturbed
    ∧ site.dp 0 = some dpRec ∧ dpRec.state = .normal ∧ (20, Orient.plus) ∈ dpRec.borders
    ∧ (failedSection .resetPending).count 20 = some (counted 1 .resetPending 0 false false) := by decide +kernel

theorem witness_AHeadReportCountsOrFails :
    site.dp 0 = some dpRec ∧ dpRec.state = .normal ∧ dpRec.last = some (5, 5)
    ∧ (((29 : Byte) - 5).toNat ≤ 24 * (1 + 0) ∧ ((77 : Byte) - 5).toNat ≤ 24 * (1 + 2))
    ∧ (24 * (1 + 0) < ((30 : Byte) - 5).toNat ∧ 24 * (1 + 2) < ((78 : Byte) - 5).toNat)
    ∧ ((3 : Byte) - 5).toNat = 254
    ∧ (∀ c ∈ [DpCause.start, .sensorFault], let r : DpRec := { dpRec with state := .failed c }
      r.state = .failed c ∧ r.pendingA = 0 ∧ r.pendingB = 0)
    ∧ (20, Orient.plus) ∈ dpRec.borders ∧ site.count 20 = some clearCount ∧ clearCount.state ≠ .disturbed := by
  decide +kernel

theorem witness_AnArrivingTelegramWaitsOrIsDiscarded :
    readOperatorFrame (operatorFrame ⟨9, .setRoute 110 130 true 60⟩) = some ⟨9, .setRoute 110 130 true 60⟩
    ∧ (∀ n ∈ [0, 3], ((site.modOlc .olC fun c => { c with waiting := List.replicate n ⟨1, .snapshot⟩ }).olc.get
        .olC).waiting.length < 4)
    ∧ 4 ≤ ((site.modOlc .olC fun c => { c with waiting := List.replicate 4 ⟨1, .snapshot⟩ }).olc.get .olC).waiting.length
    ∧ readOperatorFrame [] = none ∧ site.notices = [] := by decide +kernel

theorem witness_TheTransmitterSendsRepliesBeforeIndications :
    site.notices = [] ∧ (site.olc.get .olL).reply = none ∧ site.cfl.load ≠ .loading ∧ State.reset.cfl.load = .loading
    ∧ ((site.modOlc .olL fun c => { c with reply := some (5, .stored) }).olc.get .olL).reply = some (5, .stored)
    ∧ ((site.modOlc .olL fun c => { c with marks := [.aux] }).olc.get .olL).marks = .aux :: []
    ∧ (site.olc.get .olL).marks = [] := by decide +kernel

theorem witness_RequestsAreJudgedInTheOrderOfTheArrivalChecks :
    requestRows.all takesIt = true
    ∧ (∀ p ∈ requestRows, let s := asked faulty .olC p.2
      s.cfl.load = .configFault 5 ∧ s.notices = [] ∧ (s.olc.get .olC).reply = none ∧ (s.olc.get .olC).held = none
        ∧ (s.olc.get .olC).waiting.head? = some ⟨5, p.2⟩)
    ∧ (∀ r ∈ [Request.press 256, .setRoute 0 256 false 0, .storeCancel 512, .stopArea 16, .auxConfirm 1 48,
      .auxConfirm 4 16, .auxConfirm 5 256], Asks quiet .olC r ∧ r.outOfRange = true)
    ∧ Asks quiet .olL (.unknown 0)
    ∧ quiet.notices = [] ∧ (quiet.olc.get .olC).waiting = [] ∧ State.reset.cfl.load = .loading
    ∧ ((quiet.modOlc .olC fun c => { c with reply := some (5, .stored) }).olc.get .olC).reply ≠ none
    ∧ ((quiet.modOlc .olC fun c => { c with held := some 5 }).olc.get .olC).held ≠ none
    ∧ ((asked quiet .olC .snapshot).olc.get .olC).waiting.head? = some ⟨5, .snapshot⟩
    ∧ quiet.takeWaitingRoute .olC = none ∧ Request.isKind 1 .snapshot = false := by decide +kernel

theorem witness_ReadRouteAnswersTheDefinition :
    (∀ n ∈ [12, 511, 512], Asks site .olC (.readRoute n)) ∧ site.routeDef 12 = some route12
    ∧ site.routeDef 511 = none ∧ site.cfl.load ≠ .loading := by decide +kernel

theorem witness_ReadRouteAnswersTheDefinition_next :
    exec .retestRequest site = .next (run site .retestRequest) := rfl

theorem witness_ReadCountersAndSnapshot : Asks site .olC .readCounters ∧ Asks site .olL .snapshot := by decide +kernel

theorem witness_AuthRequestsByTheHolderOfTheArea :
    (∀ l ∈ [OpLink.olC, .olL], ∀ a ∈ [2, 15, 16], ∀ r ∈ [Request.authTake a, .authOffer a, .authReturn a],
      Asks site l r)
    ∧ (site.areaRec 15).holder = .none ∧ (site.areaRec 2).holder = holderOf .olC
    ∧ (site.areaRec 2).holder = holderOf (otherLink .olL) ∧ (site.areaRec 2).holder ≠ holderOf .olL
    ∧ (site.areaRec 2).offer = .stopped ∧ (site.areaRec 2).force = .stopped
    ∧ ((withArea site 2 ⟨.centre, .running 0, .stopped⟩).areaRec 2).offer ≠ .stopped
    ∧ ((withArea site 2 ⟨.centre, .stopped, .running 0⟩).areaRec 2).force ≠ .stopped := by decide +kernel

theorem witness_AChangeOfHolderDropsTheOldHoldersWork :
    ((withStore site [entry12]).rqs.store.map StoreEntry.route).Nodup ∧ Holder.localPanel ≠ .centre
    ∧ linkOf (site.areaRec 2).holder = some .olC ∧ (site.elem 110).area? = some 2 ∧ (site.elem 130).area? = some 3
    ∧ (withSel site (some ⟨110, .running 0⟩)).rim.sel.get .olC = some ⟨110, .running 0⟩
    ∧ (withSel site (some ⟨130, .running 0⟩)).rim.sel.get .olC = some ⟨130, .running 0⟩
    ∧ (site.areaRec 15).holder = .none := by decide +kernel

theorem witness_RequestTimersEndWhatTheyTime :
    ((withArea site 15 ⟨.centre, .running 0, .running 0⟩).areaRec 15) = ⟨.centre, .running 0, .running 0⟩
    ∧ (site.areaRec 15).offer.isRunning = false ∧ (site.areaRec 15).force.isRunning = false ∧ site.notices = []
    ∧ ((withAux site (some ⟨.authForce, 2, .running 0, false⟩)).olc.get .olC).aux = some ⟨.authForce, 2, .running 0, false⟩
    ∧ (site.olc.get .olC).aux = none ∧ site.rim.sel.get .olC = none
    ∧ (withSel site (some ⟨110, .running 0⟩)).rim.sel.get .olC = some ⟨110, .running 0⟩ := by decide +kernel

theorem witness_AuxIssueByItsChecks :
    (∀ p ∈ [(0, 0), (6, 0), (4, 15), (1, 47), (1, 48), (3, 255), (3, 21), (3, 130)], Asks site .olC (.auxIssue p.1 p.2))
    ∧ Asks site .olL (.auxIssue 4 2) ∧ auxKindOf 0 = none ∧ auxKindOf 6 = none ∧ auxKindOf 4 = some .authForce
    ∧ auxKindOf 1 = some .emergencyRelease ∧ auxKindOf 3 = some .suspectClear
    ∧ site.auxKnown .emergencyRelease 47 = true ∧ site.auxKnown .emergencyRelease 48 = false
    ∧ site.auxKnown .suspectClear 255 = false
    ∧ (site.auxKnown .suspectClear 130 = true ∧ site.auxAllowed .olC .suspectClear 130 = false)
    ∧ (site.auxKnown .suspectClear 21 = true ∧ site.auxAllowed .olC .suspectClear 21 = true
      ∧ site.auxReady .suspectClear 21 = false)
    ∧ (site.auxKnown .authForce 2 = true ∧ site.auxAllowed .olL .authForce 2 = true
      ∧ site.auxReady .authForce 2 = true) := by decide +kernel

theorem witness_AuxConfirmByItsRows :
    (∀ b ∈ [false, true], ∀ p ∈ [(3, 21), (3, 22), (2, 21), (3, 255), (1, 47), (4, 15)],
      Asks (withAux site (some ⟨.suspectClear, 21, .running 0, b⟩)) .olC (.auxConfirm p.1 p.2)
        ∧ Request.outOfRange (.auxConfirm p.1 p.2) = false
        ∧ ((withAux site (some ⟨.suspectClear, 21, .running 0, b⟩)).olc.get .olC).aux
          = some ⟨.suspectClear, 21, .running 0, b⟩)
    ∧ Asks site .olC (.auxConfirm 3 255) ∧ (site.olc.get .olC).aux = none
    ∧ auxKindOf 2 ≠ some .suspectClear ∧ auxKindOf 3 = some .suspectClear
    ∧ (withArea site 2 Area.cold).auxAllowed .olC .suspectClear 21 = false
    ∧ site.auxAllowed .olC .suspectClear 21 = true ∧ site.auxReady .suspectClear 21 = false
    ∧ (withElem site 21 (.track { trackRec with suspect := true })).auxReady .suspectClear 21 = true := by decide +kernel

theorem witness_AuxiliaryOperationsTakeEffect :
    (withInst site 47 inst12).inst 47 = some inst12 ∧ site.count 20 = some clearCount ∧ site.track? 20 = some trackRec
    ∧ site.elem 80 ≠ .unconfigured ∧ site.point? 80 = some pointRec ∧ site.boundary? 225 = some boundaryRec := by
  decide +kernel

theorem witness_SetRouteByItsChecks :
    (∀ p ∈ [(110, 130), (255, 130), (110, 255), (110, 110)], ∀ f ∈ [false, true],
      Asks site .olC (.setRoute p.1 p.2 f 0))
    ∧ Asks site .olL (.setRoute 110 130 false 0) ∧ site.signal? 255 = none ∧ site.isEnd 255 = false
    ∧ site.signal? 110 = some (signalRec 2) ∧ site.isEnd 130 = true ∧ site.isEnd 110 = true
    ∧ site.holdsArea .olL 2 = false ∧ site.holdsArea .olC 2 = true ∧ site.rankOne 110 110 = none
    ∧ site.rankOne 110 130 = some 12 ∧ ((withStore site [entry12]).storeEntry 12).isSome = true
    ∧ (site.storeEntry 12).isSome = false ∧ site.rim.requests = []
    ∧ (withRequests site [.incoming 1 2 41]).rim.requests ≠ []
    ∧ Asks (withRequests site [.incoming 1 2 41]) .olC (.setRoute 110 130 false 0)
    ∧ (let s := (withRequests site [.setRoute .olC 5 110 130 false 0]).modOlc .olC fun c => { c with held := some 5 }
       s.rim.requests = .setRoute .olC 5 110 130 false 0 :: [] ∧ (s.olc.get .olC).held = some 5)
    ∧ ((withStore site (entries 7)).rqs.store.filter fun y => y.link == .olC).length < 8
    ∧ 8 ≤ ((withStore site (entries 8)).rqs.store.filter fun y => y.link == .olC).length := by decide +kernel

theorem witness_SetRouteByItsChecks_reserved :
    ∃ i d t, ((asked site .olC (.setRoute 110 130 false 0)).taken .olC).tryRoute (.op .olC) (site.variants 110 130)
      = .reserved i d t := reserved_of (by decide +kernel)

theorem witness_SetRouteByItsChecks_noInstance :
    ((asked (crowded site) .olC (.setRoute 110 130 true 0)).taken .olC).tryRoute (.op .olC) (site.variants 110 130)
      = .noInstance := none_of (by decide +kernel)

theorem witness_SetRouteByItsChecks_blocked :
    ∃ b, ((asked (occupied site 20) .olC (.setRoute 110 130 true 0)).taken .olC).tryRoute (.op .olC)
      (site.variants 110 130) = .blocked b := blocked_of (by decide +kernel)

theorem witness_TheFirstVariantThatReservesIsChosen :
    (∃ i d t, (occupied site 21).tryRoute (.op .olC) [route12, route13] = .reserved i d t)
    ∧ (∃ e, (occupied site 20).tryRoute (.op .olC) [route12, route13] = .blocked e)
    ∧ (crowded site).tryRoute (.op .olC) [route12, route13] = .noInstance :=
  ⟨reserved_of (by decide +kernel), blocked_of (by decide +kernel), none_of (by decide +kernel)⟩

theorem witness_AReservationLocksEveryItem :
    site.inst 0 = none ∧ noTwice (routeElements route12) = true ∧ ∃ r, site.reserve 0 route12 = .ok r :=
  ⟨by decide +kernel, by decide +kernel, ok_of (by decide +kernel)⟩

/-- The flank items a reservation of route 15 chooses. -/
def claimedOf : Except Nat Reserved → List FlankChoice
  | .ok r => r.flank
  | .error _ => []

theorem witness_AReservationLocksEveryItem_flank :
    (∀ e n, site.flankRef e = some n → site.fctEntry n ≠ none) ∧ noTwice (routeElements route15) = true
    ∧ claimedOf (site.reserve 0 route15) = [⟨0, .claimed⟩, ⟨0, .asking⟩] := by
  refine ⟨?_, by decide +kernel, by decide +kernel⟩
  have h : ∀ e : Fin 256, site.flankRef e = none := by decide +kernel
  intro e n hn
  by_cases he : e < 256
  · rw [h ⟨e, he⟩] at hn
    cases hn
  · simp [State.flankRef, State.elem, Vector.getD, he] at hn

theorem witness_AReservationLocksEveryItem_claims :
    site.point? 80 = some pointRec ∧ site.signal? 110 = some (signalRec 2) ∧ site.flankRef 80 = none
    ∧ site.fctEntry 0 = none
    ∧ (let s := site.takeClaim (.route 0 1) (.point 80 .n)
       s.flankRef 80 = some 0 ∧ s.fctEntry 0 = some ⟨80, .pos .n, [.route 0 1]⟩)
    ∧ site.primaryOk [] (.claim (.point 80 .n)) = true ∧ site.primaryOk [] (.boundary 1 6) = true
    ∧ (onLink { blcRec with link := .down }).primaryOk [] (.boundary 1 6) = false
    ∧ site.claimOk [] (.point 80 .n) false = true
    ∧ (∀ t ∈ [FlankTarget.point 80 .n, .signal 130], (withElem (withElem site 80 (.point { pointRec with failed := true })) 130
        (.signal { signalRec 3 with suspect := true })).claimOk [] t false = false)
    ∧ (withRoute (inst15 .locking)).live 0 = some (inst15 .locking, route15)
    ∧ ((inst15 .locking).flank[2 - 1]?).any (fun c => c.status == .asking) = true
    ∧ route15.flank[2 - 1]? = some ⟨.boundary 1 6, 2, [.point 80 .n, .signal 130]⟩
    ∧ (withRoute (inst15 .locking)).claimOk [] (.point 80 .n) false = true
    ∧ site.inState (.point 80 .n) = true ∧ site.inState (.point 80 .r) = false
    ∧ site.claimOk [] (.point 80 .r) false = true := by decide +kernel

theorem witness_PressByTheSelection :
    (∀ e ∈ [110, 130, 21, 255], Asks site .olC (.press e) ∧ Asks (withSel site (some ⟨110, .running 0⟩)) .olC (.press e))
    ∧ (site.elem 255).area? = none ∧ (site.elem 110).area? ≠ none ∧ site.rim.sel.get .olC = none
    ∧ ((site.signal? 110).isSome = true ∧ site.isEntry 110 = true ∧ site.holdsElem .olC 110 = true)
    ∧ site.holdsElem .olL 110 = false ∧ Asks site .olL (.press 110) ∧ site.rim.sel.get .olL = none
    ∧ (site.signal? 21).isSome = false ∧ (site.elem 21).area? ≠ none ∧ site.isEntry 130 = false
    ∧ (site.elem 130).area? ≠ none ∧ (withSel site (some ⟨110, .running 0⟩)).rim.sel.get .olC = some ⟨110, .running 0⟩
    ∧ site.variants 110 130 ≠ [] ∧ site.variants 110 21 = [] ∧ site.variants 130 110 = []
    ∧ ((site.signal? 110).isSome && site.isEntry 110 && site.holdsElem .olC 110) = true
    ∧ ((site.signal? 21).isSome && site.isEntry 21 && site.holdsElem .olC 21) = false
    ∧ (withSel site (some ⟨130, .running 0⟩)).rim.sel.get .olC = some ⟨130, .running 0⟩
    ∧ site.rim.requests = [] ∧ (withRequests site [.incoming 1 2 41]).rim.requests ≠ [] := by decide +kernel

theorem witness_CancelRouteByTheStateOfTheInstance :
    (∀ e ∈ [110, 130, 255], Asks site .olC (.cancelRoute e)) ∧ site.isEnd 255 = false
    ∧ (site.isEnd 130 = true ∧ site.holdsElem .olC 130 = false)
    ∧ (site.isEnd 110 = true ∧ site.holdsElem .olC 110 = true ∧ site.entryInst 110 = none)
    ∧ (withInst site 47 inst12).entryInst 110 = some (47, inst12, route12) ∧ inst12.state = .locking
    ∧ (withInst site 0 { inst12 with state := .cleared }).entryInst 110
      = some (0, { inst12 with state := .cleared }, route12)
    ∧ InstState.cleared.supervised = true ∧ route12.cls ≠ .boundaryIn
    ∧ route12.approach.all site.isClear = true ∧ route12.approach.all (occupied site 23).isClear = false
    ∧ (withInst site 0 { inst12 with state := .inUse }).entryInst 110
      = some (0, { inst12 with state := .inUse }, route12)
    ∧ InstState.inUse.supervised = false
    ∧ ((withArea (withInst site 0 { inst12 with route := 41, state := .cleared }) 2 ⟨.centre, .stopped, .stopped⟩).entryInst
      225).any (fun x => x.2.2.cls == .boundaryIn) = true ∧ site.isEnd 225 = true ∧ site.holdsElem .olC 225 = true := by
  decide +kernel

theorem witness_ReClearByItsChecks :
    (∀ e ∈ [110, 130, 255], Asks site .olC (.reClear e)) ∧ site.isEnd 255 = false
    ∧ (site.isEnd 130 = true ∧ site.holdsElem .olC 130 = false)
    ∧ (site.isEnd 110 = true ∧ site.holdsElem .olC 110 = true ∧ site.entryInst 110 = none)
    ∧ enters setUp 110 .clearing .main = true
    ∧ enters (heldUp.modInst 0 fun r => { r with causes := [(.suspect, 20)] }) 110 .held .main = true
    ∧ heldUp.causeBars (.suspect, 20) = true ∧ enters heldUp 110 .held .main = true
    ∧ heldUp.causeBars (.operatorStop, 110) = false
    ∧ ((heldUp.entryInst 110).all fun x => (heldUp.clearingFailures x.1 x.2.1 x.2.2).isEmpty) = true
    ∧ (let s := occupied heldUp 21
       ((s.entryInst 110).any fun x => !(s.clearingFailures x.1 x.2.1 x.2.2).isEmpty) = true) := by decide +kernel

/-- A notice whose taking causes no other. -/
theorem witness_ReClearByItsChecks_settle :
    ({ site with notices := [.confirmed 0 110] } : State).notices = [.confirmed 0 110]
    ∧ (({ site with notices := [] } : State).takeNotice (.confirmed 0 110)).notices = [] := by decide +kernel

/-- Instances in LOCKING that the notices of R81 to R88 find. -/
theorem witness_ReClearByItsChecks_locking :
    (∀ r ∈ [inst15 .locking, inst40 .locking, inst14 .locking, inst12, { inst12 with waiting := [] }],
      ((withRoute r).live 0).any (fun p => p.1 == r && p.1.state == .locking) = true)
    ∧ inst12.waiting.any (Wait.isOn 80) = true ∧ inst12.waiting.any (Wait.isOn 81) = false
    ∧ (withRoute { inst12 with waiting := [] }).clearingFailures 0 { inst12 with waiting := [] } route12 ≠ []
    ∧ setUp.clearingFailures 0 { inst12 with waiting := [] } route12 = []
    ∧ ((inst40 .locking).waiting = [.acceptance] ∧ (inst40 .locking).acceptance = .notAsked
      ∧ (withRoute (inst40 .locking)).exitLink route40 = some 1)
    ∧ inst12.waiting ≠ [] ∧ inst12.waiting ≠ [.acceptance]
    ∧ inst12.locksPoint route12 80 = true ∧ (inst15 .locking).flankOn route15 80 = [1]
    ∧ (inst15 .locking).locksPoint route15 80 = false
    ∧ (pathIndex route14 24 = some 2 ∧ shuntLast route14 2 = true) ∧ (pathIndex route12 20 = some 1 ∧ shuntLast route12 1 = false)
    ∧ ((inst15 .locking).flank[2 - 1]?).any (fun c => c.status == .asking) = true
    ∧ inst12.lists route12 110 = true ∧ inst12.lists route12 80 = true
    ∧ (withRoute (inst40 .locking)).onLink (inst40 .locking) route40 1 = true
    ∧ (withRoute (inst15 .locking)).onLink (inst15 .locking) route15 1 = true
    ∧ Wait.direction ∈ [Wait.direction, .acceptance] ∧ OpLink.olC ∈ failureLinks inst12.origin := by decide +kernel

/-- Supervised instances that the causes of R93 find. -/
theorem witness_ReClearByItsChecks_supervised :
    (∀ st ∈ [InstState.clearing, .cleared, .held], ∀ r ∈ [inst15 st, inst40 st, inst41 st, inst14 st, { inst12 with state := st }],
      ((withRoute r).live 0).any (fun p => p.1 == r && p.1.state == st) = true)
    ∧ hasPoint (inst12.openItems route12) 80 = true ∧ (inst15 .cleared).flankOn route15 80 ≠ []
    ∧ pathIndex route12 20 = some 1 ∧ pathIndex route12 21 = some 2 ∧ shuntLast route12 2 = false
    ∧ pathIndex route14 24 = some 2 ∧ shuntLast route14 2 = true
    ∧ inst12.lists route12 130 = true ∧ inst12.locksPoint route12 80 = true
    ∧ (withRoute (inst41 .cleared)).onLink (inst41 .cleared) route41 1 = true
    ∧ (withRoute inst12).onLink inst12 route12 1 = false
    ∧ route41.cls = .boundaryIn ∧ route12.cls ≠ .boundaryIn ∧ site.signal? route12.entry = some (signalRec 2) := by
  decide +kernel

theorem witness_StoreCancelByTheLiftedMark :
    (∀ n ∈ [12, 13, 41, 511], Asks (withStore site [entry12]) .olC (.storeCancel n))
    ∧ (site.routeDef 511).all (fun d => d.cls == .boundaryIn) = true
    ∧ (site.routeDef 41).all (fun d => d.cls == .boundaryIn) = true
    ∧ site.routeDef 13 = some route13 ∧ route13.cls ≠ .boundaryIn
    ∧ site.holdsElem .olL 110 = false ∧ Asks site .olL (.storeCancel 12) ∧ site.holdsElem .olC 110 = true
    ∧ ((site.rankOne 110 130).bind site.storeEntry).all (fun y => y.link != .olC) = true
    ∧ (∀ b ∈ [false, true], let s := withStore site [{ entry12 with lifted := b }]
      (s.rankOne 110 130).bind s.storeEntry = some { entry12 with lifted := b }) := by decide +kernel

theorem witness_StopAreaHoldsTheClearedInstancesOfTheArea :
    (∀ a ∈ [2, 3, 15, 16], Asks site .olC (.stopArea a)) ∧ site.holdsArea .olC 15 = false
    ∧ site.holdsArea .olC 2 = true
    ∧ (∀ st ∈ [InstState.clearing, .cleared], (withInst site 47 { inst12 with state := st }).live 47
        = some ({ inst12 with state := st }, route12))
    ∧ (site.elem 110).area? = some 2 ∧ route12.cls ≠ .boundaryIn ∧ site.signal? 110 = some (signalRec 2)
    ∧ (withInst site 0 { inst12 with state := .held }).live 0 = some ({ inst12 with state := .held }, route12)
    ∧ (site.elem 110).area? ≠ some 3 := by decide +kernel

theorem witness_PointRequestsByTheStateOfThePoint :
    (∀ e ∈ [80, 255], Asks site .olC (.pointThrow e .r) ∧ Asks site .olC (.pointReset e))
    ∧ Asks site .olL (.pointThrow 80 .r) ∧ Asks site .olL (.pointReset 80)
    ∧ site.point? 255 = none ∧ site.point? 80 = some pointRec ∧ site.holdsArea .olL 2 = false
    ∧ site.holdsArea .olC 2 = true ∧ ((occupied site 20).throwRequest 80 .r true).2 = false
    ∧ (site.throwRequest 80 .r true).2 = true
    ∧ (site.agrees pointRec .r = true ∧ pointRec.flagsClear = true ∧ site.drive 80 = none
      ∧ pointRec.detection ≠ detectionOf .r ∧ site.movable pointRec = true ∧ site.throwLaw pointRec .r = true
      ∧ site.unitOf .pdu 80 = some pduUnit)
    ∧ pointRec.detection ≠ .moving ∧ pointRec.failed = false
    ∧ (∀ d ∈ [Detection.moving, .unknown], ∀ f ∈ [false, true],
      (withElem site 80 (.point { pointRec with detection := d, failed := f })).point? 80
        = some { pointRec with detection := d, failed := f }) := by decide +kernel

theorem witness_SignalResetByTheShownAspect :
    (∀ e ∈ [110, 255], Asks site .olC (.signalReset e)) ∧ Asks site .olL (.signalReset 110) ∧ site.signal? 255 = none
    ∧ site.holdsArea .olL 2 = false ∧ site.holdsArea .olC 2 = true
    ∧ (∀ f ∈ [false, true], ∀ x ∈ [Shown.stop, .proceed],
      (withElem site 110 (.signal { signalRec 2 with failed := f, shown := x })).signal? 110
        = some { signalRec 2 with failed := f, shown := x }) := by decide +kernel

theorem witness_BlockAndUnblockWriteTheFlag :
    (∀ e ∈ [20, 80, 110, 130, 225, 255], Asks site .olC (.block e) ∧ Asks site .olC (.unblock e))
    ∧ (site.elem 255).block? = none ∧ (site.elem 225).block? = none
    ∧ ((site.elem 130).block? ≠ none ∧ site.holdsElem .olC 130 = false)
    ∧ (∀ e ∈ [20, 80, 110], site.holdsElem .olC e = true ∧ (site.elem e).block? = some false)
    ∧ ((withElem site 20 (.track { trackRec with block := true })).elem 20).block? = some true := by decide +kernel

theorem witness_BoundaryRequestsByTheBoundaryRecord :
    (∀ e ∈ [225, 255], Asks site .olC (.boundaryOpen e) ∧ Asks site .olC (.boundaryClose e)
      ∧ Asks site .olC (.dirRequest e))
    ∧ Asks site .olL (.boundaryOpen 225) ∧ site.boundary? 255 = none ∧ site.boundary? 225 = some boundaryRec
    ∧ site.holdsArea .olL 2 = false ∧ site.holdsArea .olC 2 = true
    ∧ (site.blcAt 1).used = true ∧ ((onLink { blcRec with used := false }).blcAt 1).used = false
    ∧ (site.blcAt 1).direction ≠ .outward ∧ site.directionTests 1 = true
    ∧ (onLink { blcRec with isOpen := false }).directionTests 1 = false
    ∧ ((onLink { blcRec with direction := .outward }).blcAt 1).direction = .outward := by decide +kernel

theorem witness_InstanceTimersByTheState :
    (∀ st ∈ [InstState.locking, .cancelling, .emergency, .inUse], let r : Inst := { inst12 with
        state := st, setting := .running 0, approach := .running 0, emergency := .running 0, overlapTimer := .running 0 }
      (withInst site 47 r).live 47 = some (r, route12) ∧ (withInst site 47 r).inst 47 = some r ∧ r.state = st)
    ∧ overlapSect route12 = some 22 ∧ site.isClear 22 = true ∧ (occupied site 22).isClear 22 = false
    ∧ site.notices = []
    ∧ (let s := withInst site 0 { inst12 with state := .held }
      ((s.inst 0).all fun r => !(r.setting.isRunning && r.state == .locking)) = true
        ∧ ((s.inst 0).all fun r => !(r.overlapTimer.isRunning && r.state == .inUse)) = true
        ∧ ((s.inst 0).all fun r => !(r.approach.isRunning && r.state == .cancelling)) = true
        ∧ ((s.inst 0).all fun r => !(r.emergency.isRunning && r.state == .emergency)) = true) := by decide +kernel

theorem witness_AReleaseOfAllItemsFreesTheInstance :
    (withInst site 47 inst12).live 47 = some (inst12, route12) := by decide +kernel

/-- The states in which the train finds an instance. -/
theorem witness_AReleaseOfAllItemsFreesTheInstance_train :
    (∀ st ∈ [InstState.cancelling, .inUse, .seqFault, .emergency], ∀ r ∈ [inst15 st, inst40 st, inst41 st, inst14 st],
      ((withRoute r).live 0).any (fun p => p.1 == r && p.1.state == st) = true)
    ∧ site.sectionsAhead route12 = [] ∧ (occupied site 21).sectionsAhead route12 = [21]
    ∧ route12.cls ≠ .boundaryIn ∧ site.signal? route12.entry = some (signalRec 2)
    ∧ route41.cls = .boundaryIn ∧ site.entryLink route41 = some 1
    ∧ (seqIndex route12 23 = none ∧ seqIndex route12 20 = some 1 ∧ seqIndex route12 22 = some 3 ∧ seqIndex route15 24 = some 3)
    ∧ (∀ h ∈ [1, 2], h < 3 ∧ ¬(3 = route15.path.length + 1))
    ∧ (site.isClear (pathSect route15 2) = true ∧ (occupied site 22).isClear (pathSect route15 2) = false)
    ∧ (∀ c ∈ [OverlapState.locked, .timing], ({ inst12 with overlap := c } : Inst).overlapHeld = true)
    ∧ pathIndex route12 20 = some inst12.releasePtr ∧ pathIndex route12 21 ≠ some inst12.releasePtr
    ∧ overlapSect route12 = some 22 ∧ pathIndex route12 22 ≠ some inst12.releasePtr
    ∧ (inst12.lists route12 20 = true ∧ ((inst12.openItems route12).any fun it => it.sect == 20) = true)
    ∧ (inst12.lists route12 110 = true ∧ ((inst12.openItems route12).any fun it => it.sect == 110) = false)
    ∧ (site.blcAt 1).outRef route40.number = some 3 ∧ (site.blcAt 1).link = .up
    ∧ ({ inst12 with pathReleased := true, overlap := .released } : Inst).done = true ∧ inst12.done = false := by
  decide +kernel

theorem witness_RetestByTheOutcomeOfTheTrial :
    (withRequests (withStore site [shown12]) [.retest 12]).rim.requests = .retest 12 :: []
    ∧ site.storeEntry 12 = none ∧ (withStore site [entry12]).storeEntry 12 = some entry12 ∧ entry12.presented = false
    ∧ (withStore site [shown12]).storeEntry 12 = some shown12 ∧ shown12.presented = true
    ∧ site.notices = [] ∧ site.rim.requests = [] := by decide +kernel

theorem witness_RetestByTheOutcomeOfTheTrial_outcomes :
    let lifted := withStore site [{ entry12 with lifted := true }]
    (∃ i d t, lifted.tryRoute (.store .olC) (lifted.pairVariants 12) = .reserved i d t)
    ∧ (∃ b, (occupied lifted 20).tryRoute (.store .olC) (lifted.pairVariants 12) = .blocked b)
    ∧ (crowded lifted).tryRoute (.store .olC) (lifted.pairVariants 12) = .noInstance :=
  ⟨reserved_of (by decide +kernel), blocked_of (by decide +kernel), none_of (by decide +kernel)⟩

theorem witness_LifetimeExpiryByTheLiftedMark :
    site.notices = []
    ∧ (∀ b ∈ [false, true], (withStore site [{ entry12 with lifted := b }]).storeEntry 12
        = some { entry12 with lifted := b }) ∧ entry12.lifetime = .running 0
    ∧ ((site.storeEntry 511).all fun e => !e.lifetime.isRunning) = true
    ∧ (((withStore site [{ entry12 with lifetime := .stopped }]).storeEntry 12).all fun e => !e.lifetime.isRunning)
      = true := by decide +kernel

theorem witness_IncomingRequestReservesOrIsRefused :
    (∀ k ∈ [LinkState.up, .down, .sync], let s := withRequests (onLink { blcRec with link := k }) [.incoming 1 2 41]
      s.rim.requests = .incoming 1 2 41 :: [] ∧ s.notices = [] ∧ (s.blcAt 1).link = k)
    ∧ site.rim.requests = [] ∧ site.notices = [] := by decide +kernel

theorem witness_IncomingRequestReservesOrIsRefused_outcomes :
    (∃ i d t, (onLink { blcRec with direction := .inward }).tryRoute (.blc 1) (site.routeDef 41).toList
      = .reserved i d t)
    ∧ (crowded site).tryRoute (.blc 1) (site.routeDef 41).toList = .noInstance :=
  ⟨reserved_of (by decide +kernel), none_of (by decide +kernel)⟩

theorem witness_BoundaryFramesAreCountedAndAnswered :
    (∀ k ∈ [LinkState.up, .down, .sync], (onLink { blcRec with link := k }).linkServes 1 = true
      ∧ ((onLink { blcRec with link := k }).blcAt 1).link = k)
    ∧ site.notices = [] ∧ (site.blcAt 1).statusTimer.isRunning = true ∧ site.linkServes 0 = false
    ∧ ((onLink { blcRec with statusTimer := .stopped }).blcAt 1).statusTimer.isRunning = false
    ∧ readBoundaryFrame (site.blcAt 1).neighbour [] = none
    ∧ readBoundaryFrame (site.blcAt 1).neighbour (frame 0x3C [0, 7, 0x20]) = some (.other 0x20)
    ∧ (1 : Byte).toNat = 1 ∧ (22 : Byte).toNat = 22
    ∧ StatusBody.wellFormed ⟨true, .none, [16]⟩ = false ∧ HoldingsBody.wellFormed ⟨.none, [16], [], [], []⟩ = false
    ∧ faulty.cfl.load = .configFault 5 := by decide +kernel

theorem witness_BoundaryFramesAreCountedAndAnswered_load : ∀ n, site.cfl.load ≠ .configFault n := fun _ => nofun

theorem witness_LinksSynchroniseByStatusAndHoldings :
    (∀ k ∈ [LinkState.up, .down, .sync], ∀ g ∈ [DirChange.idle, .asked], ∀ d ∈ [Dir.none, .inward, .outward],
      let s := onLink { blcRec with link := k, change := g, direction := d }
      s.linkServes 1 = true ∧ (s.blcAt 1).link = k ∧ (s.blcAt 1).change = g ∧ (s.blcAt 1).direction = d)
    ∧ (StatusBody.wellFormed ⟨true, .outward, []⟩ = true ∧ StatusBody.wellFormed ⟨false, .none, [15]⟩ = true)
    ∧ mirror .outward = .inward ∧ HoldingsBody.wellFormed ⟨.none, [15], [15], [15], [15]⟩ = true
    ∧ HoldingsBody.wellFormed ⟨.outward, [], [], [], []⟩ = true ∧ site.notices = []
    ∧ (blcRec.outgoing = [] ∧ blcRec.outAsks = [] ∧ blcRec.incoming = [] ∧ blcRec.inAsks = [])
    ∧ ({ blcRec with outgoing := [⟨3, 0⟩] } : Blc).outgoing ≠ []
    ∧ ({ blcRec with outAsks := [⟨3, 0, .stopped⟩] } : Blc).outAsks ≠ []
    ∧ ({ blcRec with inAsks := [⟨2, 0⟩] } : Blc).inAsks ≠ []
    ∧ ({ blcRec with incoming := [⟨2, 0, false, false⟩] } : Blc).incoming ≠ [] := by decide +kernel

theorem witness_LinkTimersTakeTheLinkDown :
    (site.blcAt 1).silenceTimer.isRunning = true ∧ (site.blcAt 0).silenceTimer.isRunning = false
    ∧ ((onLink { blcRec with link := .sync, holdingsTimer := .running 0 }).blcAt 1).holdingsTimer.isRunning = true
    ∧ (site.blcAt 1).holdingsTimer.isRunning = false ∧ site.notices = [] := by decide +kernel

theorem witness_DirectionIsAskedGrantedAndRefused :
    site.notices = []
    ∧ (∀ k ∈ [LinkState.up, .down, .sync], ∀ g ∈ [DirChange.idle, .asking, .asked], ∀ b ∈ [false, true],
      let s := onLink { blcRec with link := k, change := g, senior := b, changeTimer := .running 0 }
      s.linkServes 1 = true ∧ (s.blcAt 1).link = k ∧ (s.blcAt 1).change = g ∧ (s.blcAt 1).senior = b
        ∧ (s.blcAt 1).changeTimer.isRunning = true)
    ∧ (site.goodFrame 1).grantsDirection 1 true = true
    ∧ ((onLink { blcRec with isOpen := false }).goodFrame 1).grantsDirection 1 true = false
    ∧ (∀ o ∈ [false, true], let s := onLink { blcRec with change := .asking, senior := false, isOpen := o }
      ((((s.goodFrame 1).modBlc 1 fun r => { r with change := .idle, changeTimer := .stopped }).notify
        (.directionFailed 1)).grantsDirection 1 false) = o)
    ∧ (site.blcAt 1).changeTimer.isRunning = false ∧ (site.blcAt 1).change ≠ .asking := by decide +kernel

theorem witness_AcceptanceIsAskedAndAnswered :
    (∀ ref ∈ [0, 2, 15], ref < 16) ∧ site.notices = []
    ∧ (∀ k ∈ [LinkState.up, .down, .sync], (onLink { blcRec with link := k }).linkServes 1 = true
      ∧ ((onLink { blcRec with link := k }).blcAt 1).link = k)
    ∧ (site.blcAt 1).direction ≠ .inward
    ∧ (∀ o ∈ [false, true], ((onLink { blcRec with direction := .inward, isOpen := o }).blcAt 1).isOpen = o
      ∧ ((onLink { blcRec with direction := .inward, isOpen := o }).blcAt 1).direction = .inward)
    ∧ ((onLink { blcRec with incoming := [⟨2, 0, false, false⟩] }).blcAt 1).incoming ≠ []
    ∧ ((onLink { blcRec with inAsks := [⟨2, 0⟩] }).blcAt 1).inAsks ≠ []
    ∧ (withRequests site [.incoming 1 2 41]).askWaits 1 = true
    ∧ (∀ d ∈ [Dir.inward, .outward], let s := onLink { blcRec with direction := d, outAsks := [⟨15, 47, .running 0⟩] }
      s.Up 1 ∧ (s.blcAt 1).direction = d ∧ (s.blcAt 1).outAsks.find? (fun a => a.ref == 15) = some ⟨15, 47, .running 0⟩
        ∧ (s.blcAt 1).outAsks.find? (fun a => a.inst == 47 && a.timer.isRunning) = some ⟨15, 47, .running 0⟩)
    ∧ site.Up 1 ∧ (site.blcAt 1).outAsks.all (fun a => a.ref != 0) = true
    ∧ (site.blcAt 1).outgoing.any (fun a => a.ref == 0) = false
    ∧ ((onLink { blcRec with outgoing := [⟨0, 0⟩] }).blcAt 1).outgoing.any (fun a => a.ref == 0) = true
    ∧ (site.blcAt 1).outAsks.find? (fun a => a.inst == 0 && a.timer.isRunning) = none := by decide +kernel

theorem witness_AcceptanceIsAskedAndAnswered_checks :
    verdict (site.acceptAskCheck 1 2) = (some .direction, none)
    ∧ verdict ((onLink { blcRec with direction := .inward }).acceptAskCheck 1 2) = (none, some route41)
    ∧ verdict ((onLink { blcRec with direction := .inward }).acceptAskCheck 1 15) = (some .unknown, none) := by
  decide +kernel

theorem witness_AnAcceptanceGivenIsWithdrawnOrUsed :
    (∀ h ∈ [false, true], let s := onLink { blcRec with incoming := [⟨15, 0, h, false⟩] }
      s.Up 1 ∧ (s.blcAt 1).incoming.find? (fun a => a.ref == 15) = some ⟨15, 0, h, false⟩
        ∧ s.withdrawable ⟨15, 0, h, false⟩ = !h)
    ∧ site.Up 1 ∧ (site.blcAt 1).incoming.all (fun a => a.ref != 0) = true
    ∧ ((onLink { blcRec with inAsks := [⟨0, 0⟩] }).blcAt 1).inAsks.find? (fun a => a.ref == 0) = some ⟨0, 0⟩
    ∧ (onLink { blcRec with inAsks := [⟨0, 0⟩] }).Up 1
    ∧ (site.blcAt 1).inAsks.all (fun a => a.ref != 0) = true := by decide +kernel

theorem witness_AssurancesAndBoundaryRelease :
    (∀ k ∈ [LinkState.up, .down, .sync], (onLink { blcRec with link := k }).linkServes 1 = true
      ∧ ((onLink { blcRec with link := k }).blcAt 1).link = k)
    ∧ site.Up 1 ∧ ((site.goodFrame 1).flankAsk 1 4).2 = true ∧ ((site.goodFrame 1).flankAsk 1 15).2 = false
    ∧ (let a : Assurance := ⟨15, 47, 8, false, .running 0⟩
       let s := onLink { blcRec with assurances := [a] }
       s.Up 1 ∧ s.askingEntry 1 15 = some a
        ∧ (s.blcAt 1).assurances.find? (fun a => a.isOf 47 8 && !a.assured && a.timer.isRunning) = some a
        ∧ (s.blcAt 1).assurances.find? (fun a => a.isOf 0 1 && !a.assured && a.timer.isRunning) = none)
    ∧ site.askingEntry 1 0 = none ∧ (site.blcAt 1).assurances.any (fun a => a.ref == 0) = false
    ∧ (let s := onLink { blcRec with assurances := [⟨0, 0, 1, true, .stopped⟩] }
       s.Up 1 ∧ s.askingEntry 1 0 = none ∧ (s.blcAt 1).assurances.any (fun a => a.ref == 0) = true)
    ∧ (let s := onLink { blcRec with link := .down, release := .running 0 }
       (s.blcAt 1).release.isRunning = true ∧ (s.blcAt 1).link = .down)
    ∧ site.notices = [] ∧ (site.blcAt 1).release.isRunning = false ∧ (site.blcAt 1).link ≠ .down := by decide +kernel

theorem witness_ReadingAWrittenOperatorFrameGivesTheRequest :
    ∀ r ∈ [Request.setRoute 255 255 true 65535, .readRoute 65535, .auxIssue 255 255, .press 255, .unknown 0,
      .unknown 255, .snapshot], r.fits = true := by decide +kernel

/-- A step of the small station, and the empty queue's. -/
theorem witness_EveryStep :
    (∃ t, step site = .next t) ∧ ∃ t, step { site with pending := [.retestRequest] } = .next t := ⟨⟨_, rfl⟩, ⟨_, rfl⟩⟩

/-- The station with point 80 SUSPECT under the UNKNOWN owner. -/
def lost80 : State := withElem site 80 (.point { pointRec with lock := .unknown, suspect := true })

/-- A part whose slots have no owner but UNKNOWN on a SUSPECT element. -/
theorem locks_of_table (s : State)
    (h : ∀ e : Fin 256, ∀ k ∈ [SlotKind.point, .track, .entry, .exit],
      (s.elem e).slot k = .empty ∨ ((s.elem e).slot k = .unknown ∧ (s.elem e).isSuspect = true))
    (hn : s.notices = []) (hr : (s.rcat.map RouteDef.number).Nodup) (hl : s.cfl.load = .operating) : s.LocksLegal := by
  have all : ∀ k e, (s.elem e).slot k = .empty ∨ ((s.elem e).slot k = .unknown ∧ (s.elem e).isSuspect = true) := by
    intro k e
    by_cases he : e < 256
    · exact h ⟨e, he⟩ k (by cases k <;> decide)
    · have : s.elem e = .unconfigured := Classical.byContradiction fun x => he (lt_of_elem x)
      rw [this]
      exact .inl (by cases k <;> rfl)
  refine locks_of_empty (fun k e i hi => ?_) (fun k e hu => ?_) (fun i hi => ?_) hr fun x => nomatch hl.symm.trans x
  · rcases all k e with a | a
    · exact nomatch a.symm.trans hi
    · exact nomatch a.1.symm.trans hi
  · rcases all k e with a | a
    · exact nomatch a.symm.trans hu
    · exact a.2
  · rw [State.Transferring, hn] at hi
    exact nomatch hi

/-- The station has no lock; lost80 has the UNKNOWN owner; with a route set, point 80, section 20 and the slots of its
signals are held by the instance, and every owner is live. -/
theorem witness_EveryStepKeepsTheAreasAndLocksLegal :
    site.AreasLegal ∧ site.LocksLegal ∧ (lost80.LocksLegal ∧ (lost80.elem 80).slot .point = .unknown)
    ∧ let s := run (asked site .olC (.setRoute 110 130 false 0)) (.setRoute .olC)
      s.LocksLegal ∧ (s.elem 80).slot .point = .held 0 ∧ (s.elem 20).slot .track = .held 0
        ∧ (s.elem 110).slot .entry = .held 0 ∧ (s.elem 130).slot .exit = .held 0 := by
  refine ⟨by unfold State.AreasLegal; decide +kernel,
    locks_of_table _ (by decide +kernel) rfl (by decide +kernel) rfl,
    ⟨locks_of_table _ (by decide +kernel) rfl (by decide +kernel) rfl, by decide +kernel⟩, ?_, by decide +kernel⟩
  refine exec_locks (c := .setRoute .olC) nofun nofun ?_
    (locks_of_table (asked site .olC (.setRoute 110 130 false 0)) (by decide +kernel) rfl (by decide +kernel) rfl)
  obtain ⟨t, ht, -⟩ := exec_work (.setRoute .olC) (asked site .olC (.setRoute 110 130 false 0)) nofun nofun
  unfold run
  rw [ht]
  rfl

theorem witness_EveryStepKeepsTheListsBounded :
    let s := withTbc (withStore (onLink { blcRec with outgoing := [⟨3, 0⟩], inAsks := [⟨2, 0⟩] }) (entries 8)) { site.tbc with
      queue := [⟨40, .throwTo .r, 0, 0⟩, ⟨90, .showAs .stop, 1, 0⟩] }
    s.WaitingBounded ∧ s.StoreLegal ∧ s.QueueSingle ∧ s.AcceptancesSingle :=
  ⟨fun l => by cases l <;> decide +kernel, ⟨fun l => by cases l <;> decide +kernel, by decide +kernel⟩,
    by unfold State.QueueSingle; decide +kernel, by unfold State.AcceptancesSingle; decide +kernel⟩

theorem witness_EveryStepKeepsTheSectionsLegal : site.SectionsLegal := by
  have h : ∀ e : Fin 256, (site.count e).all (fun c => decide (c.legal site.cfl.tolerance)) = true := by decide +kernel
  refine ⟨by decide +kernel, fun l => absurd l (by decide +kernel), fun e c hc => ?_⟩
  by_cases he : e < 256
  · have := h ⟨e, he⟩
    simp only [hc, Option.all_some, decide_eq_true_eq] at this
    exact this
  · have : site.count e = none := by
      simp [State.count, Vector.getD, he]
    rw [this] at hc
    cases hc

theorem witness_EveryStepKeepsADownLinkEmpty : site.DownEmpty := by
  unfold State.DownEmpty; decide +kernel

theorem witness_EveryStepKeepsTheMarksDistinct : State.reset.MarksLegal := fun l => by cases l <;> decide +kernel

theorem witness_TheCatalogueStandsAndTheCountersNeverFall :
    Instr.retestRequest ≠ .coldStart ∧ (∀ m k, Instr.retestRequest ≠ .loadComplete m k)
    ∧ (∀ l, Instr.retestRequest ≠ .auxConfirm l) ∧ ∃ t, exec .retestRequest site = .next t :=
  ⟨nofun, nofun, nofun, _, rfl⟩

/-! ### Further clauses and rows -/

/-- The bus after a POLL and after a command: a unit to poll with and without a command to send, the last unit, no round. -/
theorem witness_AfterAnExchange :
    (let s := withTbc site { site.tbc with round := some [40], queue := [⟨90, .showAs .stop, 0, 0⟩] }
     s.tbc.round = some (40 :: []) ∧ s.arbiter = some ⟨90, .showAs .stop, 0, 0⟩)
    ∧ ((withTbc site { site.tbc with round := some [40] }).tbc.round = some (40 :: [])
      ∧ (withTbc site { site.tbc with round := some [40] }).arbiter = none)
    ∧ (∀ b ∈ [true, false], let s := withTbc site { site.tbc with exchange := some (.poll 90), round := some [] }
       s.tbc.exchange = some (.poll 90) ∧ s.unitAt 90 = some sduUnit ∧ s.tbc.round = some []
        ∧ (pollAnswer sduUnit (if b then answerFrame 90 (.reportSdu .stop false) else [])).isSome = b)
    ∧ site.tbc.round = none ∧ chUnit.kind = .ch := by decide +kernel

/-- Points and signals whose records change with each kind of notice. -/
theorem witness_NoticesOfOneChange :
    (let old : PointRec := { pointRec with lock := .held 2 .path .n, flankRef := some 0 }
     let s := withElem (site.takeClaim (.route 3 1) (.point 80 .n)) 80 (.point old)
     s.point? 80 = some old
      ∧ s.pointNotices 80 { old with detection := .moving } old = [.position 2 80, .position 3 80]
      ∧ s.pointNotices 80 old { old with detection := .moving, failed := true }
        = [.detectionLost 2 80, .flankLost 3 80, .pointFailed 2 80, .pointFailed 3 80])
    ∧ (let old : SignalRec :=
        { signalRec 2 with flankRef := some 0, shown := .proceed, commanded := .proceed, entrySlot := .held 2 }
       let s := withElem (site.takeClaim (.route 3 1) (.signal 110)) 110 (.signal old)
       s.signal? 110 = some old ∧ s.signalNotices 110 old { old with shown := .stop } = [.position 3 110]
      ∧ s.signalNotices 110 { old with shown := .stop } { old with lampFault := true }
        = [.flankLost 3 110, .lampFault 2 110]) := by decide +kernel

/-- Answers to commands: still queued or not, and the drives and signals they find. -/
theorem witness_AnAnsweredCommandLeavesTheQueue_answers :
    (let q : QueuedCmd := ⟨40, .throwTo .r, 7, 1⟩
     let s := withTbc site { site.tbc with exchange := some (.command 40 (.throwTo .r) 7), queue := [q] }
     s.tbc.exchange = some (.command 40 (.throwTo .r) 7) ∧ s.unitAt 40 = some pduUnit ∧ s.queuedAt 40 = some q
      ∧ q.age = 7 ∧ q.age ≠ 6 ∧ site.queuedAt 40 = none
      ∧ commandAnswer pduUnit (answerFrame 40 (.reject .localMode)) = some (.reject .localMode))
    ∧ site.drive 80 = none ∧ site.point? 80 = some pointRec
    ∧ (∀ st ∈ [DriveState.active, .paused], (withDrive site 80 { drive80 with state := st }).drive 80 = some { drive80 with state := st })
    ∧ RejectReason.wrongKind ≠ .localMode ∧ RejectReason.unitFault ≠ .localMode
    ∧ (let p : PointRec := { pointRec with lock := .held 2 .path .r, flankRef := some 0 }
       let s := withDrive (withElem (site.takeClaim (.route 3 1) (.point 80 .r)) 80 (.point p)) 80 drive80
       s.point? 80 = some p ∧ s.drive 80 = some drive80 ∧ p.failed = false ∧ p.lock = .held 2 .path .r
        ∧ s.claim? p.flankRef = some ⟨80, .pos .r, [.route 3 1]⟩)
    ∧ (∀ b ∈ [true, false], ((withCmd site 110 ⟨if b then .running 0 else .stopped, true⟩).cmd 110).awaiting.isRunning = b)
    ∧ site.unitOf .sdu 110 = some sduUnit ∧ site.queuedAt 90 = none ∧ site.signal? 110 = some (signalRec 2)
    ∧ (withTbc site { site.tbc with queue := [⟨90, .showAs .stop, 0, 0⟩] }).queuedAt 90 = some ⟨90, .showAs .stop, 0, 0⟩
    ∧ (withTbc site { site.tbc with queue := [⟨90, .showAs .proceed, 0, 0⟩] }).queuedAt 90 = some ⟨90, .showAs .proceed, 0, 0⟩ := by
  decide +kernel

/-- A section that changes, with a point that moves in it, and the changes of one step. -/
theorem witness_RoundCompleteEvaluatesEverySection :
    site.track? 20 = some trackRec ∧ trackRec.occupancy = .clear ∧ trackRec.occupancy ≠ .occupied ∧ site.track? 80 = none
    ∧ (occupied site 20).track? 20 = some { trackRec with occupancy := .occupied }
    ∧ (let s := withDrive (withElem (withElem site 20 (.track { trackRec with lock := .held 2 .path })) 80
        (.point { pointRec with detection := .moving })) 80 drive80
       s.track? 20 = some { trackRec with lock := .held 2 .path }
        ∧ s.point? 80 = some { pointRec with detection := .moving } ∧ 20 ∈ pointRec.containing ∧ 21 ∉ pointRec.containing
        ∧ s.drive 80 = some drive80 ∧ drive80.state = .active)
    ∧ pointRec.detection ≠ .moving ∧ site.drive 80 = none
    ∧ (([(20, .occupied), (21, .disturbed)] : List (Nat × Occ)).map Prod.fst).Nodup := by decide +kernel

/-- An UNREACHABLE head with miss count 3 that answers. -/
theorem witness_AHeadReportCountsOrFails_again :
    (let u : UnitRow := { chUnit with misses := 3, reachable := false }
     let r : DpRec := { dpRec with state := .failed .noAnswer }
     let s := { withTbc site { site.tbc with units := [u], exchange := some (.poll 1) } with
      ace := { site.ace with dps := site.ace.dps.setIfInBounds 0 (some r) } }
     s.tbc.exchange = some (.poll 1) ∧ s.unitAt 1 = some u ∧ u.kind = .ch
      ∧ pollAnswer u (answerFrame 1 (.reportCh 6 5 false)) = some (.reportCh 6 5 false) ∧ s.dp u.serves = some r
      ∧ r.state = .failed .noAnswer ∧ r.pendingA = 0 ∧ r.pendingB = 0) := by decide +kernel

/-- The objects of the auxiliary operations, ready and not. -/
theorem witness_AuxIssueByItsChecks_rows :
    site.live 0 = none ∧ (withInst site 47 inst12).live 47 = some (inst12, route12)
    ∧ (∀ st ∈ [InstState.inUse, .seqFault, .held, .cancelling],
      (withInst site 47 { inst12 with state := st }).auxReady .emergencyRelease 47 = true)
    ∧ site.auxReady .emergencyRelease 47 = false ∧ (failedSection .disturbed).auxReady .sectionReset 20 = true
    ∧ site.auxReady .sectionReset 20 = false
    ∧ (withElem site 21 (.track { trackRec with suspect := true })).auxReady .suspectClear 21 = true
    ∧ site.auxReady .authForce 2 = true ∧ site.auxReady .authForce 15 = false
    ∧ (onLink { blcRec with link := .down, lostHoldings := true }).auxReady .boundaryRelease 225 = true
    ∧ site.auxReady .boundaryRelease 225 = false := by decide +kernel

/-- The rows of a throw request. -/
theorem witness_PointRequestsByTheStateOfThePoint_throw :
    site.point? 255 = none ∧ site.point? 80 = some pointRec ∧ site.drive 80 = none
    ∧ (let p : PointRec := { pointRec with lock := .held 2 .path .n }
       (withElem site 80 (.point p)).agrees p .r = false ∧ (withElem site 80 (.point p)).agrees p .n = true)
    ∧ ({ pointRec with suspect := true } : PointRec).flagsClear = false
    ∧ (site.agrees pointRec .r = true ∧ pointRec.flagsClear = true ∧ pointRec.detection ≠ detectionOf .r
      ∧ site.movable pointRec = true ∧ (occupied site 20).movable pointRec = false)
    ∧ (site.agrees pointRec .n = true ∧ pointRec.detection = detectionOf .n)
    ∧ (withDrive site 80 drive80).drive 80 = some drive80 ∧ drive80.target = .r ∧ drive80.target ≠ .n
    ∧ site.throwLaw pointRec .r = true ∧ (occupied site 20).throwLaw pointRec .r = false
    ∧ site.unitOf .pdu 80 = some pduUnit ∧ (withTbc site { site.tbc with units := [] }).unitOf .pdu 80 = none := by
  decide +kernel

/-- The items of a reservation: all pass, one fails, and the flank items decide. -/
theorem witness_TheFirstVariantThatReservesIsChosen_items :
    ([(route12.entry, site.entryItemOk route12), (route12.exit, site.exitItemOk route12)]
        ++ (indexedPath route12).flatMap (fun p => (p.2.sect, site.sectionItemOk route12 true (shuntLast route12 p.1) p.2.sect)
            :: p.2.points.map fun r => (r.point, site.pointItemOk route12 true r))
        ++ route12.overlap.toList.flatMap (fun it => (it.sect, site.sectionItemOk route12 false false it.sect)
            :: it.points.map fun r => (r.point, site.pointItemOk route12 false r))).all (fun p => p.2) = true
    ∧ ([(route12.entry, (occupied site 21).entryItemOk route12), (route12.exit, (occupied site 21).exitItemOk route12)]
        ++ (indexedPath route12).flatMap (fun p =>
            (p.2.sect, (occupied site 21).sectionItemOk route12 true (shuntLast route12 p.1) p.2.sect)
            :: p.2.points.map fun r => (r.point, (occupied site 21).pointItemOk route12 true r))
        ++ route12.overlap.toList.flatMap (fun it => (it.sect, (occupied site 21).sectionItemOk route12 false false it.sect)
            :: it.points.map fun r => (r.point, (occupied site 21).pointItemOk route12 false r))).find? (fun p => !p.2)
      = some (21, false)
    ∧ site.chooseAll [] route12.flank = .ok [] ∧ (site.chooseFlank [] ⟨.claim (.point 80 .n), 1, []⟩).isSome = true
    ∧ (site.chooseFlank [] ⟨.claim (.point 255 .n), 1, []⟩).isSome = false
    ∧ site.signal? route12.entry = some (signalRec 2) ∧ site.signal? route12.exit = some (signalRec 3)
    ∧ site.boundary? route41.entry = some boundaryRec ∧ site.boundary? route40.exit = some boundaryRec
    ∧ (∀ e, e = 255 → site.signal? e = none ∧ site.boundary? e = none) := by
  refine ⟨by decide +kernel, by decide +kernel, rfl, by decide +kernel, by decide +kernel, by decide +kernel,
    by decide +kernel, by decide +kernel, by decide +kernel, ?_⟩
  rintro _ rfl
  decide +kernel

/-- Requests taken while the RIM is busy or not, and one that waited. -/
theorem witness_SetRouteByItsChecks_waiting :
    (∀ l ∈ [OpLink.olC, .olL], Asks (withRequests site [.incoming 1 2 41]) l (.setRoute 110 130 true 0))
    ∧ (withRequests site [.incoming 1 2 41]).signal? 110 = some (signalRec 2)
    ∧ (withRequests site [.incoming 1 2 41]).isEnd 130 = true
    ∧ (withRequests site [.incoming 1 2 41]).holdsArea .olC 2 = true
    ∧ (withRequests site [.incoming 1 2 41]).holdsArea .olL 2 = false
    ∧ (site.storeEntry 12).isSome = false ∧ site.holdsArea .olL 2 = false ∧ site.holdsArea .olC 2 = true
    ∧ (let s := withRequests (withSel site (some ⟨110, .running 0⟩)) [.incoming 1 2 41]
       Asks s .olC (.press 130) ∧ s.rim.requests ≠ [] ∧ s.variants 110 130 ≠ [] ∧ s.signal? 110 = some (signalRec 2)
        ∧ s.isEnd 130 = true ∧ s.holdsArea .olC 2 = true ∧ (s.elem 130).area? ≠ none ∧ s.signal? 21 = none
        ∧ s.isEnd 255 = false)
    ∧ (let s := withArea (withSel site (some ⟨110, .running 0⟩)) 2 ⟨.localPanel, .stopped, .stopped⟩
       Asks s .olC (.press 130) ∧ s.holdsArea .olC 2 = false ∧ s.variants 110 130 ≠ []) := by decide +kernel

/-- Telegram rows in CONFIG_FAULT, while LOADING, on an unused link, well-formed and not. -/
theorem witness_BoundaryFramesAreCountedAndAnswered_rows :
    telegramRow (.dirAskReceived 1) = some (1, true) ∧ telegramRow (.acceptAskReceived 1 15) = some (1, true)
    ∧ telegramRow (.acceptAskReceived 1 16) = some (1, false) ∧ telegramRow (.operatorRequestOnBoundary 1 22) = some (1, true)
    ∧ telegramRow (.operatorRequestOnBoundary 1 23) = some (1, false)
    ∧ telegramRow (.statusReceived 0 ⟨true, .none, []⟩) = some (0, true)
    ∧ faulty.notices = [] ∧ faulty.cfl.load = .configFault 5 ∧ State.reset.linkServes 1 = false ∧ State.reset.notices = []
    ∧ site.linkServes 0 = false ∧ site.linkServes 1 = true ∧ site.notices = []
    ∧ readBoundaryFrame 7 (boundaryFrame 7 .dirAsk) = some (.telegram .dirAsk) := by decide +kernel

theorem witness_BoundaryFramesAreCountedAndAnswered_loading : ∀ n, State.reset.cfl.load ≠ .configFault n := fun _ => nofun

/-- STATUS in SYNC and UP with every change and direction. -/
theorem witness_LinksSynchroniseByStatusAndHoldings_changes :
    ∀ k ∈ [LinkState.up, .sync], ∀ g ∈ [DirChange.idle, .asking, .asked], ∀ d ∈ [Dir.none, .inward, .outward],
      let s := onLink { blcRec with link := k, change := g, direction := d }
      s.linkServes 1 = true ∧ (s.blcAt 1).link = k ∧ (s.blcAt 1).change = g ∧ (s.blcAt 1).direction = d ∧ s.notices = [] := by
  decide +kernel

/-- A SET-ROUTE that finds the RIM busy is judged for authority at once, and not again when it comes up (R68, R154). -/
theorem test_setRoute_busy :
    ((run (asked (withRequests site [.incoming 1 2 41]) .olL (.setRoute 110 130 false 0)) (.setRoute .olL)).olc.olL.reply).map
      Prod.snd = some (.refused .noAuthority)
    ∧ (run (asked (withRequests site [.incoming 1 2 41]) .olC (.setRoute 110 130 false 0)) (.setRoute .olC)).rim.requests
      = [.incoming 1 2 41, .setRoute .olC 5 110 130 false 0]
    ∧ ((run ((withRequests site [.setRoute .olL 5 110 130 false 0]).modOlc .olL fun c => { c with held := some 5 })
        (.setRoute .olL)).olc.olL.reply) = some (5, .acceptedRoute 0 12) := by decide +kernel

/-- Of two definitions of one number the first stands: where that leaves a pair without its rank 1, the image is at fault
(R65, R188). -/
theorem test_rankOneDropped :
    imageFault { image with routes := (image.routes.map fun d => { d with rank := 2 }) ++ image.routes } = some 5
    ∧ imageFault { image with routes := image.routes ++ (image.routes.map fun d => { d with rank := 2 }) } = none := by
  decide +kernel

/-- SUSPECT-CLEAR finds a record of each kind, and the retest pass in each state. -/
theorem witness_AuxiliaryOperationsTakeEffect_kinds :
    site.signal? 110 = some (signalRec 2) ∧ site.boundary? 225 = some boundaryRec
    ∧ (site.track? 20 = some trackRec ∧ site.count 20 = some clearCount)
    ∧ (∀ p ∈ [(80, Element.point { pointRec with suspect := true }), (110, .signal { signalRec 2 with suspect := true }),
        (20, .track { trackRec with suspect := true }), (225, .boundary { boundaryRec with suspect := true })],
      ((withElem site p.1 p.2).elem p.1).isSuspect = true)
    ∧ site.rqs.running = false ∧ site.rqs.store = [] ∧ (withStore site [entry12]).rqs.store = entry12 :: []
    ∧ { site with rqs := { site.rqs with running := true } }.rqs.running = true := by decide +kernel

/-- The last item of a BOUNDARY_OUT route in every link state, and flank items to give up. -/
theorem witness_AReleaseOfAllItemsFreesTheInstance_handover :
    (∀ k ∈ [LinkState.up, .sync, .down], let s := onLink { blcRec with link := k, outgoing := [⟨3, 0⟩] }
      s.exitLink route40 = some 1 ∧ (s.blcAt 1).outRef route40.number = some 3 ∧ (s.blcAt 1).link = k
        ∧ (withInst s 0 (inst40 .inUse)).inst 0 = some (inst40 .inUse))
    ∧ route40.cls = .boundaryOut ∧ 1 = route40.path.length ∧ (site.blcAt 1).assurances = []
    ∧ (∀ g ∈ [false, true], let a : Assurance := ⟨6, 0, 2, g, .stopped⟩
       ((onLink { blcRec with assurances := [⟨6, 1, 2, true, .stopped⟩, a] }).blcAt 1).assurances.find? (fun a => a.isOf 0 2)
        = some a)
    ∧ (([⟨6, 1, 2, true, .stopped⟩, ⟨6, 0, 2, true, .stopped⟩] : List Assurance).filter fun a => !a.isOf 0 2)
      = [⟨6, 1, 2, true, .stopped⟩]
    ∧ (([⟨6, 0, 2, true, .stopped⟩] : List Assurance).filter fun a => !a.isOf 0 2) = [] := by decide +kernel

/-- A link that serves in SYNC and DOWN, and the instance of a withdrawal. -/
theorem witness_AnAcceptanceGivenIsWithdrawnOrUsed_links :
    (∀ k ∈ [LinkState.down, .sync], let s := onLink { blcRec with link := k }
      s.notices = [] ∧ s.linkServes 1 = true ∧ (s.blcAt 1).link ≠ .up)
    ∧ (∀ g ∈ [false, true], (withInst site 0 { inst41 .cleared with entryTaken := g }).inst 0
      = some { inst41 .cleared with entryTaken := g }) ∧ site.inst 0 = none := by decide +kernel

/-- A change that is ASKING in DOWN, the line clear and not, and claims of a link that stay and leave. -/
theorem witness_LinksSynchroniseByStatusAndHoldings_lists :
    (let s := onLink { blcRec with link := .down, change := .asking }
     s.notices = [] ∧ s.linkServes 1 = true ∧ (s.blcAt 1).link = .down)
    ∧ site.lineFree (site.blcAt 1) = true ∧ (State.lineFree site { blcRec with neighbourClear := false }) = false
    ∧ ((occupied site 20).lineFree { blcRec with lineSections := [20] }) = false
    ∧ (∀ l ∈ [[Claimant.boundary 1 4], [.route 2 1], [.route 2 1, .boundary 1 4]],
      (site.putFct 0 (some ⟨80, .pos .n, l⟩)).fctEntry 0 = some ⟨80, .pos .n, l⟩) ∧ site.fctEntry 0 = none
    ∧ (onLink { blcRec with outAsks := [⟨3, 0, .running 5⟩, ⟨3, 1, .stopped⟩] }).blcAt 1
      = { blcRec with outAsks := [⟨3, 0, .running 5⟩] ++ ⟨3, 1, .stopped⟩ :: [] }
    ∧ (onLink { blcRec with assurances := [⟨6, 0, 2, true, .stopped⟩, ⟨6, 1, 2, false, .stopped⟩] }).blcAt 1
      = { blcRec with assurances := [⟨6, 0, 2, true, .stopped⟩] ++ ⟨6, 1, 2, false, .stopped⟩ :: [] } := by decide +kernel

/-- HOLDINGS in SYNC: a listed ask becomes an acceptance, one not listed is lost, an ASSURED entry stays. -/
theorem test_holdings_received :
    (let r := (run (onLink { blcRec with
        link := .sync, direction := .outward, outgoing := [⟨3, 0⟩], outAsks := [⟨4, 1, .running 5⟩]
        assurances := [⟨6, 2, 1, true, .stopped⟩] }) (.holdingsReceived 1 ⟨.inward, [4], [], [6], []⟩)).blcAt 1
     r.link = .up ∧ r.outgoing = [⟨4, 1⟩] ∧ r.outAsks = [] ∧ r.assurances = [⟨6, 2, 1, true, .stopped⟩]
      ∧ r.direction = .outward) := by decide +kernel

/-- Entries of the image that do not stand are not counted, nor do they hold a reference (R186). -/
theorem test_standingEntries :
    imageFault { image with elements := image.elements.map fun (e : ElemCfg) =>
      match e.kind with
      | .boundary .. => { e with number := 252 }
      | _ => e } = some 4
    ∧ (let out : Image := { image with routes := [⟨40, .boundaryOut, 110, 253, 1, [⟨20, []⟩], none, [], [], 0, 0, none⟩] }
       imageFault { out with boundaries := [⟨1, true, true, [], [], [], 9⟩, ⟨1, true, true, [], [(40, 3)], [], 9⟩] } = some 6
       ∧ imageFault { out with boundaries := [⟨1, true, true, [], [(40, 3)], [], 9⟩, ⟨1, true, true, [], [], [], 9⟩] } = none)
    := by decide +kernel

/-! ### The lookups and tests that the statements write out -/

/-- A one-item SHUNT route. -/
def route16 : RouteDef := ⟨16, .shunt, 110, 130, 4, [⟨21, []⟩], none, [], [], 900, 600, none⟩

/-- The station with this route and an instance of it in record i. -/
def oneItem (st : InstState) (i : Nat) : State :=
  withInst { site with rcat := site.rcat ++ [route16] } i { inst12 with route := 16, state := st, waiting := [], overlap := .none }

/-- The only item of a SHUNT route is its first and its last, and its instance may be LOCKING in the last record. -/
theorem witness_ReClearByItsChecks_oneItem :
    pathIndex route16 21 = some 1 ∧ shuntLast route16 1 = true
    ∧ (∀ i ∈ [0, 47], ((oneItem .locking i).live i).map (fun p => (p.1.state, p.2)) = some (.locking, route16))
    ∧ Occ.occupied ≠ .clear ∧ ¬(Occ.occupied = .occupied ∧ (1 : Nat) ≠ 1 ∧ shuntLast route16 1 = true) := by decide +kernel

/-- Log entry 22: an OCCUPIED notice of that item joins the waiting set in LOCKING and is the train past it. -/
theorem test_oneItem_occupied :
    (((oneItem .locking 0).takeNotice (.track 0 21 .clear .occupied)).inst 0).map Inst.waiting = some [.track 21]
    ∧ (((oneItem .cleared 0).takeNotice (.track 0 21 .clear .occupied)).inst 0).map Inst.state = some .inUse := by
  decide +kernel

/-- An entry instance in the first and in the last record, of two the lower, and none once its pointer has moved. -/
theorem witness_EntryInstance :
    (∀ i ∈ [0, 47], ((oneItem .locking i).entryInst 110).map (fun x => (x.1, x.2.2)) = some (i, route16))
    ∧ ((withInst (oneItem .locking 47) 3 inst12).entryInst 110).map Prod.fst = some 3
    ∧ site.entryInst 110 = none ∧ (withInst site 0 { inst12 with releasePtr := 2 }).entryInst 110 = none
    ∧ (withInst site 0 { inst12 with pathReleased := true }).entryInst 110 = none
    ∧ site.isEnd 110 = true ∧ site.isEnd 225 = true ∧ site.isEnd 20 = false := by decide +kernel

/-- Causes that bar a RE-CLEAR and that do not, and a kind listed already. -/
theorem witness_Causes :
    (∀ c ∈ [Cause.suspect, .assuranceLost, .acceptanceLost], site.causeBars (c, 225) = true)
    ∧ site.causeBars (.linkDown, 225) = false ∧ (onLink { blcRec with link := .sync }).causeBars (.linkDown, 225) = true
    ∧ site.causeBars (.linkDown, 256) = true ∧ site.causeBars (.operatorStop, 110) = false
    ∧ addCause .suspect 20 [(.suspect, 21)] = [(.suspect, 21)]
    ∧ addCause .suspect 20 [(.linkDown, 20)] = [(.linkDown, 20), (.suspect, 20)] := by decide +kernel

/-- The tests of a direction request pass, and each one fails alone. -/
theorem witness_DirectionTests :
    site.directionTests 1 = true ∧ (site.requestDirection 1).out = [.boundary 1 .dirAsk]
    ∧ (∀ r ∈ [{ blcRec with link := .sync }, { blcRec with change := .asked }, { blcRec with isOpen := false },
        { blcRec with neighbourClear := false }, { blcRec with incoming := [⟨2, 0, false, false⟩] },
        { blcRec with inAsks := [⟨2, 0⟩] }], (onLink r).directionTests 1 = false)
    ∧ (occupied (onLink { blcRec with lineSections := [20, 21] }) 21).lineClear 1 = false
    ∧ (onLink { blcRec with lineSections := [20, 21] }).lineClear 1 = true
    ∧ (onLink { blcRec with lineSections := [256] }).lineClear 1 = false := by decide +kernel

/-- A STATUS with the line clear and not, and one with a pending reference. -/
theorem test_statusOf :
    site.statusOf 1 = ⟨true, .none, []⟩
    ∧ (occupied (onLink { blcRec with lineSections := [20], direction := .inward, inAsks := [⟨15, 0⟩] }) 20).statusOf 1
      = ⟨false, .inward, [15]⟩ := by decide +kernel

/-- A link with something of every kind: what going DOWN reports, and what it keeps. -/
theorem test_goDown :
    (let s := onLink { blcRec with
        change := .asking, changeTimer := .running 9, outgoing := [⟨3, 5⟩], outAsks := [⟨3, 6, .running 5⟩]
        assurances := [⟨6, 7, 2, true, .stopped⟩, ⟨6, 8, 1, false, .running 5⟩], incoming := [⟨2, 4, false, false⟩] }
     let t := s.goDown 1
     t.notices = [.directionFailed 1, .linkDown 1, .acceptanceLost 5, .assuranceLost 7 2]
      ∧ (t.blcAt 1).incoming = [⟨2, 4, false, false⟩] ∧ (t.blcAt 1).lostHoldings = true ∧ t.out = []
      ∧ .boundary 1 ∈ t.olc.olC.marks ∧ .boundary 1 ∈ t.olc.olL.marks)
    ∧ (site.goDown 1).notices = [.linkDown 1] ∧ ((site.goDown 1).blcAt 1).lostHoldings = false := by decide +kernel

/-- Something given on a link: an acceptance, an ask, a claim; and nothing. -/
theorem witness_LinkTimersTakeTheLinkDown_given :
    (∀ r ∈ [{ blcRec with incoming := [⟨2, 0, false, false⟩] }, { blcRec with inAsks := [⟨2, 0⟩] }],
      (onLink r).givesAny 1 = true)
    ∧ (site.putFct 0 (some ⟨80, .pos .n, [.boundary 1 4]⟩)).givesAny 1 = true
    ∧ (site.putFct 0 (some ⟨80, .pos .n, [.boundary 2 4]⟩)).givesAny 1 = false ∧ site.givesAny 1 = false
    ∧ (∀ r ∈ [{ blcRec with link := .sync }, blcRec], r.link ≠ .down)
    ∧ (site.blcAt 1).silenceTimer.isRunning = true
    ∧ ((onLink { blcRec with holdingsTimer := .running 0 }).blcAt 1).holdingsTimer.isRunning = true := by decide +kernel

/-- A change ASKING and ASKED whose response timer runs, on a link that serves. -/
theorem witness_DirectionIsAskedGrantedAndRefused_reports :
    (∀ c ∈ [DirChange.asking, .asked], let s := onLink { blcRec with change := c, changeTimer := .running 0 }
      (s.blcAt 1).change = c ∧ (s.blcAt 1).changeTimer.isRunning = true)
    ∧ (let s := onLink { blcRec with change := .asking }
       s.linkServes 1 = true ∧ (s.blcAt 1).link = .up ∧ (s.blcAt 1).change = .asking)
    ∧ site.directionTests 1 = true ∧ (onLink { blcRec with isOpen := false }).directionTests 1 = false := by decide +kernel

/-- The route of an incoming reference, and of one that no definition names. -/
theorem witness_IncomingRoute :
    site.incomingRoute 1 2 = some route41 ∧ site.incomingRoute 1 15 = none ∧ site.incomingRoute 0 2 = none
    ∧ route41 ∈ site.rcat ∧ route41.cls = .boundaryIn ∧ route41.entry = site.boundaryElem 1 ∧ route41.inRef = some 2
    ∧ (∀ x ∈ site.rcat, x.cls = .boundaryIn ∧ x.entry = site.boundaryElem 1 ∧ x.inRef = some 2 → x = route41)
    ∧ site.boundary? 225 = some boundaryRec ∧ boundaryRec.link = 1
    ∧ (∀ x, x < 225 → (site.boundary? x).isNone = true) ∧ site.boundaryElem 1 = 225
    ∧ site.askWaits 1 = false ∧ (withRequests site [.incoming 1 2 41]).askWaits 1 = true := by decide +kernel

/-- An acceptance asked in UP and in SYNC, and refused for each reason alone; one to give up, asked and held. -/
theorem witness_AcceptanceIsAskedAndAnswered_asks :
    (∀ k ∈ [LinkState.up, .sync], let r := { blcRec with link := k, direction := .outward }
      ((onLink r).blcAt 1).outRef 40 = some 3 ∧ r.direction = .outward ∧ r.isOpen = true ∧ r.outgoing = [] ∧ r.outAsks = []
        ∧ r.link = k)
    ∧ (let r := { blcRec with direction := .outward }
       ((onLink r).askAcceptance 1 0 41).notices = [.acceptanceRefused 0]
       ∧ ∀ x ∈ [{ r with link := .down }, { r with direction := .none }, { r with isOpen := false },
          { r with outgoing := [⟨3, 1⟩] }, { r with outAsks := [⟨3, 1, .stopped⟩] }],
          ((onLink x).askAcceptance 1 0 40).notices = [.acceptanceRefused 0])
    ∧ (let s := onLink { blcRec with outAsks := [⟨3, 47, .running 5⟩] }
       (s.blcAt 1).outAsks.find? (fun a => a.inst == 47) = some ⟨3, 47, .running 5⟩
        ∧ (s.giveUpAcceptance 1 47).out = [.boundary 1 (.acceptWithdraw 3)])
    ∧ (let s := onLink { blcRec with outgoing := [⟨3, 47⟩] }
       (s.blcAt 1).outAsks.find? (fun a => a.inst == 47) = none
        ∧ (s.blcAt 1).outgoing.find? (fun a => a.inst == 47) = some ⟨3, 47⟩)
    ∧ (site.blcAt 1).outAsks.find? (fun a => a.inst == 0) = none
    ∧ (site.blcAt 1).outgoing.find? (fun a => a.inst == 0) = none := by decide +kernel

/-- A pending ask whose instance clears, with the direction IN and not, and one that no instance has. -/
theorem witness_AnAcceptanceGivenIsWithdrawnOrUsed_asks :
    (∀ d ∈ [Dir.inward, .outward, .none], let s := onLink { blcRec with direction := d, inAsks := [⟨2, 47⟩] }
      (s.blcAt 1).inAsks.find? (fun a => a.inst == 47) = some ⟨2, 47⟩ ∧ (s.blcAt 1).direction = d)
    ∧ (site.blcAt 1).inAsks.find? (fun a => a.inst == 47) = none
    ∧ ((onLink { blcRec with direction := .inward, inAsks := [⟨2, 47⟩] }).acceptanceCleared 1 47).out
      = [.boundary 1 (.acceptGive 2)] := by decide +kernel

/-- A FLANK-ASK with no offer, with the first of two offers, given already, given anew and refused. -/
theorem witness_FlankAsk :
    (∀ o ∈ (site.blcAt 1).offers, o.1 ≠ 15)
    ∧ (site.blcAt 1).offers = [] ++ (4, .point 80 .n) :: []
    ∧ (let s := onLink { blcRec with offers := [(15, .signal 110), (4, .point 80 .n), (4, .signal 130)] }
       (s.blcAt 1).offers = [(15, .signal 110)] ++ (4, .point 80 .n) :: [(4, .signal 130)]
        ∧ ∀ o ∈ [((15, .signal 110) : Nat × FlankTarget)], o.1 ≠ 4)
    ∧ (let s := (run site (.flankAskReceived 1 4))
       (s.claim? (s.flankRef 80)).map FctEntry.claimants = some [.boundary 1 4] ∧ (s.flankAsk 1 4).2 = true ∧ (s.flankAsk 1 4).1.fctEntry 1 = none)
    ∧ site.claim? (site.flankRef 80) = none ∧ site.claimOk [] (.point 80 .n) true = true
    ∧ (withElem site 80 (.point { pointRec with lock := .held 0 .path .r })).claimOk [] (.point 80 .n) true = false := by
  decide +kernel

/-- A marked entry behind one that is not, none marked, and a rerun of a store. -/
theorem witness_RetestByTheOutcomeOfTheTrial_pass :
    ((withStore site [{ entry12 with route := 13 }, { entry12 with passMark := true }]).rqs.store
      = [{ entry12 with route := 13 }] ++ { entry12 with passMark := true } :: [])
    ∧ (∀ x ∈ [{ entry12 with route := 13 }], x.passMark = false)
    ∧ (∀ x ∈ (withStore site [entry12]).rqs.store, x.passMark = false)
    ∧ (∀ l ∈ [[], [entry12]], let s := withStore { site with rqs := { site.rqs with rerun := true } } l
      s.rqs.rerun = true ∧ s.rqs.store = l) ∧ site.rqs.rerun = false
    ∧ { entry12 with expired := true }.expired = true
    ∧ (({ entry12 with waitingCancel := some 5 } : StoreEntry).expired = false
      ∧ ({ entry12 with waitingCancel := some 5 } : StoreEntry).waitingCancel ≠ none)
    ∧ entry12.expired = false ∧ entry12.waitingCancel = none ∧ site.holdsArea .olC 2 = true
    ∧ quiet.holdsArea .olC 2 = false ∧ site.holdsArea .olC 16 = false := by decide +kernel

/-- The variants of a pair by rank, and an entry of a BOUNDARY_IN route alone. -/
theorem test_variants :
    site.variants 110 130 = [route12, route13] ∧ site.variants 225 130 = [] ∧ site.rankOne 110 130 = some 12
    ∧ site.rankOne 225 130 = none ∧ site.isEntry 110 = true ∧ site.isEntry 225 = false := by decide +kernel

/-- A position wanted by a lock, by a claim and by the operator, and one a lock stands against. -/
theorem witness_Wanted :
    (∀ o ∈ [false, true], site.wanted { pointRec with lock := .held 0 .path .n } .n o = true)
    ∧ site.wanted { pointRec with lock := .held 0 .path .n } .r true = false
    ∧ (let s := site.putFct 0 (some ⟨80, .pos .n, [.route 2 1]⟩)
       s.wanted { pointRec with flankRef := some 0 } .n false = true
        ∧ s.wanted { pointRec with flankRef := some 0 } .r true = false)
    ∧ site.wanted pointRec .r true = true ∧ site.wanted pointRec .r false = false := by decide +kernel

/-- A record of each kind with a BLOCK flag. -/
theorem witness_BlockAndUnblockWriteTheFlag_kinds :
    site.elem 80 = .point pointRec ∧ site.elem 110 = .signal (signalRec 2) ∧ site.elem 20 = .track trackRec
    ∧ ((site.putElem 80 ((site.elem 80).withBlock true)).elem 80).block? = some true := by decide +kernel

/-- The index of a section in a path, of the overlap behind it, and of one in neither; sections ahead of a train. -/
theorem witness_Indices :
    pathIndex route12 20 = some 1 ∧ pathIndex route12 21 = some 2 ∧ seqIndex route12 22 = some 3
    ∧ pathIndex route12 22 = none ∧ seqIndex route12 24 = none
    ∧ (occupied site 21).sectionsAhead route12 = [21] ∧ (occupied site 20).sectionsAhead route12 = []
    ∧ (occupied site 24).sectionsAhead route14 = []
    ∧ (withElem site 24 (.track { trackRec with occupancy := .disturbed })).sectionsAhead route14 = [24] := by decide +kernel

/-- What an instance has open, holds and claims. -/
theorem witness_Lists :
    inst12.unreleased 1 = true ∧ { inst12 with releasePtr := 2 }.unreleased 1 = false
    ∧ { inst12 with pathReleased := true }.openItems route12 = [] ∧ inst12.openItems route12 = route12.path
    ∧ inst12.overlapHeld = true ∧ { inst12 with overlap := .timing }.overlapHeld = true
    ∧ (inst15 .locking).overlapHeld = false ∧ inst12.locksPoint route12 80 = true
    ∧ (inst15 .locking).flankOn route15 80 = [1] ∧ (inst15 .locking).flankOn route15 130 = []
    ∧ { inst15 .locking with releasePtr := 2 }.flankOn route15 80 = [] := by decide +kernel

/-! ### The clauses of counters, frames, images and indications -/

/-- A counter below and at 65534 and at 65535. -/
theorem witness_Counters :
    (0 : Word16).toNat < 65534 ∧ (65533 : Word16).toNat < 65534 ∧ (65534 : Word16).toNat = 65534
    ∧ (65535 : Word16).toNat = 65535 ∧ (65534 : Word16).toNat < 65535 := by decide +kernel

/-- Its increments there, and replies that are refusals and that are not. -/
theorem witness_Counters_up :
    (∀ m ∈ [false, true], incCounter ⟨65534, m⟩ = ⟨65535, true⟩ ∧ incCounter ⟨65535, m⟩ = ⟨65535, true⟩)
    ∧ incCounter ⟨65533, false⟩ = ⟨65534, false⟩ ∧ satInc 65534 = 65535 ∧ satInc 65535 = 65535
    ∧ ((site.answer .olC 5 (.refused .noRoute)).olc.olC.refused, (site.answer .olC 5 .stored).olc.olC.refused)
      = (⟨1, false⟩, ⟨0, false⟩) := by decide +kernel

theorem witness_Counters_noRefusal : ∀ code, ReplyBody.stored ≠ .refused code := fun _ => nofun

/-- A confirmation whose recheck passes, with a write in flight and without. -/
theorem witness_AuxConfirmByItsRows_counted :
    ∀ w ∈ [false, true],
      let s := withAux (withElem site 21 (.track { trackRec with suspect := true }))
        (some ⟨.suspectClear, 21, .running 0, false⟩)
      let s : State := { s with cfl := { s.cfl with writing := w } }
      Asks s .olC (.auxConfirm 3 21) ∧ (s.olc.get .olC).aux = some ⟨.suspectClear, 21, .running 0, false⟩
        ∧ auxKindOf 3 = some .suspectClear ∧ s.auxAllowed .olC .suspectClear 21 = true
        ∧ s.auxReady .suspectClear 21 = true ∧ s.cfl.writing = w := by decide +kernel

/-- Stack lifetimes at the ends of their range, an entry's pair and its waiting STORE-CANCEL. -/
theorem witness_EntriesAndLifetimes :
    ([0, 1, 600, 601, 65535].map site.lifetimeOf = [site.cfl.stackLifetime, 10, 6000, 6000, 6000])
    ∧ site.routeDef 12 = some route12 ∧ site.routeDef 511 = none ∧ entry12.waitingCancel = none
    ∧ ({ entry12 with waitingCancel := some 5 } : StoreEntry).waitingCancel = some 5 := by decide +kernel

/-- Telegrams at the ends of their ranges, the kinds and body lengths of an operator request, and what is read. -/
theorem witness_BoundaryFrames :
    (∀ t ∈ [BoundaryTelegram.status ⟨true, .outward, [15]⟩, .holdings ⟨.inward, [0], [15], List.replicate 16 15, []⟩,
      .dirAsk, .acceptAsk 0, .acceptRefuse 15 .full, .flankDrop 15], telegramInRange t = true)
    ∧ telegramInRange (.flankDrop 16) = false
    ∧ (∀ k ∈ [(1 : Byte), 22], 1 ≤ k.toNat ∧ k.toNat ≤ 22)
    ∧ (∀ n ∈ [0, 39], (List.replicate n (0 : Byte)).length ≤ 39) ∧ (7 : Word16) ≠ 8
    ∧ readOperatorFrame (operatorFrame ⟨9, .press 255⟩) ≠ none
    ∧ readBoundaryFrame 7 (boundaryFrame 7 (.flankDrop 15)) ≠ none := by decide +kernel

/-- An entry of each kind, and values at the ends of a range. -/
theorem witness_LoadFillsEveryBlock_entries :
    (∀ p ∈ [(0, 0), (3, 20), (4, 300)], ∃ c, (⟨80, 2, .point [20] p.1 p.2⟩ : ElemCfg).kind = .point c p.1 p.2)
    ∧ (⟨110, 2, .signal⟩ : ElemCfg).kind = .signal ∧ (⟨20, 2, .track⟩ : ElemCfg).kind = .track
    ∧ (∀ u ∈ [false, true], (⟨225, 2, .boundary 1 u⟩ : ElemCfg).kind = .boundary 1 u)
    ∧ (50 ≤ 200 ∧ 200 ≤ 600)
    ∧ [0, 1, 49, 50, 600, 601].map (clampOr 200 50 600) = [200, 50, 50, 50, 600, 600] := by
  refine ⟨fun p _ => ⟨_, rfl⟩, ?_⟩
  decide +kernel

/-- An image whose header passes, with a code from each of the later checks; points, flank items and their elements. -/
theorem witness_LoadFaultsByTheFirstCheck_checks :
    (image.readable = true ∧ image.reachesCounters = false ∧ image.checkAgrees = true ∧ image.formatVersion = 2)
    ∧ limitsOk { image with elements := ⟨256, 2, .signal⟩ :: image.elements } = false
    ∧ (let m := { image with routes := image.routes.map fun d => { d with entry := 77 } }
       limitsOk m = true ∧ referencesOk m = false)
    ∧ (let m := { image with routes := image.routes.map fun d => { d with entry := 20 } }
       limitsOk m = true ∧ referencesOk m = true ∧ kindsOk m = false)
    ∧ (let m := { image with routes := image.routes ++ image.routes }
       limitsOk m = true ∧ referencesOk m = true ∧ kindsOk m = true ∧ catalogueOk m = false)
    ∧ (limitsOk image = true ∧ referencesOk image = true ∧ kindsOk image = true ∧ catalogueOk image = true)
    ∧ (∀ f ∈ route15.flank.take 1, f.primary = .claim (.point 80 .n))
    ∧ ∀ f ∈ route15.flank.drop 1, f.primary = .boundary 1 6 := by decide +kernel

/-- The areas, elements, records and links that an indication finds. -/
theorem witness_IndicationOf :
    (∀ h ∈ [Holder.none, .centre, .localPanel], ∀ t ∈ [Timer.stopped, .running 0, .running 300],
      (withArea site 2 ⟨h, t, t⟩).areaRec 2 = ⟨h, t, t⟩)
    ∧ site.flankRef 80 = none
    ∧ (let s := site.takeClaim (.route 0 1) (.point 80 .n)
       s.flankRef 80 = some 0 ∧ s.fctEntry 0 = some ⟨80, .pos .n, [.route 0 1]⟩)
    ∧ site.count 80 = none ∧ site.count 20 = some clearCount ∧ site.live 0 = none
    ∧ (withInst site 47 inst12).live 47 = some (inst12, route12)
    ∧ (∀ t ∈ [Timer.stopped, .running 0], ((onLink { blcRec with release := t }).blcAt 1).release = t)
    ∧ route15.flank[1 - 1]? = some ⟨.claim (.point 80 .n), 1, [.point 80 .r]⟩
    ∧ route15.flank[2 - 1]? = some ⟨.boundary 1 6, 2, [.point 80 .n, .signal 130]⟩
    ∧ [0, 1, 10, 11].map (fun n => (Timer.running n).seconds) = [0, 1, 1, 2] := by decide +kernel

/-! ### The clauses of the signal commands -/

/-- Signal 110 with its entry slot held by instance 0, as the record given. -/
def atEntry (g : SignalRec) : State := withElem site 110 (.signal { g with entrySlot := .held 0 })

/-- The checks of a PROCEED command pass, and each one fails alone; a SHOW(STOP) that waits, unsent and in exchange. -/
theorem witness_Proceed :
    (atEntry (signalRec 2)).proceedChecks 0 110 = true ∧ (atEntry (signalRec 2)).unitOf .sdu 110 = some sduUnit
    ∧ (atEntry (signalRec 2)).signal? 110 = some { signalRec 2 with entrySlot := .held 0 }
    ∧ site.proceedChecks 0 110 = false ∧ (atEntry (signalRec 2)).proceedChecks 1 110 = false
    ∧ (∀ g ∈ [{ signalRec 2 with failed := true }, { signalRec 2 with suspect := true },
        { signalRec 2 with lampFault := true }, { signalRec 2 with flankRef := some 0 }],
        (atEntry g).proceedChecks 0 110 = false)
    ∧ (withTbc (atEntry (signalRec 2)) { site.tbc with units := [{ sduUnit with reachable := false }] }).proceedChecks 0 110
      = false
    ∧ (∀ x ∈ [none, some (Exchange.command 90 (.showAs .stop) 4)],
      let s := withTbc (atEntry (signalRec 2)) { site.tbc with queue := [⟨90, .showAs .stop, 4, 0⟩], exchange := x }
      s.proceedChecks 0 110 = true ∧ s.queuedAt 90 = some ⟨90, .showAs .stop, 4, 0⟩ ∧ s.flyingAge = x.map fun _ => 4) := by
  decide +kernel

/-- Instances that clear: of a signal's route, and of a BOUNDARY_IN route the first time and again. -/
theorem witness_ClearingPasses :
    setUp.inst 0 ≠ none ∧ route12.cls ≠ .boundaryIn ∧ route41.cls = .boundaryIn ∧ site.entryLink route41 = some 1
    ∧ ∀ a ∈ [Acceptance.notGiven, .given],
      (withRoute { inst41 .locking with acceptance := a }).inst 0 = some { inst41 .locking with acceptance := a } := by
  decide +kernel

/-- A signal with STOP commanded and shown, with a SHOW queued, with PROCEED commanded, and one without a unit. -/
theorem witness_StopCommand :
    (site.signal? 110 = some (signalRec 2) ∧ site.unitOf .sdu 110 = some sduUnit ∧ site.queuedAt 90 = none)
    ∧ ((signalRec 2).commanded = .stop ∧ (signalRec 2).shown = .stop)
    ∧ (withTbc site { site.tbc with queue := [⟨90, .showAs .proceed, 0, 0⟩] }).queuedAt 90 ≠ none
    ∧ (∀ e ∈ [110, 130], let s := withElem site e (.signal { signalRec 2 with commanded := .proceed })
      s.signal? e = some { signalRec 2 with commanded := .proceed } ∧ (s.unitOf .sdu e).isSome = (e == 110)
        ∧ (s.commandStop e).tbc.queue.length = (if e = 110 then 1 else 0))
    ∧ (site.commandStop 110).tbc = site.tbc := by decide +kernel

/-! ### The clauses of a reservation and of the releases -/

/-- A route up to signal 110 with an overlap that route 12 takes over but for section 22, and an instance of it. -/
def route17 : RouteDef :=
  ⟨17, .main, 130, 110, 1, [⟨23, []⟩], some ⟨20, [⟨80, .n⟩]⟩, [], [], 900, 600, none⟩

def inst17 : Inst := { inst12 with route := 17, state := .cleared, waiting := [], overlap := .locked }

/-- The station with an instance of route 17 in record 1 and its overlap locked. -/
def overlapped : State :=
  withInst (withElem (withElem { site with rcat := site.rcat ++ [route17] } 20
    (.track { trackRec with lock := .held 1 .overlap })) 80 (.point { pointRec with lock := .held 1 .overlap .n })) 1 inst17

/-- What the item tests answer. -/
def passes : Except Nat (List (Nat × Option FlankTarget)) → Option (List (Nat × Option FlankTarget))
  | .ok c => some c
  | .error _ => none

theorem tests_of {x : Except Nat (List (Nat × Option FlankTarget))} {c} (h : passes x = some c) : x = .ok c := by
  cases x with
  | ok r => rw [Option.some.inj h]
  | error e => cases h

/-- The items of route 15 pass with a claim and a boundary item, those of route 12 with an overlap to take over. -/
theorem witness_AReservationLocksEveryItem_tests :
    site.testItems route15 = .ok [(0, some (.point 80 .n)), (0, none)] ∧ overlapped.testItems route12 = .ok [] :=
  ⟨tests_of (by decide +kernel), tests_of (by decide +kernel)⟩

/-- Owners of an overlap that is taken over; routes that need a direction and that do not; asked items. -/
theorem witness_AReservationLocksEveryItem_effects :
    (overlapped.transferOwners route12 = [1] ∧ overlapped.live 1 = some (inst17, route17) ∧ overlapped.live 2 = none)
    ∧ overlapped.track? 20 = some { trackRec with lock := .held 1 .overlap }
    ∧ overlapped.sectionTransfer route12 { trackRec with lock := .held 1 .overlap } = some 1
    ∧ overlapped.pointTransfer route12 { pointRec with lock := .held 1 .overlap .n } .n = some 1
    ∧ site.needsDirection route40 = some 1 ∧ site.needsDirection route12 = none
    ∧ (onLink { blcRec with direction := .outward }).needsDirection route40 = none
    ∧ (askedItems route15 [(0, some (.point 80 .n)), (0, none)]).map Prod.fst = [2]
    ∧ site.signal? 110 = some (signalRec 2) ∧ site.boundary? 225 = some boundaryRec
    ∧ site.track? 20 = some trackRec ∧ site.point? 80 = some pointRec
    ∧ (∀ it ∈ route12.path, (it.points.map PointReq.point).Nodup)
    ∧ (site.inState (.point 80 .n) = true ∧ site.inState (.point 80 .r) = false ∧ site.inState (.signal 110) = true) := by
  decide +kernel

/-- An overlap that its owner holds, one that it does not, and one whose owner is gone. -/
theorem witness_AReservationLocksEveryItem_rest :
    overlapped.HoldsItem 1 ⟨20, [⟨80, .n⟩]⟩ ∧ route17.overlap = some ⟨20, [⟨80, .n⟩]⟩
    ∧ ¬ (∃ it, route15.overlap = some it ∧ site.HoldsItem 0 it) ∧ (withRoute (inst15 .cleared)).live 0
      = some (inst15 .cleared, route15) ∧ site.live 0 = none :=
  ⟨.inl ⟨{ trackRec with lock := .held 1 .overlap }, .overlap, by decide +kernel, rfl⟩, rfl, fun ⟨_, h, _⟩ => (nomatch h),
    by decide +kernel, by decide +kernel⟩

/-- An assurance asked in each state of its link, with an entry of the same reference asking before it and none. -/
theorem witness_AReservationLocksEveryItem_asks :
    (∀ k ∈ [LinkState.down, .sync, .up], ((onLink { blcRec with link := k }).blcAt 1).link = k)
    ∧ (let a : Assurance := ⟨6, 0, 2, false, .stopped⟩
       ((site.blcAt 1).assurances ++ [a] = [] ++ a :: [] ∧ a.ref = 6 ∧ a.assured = false ∧ a.timer = .stopped)
       ∧ (let x : Assurance := ⟨6, 3, 1, true, .stopped⟩
          ((onLink { blcRec with assurances := [x] }).blcAt 1).assurances ++ [a] = [x] ++ a :: []
          ∧ ¬(x.ref = 6 ∧ x.assured = false ∧ x.timer = .stopped))
       ∧ ((site.askAssurance 1 6 0 2).out = [.boundary 1 (.flankAsk 6)]
        ∧ ((onLink { blcRec with link := .sync }).askAssurance 1 6 0 2).out = []
        ∧ ((onLink { blcRec with link := .down }).askAssurance 1 6 0 2).notices = [.itemLinkDown 0 1])) := by
  decide +kernel

/-- Items whose release empties something and items whose release does not, and the store and pass a trigger finds. -/
theorem witness_Releases :
    (setUp.entryHeld 0 route12.entry = true ∧ setUp.exitHeld 0 route12.exit = true ∧ route12.path.length = 2)
    ∧ (∃ it, route12.path[2 - 1]? = some it ∧ setUp.HoldsItem 0 it) ∧ (∃ it, route12.overlap = some it ∧ setUp.HoldsItem 0 it)
    ∧ (site.takeClaim (.route 0 1) (.point 80 .n)).SoleClaims (fun c => ∃ m, c = .route 0 m)
    ∧ ¬ (site.takeClaim (.route 3 1) (.point 80 .n)).SoleClaims (fun c => ∃ m, c = .route 0 m)
    ∧ (site.rqs.running = false ∧ site.rqs.store = [] ∧ (withStore site [entry12]).rqs.store = entry12 :: []
      ∧ ({ site with rqs := { site.rqs with running := true } } : State).rqs.running = true) := by
  refine ⟨by decide +kernel, ⟨⟨21, []⟩, by decide, .inl ⟨(setUp.track? 21).getD trackRec, .path, ?_, ?_⟩⟩,
    ⟨⟨22, []⟩, by decide, .inl ⟨(setUp.track? 22).getD trackRec, .overlap, ?_, ?_⟩⟩,
    ⟨0, ⟨80, .pos .n, [.route 0 1]⟩, by decide +kernel, nofun, ?_⟩, ?_, by decide +kernel⟩
  · decide +kernel
  · decide +kernel
  · decide +kernel
  · decide +kernel
  · intro c hc
    exact ⟨1, List.mem_singleton.mp hc⟩
  · rintro ⟨n, f, hf, -, h⟩
    have all : ∀ n : Fin 128, (site.takeClaim (.route 3 1) (.point 80 .n)).fctEntry n = none
        ∨ .route 3 1 ∈ ((site.takeClaim (.route 3 1) (.point 80 .n)).fctEntry n).elim [] FctEntry.claimants := by decide +kernel
    by_cases hn : n < 128
    · rcases all ⟨n, hn⟩ with x | x
      · exact nomatch x.symm.trans hf
      · rw [hf] at x
        obtain ⟨m, hm⟩ := h _ x
        cases hm
    · simp [State.fctEntry, Vector.getD, hn] at hf

/-- No item of a route that is not set is held, and what the freeing finds pending. -/
theorem witness_Releases_nothing :
    (site.entryHeld 0 route12.entry = false ∧ site.exitHeld 0 route12.exit = false)
    ∧ (∀ p ∈ [(AuxKind.emergencyRelease, 0), (.emergencyRelease, 1), (.suspectClear, 0)],
      ((withAux setUp (some ⟨p.1, p.2, .running 300, false⟩)).olc.get .olC).aux
        = some ⟨p.1, p.2, .running 300, false⟩)
    ∧ (∀ p ∈ [(AuxKind.emergencyRelease, 0, true), (.emergencyRelease, 1, false), (.suspectClear, 0, false)],
      ((((withAux setUp (some ⟨p.1, p.2.1, .running 300, false⟩)).freeRecord 0).olc.get .olC).aux.map PendingAux.broken)
        = some p.2.2)
    ∧ ((withStore setUp [entry12]).releaseAll 0).rqs.running = true ∧ (setUp.releaseAll 0).rqs.running = false := by
  decide +kernel

end Sys2Proof.Tests
end

section
/-! SIGNAL_RESET (R41): a signal written with the same face sends no notice, the reset by the signal's record, and what a
step of the row answers. -/

namespace Sys2Proof.Machine

variable {s : State} {l : OpLink} {e : Nat} {g : SignalRec}

/-! ### A signal written with the face it shows (R13) -/

/-- The notices of a signal's change hang on its shown aspect and its lamp alone (R13). -/
theorem signalNotices_of_same_face {old new : SignalRec} (hs : new.shown = old.shown)
    (hl : new.lampFault = old.lampFault) : s.signalNotices e old new = [] := by
  simp [State.signalNotices, hs, hl]

@[simp] theorem notifyAll_nil (s : State) : s.notifyAll [] = s := by
  rw [State.notifyAll, List.append_nil]

theorem writeSignal_of_same_face {new : SignalRec} (hg : s.signal? e = some g) (hs : new.shown = g.shown)
    (hl : new.lampFault = g.lampFault) : s.writeSignal e new = s.putElem e (.signal new) := by
  obtain ⟨-, -, hw⟩ := writeSignal_rows new hg
  rw [hw, signalNotices_of_same_face hs hl, notifyAll_nil]

/-! ### The reset by the signal's record (R41) -/

theorem signalReset_of_no_signal (h : s.signal? e = none) : s.signalReset l e = (s, .refused .unknownObject) := by
  simp only [State.signalReset, h]

theorem signalReset_of_foreign_area (hg : s.signal? e = some g) (ha : s.holdsArea l g.area = false) :
    s.signalReset l e = (s, .refused .noAuthority) := by
  simp [State.signalReset, hg, ha]

theorem signalReset_of_sound (hg : s.signal? e = some g) (ha : s.holdsArea l g.area = true) (hf : g.failed = false) :
    s.signalReset l e = (s, .accepted) := by
  simp [State.signalReset, hg, ha, hf]

theorem signalReset_of_failed_not_at_stop (hg : s.signal? e = some g) (ha : s.holdsArea l g.area = true)
    (hf : g.failed = true) (hs : g.shown ≠ .stop) : s.signalReset l e = (s, .refused .wrongState) := by
  simp [State.signalReset, hg, ha, hf, hs]

theorem signalReset_of_failed_at_stop (hg : s.signal? e = some g) (ha : s.holdsArea l g.area = true)
    (hf : g.failed = true) (hs : g.shown = .stop) :
    s.signalReset l e = ((s.putElem e (.signal { g with failed := false })).retestTrigger, .accepted) := by
  have hw : s.writeSignal e { g with failed := false } = s.putElem e (.signal { g with failed := false }) :=
    writeSignal_of_same_face hg rfl rfl
  rw [← hw]
  simp [State.signalReset, hg, ha, hf, hs]

/-! ### The step of the row (R155) -/

@[simp] theorem retestTrigger_notices (s : State) : s.retestTrigger.notices = s.notices := by
  obtain ⟨q, m, h⟩ := retestTrigger_rest (s := s)
  rw [h]

/-- A SIGNAL-RESET that is taken is the reset of the state without its telegram, answered at once (R41, R155). -/
theorem exec_signalReset_ready {q : Word16} (h : s.Ready l q (.signalReset e)) (he : e ≤ 255) :
    exec (.signalReset l) s = .next (State.finish s
      (((s.taken l).signalReset l e).1.answer l q ((s.taken l).signalReset l e).2)) := by
  have hr : Request.outOfRange (.signalReset e) = false := decide_eq_false (Nat.not_lt.mpr he)
  have hx : exec (.signalReset l) s = execSignalReset l s := rfl
  rw [hx, execSignalReset, runRequest_ready h rfl, hr]
  rfl

/-- A SIGNAL-RESET that leaves the state as it was ends with its reply. -/
theorem exec_signalReset_of_unchanged {q : Word16} {b : ReplyBody} (h : s.Ready l q (.signalReset e)) (he : e ≤ 255)
    (hb : (s.taken l).signalReset l e = (s.taken l, b)) :
    exec (.signalReset l) s = .next ((s.taken l).answer l q b) := by
  have ⟨_, hn, _⟩ := h
  rw [exec_signalReset_ready h he, hb, finish_replied s l q b hn]

/-- A reset that clears FAILED sends no notice: the step ends with its marks in order. -/
theorem exec_signalReset_of_cleared {q : Word16} (h : s.Ready l q (.signalReset e)) (he : e ≤ 255)
    (hg : s.signal? e = some g) (ha : s.holdsArea l g.area = true) (hf : g.failed = true) (hs : g.shown = .stop) :
    exec (.signalReset l) s = .next (State.settleMarks s
      (((s.taken l).putElem e (.signal { g with failed := false })).retestTrigger.answer l q .accepted)) := by
  have ⟨_, hn, _⟩ := h
  rw [exec_signalReset_ready h he, signalReset_of_failed_at_stop (by simpa using hg) (by simpa using ha) hf hs,
    finish_of_none]
  simpa using hn

/-- Settles O38, by the signal's record: only a FAILED signal at STOP is written, and every other request ends with its
reply. -/
theorem signalResetByTheShownAspect : Obligations.SignalResetByTheShownAspect := by
  intro s l q e h he
  refine ⟨fun hg => ?_, fun g hg => ⟨fun ha => ?_, fun ha hf => ?_, fun ha hf hs => ?_, fun ha hf hs => ?_⟩⟩
  · exact exec_signalReset_of_unchanged h he (signalReset_of_no_signal hg)
  · exact exec_signalReset_of_unchanged h he (signalReset_of_foreign_area hg ha)
  · exact exec_signalReset_of_unchanged h he (signalReset_of_sound hg ha hf)
  · exact exec_signalReset_of_unchanged h he (signalReset_of_failed_not_at_stop hg ha hf hs)
  · exact exec_signalReset_of_cleared h he hg ha hf hs

end Sys2Proof.Machine
end

section
/-! READ_ROUTE (R66): the answer by the route number and its definition, and the catalogue once loading has ended. -/

namespace Sys2Proof.Machine

variable {s t : State} {l : OpLink} {q : Word16} {r : Request} {n : Nat}

/-! ### An object number outside its range (R155) -/

/-- A request out of range is refused before its owner sees it, whichever row takes it. -/
theorem runRequest_of_out_of_range {pick : Request → Bool} (h : s.Ready l q r) (hp : pick r = true)
    (hr : r.outOfRange = true) (act : State → Telegram → State × Option ReplyBody) :
    runRequest l pick act s = .next ((s.taken l).answer l q (.refused .unknownObject)) := by
  have ⟨_, hn, _⟩ := h
  rw [runRequest_ready h hp, if_pos hr, finish_replied s l q _ hn]

/-! ### The answer of READ_ROUTE (R66) -/

/-- A number above 511 is no route number (R155). -/
theorem exec_readRoute_of_out_of_range (h : s.Ready l q (.readRoute n)) (hn : 511 < n) :
    exec (.readRoute l) s = .next ((s.taken l).answer l q (.refused .unknownObject)) := by
  have hr : Request.outOfRange (.readRoute n) = true := decide_eq_true hn
  exact runRequest_of_out_of_range h rfl hr _

/-- A route number is answered with its definition, or with UNKNOWN_OBJECT where it is unused. -/
theorem exec_readRoute_of_in_range (h : s.Ready l q (.readRoute n)) (hn : n ≤ 511) :
    exec (.readRoute l) s = .next ((s.taken l).answer l q
      ((s.routeDef n).elim (.refused .unknownObject) .acceptedDefinition)) := by
  have ⟨_, hq, _⟩ := h
  have hr : Request.outOfRange (.readRoute n) = false := decide_eq_false (Nat.not_lt.mpr hn)
  have hx : exec (.readRoute l) s = execReadRoute l s := rfl
  rw [hx, execReadRoute, runRequest_ready h rfl, hr]
  cases hd : s.routeDef n with
  | none => simp [hd, finish_replied s l q _ hq]
  | some d => simp [hd, finish_replied s l q _ hq]

/-- An unused number, in range or not, is an unknown object. -/
theorem exec_readRoute_of_unused (h : s.Ready l q (.readRoute n)) (hu : s.routeDef n = none) :
    exec (.readRoute l) s = .next ((s.taken l).answer l q (.refused .unknownObject)) := by
  rcases Nat.lt_or_ge 511 n with hn | hn
  · exact exec_readRoute_of_out_of_range h hn
  · rw [exec_readRoute_of_in_range h hn, hu]
    rfl

/-! ### The catalogue once loading has ended (R66, R185) -/

/-- A LOAD_COMPLETE that ends no loading changes nothing. -/
theorem exec_loadComplete_of_loaded (m : Image) (k : Option AouCounters) (hl : s.cfl.load ≠ .loading) :
    exec (.loadComplete m k) s = .next s :=
  congrArg Host.Outcome.next (if_neg hl)

/-- The deeds of every command but COLD_START and LOAD_COMPLETE leave the catalogue. -/
theorem exec_rcat {c : Instr} (h1 : c ≠ .coldStart) (h2 : ∀ m k, c ≠ .loadComplete m k) (h : exec c s = .next t) :
    t.rcat = s.rcat := by
  obtain ⟨u, hu, w⟩ := exec_work c s h1 h2
  cases hu.symm.trans h
  exact w.work.rcat

theorem exec_rcat_of_loaded {c : Instr} (h1 : c ≠ .coldStart) (hl : s.cfl.load ≠ .loading) (h : exec c s = .next t) :
    t.rcat = s.rcat := by
  by_cases hc : ∃ m k, c = .loadComplete m k
  · obtain ⟨m, k, rfl⟩ := hc
    cases (exec_loadComplete_of_loaded m k hl).symm.trans h
    rfl
  · exact exec_rcat h1 (fun m k e => hc ⟨m, k, e⟩) h

/-- Settles O21: the answer by the number's range and definition, and the catalogue by the deeds of each command, where
LOAD_COMPLETE finds no loading to end. -/
theorem readRouteAnswersTheDefinition : Obligations.ReadRouteAnswersTheDefinition := by
  refine ⟨fun s l q n h => ⟨fun d hn hd => ?_, ?_⟩, fun c s t h1 hl h => ?_⟩
  · rw [exec_readRoute_of_in_range h hn, hd]
    rfl
  · rintro (hn | hu)
    · exact exec_readRoute_of_out_of_range h hn
    · exact exec_readRoute_of_unused h hu
  · have hc : t.rcat = s.rcat := exec_rcat_of_loaded h1 hl h
    exact ⟨hc, routeDef_of_rcat hc⟩

end Sys2Proof.Machine
end

section
/-! What a step can do, said once for the invariants: a command's deeds, time, the load of an image, or the cold start
(O54 to O60, O1, O4). -/

namespace Sys2Proof.Machine

variable {s t : State}

/-! ### The machine's step -/

/-- Settles O1, by the definition of a step on a queue that is not empty. -/
theorem stepRunsTheFrontCommand : Obligations.StepRunsTheFrontCommand := by
  intro c rest s h
  rw [step, h]

theorem step_of_idle (h : s.pending = []) : step s = .next s.tick := by
  rw [step, h]

/-- The part as the cold start leaves it, with what has gone out and the commands that wait. -/
def State.coldWith (out : List Sent) (pending : List Instr) : State :=
  { State.reset with out := out, pending := pending }

theorem coldWith_reset : State.coldWith [] [] = State.reset := rfl

theorem exec_coldStart (s : State) : exec .coldStart s = .next (State.coldWith s.out s.pending) := rfl

theorem exec_loadComplete (m : Image) (k : Option AouCounters) (s : State) :
    exec (.loadComplete m k) s = .next (loadEnds s m k) := rfl

/-- Every command answers: the two loader commands by their definition, the others by their deeds. -/
theorem exec_continues (c : Instr) (s : State) : ∃ t, exec c s = .next t := by
  by_cases h1 : c = .coldStart
  · exact h1 ▸ ⟨_, exec_coldStart s⟩
  · by_cases h2 : ∃ m k, c = .loadComplete m k
    · obtain ⟨m, k, rfl⟩ := h2
      exact ⟨_, exec_loadComplete m k s⟩
    · obtain ⟨t, h, -⟩ := exec_work c s h1 fun m k e => h2 ⟨m, k, e⟩
      exact ⟨t, h⟩

/-- Settles O3, by the answer of every command; an idle step is time, which answers too. -/
theorem everyCommandContinues : Obligations.EveryCommandContinues := by
  refine ⟨exec_continues, fun s => ?_⟩
  cases h : s.pending with
  | nil => exact ⟨_, step_of_idle h⟩
  | cons c rest =>
    obtain ⟨t, ht⟩ := exec_continues c { s with pending := rest }
    exact ⟨t, (stepRunsTheFrontCommand c rest s h).trans ht⟩

/-! ### Invariants of every step -/

/-- A predicate that the cold start establishes, and that time, the load of an image and the deeds of every other command
keep; it does not speak of the commands that wait. -/
structure Kept (P : State → Prop) : Prop where
  queue : ∀ s rest, P s → P { s with pending := rest }
  cold : ∀ out pending, P (State.coldWith out pending)
  time : ∀ s, P s → P s.tick
  load : ∀ s m k, P s → P (loadEnds s m k)
  command : ∀ c s t, c ≠ .coldStart → (∀ m k, c ≠ .loadComplete m k) → exec c s = .next t → P s → P t

/-- A predicate the deeds keep is kept by every command but the loader's two. -/
theorem exec_keeps {P : State → Prop} (hP : ∀ κ x y, Deed κ x y → P x → P y) (c : Instr) (s t : State)
    (h1 : c ≠ .coldStart) (h2 : ∀ m k, c ≠ .loadComplete m k) (h : exec c s = .next t) (k : P s) : P t := by
  obtain ⟨u, hu, w⟩ := exec_work c s h1 h2
  cases hu.symm.trans h
  exact w.work.keeps (hP _) k

theorem Kept.step {P : State → Prop} (k : Kept P) (hs : P s) (h : step s = .next t) : P t := by
  cases hp : s.pending with
  | nil =>
    cases (step_of_idle hp).symm.trans h
    exact k.time s hs
  | cons c rest =>
    have he := (stepRunsTheFrontCommand c rest s hp).symm.trans h
    have hq := k.queue s rest hs
    by_cases h1 : c = .coldStart
    · subst h1
      cases he
      exact k.cold _ _
    · by_cases h2 : ∃ m v, c = .loadComplete m v
      · obtain ⟨m, v, rfl⟩ := h2
        cases he
        exact k.load _ m v hq
      · exact k.command c _ t h1 (fun m v e => h2 ⟨m, v, e⟩) he hq

/-! ### Records after reset -/

theorem getD_replicate {α : Type} (n i : Nat) (a : α) : (Vector.replicate n a).getD i a = a := by
  by_cases h : i < n <;> simp [Vector.getD, h]

theorem reset_areaRec (a : Nat) : State.reset.areaRec a = Area.cold := getD_replicate 16 a Area.cold
theorem reset_fctEntry (n : Nat) : State.reset.fctEntry n = none := getD_replicate 128 n none
theorem reset_drive (e : Nat) : State.reset.drive e = none := getD_replicate 256 e none
theorem reset_cmd (e : Nat) : State.reset.cmd e = SignalCmd.idle := getD_replicate 256 e SignalCmd.idle
theorem reset_dp (d : Nat) : State.reset.dp d = none := getD_replicate 120 d none
theorem reset_count (e : Nat) : State.reset.count e = none := getD_replicate 256 e none
theorem reset_inst (i : Nat) : State.reset.inst i = none := getD_replicate 48 i none

theorem reset_blcAt (b : BLink) : State.reset.blcAt b = Blc.cold := by
  simp [State.blcAt, State.reset]

theorem reset_olc (l : OpLink) : State.reset.olc.get l = Olc.cold (snapshotObjects []) := by
  cases l <;> rfl

/-- Settles O4, block by block from the cold-start values. -/
theorem resetIsTheColdStart : Obligations.ResetIsTheColdStart := by
  refine ⟨⟨rfl, reset_elem, reset_fctEntry, reset_drive, rfl, rfl, rfl, rfl, rfl, reset_dp, reset_count, rfl, reset_inst,
    fun l => ?_, rfl, rfl, rfl, reset_areaRec, reset_olc, reset_blcAt, rfl, rfl, rfl⟩, exec_coldStart⟩
  cases l <;> rfl

end Sys2Proof.Machine
end

section
/-! The invariants of Safety.lean under time, the load of an image and the cold start; with the deeds of Laws/Keeps.lean
every step keeps them (O54 to O60). -/

namespace Sys2Proof.Machine

variable {s : State}

/-! ### What the load of an image can do -/

/-- A counter write touches the loader's record of the write and what goes out alone: the counters go out where no write is
in flight (R164, R189). -/
theorem writeCounters_writes (u : State) : ∃ c o, u.writeCounters = { u with cfl := c, out := o }
    ∧ c = { u.cfl with counterImage := c.counterImage, writing := true, writeAgain := c.writeAgain }
    ∧ (u.cfl.writing = false → c.counterImage = u.aou.counters ∧ o = u.out ++ [.counters u.aou.counters]) := by
  unfold State.writeCounters
  split
  · rename_i hw
    refine ⟨_, _, rfl, ?_, fun h => absurd hw (by simp [h])⟩
    rw [← hw]
  · exact ⟨_, _, rfl, rfl, fun _ => ⟨rfl, rfl⟩⟩

/-- The counters read and counted at the end of a load: beside them only the write and what goes out. -/
theorem countColdStart_writes (u : State) (k : Option AouCounters) : ∃ c a o,
    countColdStart (loadCounters u k) = { u with cfl := c, aou := a, out := o }
      ∧ c = { u.cfl with counterImage := c.counterImage, writing := true, writeAgain := c.writeAgain }
      ∧ a = ⟨{ k.getD AouCounters.zero with coldStart := incCounter (k.getD AouCounters.zero).coldStart }, k.isNone, false⟩
      ∧ (u.cfl.writing = false → c.counterImage = a.counters ∧ o = u.out ++ [.counters a.counters]) := by
  have counted : ∀ a : Aou, ∃ c o,
      countColdStart { u with aou := a } = { u with
        cfl := c, aou := { a with counters := { a.counters with coldStart := incCounter a.counters.coldStart } }, out := o }
      ∧ c = { u.cfl with counterImage := c.counterImage, writing := true, writeAgain := c.writeAgain }
      ∧ (u.cfl.writing = false →
        c.counterImage = { a.counters with coldStart := incCounter a.counters.coldStart }
          ∧ o = u.out ++ [.counters { a.counters with coldStart := incCounter a.counters.coldStart }]) := fun a =>
    writeCounters_writes { u with aou := { a with counters := { a.counters with coldStart := incCounter a.counters.coldStart } } }
  cases k with
  | none =>
    obtain ⟨c, o, h1, h2, h3⟩ := counted ⟨AouCounters.zero, true, false⟩
    exact ⟨c, _, o, h1, h2, rfl, h3⟩
  | some v =>
    obtain ⟨c, o, h1, h2, h3⟩ := counted ⟨v, false, false⟩
    exact ⟨c, _, o, h1, h2, rfl, h3⟩

/-- A predicate the load keeps: the fill and the entry into CONFIG_FAULT establish it while LOADING, and the counter area
does not matter to it. -/
theorem load_keeps {P : State → Prop} (m : Image) (k : Option AouCounters) (hs : P s)
    (rest : ∀ (u : State) (c : Cfl) (a : Aou) (o : List Sent), c.load = u.cfl.load → c.tolerance = u.cfl.tolerance → P u →
      P { u with cfl := c, aou := a, out := o })
    (fill : s.cfl.load = .loading → P (fillBlocks s m)) (fault : ∀ code, P (enterConfigFault s code)) : P (loadEnds s m k) := by
  unfold loadEnds
  split
  · rename_i hl
    have ends : ∀ u, P u → P (countColdStart (loadCounters u k)) := fun u hu => by
      obtain ⟨c, a, o, he, hc, -⟩ := countColdStart_writes u k
      rw [he]
      exact rest u c a o (congrArg Cfl.load hc :) (congrArg Cfl.tolerance hc :) hu
    split
    · exact ends _ (fill hl)
    · exact ends _ (fault _)
  · exact hs

theorem setMarks_olc (s : State) (v : List Obj) (l : OpLink) :
    (setMarks s v).olc.get l = { s.olc.get l with marks := v } := by
  cases l <;> rfl

/-- The links of a filled boundary block: each record with its configuration, or as it stood. -/
theorem fillBlc_all {Q : BLink → Blc → Prop} (hQ : ∀ b r c, Q b r → Q b (blcOf r c)) (m : Image) (v : Vector Blc 4)
    (h : ∀ b : BLink, Q b v[b]) (b : BLink) : Q b (fillBlc m v)[b] := by
  unfold fillBlc
  induction m.boundaries generalizing b with
  | nil => exact h b
  | cons c l ih =>
    rw [List.foldr_cons]
    by_cases hb : c.link = b
    · subst hb
      simpa using hQ _ _ c (ih c.link)
    · have hb' : (c.link : Nat) ≠ b := fun e => hb (Fin.ext e)
      simpa [Vector.getElem_set_ne, hb'] using ih b

theorem fillBlocks_blcAt (s : State) (m : Image) (b : BLink) : (fillBlocks s m).blcAt b = (fillBlc m s.blc)[b] := rfl

theorem enterConfigFault_blcAt (s : State) (code : Nat) (b : BLink) : (enterConfigFault s code).blcAt b = Blc.cold := by
  show (Vector.replicate 4 Blc.cold)[b] = Blc.cold
  simp

/-! ### Areas (R148) -/

theorem reset_areasLegal : State.reset.AreasLegal := fun a => by
  rw [reset_areaRec]
  exact ⟨fun _ => rfl, fun h => absurd rfl h⟩

theorem tick_eq_stopped {t : Timer} : t.tick = .stopped ↔ t = .stopped := by
  cases t <;> simp [Timer.tick]

theorem kept_areasLegal : Kept State.AreasLegal where
  queue _ _ k := k
  cold _ _ := reset_areasLegal
  time s k a := by
    obtain ⟨-, -, -, -, harea, -⟩ := tick_rows s
    obtain ⟨hoffer, hforce⟩ := k a
    rw [harea]
    exact ⟨fun h => tick_eq_stopped.2 (hoffer h), fun h => hforce fun e => h (tick_eq_stopped.2 e)⟩
  load _ m k h := load_keeps m k h (fun _ _ _ _ _ _ h => h) (fun _ => h) fun _ => h
  command := exec_keeps fun _ _ _ d => d.areas

/-! ### Lists (R25, R136, R155) -/

theorem reset_waitingBounded : State.reset.WaitingBounded := fun l => by
  rw [reset_olc]
  exact Nat.zero_le 4

theorem kept_waitingBounded : Kept State.WaitingBounded where
  queue _ _ k := k
  cold _ _ := reset_waitingBounded
  time s k l := by
    obtain ⟨-, -, -, -, -, holc, -⟩ := tick_rows s
    rw [holc]
    exact k l
  load _ m k h := load_keeps m k h (fun _ _ _ _ _ _ h => h)
    (fun _ l => by rw [fillBlocks, setMarks_olc]; exact h l) fun _ l => by rw [enterConfigFault, setMarks_olc]; exact h l
  command := exec_keeps fun _ _ _ d => d.waiting

theorem reset_storeLegal : State.reset.StoreLegal :=
  ⟨fun _ => Nat.zero_le 8, List.nodup_nil⟩

theorem kept_storeLegal : Kept State.StoreLegal where
  queue _ _ k := k
  cold _ _ := reset_storeLegal
  time s k := by
    obtain ⟨hlink, hroute⟩ := k
    refine ⟨fun l => ?_, ?_⟩
    · have hl := hlink l
      simpa [State.tick, List.filter_map, Function.comp_def, tickEntry] using hl
    · simpa [State.tick, Function.comp_def, tickEntry] using hroute
  load _ m k h := load_keeps m k h (fun _ _ _ _ _ _ h => h) (fun _ => h) fun _ => h
  command := exec_keeps fun _ _ _ d => d.store_legal

theorem reset_queueSingle : State.reset.QueueSingle := List.nodup_nil

theorem kept_queueSingle : Kept State.QueueSingle where
  queue _ _ k := k
  cold _ _ := reset_queueSingle
  time _ k := k
  load _ m k h := load_keeps m k h (fun _ _ _ _ _ _ h => h) (fun _ => h) fun _ => h
  command := exec_keeps fun _ _ _ d => d.queue

/-! ### Acceptances (R165) -/

/-- The acceptance lists of one record and the requests that wait in the RIM for its link. -/
def Blc.Single (waiting : Nat) (r : Blc) : Prop :=
  r.outgoing.length + r.outAsks.length ≤ 1 ∧ r.incoming.length + r.inAsks.length + waiting ≤ 1

theorem acceptancesSingle_iff : s.AcceptancesSingle ↔ ∀ b, (s.blcAt b).Single (incomingOf b s.rim.requests) := Iff.rfl

theorem cold_single {n : Nat} (h : n ≤ 1) : Blc.cold.Single n :=
  ⟨Nat.zero_le 1, by simpa [Blc.cold] using h⟩

theorem reset_acceptancesSingle : State.reset.AcceptancesSingle := acceptancesSingle_iff.2 fun b => by
  rw [reset_blcAt]
  exact cold_single (Nat.zero_le 1)

theorem kept_acceptancesSingle : Kept State.AcceptancesSingle where
  queue _ _ k := k
  cold _ _ := reset_acceptancesSingle
  time s k b := by
    obtain ⟨-, -, -, -, -, -, hblc⟩ := tick_rows s
    rw [hblc]
    simpa [State.tick] using k b
  load s m k h := load_keeps m k h (fun _ _ _ _ _ _ h => h)
    (fun _ b => fillBlc_all (Q := fun b r => r.Single (incomingOf b s.rim.requests)) (fun _ _ _ q => q) m s.blc h b)
    fun _ b => by
      rw [enterConfigFault_blcAt]
      exact cold_single (Nat.le_trans (Nat.le_add_left _ _) (h b).2)
  command _ _ _ h1 h2 h := exec_acceptances h1 h2 h

/-! ### Sections (R44, R60) -/

/-- A table filled from entries that all have a property, over records that have it. -/
theorem fillTable_all {α β : Type} {n : Nat} {Q : β → Prop} (number : α → Nat) (value : α → β) (hQ : ∀ a, Q (value a))
    (l : List α) (v : Vector β n) (d : β) (e : Nat) (h : Q (v.getD e d)) : Q ((fillTable number value l v).getD e d) := by
  unfold fillTable
  induction l with
  | nil => exact h
  | cons x l ih =>
    rw [List.foldr_cons]
    by_cases hx : number x = e
    · subst hx
      by_cases he : number x < n
      · rw [getD_set_same _ _ _ _ he]
        exact hQ x
      · have hout : v.getD (number x) d = d := by simp [Vector.getD, he]
        rw [hout] at h
        simpa [Vector.getD, he] using h
    · rw [getD_set_ne _ _ _ _ _ hx]
      exact ih

theorem sectOf_legal (n : Nat) (x : SectCfg) : (sectOf x).legal n := by
  simp [SectCount.legal, sectOf]

theorem reset_sectionsLegal : State.reset.SectionsLegal := by
  refine ⟨by decide, fun _ => reset_count, fun e c h => ?_⟩
  rw [reset_count] at h
  cases h

theorem fillBlocks_sectionsLegal (m : Image) (hl : s.cfl.load = .loading) (h : s.SectionsLegal) :
    (fillBlocks s m).SectionsLegal := by
  obtain ⟨-, hnone, -⟩ := h
  refine ⟨Nat.min_le_right m.tolerance 4, nofun, fun e => ?_⟩
  exact fillTable_all (Q := fun o => ∀ c, o = some c → c.legal (min m.tolerance 4)) SectCfg.sect _
    (fun x c hc => Option.some.inj hc ▸ sectOf_legal _ x) m.sections s.ace.counts none e
    fun c hc => nomatch (hnone hl e).symm.trans hc

theorem kept_sectionsLegal : Kept State.SectionsLegal where
  queue _ _ k := k
  cold _ _ := reset_sectionsLegal
  time _ k := k
  load s m k h := load_keeps m k h
    (fun u c _ _ h1 h2 hu => by
      unfold State.SectionsLegal
      dsimp only
      rw [h1, h2]
      exact hu)
    (fun hl => fillBlocks_sectionsLegal m hl h) fun _ => ⟨h.1, nofun, h.2.2⟩
  command := exec_keeps fun _ _ _ d => d.sections

/-! ### DOWN links (R168) -/

theorem cold_empty : Blc.cold.Empty := fun _ => ⟨rfl, rfl, rfl, rfl, rfl, rfl, rfl, rfl⟩

theorem reset_downEmpty : State.reset.DownEmpty := fun b => by
  rw [reset_blcAt]
  exact cold_empty

theorem tick_empty {r : Blc} (h : r.Empty) : (tickBlc r).Empty := fun hl => by
  obtain ⟨h1, h2, h3, h4, h5, h6, h7, h8⟩ := h hl
  simp [tickBlc, h1, h2, h3, h4, h5, h6, h7, h8, Timer.tick]

theorem kept_downEmpty : Kept State.DownEmpty where
  queue _ _ k := k
  cold _ _ := reset_downEmpty
  time s k b := by
    have htick : s.tick.blcAt b = tickBlc (s.blcAt b) := by simp [State.blcAt, State.tick]
    rw [htick]
    exact tick_empty (k b)
  load s m k h := load_keeps m k h (fun _ _ _ _ _ _ h => h)
    (fun _ => fillBlc_all (Q := fun _ r => r.Empty) (fun _ _ _ q => q) m s.blc h)
    fun _ b => by
      rw [enterConfigFault_blcAt]
      exact cold_empty
  command := exec_keeps fun _ _ _ d => d.down

/-! ### Pending sets (R158, R160) -/

/-- SNAPSHOT order names no object twice. -/
theorem snapshotObjects_nodup {l : List Nat} (h : l.Nodup) : (snapshotObjects l).Nodup := by
  have map : ∀ {α : Type} {f : α → Obj} {k : List α}, k.Nodup → (∀ x y, f x = f y → x = y) → (k.map f).Nodup :=
    fun hk hf => hk.map fun x y => hf x y
  simp only [snapshotObjects, List.cons_append, List.nodup_cons, List.nodup_append]
  refine ⟨by simp, ⟨⟨⟨map List.nodup_range (by simp), map h (by simp), by simp⟩, map List.nodup_range (by simp), ?_⟩,
    map List.nodup_range (by simp), ?_⟩, by simp, ?_⟩
  · simp only [List.mem_append, List.mem_map]
    rintro _ (⟨_, _, rfl⟩ | ⟨_, _, rfl⟩) <;> simp
  · simp only [List.mem_append, List.mem_map]
    rintro _ ((⟨_, _, rfl⟩ | ⟨_, _, rfl⟩) | ⟨_, _, rfl⟩) <;> simp
  · simp only [List.mem_append, List.mem_map]
    rintro _ (((⟨_, _, rfl⟩ | ⟨_, _, rfl⟩) | ⟨_, _, rfl⟩) | ⟨_, _, rfl⟩) <;> simp

theorem configured_nodup (s : State) : s.configured.Nodup := List.nodup_range.filter _

theorem reset_marksLegal : State.reset.MarksLegal := fun l => by
  rw [reset_olc]
  exact snapshotObjects_nodup List.nodup_nil

theorem kept_marksLegal : Kept State.MarksLegal where
  queue _ _ k := k
  cold _ _ := reset_marksLegal
  time s k l := by
    obtain ⟨-, -, -, -, -, holc, -⟩ := tick_rows s
    rw [holc]
    exact k l
  load _ m k h := load_keeps m k h (fun _ _ _ _ _ _ h => h)
    (fun _ l => by
      rw [fillBlocks, setMarks_olc]
      exact snapshotObjects_nodup (configured_nodup _))
    fun _ l => by
      rw [enterConfigFault, setMarks_olc]
      exact List.nodup_singleton _
  command := exec_keeps fun _ _ _ d => d.marks

/-! ### Check words (R2) -/

theorem getD_ofFn {α : Type} {n : Nat} (f : Fin n → α) (d : α) (i : Fin n) : (Vector.ofFn f).getD i d = f i := by
  simp [Vector.getD]

theorem reset_checksRight : State.reset.ChecksRight := fun e => by
  rw [reset_elem]
  exact getD_ofFn _ 0 e

theorem kept_checksRight : Kept State.ChecksRight where
  queue _ _ k := k
  cold _ _ := reset_checksRight
  time _ k := k
  load _ m k h := load_keeps m k h (fun _ _ _ _ _ _ h => h) (fun _ e => getD_ofFn _ 0 e) fun _ => h
  command := exec_keeps fun _ _ _ d => d.checks

/-! ### Locks (R3) -/

theorem reset_locksLegal : State.reset.LocksLegal := by
  refine locks_of_empty (fun k e i => ?_) (fun k e => ?_) (fun i h => by cases h) List.nodup_nil fun _ => rfl
  all_goals
    rw [reset_elem]
    cases k <;> exact nofun

theorem kept_locksLegal : Kept State.LocksLegal where
  queue _ _ k := k
  cold _ _ := reset_locksLegal
  time _ k := tick_locks k
  load _ m k h := load_locks m k h
  command _ _ _ h1 h2 h := exec_locks h1 h2 h

/-! ### The statements -/

/-- Settles O54: both predicates are kept, and the owners of LocksLegal are written out slot by slot. -/
theorem everyStepKeepsTheAreasAndLocksLegal : Obligations.EveryStepKeepsTheAreasAndLocksLegal := by
  refine ⟨fun _ _ => kept_areasLegal.step, fun _ _ => kept_locksLegal.step, fun s k e h => ?_⟩
  obtain ⟨⟨hheld, hunknown⟩, -⟩ := h
  refine ⟨fun i hi => ?_, hunknown k e⟩
  obtain ⟨r, d, hlive, hkeeps⟩ := hheld k e i hi
  exact ⟨r, d, hlive, by simpa only [not_false_iff] using hkeeps⟩

/-- Settles O55, by the four lists' own invariants. -/
theorem everyStepKeepsTheListsBounded : Obligations.EveryStepKeepsTheListsBounded :=
  fun _ _ hw hs hq ha h => ⟨kept_waitingBounded.step hw h, kept_storeLegal.step hs h, kept_queueSingle.step hq h,
    kept_acceptancesSingle.step ha h⟩

/-- Settles O56: a load fills only DISTURBED sections, each deed that writes a count keeps it legal. -/
theorem everyStepKeepsTheSectionsLegal : Obligations.EveryStepKeepsTheSectionsLegal :=
  fun _ _ => kept_sectionsLegal.step

/-- Settles O57, by what each deed does to a record of a link in DOWN. -/
theorem everyStepKeepsADownLinkEmpty : Obligations.EveryStepKeepsADownLinkEmpty :=
  fun _ _ => kept_downEmpty.step

/-- Settles O58: a mark joins a set only where it is not in it, and the order of a step's marks is a permutation. -/
theorem everyStepKeepsTheMarksDistinct : Obligations.EveryStepKeepsTheMarksDistinct :=
  fun _ _ => kept_marksLegal.step

/-- Settles O59, by each invariant at the cold-start values. -/
theorem resetMeetsTheInvariants : Obligations.ResetMeetsTheInvariants :=
  ⟨reset_areasLegal, reset_waitingBounded, reset_storeLegal, reset_sectionsLegal, reset_downEmpty, reset_marksLegal,
    reset_checksRight, reset_queueSingle, reset_acceptancesSingle, reset_locksLegal⟩

end Sys2Proof.Machine
end

section
/-! Time, the load of an image and the counter area (O2, O5 to O7). -/

namespace Sys2Proof.Machine

variable {s : State}

/-- Settles O2, by the ticks of each record. -/
theorem idleStepIsTime : Obligations.IdleStepIsTime := by
  intro s h
  obtain ⟨hdrive, hcmd, hinst, hsel, harea, holc, hblc⟩ := tick_rows s
  exact ⟨s.tick, step_of_idle h, fun _ => rfl, rfl, fun _ => rfl, rfl, hdrive, hcmd, hinst, hsel, rfl, harea, holc, hblc, rfl⟩

/-! ### Filled tables (R20, R60) -/

section
variable {α β : Type} {n : Nat} (number : α → Nat) (value : α → β) (v : Vector β n) (d : β)

/-- Of two entries with one number the first stands (log entry 25). -/
theorem fillTable_first {x : α} (hx : number x < n) {l : List α} (h : l.find? (fun y => number y == number x) = some x) :
    (fillTable number value l v).getD (number x) d = value x := by
  unfold fillTable
  induction l with
  | nil => cases h
  | cons a l ih =>
    rw [List.foldr_cons]
    by_cases ha : number a = number x
    · obtain rfl : a = x := by simpa [ha] using h
      exact getD_set_same _ _ _ _ hx
    · rw [getD_set_ne _ _ _ _ _ ha]
      exact ih (by simpa [ha] using h)

theorem fillTable_absent {e : Nat} {l : List α} (h : l.all (fun a => number a != e) = true) :
    (fillTable number value l v).getD e d = v.getD e d := by
  unfold fillTable
  induction l with
  | nil => rfl
  | cons a l ih =>
    obtain ⟨ha, hl⟩ : number a ≠ e ∧ l.all (fun a => number a != e) = true := by simpa using h
    rw [List.foldr_cons, getD_set_ne _ _ _ _ _ ha]
    exact ih hl

end

/-- Of the entries of one number a search finds the first, whether or not the later ones stand. -/
theorem find_firstOf {α : Type} (number : α → Nat) (n : Nat) (l : List α) :
    (firstOf number l).find? (fun a => number a == n) = l.find? fun a => number a == n := by
  induction l with
  | nil => rfl
  | cons a l ih =>
    by_cases ha : number a = n
    · simp [firstOf, ha]
    · have hne : ∀ x, (number x == n) = true → (number x != number a) = true := fun x hx => by
        simp only [beq_iff_eq] at hx
        simpa [hx] using Ne.symm ha
      simp only [firstOf, List.find?_cons_of_neg (p := fun a => number a == n) (by simpa using ha), List.find?_filter, ← ih]
      congr 1
      funext x
      cases hx : number x == n
      · simp
      · simp [hne x hx]

theorem mem_insertUnit {u w : UnitRow} {l : List UnitRow} : u ∈ insertUnit w l ↔ u = w ∨ u ∈ l := by
  induction l with
  | nil => simp [insertUnit]
  | cons v l ih =>
    unfold insertUnit
    split
    · exact List.mem_cons
    · rw [List.mem_cons, ih, List.mem_cons]
      exact or_left_comm

theorem mem_sortedUnits {u : UnitRow} {l : List UnitRow} : u ∈ l.foldr insertUnit [] ↔ u ∈ l := by
  induction l with
  | nil => rfl
  | cons v l ih => rw [List.foldr_cons, mem_insertUnit, ih, List.mem_cons]

/-! ### Filled boundary records (R165) -/

/-- A record's configuration is overwritten whole, so that only the last write to it shows. -/
theorem blcOf_blcOf (r : Blc) (c d : BoundaryCfg) : blcOf (blcOf r c) d = blcOf r d := rfl

theorem fillBlc_first {m : Image} {c : BoundaryCfg} (h : m.boundaries.find? (fun y => y.link == c.link) = some c)
    (v : Vector Blc 4) : (fillBlc m v)[c.link] = blcOf v[c.link] c := by
  have last : ∀ l : List BoundaryCfg,
      blcOf (fillBlc { m with boundaries := l } v)[c.link] c = blcOf v[c.link] c := fun l =>
    fillBlc_all (Q := fun b r => blcOf r c = blcOf v[b] c) (fun _ r d q => (blcOf_blcOf r d c).trans q) _ v (fun _ => rfl) c.link
  unfold fillBlc at last ⊢
  dsimp only at last
  revert h
  induction m.boundaries with
  | nil => exact nofun
  | cons a l ih =>
    intro h
    rw [List.foldr_cons]
    by_cases ha : a.link = c.link
    · obtain rfl : a = c := by simpa [ha] using h
      simpa using last l
    · have ha' : (a.link : Nat) ≠ c.link := fun e => ha (Fin.ext e)
      simpa [Vector.getElem_set_ne, ha'] using ih (by simpa [ha] using h)

theorem fillBlc_absent {m : Image} {b : BLink} (h : m.boundaries.all (fun y => y.link != b) = true) (v : Vector Blc 4) :
    (fillBlc m v)[b] = v[b] := by
  unfold fillBlc
  revert h
  induction m.boundaries with
  | nil => exact fun _ => rfl
  | cons a l ih =>
    intro h
    obtain ⟨ha, hl⟩ : a.link ≠ b ∧ l.all (fun y => y.link != b) = true := by simpa using h
    have ha' : (a.link : Nat) ≠ b := fun e => ha (Fin.ext e)
    rw [List.foldr_cons]
    simpa [Vector.getElem_set_ne, ha'] using ih hl

/-! ### A load that ends (R185) -/

theorem loadEnds_of_loading (m : Image) (k : Option AouCounters) (hl : s.cfl.load = .loading) :
    loadEnds s m k = countColdStart (loadCounters
      ((imageFault m).elim (fillBlocks s m) (enterConfigFault s)) k) := by
  rw [loadEnds, if_pos hl]
  cases imageFault m <;> rfl

theorem limitsOk_of_sound {m : Image} (h : imageFault m = none) : limitsOk m = true := by
  cases hl : limitsOk m with
  | true => rfl
  | false =>
    simp only [imageFault, hl, Bool.not_false, if_true] at h
    split_ifs at h

theorem setMarks_desk (u : State) (v : List Obj) (l : OpLink) : ((setMarks u v).olc.get l).desk = (u.olc.get l).desk := by
  rw [setMarks_olc]
  rfl

/-- A sound image fills every block. -/
theorem load_sound (m : Image) (k : Option AouCounters) (s : State) (hl : s.cfl.load = .loading) (hf : imageFault m = none) :
    ∃ t, exec (.loadComplete m k) s = .next t
      ∧ t.cfl.load = .operating ∧ t.cfl.stationCode = m.stationCode
      ∧ t.cfl.settingTime = clampOr 200 50 600 m.settingTime ∧ t.cfl.tolerance = min m.tolerance 4
      ∧ t.cfl.stackLifetime = clampOr 1200 100 6000 m.stackLifetime
      ∧ (∀ x, m.elements.find? (fun y => y.number == x.number) = some x → t.elem x.number = elementOf x)
      ∧ (∀ e, m.elements.all (fun x => x.number != e) = true → t.elem e = s.elem e)
      ∧ (∀ x, m.sections.find? (fun y => y.sect == x.sect) = some x → t.count x.sect = some (sectOf x))
      ∧ (∀ d, m.dps.find? (fun y => y.number == d.number) = some d → t.dp d.number = some (dpOf d))
      ∧ (∀ u, u ∈ t.tbc.units ↔ u ∈ m.units.map unitOfCfg) ∧ t.tbc.units.Pairwise (fun u v => u.address ≤ v.address)
      ∧ t.tbc.spacing = .running 0 ∧ t.ChecksRight ∧ t.rcat = firstOfEach (m.routes.map clampRoute)
      ∧ (∀ n, t.routeDef n = (m.routes.map clampRoute).find? fun d => d.number == n)
      ∧ (∀ c, m.boundaries.find? (fun y => y.link == c.link) = some c → t.blcAt c.link = blcOf (s.blcAt c.link) c)
      ∧ (∀ b, m.boundaries.all (fun y => y.link != b) = true → t.blcAt b = s.blcAt b)
      ∧ (∀ l, (t.olc.get l).marks = snapshotObjects t.configured)
      ∧ t.aou = ⟨{ k.getD AouCounters.zero with coldStart := incCounter (k.getD AouCounters.zero).coldStart }, k.isNone, false⟩
      ∧ t.cfl.writing = true
      ∧ (s.cfl.writing = false → t.cfl.counterImage = t.aou.counters ∧ t.out = s.out ++ [.counters t.aou.counters])
      ∧ (∀ l, (t.olc.get l).desk = (s.olc.get l).desk)
      ∧ t = { s with cfl := t.cfl, lkc := { s.lkc with elements := t.lkc.elements, checks := t.lkc.checks }
                     tbc := { s.tbc with units := t.tbc.units, spacing := t.tbc.spacing }
                     ace := t.ace, rcat := t.rcat, aou := t.aou, olc := t.olc, blc := t.blc, out := t.out } := by
  obtain ⟨-, helems, -, hdps, hsections, -⟩ := (limitsOk_iff m).1 (limitsOk_of_sound hf)
  obtain ⟨c, a, o, ht, hc, ha, hout⟩ := countColdStart_writes (fillBlocks s m) k
  have hload : loadEnds s m k = { fillBlocks s m with cfl := c, aou := a, out := o } := by
    rw [loadEnds_of_loading m k hl, hf]
    exact ht
  refine ⟨_, (exec_loadComplete m k s).trans (congrArg _ hload), (congrArg Cfl.load hc :), (congrArg Cfl.stationCode hc :),
    (congrArg Cfl.settingTime hc :), (congrArg Cfl.tolerance hc :), (congrArg Cfl.stackLifetime hc :), fun x hx => ?_,
    fun e he => fillTable_absent _ _ _ _ he, fun x hx => ?_, fun d hd => ?_, fun u => mem_sortedUnits, units_sorted _, rfl,
    fun e => getD_ofFn _ 0 e, rfl, fun n => find_firstOf RouteDef.number n _, fun b hb => fillBlc_first hb _,
    fun b hb => fillBlc_absent hb _, fun l => ?_, ha, (congrArg Cfl.writing hc :), hout, fun l => setMarks_desk _ _ l, rfl⟩
  · exact fillTable_first _ _ _ _ (Nat.lt_succ_of_le (helems x (List.mem_of_find?_eq_some hx)).1) hx
  · exact fillTable_first _ _ _ _ (Nat.lt_succ_of_le (hsections x (List.mem_of_find?_eq_some hx)).1) hx
  · exact fillTable_first _ _ _ _ (hdps d (List.mem_of_find?_eq_some hd)).1 hd
  · exact congrArg Olc.marks (setMarks_olc _ _ l)

/-- What an entry becomes, each kind of element by its own row. -/
theorem elementOf_rows (x : ElemCfg) :
    (∀ c retries supervision, x.kind = .point c retries supervision → elementOf x = .point {
        area := x.area, containing := c, retries := min retries 3, supervision := max 20 (min 200 supervision)
        detection := .unknown, localMode := false, failed := false, next := none, lock := .empty, flankRef := none
        block := false, suspect := false })
    ∧ (x.kind = .signal → elementOf x = .signal {
        area := x.area, shown := .unknown, commanded := .stop, lampFault := false, failed := false, entrySlot := .empty
        exitSlot := .empty, flankRef := none, block := false, suspect := false })
    ∧ (x.kind = .track → elementOf x = .track {
        area := x.area, occupancy := .disturbed, lock := .empty, block := false, suspect := false })
    ∧ ∀ b used, x.kind = .boundary b used → elementOf x = .boundary {
        area := x.area, link := b, unused := !used, entrySlot := .empty, exitSlot := .empty, suspect := false } := by
  unfold elementOf
  refine ⟨fun _ _ _ h => ?_, fun h => ?_, fun h => ?_, fun _ _ h => ?_⟩ <;> simp only [h, clamp]

/-- Settles O5: the fill block by block, and what each kind of entry becomes. -/
theorem loadFillsEveryBlock : Obligations.LoadFillsEveryBlock := by
  refine ⟨fun m k s hl hf => ?_, elementOf_rows, fun _ => rfl, fun _ => rfl, fun _ => rfl, fun _ => rfl, clampOr_rows⟩
  obtain ⟨t, ht, h1, h2, h3, h4, h5, h6, h7, h8, h9, h10, h11, h12, h13, h14, h15, h16, h17, h18, haou, hrest⟩ :=
    load_sound m k s hl hf
  exact ⟨t, ht, h1, h2, h3, h4, h5, h6, h7, h8, h9, h10, h11, h12, h13, h14, h15, h16, h17, h18,
    congrArg Aou.counters haou, congrArg Aou.areaFault haou, congrArg Aou.storeFault haou, hrest⟩

/-! ### A load that fails (R186, R188) -/

theorem load_faulty (m : Image) (k : Option AouCounters) (s : State) (code : Nat) (hl : s.cfl.load = .loading)
    (hf : imageFault m = some code) :
    ∃ t, exec (.loadComplete m k) s = .next t
      ∧ t.cfl.load = .configFault code ∧ (∀ b, t.blcAt b = Blc.cold) ∧ (∀ l, (t.olc.get l).marks = [.partStatus])
      ∧ t.aou.counters = { k.getD AouCounters.zero with coldStart := incCounter (k.getD AouCounters.zero).coldStart }
      ∧ t.aou.areaFault = k.isNone ∧ t.cfl.writing = true
      ∧ (∀ l, (t.olc.get l).desk = (s.olc.get l).desk)
      ∧ t = { s with cfl := t.cfl, tbc := { s.tbc with spacing := .running 0 }, aou := t.aou, olc := t.olc, blc := t.blc
                     out := t.out } := by
  obtain ⟨c, a, o, ht, hc, ha, -⟩ := countColdStart_writes (enterConfigFault s code) k
  have hload : loadEnds s m k = { enterConfigFault s code with cfl := c, aou := a, out := o } := by
    rw [loadEnds_of_loading m k hl, hf]
    exact ht
  exact ⟨_, (exec_loadComplete m k s).trans (congrArg _ hload), (congrArg Cfl.load hc :), enterConfigFault_blcAt s code,
    fun l => congrArg Olc.marks (setMarks_olc _ _ l), (congrArg Aou.counters ha :), (congrArg Aou.areaFault ha :),
    (congrArg Cfl.writing hc :), fun l => setMarks_desk _ _ l, rfl⟩

/-- The header's checks come first, in the order of the table. -/
theorem imageFault_header (m : Image) :
    (imageFault m = some 1 ↔ (m.readable = false ∨ m.reachesCounters = true))
    ∧ (imageFault m = some 2 ↔ (m.readable = true ∧ m.reachesCounters = false ∧ m.checkAgrees = false))
    ∧ (imageFault m = some 3 ↔
      (m.readable = true ∧ m.reachesCounters = false ∧ m.checkAgrees = true ∧ m.formatVersion ≠ 2)) := by
  unfold imageFault
  cases m.readable <;> cases m.reachesCounters <;> cases m.checkAgrees <;> by_cases hv : m.formatVersion = 2 <;> grind

theorem find_elem_iff (m : Image) (x : ElemCfg) :
    x ∈ standingElems m ↔ m.elements.find? (fun y => y.number == x.number) = some x :=
  mem_firstOf ElemCfg.number x m.elements

theorem elemKind_rows (k : ElemCfgKind) : (isPoint k = true ↔ ∃ c r v, k = .point c r v) ∧ (isSignal k = true ↔ k = .signal)
    ∧ (isTrack k = true ↔ k = .track) ∧ (isBoundary k = true ↔ ∃ b u, k = .boundary b u) := by
  cases k <;> simp [isPoint, isSignal, isTrack, isBoundary]

/-- Settles O6: the header's checks, the codes in their order, and each check spelt out by its own equivalence. -/
theorem loadFaultsByTheFirstCheck : Obligations.LoadFaultsByTheFirstCheck := by
  refine ⟨load_faulty, fun m => (imageFault_header m).1, fun m => (imageFault_header m).2.1,
    fun m => (imageFault_header m).2.2, imageFault_codes, imageFault_le, fun m e => ?_, elemKind_rows, flankTargets_rows,
    fun _ => rfl, fun m => ?_, fun m => ?_, fun m => ?_, fun m d => ?_, targetOk_iff, catalogueOk_iff,
    fun m k s hl => exec_loadComplete_of_loaded m k hl⟩
  · exact ⟨hasElem_iff m e, hasDp_iff m e, fun p => hasKind_iff m p e, find_elem_iff m, firstOf_number _ _,
      fun d => mem_firstOf DpCfg.number d m.dps, firstOf_number _ _, fun d => mem_firstOf RouteDef.number d m.routes,
      fun _ => rfl, fun _ => rfl⟩
  · rw [limitsOk_iff]
    simp only [routeLimitsOk_iff]
  · exact referencesOk_iff m
  · rw [kindsOk_iff]
    simp only [bordersOk_iff]
  · rw [routeOk_iff]
    simp only [liesIn_iff, hasOutRef_iff]

/-! ### The counter area (R164, R189) -/

theorem exec_counterWriteComplete (back : Option AouCounters) (s : State) :
    exec (.counterWriteComplete back) s = .next (State.finish s (s.writeEnds back)) := rfl

/-- The part with COUNTER_STORE_FAULT as a write has left it, part status marked where it changes (R159). -/
def State.storeFaultSet (s : State) (v : Bool) : State :=
  if s.aou.storeFault = v then s else ({ s with aou := { s.aou with storeFault := v } }).mark .partStatus

theorem storeFaultSet_rows (v : Bool) : ∃ o, s.storeFaultSet v = { s with aou := { s.aou with storeFault := v }, olc := o }
    ∧ (∀ l, (o.get l).desk = (s.olc.get l).desk) ∧ (s.aou.storeFault = v → o = s.olc)
    ∧ (s.aou.storeFault ≠ v → ∀ l, .partStatus ∈ (o.get l).marks) := by
  unfold State.storeFaultSet
  split
  · rename_i h
    exact ⟨s.olc, by rw [← h], fun _ => rfl, fun _ => rfl, fun k => absurd h k⟩
  · rename_i h
    have hd := desk_mark { s with aou := { s.aou with storeFault := v } } .partStatus
    refine ⟨_, rfl, fun l => olc_of_desk hd l, fun k => absurd k h, fun _ l => ?_⟩
    cases l <;> simp [State.markAt, State.modOlc, PerLink.set, PerLink.get, addMark] <;> split <;> simp_all

theorem mem_orderMarks {o : Obj} {b l : List Obj} : o ∈ orderMarks b l ↔ o ∈ l := by
  rw [orderMarks, List.mem_append, (perm_sortObjs _).mem_iff, List.mem_filter, List.mem_filter]
  cases b.contains o <;> simp

theorem settleMarks_mem (b u : State) (l : OpLink) (o : Obj) :
    o ∈ ((State.settleMarks b u).olc.get l).marks ↔ o ∈ (u.olc.get l).marks := by
  cases l <;> exact mem_orderMarks

/-- The end of a write by its parts: the fault flag, the write in flight ended, and one further write where the counters
changed in flight. -/
theorem writeEnds_rows (back : Option AouCounters) (ok : Bool) (h : ok = true ↔ back = some s.cfl.counterImage) :
    (s.cfl.writing = false → s.writeEnds back = s)
    ∧ (s.cfl.writing = true → s.cfl.writeAgain = false →
        s.writeEnds back = { s.storeFaultSet (!ok) with cfl := { s.cfl with writing := false, writeAgain := false } })
    ∧ (s.cfl.writing = true → s.cfl.writeAgain = true →
        s.writeEnds back = { s.storeFaultSet (!ok) with
          cfl := { s.cfl with counterImage := s.aou.counters, writing := true, writeAgain := false }
          out := s.out ++ [.counters s.aou.counters] }) := by
  obtain rfl : ok = (back == some s.cfl.counterImage) := by rw [Bool.eq_iff_iff, h, beq_iff_eq]
  obtain ⟨o, hset, -⟩ := storeFaultSet_rows (s := s) (!(back == some s.cfl.counterImage))
  have hends : s.cfl.writing = true → s.writeEnds back =
      let u : State := { s.storeFaultSet (!(back == some s.cfl.counterImage)) with
        cfl := { s.cfl with writing := false, writeAgain := false } }
      if s.cfl.writeAgain then u.writeCounters else u := fun hw => by
    have hset' := hset
    unfold State.storeFaultSet at hset' ⊢
    simp only [State.writeEnds, hw, Bool.not_true, Bool.false_eq_true, if_false]
    rw [hset']
  refine ⟨fun hw => by simp [State.writeEnds, hw], fun hw ha => ?_, fun hw ha => ?_⟩
  · rw [hends hw, ha, hset]
    rfl
  · rw [hends hw, ha, hset]
    rfl

/-- Settles O7, by the flag, the write that ends and the further write. -/
theorem counterWriteEnds : Obligations.CounterWriteEnds := by
  intro back ok s hn hok
  obtain ⟨hidle, honce, hagain⟩ := writeEnds_rows back ok hok
  obtain ⟨o, hset, hdesk, hsame, hmark⟩ := storeFaultSet_rows (s := s) (!ok)
  refine ⟨fun hw => ?_, fun hw => ?_⟩
  · rw [exec_counterWriteComplete, hidle hw, finish_self s hn]
  · obtain ⟨c, x, hends, h1, h2⟩ : ∃ c x,
        s.writeEnds back = { s with cfl := c, aou := { s.aou with storeFault := !ok }, olc := o, out := x }
        ∧ (s.cfl.writeAgain = false → c = { s.cfl with writing := false } ∧ x = s.out)
        ∧ (s.cfl.writeAgain = true → c = { s.cfl with counterImage := s.aou.counters, writeAgain := false }
            ∧ x = s.out ++ [.counters s.aou.counters]) := by
      cases ha : s.cfl.writeAgain with
      | false => exact ⟨_, _, by rw [honce hw ha, hset], fun _ => ⟨by rw [← ha], rfl⟩, nofun⟩
      | true => exact ⟨_, _, by rw [hagain hw ha, hset], nofun, fun _ => ⟨by rw [← hw], rfl⟩⟩
    refine ⟨_, exec_counterWriteComplete back s, ?_⟩
    rw [finish_of_none _ _ (by rw [hends]; exact hn), hends]
    refine ⟨rfl, h1, h2, fun l => ?_, fun he => ?_, fun he l => ?_, rfl⟩
    · cases l
      · exact hdesk .olC
      · exact hdesk .olL
    · rw [hsame he]
      exact (congrArg State.olc (settleMarks_self s) :)
    · refine (settleMarks_mem _ _ l _).2 (hmark ?_ l)
      rw [he]
      cases ok <;> exact nofun

end Sys2Proof.Machine
end

section
/-! The scrub (R18): the record at the pointer, the rebuild by its kind, and what a check leaves as it was (O8). -/

namespace Sys2Proof.Machine

variable {s : State} {e : Nat}

/-! ### SHOW(STOP) by the signal's unit (R21, R38, R39) -/

/-- SHOW(STOP) queued for the unit, or without one the signal FAILED at once. -/
theorem enqueueStop_rows {g : SignalRec} (h : s.signal? e = some g) :
    (∀ x, x ≠ e → (s.enqueueStop e).elem x = s.elem x)
    ∧ (s.enqueueStop e).signal? e = some { g with failed := g.failed || (s.unitOf .sdu e).isNone }
    ∧ ((s.enqueueStop e).cmd e).awaiting = (s.cmd e).awaiting
    ∧ ∀ u, s.unitOf .sdu e = some u → ((s.enqueueStop e).cmd e).stopOutstanding = true
        ∧ (s.enqueueStop e).queuedAt u.address = some ⟨u.address, .showAs .stop, s.tbc.nextAge, 0⟩ := by
  have he := lt_of_signal h
  cases hu : s.unitOf .sdu e with
  | some u =>
    obtain ⟨helem, hcmd, hqueued, -⟩ := enqueueStop_queues he hu
    refine ⟨fun x _ => helem x, ?_, by rw [hcmd], fun v hv => ?_⟩
    · rw [signal_of_elem, helem, signal_of_elem.1 h]
      simp
    · cases hv
      exact ⟨by rw [hcmd], hqueued⟩
  | none =>
    have hg : (s.putCmd e { s.cmd e with stopOutstanding := false }).signal? e = some g :=
      signal_of_elem.2 ((elem_putCmd ..).trans (signal_of_elem.1 h))
    have hstop : s.enqueueStop e =
        (s.putCmd e { s.cmd e with stopOutstanding := false }).modSignal e fun g => { g with failed := true } := by
      simp only [State.enqueueStop, hu]
    rw [hstop]
    refine ⟨fun x hx => ?_, ?_, ?_, nofun⟩
    · rw [(modSignal_quiet hg _ rfl rfl).2 x hx, elem_putCmd]
    · rw [modSignal_signal hg]
      simp
    · rw [modSignal_cmd hg, cmd_putCmd_same _ _ _ he]

/-! ### The rebuilt record, kind by kind -/

theorem rebuild_point {p : PointRec} (h : s.point? e = some p) : s.rebuildSuspect e =
    (s.putElem e (.point { p with
      detection := .unknown, localMode := false, failed := false, next := none, lock := .unknown
      flankRef := s.entryNaming e, block := true, suspect := true })).notify (.suspect e) := by
  simp only [State.rebuildSuspect, point_of_elem.1 h]

theorem rebuild_signal {g : SignalRec} (h : s.signal? e = some g) : s.rebuildSuspect e =
    (((s.putElem e (.signal { g with
      shown := .unknown, commanded := .stop, lampFault := false, failed := false, entrySlot := .unknown
      exitSlot := .unknown, flankRef := s.entryNaming e, block := true, suspect := true })).dropCmd e).enqueueStop e).notify
        (.suspect e) := by
  simp only [State.rebuildSuspect, signal_of_elem.1 h]

theorem rebuild_track {t : TrackRec} (h : s.track? e = some t) : s.rebuildSuspect e =
    (s.writeTrack e { t with occupancy := s.aceState e, lock := .unknown, block := true, suspect := true }).notify
      (.suspect e) := by
  simp only [State.rebuildSuspect, track_of_elem.1 h]

theorem rebuild_boundary {b : BoundaryRec} (h : s.boundary? e = some b) : s.rebuildSuspect e =
    (s.putElem e (.boundary { b with entrySlot := .unknown, exitSlot := .unknown, suspect := true })).notify (.suspect e) := by
  simp only [State.rebuildSuspect, boundary_of_elem.1 h]

theorem writeTrack_elem (t : TrackRec) (x : Nat) : (s.writeTrack e t).elem x = (s.putElem e (.track t)).elem x := by
  obtain ⟨c, hc⟩ := writeTrack_olc (s := s) (e := e) t
  rw [hc]
  rfl

theorem elem_notify (n : Notice) (x : Nat) : (s.notify n).elem x = s.elem x := rfl
theorem signal_notify (n : Notice) (x : Nat) : (s.notify n).signal? x = s.signal? x := rfl
theorem cmd_notify (n : Notice) (x : Nat) : (s.notify n).cmd x = s.cmd x := rfl
theorem queuedAt_notify (n : Notice) (a : Nat) : (s.notify n).queuedAt a = s.queuedAt a := rfl

/-- The record of a rebuilt signal before SHOW(STOP) is queued, its command record gone. -/
theorem droppedSignal {g : SignalRec} (h : e < 256) :
    ((s.putElem e (.signal g)).dropCmd e).signal? e = some g
    ∧ (∀ x, x ≠ e → ((s.putElem e (.signal g)).dropCmd e).elem x = s.elem x)
    ∧ (((s.putElem e (.signal g)).dropCmd e).cmd e).awaiting = .stopped
    ∧ (∀ k, ((s.putElem e (.signal g)).dropCmd e).unitOf k e = s.unitOf k e)
    ∧ ((s.putElem e (.signal g)).dropCmd e).tbc = s.tbc := by
  refine ⟨?_, fun x hx => ?_, ?_, fun k => unitOf_of_units (by simp [State.dropCmd]) k e, by simp [State.dropCmd]⟩
  · rw [signal_of_elem, State.dropCmd, elem_putCmd, elem_putElem_same _ _ _ h]
  · rw [State.dropCmd, elem_putCmd, elem_putElem_ne _ _ _ _ (Ne.symm hx)]
  · rw [State.dropCmd, cmd_putCmd_same _ _ _ h]

theorem rebuild_signal_rows {g : SignalRec} (h : s.signal? e = some g) :
    (s.rebuildSuspect e).signal? e = some { g with
      shown := .unknown, commanded := .stop, lampFault := false, failed := (s.unitOf .sdu e).isNone
      entrySlot := .unknown, exitSlot := .unknown, flankRef := s.entryNaming e, block := true, suspect := true }
    ∧ (∀ x, x ≠ e → (s.rebuildSuspect e).elem x = s.elem x)
    ∧ ((s.rebuildSuspect e).cmd e).awaiting = .stopped
    ∧ ∀ u, s.unitOf .sdu e = some u → ((s.rebuildSuspect e).cmd e).stopOutstanding = true
        ∧ (s.rebuildSuspect e).queuedAt u.address = some ⟨u.address, .showAs .stop, s.tbc.nextAge, 0⟩ := by
  obtain ⟨hsignal, helem, hcmd, hunit, htbc⟩ := droppedSignal (s := s) (e := e) (g := { g with
      shown := .unknown, commanded := .stop, lampFault := false, failed := false, entrySlot := .unknown
      exitSlot := .unknown, flankRef := s.entryNaming e, block := true, suspect := true }) (lt_of_signal h)
  obtain ⟨hothers, hrecord, hawaiting, hqueued⟩ := enqueueStop_rows hsignal
  rw [hunit, htbc] at hqueued
  rw [hunit, Bool.false_or] at hrecord
  rw [rebuild_signal h]
  simp only [elem_notify, signal_notify, cmd_notify, queuedAt_notify]
  exact ⟨hrecord, fun x hx => (hothers x hx).trans (helem x hx), hawaiting.trans hcmd, hqueued⟩

theorem rebuild_track_record {t : TrackRec} (h : s.track? e = some t) : (s.rebuildSuspect e).track? e =
    some { t with occupancy := s.aceState e, lock := .unknown, block := true, suspect := true } := by
  have he : e < 256 := lt_of_elem (by rw [track_of_elem.1 h]; nofun)
  rw [rebuild_track h, track_of_elem, elem_notify, writeTrack_elem, elem_putElem_same _ _ _ he]

/-- The rebuild writes the one record. -/
theorem rebuild_others {x : Nat} (hx : x ≠ e) : (s.rebuildSuspect e).elem x = s.elem x := by
  have hne := Ne.symm hx
  cases h : s.elem e with
  | unconfigured => simp only [State.rebuildSuspect, h, elem_notify]
  | point p => rw [rebuild_point (point_of_elem.2 h), elem_notify, elem_putElem_ne _ _ _ _ hne]
  | signal g => exact (rebuild_signal_rows (signal_of_elem.2 h)).2.1 x hx
  | track t => rw [rebuild_track (track_of_elem.2 h), elem_notify, writeTrack_elem, elem_putElem_ne _ _ _ _ hne]
  | boundary b => rw [rebuild_boundary (boundary_of_elem.2 h), elem_notify, elem_putElem_ne _ _ _ _ hne]

theorem rebuild_notice : .suspect e ∈ (s.rebuildSuspect e).notices := by
  simp [State.rebuildSuspect, State.notify]

/-- The entry that names an element is the first that does (R18). -/
theorem entryNaming_rows (s : State) (e : Nat) :
    (∀ n, s.entryNaming e = some n → ∃ f, s.fctEntry n = some f ∧ f.element = e)
    ∧ (s.entryNaming e = none → ∀ n f, s.fctEntry n = some f → f.element ≠ e) := by
  refine ⟨fun n h => ?_, fun h n f hf => ?_⟩
  · have hn := List.find?_some h
    cases hf : s.fctEntry n with
    | none => simp [hf] at hn
    | some f => exact ⟨f, rfl, by simpa [hf] using hn⟩
  · have hn : n < 128 := by
      by_contra hge
      simp [State.fctEntry, Vector.getD, hge] at hf
    have hnone := List.find?_eq_none.1 h n (List.mem_range.2 hn)
    simpa [hf] using hnone

/-! ### What the rebuild leaves of the desk -/

theorem putElem_desk (s : State) (e : Nat) (r : Element) :
    (s.putElem e r).desk = { s.desk with elements := (s.putElem e r).desk.elements } := by
  unfold State.putElem
  split
  · rfl
  · rw [desk_mark]
    rfl

theorem writeTrack_desk (s : State) (e : Nat) (t : TrackRec) : (s.writeTrack e t).desk = (s.putElem e (.track t)).desk := by
  unfold State.writeTrack
  refine foldl_keeps _ State.desk (fun u b => ?_) _
  split
  · rfl
  · exact desk_mark _ _

theorem desk_notify (s : State) (n : Notice) : (s.notify n).desk = s.desk := rfl

theorem rebuild_desk (s : State) (e : Nat) :
    (s.rebuildSuspect e).desk = { s.desk with elements := (s.rebuildSuspect e).desk.elements } := by
  cases h : s.elem e with
  | unconfigured => simp only [State.rebuildSuspect, h, desk_notify]
  | point p => rw [rebuild_point (point_of_elem.2 h), desk_notify, putElem_desk]
  | signal g =>
    rw [rebuild_signal (signal_of_elem.2 h), desk_notify,
      ((Walk.refl (gone := fun _ => True)).dropCmd e |>.enqueueStop e).desk, putElem_desk]
  | track t => rw [rebuild_track (track_of_elem.2 h), desk_notify, writeTrack_desk, putElem_desk]
  | boundary b => rw [rebuild_boundary (boundary_of_elem.2 h), desk_notify, putElem_desk]

theorem seen_isSuspect (r : Element) : r.seen.isSuspect = r.isSuspect := by cases r <;> rfl
theorem seen_block (r : Element) : r.seen.block? = r.block? := by cases r <;> rfl
theorem seen_area (r : Element) : r.seen.area? = r.area? := by cases r <;> rfl

/-- A rebuilt record is SUSPECT and blocked, in its own area. -/
theorem rebuild_blocked (h : s.elem e ≠ .unconfigured) :
    ((s.rebuildSuspect e).elem e).isSuspect = true
    ∧ ((s.rebuildSuspect e).elem e).block? = (s.elem e).block?.map (fun _ => true)
    ∧ ((s.rebuildSuspect e).elem e).area? = (s.elem e).area? := by
  have he : e < 256 := lt_of_elem h
  cases hk : s.elem e with
  | unconfigured => exact absurd hk h
  | point p =>
    rw [rebuild_point (point_of_elem.2 hk), elem_notify, elem_putElem_same _ _ _ he]
    exact ⟨rfl, rfl, rfl⟩
  | signal g =>
    rw [signal_of_elem.1 (rebuild_signal_rows (signal_of_elem.2 hk)).1]
    exact ⟨rfl, rfl, rfl⟩
  | track t =>
    rw [track_of_elem.1 (rebuild_track_record (track_of_elem.2 hk))]
    exact ⟨rfl, rfl, rfl⟩
  | boundary b =>
    rw [rebuild_boundary (boundary_of_elem.2 hk), elem_notify, elem_putElem_same _ _ _ he]
    exact ⟨rfl, rfl, rfl⟩

/-! ### A check of the record at the pointer -/

theorem exec_scrubCheck (x : ScrubResult) (s : State) : exec (.scrubCheck x) s = .next (State.finish s (s.scrubStep x)) := rfl

/-- The part with the pointer of the scrub at another record. -/
def State.pointerAt (s : State) (n : Nat) : State := { s with lkc := { s.lkc with scrub := n } }

theorem scrubStep_of_loaded (x : ScrubResult) (h : s.cfl.load = .operating) :
    s.scrubStep x = (s.scrubRecord x).pointerAt (((s.scrubRecord x).lkc.scrub + 1) % 256) := by
  rw [State.scrubStep, if_pos h]
  rfl

theorem scrubStep_of_unloaded (x : ScrubResult) (h : s.cfl.load ≠ .operating) : s.scrubStep x = s := by
  rw [State.scrubStep, if_neg h]

theorem scrubRecord_sound {x : ScrubResult}
    (h : x = .correct ∨ (x = .uncorrectable ∧ (s.elem s.lkc.scrub).isSuspect = true)) : s.scrubRecord x = s := by
  rcases h with rfl | ⟨rfl, hs⟩
  · rfl
  · cases hk : s.elem s.lkc.scrub <;> rw [hk] at hs
    · cases hs
    all_goals simp [State.scrubRecord, hk, hs]

theorem scrubRecord_corrected {x : ScrubResult}
    (h : x = .correctable ∨ (x = .uncorrectable ∧ s.elem s.lkc.scrub = .unconfigured)) :
    s.scrubRecord x = { s with lkc := { s.lkc with
      corrected := satInc s.lkc.corrected
      checks := s.lkc.checks.setIfInBounds s.lkc.scrub (Config.checkWordOf s.lkc.scrub (s.elem s.lkc.scrub)) } } := by
  rcases h with rfl | ⟨rfl, hk⟩
  · rfl
  · simp only [State.scrubRecord, hk, State.rewriteCheck]

theorem scrubRecord_rebuilt (hk : s.elem s.lkc.scrub ≠ .unconfigured) (hs : (s.elem s.lkc.scrub).isSuspect = false) :
    s.scrubRecord .uncorrectable = s.rebuildSuspect s.lkc.scrub := by
  cases he : s.elem s.lkc.scrub <;> rw [he] at hs
  · exact absurd he hk
  all_goals simp [State.scrubRecord, he, hs]

theorem rebuild_scrub (s : State) (e : Nat) : (s.rebuildSuspect e).lkc.scrub = s.lkc.scrub :=
  congrArg Desk.scrub (rebuild_desk s e)

/-- The pointer stands while its record is checked. -/
theorem scrubRecord_scrub (x : ScrubResult) : (s.scrubRecord x).lkc.scrub = s.lkc.scrub := by
  by_cases hc : x = .correctable ∨ (x = .uncorrectable ∧ s.elem s.lkc.scrub = .unconfigured)
  · rw [scrubRecord_corrected hc]
  · by_cases hs : x = .correct ∨ (x = .uncorrectable ∧ (s.elem s.lkc.scrub).isSuspect = true)
    · rw [scrubRecord_sound hs]
    · cases x with
      | correct => exact absurd (.inl rfl) hs
      | correctable => exact absurd (.inl rfl) hc
      | uncorrectable =>
        rw [scrubRecord_rebuilt (fun h => hc (.inr ⟨rfl, h⟩)) (by simpa using hs)]
        exact rebuild_scrub s _

theorem exec_scrubCheck_operating (x : ScrubResult) (h : s.cfl.load = .operating) :
    exec (.scrubCheck x) s = .next (State.finish s ((s.scrubRecord x).pointerAt ((s.lkc.scrub + 1) % 256))) := by
  rw [exec_scrubCheck, scrubStep_of_loaded x h, scrubRecord_scrub]

theorem finish_scrub (b u : State) : (State.finish b u).lkc.scrub = u.lkc.scrub := congrArg Desk.scrub (finish_desk b u)

/-- What the end of a step keeps of a record: what the field and the configuration show of it. -/
theorem finish_seen (b u : State) (x : Nat) : ((State.finish b u).elem x).seen = (u.elem x).seen :=
  seen_of_desk (finish_desk b u) x

/-- Settles O8: the record that stands, the one corrected, and the rebuild kind by kind; every step keeps the check
words. -/
theorem scrubChecksTheRecordAtThePointer : Obligations.ScrubChecksTheRecordAtThePointer := by
  refine ⟨fun x s => ⟨_, exec_scrubCheck x s, fun hl => ?_⟩, fun x s hn hl => ?_,
    fun x s hn hl => ⟨fun hx => ?_, fun hx => ?_, fun hx hk hs => ?_, fun hx hk hs => ?_⟩, fun s t => kept_checksRight.step⟩
  · rw [finish_scrub, scrubStep_of_loaded x hl, scrubRecord_scrub]
    rfl
  · rw [exec_scrubCheck, scrubStep_of_unloaded x hl, finish_self s hn]
  · rw [exec_scrubCheck_operating x hl, scrubRecord_sound hx]
    exact congrArg _ (finish_of_quiet s _ hn (fun _ h => h) fun _ h => h)
  · rw [exec_scrubCheck_operating x hl, scrubRecord_corrected hx]
    exact congrArg _ (finish_of_quiet s _ hn (fun _ h => h) fun _ h => h)
  · subst hx
    have he : s.lkc.scrub < 256 := lt_of_elem hk
    obtain ⟨hnamed, hunnamed⟩ := entryNaming_rows s s.lkc.scrub
    refine ⟨by rw [exec_scrubCheck_operating _ hl, scrubRecord_rebuilt hk hs]; rfl, fun p hp => ?_, fun g hg => ?_,
      fun y hy => rebuild_track_record hy, fun b hb => ?_, fun e he => rebuild_others he, rebuild_notice, hnamed, hunnamed⟩
    · rw [rebuild_point hp, point_of_elem, elem_notify, elem_putElem_same _ _ _ he]
    · obtain ⟨hrecord, -, hawaiting, hstop⟩ := rebuild_signal_rows hg
      exact ⟨hrecord, hawaiting, hstop⟩
    · rw [rebuild_boundary hb, boundary_of_elem, elem_notify, elem_putElem_same _ _ _ he]
  · subst hx
    obtain ⟨hsuspect, hblock, harea⟩ := rebuild_blocked hk
    have hd : ((s.rebuildSuspect s.lkc.scrub).pointerAt ((s.lkc.scrub + 1) % 256)).desk =
        { (s.rebuildSuspect s.lkc.scrub).desk with scrub := (s.lkc.scrub + 1) % 256 } := rfl
    refine ⟨_, by rw [exec_scrubCheck_operating _ hl, scrubRecord_rebuilt hk hs], finish_scrub _ _, ?_, ?_, ?_, ?_,
      fun e he => ?_, ?_⟩
    · have hc := congrArg Desk.corrected (rebuild_desk s s.lkc.scrub)
      exact (congrArg Desk.corrected (finish_desk _ _)).trans hc
    · rw [← seen_isSuspect, finish_seen, seen_isSuspect]
      exact hsuspect
    · rw [← seen_block, finish_seen, seen_block]
      exact hblock
    · rw [← seen_area, finish_seen, seen_area]
      exact harea
    · rw [finish_seen]
      exact congrArg Element.seen (rebuild_others he)
    · rw [finish_desk, finish_scrub, hd, rebuild_desk]
      rfl

end Sys2Proof.Machine
end

section
/-! Rounds and the arbiter (R23 to R26): the first POLL of a round, and the command the arbiter picks (O9, O10). -/

namespace Sys2Proof.Machine

variable {s : State}

/-! ### What a section change leaves of the desk -/

/-- The desk without the element records. -/
def State.besideElements (s : State) : Desk := { s.desk with elements := Vector.replicate 256 .unconfigured }

theorem besideElements_of_desk {t : State} (h : t.desk = s.desk) : t.besideElements = s.besideElements := by
  rw [State.besideElements, h]
  rfl

theorem bus_of_besideElements {u v : State} (h : u.besideElements = v.besideElements) :
    u.tbc.round = v.tbc.round ∧ u.tbc.exchange = v.tbc.exchange ∧ u.tbc.spacing = v.tbc.spacing :=
  ⟨(congrArg Desk.round h :), (congrArg Desk.exchange h :), (congrArg Desk.spacing h :)⟩

theorem writeTrack_besideElements (s : State) (e : Nat) (t : TrackRec) :
    (s.writeTrack e t).besideElements = s.besideElements := by
  unfold State.besideElements
  rw [writeTrack_desk, putElem_desk]

theorem sectionChange_besideElements (s : State) (e : Nat) (o : Occ) :
    (s.sectionChange e o).besideElements = s.besideElements := by
  by_cases hsame : ∀ t, s.track? e = some t → t.occupancy = o
  · rw [sectionChange_same o hsame]
  · obtain ⟨t, ht, ho⟩ : ∃ t, s.track? e = some t ∧ t.occupancy ≠ o := by simpa using hsame
    obtain ⟨hclear, hother⟩ := sectionChange_eq ht ho
    refine Eq.trans ?_ (writeTrack_besideElements s e { t with occupancy := o })
    by_cases hc : o = .clear
    · rw [hclear hc]
      exact besideElements_of_desk (Walk.refl (gone := fun _ => True)).retestTrigger.desk
    · rw [hother hc]
      exact besideElements_of_desk (Walk.foldl (gone := fun _ => True) (fun q h => h.failPoint q) _ .refl).desk

theorem handChanges_besideElements (s : State) (order : Schedule) (changes : List (Nat × Occ)) :
    (s.handChanges order changes).besideElements = s.besideElements :=
  handChanges_keeps State.besideElements sectionChange_besideElements (fun u => besideElements_of_desk (settle_desk u)) order
    changes

/-! ### Poll order (R23) -/

theorem perm_insertAddress (a : Nat) (l : List Nat) : (insertAddress a l).Perm (a :: l) := by
  induction l with
  | nil => exact .refl _
  | cons b l ih =>
    unfold insertAddress
    split
    · exact .refl _
    · exact (ih.cons b).trans (.swap a b l)

theorem insertAddress_sorted {a : Nat} {l : List Nat} (h : l.Pairwise (· ≤ ·)) : (insertAddress a l).Pairwise (· ≤ ·) := by
  induction l with
  | nil => exact List.pairwise_singleton _ _
  | cons b l ih =>
    obtain ⟨hb, hl⟩ := List.pairwise_cons.1 h
    unfold insertAddress
    split
    · rename_i hab
      refine List.pairwise_cons.2 ⟨fun x hx => ?_, h⟩
      rcases List.mem_cons.1 hx with rfl | hx
      · exact hab
      · exact Nat.le_trans hab (hb x hx)
    · rename_i hab
      refine List.pairwise_cons.2 ⟨fun x hx => ?_, ih hl⟩
      rcases List.mem_cons.1 ((perm_insertAddress a l).mem_iff.1 hx) with rfl | hx
      · exact Nat.le_of_not_le hab
      · exact hb x hx

/-- Addresses in ascending order, each row once. -/
theorem pollOrder_rows (s : State) : s.pollOrder.Pairwise (· ≤ ·) ∧ s.pollOrder.Perm (s.tbc.units.map UnitRow.address) := by
  unfold State.pollOrder
  induction s.tbc.units.map UnitRow.address with
  | nil => exact ⟨List.Pairwise.nil, .refl _⟩
  | cons a l ih => exact ⟨insertAddress_sorted ih.1, (perm_insertAddress _ _).trans (ih.2.cons a)⟩

/-! ### The start of a round (R23, R24) -/

theorem exec_roundStart (s : State) : exec .roundStart s = .next (State.finish s s.startRound) := rfl

/-- The bus is free, no round runs, and the next one is due. -/
def State.RoundDue (s : State) : Prop := s.tbc.exchange = none ∧ s.tbc.round = none ∧ s.tbc.spacing = .running 0

theorem startRound_of_busy (h : s.tbc.exchange ≠ none ∨ s.tbc.round ≠ none ∨ s.tbc.spacing ≠ .running 0) :
    s.startRound = s := by
  refine if_pos ?_
  simpa [Option.isSome_iff_ne_none, or_assoc] using h

/-- The round that starts: the spacing to the next, ALL-STOP where it is due, and the units to poll. -/
def State.roundBegun (s : State) : State :=
  { s with
    tbc := { s.tbc with spacing := .running 2, allStopDue := false, round := some s.pollOrder }
    out := s.out ++ if s.tbc.allStopDue then [.track 255 .allStop] else [] }

theorem startRound_operating (h : s.RoundDue) (hl : s.cfl.load = .operating) : s.startRound = s.roundBegun.nextPoll [] := by
  obtain ⟨he, hr, hs⟩ := h
  cases ha : s.tbc.allStopDue <;>
    simp [State.startRound, he, hr, hs, hl, ha, State.roundBegun, State.modTbc, State.send, State.pollOrder, Config.roundSpacing]

theorem startRound_configFault {code : Nat} (h : s.RoundDue) (hl : s.cfl.load = .configFault code) :
    s.startRound = { s with tbc := { s.tbc with spacing := .running 2 }, out := s.out ++ [.track 255 .allStop] } := by
  obtain ⟨he, hr, hs⟩ := h
  simp [State.startRound, he, hr, hs, hl, State.modTbc, State.send, Config.roundSpacing]

theorem nextPoll_of_cons {a : Nat} {rest : List Nat} (o : Schedule) (h : s.tbc.round = some (a :: rest)) :
    s.nextPoll o = { s with
      tbc := { s.tbc with exchange := some (.poll a), round := some rest }, out := s.out ++ [.track a .poll] } := by
  simp only [State.nextPoll, h]
  rfl

theorem nextPoll_of_last (o : Schedule) (h : s.tbc.round = some []) :
    s.nextPoll o = (State.roundComplete { s with tbc := { s.tbc with round := none } }).1.handChanges o
      (State.roundComplete { s with tbc := { s.tbc with round := none } }).2 := by
  simp only [State.nextPoll, h]
  rfl

/-- After the last POLL the bus stands with no round. -/
theorem nextPoll_last_bus (o : Schedule) (h : s.tbc.round = some []) :
    (s.nextPoll o).tbc.round = none ∧ (s.nextPoll o).tbc.exchange = s.tbc.exchange
      ∧ (s.nextPoll o).tbc.spacing = s.tbc.spacing := by
  obtain ⟨r, hr⟩ : ∃ r, r = State.roundComplete { s with tbc := { s.tbc with round := none } } := ⟨_, rfl⟩
  have htbc : r.1.tbc = { s.tbc with round := none } := hr ▸ roundComplete_rest.2
  obtain ⟨h1, h2, h3⟩ := bus_of_besideElements (handChanges_besideElements r.1 o r.2)
  rw [nextPoll_of_last o h, ← hr, h1, h2, h3, htbc]
  exact ⟨rfl, rfl, rfl⟩

/-- Settles O9: the poll order, and the start of a round by the load state and the units. -/
theorem roundStartPollsInAddressOrder : Obligations.RoundStartPollsInAddressOrder := by
  refine ⟨fun s a rest hn hl he hr hs hp => ?_, fun s hn hl he hr hs hu => ?_, fun s code hn hl he hr hs => ?_,
    fun s hn h => ?_, pollOrder_rows⟩
  · rw [exec_roundStart, startRound_operating ⟨he, hr, hs⟩ hl, nextPoll_of_cons [] (congrArg some hp :)]
    exact congrArg _ (finish_of_quiet s _ hn (fun _ h => h) fun _ h => h)
  · have hp : s.pollOrder = [] := by simp [State.pollOrder, hu]
    obtain ⟨h1, h2, h3⟩ := nextPoll_last_bus (s := s.roundBegun) [] (congrArg some hp :)
    refine ⟨_, exec_roundStart s, ?_⟩
    rw [startRound_operating ⟨he, hr, hs⟩ hl]
    have hd := finish_desk s (s.roundBegun.nextPoll [])
    exact ⟨(congrArg Desk.round hd).trans h1, (congrArg Desk.exchange hd).trans (h2.trans he),
      (congrArg Desk.spacing hd).trans h3⟩
  · rw [exec_roundStart, startRound_configFault ⟨he, hr, hs⟩ hl]
    exact congrArg _ (finish_of_quiet s _ hn (fun _ h => h) fun _ h => h)
  · rw [exec_roundStart, startRound_of_busy h, finish_self s hn]

/-! ### The arbiter (R26) -/

theorem oldest_eq_none {l : List QueuedCmd} : oldest l = none ↔ l = [] := by
  cases l with
  | nil => simp [oldest]
  | cons q l =>
    simp only [oldest, reduceCtorEq, iff_false]
    split
    · nofun
    · split <;> nofun

theorem oldest_eq_some {l : List QueuedCmd} {q : QueuedCmd} (h : oldest l = some q) : q ∈ l ∧ ∀ p ∈ l, q.age ≤ p.age := by
  induction l generalizing q with
  | nil => cases h
  | cons x l ih =>
    unfold oldest at h
    split at h
    · rename_i hl
      cases h
      simp [oldest_eq_none.1 hl]
    · rename_i r hr
      obtain ⟨hmem, hle⟩ := ih hr
      split at h
      · rename_i hx
        cases h
        exact ⟨List.mem_cons_self, List.forall_mem_cons.2 ⟨Nat.le_refl _, fun p hp => Nat.le_trans hx (hle p hp)⟩⟩
      · rename_i hx
        cases h
        exact ⟨List.mem_cons_of_mem _ hmem, List.forall_mem_cons.2 ⟨Nat.le_of_not_le hx, hle⟩⟩

theorem arbiter_eq_none : s.arbiter = none ↔ s.sendable = [] := by
  simp only [State.arbiter, Option.or_eq_none_iff, oldest_eq_none, and_iff_right_iff_imp]
  intro h
  rw [h]
  rfl

/-- A SHOW(STOP) before every other command, and of one class the oldest first. -/
theorem arbiter_eq_some {q : QueuedCmd} (h : s.arbiter = some q) : q ∈ s.sendable
    ∧ (q.telegram = .showAs .stop ∨ ∀ p ∈ s.sendable, p.telegram ≠ .showAs .stop)
    ∧ ∀ p ∈ s.sendable, (p.telegram = .showAs .stop ↔ q.telegram = .showAs .stop) → q.age ≤ p.age := by
  rcases Option.or_eq_some_iff.1 h with hstop | ⟨hnone, hany⟩
  · obtain ⟨hmem, hle⟩ := oldest_eq_some hstop
    obtain ⟨hq, ht⟩ := List.mem_filter.1 hmem
    have ht : q.telegram = .showAs .stop := beq_iff_eq.1 ht
    exact ⟨hq, .inl ht, fun p hp hpq => hle p (List.mem_filter.2 ⟨hp, beq_iff_eq.2 (hpq.2 ht)⟩)⟩
  · obtain ⟨hmem, hle⟩ := oldest_eq_some hany
    have hno := List.filter_eq_nil_iff.1 (oldest_eq_none.1 hnone)
    exact ⟨hmem, .inr fun p hp e => hno p hp (beq_iff_eq.2 e), fun p hp _ => hle p hp⟩

theorem mem_sendable {q : QueuedCmd} : q ∈ s.sendable ↔
    q ∈ s.tbc.queue ∧ ((s.unitAt q.address).map UnitRow.reachable).getD false = true := List.mem_filter

/-! ### A command exchange between rounds (R26) -/

theorem exec_commandExchangeStart (s : State) :
    exec .commandExchangeStart s = .next (State.finish s s.betweenRounds) := rfl

theorem startCommand_of_pick {q : QueuedCmd} (h : s.arbiter = some q) : s.startCommand = { s with
    tbc := { s.tbc with exchange := some (.command q.address q.telegram q.age) }
    out := s.out ++ [.track q.address q.telegram] } := by
  simp only [State.startCommand, h]
  rfl

theorem startCommand_of_none (h : s.arbiter = none) : s.startCommand = s := by
  simp only [State.startCommand, h]

theorem betweenRounds_of_unused (h : s.cfl.load ≠ .operating ∨ s.tbc.exchange ≠ none ∨ s.tbc.round ≠ none
    ∨ s.tbc.spacing = .running 0 ∨ s.arbiter = none) : s.betweenRounds = s := by
  unfold State.betweenRounds
  split
  · rename_i hb
    obtain ⟨hl, he, hr, hs⟩ := hb
    rcases h with h | h | h | h | h
    · exact absurd hl h
    · exact absurd he h
    · exact absurd hr h
    · exact absurd h hs
    · exact startCommand_of_none h
  · rfl

/-- Settles O10: the pick goes out between rounds, by the arbiter's order among the commands of REACHABLE units. -/
theorem theArbiterPicksStopFirstThenOldest : Obligations.TheArbiterPicksStopFirstThenOldest := by
  refine ⟨fun s q hn hl he hr hs ha => ?_, fun s hn h => ?_, fun s q => arbiter_eq_some, fun s => arbiter_eq_none,
    fun s q => mem_sendable⟩
  · rw [exec_commandExchangeStart, State.betweenRounds, if_pos ⟨hl, he, hr, hs⟩, startCommand_of_pick ha]
    exact congrArg _ (finish_of_quiet s _ hn (fun _ h => h) fun _ h => h)
  · rw [exec_commandExchangeStart, betweenRounds_of_unused h, finish_self s hn]

end Sys2Proof.Machine
end

section
/-! Missed exchanges (R27, R28): what the end of a bus step leaves of the counts, the units and the reported records, and
the unit that goes out of reach (O11). -/

namespace Sys2Proof.Machine

variable {s t : State} {e a : Nat}

/-! ### What the bus keeps after a report or a miss -/

/-- An element as its unit reports it: what the field shows, without the occupancy of a section. -/
def Element.face (r : Element) : Element :=
  match r.seen with
  | .track t => .track { t with occupancy := .clear }
  | x => x

/-- What the end of an exchange leaves as a report or a miss has left it: the count of misses, the units, what each
element reports, and the state and last counts of each detection point. -/
structure Tally where
  missed : Word16
  units : List UnitRow
  face : Nat → Element
  points : Nat → Option (DpState × Option (Byte × Byte))

def State.tally (s : State) : Tally where
  missed := s.tbc.missed
  units := s.tbc.units
  face e := (s.elem e).face
  points d := (s.dp d).map fun (r : DpRec) => (r.state, r.last)

theorem tally_congr (hm : t.tbc.missed = s.tbc.missed) (hu : t.tbc.units = s.tbc.units)
    (hf : ∀ x, (t.elem x).face = (s.elem x).face) (ha : t.ace = s.ace) : t.tally = s.tally := by
  simp only [State.tally, State.dp, hm, hu, hf, ha]

theorem face_congr {r x : Element} (h : r.seen = x.seen) : r.face = x.face := by
  rw [Element.face, h, Element.face]

theorem tally_of_desk (h : t.desk = s.desk) : t.tally = s.tally :=
  tally_congr (congrArg Desk.missed h) (units_of_desk h) (fun x => face_congr (seen_of_desk h x)) (ace_of_desk h)

theorem Walk.tally {gone : Nat → Prop} (h : Walk gone s t) : t.tally = s.tally := tally_of_desk h.desk

theorem finish_tally (b u : State) : (State.finish b u).tally = u.tally := tally_of_desk (finish_desk b u)

theorem writeTrack_tally {k : TrackRec} (h : s.track? e = some k) (o : Occ) :
    (s.writeTrack e { k with occupancy := o }).tally = s.tally := by
  have hb := writeTrack_besideElements s e { k with occupancy := o }
  refine tally_congr (congrArg Desk.missed hb :) (congrArg Desk.units hb :) (fun x => ?_) (congrArg Desk.ace hb :)
  rw [writeTrack_elem]
  by_cases hx : e = x
  · subst hx
    rw [elem_putElem_same _ _ _ (track_lt h), track_of_elem.1 h]
    rfl
  · rw [elem_putElem_ne _ _ _ _ hx]

theorem sectionChange_tally (s : State) (e : Nat) (o : Occ) : (s.sectionChange e o).tally = s.tally := by
  by_cases hsame : ∀ k, s.track? e = some k → k.occupancy = o
  · rw [sectionChange_same o hsame]
  · obtain ⟨k, hk, ho⟩ : ∃ k, s.track? e = some k ∧ k.occupancy ≠ o := by simpa using hsame
    obtain ⟨hclear, hother⟩ := sectionChange_eq hk ho
    refine Eq.trans ?_ (writeTrack_tally hk o)
    by_cases hc : o = .clear
    · rw [hclear hc]
      exact (Walk.refl (gone := fun _ => True)).retestTrigger.tally
    · rw [hother hc]
      exact (Walk.foldl (gone := fun _ => True) (fun q h => h.failPoint q) _ .refl).tally

theorem handChanges_tally (s : State) (order : Schedule) (changes : List (Nat × Occ)) :
    (s.handChanges order changes).tally = s.tally :=
  handChanges_keeps State.tally sectionChange_tally (fun u => tally_of_desk (settle_desk u)) order changes

theorem evaluateSection_lkc (p : State × List (Nat × Occ)) (x : Nat) : (State.evaluateSection p x).1.lkc = p.1.lkc := by
  unfold State.evaluateSection
  split
  · exact putCount_lkc ..
  · rfl

/-- What every step of a fold keeps, the fold keeps. -/
theorem foldl_kept {α β γ : Type} (g : γ → β) {f : γ → α → γ} (h : ∀ c x, g (f c x) = g c) (l : List α) (c : γ) :
    g (l.foldl f c) = g c := by
  induction l generalizing c with
  | nil => rfl
  | cons x l ih => exact (ih _).trans (h c x)

theorem roundComplete_lkc (s : State) : s.roundComplete.1.lkc = s.lkc := by
  have hfold := foldl_kept (fun p : State × List (Nat × Occ) => p.1.lkc) evaluateSection_lkc
    (List.range Config.elementCount) (s, [])
  unfold State.roundComplete
  generalize (List.range Config.elementCount).foldl State.evaluateSection (s, []) = z at hfold ⊢
  exact hfold

theorem roundComplete_tally (s : State) : s.roundComplete.1.tally = s.tally := by
  obtain ⟨hdp, htbc⟩ := roundComplete_rest (s := s)
  have helem : ∀ x, s.roundComplete.1.elem x = s.elem x := fun x => by
    rw [State.elem, roundComplete_lkc]
    rfl
  have hpoint : ∀ d, (s.roundComplete.1.dp d).map (fun (r : DpRec) => (r.state, r.last))
      = (s.dp d).map fun (r : DpRec) => (r.state, r.last) := fun d => by
    rw [hdp]
    cases s.dp d <;> rfl
  simp only [State.tally, helem, htbc, hpoint]

theorem nextPoll_tally (s : State) (o : Schedule) : (s.nextPoll o).tally = s.tally := by
  cases hr : s.tbc.round with
  | none => simp only [State.nextPoll, hr]
  | some l =>
    cases l with
    | nil =>
      rw [nextPoll_of_last o hr, handChanges_tally, roundComplete_tally]
      rfl
    | cons x rest =>
      rw [nextPoll_of_cons o hr]
      rfl

theorem startCommand_tally (s : State) : s.startCommand.tally = s.tally := by
  cases ha : s.arbiter with
  | none => rw [startCommand_of_none ha]
  | some q =>
    rw [startCommand_of_pick ha]
    rfl

/-- The bus goes on after a POLL without a count, a unit, a report or a detection point's state changed. -/
theorem afterPoll_tally (s : State) (o : Schedule) : (s.afterPoll o).tally = s.tally := by
  unfold State.afterPoll
  (repeat' split) <;> simp only [startCommand_tally, nextPoll_tally]

theorem afterCommand_tally (s : State) (o : Schedule) : (s.afterCommand o).tally = s.tally := by
  unfold State.afterCommand
  split
  · exact nextPoll_tally s o
  · rfl

theorem attemptAnswered_walk {gone : Nat → Prop} (u : UnitRow) (x : TrackTelegram) (f : Option (Option RejectReason)) :
    Walk gone s (s.commandAnswered u x f) := by
  have w : Walk gone s s := .refl
  have answered : Walk gone s (s.stopAnswered u.serves) := by
    unfold State.stopAnswered
    repeat' split
    · exact w
    · exact w.putCmd _ _
    · exact w
  unfold State.commandAnswered
  split
  · unfold State.throwAcked
    repeat' split
    · exact w.putDrive _ _
    · exact w
    · exact w
  · unfold State.throwFailed
    repeat' split
    · exact w.attemptEnds _ _
    · exact w.withdrawDrive _
    · exact w.failPoint _
    · exact w
  · exact answered
  · exact answered.signalFailed _
  · exact w
  · unfold State.showProceedFailed
    split
    · exact w.proceedFails _
    · exact w
  · exact w

theorem setCmdMisses_tally (s : State) (a n : Nat) : (s.setCmdMisses a n).tally = s.tally := rfl

/-- A missed command leaves the tally of the miss itself. -/
theorem missedCommand_tally {u : UnitRow} (o : Schedule) (a age : Nat) (x : TrackTelegram) (hu : s.unitAt a = some u) :
    (s.missedCommand o a age x).tally = (s.missed o a).tally := by
  by_cases hl : 3 ≤ u.misses + 1 ∧ u.reachable = true
  · rw [missedCommand_lost o hu hl]
  · obtain ⟨hgone, hqueued⟩ := missedCommand_rows (age := age) (tel := x) o hu hl
    cases hq : s.stillQueued a age with
    | none => rw [hgone hq]
    | some q =>
      obtain ⟨hkept, hfailed⟩ := hqueued q hq
      rcases Nat.lt_or_ge (q.misses + 1) 3 with h | h
      · rw [hkept h, setCmdMisses_tally]
      · rw [hfailed h, (attemptAnswered_walk (gone := fun _ => True) u x _).tally]
        rfl

/-! ### Records by their faces -/

theorem point_of_face {p : PointRec} (h : (t.elem e).face = (s.elem e).face) (hp : s.point? e = some p) :
    ∃ p', t.point? e = some p' ∧ p'.detection = p.detection ∧ p'.localMode = p.localMode := by
  rw [point_of_elem.1 hp] at h
  cases hk : t.elem e with
  | point q =>
    rw [hk] at h
    have hf : q.detection = p.detection ∧ q.localMode = p.localMode := by
      simp only [Element.face, Element.seen, Element.point.injEq] at h
      exact ⟨(congrArg PointRec.detection h :), (congrArg PointRec.localMode h :)⟩
    exact ⟨q, point_of_elem.2 hk, hf⟩
  | _ => simp [hk, Element.face, Element.seen] at h

theorem signal_of_face {g : SignalRec} (h : (t.elem e).face = (s.elem e).face) (hg : s.signal? e = some g) :
    ∃ g', t.signal? e = some g' ∧ g'.shown = g.shown ∧ g'.lampFault = g.lampFault := by
  rw [signal_of_elem.1 hg] at h
  cases hk : t.elem e with
  | signal q =>
    rw [hk] at h
    have hf : q.shown = g.shown ∧ q.lampFault = g.lampFault := by
      simp only [Element.face, Element.seen, Element.signal.injEq] at h
      exact ⟨(congrArg SignalRec.shown h :), (congrArg SignalRec.lampFault h :)⟩
    exact ⟨q, signal_of_elem.2 hk, hf⟩
  | _ => simp [hk, Element.face, Element.seen] at h

theorem point_of_tally {p : PointRec} (h : t.tally = s.tally) (hp : s.point? e = some p) :
    ∃ p', t.point? e = some p' ∧ p'.detection = p.detection ∧ p'.localMode = p.localMode :=
  point_of_face (congrFun (congrArg Tally.face h) e) hp

theorem signal_of_tally {g : SignalRec} (h : t.tally = s.tally) (hg : s.signal? e = some g) :
    ∃ g', t.signal? e = some g' ∧ g'.shown = g.shown ∧ g'.lampFault = g.lampFault :=
  signal_of_face (congrFun (congrArg Tally.face h) e) hg

theorem dp_of_tally {d : Nat} {r : DpRec} (h : t.tally = s.tally) (hr : s.dp d = some r) :
    ∃ r', t.dp d = some r' ∧ r'.state = r.state ∧ r'.last = r.last := by
  have hd : (t.dp d).map (fun (r : DpRec) => (r.state, r.last)) = some (r.state, r.last) := by
    simpa [State.tally, hr] using congrFun (congrArg Tally.points h) d
  obtain ⟨r', hr', he⟩ := Option.map_eq_some_iff.1 hd
  exact ⟨r', hr', (Prod.mk.inj he).1, (Prod.mk.inj he).2⟩

/-! ### A unit out of reach (R28) -/

/-- The bus with a miss that takes a unit out of reach counted, before the effects by its kind. -/
def State.outOfReach (s : State) (u : UnitRow) : State :=
  (s.modTbc fun t => { t with missed := satInc t.missed }).putUnit { u with misses := 3, reachable := false }

theorem missed_lost {u : UnitRow} (o : Schedule) (hu : s.unitAt a = some u) (hm : 3 ≤ u.misses + 1) (hr : u.reachable = true) :
    s.missed o a = (s.outOfReach u).unitLost o u := by
  have hu' : (s.modTbc fun t => { t with missed := satInc t.missed }).unitAt a = some u := hu
  have h3 : min 3 (u.misses + 1) = 3 := Nat.min_eq_left hm
  simp only [State.missed, hu', h3, hr, and_self, if_true]
  rfl

theorem unitLost_ch {u : UnitRow} (o : Schedule) (hk : u.kind = .ch) :
    s.unitLost o u = (s.chUnreachable u.serves).1.handChanges o (s.chUnreachable u.serves).2 := by
  simp only [State.unitLost, hk]

theorem unitLost_pdu {u : UnitRow} (o : Schedule) (hk : u.kind = .pdu) :
    s.unitLost o u = (s.dequeue u.address).pduUnreachable u.serves := by
  simp only [State.unitLost, hk]

theorem unitLost_sdu {u : UnitRow} (o : Schedule) (hk : u.kind = .sdu) :
    s.unitLost o u = (s.setCmdMisses u.address 0).sduUnreachable u.serves := by
  simp only [State.unitLost, hk]

theorem modPoint_tbc_all (s : State) (e : Nat) (f : PointRec → PointRec) : (s.modPoint e f).tbc = s.tbc := by
  cases h : s.point? e with
  | none => simp only [State.modPoint, h]
  | some p => exact modPoint_tbc h f

theorem modSignal_tbc_all (s : State) (e : Nat) (f : SignalRec → SignalRec) : (s.modSignal e f).tbc = s.tbc := by
  cases h : s.signal? e with
  | none => simp only [State.modSignal, h]
  | some g => exact modSignal_tbc h f

theorem pauseDrive_tbc (s : State) (e : Nat) : (s.pauseDrive e).tbc = s.tbc := by
  unfold State.pauseDrive
  (repeat' split) <;> simp

theorem pduUnreachable_tbc (s : State) (e : Nat) : (s.pduUnreachable e).tbc = s.tbc := by
  rw [State.pduUnreachable, pauseDrive_tbc, modPoint_tbc_all]

theorem pauseDrive_elem (s : State) (e x : Nat) : (s.pauseDrive e).elem x = s.elem x := by
  unfold State.pauseDrive
  (repeat' split) <;> simp

theorem pduUnreachable_point {p : PointRec} (h : s.point? e = some p) :
    (s.pduUnreachable e).point? e = some { p with detection := .unknown } := by
  rw [State.pduUnreachable, point_of_elem, pauseDrive_elem]
  exact point_of_elem.1 (modPoint_point h _)

theorem disturbBorders_dp (d x : Nat) (l : List (Nat × Orient)) (p : State × List (Nat × Occ)) :
    (l.foldl (State.disturbBorder d) p).1.dp x = p.1.dp x := by
  refine foldl_kept (fun q : State × List (Nat × Occ) => q.1.dp x) (fun q b => ?_) l p
  unfold State.disturbBorder
  split
  · split
    · rfl
    · unfold State.putCount
      split <;> rfl
  · rfl

theorem failDp_dp {d : Nat} (h : d < 120) (r : DpRec) (c : DpCause) (l : Option (Byte × Byte)) :
    (s.failDp d r c l).1.dp d = some { r with state := .failed c, last := l, pendingA := 0, pendingB := 0 } := by
  rw [State.failDp, disturbBorders_dp, writeDp_dp _ _ h]

theorem chUnreachable_dp {d : Nat} {r : DpRec} (h : s.dp d = some r) (hn : r.state = .normal) :
    (s.chUnreachable d).1.dp d =
      some { r with state := .failed .noAnswer, last := r.last, pendingA := 0, pendingB := 0 } := by
  simp only [State.chUnreachable, h, hn, beq_self_eq_true, if_true]
  exact failDp_dp (dp_lt h) r _ _

theorem sduUnreachable_walk {gone : Nat → Prop} (s : State) (e : Nat) :
    Walk gone (s.modSignal e fun g => { g with shown := .unknown }) (s.sduUnreachable e) := by
  unfold State.sduUnreachable
  dsimp only
  (repeat' split) <;> first
    | exact Walk.refl
    | exact Walk.refl.proceedFails e

/-- What a miss leaves of the counts and the unit, and of the records of a unit it takes out of reach. -/
theorem missed_rows {u : UnitRow} (o : Schedule) (hu : s.unitAt a = some u) :
    (s.missed o a).tbc.missed = satInc s.tbc.missed
    ∧ (s.missed o a).tbc.units = s.tbc.units.map (fun v => if v.address == u.address then
        { u with misses := min 3 (u.misses + 1), reachable := u.reachable && decide (u.misses + 1 < 3) } else v)
    ∧ (3 ≤ u.misses + 1 → u.reachable = true →
        (u.kind = .pdu → ∀ p, s.point? u.serves = some p →
          (s.missed o a).point? u.serves = some { p with detection := .unknown })
        ∧ (u.kind = .sdu → ∀ g, s.signal? u.serves = some g →
          ∃ g', (s.missed o a).signal? u.serves = some g' ∧ g'.shown = .unknown)
        ∧ (u.kind = .ch → ∀ r, s.dp u.serves = some r → r.state = .normal →
            ∃ r', (s.missed o a).dp u.serves = some r' ∧ r'.state = .failed .noAnswer)) := by
  by_cases hl : 3 ≤ u.misses + 1 ∧ u.reachable = true
  · obtain ⟨hm, hr⟩ := hl
    have hunits : { u with misses := min 3 (u.misses + 1), reachable := u.reachable && decide (u.misses + 1 < 3) }
        = { u with misses := 3, reachable := false } := by
      simp [Nat.min_eq_left hm, Nat.not_lt.2 hm]
    rw [missed_lost o hu hm hr, hunits]
    have hkind : u.kind = .ch ∨ u.kind = .pdu ∨ u.kind = .sdu := by
      cases u.kind <;> simp
    rcases hkind with hk | hk | hk
    · have other {k : UnitKind} (hne : k ≠ .ch) : u.kind ≠ k := fun h => hne (h.symm.trans hk)
      rw [unitLost_ch o hk]
      have htally := handChanges_tally ((s.outOfReach u).chUnreachable u.serves).1 o
        ((s.outOfReach u).chUnreachable u.serves).2
      have htbc := chUnreachable_tbc (s := s.outOfReach u) u.serves
      refine ⟨(congrArg Tally.missed htally).trans (congrArg Tbc.missed htbc),
        (congrArg Tally.units htally).trans (congrArg Tbc.units htbc),
        fun _ _ => ⟨fun h => absurd h (other nofun), fun h => absurd h (other nofun), fun _ r hd hn => ?_⟩⟩
      obtain ⟨r', hr', hs, -⟩ := dp_of_tally htally (chUnreachable_dp (s := s.outOfReach u) hd hn)
      exact ⟨r', hr', hs⟩
    · have other {k : UnitKind} (hne : k ≠ .pdu) : u.kind ≠ k := fun h => hne (h.symm.trans hk)
      rw [unitLost_pdu o hk]
      have htbc := pduUnreachable_tbc ((s.outOfReach u).dequeue u.address) u.serves
      exact ⟨congrArg Tbc.missed htbc, congrArg Tbc.units htbc, fun _ _ => ⟨fun _ p hp =>
        pduUnreachable_point (s := (s.outOfReach u).dequeue u.address) hp,
        fun h => absurd h (other nofun), fun h => absurd h (other nofun)⟩⟩
    · have other {k : UnitKind} (hne : k ≠ .sdu) : u.kind ≠ k := fun h => hne (h.symm.trans hk)
      rw [unitLost_sdu o hk]
      have hw := (sduUnreachable_walk (gone := fun _ => True) ((s.outOfReach u).setCmdMisses u.address 0) u.serves).tally
      have htbc := modSignal_tbc_all ((s.outOfReach u).setCmdMisses u.address 0) u.serves fun g => { g with shown := .unknown }
      refine ⟨(congrArg Tally.missed hw).trans (congrArg Tbc.missed htbc),
        (congrArg Tally.units hw).trans (congrArg Tbc.units htbc), fun _ _ =>
          ⟨fun h => absurd h (other nofun), fun _ g hg => ?_, fun h => absurd h (other nofun)⟩⟩
      obtain ⟨g', hg', hs, -⟩ := signal_of_tally hw (modSignal_signal (s := (s.outOfReach u).setCmdMisses u.address 0) hg _)
      exact ⟨g', hg', hs⟩
  · have hunits : u.reachable = (u.reachable && decide (u.misses + 1 < 3)) := by
      cases hr : u.reachable with
      | false => rfl
      | true =>
        have : u.misses + 1 < 3 := Nat.lt_of_not_le fun h => hl ⟨h, hr⟩
        simp [this]
    rw [missed_counts o hu hl, ← hunits]
    exact ⟨rfl, rfl, fun hm hr => absurd ⟨hm, hr⟩ hl⟩

/-! ### The end of an exchange without a good answer (R22, R23, R27) -/

theorem exec_pollExchangeEnd (x : List Byte) (o : Schedule) (s : State) :
    exec (.pollExchangeEnd x o) s = execPollExchangeEnd x o s := rfl

theorem exec_commandExchangeEnd (x : List Byte) (s : State) :
    exec (.commandExchangeEnd x) s = execCommandExchangeEnd x s := rfl

theorem exec_exchangeAnswerTimeout (o : Schedule) (s : State) :
    exec (.exchangeAnswerTimeout o) s = execExchangeAnswerTimeout o s := rfl

/-- A POLL that ends without a good answer: by timeout, or by bytes that are none. -/
theorem missedPoll_ends {u : UnitRow} {x : List Byte} {o : Schedule} {c : Instr} (hu : s.unitAt a = some u)
    (hx : s.tbc.exchange = some (.poll a))
    (hc : c = .exchangeAnswerTimeout o ∨ (c = .pollExchangeEnd x o ∧ pollAnswer u x = none)) :
    exec c s = .next (State.finish s ((s.freeBus.missed o a).afterPoll o)) := by
  have hu' : s.freeBus.unitAt a = some u := hu
  rcases hc with rfl | ⟨rfl, hn⟩
  · simp only [exec_exchangeAnswerTimeout, execExchangeAnswerTimeout, hx, State.pollEnds, hu', Option.bind_some,
      Option.bind_none, Option.map_none]
  · simp only [exec_pollExchangeEnd, execPollExchangeEnd, hx, State.pollEnds, hu', Option.bind_some, hn, Option.map_none]

theorem missedCommand_ends {u : UnitRow} {x : List Byte} {o : Schedule} {c : Instr} {age : Nat} {tel : TrackTelegram}
    (hu : s.unitAt a = some u) (hx : s.tbc.exchange = some (.command a tel age))
    (hc : c = .exchangeAnswerTimeout o ∨ (c = .commandExchangeEnd x ∧ commandAnswer u x = none)) :
    ∃ p, (c = .exchangeAnswerTimeout o → p = o) ∧ (c = .commandExchangeEnd x → p = [])
      ∧ exec c s = .next (State.finish s ((s.freeBus.missedCommand p a age tel).afterCommand p)) := by
  have hu' : s.freeBus.unitAt a = some u := hu
  rcases hc with rfl | ⟨rfl, hn⟩
  · refine ⟨o, fun _ => rfl, nofun, ?_⟩
    simp only [exec_exchangeAnswerTimeout, execExchangeAnswerTimeout, hx, State.commandEnds, hu', Option.bind_some,
      Option.bind_none, Option.map_none]
  · refine ⟨[], nofun, fun _ => rfl, ?_⟩
    simp only [exec_commandExchangeEnd, execCommandExchangeEnd, hx, State.commandEnds, hu', Option.bind_some, hn,
      Option.map_none]

/-- A missed exchange counts, whatever was asked of the unit. -/
theorem missedExchange_counts {u : UnitRow} {age : Nat} {tel : TrackTelegram} {x : List Byte} {o : Schedule} {c : Instr}
    (hu : s.unitAt a = some u)
    (h : (s.tbc.exchange = some (.poll a)
        ∧ (c = .exchangeAnswerTimeout o ∨ (c = .pollExchangeEnd x o ∧ pollAnswer u x = none)))
      ∨ (s.tbc.exchange = some (.command a tel age)
        ∧ (c = .exchangeAnswerTimeout o ∨ (c = .commandExchangeEnd x ∧ commandAnswer u x = none)))) :
    ∃ p t, exec c s = .next t ∧ t.tally = (s.freeBus.missed p a).tally := by
  have hu' : s.freeBus.unitAt a = some u := hu
  rcases h with ⟨hx, hc⟩ | ⟨hx, hc⟩
  · exact ⟨o, _, missedPoll_ends hu hx hc, by rw [finish_tally, afterPoll_tally]⟩
  · obtain ⟨p, -, -, he⟩ := missedCommand_ends hu hx hc
    exact ⟨p, _, he, by rw [finish_tally, afterCommand_tally, missedCommand_tally p a age tel hu']⟩

/-! ### The unit's row and its queued command (R25, R28) -/

/-- A row rewritten under its address, kind and object is found as the row was. -/
theorem unitOf_putUnit {k : UnitKind} {u v : UnitRow} (h : s.unitOf k e = some u) (ha : v.address = u.address)
    (hk : v.kind = u.kind) (hs : v.serves = u.serves) : (s.putUnit v).unitOf k e = some v := by
  unfold State.unitOf at h ⊢
  unfold State.putUnit State.modTbc
  dsimp only
  have hv : (v.kind == k && v.serves == e) = true := by
    rw [hk, hs]
    exact List.find?_some (p := fun x : UnitRow => x.kind == k && x.serves == e) h
  revert h
  generalize s.tbc.units = l
  induction l with
  | nil => exact nofun
  | cons x l ih =>
    intro h
    rw [List.map_cons]
    by_cases hx : x.address = v.address
    · simp [hx, hv]
    · have hx' : (x.address == v.address) = false := by simpa using hx
      have hne : ¬ (x.kind == k && x.serves == e) = true := fun hp => by
        rw [List.find?_cons_of_pos (p := fun x : UnitRow => x.kind == k && x.serves == e) hp] at h
        exact hx (Option.some.inj h ▸ ha.symm)
      rw [List.find?_cons_of_neg (p := fun x : UnitRow => x.kind == k && x.serves == e) hne] at h
      simp only [hx', Bool.false_eq_true, if_false]
      rw [List.find?_cons_of_neg (p := fun x : UnitRow => x.kind == k && x.serves == e) hne]
      exact ih h

/-- A unit taken out of reach with a command queued: a THROW withdrawn and its drive paused; a SHOW kept with miss count 0,
and a PROCEED unsuccessful. -/
theorem missed_lost_command {u : UnitRow} (o : Schedule) (hu : s.unitAt a = some u) (hm : 3 ≤ u.misses + 1)
    (hr : u.reachable = true) :
    (u.kind = .pdu → (s.missed o a).queuedAt a = none
      ∧ ∀ p d, s.point? u.serves = some p → s.drive u.serves = some d → d.state = .active →
        (s.missed o a).drive u.serves = some { d with state := .paused, timer := d.timer.freeze })
    ∧ (u.kind = .sdu → ∀ g, s.signal? u.serves = some g →
      (g.commanded = .stop → (s.missed o a).tbc.queue =
        s.tbc.queue.map (fun p => if p.address == a then { p with misses := 0 } else p))
      ∧ (g.commanded = .proceed → s.unitOf .sdu u.serves = some u →
        (s.missed o a).signal? u.serves = some { g with shown := .unknown, commanded := .stop }
        ∧ (s.missed o a).queuedAt a = some ⟨a, .showAs .stop, s.tbc.nextAge, 0⟩
        ∧ (s.missed o a).cmd u.serves = ⟨.stopped, true⟩
        ∧ ∀ i, g.entrySlot = .held i → .signalNotCleared i u.serves ∈ (s.missed o a).notices)) := by
  obtain rfl := address_of_unitAt hu
  rw [missed_lost o hu hm hr]
  refine ⟨fun hk => ?_, fun hk g hg => ?_⟩
  · rw [unitLost_pdu o hk]
    obtain ⟨w, hw⟩ : ∃ w, w = (s.outOfReach u).dequeue u.address := ⟨_, rfl⟩
    have hqueued : w.queuedAt u.address = none := hw ▸ queuedAt_dequeue (s := s.outOfReach u) u.address
    refine ⟨?_, fun p d hp hd hact => ?_⟩
    · rw [← hw, State.queuedAt, pduUnreachable_tbc]
      exact hqueued
    · have hp' : w.point? u.serves = some p := hw ▸ hp
      have hd' : (w.modPoint u.serves fun p => { p with detection := .unknown }).drive u.serves = some d := by
        rw [modPoint_drive hp']
        exact hw ▸ hd
      rw [← hw]
      exact pauseDrive_pauses (lt_of_point hp) hd' hact
  · rw [unitLost_sdu o hk]
    obtain ⟨w, hw⟩ : ∃ w, w = (s.outOfReach u).setCmdMisses u.address 0 := ⟨_, rfl⟩
    have hg' : w.signal? u.serves = some g := hw ▸ hg
    have hs := modSignal_signal hg' fun g => { g with shown := .unknown }
    have htbc := modSignal_tbc_all w u.serves fun g => { g with shown := .unknown }
    rw [← hw]
    unfold State.sduUnreachable
    simp only [hs]
    refine ⟨fun hc => ?_, fun hc hunit => ?_⟩
    · rw [hc]
      refine (congrArg Tbc.queue htbc).trans ?_
      rw [hw]
      rfl
    · have hunit' : (w.modSignal u.serves fun g => { g with shown := .unknown }).unitOf .sdu u.serves
          = some { u with misses := 3, reachable := false } := by
        rw [unitOf_of_units (congrArg Tbc.units htbc), hw]
        exact unitOf_putUnit (s := s.modTbc fun t => { t with missed := satInc t.missed }) hunit rfl rfl rfl
      obtain ⟨h1, h2, h3, h4⟩ := proceedFails_rows hs hunit'
      simp only [hc, beq_self_eq_true, if_true]
      refine ⟨h1, ?_, h2, h4⟩
      rw [htbc] at h3
      exact hw ▸ h3

/-- Settles O11: the counts and the unit, the command by its age stamp and its misses, and the unit out of reach. -/
theorem aMissedExchangeCounts : Obligations.AMissedExchangeCounts := by
  refine ⟨fun s u a age tel x o c hu h => ?_, fun s u a age tel x o c hx hu hc => ?_, fun s u a age tel o hu =>
    ⟨fun hl => ?_, fun hm hr => ?_⟩, fun s u => commandAnswered_noAnswer u, fun s o hn hx => ?_⟩
  · obtain ⟨p, t, ht, htally⟩ := missedExchange_counts hu h
    obtain ⟨hmissed, hunits, hlost⟩ := missed_rows (s := s.freeBus) p hu
    refine ⟨t, ht, (congrArg Tally.missed htally).trans hmissed, (congrArg Tally.units htally).trans hunits, fun hm hr => ?_⟩
    obtain ⟨hpdu, hsdu, hch⟩ := hlost hm hr
    refine ⟨fun hk p hp => ?_, fun hk g hg => ?_, fun hk r hd hn => ?_⟩
    · obtain ⟨p', hp', hdet, -⟩ := point_of_tally htally (hpdu hk p hp)
      exact ⟨p', hp', hdet⟩
    · obtain ⟨g', hg', hshown⟩ := hsdu hk g hg
      obtain ⟨g'', hg'', hs, -⟩ := signal_of_tally htally hg'
      exact ⟨g'', hg'', hs.trans hshown⟩
    · obtain ⟨r', hr', hstate⟩ := hch hk r hd hn
      obtain ⟨r'', hr'', hs, -⟩ := dp_of_tally htally hr'
      exact ⟨r'', hr'', hs.trans hstate⟩
  · obtain ⟨p, hpt, hpe, he⟩ := missedCommand_ends (x := x) (o := o) hu hx (hc.imp id fun h => ⟨h.1, h.2.1⟩)
    obtain rfl : p = o := hc.elim hpt fun h => (hpe h.1).trans h.2.2.symm
    exact he
  · have hl' : ¬ (3 ≤ u.misses + 1 ∧ u.reachable = true) := fun h => by
      rcases hl with hm | hr
      · exact Nat.not_le_of_lt hm h.1
      · exact absurd h.2 (by simp [hr])
    obtain ⟨hgone, hqueued⟩ := missedCommand_rows (age := age) (tel := tel) o hu hl'
    have hmissed := missed_counts o hu hl'
    refine ⟨by rw [hmissed], by rw [hmissed], hgone, fun q hq => ⟨fun hm => ?_, (hqueued q hq).2⟩⟩
    rw [(hqueued q hq).1 hm, hmissed]
    exact ⟨rfl, rfl⟩
  · exact ⟨missedCommand_lost o hu ⟨hm, hr⟩, missed_lost_command o hu hm hr⟩
  · rw [exec_exchangeAnswerTimeout, execExchangeAnswerTimeout, hx]
    exact congrArg _ (finish_self s hn)

end Sys2Proof.Machine
end

section
/-! Good answers: a POLL's report handed on (R23, R26: O12) and an answered command (R22, R27: O13). -/

namespace Sys2Proof.Machine

variable {s t : State} {e a : Nat}

/-! ### What a report leaves as reported -/

theorem pduReport_walk {gone : Nat → Prop} (d : PduDetection) (f : Bool) :
    Walk gone (s.modPoint e fun p => { p with detection := reportedDetection d, localMode := f }) (s.pduReport e d f) := by
  unfold State.pduReport
  dsimp only
  generalize s.modPoint e (fun p => { p with detection := reportedDetection d, localMode := f }) = t
  have w : Walk gone t t := .refl
  split
  · split
    · exact w.completeDrive e _
    · split
      · exact w.withdrawDrive e
      · exact w
  · exact w

theorem sduReport_walk {gone : Nat → Prop} (x : SduAspect) (f : Bool) :
    Walk gone (s.modSignal e fun g => { g with shown := reportedAspect x, lampFault := f }) (s.sduReport e x f) := by
  unfold State.sduReport
  dsimp only
  generalize s.modSignal e (fun g => { g with shown := reportedAspect x, lampFault := f }) = t
  have w : Walk gone t t := .refl
  split
  · exact w
  · split
    · split
      · exact (w.dropCmd e).notifyAll _ (by simp)
      · exact w
    · split
      · split
        · exact w
        · exact w.proceedFails e
      · split
        · exact ((w.signalFailed e).enqueueStop e).mark _
        · exact w

theorem resumeDrive_walk {gone : Nat → Prop} : Walk gone s (s.resumeDrive e) := by
  have w : Walk gone s s := .refl
  unfold State.resumeDrive
  split
  · split
    · split
      · exact w.completeDrive e _
      · dsimp only
        split
        · exact w.dropNext e
        · split
          · exact (w.dropNext e).failPoint e
          · exact ((w.dropNext e).putDrive e _).enqueueThrow e _
    · exact w
  · exact w

/-- A CH report leaves its point FAILED with the counts as they were, or its counts as the last counts. -/
theorem chReport_dp {d : Nat} {r : DpRec} (misses : Nat) (m n : Byte) (f : Bool) (h : s.dp d = some r) :
    ∃ r', (s.chReport d misses m n f).1.dp d = some r'
      ∧ (f = true → r'.state = .failed .sensorFault ∧ r'.last = r.last) ∧ (f = false → r'.last = some (m, n)) := by
  have hd := dp_lt h
  simp only [State.chReport, h]
  cases f with
  | true =>
    simp only [if_true]
    cases r.state with
    | normal => exact ⟨_, failDp_dp hd .., fun _ => ⟨rfl, rfl⟩, nofun⟩
    | failed c => exact ⟨_, writeDp_dp _ _ hd, fun _ => ⟨rfl, rfl⟩, nofun⟩
  | false =>
    simp only [Bool.false_eq_true, if_false]
    split
    · split
      · exact ⟨_, failDp_dp hd .., nofun, fun _ => rfl⟩
      · exact ⟨_, dp_putDp _ hd, nofun, fun _ => rfl⟩
    · exact ⟨_, writeDp_dp _ _ hd, nofun, fun _ => rfl⟩

theorem handReport_tbc (o : Schedule) (u : UnitRow) (body : AnswerBody) :
    (s.handReport o u body).tally.missed = s.tbc.missed ∧ (s.handReport o u body).tally.units = s.tbc.units := by
  cases body with
  | reportCh m n f =>
    have hch := (chReport_tbc (s := s) u.serves u.misses m n f)
    have hhand := handChanges_tally (s.chReport u.serves u.misses m n f).1 o (s.chReport u.serves u.misses m n f).2
    exact ⟨(congrArg Tally.missed hhand).trans (congrArg Tbc.missed hch),
      (congrArg Tally.units hhand).trans (congrArg Tbc.units hch)⟩
  | reportPdu d f =>
    have hw := (pduReport_walk (s := s) (e := u.serves) (gone := fun _ => True) d f).tally
    have ht := modPoint_tbc_all s u.serves fun p => { p with detection := reportedDetection d, localMode := f }
    exact ⟨(congrArg Tally.missed hw).trans (congrArg Tbc.missed ht), (congrArg Tally.units hw).trans (congrArg Tbc.units ht)⟩
  | reportSdu d f =>
    have hw := (sduReport_walk (s := s) (e := u.serves) (gone := fun _ => True) d f).tally
    have ht := modSignal_tbc_all s u.serves fun g => { g with shown := reportedAspect d, lampFault := f }
    exact ⟨(congrArg Tally.missed hw).trans (congrArg Tbc.missed ht), (congrArg Tally.units hw).trans (congrArg Tbc.units ht)⟩
  | ack => exact ⟨rfl, rfl⟩
  | reject r => exact ⟨rfl, rfl⟩

theorem goodPoll_tally (o : Schedule) (u : UnitRow) (body : AnswerBody) :
    (s.goodPoll o u body).tally = ((s.putUnit { u with misses := 0, reachable := true }).handReport o u body).tally := by
  unfold State.goodPoll
  dsimp only
  split
  · exact (resumeDrive_walk (gone := fun _ => True)).tally
  · rfl

theorem goodPoll_ends {u : UnitRow} {x : List Byte} {body : AnswerBody} {o : Schedule} (hx : s.tbc.exchange = some (.poll a))
    (hu : s.unitAt a = some u) (hb : pollAnswer u x = some body) :
    exec (.pollExchangeEnd x o) s = .next (State.finish s ((s.freeBus.goodPoll o u body).afterPoll o)) := by
  have hu' : s.freeBus.unitAt a = some u := hu
  simp only [exec_pollExchangeEnd, execPollExchangeEnd, hx, State.pollEnds, hu', Option.bind_some, hb, Option.map_some]

/-- The report stands after the exchange, whatever the bus does next. -/
theorem goodPoll_reported {u : UnitRow} {body : AnswerBody} (o : Schedule)
    (ht : t.tally = ((s.putUnit { u with misses := 0, reachable := true }).handReport o u body).tally) :
    t.tbc.missed = s.tbc.missed
    ∧ t.tbc.units = s.tbc.units.map (fun v => if v.address == u.address then { u with misses := 0, reachable := true } else v)
    ∧ (∀ d f p, body = .reportPdu d f → s.point? u.serves = some p →
        ∃ p', t.point? u.serves = some p' ∧ p'.detection = reportedDetection d ∧ p'.localMode = f)
    ∧ (∀ d f g, body = .reportSdu d f → s.signal? u.serves = some g →
        ∃ g', t.signal? u.serves = some g' ∧ g'.shown = reportedAspect d ∧ g'.lampFault = f)
    ∧ (∀ m n f r, body = .reportCh m n f → s.dp u.serves = some r → ∃ r', t.dp u.serves = some r'
        ∧ (f = true → r'.state = .failed .sensorFault ∧ r'.last = r.last) ∧ (f = false → r'.last = some (m, n))) := by
  obtain ⟨hmissed, hunits⟩ := handReport_tbc (s := s.putUnit { u with misses := 0, reachable := true }) o u body
  refine ⟨(congrArg Tally.missed ht).trans hmissed, (congrArg Tally.units ht).trans hunits, fun d f p hb hp => ?_,
    fun d f g hb hg => ?_, fun m n f r hb hr => ?_⟩
  · subst hb
    exact point_of_tally (ht.trans (pduReport_walk (gone := fun _ => True) d f).tally)
      (modPoint_point (s := s.putUnit { u with misses := 0, reachable := true }) hp _)
  · subst hb
    exact signal_of_tally (ht.trans (sduReport_walk (gone := fun _ => True) d f).tally)
      (modSignal_signal (s := s.putUnit { u with misses := 0, reachable := true }) hg _)
  · subst hb
    obtain ⟨r', hr', hfault, hcounts⟩ :=
      chReport_dp (s := s.putUnit { u with misses := 0, reachable := true }) u.misses m n f hr
    obtain ⟨r'', hr'', hstate, hlast⟩ := dp_of_tally (ht.trans (handChanges_tally ..)) hr'
    exact ⟨r'', hr'', fun h => ⟨hstate.trans (hfault h).1, hlast.trans (hfault h).2⟩, fun h => hlast.trans (hcounts h)⟩

theorem goodPoll_rows (u : UnitRow) (o : Schedule) :
    let v : State := s.putUnit { u with misses := 0, reachable := true }
    (∀ d f, u.kind = .pdu → u.reachable = true → s.goodPoll o u (.reportPdu d f) = v.pduReport u.serves d f)
    ∧ (∀ d f, u.kind = .pdu → u.reachable = false →
      s.goodPoll o u (.reportPdu d f) = (v.pduReport u.serves d f).resumeDrive u.serves)
    ∧ (∀ d f, u.kind = .sdu → s.goodPoll o u (.reportSdu d f) = v.sduReport u.serves d f)
    ∧ ∀ m n f, u.kind = .ch → s.goodPoll o u (.reportCh m n f) =
        (v.chReport u.serves u.misses m n f).1.handChanges o (v.chReport u.serves u.misses m n f).2 := by
  refine ⟨fun d f hk hr => ?_, fun d f hk hr => ?_, fun d f hk => ?_, fun m n f hk => ?_⟩
  · simp [State.goodPoll, State.handReport, hr]
  · simp [State.goodPoll, State.handReport, hk, hr]
  · simp [State.goodPoll, State.handReport, hk]
  · simp [State.goodPoll, State.handReport, hk]

/-- Settles O12: the report that stands after the exchange, how it is handed on by the unit's kind, and the rows of each
report. -/
theorem aGoodPollHandsTheReportOn : Obligations.AGoodPollHandsTheReportOn := by
  refine ⟨fun s u a x body o hx hu hb => ?_, fun unit address body ha => readAnswer_answerFrame unit address body ha,
    fun s u o => goodPoll_rows u o, fun s o => afterPoll_rows o, fun s e old new h => ?_, fun s e old new h => ?_,
    fun s e p d f h => pduReport_rows d f h, fun s e p d h => ?_, fun s p q op => wanted_iff s p q op,
    fun s e p d h hd hs => resumeDrive_rows h hd hs, fun s e g x l h => sduReport_rows x l h⟩
  · have he := goodPoll_ends (o := o) hx hu hb
    refine ⟨he, _, he, goodPoll_reported (s := s.freeBus) o ?_⟩
    rw [finish_tally, afterPoll_tally, goodPoll_tally]
  · obtain ⟨hpoint, hnotices, -⟩ := writePoint_rows new h
    obtain ⟨hposition, hlost, hflank, hfailed, hforms, hnodup⟩ := pointNotices_rows (s := s) e old new
    exact ⟨_, hnotices, hpoint, hnodup, hposition, hlost, hflank, hfailed, hforms⟩
  · obtain ⟨hsignal, hnotices, -⟩ := writeSignal_rows new h
    obtain ⟨hposition, hflank, hlamp, hforms, hnodup⟩ := signalNotices_rows (s := s) e old new
    exact ⟨_, hnotices, hsignal, hnodup, hposition, hflank, hlamp, hforms⟩
  · exact ⟨fun hn => completeDrive_ends d h hn, fun q hn => completeDrive_next d h hn⟩

/-! ### Answered commands -/

theorem goodCommand_ends {u : UnitRow} {x : List Byte} {body : AnswerBody} {age : Nat} {tel : TrackTelegram}
    (hx : s.tbc.exchange = some (.command a tel age)) (hu : s.unitAt a = some u) (hb : commandAnswer u x = some body) :
    exec (.commandExchangeEnd x) s =
      .next (State.finish s ((s.freeBus.goodCommand u tel age (rejectOf body)).afterCommand [])) := by
  have hu' : s.freeBus.unitAt a = some u := hu
  simp only [exec_commandExchangeEnd, execCommandExchangeEnd, hx, State.commandEnds, hu', Option.bind_some, hb,
    Option.map_some]

/-- Every command queued for a unit carries an age stamp from a given one on, and so will the next. -/
structure State.Younger (n a : Nat) (s : State) : Prop where
  next : n ≤ s.tbc.nextAge
  queue : ∀ p ∈ s.tbc.queue, p.address = a → n ≤ p.age

theorem State.Younger.of_bus {n : Nat} (hn : t.tbc.nextAge = s.tbc.nextAge) (hq : t.tbc.queue = s.tbc.queue)
    (h : s.Younger n a) : t.Younger n a :=
  ⟨hn ▸ h.next, hq ▸ h.queue⟩

theorem State.Younger.dequeue {n : Nat} (x : Nat) (h : s.Younger n a) : (s.dequeue x).Younger n a :=
  ⟨h.next, fun p hp => h.queue p (List.mem_filter.1 hp).1⟩

theorem State.Younger.enqueue {n : Nat} (x : Nat) (tel : TrackTelegram) (h : s.Younger n a) : (s.enqueue x tel).Younger n a := by
  refine ⟨Nat.le_succ_of_le h.next, fun p hp ha => ?_⟩
  rcases List.mem_append.1 hp with hold | hnew
  · exact (h.dequeue x).queue p hold ha
  · rw [List.mem_singleton.1 hnew]
    exact h.next

theorem State.Younger.small {n : Nat} {x y : State} (k : Small x y) (h : x.Younger n a) : y.Younger n a := by
  cases k with
  | dequeue b => exact h.dequeue b
  | enqueue b tel => exact h.enqueue b tel
  | _ => exact h.of_bus (by simp) (by simp)

theorem State.Younger.walk {n : Nat} {gone : Nat → Prop} (w : Walk gone s t) (h : s.Younger n a) : t.Younger n a :=
  w.keeps (fun _ _ k => State.Younger.small k) h

theorem State.Younger.sectionChange {n : Nat} (x : Nat) (o : Occ) (h : s.Younger n a) : (s.sectionChange x o).Younger n a := by
  by_cases hsame : ∀ k, s.track? x = some k → k.occupancy = o
  · rwa [sectionChange_same o hsame]
  · obtain ⟨k, hk, ho⟩ : ∃ k, s.track? x = some k ∧ k.occupancy ≠ o := by simpa using hsame
    obtain ⟨c, hwrite⟩ := writeTrack_olc (s := s) (e := x) { k with occupancy := o }
    obtain ⟨hclear, hother⟩ := sectionChange_eq hk ho
    have hv : ((s.writeTrack x { k with occupancy := o }).notifyAll
        (k.owner.toList.map fun i => .track i x k.occupancy o)).Younger n a :=
      h.of_bus (by simp [hwrite]) (by simp [hwrite])
    by_cases hc : o = .clear
    · rw [hclear hc]
      exact hv.walk (gone := fun _ => True) (Walk.refl.retestTrigger)
    · rw [hother hc]
      exact hv.walk (gone := fun _ => True) (Walk.foldl (fun q w => w.failPoint q) _ .refl)

/-- A predicate that a section change and the taking of notices keep, handing changes over keeps. -/
theorem handChanges_holds {P : State → Prop} (hchange : ∀ (s : State) e o, P s → P (s.sectionChange e o))
    (hsettle : ∀ s : State, P s → P s.settle) (order : Schedule) (changes : List (Nat × Occ)) (h : P s) :
    P (s.handChanges order changes) := by
  have hover (s : State) (p : Nat × Bool) (h : P s) : P (handOver1 changes s p) := by
    unfold handOver1
    split
    · dsimp only
      split
      · exact hsettle _ (hchange _ _ _ h)
      · exact hchange _ _ _ h
    · exact h
  unfold State.handChanges
  refine List.foldlRecOn (motive := P) _ _ (List.foldlRecOn (motive := P) _ _ h fun s h p _ => hover s p h) ?_
  exact fun s h c _ => hchange s _ _ h

theorem State.Younger.settle {n : Nat} (s : State) (h : s.Younger n a) : s.settle.Younger n a :=
  h.walk (gone := fun _ => True) (Walk.settle (fun _ _ => trivial) .refl)

theorem State.Younger.afterCommand {n : Nat} (o : Schedule) (h : s.Younger n a) : (s.afterCommand o).Younger n a := by
  have hpoll : (s.nextPoll o).Younger n a := by
    cases hr : s.tbc.round with
    | none => simpa only [State.nextPoll, hr] using h
    | some l =>
      cases l with
      | cons x rest =>
        rw [nextPoll_of_cons o hr]
        exact ⟨h.next, h.queue⟩
      | nil =>
        rw [nextPoll_of_last o hr]
        refine handChanges_holds (P := State.Younger n a) (fun s e o h => h.sectionChange e o) (fun s h => h.settle) o _ ?_
        exact State.Younger.of_bus (s := s) (congrArg Tbc.nextAge roundComplete_rest.2 :)
          (congrArg Tbc.queue roundComplete_rest.2 :) h
  unfold State.afterCommand
  split
  · exact hpoll
  · exact h

theorem goodCommand_younger {u : UnitRow} {q : QueuedCmd} (f : Option (Option RejectReason))
    (hq : s.tbc.queue.filter (fun p => p.address == u.address) = [q]) :
    (s.goodCommand u q.telegram q.age f).Younger s.tbc.nextAge u.address
    ∧ (s.goodCommand u q.telegram q.age f).tally.missed = s.tbc.missed
    ∧ (s.goodCommand u q.telegram q.age f).tally.units
      = s.tbc.units.map (fun v => if v.address == u.address then { u with misses := 0 } else v) := by
  have hqueued : s.queuedAt u.address = some q := by
    rw [State.queuedAt, ← List.head?_filter, hq]
    rfl
  have hempty : ((s.putUnit { u with misses := 0 }).dequeue u.address).Younger s.tbc.nextAge u.address :=
    ⟨Nat.le_refl _, fun p hp ha => absurd ha (by simpa using (List.mem_filter.1 hp).2)⟩
  have hw := attemptAnswered_walk (s := (s.putUnit { u with misses := 0 }).dequeue u.address) (gone := fun _ => True) u
    q.telegram f
  rw [(goodCommand_rows u q.telegram q.age f).1 q hqueued rfl]
  exact ⟨hempty.walk hw, congrArg Tally.missed hw.tally, congrArg Tally.units hw.tally⟩

/-- An ACK to a THROW between rounds starts the drive's timer, or lets it go on, and does nothing else. -/
theorem throwAck_ends {u : UnitRow} {q : QueuedCmd} {x : List Byte} {pos : Pos} {p : PointRec} {d : Drive}
    (hn : s.notices = []) (hx : s.tbc.exchange = some (.command u.address q.telegram q.age)) (hr : s.tbc.round = none)
    (hu : s.unitAt u.address = some u) (hq : s.queuedAt u.address = some q) (htel : q.telegram = .throwTo pos)
    (hp : s.point? u.serves = some p) (hd : s.drive u.serves = some d) (hact : d.state = .active)
    (hb : commandAnswer u x = some .ack) :
    exec (.commandExchangeEnd x) s = .next (State.settleMarks s
      (({ s with tbc := { s.tbc with
          exchange := none
          units := s.tbc.units.map (fun v => if v.address == u.address then { u with misses := 0 } else v)
          queue := s.tbc.queue.filter (fun c => c.address != u.address) } } : State).putDrive u.serves
        (some { d with timer := d.timer.resume p.supervision }))) := by
  obtain ⟨v, hv⟩ : ∃ v, v = (s.freeBus.putUnit { u with misses := 0 }).dequeue u.address := ⟨_, rfl⟩
  have hgood : s.freeBus.goodCommand u q.telegram q.age none
      = v.putDrive u.serves (some { d with timer := d.timer.resume p.supervision }) := by
    rw [(goodCommand_rows (s := s.freeBus) u q.telegram q.age none).1 q hq rfl, ← hv, htel]
    exact (((throwAnswered_rows (s := v) u pos).2 d p (hv ▸ hd) (hv ▸ hp)).2.1 hact)
  have hround : (v.putDrive u.serves (some { d with timer := d.timer.resume p.supervision })).tbc.round = none := by
    rw [putDrive_tbc, hv]
    exact hr
  have hnotices : (v.putDrive u.serves (some { d with timer := d.timer.resume p.supervision })).notices = [] := by
    rw [putDrive_notices, hv]
    exact hn
  rw [goodCommand_ends hx hu hb, show rejectOf .ack = none from rfl, hgood, (afterCommand_rows []).1 hround,
    finish_of_none _ _ hnotices, hv]
  rfl

/-- Settles O13: the units and the queue after the exchange, the ACK to a THROW between rounds, and the rows of each
answered command. -/
theorem anAnsweredCommandLeavesTheQueue : Obligations.AnAnsweredCommandLeavesTheQueue := by
  refine ⟨fun s u q x body hx hu hq _ hb => ?_,
    fun s u q x pos p d hn hx hr hu hq htel hp hd hact hb => throwAck_ends hn hx hr hu hq htel hp hd hact hb,
    fun s u tel age x body hx hu hb => goodCommand_ends hx hu hb, ⟨rfl, fun _ => rfl⟩,
    fun s u tel age f => goodCommand_rows u tel age f, fun s => afterCommand_rows [], fun s u pos => throwAnswered_rows u pos,
    fun s u => showAnswered_rows u, fun s x hn hx => ?_⟩
  · obtain ⟨hyoung, hmissed, hunits⟩ := goodCommand_younger (s := s.freeBus) (rejectOf body) hq
    have htally : (State.finish s ((s.freeBus.goodCommand u q.telegram q.age (rejectOf body)).afterCommand [])).tally
        = (s.freeBus.goodCommand u q.telegram q.age (rejectOf body)).tally := by
      rw [finish_tally, afterCommand_tally]
    refine ⟨_, goodCommand_ends hx hu hb, (congrArg Tally.missed htally).trans hmissed,
      (congrArg Tally.units htally).trans hunits, (hyoung.afterCommand []).settle.queue⟩
  · rw [exec_commandExchangeEnd, execCommandExchangeEnd, hx]
    exact congrArg _ (finish_self s hn)

end Sys2Proof.Machine
end

section
/-! Points, signals and sections in the field: timers (R33, R38: O14), the evaluation of the sections (R51 to R58: O15,
O16), and a head's report (R46 to R49: O17). -/

namespace Sys2Proof.Machine

variable {s t : State} {e d : Nat}

/-! ### The end of an attempt (R33) -/

/-- A next position dropped leaves the claims and the sections as they were. -/
theorem dropNext_rows {p : PointRec} (h : s.point? e = some p) :
    (s.dropNext e).point? e = some { p with next := none }
    ∧ (s.dropNext e).containingClear { p with next := none } = s.containingClear p
    ∧ ∀ q, (s.dropNext e).throwLaw { p with next := none } q = s.throwLaw p q := by
  have hpoint := modPoint_point h fun p => { p with next := none }
  have hisClear (x : Nat) : (s.dropNext e).isClear x = s.isClear x := by
    by_cases hx : e = x
    · subst hx
      rw [State.isClear, State.isClear, State.occ, State.occ, State.track?, State.track?, point_of_elem.1 h,
        show (s.dropNext e).elem e = _ from point_of_elem.1 hpoint]
    · have helem : (s.dropNext e).elem x = s.elem x := by
        unfold State.dropNext State.modPoint State.writePoint
        simp only [h]
        rw [elem_notifyAll, elem_putElem_ne _ _ _ _ hx]
      simp only [State.isClear, State.occ, State.track?, helem]
  have hcontaining : (s.dropNext e).containingClear { p with next := none } = s.containingClear p :=
    congrArg (fun f => p.containing.all f) (funext hisClear)
  have hclaim : (s.dropNext e).claimPos { p with next := none } = s.claimPos p := by
    unfold State.dropNext State.modPoint State.writePoint
    simp only [h]
    unfold State.putElem
    split <;> rfl
  refine ⟨hpoint, hcontaining, fun q => ?_⟩
  rw [State.throwLaw, State.throwLaw, hcontaining]
  unfold State.agrees
  rw [hclaim]
  rfl

theorem redirects_of_point {p : PointRec} (r : Drive) (h : s.point? e = some p) :
    s.redirects e r = p.next.any fun q => s.wanted p q r.operatorMark := by
  rw [State.redirects, h]
  cases hn : p.next <;> simp [hn]

/-- An attempt that ends with no next position to take: the point fails, or the drive tries again. -/
theorem attemptEnds_rows {p : PointRec} {r : Drive} (h : s.point? e = some p) (hr : s.redirects e r = false) :
    (r.attemptsLeft = 0 ∨ s.containingClear p = false →
      (s.attemptEnds e r).drive e = none
        ∧ (s.attemptEnds e r).point? e = some { p with failed := true, next := none })
    ∧ (0 < r.attemptsLeft → s.throwLaw p r.target = true → ∀ u, s.unitOf .pdu e = some u →
      (s.attemptEnds e r).drive e = some { r with attemptsLeft := r.attemptsLeft - 1, timer := .stopped }
        ∧ (s.attemptEnds e r).point? e = some { p with next := none }
        ∧ (s.attemptEnds e r).queuedAt u.address = some ⟨u.address, .throwTo r.target, s.tbc.nextAge, 0⟩) := by
  obtain ⟨hpoint, hclear, hlaw⟩ := dropNext_rows h
  have hfails := failPoint_fails hpoint
  simp only [State.attemptEnds, hr, Bool.false_eq_true, if_false, hpoint, hclear]
  refine ⟨fun hend => ?_, fun hleft hthrow u hu => ?_⟩
  · cases hc : s.containingClear p with
    | false => exact ⟨hfails.2.1, hfails.1⟩
    | true =>
      have hzero : r.attemptsLeft = 0 := hend.resolve_right (by simp [hc])
      simp only [Bool.not_true, Bool.false_eq_true, if_false, hzero, gt_iff_lt, Nat.lt_irrefl]
      exact ⟨hfails.2.1, hfails.1⟩
  · have hc : s.containingClear p = true := by
      rw [State.throwLaw, Bool.and_eq_true] at hthrow
      exact hthrow.2
    obtain ⟨v, hv⟩ : ∃ v, v = (s.dropNext e).putDrive e
      (some { r with attemptsLeft := r.attemptsLeft - 1, timer := .stopped }) := ⟨_, rfl⟩
    have hvpoint : v.point? e = some { p with next := none } := by
      rw [point_of_elem, hv, elem_putDrive]
      exact point_of_elem.1 hpoint
    have hvlaw : v.throwLaw { p with next := none } r.target = true := by
      unfold State.throwLaw State.containingClear at hlaw ⊢
      rw [hv, agrees_putDrive, show State.isClear (State.putDrive _ e _) = (s.dropNext e).isClear from
        funext fun y => isClear_putDrive e y _, hlaw]
      exact hthrow
    have hvtbc : v.tbc = s.tbc := by
      rw [hv, putDrive_tbc]
      exact modPoint_tbc h _
    have hqueues : v.enqueueThrow e r.target = v.enqueue u.address (.throwTo r.target) :=
      ((enqueueThrow_rows r.target hvpoint).2 hvlaw).1 u ((unitOf_of_units (congrArg Tbc.units hvtbc) _ _).trans hu)
    simp only [hc, Bool.not_true, Bool.false_eq_true, if_false, gt_iff_lt, hleft, if_true]
    rw [← hv, hqueues]
    refine ⟨?_, ?_, ?_⟩
    · rw [drive_enqueue, hv]
      exact drive_putDrive_same _ _ _ (lt_of_point h)
    · rw [point_of_elem, elem_enqueue]
      exact point_of_elem.1 hvpoint
    · rw [queuedAt_enqueue, hvtbc]

/-! ### Timers of drives and of PROCEED commands (R33, R37, R38) -/

theorem exec_supervisionTimerExpiry (e : Nat) (s : State) :
    exec (.supervisionTimerExpiry e) s = execSupervisionTimerExpiry e s := rfl

theorem exec_confirmationTimerExpiry (e : Nat) (s : State) :
    exec (.confirmationTimerExpiry e) s = execConfirmationTimerExpiry e s := rfl

theorem supervision_ends {n : Nat} {r : Drive} (hd : s.drive e = some r) (ha : r.state = .active) (ht : r.timer = .running n) :
    exec (.supervisionTimerExpiry e) s = .next (State.finish s (s.attemptEnds e r)) := by
  simp [exec_supervisionTimerExpiry, execSupervisionTimerExpiry, hd, ha, ht, Timer.isRunning]

theorem supervision_idle (hn : s.notices = [])
    (h : ((s.drive e).all fun d => d.state != .active || !d.timer.isRunning) = true) :
    exec (.supervisionTimerExpiry e) s = .next s := by
  rw [exec_supervisionTimerExpiry, execSupervisionTimerExpiry]
  cases hd : s.drive e with
  | none => exact congrArg _ (finish_self s hn)
  | some r =>
    have hr : ¬ (r.state == .active && r.timer.isRunning) = true := by
      simp only [hd, Option.all_some] at h
      cases hs : r.state <;> simp_all
    simp only [hr]
    exact congrArg _ (finish_self s hn)

/-- A PROCEED that fails: with a unit or with none, the signal is commanded STOP and nothing awaits confirmation. -/
theorem proceedFails_commands {g : SignalRec} (h : s.signal? e = some g) :
    ((s.proceedFails e).cmd e).awaiting = .stopped
    ∧ (∃ g', (s.proceedFails e).signal? e = some g' ∧ g'.commanded = .stop)
    ∧ ∀ i, g.entrySlot = .held i → .signalNotCleared i e ∈ (s.proceedFails e).notices := by
  have he := lt_of_signal h
  have hdrop : (s.dropCmd e).signal? e = some g := signal_of_elem.2 ((elem_putCmd ..).trans (signal_of_elem.1 h))
  have hawait : ((s.dropCmd e).cmd e).awaiting = .stopped := by
    rw [State.dropCmd, cmd_putCmd_same _ _ _ he]
  obtain ⟨v, hv⟩ : ∃ v, v = (s.dropCmd e).modSignal e fun g => { g with commanded := .stop } := ⟨_, rfl⟩
  have hvs : v.signal? e = some { g with commanded := .stop } := by
    rw [hv]
    exact modSignal_signal hdrop _
  have hvc : v.cmd e = (s.dropCmd e).cmd e := by
    rw [hv]
    exact modSignal_cmd hdrop _ e
  obtain ⟨-, hsignal, hcmd, -⟩ := enqueueStop_rows hvs
  have hfails : s.proceedFails e = (v.enqueueStop e).notifyAll (g.entrySlot.owner.toList.map (.signalNotCleared · e)) := by
    rw [State.proceedFails, h, hv]
  rw [hfails]
  refine ⟨?_, ⟨_, signal_of_elem.2 ((elem_notifyAll ..).trans (signal_of_elem.1 hsignal)), rfl⟩, fun i hi => ?_⟩
  · rw [cmd_notifyAll, hcmd, hvc, hawait]
  · simp [State.notifyAll, hi, Slot.owner]

/-- Settles O14: the end of an attempt by the next position, and the end of the wait for PROCEED. -/
theorem fieldTimersReplaceRetryOrFail : Obligations.FieldTimersReplaceRetryOrFail := by
  refine ⟨⟨fun s e n p r q hp hd ha ht hn => ⟨supervision_ends hd ha ht, attemptEnds_redirects r hp hn, fun hw => ?_⟩,
    fun s e n p r hp hd ha ht hn => ?_, fun s e hn h => supervision_idle hn h⟩,
    fun s e n g hg hc => ?_, fun s e hn hc => ?_⟩
  · exact attemptEnds_rows hp (by simpa [redirects_of_point r hp, hn] using hw)
  · obtain ⟨hfails, hretries⟩ := attemptEnds_rows (r := r) hp (by simp [redirects_of_point r hp, hn])
    refine ⟨supervision_ends hd ha ht, fun h => ⟨(hfails h).1, _, (hfails h).2, rfl, rfl⟩, fun h1 h2 u hu => ?_⟩
    obtain ⟨hdrive, -, hqueued⟩ := hretries h1 h2 u hu
    exact ⟨hdrive, hqueued⟩
  · obtain ⟨hawait, hsignal, hnotice⟩ := proceedFails_commands hg
    refine ⟨by simp [exec_confirmationTimerExpiry, execConfirmationTimerExpiry, hc, Timer.isRunning], hawait, hsignal,
      fun u hu => ?_, hnotice⟩
    obtain ⟨-, hcmd, hqueued, -⟩ := proceedFails_rows hg hu
    exact ⟨hqueued, congrArg SignalCmd.stopOutstanding hcmd⟩
  · simp only [exec_confirmationTimerExpiry, execConfirmationTimerExpiry, hc, Bool.false_eq_true, if_false]
    exact congrArg _ (finish_self s hn)

/-! ### Section counts (R51) -/

theorem count_lt {c : SectCount} (h : s.count e = some c) : e < 256 := by
  rcases Nat.lt_or_ge e 256 with k | k
  · exact k
  · simp [State.count, Vector.getD, Nat.not_lt.2 k] at h

theorem count_putCount_same {c : SectCount} (h : s.count e = some c) (c' : SectCount) : (s.putCount e c').count e = some c' := by
  unfold State.putCount
  split
  · assumption
  · simp [State.count, State.mark, State.markAt, Vector.getD, count_lt h]

theorem count_putCount_ne {x : Nat} (h : x ≠ e) (c : SectCount) : (s.putCount e c).count x = s.count x := by
  unfold State.putCount
  split
  · rfl
  · simp only [State.count, State.mark, State.markAt]
    exact getD_set_ne _ _ _ _ _ (Ne.symm h)

theorem putCount_dps (c : SectCount) : (s.putCount e c).ace.dps = s.ace.dps := by
  unfold State.putCount
  split <;> rfl

theorem evaluated_congr (hd : t.ace.dps = s.ace.dps) (hc : t.cfl = s.cfl) : t.evaluated = s.evaluated := by
  have hround : t.roundChange = s.roundChange := by
    funext c
    simp only [State.roundChange, State.dp, hd]
  funext c
  simp only [State.evaluated, hround, hc]

/-- The change a section hands over at a round-complete. -/
def State.changeAt (s : State) (e : Nat) : Option (Nat × Occ) :=
  (s.count e).bind fun c => if (s.evaluated c).state = c.state then none else some (e, (s.evaluated c).state)

theorem changeAt_iff (x : Nat) (o : Occ) : s.changeAt x = some (e, o) ↔
    x = e ∧ ∃ c, s.count e = some c ∧ (s.evaluated c).state = o ∧ (s.evaluated c).state ≠ c.state := by
  unfold State.changeAt
  cases hx : s.count x with
  | none => exact ⟨nofun, fun ⟨he, c, hc, _⟩ => by rw [he, hc] at hx; cases hx⟩
  | some c =>
    simp only [Option.bind_some]
    by_cases hs : (s.evaluated c).state = c.state
    · simp only [hs, if_true]
      refine ⟨nofun, fun ⟨he, c', hc', _, hne⟩ => ?_⟩
      rw [he, hc'] at hx
      cases hx
      exact absurd hs hne
    · simp only [hs, if_false, Option.some.injEq, Prod.mk.injEq]
      refine ⟨fun ⟨he, ho⟩ => ⟨he, c, he ▸ hx, ho, hs⟩, fun ⟨he, c', hc', ho, _⟩ => ⟨he, ?_⟩⟩
      rw [he, hc'] at hx
      cases hx
      exact ho

theorem evaluateSection_rows (p : State × List (Nat × Occ)) (x : Nat) :
    (State.evaluateSection p x).1.count x = (p.1.count x).map p.1.evaluated
    ∧ (∀ y, y ≠ x → (State.evaluateSection p x).1.count y = p.1.count y)
    ∧ (State.evaluateSection p x).2 = p.2 ++ (p.1.changeAt x).toList
    ∧ (State.evaluateSection p x).1.evaluated = p.1.evaluated := by
  unfold State.evaluateSection State.changeAt
  cases hc : p.1.count x with
  | none => exact ⟨hc, fun _ _ => rfl, by simp, rfl⟩
  | some c =>
    refine ⟨count_putCount_same hc _, fun y hy => count_putCount_ne hy _, ?_,
      evaluated_congr (putCount_dps _) (putCount_cfl ..)⟩
    by_cases hs : (p.1.evaluated c).state = c.state <;> simp [hs]

/-- Sections evaluated one after the other, each once, are evaluated from the pending counts as they stand. -/
theorem evaluateSections_rows (l : List Nat) (hl : l.Nodup) (p : State × List (Nat × Occ)) :
    (∀ x, (l.foldl State.evaluateSection p).1.count x = if x ∈ l then (p.1.count x).map p.1.evaluated else p.1.count x)
    ∧ (l.foldl State.evaluateSection p).2 = p.2 ++ l.filterMap p.1.changeAt := by
  induction l generalizing p with
  | nil => exact ⟨fun x => by simp, by simp⟩
  | cons y l ih =>
    obtain ⟨hy, hl⟩ := List.nodup_cons.1 hl
    obtain ⟨hsame, hne, hchanges, heval⟩ := evaluateSection_rows p y
    obtain ⟨icount, ichanges⟩ := ih hl (State.evaluateSection p y)
    have hchange : l.filterMap (State.evaluateSection p y).1.changeAt = l.filterMap p.1.changeAt := by
      refine List.filterMap_congr fun x hx => ?_
      simp only [State.changeAt, heval, hne x fun h => hy (h ▸ hx)]
    refine ⟨fun x => ?_, ?_⟩
    · rw [List.foldl_cons, icount, heval]
      by_cases hx : x = y
      · subst hx
        simp [hy, hsame]
      · simp [hx, hne x hx]
    · rw [List.foldl_cons, ichanges, hchanges, hchange, List.append_assoc, List.filterMap_cons]
      cases p.1.changeAt y <;> rfl

theorem roundComplete_rows (s : State) :
    (∀ e, s.roundComplete.1.count e = (s.count e).map s.evaluated)
    ∧ s.roundComplete.2 = (List.range 256).filterMap s.changeAt ∧ s.roundComplete.1.rim = s.rim := by
  obtain ⟨hcount, hchanges⟩ := evaluateSections_rows (List.range Config.elementCount) List.nodup_range (s, [])
  have hrim := foldl_kept (fun p : State × List (Nat × Occ) => p.1.rim) (f := State.evaluateSection) (fun p x => by
    unfold State.evaluateSection
    split
    · exact putCount_rim ..
    · rfl) (List.range Config.elementCount) (s, [])
  unfold State.roundComplete
  generalize (List.range Config.elementCount).foldl State.evaluateSection (s, []) = z at hcount hchanges hrim ⊢
  refine ⟨fun x => (hcount x).trans ?_, hchanges, hrim⟩
  by_cases hx : x < 256
  · simp [Config.elementCount, hx]
  · cases hc : s.count x with
    | none => simp
    | some c => exact absurd (count_lt hc) hx

theorem mem_roundChanges (o : Occ) : (e, o) ∈ s.roundComplete.2 ↔
    ∃ c, s.count e = some c ∧ (s.evaluated c).state = o ∧ (s.evaluated c).state ≠ c.state := by
  rw [(roundComplete_rows s).2.1, List.mem_filterMap]
  refine ⟨fun ⟨x, _, hx⟩ => ((changeAt_iff x o).1 hx).2, fun h => ?_⟩
  obtain ⟨c, hc, -⟩ := id h
  exact ⟨e, List.mem_range.2 (count_lt hc), (changeAt_iff e o).2 ⟨rfl, h⟩⟩

theorem roundChanges_nodup (s : State) : (s.roundComplete.2.map Prod.fst).Nodup := by
  rw [(roundComplete_rows s).2.1]
  have hsub : ∀ l : List Nat, ((l.filterMap s.changeAt).map Prod.fst).Sublist l := fun l => by
    induction l with
    | nil => exact .slnil
    | cons x l ih =>
      rw [List.filterMap_cons]
      cases hx : s.changeAt x with
      | none => exact ih.cons x
      | some c =>
        obtain ⟨y, o⟩ := c
        obtain rfl := ((changeAt_iff x o).1 hx).1
        exact ih.cons_cons x
  exact List.Nodup.sublist (hsub _) List.nodup_range

/-- Settles O15: the evaluation of the sections, the last POLL of a round, and a change handed over. -/
theorem roundCompleteEvaluatesEverySection : Obligations.RoundCompleteEvaluatesEverySection := by
  refine ⟨fun s => ?_, fun s u a o hx hu hr => ?_, fun s order changes e hl => ?_, fun s e o => ⟨sectionChange_same o,
    fun t ht hne => ?_⟩⟩
  · obtain ⟨hcount, -, hrim⟩ := roundComplete_rows s
    obtain ⟨hdp, htbc⟩ := roundComplete_rest (s := s)
    exact ⟨hcount, hdp, fun e o => mem_roundChanges o, roundChanges_nodup s, roundComplete_lkc s, hrim, htbc⟩
  · exact lastPoll_rows o hx hu hr
  · obtain ⟨hchanged, hother, -⟩ := handChanges_rows (s := s) order changes hl e
    refine ⟨fun o ho => ?_, hother⟩
    have h := hchanged o ho
    unfold State.occupancyOf at h
    rw [h, Option.map_map]
    rfl
  · obtain ⟨htrack, howner, hfails, hother⟩ := sectionChange_rows ht hne
    refine ⟨htrack, howner, fun ho => ?_, hfails, hother⟩
    rw [(sectionChange_eq ht hne).1 ho]
    cases hl : t.lock <;> simp [TrackRec.owner, hl]

/-! ### Sections disturbed by a failed point (R50) -/

theorem disturbBorder_count (p : State × List (Nat × Occ)) (b : Nat × Orient) (x : Nat) :
    (State.disturbBorder d p b).1.count x =
      if b.1 = x then (p.1.count x).map fun c => if c.state = .disturbed then c else c.disturb (.dpFailed d)
      else p.1.count x := by
  unfold State.disturbBorder
  by_cases hx : b.1 = x
  · subst hx
    cases hc : p.1.count b.1 with
    | none => simp [hc]
    | some c =>
      by_cases hs : c.state = .disturbed
      · simp [hs, hc]
      · simp [hs, count_putCount_same hc]
  · simp only [hx, if_false]
    split
    · split
      · rfl
      · exact count_putCount_ne (Ne.symm hx) _
    · rfl

/-- The sections that a failed point borders are DISTURBED by it, unless they were, and their changes handed over. -/
theorem disturbBorders_rows (l : List (Nat × Orient)) (p : State × List (Nat × Occ)) {b : Nat × Orient} {c : SectCount}
    (hb : b ∈ l) (hc : p.1.count b.1 = some c) (hs : c.state ≠ .disturbed) :
    (b.1, Occ.disturbed) ∈ (l.foldl (State.disturbBorder d) p).2
    ∧ (l.foldl (State.disturbBorder d) p).1.count b.1 = some (c.disturb (.dpFailed d)) := by
  have hkept : ∀ (l : List (Nat × Orient)) (p : State × List (Nat × Occ)), (b.1, Occ.disturbed) ∈ p.2 →
      p.1.count b.1 = some (c.disturb (.dpFailed d)) →
      (b.1, Occ.disturbed) ∈ (l.foldl (State.disturbBorder d) p).2
      ∧ (l.foldl (State.disturbBorder d) p).1.count b.1 = some (c.disturb (.dpFailed d)) := by
    intro l
    induction l with
    | nil => exact fun p h1 h2 => ⟨h1, h2⟩
    | cons x l ih =>
      intro p h1 h2
      refine ih _ ?_ ?_
      · unfold State.disturbBorder
        split
        · split
          · exact h1
          · exact List.mem_append_left _ h1
        · exact h1
      · rw [disturbBorder_count, h2]
        simp [SectCount.disturb]
  induction l generalizing p with
  | nil => cases hb
  | cons x l ih =>
    by_cases hx : x.1 = b.1
    · refine hkept l _ ?_ ?_
      · unfold State.disturbBorder
        rw [hx, hc]
        simp [hs]
      · rw [disturbBorder_count, hc]
        simp [hx, hs]
    · refine ih _ ((List.mem_cons.1 hb).resolve_left fun h => hx (h ▸ rfl)) ?_
      rw [disturbBorder_count, hc, if_neg hx]

theorem writeDp_count (old new : DpRec) (x : Nat) : (s.writeDp d old new).count x = s.count x := by
  unfold State.writeDp
  dsimp only
  split
  · rfl
  · exact foldl_keeps _ (fun t : State => t.count x) (f := fun (s : State) (b : Nat × Orient) => s.mark (.element b.1))
      (fun _ _ => rfl) _

theorem failDp_rows {r : DpRec} {b : Nat × Orient} {c : SectCount} (why : DpCause) (last : Option (Byte × Byte))
    (hb : b ∈ r.borders) (hc : s.count b.1 = some c) (hs : c.state ≠ .disturbed) :
    (b.1, Occ.disturbed) ∈ (s.failDp d r why last).2
    ∧ (s.failDp d r why last).1.count b.1 = some (c.disturb (.dpFailed d)) :=
  disturbBorders_rows r.borders _ hb ((writeDp_count ..).trans hc) hs

/-! ### A section by its count (R52, R53, R58) -/

theorem evaluated_counting {c : SectCount} (h : c.state = .clear ∨ c.state = .occupied) :
    s.evaluated c = c.evaluate s.cfl.tolerance (c.count + s.roundChange c) := by
  rcases h with h | h <;> simp only [State.evaluated, h]

theorem evaluated_resetPending {c : SectCount} (h : c.state = .resetPending) :
    s.evaluated c = c.evaluateReset s.cfl.tolerance (c.count + s.roundChange c) := by
  simp only [State.evaluated, h]

/-- The rows of a section that counts. -/
theorem evaluate_rows (c : SectCount) (T : Nat) (N : Int) :
    (1023 < N → c.evaluate T N = { c with count := 1023, state := .occupied, deficitAge := 0, saturated := true })
    ∧ (0 < N → N ≤ 1023 → c.evaluate T N = { c with count := N, state := .occupied, deficitAge := 0 })
    ∧ (N = 0 → c.saturated = false → c.evaluate T N = { c with count := 0, state := .clear, deficitAge := 0 })
    ∧ (N = 0 → c.saturated = true → c.evaluate T N = { c with count := 0, state := .occupied, deficitAge := 0 })
    ∧ (-(T : Int) ≤ N → N < 0 → c.deficitAge = 0 →
        c.evaluate T N = { c with count := N, state := .occupied, deficitAge := 1 })
    ∧ (-(T : Int) ≤ N → N < 0 → c.deficitAge ≠ 0 →
        c.evaluate T N = { c with count := 0, state := .disturbed, cause := some .persistentDeficit, deficitAge := 0 })
    ∧ (N < -(T : Int) →
        c.evaluate T N = { c with count := 0, state := .disturbed, cause := some .deficit, deficitAge := 0 }) := by
  unfold SectCount.evaluate SectCount.deficit
  refine ⟨fun h => ?_, fun h k => ?_, fun h k => ?_, fun h k => ?_, fun h k l => ?_, fun h k l => ?_, fun h => ?_⟩
  · rw [if_pos h]
  · rw [if_neg (by omega), if_pos h]
  · simp [h, k]
  · simp [h, k]
  · rw [if_neg (by omega), if_neg (by omega), if_neg (by omega), if_pos h, if_pos l]
  · rw [if_neg (by omega), if_neg (by omega), if_neg (by omega), if_pos h, if_neg l]
  · rw [if_neg (by omega), if_neg (by omega), if_neg (by omega), if_neg (by omega)]

/-- The rows of a section that waits to be swept. -/
theorem evaluateReset_rows {c : SectCount} (hs : c.state = .resetPending) (T : Nat) (N : Int) :
    (1023 < N → c.evaluateReset T N =
        { c with count := 0, state := .disturbed, cause := some .saturation, deficitAge := 0, sweep := false })
    ∧ (0 < N → N ≤ 1023 → c.evaluateReset T N = { c with count := N, deficitAge := 0, sweep := true })
    ∧ (N = 0 → c.sweep = true → c.evaluateReset T N = { c with count := 0, state := .clear, deficitAge := 0, sweep := false })
    ∧ (N = 0 → c.sweep = false → c.evaluateReset T N = { c with count := 0, deficitAge := 0 })
    ∧ (-(T : Int) ≤ N → N < 0 → c.deficitAge = 0 → c.evaluateReset T N = { c with count := N, deficitAge := 1 })
    ∧ (-(T : Int) ≤ N → N < 0 → c.deficitAge ≠ 0 → c.evaluateReset T N =
        { c with count := 0, state := .disturbed, cause := some .persistentDeficit, deficitAge := 0 })
    ∧ (N < -(T : Int) → c.evaluateReset T N =
        { c with count := 0, state := .disturbed, cause := some .deficit, deficitAge := 0, sweep := false }) := by
  unfold SectCount.evaluateReset SectCount.deficit
  refine ⟨fun h => ?_, fun h k => ?_, fun h k => ?_, fun h k => ?_, fun h k l => ?_, fun h k l => ?_, fun h => ?_⟩
  · rw [if_pos h]
  · rw [if_neg (by omega), if_pos h, hs]
  · simp [h, k]
  · simp [h, k, hs]
  · rw [if_neg (by omega), if_neg (by omega), if_neg (by omega), if_pos h, if_pos l, hs]
  · rw [if_neg (by omega), if_neg (by omega), if_neg (by omega), if_pos h, if_neg l]
  · rw [if_neg (by omega), if_neg (by omega), if_neg (by omega), if_neg (by omega)]

/-- Settles O16: each section by its state, the round's change and the tolerance. -/
theorem sectionsTakeTheRowTheirCountMeets : Obligations.SectionsTakeTheRowTheirCountMeets := by
  refine ⟨fun s => (roundComplete_rows s).1, fun s c h => ?_, fun s d r b c hd hn hb hc hs => ?_,
    fun s c N h hN => ?_, fun s c N h hN => ?_⟩
  · simp only [State.evaluated, h]
  · simp only [State.chUnreachable, hd, hn, beq_self_eq_true, if_true]
    exact (failDp_rows .noAnswer r.last hb hc (by simp [hs])).2
  · rw [evaluated_counting h, ← hN]
    exact evaluate_rows c s.cfl.tolerance N
  · rw [evaluated_resetPending h, ← hN]
    exact evaluateReset_rows h s.cfl.tolerance N

/-! ### A head's report (R46 to R49) -/

/-- A good report at a NORMAL point: by the limit the miss count allows, counted or implausible. -/
theorem chReport_normal {misses : Nat} {m n la lb : Byte} {r : DpRec} (hd : s.dp d = some r) (hm : misses ≤ 2)
    (hr : r.state = .normal) (hl : r.last = some (la, lb)) :
    ((m - la).toNat ≤ 24 * (1 + misses) → (n - lb).toNat ≤ 24 * (1 + misses) → s.chReport d misses m n false =
      (s.putDp d { r with
        last := some (m, n)
        pendingA := r.pendingA + (m - la).toNat
        pendingB := r.pendingB + (n - lb).toNat }, []))
    ∧ (24 * (1 + misses) < (m - la).toNat ∨ 24 * (1 + misses) < (n - lb).toNat →
      s.chReport d misses m n false = s.failDp d r .implausible (some (m, n))) := by
  simp only [State.chReport, hd, hr, hl, Bool.false_eq_true, if_false, countDiff, Nat.min_eq_left hm, gt_iff_lt]
  refine ⟨fun h k => ?_, fun h => ?_⟩
  · rw [if_neg (by omega)]
  · rw [if_pos h]

theorem chReport_failed {m n : Byte} {r : DpRec} {c : DpCause} (misses : Nat) (hd : s.dp d = some r) (hr : r.state = .failed c) :
    s.chReport d misses m n true = (s.putDp d { r with state := .failed .sensorFault }, [])
    ∧ s.chReport d misses m n false = (s.writeDp d r { r with state := .normal, last := some (m, n) }, []) := by
  simp [State.chReport, hd, hr, State.writeDp]

/-- Settles O17: a report by the point's state and the head's fault, and the first good POLL of a head. -/
theorem aHeadReportCountsOrFails : Obligations.AHeadReportCountsOrFails := by
  refine ⟨fun s d misses m n la lb r hd => ⟨fun hm hr hl h k => ?_, fun hm hr hl h => ?_, ?_, fun c hr => ?_⟩,
    fun s u a x m n o r c hx hu hk hb hd hr => resynchronise_rows o hx hu hk hb hd hr⟩
  · rw [(chReport_normal hd hm hr hl).1 h k]
    exact ⟨dp_putDp _ (dp_lt hd), rfl⟩
  · rw [(chReport_normal hd hm hr hl).2 h]
    exact ⟨failDp_dp (dp_lt hd) r _ _, fun b hb c hc hs => failDp_rows _ _ hb hc hs⟩
  · obtain ⟨r', hr', hfault, -⟩ := chReport_dp misses m n true hd
    exact ⟨r', hr', hfault rfl⟩
  · obtain ⟨hfault, hgood⟩ := chReport_failed (m := m) (n := n) misses hd hr
    have hnormal := writeDp_dp (s := s) r { r with state := .normal, last := some (m, n) } (dp_lt hd)
    rw [hgood]
    refine ⟨hfault, hnormal, fun ha hb r' hr' => ?_, rfl, fun e => writeDp_count ..⟩
    cases hnormal.symm.trans hr'
    exact ⟨ha, hb⟩

end Sys2Proof.Machine
end

section
/-! Operator links: arrival and what goes out (R155, R157, R158: O18, O19), the arrival checks of a row (R155: O20), the
readings of the counters and of the set (R157, R160: O22). -/

namespace Sys2Proof.Machine

variable {s t : State} {l : OpLink} {q : Word16} {r : Request}

/-! ### One link's record written -/

/-- A step that writes one link's record and marks nothing ends as it stands. -/
theorem finish_modOlc (f : Olc → Olc) (hn : s.notices = []) (hf : ∀ c, ∀ o ∈ (f c).marks, o ∈ c.marks) :
    State.finish s (s.modOlc l f) = s.modOlc l f := by
  refine finish_of_quiet _ _ hn ?_ ?_ <;> cases l
  · exact hf _
  · exact fun _ h => h
  · exact fun _ h => h
  · exact hf _

/-! ### An arrival (R155, R157) -/

theorem exec_operatorTelegramArrival (l : OpLink) (x : List Byte) (s : State) :
    exec (.operatorTelegramArrival l x) s = .next (State.finish s (s.arrive l x)) := rfl

/-- Settles O18: the telegram read or none, the room in the queue, and the two kinds of counter. -/
theorem anArrivingTelegramWaitsOrIsDiscarded : Obligations.AnArrivingTelegramWaitsOrIsDiscarded := by
  refine ⟨fun s l x hn => ⟨fun t ht hroom => ?_, fun h => ?_⟩, fun v mark => incCounter_rows v mark, fun v => satInc_rows v⟩
  · have harrive : s.arrive l x = s.modOlc l fun c => { c with waiting := c.waiting ++ [t], good := incCounter c.good } := by
      simp only [State.arrive, State.modOlc, ht, Config.waitingMax, hroom, if_true]
    rw [exec_operatorTelegramArrival, harrive]
    exact congrArg _ (finish_modOlc _ hn fun _ _ h => h)
  · have harrive : s.arrive l x = s.modOlc l fun c => { c with discarded := incCounter c.discarded } := by
      rcases h with hx | hfull
      · simp only [State.arrive, hx]
      · cases hx : readOperatorFrame x with
        | none => simp only [State.arrive, hx]
        | some t => simp only [State.arrive, State.modOlc, hx, Config.waitingMax, Nat.not_lt.2 hfull, if_false]
    rw [exec_operatorTelegramArrival, harrive]
    exact congrArg _ (finish_modOlc _ hn fun _ _ h => h)

/-! ### What the transmitter sends (R158) -/

theorem exec_replyTransmit (l : OpLink) (s : State) :
    exec (.replyTransmit l) s = .next (State.finish s (s.transmitReply l)) := rfl

theorem exec_sendIndication (l : OpLink) (s : State) :
    exec (.sendIndication l) s = .next (State.finish s (s.sendIndication l)) := rfl

theorem finish_sent (f : Olc → Olc) (x : Sent) (hn : s.notices = []) (hf : ∀ c, ∀ o ∈ (f c).marks, o ∈ c.marks) :
    State.finish s ((s.modOlc l f).send x) = (s.modOlc l f).send x := by
  refine finish_of_quiet _ _ hn ?_ ?_ <;> cases l
  · exact hf _
  · exact fun _ h => h
  · exact fun _ h => h
  · exact hf _

theorem replyTransmit_sends {b : ReplyBody} (hn : s.notices = []) (h : (s.olc.get l).reply = some (q, b)) :
    exec (.replyTransmit l) s =
      .next { s with olc := s.olc.set l { s.olc.get l with reply := none }, out := s.out ++ [.reply l q b] } := by
  rw [exec_replyTransmit, State.transmitReply, h]
  exact congrArg _ (finish_sent (fun c => { c with reply := none }) _ hn fun _ _ h => h)

theorem replyTransmit_idle (hn : s.notices = []) (h : (s.olc.get l).reply = none) : exec (.replyTransmit l) s = .next s := by
  rw [exec_replyTransmit, State.transmitReply, h]
  exact congrArg _ (finish_self s hn)

theorem sendIndication_sends {o : Obj} {rest : List Obj} (hn : s.notices = []) (hr : (s.olc.get l).reply = none)
    (hl : s.cfl.load ≠ .loading) (hm : (s.olc.get l).marks = o :: rest) :
    exec (.sendIndication l) s =
      .next { s with olc := s.olc.set l { s.olc.get l with marks := rest, indNo := (s.olc.get l).indNo + 1 }
                     out := s.out ++ [.indication l (s.olc.get l).indNo o (s.indicationOf l o)] } := by
  have hsend : s.sendIndication l = { s with
      olc := s.olc.set l { s.olc.get l with marks := rest, indNo := (s.olc.get l).indNo + 1 }
      out := s.out ++ [.indication l (s.olc.get l).indNo o (s.indicationOf l o)] } := by
    simp [State.sendIndication, hr, hl, hm, State.modOlc, State.send]
  rw [exec_sendIndication, hsend]
  refine congrArg _ (finish_of_quiet _ _ hn ?_ ?_) <;> cases l
  · exact fun x hx => hm ▸ List.mem_cons_of_mem _ hx
  · exact fun _ h => h
  · exact fun _ h => h
  · exact fun x hx => hm ▸ List.mem_cons_of_mem _ hx

theorem sendIndication_idle (hn : s.notices = [])
    (h : s.cfl.load = .loading ∨ (s.olc.get l).reply ≠ none ∨ (s.olc.get l).marks = []) :
    exec (.sendIndication l) s = .next s := by
  have hsend : s.sendIndication l = s := by
    rcases h with h | h | h
    · simp [State.sendIndication, h]
    · simp [State.sendIndication, h]
    · simp [State.sendIndication, h]
  rw [exec_sendIndication, hsend, finish_self s hn]

/-- Settles O19: replies before indications, and what each object's indication carries. -/
theorem theTransmitterSendsRepliesBeforeIndications : Obligations.TheTransmitterSendsRepliesBeforeIndications := by
  refine ⟨fun s l hn => ⟨fun q b h => ⟨replyTransmit_sends hn h, sendIndication_idle hn (.inr (.inl (by simp [h])))⟩,
    replyTransmit_idle hn, fun o rest hr hl hm => sendIndication_sends hn hr hl hm,
    fun h => sendIndication_idle hn (h.imp_right .inr)⟩, fun s l => ?_, seconds_rounds_up, fun s d => ?_⟩
  · exact ⟨rfl, fun a => areaBody_rows (s.areaRec a), elementBody_rows s, fun i => (instIndication_rows s l i).1,
      fun i => (instIndication_rows s l i).2, boundaryIndication_rows s l, rfl, rfl⟩
  · exact ⟨fun e => ⟨rfl, rfl, fun _ => rfl⟩, rfl, rfl, fun m f t hf => (waitElem_asking s d m f hf).1 t,
      fun m f b ref hf => (waitElem_asking s d m f hf).2 b ref⟩

/-! ### The arrival checks of a row (R155) -/

theorem taken_get_same (s : State) (l : OpLink) :
    (s.taken l).olc.get l = { s.olc.get l with waiting := (s.olc.get l).waiting.tail } := by cases l <;> rfl

theorem taken_get_ne {l k : OpLink} (h : k ≠ l) : (s.taken l).olc.get k = s.olc.get k := modOlc_get_other s l k _ h

theorem settleMarks_get (b u : State) (k : OpLink) : (State.settleMarks b u).olc.get k =
    { u.olc.get k with marks := orderMarks (b.olc.get k).marks (u.olc.get k).marks } := by cases k <;> rfl

theorem answer_get_same (s : State) (l : OpLink) (q : Word16) (b : ReplyBody) : (s.answer l q b).olc.get l =
    { s.olc.get l with
      reply := some (q, b), refused := if b.isRefusal then incCounter (s.olc.get l).refused else (s.olc.get l).refused } := by
  cases l <;> rfl

theorem answer_get_ne (s : State) {l k : OpLink} (q : Word16) (b : ReplyBody) (h : k ≠ l) :
    (s.answer l q b).olc.get k = s.olc.get k := modOlc_get_other s l k _ h

theorem otherLink_ne (l : OpLink) : otherLink l ≠ l := by cases l <;> nofun

/-- A request in range is its owner's act on the state without its telegram, answered. -/
theorem runRequest_answers {pick : Request → Bool} {act : State → Telegram → State × Option ReplyBody} {u : State}
    {b : ReplyBody} (h : s.Ready l q r) (hp : pick r = true) (hr : r.outOfRange = false)
    (ha : act (s.taken l) ⟨q, r⟩ = (u, some b)) : runRequest l pick act s = .next (State.finish s (u.answer l q b)) := by
  rw [runRequest_ready h hp, ha, hr]
  rfl

theorem runRequest_holds {pick : Request → Bool} {act : State → Telegram → State × Option ReplyBody} {u : State}
    (h : s.Ready l q r) (hp : pick r = true) (hr : r.outOfRange = false) (ha : act (s.taken l) ⟨q, r⟩ = (u, none)) :
    runRequest l pick act s = .next (State.finish s u) := by
  rw [runRequest_ready h hp, ha, hr]
  rfl

/-- SET_ROUTE where the RIM holds no request of the link back runs the act of a request from its link. -/
theorem execSetRoute_of_none (h : s.takeWaitingRoute l = none) : exec (.setRoute l) s =
    runRequest l (Request.isKind 1) (fun s t =>
      match t.request with
      | .setRoute e x f n => s.reachRim l t.seq e x f n
      | _ => (s, none)) s := by
  have hx : exec (.setRoute l) s = execSetRoute l s := rfl
  refine hx.trans ?_
  unfold execSetRoute
  split
  · rename_i t ht
    cases h.symm.trans ht
  · rfl

/-- Each of the 23 rows runs one act of its owner; SET_ROUTE does where the RIM holds no request of the link back. -/
theorem rowTakes_exec {c : Instr} {pick : Request → Bool} (h : rowTakes c = some (l, pick)) :
    ∃ act, ∀ s, (c = .setRoute l → s.takeWaitingRoute l = none) → exec c s = runRequest l pick act s := by
  cases c <;> simp only [rowTakes, Option.some.injEq, Prod.mk.injEq, reduceCtorEq] at h
  case setRoute k =>
    obtain ⟨rfl, rfl⟩ := h
    refine ⟨fun s t => match t.request with
      | .setRoute e x f n => s.reachRim k t.seq e x f n
      | _ => (s, none), fun s hw => ?_⟩
    exact execSetRoute_of_none (hw rfl)
  all_goals
    obtain ⟨rfl, rfl⟩ := h
    exact ⟨_, fun s _ => rfl⟩

theorem rowTakes_ready {c : Instr} {pick : Request → Bool} (h : rowTakes c = some (l, pick))
    (hh : (s.olc.get l).held = none) : ∃ act, exec c s = runRequest l pick act s := by
  obtain ⟨act, hact⟩ := rowTakes_exec h
  exact ⟨act, hact s fun _ => takeWaitingRoute_none l hh⟩

theorem runRequest_configFault {pick : Request → Bool} {code : Nat} (hp : pick r = true)
    (hc : s.cfl.load = .configFault code) (hn : s.notices = []) (hr : (s.olc.get l).reply = none)
    (hh : (s.olc.get l).held = none) (hw : (s.olc.get l).waiting.head? = some ⟨q, r⟩)
    (act : State → Telegram → State × Option ReplyBody) :
    runRequest l pick act s = .next (State.settleMarks s
      ((if r = .snapshot then (s.taken l).markAt l .partStatus else s.taken l).answer l q (.refused .notConfigured))) := by
  have htake : s.canTake l pick = some ⟨q, r⟩ := by
    cases hl : (s.olc.get l).waiting with
    | nil => simp [hl] at hw
    | cons x rest =>
      obtain rfl : x = ⟨q, r⟩ := by simpa [hl] using hw
      simp [State.canTake, hc, hr, hh, hl, hp]
  have hload : (s.modOlc l fun c => { c with waiting := c.waiting.tail }).cfl.load = .configFault code := hc
  rw [runRequest, State.takeRequest, htake]
  simp only [hload]
  rw [finish_of_none]
  · rfl
  · split <;> exact hn

theorem canTake_none {pick : Request → Bool}
    (h : s.cfl.load = .loading ∨ (s.olc.get l).reply ≠ none ∨ (s.olc.get l).held ≠ none ∨ (s.olc.get l).waiting = []
      ∨ ∃ t, (s.olc.get l).waiting.head? = some t ∧ pick t.request = false) : s.canTake l pick = none := by
  unfold State.canTake
  rcases h with h | h | h | h | ⟨x, hx, hp⟩
  · simp [h]
  · simp [h]
  · simp [h]
  · simp [h]
  · cases hl : (s.olc.get l).waiting with
    | nil => simp [hl]
    | cons y rest =>
      obtain rfl : y = x := by simpa [hl] using hx
      simp [hl, hp]

theorem unknownRequestKind_refused {k : Byte} (h : s.Ready l q (.unknown k)) :
    exec (.unknownRequestKind l) s = .next ((s.taken l).answer l q (.refused .notPermitted)) := by
  have ⟨_, hn, _⟩ := h
  have hr : Request.outOfRange (.unknown k) = false := rfl
  have hx : exec (.unknownRequestKind l) s = execUnknownRequestKind l s := rfl
  rw [hx, execUnknownRequestKind, runRequest_ready h rfl, hr]
  exact congrArg _ (finish_replied s l q _ hn)

/-- Settles O20: each row by its one act, and the arrival checks in their order. -/
theorem requestsAreJudgedInTheOrderOfTheArrivalChecks : Obligations.RequestsAreJudgedInTheOrderOfTheArrivalChecks := by
  refine ⟨⟨fun c l pick s q r code hc hp hl hn hr hh hw => ?_, fun c l pick s q r hc hp h hr => ?_,
    fun l s q k h => unknownRequestKind_refused h⟩, fun c l pick s hc hn hw h => ?_, fun s l q => ⟨fun code => ?_,
    fun b hb => (answer_rows s l q).2.1 b hb, fun b => (answer_rows s l q).2.2 b⟩⟩
  · obtain ⟨act, hact⟩ := rowTakes_ready hc hh
    rw [hact]
    exact runRequest_configFault hp hl hn hr hh hw act
  · have ⟨_, _, _, hh, _⟩ := h
    obtain ⟨act, hact⟩ := rowTakes_ready hc hh
    rw [hact]
    exact runRequest_of_out_of_range h hp hr act
  · obtain ⟨act, hact⟩ := rowTakes_exec hc
    rw [hact s hw]
    exact runRequest_none (canTake_none h) hn act
  · exact (answer_rows s l q).1 code

/-! ### The counters read (R157) -/

theorem clearCounts_lineClear (b c : BLink) :
    ({ s with blc := s.blc.set b { s.blcAt b with counts := ⟨0, 0, 0⟩ } } : State).lineClear c = s.lineClear c := by
  unfold State.lineClear State.lineFree State.blcAt
  by_cases h : b = c
  · subst h
    simp
    rfl
  · have hne : b.val ≠ c.val := fun k => h (Fin.ext k)
    simp [hne]
    rfl

/-- One boundary's counters cleared: its marks where they were not 0, and nothing else. -/
theorem clearCounts_rows (b : BLink) :
    (∀ c, (s.clearCounts b).blcAt c = if c = b then { s.blcAt c with counts := ⟨0, 0, 0⟩ } else s.blcAt c)
    ∧ MarksOnly s (s.clearCounts b)
    ∧ (∀ k o, o ∈ ((s.clearCounts b).olc.get k).marks ↔
        o ∈ (s.olc.get k).marks ∨ (o = .boundary b ∧ (s.blcAt b).counts ≠ ⟨0, 0, 0⟩))
    ∧ s.clearCounts b = { s with blc := (s.clearCounts b).blc, olc := (s.clearCounts b).olc } := by
  refine ⟨fun c => ?_, modBlc_marks s b _, fun k o => ?_, ?_⟩
  · by_cases h : c = b
    · subst h
      rw [if_pos rfl]
      exact blcAt_modBlc_same ..
    · rw [if_neg h]
      exact blcAt_modBlc_ne _ _ _ _ (Ne.symm h)
  · unfold State.clearCounts State.modBlc State.putBlc
    have hstill : Blc.still { s.blcAt b with counts := ⟨0, 0, 0⟩ } = (s.blcAt b).still ↔ (s.blcAt b).counts = ⟨0, 0, 0⟩ :=
      ⟨fun h => (congrArg Blc.counts h).symm, fun h => by rw [← h]⟩
    by_cases hz : (s.blcAt b).counts = ⟨0, 0, 0⟩
    · rw [if_pos ⟨hstill.2 hz, clearCounts_lineClear b b⟩]
      exact ⟨.inl, fun h => h.resolve_right fun k => k.2 hz⟩
    · rw [if_neg fun h => hz (hstill.1 h.1), marks_mark_iff]
      exact or_congr_right (and_iff_left hz).symm
  · unfold State.clearCounts State.modBlc State.putBlc
    dsimp only
    split <;> rfl

theorem clearAllCounts_rows (l : List BLink) (hl : l.Nodup) (s : State) :
    (∀ c, (l.foldl State.clearCounts s).blcAt c = if c ∈ l then { s.blcAt c with counts := ⟨0, 0, 0⟩ } else s.blcAt c)
    ∧ MarksOnly s (l.foldl State.clearCounts s)
    ∧ (∀ k o, o ∈ ((l.foldl State.clearCounts s).olc.get k).marks ↔
        o ∈ (s.olc.get k).marks ∨ ∃ b ∈ l, o = .boundary b ∧ (s.blcAt b).counts ≠ ⟨0, 0, 0⟩)
    ∧ l.foldl State.clearCounts s =
        { s with blc := (l.foldl State.clearCounts s).blc, olc := (l.foldl State.clearCounts s).olc } := by
  induction l generalizing s with
  | nil => exact ⟨fun c => by simp, .refl s, fun k o => by simp, rfl⟩
  | cons b l ih =>
    obtain ⟨hb, hl⟩ := List.nodup_cons.1 hl
    obtain ⟨hat, honly, hmarks, hrest⟩ := clearCounts_rows (s := s) b
    obtain ⟨iat, ionly, imarks, irest⟩ := ih hl (s.clearCounts b)
    refine ⟨fun c => ?_, honly.trans ionly, fun k o => ?_, ?_⟩
    · rw [List.foldl_cons, iat, hat]
      by_cases h : c = b
      · subst h
        simp [hb]
      · simp [h]
    · rw [List.foldl_cons, imarks, hmarks]
      have hsame : ∀ c ∈ l, (s.clearCounts b).blcAt c = s.blcAt c := fun c hc => by
        rw [hat, if_neg (show c ≠ b from fun h => hb (h ▸ hc))]
      simp only [List.exists_mem_cons_iff, or_assoc]
      refine or_congr_right (or_congr_right (exists_congr fun c => and_congr_right fun hc => ?_))
      rw [hsame c hc]
    · rw [List.foldl_cons, irest, hrest]

/-- The link's counters, CORRECTED and MISSED_EXCHANGES returned to 0. -/
def State.countersZero (s : State) (l : OpLink) : State :=
  { s.modOlc l fun c => { c with good := SatCounter.zero, discarded := SatCounter.zero, refused := SatCounter.zero } with
    lkc := { s.lkc with corrected := 0 }, tbc := { s.tbc with missed := 0 } }

theorem clearCounters_eq (s : State) (l : OpLink) : s.clearCounters l = blinks.foldl State.clearCounts (s.countersZero l) := rfl

theorem clearCounters_notices (s : State) (l : OpLink) : (s.clearCounters l).notices = s.notices := by
  obtain ⟨-, -, -, hrest⟩ := clearAllCounts_rows blinks (by decide) (s.countersZero l)
  rw [clearCounters_eq, hrest]
  rfl

theorem exec_readCounters_ready (h : s.Ready l q .readCounters) :
    exec (.readCounters l) s = .next (State.settleMarks s
      (((s.taken l).clearCounters l).answer l q (.acceptedCounters ((s.taken l).counterReading l)))) := by
  have ⟨_, hn, _⟩ := h
  have hx : exec (.readCounters l) s = execReadCounters l s := rfl
  rw [hx, execReadCounters, runRequest_answers h rfl rfl rfl, finish_of_none]
  rw [answer_notices, clearCounters_notices]
  exact hn

theorem readCounters_answers (h : s.Ready l q .readCounters) :
    ∃ t, exec (.readCounters l) s = .next t
      ∧ t.olc.get l = { s.olc.get l with
          waiting := (s.olc.get l).waiting.tail, reply := some (q, .acceptedCounters
            { good := (s.olc.get l).good, discarded := (s.olc.get l).discarded, refused := (s.olc.get l).refused
              corrected := s.lkc.corrected, missed := s.tbc.missed
              boundaries := [(s.blcAt 0).counts, (s.blcAt 1).counts, (s.blcAt 2).counts, (s.blcAt 3).counts]
              aou := s.aou.counters })
          good := SatCounter.zero, discarded := SatCounter.zero, refused := SatCounter.zero
          marks := (t.olc.get l).marks }
      ∧ t.olc.get (otherLink l) = { s.olc.get (otherLink l) with marks := (t.olc.get (otherLink l)).marks }
      ∧ (∀ k o, o ∈ (t.olc.get k).marks ↔
          o ∈ (s.olc.get k).marks ∨ ∃ b : BLink, o = .boundary b ∧ (s.blcAt b).counts ≠ ⟨0, 0, 0⟩)
      ∧ (∀ b, t.blcAt b = { s.blcAt b with counts := ⟨0, 0, 0⟩ })
      ∧ t = { s with lkc := { s.lkc with corrected := 0 }, tbc := { s.tbc with missed := 0 }, olc := t.olc, blc := t.blc } := by
  obtain ⟨body, hbody⟩ : ∃ body, body = ReplyBody.acceptedCounters ((s.taken l).counterReading l) := ⟨_, rfl⟩
  obtain ⟨z, hz⟩ : ∃ z, z = (s.taken l).countersZero l := ⟨_, rfl⟩
  obtain ⟨u, hu⟩ : ∃ u, u = blinks.foldl State.clearCounts z := ⟨_, rfl⟩
  obtain ⟨hat, honly, hmarks, hrest⟩ := clearAllCounts_rows blinks (by decide) z
  rw [← hu] at hat honly hmarks hrest
  have hall (b : BLink) : b ∈ blinks := by revert b; decide
  have hzmarks (k : OpLink) : (z.olc.get k).marks = (s.olc.get k).marks := by
    rw [hz]
    cases k <;> cases l <;> rfl
  have hzat (b : BLink) : z.blcAt b = s.blcAt b := by
    rw [hz]
    rfl
  have htmarks (k : OpLink) (o : Obj) : o ∈ ((State.settleMarks s (u.answer l q body)).olc.get k).marks ↔
      o ∈ (s.olc.get k).marks ∨ ∃ b : BLink, o = .boundary b ∧ (s.blcAt b).counts ≠ ⟨0, 0, 0⟩ := by
    have hanswer : ((u.answer l q body).olc.get k).marks = (u.olc.get k).marks := by cases k <;> cases l <;> rfl
    rw [settleMarks_mem, hanswer, hmarks, hzmarks]
    simp only [hzat]
    exact or_congr_right ⟨fun ⟨b, _, h⟩ => ⟨b, h⟩, fun ⟨b, h⟩ => ⟨b, hall b, h⟩⟩
  refine ⟨State.settleMarks s (u.answer l q body), ?_, ?_, ?_, htmarks, fun b => ?_, ?_⟩
  · rw [exec_readCounters_ready h, clearCounters_eq, ← hz, ← hu, ← hbody]
  · have hzget : z.olc.get l = { s.olc.get l with
        waiting := (s.olc.get l).waiting.tail
        good := SatCounter.zero, discarded := SatCounter.zero, refused := SatCounter.zero } := by
      rw [hz]
      cases l <;> rfl
    rw [settleMarks_get, answer_get_same, honly l, hzget, hbody]
    simp only [ReplyBody.isRefusal, Bool.false_eq_true, if_false, State.counterReading, taken_get_same]
    rfl
  · have hzget : z.olc.get (otherLink l) = s.olc.get (otherLink l) := by
      rw [hz]
      cases l <;> rfl
    rw [settleMarks_get, answer_get_ne _ _ _ (otherLink_ne l), honly (otherLink l), hzget]
  · refine (hat b).trans ?_
    rw [if_pos (hall b), hzat]
  · obtain ⟨blc', olc', hu'⟩ : ∃ b o, u = { z with blc := b, olc := o } := ⟨_, _, hrest⟩
    rw [hu', hz]
    rfl

/-! ### The set marked by a SNAPSHOT (R160) -/

/-- Marks in the order of their places, none twice. -/
def InOrder (l : List Obj) : Prop := l.Pairwise fun a b => a.rank ≤ b.rank

theorem sortObjs_of_inOrder {l : List Obj} (h : InOrder l) : sortObjs l = l := by
  induction l with
  | nil => rfl
  | cons o l ih =>
    obtain ⟨ho, hl⟩ := List.pairwise_cons.1 h
    rw [sortObjs, ih hl]
    cases l with
    | nil => rfl
    | cons p l => rw [insertObj, if_pos (ho p List.mem_cons_self)]

theorem snapshotObjects_inOrder {l : List Nat} (h : l.Pairwise (· < ·)) (hl : ∀ e ∈ l, e < 256) :
    InOrder (snapshotObjects l) := by
  have ranged {f : Nat → Obj} (n : Nat) (hf : ∀ x y, x < y → (f x).rank ≤ (f y).rank) :
      ((List.range n).map f).Pairwise fun a b => a.rank ≤ b.rank :=
    List.pairwise_map.2 (List.pairwise_lt_range.imp fun {x y} => hf x y)
  have helements : (l.map Obj.element).Pairwise fun a b => a.rank ≤ b.rank :=
    List.pairwise_map.2 (h.imp fun {x y} hxy => by simp only [Obj.rank]; omega)
  simp only [InOrder, snapshotObjects, List.cons_append, List.pairwise_cons, List.pairwise_append]
  refine ⟨fun _ _ => Nat.zero_le _, ⟨⟨⟨ranged 16 fun x y h => by simp only [Obj.rank]; omega, helements, ?_⟩,
    ranged 48 fun x y h => by simp only [Obj.rank]; omega, ?_⟩,
    ranged 4 fun x y h => by simp only [Obj.rank]; omega, ?_⟩, by simp [Obj.rank], ?_⟩
  · simp only [List.mem_map, List.mem_range]
    rintro _ ⟨x, hx, rfl⟩ _ ⟨y, hy, rfl⟩
    simp only [Obj.rank]
    omega
  · simp only [List.mem_append, List.mem_map, List.mem_range]
    rintro _ (⟨x, hx, rfl⟩ | ⟨x, hx, rfl⟩) _ ⟨y, hy, rfl⟩
    · simp only [Obj.rank]
      omega
    · have := hl x hx
      simp only [Obj.rank]
      omega
  · simp only [List.mem_append, List.mem_map, List.mem_range]
    rintro _ ((⟨x, hx, rfl⟩ | ⟨x, hx, rfl⟩) | ⟨x, hx, rfl⟩) _ ⟨y, hy, rfl⟩
    · simp only [Obj.rank]
      omega
    · have := hl x hx
      simp only [Obj.rank]
      omega
    · simp only [Obj.rank]
      omega
  · simp only [List.mem_append, List.mem_map, List.mem_range, List.mem_cons, List.not_mem_nil, or_false]
    rintro _ (((⟨x, hx, rfl⟩ | ⟨x, hx, rfl⟩) | ⟨x, hx, rfl⟩) | ⟨x, hx, rfl⟩) _ (rfl | rfl)
    all_goals
      first
        | (have := hl x hx; simp only [Obj.rank]; omega)
        | (simp only [Obj.rank]; omega)

theorem configured_inOrder (s : State) : InOrder (snapshotObjects s.configured) :=
  snapshotObjects_inOrder (List.pairwise_lt_range.sublist List.filter_sublist) fun e he => by
    simpa [Config.elementCount] using (List.mem_filter.1 he).1

/-- Objects added one after the other, none twice, follow those that stood there. -/
theorem foldl_addMark (m : List Obj) (hm : m.Nodup) (l : List Obj) :
    m.foldl (fun l o => addMark o l) l = l ++ m.filter fun o => !l.contains o := by
  induction m generalizing l with
  | nil => simp
  | cons o m ih =>
    obtain ⟨ho, hm⟩ := List.nodup_cons.1 hm
    rw [List.foldl_cons, ih hm, addMark]
    cases hc : l.contains o with
    | true => simp only [if_true, List.filter_cons, hc, Bool.not_true, Bool.false_eq_true, if_false]
    | false =>
      have hsame : (m.filter fun x => !(l ++ [o]).contains x) = m.filter fun x => !l.contains x :=
        List.filter_congr fun x hx => by
          have : x ≠ o := fun h => ho (h ▸ hx)
          simp [this]
      simp only [Bool.false_eq_true, if_false, hsame, List.filter_cons, hc, Bool.not_false, if_true, List.append_assoc,
        List.singleton_append]

/-- What was in the set keeps its place, and what follows in order stays as it stands. -/
theorem orderMarks_follow {b m : List Obj} (hm : InOrder m) :
    orderMarks b (b ++ m.filter fun o => !b.contains o) = b ++ m.filter fun o => !b.contains o := by
  have hnew : InOrder (m.filter fun o => !b.contains o) := hm.sublist List.filter_sublist
  have hold : ((b ++ m.filter fun o => !b.contains o).filter b.contains) = b := by
    rw [List.filter_append, List.filter_eq_self.2 (by simp), List.filter_filter]
    simp
  have hadded : ((b ++ m.filter fun o => !b.contains o).filter fun o => !b.contains o) = m.filter fun o => !b.contains o := by
    rw [List.filter_append, List.filter_filter]
    simp
  rw [orderMarks, hold, hadded, sortObjs_of_inOrder hnew]

theorem foldl_markAt (m : List Obj) (s : State) (l : OpLink) :
    m.foldl (fun s o => s.markAt l o) s = s.modOlc l fun c => { c with marks := m.foldl (fun k o => addMark o k) c.marks } := by
  induction m generalizing s with
  | nil => cases l <;> rfl
  | cons o m ih =>
    rw [List.foldl_cons, ih]
    cases l <;> rfl

theorem snapshot_eq (s : State) (l : OpLink) : s.snapshot l = s.modOlc l fun c =>
    { c with marks := c.marks ++ (snapshotObjects s.configured).filter fun o => !c.marks.contains o } := by
  rw [State.snapshot, foldl_markAt]
  simp only [foldl_addMark _ (snapshotObjects_nodup (configured_nodup s))]

theorem snapshot_answers (h : s.Ready l q .snapshot) :
    ∃ t, exec (.snapshot l) s = .next t
      ∧ t.olc.get l = { s.olc.get l with
          waiting := (s.olc.get l).waiting.tail, reply := some (q, .accepted)
          marks := (s.olc.get l).marks ++ (snapshotObjects s.configured).filter fun o => !(s.olc.get l).marks.contains o }
      ∧ t.olc.get (otherLink l) = s.olc.get (otherLink l)
      ∧ t = { s with olc := t.olc } := by
  have ⟨_, hn, _⟩ := h
  obtain ⟨u, hu⟩ : ∃ u, u = (s.taken l).snapshot l := ⟨_, rfl⟩
  have hx : exec (.snapshot l) s = .next (State.settleMarks s (u.answer l q .accepted)) := by
    have hx : exec (.snapshot l) s = execSnapshot l s := rfl
    rw [hx, execSnapshot, runRequest_answers h rfl rfl rfl, ← hu, finish_of_none]
    rw [answer_notices, hu, snapshot_eq]
    exact hn
  rw [snapshot_eq, taken_configured] at hu
  refine ⟨_, hx, ?_, ?_, ?_⟩
  · rw [settleMarks_get, answer_get_same, hu, modOlc_get_same, taken_get_same]
    simp only [orderMarks_follow (configured_inOrder s), ReplyBody.isRefusal, Bool.false_eq_true, if_false]
  · rw [settleMarks_get, answer_get_ne _ _ _ (otherLink_ne l), hu, modOlc_get_other _ _ _ _ (otherLink_ne l),
      taken_get_ne (otherLink_ne l), orderMarks_sub fun _ h => h]
  · rw [hu]
    rfl

/-- Settles O22: the counters read and cleared, and the set of a link marked. -/
theorem readCountersAndSnapshot : Obligations.ReadCountersAndSnapshot :=
  ⟨fun _ _ _ h => readCounters_answers h, fun _ _ _ h => snapshot_answers h⟩

end Sys2Proof.Machine
end

section
/-! Authority over the areas (R149 to R153: O23, O24), the timers of requests (R77, R151, R152, R162: O25) and auxiliary
operations (R161 to R164: O26 to O28). -/

namespace Sys2Proof.Machine

variable {s t u : State} {l : OpLink} {q : Word16} {a e : Nat} {b : ReplyBody}

/-! ### A change of holder ends without notices (R153) -/

@[simp] theorem dropAuthority_notices (s : State) (l : OpLink) (a : Nat) : (s.dropAuthority l a).notices = s.notices := by
  unfold State.dropAuthority
  exact foldl_kept State.notices (f := fun (s : State) e => s.removeEntry e .authorityLost) (fun _ _ => rfl) _ _

@[simp] theorem clearSelection_notices (s : State) (l : OpLink) (a : Nat) : (s.clearSelection l a).notices = s.notices := by
  unfold State.clearSelection
  split
  · split
    · exact Work.putSel_notices ..
    · rfl
  · rfl

@[simp] theorem changeHolder_notices (s : State) (a : Nat) (v : Holder) : (s.changeHolder a v).notices = s.notices := by
  unfold State.changeHolder
  dsimp only
  split <;> simp

/-! ### AUTH-TAKE, AUTH-OFFER and AUTH-RETURN by the holder (R149 to R151) -/

theorem authTake_answers (h : s.Ready l q (.authTake a)) (ha : a ≤ 15) (he : (s.taken l).takeArea l a = (u, b)) :
    exec (.authTake l) s = .next (State.finish s (u.answer l q b)) :=
  runRequest_answers h rfl (decide_eq_false (Nat.not_lt.2 ha)) (congrArg atOnce he)

theorem authOffer_answers (h : s.Ready l q (.authOffer a)) (ha : a ≤ 15) (he : (s.taken l).offerArea l a = (u, b)) :
    exec (.authOffer l) s = .next (State.finish s (u.answer l q b)) :=
  runRequest_answers h rfl (decide_eq_false (Nat.not_lt.2 ha)) (congrArg atOnce he)

theorem authReturn_answers (h : s.Ready l q (.authReturn a)) (ha : a ≤ 15) (he : (s.taken l).returnArea l a = (u, b)) :
    exec (.authReturn l) s = .next (State.finish s (u.answer l q b)) :=
  runRequest_answers h rfl (decide_eq_false (Nat.not_lt.2 ha)) (congrArg atOnce he)

theorem holderOf_ne_none (l : OpLink) : holderOf l ≠ .none := by cases l <;> nofun

theorem holderOf_otherLink_ne (l : OpLink) : holderOf (otherLink l) ≠ holderOf l := by cases l <;> nofun

/-- AUTH-TAKE: a free area, the link's own, the other link's with an offer, and without one. -/
theorem takeArea_rows (ha : a ≤ 15) :
    ((s.areaRec a).holder = .none → s.takeArea l a = (s.changeHolder a (holderOf l), .accepted))
    ∧ ((s.areaRec a).holder = holderOf l → s.takeArea l a = (s, .accepted))
    ∧ ((s.areaRec a).holder = holderOf (otherLink l) → (s.areaRec a).offer ≠ .stopped →
      s.takeArea l a = ((s.putArea a { s.areaRec a with force := .stopped }).changeHolder a (holderOf l), .accepted))
    ∧ ((s.areaRec a).holder = holderOf (otherLink l) → (s.areaRec a).offer = .stopped →
      s.takeArea l a = (s, .refused .heldByOther)) := by
  have hn := Nat.not_lt.2 ha
  refine ⟨fun h => ?_, fun h => ?_, fun h k => ?_, fun h k => ?_⟩
  · simp [State.takeArea, hn, h]
  · simp [State.takeArea, hn, h, holderOf_ne_none]
  · simp [State.takeArea, hn, h, holderOf_ne_none, holderOf_otherLink_ne, k]
  · simp [State.takeArea, hn, h, holderOf_ne_none, holderOf_otherLink_ne, k]

theorem offerArea_rows (ha : a ≤ 15) :
    ((s.areaRec a).holder ≠ holderOf l → s.offerArea l a = (s, .refused .noAuthority))
    ∧ ((s.areaRec a).holder = holderOf l → (s.areaRec a).force = .stopped →
      s.offerArea l a = (s.putArea a { s.areaRec a with offer := .running 300 }, .accepted))
    ∧ ((s.areaRec a).holder = holderOf l → (s.areaRec a).force ≠ .stopped →
      s.offerArea l a = (s.changeHolder a .localPanel, .accepted)) := by
  have hn := Nat.not_lt.2 ha
  refine ⟨fun h => ?_, fun h k => ?_, fun h k => ?_⟩
  · simp [State.offerArea, hn, h]
  · simp [State.offerArea, hn, h, k, Config.offerTime]
  · simp [State.offerArea, hn, h, k]

theorem returnArea_rows (ha : a ≤ 15) :
    ((s.areaRec a).holder ≠ holderOf l → s.returnArea l a = (s, .refused .noAuthority))
    ∧ ((s.areaRec a).holder = holderOf l → (s.areaRec a).force = .stopped →
      s.returnArea l a = (s.changeHolder a .none, .accepted))
    ∧ ((s.areaRec a).holder = holderOf l → (s.areaRec a).force ≠ .stopped →
      s.returnArea l a = (s.changeHolder a .localPanel, .accepted)) := by
  have hn := Nat.not_lt.2 ha
  refine ⟨fun h => ?_, fun h k => ?_, fun h k => ?_⟩
  · simp [State.returnArea, hn, h]
  · simp [State.returnArea, hn, h, k]
  · simp [State.returnArea, hn, h, k]

@[simp] theorem putAux_notices (s : State) (l : OpLink) (v : Option PendingAux) : (s.putAux l v).notices = s.notices := rfl

/-- The end of a row whose owner wrote records and sent no notice. -/
theorem finish_answered (hn : s.notices = []) (hu : u.notices = s.notices) :
    State.finish s (u.answer l q b) = State.settleMarks s (u.answer l q b) :=
  finish_of_none _ _ ((answer_notices ..).trans (hu.trans hn))

theorem authTake_rows (h : s.Ready l q (.authTake a)) (ha : a ≤ 15) :
    ((s.areaRec a).holder = .none →
      exec (.authTake l) s = .next (State.settleMarks s
        (((s.taken l).changeHolder a (holderOf l)).answer l q .accepted)))
    ∧ ((s.areaRec a).holder = holderOf l → exec (.authTake l) s = .next ((s.taken l).answer l q .accepted))
    ∧ ((s.areaRec a).holder = holderOf (otherLink l) → (s.areaRec a).offer ≠ .stopped →
      exec (.authTake l) s = .next (State.settleMarks s
        ((((s.taken l).putArea a { s.areaRec a with force := .stopped }).changeHolder a (holderOf l)).answer l q .accepted)))
    ∧ ((s.areaRec a).holder = holderOf (otherLink l) → (s.areaRec a).offer = .stopped →
      exec (.authTake l) s = .next ((s.taken l).answer l q (.refused .heldByOther))) := by
  have ⟨_, hn, _⟩ := h
  obtain ⟨hfree, hown, hoffered, hheld⟩ := takeArea_rows (s := s.taken l) (l := l) ha
  refine ⟨fun k => ?_, fun k => ?_, fun k k' => ?_, fun k k' => ?_⟩
  · rw [authTake_answers h ha (hfree k), finish_answered hn (by simp)]
  · rw [authTake_answers h ha (hown k), finish_replied s l q _ hn]
  · rw [authTake_answers h ha (hoffered k k'), finish_answered hn (by simp)]
    rfl
  · rw [authTake_answers h ha (hheld k k'), finish_replied s l q _ hn]

theorem authOffer_rows (h : s.Ready l q (.authOffer a)) (ha : a ≤ 15) :
    ((s.areaRec a).holder ≠ holderOf l →
      exec (.authOffer l) s = .next ((s.taken l).answer l q (.refused .noAuthority)))
    ∧ ((s.areaRec a).holder = holderOf l → (s.areaRec a).force = .stopped →
      exec (.authOffer l) s = .next (State.settleMarks s
        (((s.taken l).putArea a { s.areaRec a with offer := .running 300 }).answer l q .accepted)))
    ∧ ((s.areaRec a).holder = holderOf l → (s.areaRec a).force ≠ .stopped →
      exec (.authOffer l) s = .next (State.settleMarks s
        (((s.taken l).changeHolder a .localPanel).answer l q .accepted))) := by
  have ⟨_, hn, _⟩ := h
  obtain ⟨hforeign, hoffers, hforced⟩ := offerArea_rows (s := s.taken l) (l := l) ha
  refine ⟨fun k => ?_, fun k k' => ?_, fun k k' => ?_⟩
  · rw [authOffer_answers h ha (hforeign k), finish_replied s l q _ hn]
  · rw [authOffer_answers h ha (hoffers k k'), finish_answered hn (by simp)]
    rfl
  · rw [authOffer_answers h ha (hforced k k'), finish_answered hn (by simp)]

theorem authReturn_rows (h : s.Ready l q (.authReturn a)) (ha : a ≤ 15) :
    ((s.areaRec a).holder ≠ holderOf l →
      exec (.authReturn l) s = .next ((s.taken l).answer l q (.refused .noAuthority)))
    ∧ ((s.areaRec a).holder = holderOf l → (s.areaRec a).force = .stopped →
      exec (.authReturn l) s = .next (State.settleMarks s
        (((s.taken l).changeHolder a .none).answer l q .accepted)))
    ∧ ((s.areaRec a).holder = holderOf l → (s.areaRec a).force ≠ .stopped →
      exec (.authReturn l) s = .next (State.settleMarks s
        (((s.taken l).changeHolder a .localPanel).answer l q .accepted))) := by
  have ⟨_, hn, _⟩ := h
  obtain ⟨hforeign, hreturns, hforced⟩ := returnArea_rows (s := s.taken l) (l := l) ha
  refine ⟨fun k => ?_, fun k k' => ?_, fun k k' => ?_⟩
  · rw [authReturn_answers h ha (hforeign k), finish_replied s l q _ hn]
  · rw [authReturn_answers h ha (hreturns k k'), finish_answered hn (by simp)]
  · rw [authReturn_answers h ha (hforced k k'), finish_answered hn (by simp)]

/-- Settles O23: a number out of range, and each request by the area's holder. -/
theorem authRequestsByTheHolderOfTheArea : Obligations.AuthRequestsByTheHolderOfTheArea := by
  refine ⟨fun s l q a ha => ⟨fun h => ?_, fun h => ?_, fun h => ?_⟩, fun s l q a h ha => authTake_rows h ha,
    fun s l q a ha => ⟨fun h => authOffer_rows h ha, fun h => authReturn_rows h ha⟩, fun s l a => holdsArea_iff s l a,
    fun s l e => holdsElem_iff s l e, rfl, rfl⟩
  · exact runRequest_of_out_of_range h rfl (decide_eq_true ha) _
  · exact runRequest_of_out_of_range h rfl (decide_eq_true ha) _
  · exact runRequest_of_out_of_range h rfl (decide_eq_true ha) _

/-- Settles O24. -/
theorem aChangeOfHolderDropsTheOldHoldersWork : Obligations.AChangeOfHolderDropsTheOldHoldersWork :=
  fun s a v ha hn => changeHolder_rows s a v ha hn

/-! ### Timers of requests (R77, R151, R152, R162) -/

theorem exec_offerTimerExpiry (a : Nat) (s : State) : exec (.offerTimerExpiry a) s = execOfferTimerExpiry a s := rfl

theorem exec_forceTimerExpiry (a : Nat) (s : State) : exec (.forceTimerExpiry a) s = execForceTimerExpiry a s := rfl

theorem exec_auxWindowExpiry (l : OpLink) (s : State) : exec (.auxWindowExpiry l) s = execAuxWindowExpiry l s := rfl

theorem exec_selectionTimerExpiry (l : OpLink) (s : State) :
    exec (.selectionTimerExpiry l) s = execSelectionTimerExpiry l s := rfl

/-- Settles O25: each of the four timers by its record. -/
theorem requestTimersEndWhatTheyTime : Obligations.RequestTimersEndWhatTheyTime := by
  refine ⟨fun s a hn => ⟨fun h => ?_, fun h => ?_, fun h => ?_, fun h => ?_⟩, fun s l hn => ⟨fun p hp h => ?_, fun hp => ?_,
    fun v hv h => ?_, fun hv => ?_⟩⟩
  · rw [exec_offerTimerExpiry, execOfferTimerExpiry, if_pos h, finish_of_none _ _ (by simpa using hn)]
  · rw [exec_offerTimerExpiry, execOfferTimerExpiry, if_neg (by simp [h]), finish_self s hn]
  · rw [exec_forceTimerExpiry, execForceTimerExpiry, if_pos h, finish_of_none _ _ (by simpa using hn)]
  · rw [exec_forceTimerExpiry, execForceTimerExpiry, if_neg (by simp [h]), finish_self s hn]
  · simp only [exec_auxWindowExpiry, execAuxWindowExpiry, hp, h, if_true]
    exact congrArg _ (finish_of_none _ _ hn)
  · simp only [exec_auxWindowExpiry, execAuxWindowExpiry, hp]
    exact congrArg _ (finish_self s hn)
  · simp only [exec_selectionTimerExpiry, execSelectionTimerExpiry, hv, h, if_true, State.putSel, reduceCtorEq, if_false]
    exact congrArg _ (finish_of_none _ _ hn)
  · simp only [exec_selectionTimerExpiry, execSelectionTimerExpiry, hv]
    exact congrArg _ (finish_self s hn)

/-! ### AUX-ISSUE (R161) -/

theorem auxIssue_answers {k o : Nat} (h : s.Ready l q (.auxIssue k o)) (he : (s.taken l).issueAux l k o = (u, b)) :
    exec (.auxIssue l) s = .next (State.finish s (u.answer l q b)) :=
  runRequest_answers h rfl rfl (congrArg atOnce he)

/-- The kind, the object, the authority and the readiness, in this order. -/
theorem issueAux_rows (k o : Nat) :
    ((auxKindOf k = none ∨ (auxKindOf k = some .authForce ∧ l = .olC)) → s.issueAux l k o = (s, .refused .notPermitted))
    ∧ ∀ kind, auxKindOf k = some kind → (kind = .authForce → l = .olL) →
      (s.auxKnown kind o = false → s.issueAux l k o = (s, .refused .unknownObject))
      ∧ (s.auxKnown kind o = true → s.auxAllowed l kind o = false → s.issueAux l k o = (s, .refused .noAuthority))
      ∧ (s.auxKnown kind o = true → s.auxAllowed l kind o = true → s.auxReady kind o = false →
        s.issueAux l k o = (s, .refused .wrongState))
      ∧ (s.auxKnown kind o = true → s.auxAllowed l kind o = true → s.auxReady kind o = true →
        s.issueAux l k o = (s.putAux l (some ⟨kind, o, .running 200, false⟩), .accepted)) := by
  refine ⟨fun h => ?_, fun kind hk hl => ?_⟩
  · rcases h with h | ⟨h, rfl⟩
    · simp [State.issueAux, h]
    · simp [State.issueAux, h]
  · have hpermitted : (kind == .authForce && l == .olC) = false := by
      refine Bool.eq_false_iff.2 fun h => ?_
      simp only [Bool.and_eq_true, beq_iff_eq] at h
      exact nomatch (hl h.1).symm.trans h.2
    refine ⟨fun h1 => ?_, fun h1 h2 => ?_, fun h1 h2 h3 => ?_, fun h1 h2 h3 => ?_⟩
    · simp [State.issueAux, hk, hpermitted, h1]
    · simp [State.issueAux, hk, hpermitted, h1, h2]
    · simp [State.issueAux, hk, hpermitted, h1, h2, h3]
    · simp [State.issueAux, hk, hpermitted, h1, h2, h3, Config.auxWindow]

theorem auxIssue_rows {k o : Nat} (h : s.Ready l q (.auxIssue k o)) :
    ((auxKindOf k = none ∨ (auxKindOf k = some .authForce ∧ l = .olC)) →
      exec (.auxIssue l) s = .next ((s.taken l).answer l q (.refused .notPermitted)))
    ∧ ∀ kind, auxKindOf k = some kind → (kind = .authForce → l = .olL) →
      (s.auxKnown kind o = false → exec (.auxIssue l) s = .next ((s.taken l).answer l q (.refused .unknownObject)))
      ∧ (s.auxKnown kind o = true → s.auxAllowed l kind o = false →
        exec (.auxIssue l) s = .next ((s.taken l).answer l q (.refused .noAuthority)))
      ∧ (s.auxKnown kind o = true → s.auxAllowed l kind o = true → s.auxReady kind o = false →
        exec (.auxIssue l) s = .next ((s.taken l).answer l q (.refused .wrongState)))
      ∧ (s.auxKnown kind o = true → s.auxAllowed l kind o = true → s.auxReady kind o = true →
        exec (.auxIssue l) s = .next (State.settleMarks s
          (((s.taken l).putAux l (some ⟨kind, o, .running 200, false⟩)).answer l q .accepted))) := by
  have ⟨_, hn, _⟩ := h
  obtain ⟨hrefused, hrows⟩ := issueAux_rows (s := s.taken l) (l := l) k o
  refine ⟨fun hk => ?_, fun kind hk hl => ?_⟩
  · rw [auxIssue_answers h (hrefused hk), finish_replied s l q _ hn]
  · obtain ⟨hunknown, hforeign, hwrong, hissued⟩ := hrows kind hk hl
    refine ⟨fun h1 => ?_, fun h1 h2 => ?_, fun h1 h2 h3 => ?_, fun h1 h2 h3 => ?_⟩
    · rw [auxIssue_answers h (hunknown h1), finish_replied s l q _ hn]
    · rw [auxIssue_answers h (hforeign h1 h2), finish_replied s l q _ hn]
    · rw [auxIssue_answers h (hwrong h1 h2 h3), finish_replied s l q _ hn]
    · rw [auxIssue_answers h (hissued h1 h2 h3), finish_answered hn (by simp)]

theorem auxKindOf_rows (k : Nat) : (auxKindOf k = some .emergencyRelease ↔ k = 1)
    ∧ (auxKindOf k = some .sectionReset ↔ k = 2) ∧ (auxKindOf k = some .suspectClear ↔ k = 3)
    ∧ (auxKindOf k = some .authForce ↔ k = 4) ∧ (auxKindOf k = some .boundaryRelease ↔ k = 5) := by
  unfold auxKindOf
  split <;> simp_all

theorem unreleased_iff (r : Inst) (k : Nat) : r.unreleased k = true ↔ r.releasePtr ≤ k ∧ r.pathReleased = false := by
  simp [Inst.unreleased]

/-- Settles O26: the order of the checks, and each check by its own statement. -/
theorem auxIssueByItsChecks : Obligations.AuxIssueByItsChecks := by
  refine ⟨fun s l q k o h => auxIssue_rows h, auxKindOf_rows, fun s o => auxKnown_rows o, fun s l o => auxAllowed_rows l o,
    fun s o => auxReady_rows o, fun r d e => ?_, fun r d e => lists_iff r d e⟩
  obtain ⟨hpoint, hflank⟩ := lists_rows r d e
  exact ⟨unreleased_iff r, fun _ => mem_openItems, by simp [Inst.overlapHeld], hpoint, hflank⟩

/-! ### AUX-CONFIRM (R162 to R164) -/

theorem auxConfirm_answers {k o : Nat} (h : s.Ready l q (.auxConfirm k o)) (hr : Request.outOfRange (.auxConfirm k o) = false)
    (he : (s.taken l).confirmAux l k o = (u, b)) : exec (.auxConfirm l) s = .next (State.finish s (u.answer l q b)) :=
  runRequest_answers h rfl hr (congrArg atOnce he)

/-- The pending operation, its kind and object, the authority and the readiness, in this order. -/
theorem confirmAux_rows (k o : Nat) :
    ((s.olc.get l).aux = none → s.confirmAux l k o = (s, .refused .noPending))
    ∧ ∀ p, (s.olc.get l).aux = some p →
      ((auxKindOf k ≠ some p.kind ∨ o ≠ p.object) → s.confirmAux l k o = (s.putAux l none, .refused .noPending))
      ∧ (auxKindOf k = some p.kind → o = p.object →
        (s.auxAllowed l p.kind o = false → s.confirmAux l k o = (s.putAux l none, .refused .noAuthority))
        ∧ (s.auxAllowed l p.kind o = true → (p.broken = true ∨ s.auxReady p.kind o = false) →
          s.confirmAux l k o = (s.putAux l none, .refused .wrongState))
        ∧ (s.auxAllowed l p.kind o = true → p.broken = false → s.auxReady p.kind o = true →
          s.confirmAux l k o = (((s.putAux l none).executeAux p.kind o).countOp p.kind, .accepted))) := by
  refine ⟨fun h => by simp only [State.confirmAux, h], fun p hp => ⟨fun h => ?_, fun hk ho => ⟨fun h => ?_, fun h1 h2 => ?_,
    fun h1 h2 h3 => ?_⟩⟩⟩
  · simp only [State.confirmAux, hp, h, if_true]
  all_goals
    have hpending : ¬ (auxKindOf k ≠ some p.kind ∨ o ≠ p.object) := by simp [hk, ho]
    have hallowed : (s.putAux l none).auxAllowed l p.kind o = s.auxAllowed l p.kind o := rfl
    have hready : (s.putAux l none).auxReady p.kind o = s.auxReady p.kind o := rfl
    simp only [State.confirmAux, hp, hpending, hallowed, hready, if_false]
  · simp [h]
  · rcases h2 with h2 | h2 <;> simp [h1, h2]
  · simp [h1, h2, h3]

/-! ### What an operation leaves of the operator links -/

theorem desk_of_marksOnly (h : MarksOnly s t) (l : OpLink) : (t.olc.get l).desk = (s.olc.get l).desk := by
  rw [h l]
  rfl

theorem olc_of_besideElements (h : t.besideElements = s.besideElements) (l : OpLink) :
    (t.olc.get l).desk = (s.olc.get l).desk := by
  cases l
  · exact congrArg Desk.olC h
  · exact congrArg Desk.olL h

theorem mark_olc_desk (s : State) (o : Obj) (l : OpLink) : ((s.mark o).olc.get l).desk = (s.olc.get l).desk :=
  desk_of_marksOnly (marksOnly_mark s o) l

theorem putElem_olc_desk (s : State) (e : Nat) (r : Element) (l : OpLink) :
    ((s.putElem e r).olc.get l).desk = (s.olc.get l).desk := by
  unfold State.putElem
  split
  · rfl
  · exact mark_olc_desk _ _ l

theorem retestTrigger_olc (s : State) : s.retestTrigger.olc = s.olc := by
  obtain ⟨q, m, h⟩ := retestTrigger_rest (s := s)
  rw [h]

theorem suspectClear_olc_desk (s : State) (e : Nat) (l : OpLink) :
    ((s.suspectClear e).olc.get l).desk = (s.olc.get l).desk := by
  unfold State.suspectClear
  dsimp only
  rw [retestTrigger_olc]
  split
  · rfl
  · exact putElem_olc_desk ..
  · exact putElem_olc_desk ..
  · exact olc_of_besideElements (writeTrack_besideElements s e _) l
  · exact putElem_olc_desk ..

/-- An operation leaves what waits and what is pending at each link. -/
theorem executeAux_olc_desk (s : State) (k : AuxKind) (o : Nat) (l : OpLink) :
    ((s.executeAux k o).olc.get l).desk = (s.olc.get l).desk := by
  cases k with
  | emergencyRelease =>
    simp only [State.executeAux, State.emergencyRelease, State.modInst]
    split
    · unfold State.putInst
      split
      · rfl
      · exact mark_olc_desk _ _ l
    · rfl
  | sectionReset =>
    simp only [State.executeAux, State.sectionReset]
    split
    · rw [olc_of_besideElements (sectionChange_besideElements _ _ _) l]
      unfold State.putCount
      split
      · rfl
      · exact mark_olc_desk _ _ l
    · rfl
  | suspectClear => exact suspectClear_olc_desk s o l
  | authForce =>
    simp only [State.executeAux, State.putArea]
    split
    · rfl
    · exact mark_olc_desk _ _ l
  | boundaryRelease =>
    simp only [State.executeAux]
    split
    · exact desk_of_marksOnly (modBlc_marks s _ _) l
    · rfl

theorem countOp_olc (s : State) (k : AuxKind) : (s.countOp k).olc = s.olc := by
  unfold State.countOp State.writeCounters
  dsimp only
  split <;> rfl

theorem aux_none_of_desk {c d : Olc} (h : c.desk = d.desk) (hd : d.aux = none) : c.aux = none := by
  have haux : c.aux.map (fun (p : PendingAux) => { p with broken := false }) = none := by
    simpa [Olc.desk, hd] using congrArg Olc.aux h
  simpa using haux

theorem auxConfirm_executes {k o : Nat} {p : PendingAux} (h : s.Ready l q (.auxConfirm k o))
    (hr : Request.outOfRange (.auxConfirm k o) = false) (hp : (s.olc.get l).aux = some p) (hk : auxKindOf k = some p.kind)
    (ho : o = p.object) (h1 : s.auxAllowed l p.kind o = true) (h2 : p.broken = false) (h3 : s.auxReady p.kind o = true) :
    exec (.auxConfirm l) s = .next (State.finish s
        (((((s.taken l).putAux l none).executeAux p.kind o).countOp p.kind).answer l q .accepted))
      ∧ ∃ t, exec (.auxConfirm l) s = .next t ∧ t.aou = { s.aou with counters := countAux s.aou.counters p.kind }
        ∧ (s.cfl.writing = true → t.cfl = { s.cfl with writeAgain := true })
        ∧ (s.cfl.writing = false → t.cfl = { s.cfl with
            counterImage := countAux s.aou.counters p.kind, writing := true, writeAgain := false })
        ∧ (t.olc.get l).aux = none ∧ (t.olc.get l).reply = some (q, .accepted) := by
  have hp' : ((s.taken l).olc.get l).aux = some p := by
    rw [taken_get_same]
    exact hp
  have hexec := auxConfirm_answers h hr ((((confirmAux_rows (s := s.taken l) (l := l) k o).2 p hp').2 hk ho).2.2 h1 h2 h3)
  obtain ⟨t, ht, haou, hagain, hwrites⟩ := auxConfirm_counts s l q k o p h hr hp hk ho h1 h2 h3
  obtain ⟨v, hv⟩ : ∃ v, v = (s.taken l).putAux l none := ⟨_, rfl⟩
  have hvaux : (v.olc.get l).aux = none := by
    rw [hv]
    cases l <;> rfl
  obtain ⟨w, hw⟩ : ∃ w, w = (v.executeAux p.kind o).countOp p.kind := ⟨_, rfl⟩
  have hwaux : (w.olc.get l).aux = none := by
    rw [hw, countOp_olc]
    exact aux_none_of_desk (executeAux_olc_desk v p.kind o l) hvaux
  refine ⟨hexec, t, ht, haou, hagain, hwrites, ?_⟩
  rw [← hv, ← hw] at hexec
  obtain rfl : t = State.finish s (w.answer l q .accepted) := Host.Outcome.next.inj (ht.symm.trans hexec)
  have hdesk := olc_of_desk (finish_desk s (w.answer l q .accepted)) l
  exact ⟨aux_none_of_desk hdesk (by rw [answer_get_same]; exact hwaux),
    (congrArg Olc.reply hdesk).trans (congrArg Olc.reply (answer_get_same w l q .accepted))⟩

/-- Settles O27: the rows of AUX-CONFIRM, and an operation counted. -/
theorem auxConfirmByItsRows : Obligations.AuxConfirmByItsRows := by
  refine ⟨fun s l q k o h hr => ?_, fun c => ⟨rfl, rfl, rfl, rfl, rfl⟩, fun s k => countOp_rows s k⟩
  have ⟨_, hn, _⟩ := h
  have hget : ((s.taken l).olc.get l).aux = (s.olc.get l).aux := by rw [taken_get_same]
  obtain ⟨hnone, hrows⟩ := confirmAux_rows (s := s.taken l) (l := l) k o
  rw [hget] at hnone hrows
  refine ⟨fun hp => ?_, fun p hp => ?_⟩
  · rw [auxConfirm_answers h hr (hnone hp), finish_replied s l q _ hn]
  · obtain ⟨hother, hsame⟩ := hrows p hp
    refine ⟨fun hk => ?_, fun hk ho h1 => ?_, fun hk ho h1 h2 => ?_, fun hk ho h1 h2 h3 =>
      auxConfirm_executes h hr hp hk ho h1 h2 h3⟩
    · rw [auxConfirm_answers h hr (hother hk), finish_answered hn (by simp)]
    · rw [auxConfirm_answers h hr ((hsame hk ho).1 h1), finish_answered hn (by simp)]
    · rw [auxConfirm_answers h hr ((hsame hk ho).2.1 h1 h2), finish_answered hn (by simp)]

/-! ### The five operations (R19, R56, R133, R152, R183) -/

theorem inst_lt {i : Nat} {r : Inst} (h : s.inst i = some r) : i < 48 := by
  rcases Nat.lt_or_ge i 48 with k | k
  · exact k
  · simp [State.inst, Vector.getD, Nat.not_lt.2 k] at h

theorem emergencyRelease_inst {i : Nat} {r : Inst} (h : s.inst i = some r) :
    (s.emergencyRelease i).inst i = some { r with
      state := .emergency, emergency := .running 1200, setting := .stopped, approach := .stopped, overlapTimer := .stopped } := by
  simp only [State.emergencyRelease, State.modInst, h, State.putInst]
  split
  · rename_i hsame
    exact h.trans hsame
  · exact getD_set_same _ _ _ _ (inst_lt h)

theorem sectionReset_rows {c : SectCount} (h : s.count e = some c) :
    (s.sectionReset e).count e = some { c with
      count := 0, state := .resetPending, cause := none, deficitAge := 0, sweep := false, saturated := false }
    ∧ ∀ t, s.track? e = some t → ∃ t', (s.sectionReset e).track? e = some t' ∧ t'.occupancy = .resetPending
        ∧ t'.lock = t.lock := by
  obtain ⟨v, hv⟩ : ∃ v, v = s.putCount e { c with
    count := 0, state := .resetPending, cause := none, deficitAge := 0, sweep := false, saturated := false } := ⟨_, rfl⟩
  have hreset : s.sectionReset e = v.sectionChange e .resetPending := by
    simp only [State.sectionReset, h, hv]
  have hcount : ∀ x, (s.sectionReset e).count x = v.count x := fun x => by
    rw [hreset, State.count, State.count, (sectionChange_frame .resetPending).2.2.2]
  refine ⟨by rw [hcount, hv, count_putCount_same h], fun t ht => ?_⟩
  have ht' : v.track? e = some t := by
    rw [hv, State.track?, State.elem, putCount_lkc]
    exact ht
  rw [hreset]
  by_cases ho : t.occupancy = .resetPending
  · rw [sectionChange_same .resetPending fun k hk => by rw [ht'] at hk; cases hk; exact ho]
    exact ⟨t, ht', ho, rfl⟩
  · exact ⟨_, (sectionChange_rows ht' ho).1, rfl, rfl⟩

theorem suspectClear_elem_ne {x : Nat} (h : x ≠ e) : (s.suspectClear e).elem x = s.elem x := by
  unfold State.suspectClear
  dsimp only
  have htrigger (v : State) : v.retestTrigger.elem x = v.elem x := by
    obtain ⟨q, m, hv⟩ := retestTrigger_rest (s := v)
    rw [hv]
    rfl
  rw [htrigger]
  split
  · rfl
  · exact elem_putElem_ne _ _ _ _ (Ne.symm h)
  · exact elem_putElem_ne _ _ _ _ (Ne.symm h)
  · rw [writeTrack_elem]
    exact elem_putElem_ne _ _ _ _ (Ne.symm h)
  · exact elem_putElem_ne _ _ _ _ (Ne.symm h)

theorem cleared_notSuspect (s : State) (e : Nat) :
    (s.cleared e).isSuspect = false ∧ (s.cleared e).block? = (s.elem e).block?.map fun _ => false := by
  unfold State.cleared
  cases s.elem e <;> exact ⟨rfl, rfl⟩

/-- Settles O28: the effect of each of the five operations. -/
theorem auxiliaryOperationsTakeEffect : Obligations.AuxiliaryOperationsTakeEffect := by
  refine ⟨fun s i r h => emergencyRelease_inst h, fun s e c h => sectionReset_rows h, fun s e h => ?_, fun s a ha => ?_,
    fun s e r h => ?_⟩
  · obtain ⟨helem, hmarks, hruns, hempty, hstarts⟩ := suspectClear_rows s e h
    have hx : (s.executeAux .suspectClear e).elem e = s.cleared e := helem
    obtain ⟨hsuspect, hblock⟩ := cleared_notSuspect s e
    refine ⟨hx ▸ hsuspect, hx ▸ hblock, fun p hp => ?_, fun g hg => ?_, fun k c hk hc => ?_, fun b hb => ?_,
      fun x hne => suspectClear_elem_ne hne, fun hs => hmarks fun hsame => ?_, hruns, hempty, hstarts⟩
    · rw [point_of_elem, hx, State.cleared, point_of_elem.1 hp]
    · rw [signal_of_elem, hx, State.cleared, signal_of_elem.1 hg]
    · have hstate : s.aceState e = c.state := by simp [State.aceState, hc]
      rw [track_of_elem, hx, State.cleared, track_of_elem.1 hk, hstate]
    · have he : s.elem e = .boundary b := by
        unfold State.boundary? at hb
        cases hk : s.elem e <;> simp_all
      rw [State.boundary?, hx, State.cleared, he]
    · rw [hsame, hs] at hsuspect
      exact nomatch hsuspect
  · exact areaRec_putArea_same s a _ (by omega)
  · simp only [State.executeAux, h]
    exact blcAt_modBlc_same ..

end Sys2Proof.Machine
end

section
/-! SET_ROUTE by its checks (R68 to R74: O29) and the choice of a variant (R6, R65, R71: O30). -/

namespace Sys2Proof.Machine

variable {s t u : State} {l : OpLink} {q : Word16} {e x n : Nat} {f : Bool} {b : ReplyBody}

/-! ### A SET-ROUTE taken from its link (R68) -/

theorem setRoute_runs (h : s.Ready l q (.setRoute e x f n)) : exec (.setRoute l) s =
    runRequest l (Request.isKind 1) (fun s t =>
      match t.request with
      | .setRoute e x f n => s.reachRim l t.seq e x f n
      | _ => (s, none)) s := by
  have ⟨_, _, _, hheld, _⟩ := h
  exact execSetRoute_of_none (takeWaitingRoute_none l hheld)

theorem setRoute_inRange (he : e ≤ 255) (hx : x ≤ 255) : Request.outOfRange (.setRoute e x f n) = false := by
  simp [Request.outOfRange, he, hx]

theorem setRoute_answers (h : s.Ready l q (.setRoute e x f n)) (he : e ≤ 255) (hx : x ≤ 255)
    (hr : (s.taken l).reachRim l q e x f n = (u, some b)) :
    exec (.setRoute l) s = .next (State.finish s (u.answer l q b)) := by
  rw [setRoute_runs h]
  exact runRequest_answers h rfl (setRoute_inRange he hx) hr

theorem setRoute_holds (h : s.Ready l q (.setRoute e x f n)) (he : e ≤ 255) (hx : x ≤ 255)
    (hr : (s.taken l).reachRim l q e x f n = (u, none)) : exec (.setRoute l) s = .next (State.finish s u) := by
  rw [setRoute_runs h]
  exact runRequest_holds h rfl (setRoute_inRange he hx) hr

/-- Checks 1 and 2, and what the RIM does with a request that passes them. -/
theorem reachRim_rows (s : State) (l : OpLink) (q : Word16) (e x n : Nat) (f : Bool) :
    (∀ why, s.routeRefusal l e x = some why → s.reachRim l q e x f n = (s, some (.refused why)))
    ∧ (s.routeRefusal l e x = none →
      (s.rim.requests = [] → s.reachRim l q e x f n = ((s.rimRoute l e x f n).1, some (s.rimRoute l e x f n).2))
      ∧ (s.rim.requests ≠ [] → s.reachRim l q e x f n =
        (({ s with rim := { s.rim with requests := s.rim.requests ++ [.setRoute l q e x f n] } } : State).modOlc l fun c =>
          { c with held := some q }, none))) := by
  refine ⟨fun why h => by simp only [State.reachRim, h], fun h => ⟨fun k => ?_, fun k => ?_⟩⟩
  · simp [State.reachRim, h, k]
  · simp [State.reachRim, h, k]

theorem setRoute_waits (h : s.Ready l q (.setRoute e x f n)) (he : e ≤ 255) (hx : x ≤ 255)
    (hpass : s.routeRefusal l e x = none) (hw : s.rim.requests ≠ []) :
    exec (.setRoute l) s = .next (({ s with rim := { s.rim with
        requests := s.rim.requests ++ [.setRoute l q e x f n] } } : State).modOlc l fun c =>
      { c with waiting := c.waiting.tail, held := some q }) := by
  have ⟨_, hn, _⟩ := h
  rw [setRoute_holds h he hx (((reachRim_rows (s.taken l) l q e x n f).2 hpass).2 hw)]
  have hboth : ({ s.taken l with rim := { (s.taken l).rim with
        requests := (s.taken l).rim.requests ++ [.setRoute l q e x f n] } } : State).modOlc l (fun c => { c with held := some q })
      = ({ s with rim := { s.rim with requests := s.rim.requests ++ [.setRoute l q e x f n] } } : State).modOlc l fun c =>
        { c with waiting := c.waiting.tail, held := some q } := by
    cases l <;> rfl
  rw [hboth]
  refine congrArg _ (finish_of_quiet _ _ hn ?_ ?_) <;> cases l <;> exact fun _ h => h

/-- What a SET-ROUTE that reaches an empty RIM is answered. -/
theorem setRoute_reaches (h : s.Ready l q (.setRoute e x f n)) (he : e ≤ 255) (hx : x ≤ 255)
    (hpass : s.routeRefusal l e x = none) (hw : s.rim.requests = []) (hr : (s.taken l).rimRoute l e x f n = (u, b)) :
    exec (.setRoute l) s = .next (State.finish s (u.answer l q b)) := by
  have hreach := ((reachRim_rows (s.taken l) l q e x n f).2 hpass).1 hw
  rw [hr] at hreach
  exact setRoute_answers h he hx hreach

theorem setRoute_stores {g : SignalRec} {one : Nat} (h : s.Ready l q (.setRoute e x f n)) (he : e ≤ 255) (hx : x ≤ 255)
    (hg : s.signal? e = some g) (hpass : s.routeRefusal l e x = none) (hw : s.rim.requests = [])
    (ha : s.holdsArea l g.area = true) (hone : s.rankOne e x = some one) (hnew : (s.storeEntry one).isSome = false)
    (hfails : (s.taken l).tryRoute (.op l) (s.variants e x) = .noInstance
      ∨ ∃ b, (s.taken l).tryRoute (.op l) (s.variants e x) = .blocked b) (hf : f = true) :
    ((s.rqs.store.filter fun y => y.link == l).length < 8 →
      exec (.setRoute l) s = .next (State.settleMarks s
        ((({ s.taken l with rqs := { s.rqs with store := s.rqs.store ++
            [(⟨one, l, g.area, .running (s.lifetimeOf n), false, false, false, false, none⟩ : StoreEntry)] } }
          : State).mark .store).answer l q .stored)))
    ∧ (8 ≤ (s.rqs.store.filter fun y => y.link == l).length →
      exec (.setRoute l) s = .next ((s.taken l).answer l q (.refused .storeFull))) := by
  have ⟨_, hn, _⟩ := h
  have hroute : (s.taken l).rimRoute l e x f n = (s.taken l).handOff l one g.area ((s.taken l).lifetimeOf n) :=
    ((((rimRoute_rows (s := s.taken l) l e x n f).2 one hone).2 hnew).2.2.2) g hfails hf hg
  obtain ⟨-, hfull, hstored⟩ :=
    (handOff_rows (s := s.taken l) l one g.area ((s.taken l).lifetimeOf n)).2 hnew
  refine ⟨fun k => ?_, fun k => ?_⟩
  · rw [setRoute_reaches h he hx hpass hw (hroute.trans (hstored ha k)), finish_answered hn (by simp)]
    rfl
  · rw [setRoute_reaches h he hx hpass hw (hroute.trans (hfull ha k)), finish_replied s l q _ hn]

/-- The six checks of a SET-ROUTE taken from its link. -/
theorem setRoute_rows (h : s.Ready l q (.setRoute e x f n)) (he : e ≤ 255) (hx : x ≤ 255) :
    ((s.signal? e = none ∨ s.isEnd x = false) →
      exec (.setRoute l) s = .next ((s.taken l).answer l q (.refused .unknownObject)))
    ∧ ∀ g, s.signal? e = some g → s.isEnd x = true →
      (s.holdsArea l g.area = false → exec (.setRoute l) s = .next ((s.taken l).answer l q (.refused .noAuthority)))
      ∧ (s.holdsArea l g.area = true → s.rim.requests ≠ [] →
        exec (.setRoute l) s = .next (({ s with rim := { s.rim with
            requests := s.rim.requests ++ [.setRoute l q e x f n] } } : State).modOlc l fun c =>
          { c with waiting := c.waiting.tail, held := some q }))
      ∧ (s.holdsArea l g.area = true → s.rim.requests = [] →
        exec (.setRoute l) s = .next (State.finish s (((s.taken l).rimRoute l e x f n).1.answer l q
            ((s.taken l).rimRoute l e x f n).2))
        ∧ (s.rankOne e x = none → exec (.setRoute l) s = .next ((s.taken l).answer l q (.refused .noRoute)))
        ∧ ∀ one, s.rankOne e x = some one →
          ((s.storeEntry one).isSome = true →
            exec (.setRoute l) s = .next ((s.taken l).answer l q (.refused .duplicate)))
          ∧ ((s.storeEntry one).isSome = false →
            (∀ i d t, (s.taken l).tryRoute (.op l) (s.variants e x) = .reserved i d t →
              exec (.setRoute l) s = .next (State.finish s ((t.checkWaiting i).answer l q (.acceptedRoute i d.number))))
            ∧ ((s.taken l).tryRoute (.op l) (s.variants e x) = .noInstance → f = false →
              exec (.setRoute l) s = .next ((s.taken l).answer l q (.refused .noInstance)))
            ∧ (∀ b, (s.taken l).tryRoute (.op l) (s.variants e x) = .blocked b → f = false →
              exec (.setRoute l) s = .next ((s.taken l).answer l q (.refused (.unavailable b))))
            ∧ (((s.taken l).tryRoute (.op l) (s.variants e x) = .noInstance
                ∨ ∃ b, (s.taken l).tryRoute (.op l) (s.variants e x) = .blocked b) → f = true →
              ((s.rqs.store.filter fun y => y.link == l).length < 8 →
                exec (.setRoute l) s = .next (State.settleMarks s
                  ((({ s.taken l with rqs := { s.rqs with store := s.rqs.store ++
                      [(⟨one, l, g.area, .running (s.lifetimeOf n), false, false, false, false, none⟩ : StoreEntry)] } }
                    : State).mark .store).answer l q .stored)))
              ∧ (8 ≤ (s.rqs.store.filter fun y => y.link == l).length →
                exec (.setRoute l) s = .next ((s.taken l).answer l q (.refused .storeFull)))))) := by
  have ⟨_, hn, _⟩ := h
  obtain ⟨hunknown, hknown⟩ := routeRefusal_rows (s := s) l e x
  have refuses (why : RefusalCode) (hr : s.routeRefusal l e x = some why) :
      exec (.setRoute l) s = .next ((s.taken l).answer l q (.refused why)) := by
    rw [setRoute_answers h he hx ((reachRim_rows (s.taken l) l q e x n f).1 why hr), finish_replied s l q _ hn]
  refine ⟨fun k => refuses _ (hunknown k), fun g hg hend => ?_⟩
  obtain ⟨hforeign, hpass⟩ := hknown g hg hend
  refine ⟨fun ha => refuses _ (hforeign ha), fun ha hw => setRoute_waits h he hx (hpass ha) hw, fun ha hw => ?_⟩
  have reaches {u : State} {b : ReplyBody} := setRoute_reaches (u := u) (b := b) h he hx (hpass ha) hw
  have replies {b : ReplyBody} (hr : (s.taken l).rimRoute l e x f n = (s.taken l, b)) :
      exec (.setRoute l) s = .next ((s.taken l).answer l q b) := by
    rw [reaches hr, finish_replied s l q _ hn]
  obtain ⟨hnoRoute, hroute⟩ := rimRoute_rows (s := s.taken l) l e x n f
  refine ⟨reaches rfl, fun k => replies (hnoRoute k), fun one hone => ?_⟩
  obtain ⟨hduplicate, htries⟩ := hroute one hone
  refine ⟨fun k => replies (hduplicate k), fun hnew => ?_⟩
  obtain ⟨hreserved, hnone, hblocked, -⟩ := htries hnew
  exact ⟨fun i d t k => reaches (hreserved i d t k), fun k k' => replies (hnone k k'), fun b k k' => replies (hblocked b k k'),
    fun hfails hf => setRoute_stores h he hx hg (hpass ha) hw ha hone hnew hfails hf⟩

/-! ### A SET-ROUTE taken from the RIM (R69) -/

theorem setRoute_fromRim {rest : List RouteRequest} (hr : s.rim.requests = .setRoute l q e x f n :: rest)
    (hh : (s.olc.get l).held = some q) :
    let s0 : State := { s with rim := { s.rim with requests := rest } }
    exec (.setRoute l) s = .next (State.finish s ((s0.rimRoute l e x f n).1.answerHeld l q (s0.rimRoute l e x f n).2))
      ∧ ∃ t, exec (.setRoute l) s = .next t ∧ (t.olc.get l).held = none
        ∧ (t.olc.get l).reply = some (q, (s0.rimRoute l e x f n).2) := by
  intro s0
  have hexec : exec (.setRoute l) s =
      .next (State.finish s ((s0.rimRoute l e x f n).1.answerHeld l q (s0.rimRoute l e x f n).2)) := by
    have hx : exec (.setRoute l) s = execSetRoute l s := rfl
    have htake : s.takeWaitingRoute l = some ((s0.rimRoute l e x f n).1.answerHeld l q (s0.rimRoute l e x f n).2) := by
      simp only [State.takeWaitingRoute, hr, hh, and_self, if_true]
      rfl
    rw [hx, execSetRoute, htake]
  generalize s0.rimRoute l e x f n = z at hexec ⊢
  have hget : (z.1.answerHeld l q z.2).olc.get l = { z.1.olc.get l with
      held := none, reply := some (q, z.2)
      refused := if z.2.isRefusal then incCounter (z.1.olc.get l).refused else (z.1.olc.get l).refused } := by
    rw [State.answerHeld, answer_get_same, modOlc_get_same]
  have hdesk := olc_of_desk (finish_desk s (z.1.answerHeld l q z.2)) l
  refine ⟨hexec, _, hexec, (congrArg Olc.held hdesk).trans ?_, (congrArg Olc.reply hdesk).trans ?_⟩
  · exact congrArg Olc.held hget
  · exact congrArg Olc.reply hget

/-- Settles O29: a request from its link, one from the RIM, and the checks by their own statements. -/
theorem setRouteByItsChecks : Obligations.SetRouteByItsChecks :=
  ⟨fun _ _ _ _ _ _ _ h he hx => setRoute_rows h he hx, fun _ _ _ _ _ _ _ _ hr hh => setRoute_fromRim hr hh,
    fun _ l e x n f => rimRoute_rows l e x n f, fun s n => lifetimeOf_rows s n,
    fun _ l one a n hnew => (handOff_rows l one a n).2 hnew⟩

/-! ### The trial of the variants (R71) -/

theorem freeInst_none : s.freeInst = none ↔ ∀ i, i < 48 → s.inst i ≠ none := by
  simp [State.freeInst, List.find?_eq_none, Config.instCount]

theorem freeInst_some {i : Nat} (h : s.freeInst = some i) :
    i < 48 ∧ s.inst i = none ∧ ∀ j, j < i → s.inst j ≠ none := by
  unfold State.freeInst at h
  obtain ⟨hfree, hi, hbefore⟩ := List.find?_range_eq_some.1 h
  refine ⟨List.mem_range.1 hi, by simpa using hfree, fun j hj => ?_⟩
  exact Option.ne_none_iff_isSome.2 (by simpa using hbefore j hj)

/-- A trial that passes takes the first variant whose reservation passes. -/
theorem tryVariants_reserved {o : Origin} {i j : Nat} {d : RouteDef} (ds : List RouteDef) (first : Option Nat)
    (h : s.tryVariants o i ds first = .reserved j d t) : j = i ∧ ∃ pre post r, ds = pre ++ d :: post
      ∧ (∀ p ∈ pre, ∃ e, s.reserve i p = .error e) ∧ s.reserve i d = .ok r
      ∧ t = r.state.putInst i (some (newInst o d r s.cfl.settingTime)) := by
  induction ds generalizing first with
  | nil => simp [State.tryVariants] at h
  | cons y ds ih =>
    rw [State.tryVariants] at h
    cases hy : s.reserve i y with
    | ok r =>
      rw [hy] at h
      simp only [Trial.reserved.injEq] at h
      obtain ⟨rfl, rfl, rfl⟩ := h
      exact ⟨rfl, [], ds, r, rfl, by simp, hy, rfl⟩
    | error e =>
      rw [hy] at h
      obtain ⟨hj, pre, post, r, rfl, hpre, hr, ht⟩ := ih _ h
      refine ⟨hj, y :: pre, post, r, rfl, fun p hp => ?_, hr, ht⟩
      rcases List.mem_cons.1 hp with rfl | hp
      · exact ⟨e, hy⟩
      · exact hpre p hp

/-- A trial that is blocked names the element that blocked the first variant, or the one named before it. -/
theorem tryVariants_blocked {o : Origin} {i e : Nat} (ds : List RouteDef) (first : Option Nat)
    (h : s.tryVariants o i ds first = .blocked e) : (∀ p ∈ ds, ∃ e', s.reserve i p = .error e')
      ∧ (∀ e0, first = some e0 → e = e0) ∧ ∀ d ds', first = none → ds = d :: ds' → s.reserve i d = .error e := by
  induction ds generalizing first with
  | nil =>
    refine ⟨nofun, fun e0 he => ?_, nofun⟩
    rw [State.tryVariants, he] at h
    simpa using h.symm
  | cons y ds ih =>
    rw [State.tryVariants] at h
    cases hy : s.reserve i y with
    | ok r => simp [hy] at h
    | error e1 =>
      rw [hy] at h
      obtain ⟨hall, hfirst, -⟩ := ih _ h
      refine ⟨fun p hp => ?_, fun e0 he => hfirst e0 (by rw [he]; rfl), fun d ds' hn hd => ?_⟩
      · rcases List.mem_cons.1 hp with rfl | hp
        · exact ⟨e1, hy⟩
        · exact hall p hp
      · cases hd
        rw [hy, hfirst e1 (by rw [hn]; rfl)]

theorem tryVariants_some {o : Origin} {i : Nat} (ds : List RouteDef) (first : Option Nat) :
    s.tryVariants o i ds first ≠ .noInstance := by
  induction ds generalizing first with
  | nil => simp [State.tryVariants]
  | cons y ds ih =>
    rw [State.tryVariants]
    cases s.reserve i y with
    | ok r => simp
    | error e => exact ih _

theorem tryRoute_rows (s : State) (o : Origin) (ds : List RouteDef) :
    (s.tryRoute o ds = .noInstance ↔ ∀ i, i < 48 → s.inst i ≠ none)
    ∧ (∀ i d t, s.tryRoute o ds = .reserved i d t → i < 48 ∧ s.inst i = none ∧ (∀ j, j < i → s.inst j ≠ none)
        ∧ ∃ pre post r, ds = pre ++ d :: post ∧ (∀ p ∈ pre, ∃ e, s.reserve i p = .error e)
          ∧ s.reserve i d = .ok r ∧ t = r.state.putInst i (some (newInst o d r s.cfl.settingTime)))
    ∧ (∀ d ds' e, ds = d :: ds' → s.tryRoute o ds = .blocked e →
        ∃ i, s.inst i = none ∧ s.reserve i d = .error e ∧ ∀ p ∈ ds', ∃ e', s.reserve i p = .error e') := by
  cases hfree : s.freeInst with
  | none =>
    have htry : s.tryRoute o ds = .noInstance := by rw [State.tryRoute, hfree]
    rw [htry]
    exact ⟨⟨fun _ => freeInst_none.1 hfree, fun _ => rfl⟩, by simp, by simp⟩
  | some i =>
    obtain ⟨hi, hnone, hbefore⟩ := freeInst_some hfree
    have htry : s.tryRoute o ds = s.tryVariants o i ds none := by rw [State.tryRoute, hfree]
    rw [htry]
    refine ⟨⟨fun h => absurd h (tryVariants_some ds none), fun h => absurd hnone (h i hi)⟩, fun j d t h => ?_,
      fun d ds' e hd h => ?_⟩
    · obtain ⟨rfl, hrest⟩ := tryVariants_reserved ds none h
      exact ⟨hi, hnone, hbefore, hrest⟩
    · obtain ⟨hall, -, hfirst⟩ := tryVariants_blocked ds none h
      exact ⟨i, hnone, hfirst d ds' rfl hd, fun p hp => hall p (hd ▸ List.mem_cons_of_mem _ hp)⟩

/-- Settles O30: the variants, the trial in their order, and the conditions of each item. -/
theorem theFirstVariantThatReservesIsChosen : Obligations.TheFirstVariantThatReservesIsChosen := by
  refine ⟨fun s e x => ?_, fun s o ds => ?_⟩
  · obtain ⟨hmem, hranks⟩ := variants_rows s e x
    obtain ⟨hnone, hone⟩ := rankOne_rows s e x
    exact ⟨hmem, hranks, hnone, hone, isEntry_iff s e⟩
  · obtain ⟨hnone, hreserved, hblocked⟩ := tryRoute_rows s o ds
    refine ⟨hnone, fun i d t h => ?_, hblocked, fun i d => reserve_rows i d, fun chosen f l => chooseAll_rows chosen f l,
      fun d => ?_⟩
    · obtain ⟨hi, hfree, hbefore, pre, post, r, hds, hpre, hr, rfl⟩ := hreserved i d t h
      exact ⟨hi, hfree, hbefore, pre, post, r, hds, hpre, hr, rfl, inst_putInst_same _ _ _ hi, rfl, rfl, rfl, rfl, rfl,
        rfl, rfl, rfl, rfl⟩
    · obtain ⟨hentrySignal, hentryBoundary, hentryNone⟩ := entryItemOk_rows (s := s) d
      obtain ⟨hexitSignal, hexitBoundary, hexitNone⟩ := exitItemOk_rows (s := s) d
      exact ⟨sectionItemOk_iff d, shuntLast_iff d, pointItemOk_iff d, sectionTransfer_iff d, pointTransfer_iff d, hentrySignal,
        hentryBoundary, hentryNone, hexitSignal, hexitBoundary, hexitNone⟩

end Sys2Proof.Machine
end

section
/-! PRESS (R75, R76: O32) and STORE_CANCEL (R144: O35). -/

namespace Sys2Proof.Machine

variable {s t u : State} {l : OpLink} {q : Word16} {e x n : Nat} {b : ReplyBody}

/-! ### What a press selection leaves as it was (R75) -/

theorem putSel_held {v : Option Selection} (h : s.rim.sel.get l ≠ v) :
    s.putSel l v = ({ s with rim := { s.rim with sel := s.rim.sel.set l v } } : State).markAt l .partStatus := if_neg h

theorem putSel_notices (v : Option Selection) : (s.putSel l v).notices = s.notices := Work.putSel_notices ..

theorem routeRefusal_putSel (v : Option Selection) :
    (s.putSel l v).routeRefusal l e x = s.routeRefusal l e x := by
  unfold State.putSel
  split <;> rfl

theorem requests_putSel (v : Option Selection) : (s.putSel l v).rim.requests = s.rim.requests := by
  unfold State.putSel
  split <;> rfl

/-! ### A PRESS by its case -/

theorem press_answers (h : s.Ready l q (.press e)) (he : e ≤ 255) (hp : (s.taken l).pressed l q e = (u, some b)) :
    exec (.press l) s = .next (State.finish s (u.answer l q b)) :=
  runRequest_answers h rfl (decide_eq_false (Nat.not_lt.2 he)) hp

theorem press_holds (h : s.Ready l q (.press e)) (he : e ≤ 255) (hp : (s.taken l).pressed l q e = (u, none)) :
    exec (.press l) s = .next (State.finish s u) :=
  runRequest_holds h rfl (decide_eq_false (Nat.not_lt.2 he)) hp

/-- A PRESS whose answer leaves the selection `v`. -/
theorem press_selects {v : Option Selection} (h : s.Ready l q (.press e)) (he : e ≤ 255)
    (hp : (s.taken l).pressed l q e = ((s.taken l).putSel l v, some b)) :
    exec (.press l) s = .next (State.settleMarks s (((s.taken l).putSel l v).answer l q b)) := by
  have ⟨_, hn, _⟩ := h
  rw [press_answers h he hp, finish_answered hn (by rw [putSel_notices]; rfl)]

theorem pressed_unknown (h : (s.elem e).area? = none) :
    s.pressed l q e = (s.putSel l none, some (.refused .unknownObject)) := by
  simp only [State.pressed, h, Option.isNone_none, if_true]

theorem pressed_first (h : (s.elem e).area? ≠ none) (hv : s.rim.sel.get l = none) :
    s.pressed l q e = ((s.pressFirst l e).1, some (s.pressFirst l e).2) := by
  simp only [State.pressed, Option.isNone_iff_eq_none, h, if_false, hv]

theorem pressed_second {v : Selection} (h : (s.elem e).area? ≠ none) (hv : s.rim.sel.get l = some v) :
    s.pressed l q e = s.pressSecond l q v.signal e := by
  simp only [State.pressed, Option.isNone_iff_eq_none, h, if_false, hv]

theorem pressFirst_rows (s : State) (l : OpLink) (e : Nat) :
    ((s.signal? e).isSome = true → s.isEntry e = true → s.holdsElem l e = true →
      s.pressFirst l e = (s.putSel l (some ⟨e, .running 100⟩), .accepted))
    ∧ ((s.signal? e).isSome = true → s.isEntry e = true → s.holdsElem l e = false →
      s.pressFirst l e = (s, .refused .noAuthority))
    ∧ (((s.signal? e).isSome = false ∨ s.isEntry e = false) → s.pressFirst l e = (s, .refused .noRoute)) := by
  refine ⟨fun h k m => ?_, fun h k m => ?_, fun h => ?_⟩
  · simp [State.pressFirst, h, k, m, State.select, Config.selectionTime]
  · simp [State.pressFirst, h, k, m]
  · rcases h with h | h <;> simp [State.pressFirst, h]

theorem pressSecond_rows (s : State) (l : OpLink) (q : Word16) (x e : Nat) :
    (e = x → s.pressSecond l q x e = (s.putSel l none, some .accepted))
    ∧ (e ≠ x → s.variants x e ≠ [] → s.pressSecond l q x e = (s.putSel l none).reachRim l q x e false 0)
    ∧ (e ≠ x → s.variants x e = [] → ((s.signal? e).isSome && s.isEntry e && s.holdsElem l e) = true →
      s.pressSecond l q x e = (s.putSel l (some ⟨e, .running 100⟩), some .accepted))
    ∧ (e ≠ x → s.variants x e = [] → ((s.signal? e).isSome && s.isEntry e && s.holdsElem l e) = false →
      s.pressSecond l q x e = (s.putSel l none, some (.refused .noRoute))) := by
  refine ⟨fun h => ?_, fun h k => ?_, fun h k m => ?_, fun h k m => ?_⟩
  · simp only [State.pressSecond, h, if_true]
  · simp [State.pressSecond, h, k]
  · simp only [State.pressSecond, h, k, m, if_false, if_true, List.isEmpty_nil, Bool.not_true, Bool.false_eq_true, State.select,
      Config.selectionTime]
  · simp only [State.pressSecond, h, k, m, if_false, List.isEmpty_nil, Bool.not_true, Bool.false_eq_true]

/-- A pair completed while a route request waits: the request waits behind it, its reply held back. -/
theorem press_waits {v : Selection} (h : s.Ready l q (.press e)) (he : e ≤ 255) (hv : s.rim.sel.get l = some v)
    (hp : (s.taken l).pressed l q e = ((s.taken l).putSel l none).reachRim l q x e false 0)
    (hpass : s.routeRefusal l x e = none) (hw : s.rim.requests ≠ []) :
    exec (.press l) s = .next (State.settleMarks s
      ((({ s with rim := { s.rim with
          sel := s.rim.sel.set l none
          requests := s.rim.requests ++ [.setRoute l q x e false 0] } } : State).modOlc l
        fun c => { c with waiting := c.waiting.tail, held := some q }).markAt l .partStatus)) := by
  have ⟨_, hn, _⟩ := h
  have hsel : (s.taken l).rim.sel.get l ≠ none := by
    rw [show (s.taken l).rim.sel.get l = some v from hv]
    nofun
  have hreach := ((reachRim_rows ((s.taken l).putSel l none) l q x e 0 false).2 ((routeRefusal_putSel none).trans hpass)).2
    fun k => hw ((requests_putSel (s := s.taken l) none).symm.trans k)
  rw [hreach, putSel_held hsel] at hp
  rw [press_holds h he hp, finish_of_none _ _ (by exact hn)]
  cases l <;> rfl

/-- A pair completed: the checks of the SET-ROUTE it issues. -/
theorem press_completes {v : Selection} (h : s.Ready l q (.press e)) (he : e ≤ 255) (hv : s.rim.sel.get l = some v)
    (hp : (s.taken l).pressed l q e = ((s.taken l).putSel l none).reachRim l q x e false 0) :
    ((s.signal? x = none ∨ s.isEnd e = false) → exec (.press l) s = .next (State.settleMarks s
      (((s.taken l).putSel l none).answer l q (.refused .unknownObject))))
    ∧ ∀ g, s.signal? x = some g → s.isEnd e = true →
      (s.holdsArea l g.area = false → exec (.press l) s = .next (State.settleMarks s
        (((s.taken l).putSel l none).answer l q (.refused .noAuthority))))
      ∧ (s.holdsArea l g.area = true → s.rim.requests = [] → exec (.press l) s = .next (State.finish s
        ((((s.taken l).putSel l none).rimRoute l x e false 0).1.answer l q
          (((s.taken l).putSel l none).rimRoute l x e false 0).2)))
      ∧ (s.holdsArea l g.area = true → s.rim.requests ≠ [] → exec (.press l) s = .next (State.settleMarks s
        ((({ s with rim := { s.rim with
            sel := s.rim.sel.set l none
            requests := s.rim.requests ++ [.setRoute l q x e false 0] } } : State).modOlc l
          fun c => { c with waiting := c.waiting.tail, held := some q }).markAt l .partStatus))) := by
  obtain ⟨hrefused, hpasses⟩ := reachRim_rows ((s.taken l).putSel l none) l q x e 0 false
  have refuses (why : RefusalCode) (hr : s.routeRefusal l x e = some why) : exec (.press l) s =
      .next (State.settleMarks s (((s.taken l).putSel l none).answer l q (.refused why))) :=
    press_selects h he (hp.trans (hrefused why ((routeRefusal_putSel none).trans hr)))
  obtain ⟨hunknown, hknown⟩ := routeRefusal_rows (s := s) l x e
  refine ⟨fun k => refuses _ (hunknown k), fun g hg hend => ?_⟩
  obtain ⟨hforeign, hpass⟩ := hknown g hg hend
  refine ⟨fun ha => refuses _ (hforeign ha), fun ha hw => ?_, fun ha hw => press_waits h he hv hp (hpass ha) hw⟩
  exact press_answers h he (hp.trans ((hpasses ((routeRefusal_putSel none).trans (hpass ha))).1
    ((requests_putSel none).trans hw)))

/-- Settles O32: by whether the element is configured, by the selection, and by the pair it completes. -/
theorem pressByTheSelection : Obligations.PressByTheSelection := by
  intro s l q e h he
  have ⟨_, hn, _⟩ := h
  refine ⟨fun ha => press_selects h he (pressed_unknown ha), fun ha hv => ?_, fun v ha hv => ?_⟩
  · have hp := pressed_first (s := s.taken l) (l := l) (q := q) ha hv
    obtain ⟨hselects, hforeign, hnoRoute⟩ := pressFirst_rows (s.taken l) l e
    refine ⟨fun k m o => ?_, fun k m o => ?_, fun k => ?_⟩
    · rw [hselects k m o] at hp
      exact press_selects h he hp
    · rw [hforeign k m o] at hp
      rw [press_answers h he hp, finish_replied s l q _ hn]
    · rw [hnoRoute k] at hp
      rw [press_answers h he hp, finish_replied s l q _ hn]
  · have hp := pressed_second (s := s.taken l) (l := l) (q := q) ha hv
    obtain ⟨hsame, hpair, hother, hnone⟩ := pressSecond_rows (s.taken l) l q v.signal e
    exact ⟨fun k => press_selects h he (hp.trans (hsame k)), fun k m => press_completes h he hv (hp.trans (hpair k m)),
      fun k m o => press_selects h he (hp.trans (hother k m o)), fun k m o => press_selects h he (hp.trans (hnone k m o))⟩

/-! ### STORE-CANCEL by the entry's lifted mark (R144) -/

theorem storeCancel_answers (h : s.Ready l q (.storeCancel n)) (hi : n ≤ 511)
    (hc : (s.taken l).storeCancel l n q = (u, some b)) : exec (.storeCancel l) s = .next (State.finish s (u.answer l q b)) :=
  runRequest_answers h rfl (decide_eq_false (Nat.not_lt.2 hi)) hc

theorem storeCancel_holds (h : s.Ready l q (.storeCancel n)) (hi : n ≤ 511)
    (hc : (s.taken l).storeCancel l n q = (u, none)) : exec (.storeCancel l) s = .next (State.finish s u) :=
  runRequest_holds h rfl (decide_eq_false (Nat.not_lt.2 hi)) hc

theorem storeCancel_rows (s : State) (l : OpLink) (n : Nat) (q : Word16) :
    ((s.routeDef n).all (fun d => d.cls == .boundaryIn) = true →
      s.storeCancel l n q = (s, some (.refused .unknownObject)))
    ∧ ∀ d, s.routeDef n = some d → d.cls ≠ .boundaryIn →
      (s.holdsElem l d.entry = false → s.storeCancel l n q = (s, some (.refused .noAuthority)))
      ∧ (s.holdsElem l d.entry = true →
        (((s.rankOne d.entry d.exit).bind s.storeEntry).all (fun y => y.link != l) = true →
          s.storeCancel l n q = (s, some (.refused .wrongState)))
        ∧ ∀ y, (s.rankOne d.entry d.exit).bind s.storeEntry = some y → y.link = l →
          (y.lifted = false → s.storeCancel l n q = (s.removeEntry y .cancelled, some .accepted))
          ∧ (y.lifted = true → s.storeCancel l n q =
            (({ s with rqs := { s.rqs with
                store := modEntry y.route (fun (z : StoreEntry) => { z with waitingCancel := some q }) s.rqs.store } }
              : State).modOlc l fun c => { c with held := some q }, none))) := by
  refine ⟨fun h => ?_, fun d hd hc => ⟨fun k => ?_, fun k => ⟨fun m => ?_, fun y hy hl => ?_⟩⟩⟩
  · cases hd : s.routeDef n with
    | none => simp only [State.storeCancel, hd]
    | some d =>
      have hcls : (d.cls == .boundaryIn) = true := by simpa [hd] using h
      simp only [State.storeCancel, hd, hcls, if_true]
  · simp [State.storeCancel, hd, hc, k]
  · have hnone : ((s.rankOne d.entry d.exit).bind s.storeEntry).filter (fun e => e.link == l) = none := by
      rw [Option.filter_eq_none_iff]
      intro y hy
      rw [hy] at m
      simpa using m
    simp [State.storeCancel, hd, hc, k, hnone]
  · have hown : ((s.rankOne d.entry d.exit).bind s.storeEntry).filter (fun e => e.link == l) = some y := by
      rw [hy, Option.filter_some_pos (by simpa using hl)]
    exact ⟨fun m => by simp [State.storeCancel, hd, hc, k, hown, m], fun m => by simp [State.storeCancel, hd, hc, k, hown, m]⟩

/-- Settles O35: the checks, and the entry with and without its lifted mark. -/
theorem storeCancelByTheLiftedMark : Obligations.StoreCancelByTheLiftedMark := by
  intro s l q n h hi
  have ⟨_, hn, _⟩ := h
  obtain ⟨hunknown, hknown⟩ := storeCancel_rows (s.taken l) l n q
  have replies {b : ReplyBody} (hc : (s.taken l).storeCancel l n q = (s.taken l, some b)) :
      exec (.storeCancel l) s = .next ((s.taken l).answer l q b) := by
    rw [storeCancel_answers h hi hc, finish_replied s l q _ hn]
  refine ⟨fun k => replies (hunknown k), fun d hd hcls => ?_⟩
  obtain ⟨hforeign, hheld⟩ := hknown d hd hcls
  refine ⟨fun k => replies (hforeign k), fun k => ?_⟩
  obtain ⟨hnone, hentry⟩ := hheld k
  refine ⟨fun m => replies (hnone m), fun y hy hl => ⟨fun m => ?_, fun m => ?_⟩⟩
  · rw [storeCancel_answers h hi ((hentry y hy hl).1 m), finish_answered hn (by rfl)]
  · rw [storeCancel_holds h hi ((hentry y hy hl).2 m)]
    have hboth : (({ s.taken l with rqs := { (s.taken l).rqs with
          store := modEntry y.route (fun (z : StoreEntry) => { z with waitingCancel := some q }) (s.taken l).rqs.store } }
        : State).modOlc l fun c => { c with held := some q })
        = (({ s with rqs := { s.rqs with
          store := modEntry y.route (fun (z : StoreEntry) => { z with waitingCancel := some q }) s.rqs.store } }
        : State).modOlc l fun c => { c with waiting := c.waiting.tail, held := some q }) := by
      cases l <;> rfl
    rw [hboth]
    refine congrArg _ (finish_of_quiet _ _ hn ?_ ?_) <;> cases l <;> exact fun _ h => h

end Sys2Proof.Machine
end

section
/-! CANCEL_ROUTE (R130: O33), STOP_AREA (R98, R99: O36) and RE_CLEAR with the supervision of an instance (R83 to R94,
R97: O34). -/

namespace Sys2Proof.Machine

variable {s t u : State} {l : OpLink} {q : Word16} {a e i : Nat} {r : Inst} {d : RouteDef} {b : ReplyBody}

/-! ### The entry instance (R96) -/

theorem isEnd_iff : s.isEnd e = true ↔ (∃ g, s.signal? e = some g) ∨ ∃ b, s.boundary? e = some b := by
  simp [State.isEnd, Option.isSome_iff_exists]

theorem inst_of_entryInst (h : s.entryInst e = some (i, r, d)) : s.live i = some (r, d) := by
  obtain ⟨-, hsome⟩ := entryInst_rows s e
  obtain ⟨-, ⟨hlive, -⟩, -⟩ := (hsome i r d).1 h
  exact hlive

/-! ### CANCEL-ROUTE by the state of the entry instance (R130) -/

theorem cancelRoute_answers (h : s.Ready l q (.cancelRoute e)) (he : e ≤ 255) (hc : (s.taken l).cancelRoute l e = (u, b)) :
    exec (.cancelRoute l) s = .next (State.finish s (u.answer l q b)) :=
  runRequest_answers h rfl (decide_eq_false (Nat.not_lt.2 he)) (congrArg atOnce hc)

theorem stopEntry_of_signal (h : d.cls ≠ .boundaryIn) : s.stopEntry d = s.commandStop d.entry :=
  if_neg (by simpa using h)

/-- A STOP command leaves the occupancy of every section. -/
theorem commandStop_isClear (s : State) (x e : Nat) : (s.commandStop x).isClear e = s.isClear e :=
  congrArg (· == Occ.clear) (occ_of_desk (Walk.refl (gone := fun _ => True) |>.commandStop x).desk e)

theorem cancelRoute_rows (s : State) (l : OpLink) (e : Nat) :
    (s.isEnd e = false → s.cancelRoute l e = (s, .refused .unknownObject))
    ∧ (s.isEnd e = true → s.holdsElem l e = false → s.cancelRoute l e = (s, .refused .noAuthority))
    ∧ (s.isEnd e = true → s.holdsElem l e = true → s.entryInst e = none → s.cancelRoute l e = (s, .refused .wrongState))
    ∧ ∀ i r d, s.isEnd e = true → s.holdsElem l e = true → s.entryInst e = some (i, r, d) →
      (r.state = .locking → s.cancelRoute l e = (s.releaseAll i, .accepted))
      ∧ (r.state.supervised = true → d.cls ≠ .boundaryIn → d.approach.all s.isClear = true →
        s.cancelRoute l e = ((s.commandStop d.entry).releaseAll i, .accepted))
      ∧ (r.state.supervised = true → d.cls ≠ .boundaryIn → d.approach.all s.isClear = false →
        s.cancelRoute l e = ((s.commandStop d.entry).modInst i fun r =>
          { r with state := .cancelling, approach := .running d.approachTime }, .accepted))
      ∧ (r.state ≠ .locking → (r.state.supervised = false ∨ d.cls = .boundaryIn) →
        s.cancelRoute l e = (s, .refused .wrongState)) := by
  refine ⟨fun h => ?_, fun h k => ?_, fun h k m => ?_, fun i r d h k m => ?_⟩
  · simp [State.cancelRoute, h]
  · simp [State.cancelRoute, h, k]
  · simp [State.cancelRoute, h, k, m]
  have hclear : (s.commandStop d.entry).isClear = s.isClear := funext fun x => commandStop_isClear s d.entry x
  have hlocking (hs : r.state.supervised = true) : r.state ≠ .locking := fun hl => by
    rw [hl] at hs
    cases hs
  refine ⟨fun hl => ?_, fun hs hc ha => ?_, fun hs hc ha => ?_, fun hl hs => ?_⟩
  · simp [State.cancelRoute, h, k, m, hl]
  · simp only [State.cancelRoute, h, k, m, hs, hlocking hs, stopEntry_of_signal hc, hclear, ha]
    simp [hc]
  · simp only [State.cancelRoute, h, k, m, hs, hlocking hs, stopEntry_of_signal hc, hclear, ha]
    simp [hc]
  · have hnot : ¬(r.state.supervised = true ∧ d.cls ≠ .boundaryIn) := by
      rcases hs with hs | hs <;> simp [hs]
    simp only [State.cancelRoute, h, k, m, hl, hnot]
    simp

/-- Settles O33: what the entry instance is, the checks, and the four rows of its state. -/
theorem cancelRouteByTheStateOfTheInstance : Obligations.CancelRouteByTheStateOfTheInstance := by
  refine ⟨fun s e => ?_, fun s l q e h he => ?_⟩
  · obtain ⟨hnone, hsome⟩ := entryInst_rows s e
    exact ⟨hnone, hsome, isEnd_iff⟩
  have ⟨_, hn, _⟩ := h
  obtain ⟨hunknown, hforeign, hnone, hentry⟩ := cancelRoute_rows (s.taken l) l e
  have replies {b : ReplyBody} (hc : (s.taken l).cancelRoute l e = (s.taken l, b)) :
      exec (.cancelRoute l) s = .next ((s.taken l).answer l q b) := by
    rw [cancelRoute_answers h he hc, finish_replied s l q _ hn]
  refine ⟨fun k => replies (hunknown k), fun k m => replies (hforeign k m), fun k m o => replies (hnone k m o),
    fun i r d k m o => ?_⟩
  obtain ⟨hlocking, hfree, hoccupied, hother⟩ := hentry i r d k m o
  exact ⟨fun hl => cancelRoute_answers h he (hlocking hl), fun hs hc ha => cancelRoute_answers h he (hfree hs hc ha),
    fun hs hc ha => cancelRoute_answers h he (hoccupied hs hc ha), fun hl hs => replies (hother hl hs)⟩

/-! ### STOP-AREA (R99) -/

theorem stopArea_answers (h : s.Ready l q (.stopArea a)) (hc : (s.taken l).stopArea l a = (u, b)) (ha : a ≤ 15) :
    exec (.stopArea l) s = .next (State.finish s (u.answer l q b)) :=
  runRequest_answers h rfl (decide_eq_false (Nat.not_lt.2 ha)) (congrArg atOnce hc)

theorem stopArea_rows (ha : a ≤ 15) :
    (s.holdsArea l a = false → s.stopArea l a = (s, .refused .noAuthority))
    ∧ (s.holdsArea l a = true → s.stopArea l a = (instNumbers.foldl (State.stopInst a) s, .accepted)) := by
  have hn := Nat.not_lt.2 ha
  exact ⟨fun h => by simp [State.stopArea, hn, h], fun h => by simp [State.stopArea, hn, h]⟩

theorem area_of_desk (h : t.desk = s.desk) (e : Nat) : (t.elem e).area? = (s.elem e).area? := by
  have harea (x : Element) : x.area? = x.seen.area? := by cases x <;> rfl
  rw [harea, seen_of_desk h e, ← harea]

theorem stopInst_desk (a : Nat) (s : State) (i : Nat) : (State.stopInst a s i).desk = s.desk := by
  unfold State.stopInst
  split
  · split
    · exact (Walk.refl (gone := fun _ => True) |>.supervise i _ _ _).desk
    · rfl
  · rfl

/-- Whether STOP-AREA holds an instance: it is CLEARING or CLEARED and its entry lies in the area. -/
def State.StopsInst (s : State) (a i : Nat) (r : Inst) (d : RouteDef) : Prop :=
  s.live i = some (r, d) ∧ (r.state = .clearing ∨ r.state = .cleared) ∧ (s.elem d.entry).area? = some a

theorem stopInst_stops (h : s.StopsInst a i r d) : State.stopInst a s i = s.supervise i d .operatorStop d.entry := by
  obtain ⟨hlive, hstate, harea⟩ := h
  simp only [State.stopInst, hlive, hstate, harea, and_self, if_true]

theorem stopInst_passes (h : ∀ r d, ¬s.StopsInst a i r d) : State.stopInst a s i = s := by
  unfold State.stopInst
  split
  · rename_i r d hlive
    exact if_neg fun k => h r d ⟨hlive, k⟩
  · rfl

theorem supervise_inst_ne {c : Cause} {j : Nat} (h : i ≠ j) : (s.supervise i d c e).inst j = s.inst j := by
  unfold State.supervise
  split
  · split
    · rw [inst_of_insts (congrArg Rim.insts (stopEntry_rim _ _)), inst_putInst_ne _ _ _ _ h]
    · split
      · rw [inst_putInst_ne _ _ _ _ h]
      · rfl
  · rfl

theorem stopInst_inst_ne {j : Nat} (h : i ≠ j) : (State.stopInst a s i).inst j = s.inst j := by
  unfold State.stopInst
  split
  · split
    · exact supervise_inst_ne h
    · rfl
  · rfl

theorem StopsInst_congr (hd : t.desk = s.desk) (hi : t.inst i = s.inst i) : t.StopsInst a i r d ↔ s.StopsInst a i r d := by
  have hlive : t.live i = s.live i := by
    simp only [State.live, hi, routeDef_of_rcat (rcat_of_desk hd)]
  rw [State.StopsInst, State.StopsInst, hlive, area_of_desk hd]

theorem commandStop_elem_ne {x : Nat} (h : x ≠ e) : (s.commandStop e).elem x = s.elem x := by
  cases hg : s.signal? e with
  | none => simp only [State.commandStop, hg]
  | some g =>
    obtain ⟨helem, -⟩ := commandStop_rows hg
    exact helem x h

theorem commandStop_keepsStop {g : SignalRec} {x : Nat} (h : s.signal? e = some g) (hg : g.commanded = .stop) :
    ∃ g', (s.commandStop x).signal? e = some g' ∧ g'.commanded = .stop := by
  by_cases hx : e = x
  · subst hx
    exact commandStop_commands h
  · exact ⟨g, by rw [signal_of_elem, commandStop_elem_ne hx, ← signal_of_elem, h], hg⟩

theorem putInst_signal (v : Option Inst) : (s.putInst i v).signal? e = s.signal? e := by
  simp only [State.signal?, State.elem, putInst_lkc]

theorem stopInst_keepsStop {g : SignalRec} (h : s.signal? e = some g) (hg : g.commanded = .stop) :
    ∃ g', (State.stopInst a s i).signal? e = some g' ∧ g'.commanded = .stop := by
  have kept : ∃ g', s.signal? e = some g' ∧ g'.commanded = .stop := ⟨g, h, hg⟩
  unfold State.stopInst State.supervise State.stopEntry
  repeat' split
  · simpa only [putInst_signal] using kept
  · exact commandStop_keepsStop ((putInst_signal _).trans h) hg
  · simpa only [putInst_signal] using kept
  all_goals exact kept

theorem stopInsts_desk (a : Nat) (s : State) (is : List Nat) : (is.foldl (State.stopInst a) s).desk = s.desk :=
  foldl_kept State.desk (stopInst_desk a) is s

/-- An instance the fold does not name keeps its record. -/
theorem stopInsts_inst_ne {is : List Nat} (h : i ∉ is) : (is.foldl (State.stopInst a) s).inst i = s.inst i := by
  induction is generalizing s with
  | nil => rfl
  | cons j is ih =>
    rw [List.mem_cons, not_or] at h
    obtain ⟨hj, his⟩ := h
    exact (ih his).trans (stopInst_inst_ne fun k => hj k.symm)

theorem stopInsts_keepStop {g : SignalRec} (is : List Nat) (h : s.signal? e = some g) (hg : g.commanded = .stop) :
    ∃ g', (is.foldl (State.stopInst a) s).signal? e = some g' ∧ g'.commanded = .stop := by
  induction is generalizing s g with
  | nil => exact ⟨g, h, hg⟩
  | cons j is ih =>
    obtain ⟨g', hs, hg'⟩ := stopInst_keepsStop (a := a) (i := j) h hg
    exact ih hs hg'

/-- One instance taken in a list that names it once: what stands before it is the state as far as it is concerned. -/
theorem stopInsts_at {is : List Nat} (h : is.Nodup) (hi : i ∈ is) : ∃ (v : State) (is' : List Nat), v.desk = s.desk ∧ v.inst i = s.inst i
    ∧ i ∉ is' ∧ is.foldl (State.stopInst a) s = is'.foldl (State.stopInst a) (State.stopInst a v i) := by
  obtain ⟨pre, post, rfl⟩ := List.append_of_mem hi
  obtain ⟨-, hcons, hpre⟩ := List.nodup_append.1 h
  refine ⟨pre.foldl (State.stopInst a) s, post, stopInsts_desk a s pre,
    stopInsts_inst_ne fun k => hpre i k i List.mem_cons_self rfl, (List.nodup_cons.1 hcons).1, ?_⟩
  rw [List.foldl_append, List.foldl_cons]

theorem stopInsts_stops {is : List Nat} (hn : is.Nodup) (hi : i ∈ is) (h : s.StopsInst a i r d) :
    (is.foldl (State.stopInst a) s).inst i =
      some { r with state := .held, causes := addCause .operatorStop d.entry r.causes }
    ∧ (d.cls ≠ .boundaryIn → ∀ g, s.signal? d.entry = some g →
      ∃ g', (is.foldl (State.stopInst a) s).signal? d.entry = some g' ∧ g'.commanded = .stop) := by
  obtain ⟨v, is', hdesk, hinst, hnot, hfold⟩ := stopInsts_at (a := a) (s := s) hn hi
  have hv : v.StopsInst a i r d := (StopsInst_congr hdesk hinst).2 h
  have ⟨hlive, hstate, _⟩ := hv
  obtain ⟨hheld, -⟩ := supervise_rows (d := d) .operatorStop d.entry (inst_of_live hlive)
  obtain ⟨hrec, hsignal, -⟩ := hheld hstate
  rw [hfold, stopInst_stops hv]
  refine ⟨(stopInsts_inst_ne hnot).trans hrec, fun hc g hg => ?_⟩
  obtain ⟨g', hg', -⟩ := signal_of_tally (tally_of_desk hdesk) hg
  obtain ⟨g₂, hs, hstop⟩ := hsignal hc g' hg'
  exact stopInsts_keepStop is' hs hstop

theorem stopInsts_passes {is : List Nat} (hn : is.Nodup) (h : ∀ r d, ¬s.StopsInst a i r d) :
    (is.foldl (State.stopInst a) s).inst i = s.inst i := by
  by_cases hi : i ∈ is
  · obtain ⟨v, is', hdesk, hinst, hnot, hfold⟩ := stopInsts_at (a := a) (s := s) hn hi
    rw [hfold, stopInst_passes fun r d k => h r d ((StopsInst_congr hdesk hinst).1 k), stopInsts_inst_ne hnot, hinst]
  · exact stopInsts_inst_ne hi

/-- Settles O36: the checks, each instance by whether it is held, and the STOP command. -/
theorem stopAreaHoldsTheClearedInstancesOfTheArea : Obligations.StopAreaHoldsTheClearedInstancesOfTheArea := by
  refine ⟨fun s l q a h => ⟨fun ha => ?_, fun ha hf => ?_, fun ha hf => ?_⟩, fun s e g hg => commandStop_rows hg⟩
  · exact runRequest_of_out_of_range (pick := Request.isKind 6) h rfl (decide_eq_true ha) _
  · have ⟨_, hn, _⟩ := h
    obtain ⟨hforeign, -⟩ := stopArea_rows (s := s.taken l) (l := l) ha
    rw [stopArea_answers h (hforeign hf) ha, finish_replied s l q _ hn]
  · obtain ⟨-, hholds⟩ := stopArea_rows (s := s.taken l) (l := l) ha
    have hnodup : instNumbers.Nodup := List.nodup_range
    refine ⟨stopArea_answers h (hholds hf) ha, fun i => ⟨fun r d hlive hs hentry => ?_, fun r d g hlive hs hentry hc hg => ?_,
      fun hpass => ?_⟩⟩
    · have hi : i ∈ instNumbers := List.mem_range.2 (lt_of_inst (inst_of_live hlive))
      exact (stopInsts_stops (s := s.taken l) hnodup hi ⟨hlive, hs, hentry⟩).1
    · have hi : i ∈ instNumbers := List.mem_range.2 (lt_of_inst (inst_of_live hlive))
      exact (stopInsts_stops (s := s.taken l) hnodup hi ⟨hlive, hs, hentry⟩).2 hc g hg
    · refine stopInsts_passes (s := s.taken l) hnodup fun r d ⟨hlive, hs, hentry⟩ => ?_
      rcases hpass r d hlive with ⟨hne, hne'⟩ | hne
      · exact hs.elim hne hne'
      · exact hne hentry

/-! ### RE-CLEAR by its five checks (R97) -/

theorem reClear_answers (h : s.Ready l q (.reClear e)) (he : e ≤ 255) (hc : (s.taken l).reClear l e = (u, b)) :
    exec (.reClear l) s = .next (State.finish s (u.answer l q b)) :=
  runRequest_answers h rfl (decide_eq_false (Nat.not_lt.2 he)) (congrArg atOnce hc)

theorem reClear_checks (s : State) (l : OpLink) (e : Nat) :
    (s.isEnd e = false → s.reClear l e = (s, .refused .unknownObject))
    ∧ (s.isEnd e = true → s.holdsElem l e = false → s.reClear l e = (s, .refused .noAuthority))
    ∧ (s.isEnd e = true → s.holdsElem l e = true → s.entryInst e = none → s.reClear l e = (s, .refused .wrongState))
    ∧ ∀ i r d, s.isEnd e = true → s.holdsElem l e = true → s.entryInst e = some (i, r, d) →
      ((r.state ≠ .held ∨ r.causes.any s.causeBars = true ∨ s.clearingFailures i r d ≠ []) →
        s.reClear l e = (s, .refused .wrongState))
      ∧ (r.state = .held → r.causes.any s.causeBars = false → s.clearingFailures i r d = [] →
        s.reClear l e = (s.clearingPasses i r d, .accepted)) := by
  refine ⟨fun h => ?_, fun h k => ?_, fun h k m => ?_, fun i r d h k m => ⟨fun hbad => ?_, fun hs hc hf => ?_⟩⟩
  · simp [State.reClear, h]
  · simp [State.reClear, h, k]
  · simp [State.reClear, h, k, m]
  · by_cases hbar : r.state ≠ .held ∨ r.causes.any s.causeBars = true
    · simp only [State.reClear, h, k, m, hbar]
      simp
    · have hfails : s.clearingFailures i r d ≠ [] := (or_assoc.2 hbad).resolve_left hbar
      simp only [State.reClear, h, k, m, hbar]
      cases hl : s.clearingFailures i r d with
      | nil => exact absurd hl hfails
      | cons w ws => simp
  · simp [State.reClear, h, k, m, hs, hc, hf]

theorem clearingPasses_inst (hc : d.cls ≠ .boundaryIn) (h : s.inst i = some r) :
    (s.clearingPasses i r d).inst i = some { r with state := .clearing, setting := .stopped, causes := [] } := by
  obtain ⟨hsignal, -⟩ := clearingPasses_rows d h
  have hrim : ∀ v : State, (v.commandProceed i d.entry).rim = v.rim := fun v => by
    simp only [State.commandProceed, State.enqueueProceed]
    (repeat' split) <;> simp [State.notify]
  rw [hsignal hc, inst_of_insts (congrArg Rim.insts (hrim _)), inst_putInst_same _ _ _ (lt_of_inst h)]

theorem reClear_rows (h : s.Ready l q (.reClear e)) (he : e ≤ 255) :
    (s.isEnd e = false → exec (.reClear l) s = .next ((s.taken l).answer l q (.refused .unknownObject)))
    ∧ (s.isEnd e = true → s.holdsElem l e = false →
      exec (.reClear l) s = .next ((s.taken l).answer l q (.refused .noAuthority)))
    ∧ (s.isEnd e = true → s.holdsElem l e = true → s.entryInst e = none →
      exec (.reClear l) s = .next ((s.taken l).answer l q (.refused .wrongState)))
    ∧ ∀ i r d, s.isEnd e = true → s.holdsElem l e = true → s.entryInst e = some (i, r, d) →
      ((r.state ≠ .held ∨ r.causes.any s.causeBars = true ∨ s.clearingFailures i r d ≠ []) →
        exec (.reClear l) s = .next ((s.taken l).answer l q (.refused .wrongState)))
      ∧ (r.state = .held → r.causes.any s.causeBars = false → s.clearingFailures i r d = [] →
        exec (.reClear l) s = .next (State.finish s (((s.taken l).clearingPasses i r d).answer l q .accepted))
        ∧ (d.cls ≠ .boundaryIn → i < 48 → ((s.taken l).clearingPasses i r d).inst i =
            some { r with state := .clearing, setting := .stopped, causes := [] })) := by
  have ⟨_, hn, _⟩ := h
  obtain ⟨hunknown, hforeign, hnone, hentry⟩ := reClear_checks (s.taken l) l e
  have replies {b : ReplyBody} (hc : (s.taken l).reClear l e = (s.taken l, b)) :
      exec (.reClear l) s = .next ((s.taken l).answer l q b) := by
    rw [reClear_answers h he hc, finish_replied s l q _ hn]
  refine ⟨fun k => replies (hunknown k), fun k m => replies (hforeign k m), fun k m o => replies (hnone k m o),
    fun i r d k m o => ?_⟩
  obtain ⟨hrefused, hpasses⟩ := hentry i r d k m o
  have hinst : (s.taken l).inst i = some r := inst_of_live (inst_of_entryInst o)
  exact ⟨fun hbad => replies (hrefused hbad), fun hs hc hf => ⟨reClear_answers h he (hpasses hs hc hf),
    fun hcls _ => clearingPasses_inst hcls hinst⟩⟩

/-! ### Notices that name an instance no train has entered (R83 to R94) -/

/-- What a LOCKING instance does with the notices that name it. -/
theorem locking_rows (h : s.live i = some (r, d)) (hs : r.state = .locking) :
    (∀ e, s.takeNotice (.position i e) = s.unwait i (Wait.isOn e))
    ∧ (∀ p : Wait → Bool, (r.waiting.any p = true → s.unwait i p =
          (s.putInst i (some { r with waiting := r.waiting.filter fun w => !p w })).checkWaiting i)
        ∧ (r.waiting.any p = false → s.unwait i p = s))
    ∧ (∀ ws w, w ∈ (joinWaits d ws r).waiting ↔ w ∈ r.waiting ∨ w ∈ ws)
    ∧ (r.waiting = [] →
      (s.clearingFailures i r d = [] → s.checkWaiting i = s.clearingPasses i r d)
      ∧ (s.clearingFailures i r d ≠ [] → s.checkWaiting i =
          s.putInst i (some (joinWaits d ((s.clearingFailures i r d).filterMap id) r))))
    ∧ (∀ b, r.waiting = [.acceptance] → r.acceptance = .notAsked → s.exitLink d = some b →
      s.checkWaiting i = (s.putInst i (some { r with acceptance := .asked })).askAcceptance b i r.route)
    ∧ (r.waiting ≠ [] → (r.waiting = [.acceptance] → r.acceptance ≠ .notAsked) → s.checkWaiting i = s)
    ∧ (∀ e, r.locksPoint d e = true →
      s.takeNotice (.detectionLost i e) = s.putInst i (some (joinWaits d [.point e] r)))
    ∧ (∀ e, r.flankOn d e ≠ [] → s.takeNotice (.flankLost i e) =
        s.putInst i (some (joinWaits d ((r.flankOn d e).map fun m => .flank m e) r)))
    ∧ (∀ e, (r.locksPoint d e = true ∨ r.flankOn d e ≠ []) → s.takeNotice (.pointFailed i e) =
        s.putInst i (some (joinWaits d ((if r.locksPoint d e then [.point e] else [])
          ++ (r.flankOn d e).map fun m => .flank m e) r)))
    ∧ (∀ e x y j, pathIndex d e = some j →
      ((y = .clear ∨ (y = .occupied ∧ j ≠ 1 ∧ shuntLast d j = true)) →
        s.takeNotice (.track i e x y) = s.unwait i (· == .track e))
      ∧ (y ≠ .clear → ¬(y = .occupied ∧ j ≠ 1 ∧ shuntLast d j = true) →
        s.takeNotice (.track i e x y) = s.putInst i (some (joinWaits d [.track e] r))))
    ∧ s.takeNotice (.acceptanceGiven i) =
        (s.putInst i (some { r with acceptance := .held })).unwait i (· == .acceptance)
    ∧ (∀ m, (r.flank[m - 1]?).any (fun c => c.status == .asking) = true → s.takeNotice (.assuranceGiven i m) =
        (s.putInst i (some { r with flank := r.flank.set (m - 1) ⟨0, .assured⟩ })).unwait i (· == .asking m))
    ∧ (∀ b, s.exitLink d = some b → State.takeDirectionHeld b s i = s.unwait i (· == .direction))
    ∧ (∀ b, .direction ∈ r.waiting → s.exitLink d = some b →
      State.takeDirectionFailed b s i = s.settingFails i .boundary d.exit)
    ∧ (∀ e, r.lists d e = true → State.takeSuspect e s i = s.settingFails i .suspect e)
    ∧ (∀ b, s.onLink r d b = true → State.takeLinkDown b s i = s.settingFails i .link (s.boundaryElem b))
    ∧ s.takeNotice (.acceptanceRefused i) = s.settingFails i .boundary d.exit
    ∧ s.takeNotice (.acceptanceLost i) = s.settingFails i .boundary d.exit
    ∧ (∀ m, s.takeNotice (.assuranceLost i m) = s.settingFails i .boundary (s.waitElem d (.asking m)))
    ∧ ∀ c e, (s.settingFails i c e).inst i = none ∧ (∀ j, j ≠ i → (s.settingFails i c e).inst j = s.inst j)
      ∧ ∀ k, k ∈ failureLinks r.origin → ((s.settingFails i c e).olc.get k).failure = some ⟨i, r.route, c, e⟩ := by
  have hi := inst_of_live h
  obtain ⟨-, hpasses, hfails, hasks, hwaits⟩ := checkWaiting_rows h
  have hreport (m : Nat) := (report_rows (e := 0) h m).1 hs
  obtain ⟨hgiven, hrefused, hlost, -⟩ := hreport 0
  refine ⟨fun e => rfl, fun p => ?_, fun ws w => mem_joinWaits d r w ws, fun w => ⟨hpasses hs w, hfails hs w⟩,
    fun b w => hasks b hs w, hwaits, fun e k => ?_, fun e k => ?_, fun e k => ?_, fun e x y j k => ?_, hgiven,
    fun m k => ?_, fun b k => ?_, fun b w k => ?_, fun e k => ?_, fun b k => ?_, hrefused, hlost, fun m => ?_,
    fun c e => settingFails_rows c e h⟩
  · obtain ⟨hout, hsame⟩ := unwait_rows (s := s) p hi
    exact ⟨hout hs, fun k => hsame (.inr k)⟩
  · exact (takeDetectionLost_rows h).1 hs k
  · exact (takeFlankLost_rows h k).1 hs
  · exact (takePointFailed_rows h k).1 hs
  · obtain ⟨hin, hjoin, -⟩ := takeSection_rows h x y j k
    exact ⟨hin hs, hjoin hs⟩
  · obtain ⟨-, -, -, -, hassured⟩ := hreport m
    exact hassured k
  · obtain ⟨-, hheld, -⟩ := boundary_rows h b
    exact hheld k
  · obtain ⟨hfailed, -⟩ := boundary_rows h b
    exact hfailed hs w k
  · exact (takeSuspect_rows h k).1 hs
  · obtain ⟨-, -, hdown, -⟩ := boundary_rows h b
    exact (hdown k).1 hs
  · obtain ⟨-, -, -, hassurance, -⟩ := hreport m
    exact hassurance

/-- What a CLEARING, CLEARED or HELD instance does with the notices that name it. -/
theorem supervised_rows (h : s.live i = some (r, d)) (hs : r.state = .clearing ∨ r.state = .cleared ∨ r.state = .held) :
    (∀ e, (hasPoint (r.openItems d) e || (r.overlap == .locked && hasPoint d.overlap.toList e)) = true →
      s.takeNotice (.detectionLost i e) = s.supervise i d .detectionLost e)
    ∧ (∀ e, r.flankOn d e ≠ [] → s.takeNotice (.flankLost i e) = s.supervise i d .flankLost e)
    ∧ (∀ e, (r.locksPoint d e = true ∨ r.flankOn d e ≠ []) →
      s.takeNotice (.pointFailed i e) = s.supervise i d .pointFailed e)
    ∧ (∀ e x y j, pathIndex d e = some j →
      (y = .clear → s.takeNotice (.track i e x y) = s)
      ∧ (j = 1 → y = .occupied → s.takeNotice (.track i e x y) = s.trainEntry i r d (r.state != .cleared))
      ∧ (j ≠ 1 → y = .occupied → shuntLast d j = true → s.takeNotice (.track i e x y) = s)
      ∧ (y ≠ .clear → ¬(j = 1 ∧ y = .occupied) → ¬(y = .occupied ∧ shuntLast d j = true) →
        s.takeNotice (.track i e x y) = s.supervise i d .sectionNotClear e))
    ∧ s.takeNotice (.lampFault i d.entry) = s.supervise i d .lampFault d.entry
    ∧ s.takeNotice (.signalNotCleared i d.entry) = s.supervise i d .signalNotCleared d.entry
    ∧ s.takeNotice (.acceptanceLost i) = s.supervise i d .acceptanceLost d.exit
    ∧ (∀ m, s.takeNotice (.assuranceLost i m) = s.supervise i d .assuranceLost (s.waitElem d (.asking m)))
    ∧ (∀ e, r.lists d e = true → State.takeSuspect e s i = s.supervise i d .suspect e)
    ∧ (∀ b, (s.onLink r d b = true → State.takeLinkDown b s i = s.supervise i d .linkDown (s.boundaryElem b))
        ∧ (s.onLink r d b = false → State.takeLinkDown b s i = s))
    ∧ ∀ e, (r.state = .clearing → s.takeNotice (.confirmed i e) = s.putInst i (some { r with state := .cleared }))
      ∧ (r.state ≠ .clearing → s.takeNotice (.confirmed i e) = s) := by
  have hnl : r.state ≠ .locking := by rcases hs with hs | hs | hs <;> rw [hs] <;> nofun
  have hnu : r.state ≠ .inUse := by rcases hs with hs | hs | hs <;> rw [hs] <;> nofun
  have hsup : r.state.supervised = true := by rcases hs with hs | hs | hs <;> rw [hs] <;> rfl
  have hreport (m e : Nat) := report_rows (e := e) h m
  obtain ⟨-, hother, -, -, hlamp, hnot⟩ := hreport 0 0
  obtain ⟨-, -, hlost, -⟩ := hother hnl
  refine ⟨fun e k => ?_, fun e k => ?_, fun e k => ?_, fun e x y j k => ?_, hlamp, hnot, hlost, fun m => ?_, fun e k => ?_,
    fun b => ?_, fun e => ?_⟩
  · exact (takeDetectionLost_rows h).2 hnl k
  · exact (takeFlankLost_rows h k).2 hnl
  · exact (takePointFailed_rows h k).2 hnl
  · obtain ⟨-, -, hsections⟩ := takeSection_rows h x y j k
    exact hsections hsup
  · obtain ⟨-, hm, -⟩ := hreport m 0
    obtain ⟨-, -, -, hassurance, -⟩ := hm hnl
    exact hassurance
  · obtain ⟨-, hsuspect, -⟩ := takeSuspect_rows h k
    exact hsuspect hnl hnu
  · obtain ⟨-, -, hon, hoff⟩ := boundary_rows h b
    exact ⟨fun k => (hon k).2 hnl, hoff⟩
  · obtain ⟨-, -, hclearing, hsame, -⟩ := hreport 0 e
    exact ⟨hclearing, hsame⟩

/-! ### The clearing request (R90, R91) -/

theorem clearingFailures_rows (s : State) (i : Nat) (r : Inst) (d : RouteDef) :
    let proved := fun (role : Role) (x : PointReq) => ∃ p, s.point? x.point = some p ∧ p.lock = .held i role x.pos
      ∧ p.detection = detectionOf x.pos ∧ p.failed = false ∧ p.localMode = false ∧ p.suspect = false
    s.clearingFailures i r d = [] ↔
      s.entryHeld i d.entry = true ∧ s.exitHeld i d.exit = true
      ∧ (d.cls = .boundaryOut → r.acceptance = .held)
      ∧ (∀ k it, 1 ≤ k → d.path[k - 1]? = some it →
        (∃ t, s.track? it.sect = some t ∧ t.lock = .held i .path
          ∧ (t.occupancy = .clear ∨ (d.cls = .shunt ∧ k = d.path.length ∧ t.occupancy = .occupied)))
        ∧ ∀ x ∈ it.points, proved .path x)
      ∧ (∀ it, d.overlap = some it → r.overlap = .locked
        ∧ (∃ t, s.track? it.sect = some t ∧ t.lock = .held i .overlap) ∧ ∀ x ∈ it.points, proved .overlap x)
      ∧ ∀ m f c, 1 ≤ m → d.flank[m - 1]? = some f → r.flank[m - 1]? = some c →
        c.status = .assured ∨ (c.status = .claimed ∧ ∃ t y, chosenTarget f c.alternative = some t
          ∧ s.claim? (s.flankRef (FlankTarget.elem t)) = some y ∧ y.required = FlankTarget.required t
          ∧ .route i m ∈ y.claimants ∧ s.inState t = true) := by
  intro proved
  simp only [clearingFailures_iff, itemProof_iff, overlapProof_iff, flankProof_iff, pointProof_iff, shuntLast_iff, and_assoc,
    proved]

theorem chosenTarget_zero (f : FlankItem) (t : FlankTarget) : chosenTarget f 0 = some t ↔ f.primary = .claim t := by
  rw [chosenTarget, if_pos rfl]
  split
  · rename_i t' hp
    simp [hp]
  · rename_i hp
    simp [hp]

/-- Settles O34: the request, the clearing and PROCEED, the notices by the state of the instance, the supervision causes
and the conditions of a clearing request. -/
theorem reClearByItsChecks : Obligations.ReClearByItsChecks := by
  refine ⟨fun s l q e h he => reClear_rows h he, fun s e => ?_, fun s c e => causeBars_iff s c e,
    fun s i r d h => clearingPasses_rows d h, fun s i e => ?_, addCause_rows, fun s n h => ?_,
    fun s i r d h hs => locking_rows h hs, fun s i r d h hs => supervised_rows h hs, fun s e b => ⟨rfl, rfl, rfl, rfl⟩,
    fun s i r d c e h => ?_, fun s i r d => ?_⟩
  · obtain ⟨hnone, hsome⟩ := entryInst_rows s e
    exact ⟨hnone, hsome, isEnd_iff⟩
  · exact ⟨proceedChecks_iff i, commandProceed_rows i⟩
  · exact fun k => settle_one n h k
  · obtain ⟨hcleared, hheld, hother⟩ := supervise_rows (d := d) c e h
    exact ⟨hcleared, hheld, fun k m o => hother (by cases hs : r.state <;> simp_all [InstState.supervised])⟩
  · exact ⟨clearingFailures_rows s i r d, fun e g h => (entryHeld_rows i e).1 g h, fun e b h => (entryHeld_rows i e).2 b h,
      fun e => (inState_iff e).1, fun e => (inState_iff e).2, fun f t k => ⟨chosenTarget_zero f t, rfl⟩⟩

end Sys2Proof.Machine
end

section
/-! Requests about an element (R5, R31, R36: O37, O39), about a boundary (R173, R176: O40), and the timers of an instance
(R88, R127, R132, R135: O41). -/

namespace Sys2Proof.Machine

variable {s t u : State} {l : OpLink} {q : Word16} {e i : Nat} {b : ReplyBody}

/-! ### POINT-THROW and POINT-RESET (R31, R36) -/

/-- Whether a throw request is taken: the locks and claims agree, no flag is set, and the point is driven, in position or
movable. -/
theorem throwRequest_taken (s : State) (e : Nat) (pos : Pos) (o : Bool) : (s.throwRequest e pos o).2 =
    match s.point? e with
    | none => false
    | some p => s.agrees p pos && p.flagsClear
        && ((s.drive e).isSome || p.detection == detectionOf pos || s.movable p) := by
  unfold State.throwRequest
  cases s.point? e with
  | none => rfl
  | some p =>
    cases hp : s.agrees p pos && p.flagsClear with
    | false => simp [hp]
    | true =>
      cases s.drive e with
      | some d => by_cases hd : d.target = pos <;> simp [hp, hd]
      | none => by_cases hd : p.detection = detectionOf pos <;> cases hm : s.movable p <;> simp [hp, hd, hm]

theorem throwRequest_taken_taken (pos : Pos) (o : Bool) :
    ((s.taken l).throwRequest e pos o).2 = (s.throwRequest e pos o).2 := by
  rw [throwRequest_taken, throwRequest_taken]
  rfl

/-- A throw request that is not taken changes nothing. -/
theorem throwRequest_refused {pos : Pos} {o : Bool} (h : (s.throwRequest e pos o).2 = false) :
    (s.throwRequest e pos o).1 = s := by
  unfold State.throwRequest at h ⊢
  repeat' split
  all_goals first
    | rfl
    | simp_all

theorem pointThrow_answers {pos : Pos} (h : s.Ready l q (.pointThrow e pos)) (he : e ≤ 255)
    (hc : (s.taken l).pointThrow l e pos = (u, b)) : exec (.pointThrow l) s = .next (State.finish s (u.answer l q b)) :=
  runRequest_answers h rfl (decide_eq_false (Nat.not_lt.2 he)) (congrArg atOnce hc)

theorem pointThrow_eq (s : State) (l : OpLink) (e : Nat) (pos : Pos) :
    (s.point? e = none → s.pointThrow l e pos = (s, .refused .unknownObject))
    ∧ ∀ p, s.point? e = some p →
      (s.holdsArea l p.area = false → s.pointThrow l e pos = (s, .refused .noAuthority))
      ∧ (s.holdsArea l p.area = true → (s.throwRequest e pos true).2 = false →
        s.pointThrow l e pos = (s, .refused .wrongState))
      ∧ (s.holdsArea l p.area = true → (s.throwRequest e pos true).2 = true →
        s.pointThrow l e pos = ((s.throwRequest e pos true).1, .accepted)) := by
  refine ⟨fun h => ?_, fun p h => ⟨fun k => ?_, fun k m => ?_, fun k m => ?_⟩⟩
  · simp [State.pointThrow, h]
  · simp [State.pointThrow, h, k]
  · simp [State.pointThrow, h, k, m, throwRequest_refused m]
  · simp [State.pointThrow, h, k, m]

theorem pointThrow_rows {pos : Pos} (h : s.Ready l q (.pointThrow e pos)) (he : e ≤ 255) :
    (s.point? e = none → exec (.pointThrow l) s = .next ((s.taken l).answer l q (.refused .unknownObject)))
    ∧ ∀ p, s.point? e = some p →
      (s.holdsArea l p.area = false → exec (.pointThrow l) s = .next ((s.taken l).answer l q (.refused .noAuthority)))
      ∧ (s.holdsArea l p.area = true → (s.throwRequest e pos true).2 = false →
        exec (.pointThrow l) s = .next ((s.taken l).answer l q (.refused .wrongState)))
      ∧ (s.holdsArea l p.area = true → (s.throwRequest e pos true).2 = true →
        exec (.pointThrow l) s = .next (State.finish s (((s.taken l).throwRequest e pos true).1.answer l q .accepted)))
      ∧ (∀ u, s.holdsArea l p.area = true → s.agrees p pos = true → p.flagsClear = true → s.drive e = none →
        p.detection ≠ detectionOf pos → s.movable p = true → s.throwLaw p pos = true → s.unitOf .pdu e = some u →
        exec (.pointThrow l) s = .next (State.settleMarks s
          ((((s.taken l).putDrive e (some ⟨pos, p.retries, .stopped, .active, false⟩)).enqueue u.address
            (.throwTo pos)).answer l q .accepted))) := by
  have ⟨_, hn, _⟩ := h
  obtain ⟨hunknown, hknown⟩ := pointThrow_eq (s.taken l) l e pos
  have replies {b : ReplyBody} (hc : (s.taken l).pointThrow l e pos = (s.taken l, b)) :
      exec (.pointThrow l) s = .next ((s.taken l).answer l q b) := by
    rw [pointThrow_answers h he hc, finish_replied s l q _ hn]
  refine ⟨fun k => replies (hunknown k), fun p hp => ?_⟩
  obtain ⟨hforeign, hrefused, htaken⟩ := hknown p hp
  rw [throwRequest_taken_taken] at hrefused htaken
  refine ⟨fun ha => replies (hforeign ha), fun ha k => replies (hrefused ha k),
    fun ha k => pointThrow_answers h he (htaken ha k), fun u ha hg hf hd hq hm _ hu => ?_⟩
  have hbegins := throwRequest_begins (s := s.taken l) true hp hg hf hd hq hm hu
  have hyes : (s.throwRequest e pos true).2 = true := by
    rw [← throwRequest_taken_taken (l := l), hbegins]
  rw [pointThrow_answers h he (htaken ha hyes), hbegins,
    finish_answered hn (by exact putDrive_notices (s.taken l) e _)]

theorem pointReset_answers (h : s.Ready l q (.pointReset e)) (he : e ≤ 255) (hc : (s.taken l).pointReset l e = (u, b)) :
    exec (.pointReset l) s = .next (State.finish s (u.answer l q b)) :=
  runRequest_answers h rfl (decide_eq_false (Nat.not_lt.2 he)) (congrArg atOnce hc)

theorem pointReset_eq (s : State) (l : OpLink) (e : Nat) :
    (s.point? e = none → s.pointReset l e = (s, .refused .unknownObject))
    ∧ ∀ p, s.point? e = some p →
      (s.holdsArea l p.area = false → s.pointReset l e = (s, .refused .noAuthority))
      ∧ (s.holdsArea l p.area = true → p.detection = .moving → s.pointReset l e = (s, .refused .wrongState))
      ∧ (s.holdsArea l p.area = true → p.detection ≠ .moving → p.failed = false → s.pointReset l e = (s, .accepted))
      ∧ (s.holdsArea l p.area = true → p.detection ≠ .moving → p.failed = true →
        s.pointReset l e = ((s.writePoint e { p with failed := false }).retestTrigger, .accepted)) := by
  refine ⟨fun h => ?_, fun p h => ⟨fun k => ?_, fun k m => ?_, fun k m o => ?_, fun k m o => ?_⟩⟩
  · simp [State.pointReset, h]
  · simp [State.pointReset, h, k]
  · simp [State.pointReset, h, k, m]
  · simp [State.pointReset, h, k, m, o]
  · simp [State.pointReset, h, k, m, o]

theorem pointReset_rows (h : s.Ready l q (.pointReset e)) (he : e ≤ 255) :
    (s.point? e = none → exec (.pointReset l) s = .next ((s.taken l).answer l q (.refused .unknownObject)))
    ∧ ∀ p, s.point? e = some p →
      (s.holdsArea l p.area = false → exec (.pointReset l) s = .next ((s.taken l).answer l q (.refused .noAuthority)))
      ∧ (s.holdsArea l p.area = true → p.detection = .moving →
        exec (.pointReset l) s = .next ((s.taken l).answer l q (.refused .wrongState)))
      ∧ (s.holdsArea l p.area = true → p.detection ≠ .moving → p.failed = false →
        exec (.pointReset l) s = .next ((s.taken l).answer l q .accepted))
      ∧ (s.holdsArea l p.area = true → p.detection ≠ .moving → p.failed = true →
        exec (.pointReset l) s = .next (State.finish s
          (((s.taken l).writePoint e { p with failed := false }).retestTrigger.answer l q .accepted))) := by
  have ⟨_, hn, _⟩ := h
  obtain ⟨hunknown, hknown⟩ := pointReset_eq (s.taken l) l e
  have replies {b : ReplyBody} (hc : (s.taken l).pointReset l e = (s.taken l, b)) :
      exec (.pointReset l) s = .next ((s.taken l).answer l q b) := by
    rw [pointReset_answers h he hc, finish_replied s l q _ hn]
  refine ⟨fun k => replies (hunknown k), fun p hp => ?_⟩
  obtain ⟨hforeign, hmoving, hsound, hreset⟩ := hknown p hp
  exact ⟨fun ha => replies (hforeign ha), fun ha k => replies (hmoving ha k), fun ha k m => replies (hsound ha k m),
    fun ha k m => pointReset_answers h he (hreset ha k m)⟩

/-- Settles O37: the two requests, the throw request by the state of the point, the THROW queued, and what the tests
read. -/
theorem pointRequestsByTheStateOfThePoint : Obligations.PointRequestsByTheStateOfThePoint :=
  ⟨fun _ _ _ _ he => ⟨fun _ h => pointThrow_rows h he, fun h => pointReset_rows h he⟩,
    fun _ _ pos operator => throwRequest_rows pos operator, fun _ _ _ pos h => enqueueThrow_rows pos h,
    fun _ p pos => ⟨agrees_iff p pos, flagsClear_iff p, movable_iff p, throwLaw_iff p pos⟩⟩

/-! ### BLOCK and UNBLOCK (R5) -/

theorem block_answers (h : s.Ready l q (.block e)) (he : e ≤ 255) (hc : (s.taken l).setBlock l e true = (u, b)) :
    exec (.block l) s = .next (State.finish s (u.answer l q b)) :=
  runRequest_answers h rfl (decide_eq_false (Nat.not_lt.2 he)) (congrArg atOnce hc)

theorem unblock_answers (h : s.Ready l q (.unblock e)) (he : e ≤ 255) (hc : (s.taken l).setBlock l e false = (u, b)) :
    exec (.unblock l) s = .next (State.finish s (u.answer l q b)) :=
  runRequest_answers h rfl (decide_eq_false (Nat.not_lt.2 he)) (congrArg atOnce hc)

theorem setBlock_rows (s : State) (l : OpLink) (e : Nat) (v : Bool) :
    ((s.elem e).block? = none → s.setBlock l e v = (s, .refused .unknownObject))
    ∧ ((s.elem e).block? ≠ none → s.holdsElem l e = false → s.setBlock l e v = (s, .refused .noAuthority))
    ∧ (s.holdsElem l e = true → (s.elem e).block? = some v → s.setBlock l e v = (s, .accepted))
    ∧ (s.holdsElem l e = true → (s.elem e).block? = some !v → s.setBlock l e v =
      (if v then s.putElem e ((s.elem e).withBlock v) else (s.putElem e ((s.elem e).withBlock v)).retestTrigger,
        .accepted)) := by
  refine ⟨fun h => ?_, fun h k => ?_, fun h k => ?_, fun h k => ?_⟩
  · simp [State.setBlock, h]
  · obtain ⟨old, hold⟩ := Option.ne_none_iff_exists'.1 h
    simp [State.setBlock, hold, k]
  · simp [State.setBlock, h, k]
  · simp [State.setBlock, h, k]

theorem withBlock_rows (r : Element) (v : Bool) :
    (r.block? ≠ none → (r.withBlock v).block? = some v) ∧ (r.withBlock v).area? = r.area?
    ∧ (r.withBlock v).isSuspect = r.isSuspect := by
  cases r <;> simp [Element.block?, Element.withBlock, Element.area?, Element.isSuspect]

/-- An element record written: what it holds, and all it leaves as it was. -/
theorem putElem_rows (s : State) {e : Nat} (he : e ≤ 255) (r : Element) :
    (s.putElem e r).elem e = r ∧ (∀ x, x ≠ e → (s.putElem e r).elem x = s.elem x)
    ∧ (∀ n, (s.putElem e r).fctEntry n = s.fctEntry n)
    ∧ (∀ x, (s.putElem e r).drive x = s.drive x ∧ (s.putElem e r).cmd x = s.cmd x) ∧ (s.putElem e r).tbc = s.tbc
    ∧ (s.putElem e r).ace = s.ace :=
  ⟨elem_putElem_same s e r (by omega), fun x h => elem_putElem_ne s e x r h.symm, fctEntry_putElem s e r, fun x => ⟨by simp, by simp⟩,
    by simp, by simp⟩

/-- Settles O39: the checks, the flag written or found, and what the write leaves. -/
theorem blockAndUnblockWriteTheFlag : Obligations.BlockAndUnblockWriteTheFlag := by
  intro s l q e he
  obtain ⟨hunknown, hforeign, hset, hunset⟩ := setBlock_rows (s.taken l) l e true
  obtain ⟨hunknown', hforeign', hclear, hunclear⟩ := setBlock_rows (s.taken l) l e false
  refine ⟨fun c r hcr h => ?_, fun h ha => ?_, fun h ha => ?_, fun v => withBlock_rows _ v, fun v => ?_⟩
  · have ⟨_, hn, _⟩ := h
    rcases hcr with ⟨rfl, rfl⟩ | ⟨rfl, rfl⟩
    · refine ⟨fun k => ?_, fun k m => ?_⟩
      · rw [block_answers h he (hunknown k), finish_replied s l q _ hn]
      · rw [block_answers h he (hforeign k m), finish_replied s l q _ hn]
    · refine ⟨fun k => ?_, fun k m => ?_⟩
      · rw [unblock_answers h he (hunknown' k), finish_replied s l q _ hn]
      · rw [unblock_answers h he (hforeign' k m), finish_replied s l q _ hn]
  · have ⟨_, hn, _⟩ := h
    refine ⟨fun k => ?_, fun k => ?_⟩
    · rw [block_answers h he (hset ha k), finish_replied s l q _ hn]
    · rw [block_answers h he (hunset ha k), finish_answered hn (by simp)]
      rfl
  · have ⟨_, hn, _⟩ := h
    refine ⟨fun k => ?_, fun k => ?_⟩
    · rw [unblock_answers h he (hclear ha k), finish_replied s l q _ hn]
    · rw [unblock_answers h he (hunclear ha k), finish_answered hn (by simp [retestTrigger_notices])]
      rfl
  · refine ⟨fun p h => ?_, fun g h => ?_, fun k h => ?_, putElem_rows s he⟩
    · rw [h, Element.withBlock]
    · rw [h, Element.withBlock]
    · rw [h, Element.withBlock]

/-! ### BOUNDARY-OPEN, BOUNDARY-CLOSE and DIR-REQUEST (R173, R176) -/

theorem boundaryOpen_answers (h : s.Ready l q (.boundaryOpen e)) (he : e ≤ 255)
    (hc : (s.taken l).setOpen l e true = (u, b)) : exec (.boundaryOpen l) s = .next (State.finish s (u.answer l q b)) :=
  runRequest_answers h rfl (decide_eq_false (Nat.not_lt.2 he)) (congrArg atOnce hc)

theorem boundaryClose_answers (h : s.Ready l q (.boundaryClose e)) (he : e ≤ 255)
    (hc : (s.taken l).setOpen l e false = (u, b)) : exec (.boundaryClose l) s = .next (State.finish s (u.answer l q b)) :=
  runRequest_answers h rfl (decide_eq_false (Nat.not_lt.2 he)) (congrArg atOnce hc)

theorem dirRequest_answers (h : s.Ready l q (.dirRequest e)) (he : e ≤ 255)
    (hc : (s.taken l).dirRequest l e = (u, b)) : exec (.dirRequest l) s = .next (State.finish s (u.answer l q b)) :=
  runRequest_answers h rfl (decide_eq_false (Nat.not_lt.2 he)) (congrArg atOnce hc)

theorem setOpen_rows (s : State) (l : OpLink) (e : Nat) (v : Bool) :
    (s.boundary? e = none → s.setOpen l e v = (s, .refused .unknownObject))
    ∧ ∀ b, s.boundary? e = some b →
      (s.holdsArea l b.area = false → s.setOpen l e v = (s, .refused .noAuthority))
      ∧ (s.holdsArea l b.area = true → v = true → (s.blcAt b.link).used = false →
        s.setOpen l e v = (s, .refused .wrongState))
      ∧ (s.holdsArea l b.area = true → (v = true → (s.blcAt b.link).used = true) →
        s.setOpen l e v = (s.modBlc b.link fun r => { r with isOpen := v }, .accepted)) := by
  refine ⟨fun h => ?_, fun b h => ⟨fun k => ?_, fun k m o => ?_, fun k m => ?_⟩⟩
  · simp [State.setOpen, h]
  · simp [State.setOpen, h, k]
  · simp [State.setOpen, h, k, m, o]
  · cases v with
    | false => simp [State.setOpen, h, k]
    | true => simp [State.setOpen, h, k, m rfl]

theorem askDirection_of_tests {b : BLink} (h : s.directionTests b = true) : s.askDirection b =
    { s.modBlc b fun r => { r with change := .asking, changeTimer := .running 40 } with
      out := s.out ++ [.boundary b .dirAsk] } := by
  obtain ⟨hask, -⟩ := requestDirection_rows s b
  have hsend : s.requestDirection b = s.askDirection b := if_pos h
  rw [← hsend, hask h, State.send, State.modBlc, putBlc_out]

theorem dirRequest_rows (s : State) (l : OpLink) (e : Nat) :
    (s.boundary? e = none → s.dirRequest l e = (s, .refused .unknownObject))
    ∧ ∀ b, s.boundary? e = some b →
      (s.holdsArea l b.area = false → s.dirRequest l e = (s, .refused .noAuthority))
      ∧ (s.holdsArea l b.area = true →
        ((s.blcAt b.link).used = false ∨ ((s.blcAt b.link).direction ≠ .outward ∧ s.directionTests b.link = false)) →
        s.dirRequest l e = (s, .refused .wrongState))
      ∧ (s.holdsArea l b.area = true → (s.blcAt b.link).used = true → (s.blcAt b.link).direction = .outward →
        s.dirRequest l e = (s, .accepted))
      ∧ (s.holdsArea l b.area = true → (s.blcAt b.link).used = true → (s.blcAt b.link).direction ≠ .outward →
        s.directionTests b.link = true → s.dirRequest l e = (s.askDirection b.link, .accepted)) := by
  refine ⟨fun h => ?_, fun b h => ⟨fun k => ?_, fun k m => ?_, fun k m o => ?_, fun k m o p => ?_⟩⟩
  · simp [State.dirRequest, h]
  · simp [State.dirRequest, h, k]
  · rcases m with m | ⟨m, o⟩
    · simp [State.dirRequest, h, k, m]
    · simp [State.dirRequest, h, k, m, o]
  · simp [State.dirRequest, h, k, m, o]
  · simp [State.dirRequest, h, k, m, o, p]

/-- Settles O40: the two checks of the three requests, each request by the boundary's record, and what its tests read. -/
theorem boundaryRequestsByTheBoundaryRecord : Obligations.BoundaryRequestsByTheBoundaryRecord := by
  intro s l q e he
  obtain ⟨hopenUnknown, hopen⟩ := setOpen_rows (s.taken l) l e true
  obtain ⟨hcloseUnknown, hclose⟩ := setOpen_rows (s.taken l) l e false
  obtain ⟨hdirUnknown, hdir⟩ := dirRequest_rows (s.taken l) l e
  refine ⟨fun c r hcr h => ?_, fun b hb ha => ?_, directionTests_iff s, lineClear_iff s⟩
  · have ⟨_, hn, _⟩ := h
    rcases hcr with ⟨rfl, rfl⟩ | ⟨rfl, rfl⟩ | ⟨rfl, rfl⟩
    · refine ⟨fun k => ?_, fun b hb k => ?_⟩
      · rw [boundaryOpen_answers h he (hopenUnknown k), finish_replied s l q _ hn]
      · rw [boundaryOpen_answers h he ((hopen b hb).1 k), finish_replied s l q _ hn]
    · refine ⟨fun k => ?_, fun b hb k => ?_⟩
      · rw [boundaryClose_answers h he (hcloseUnknown k), finish_replied s l q _ hn]
      · rw [boundaryClose_answers h he ((hclose b hb).1 k), finish_replied s l q _ hn]
    · refine ⟨fun k => ?_, fun b hb k => ?_⟩
      · rw [dirRequest_answers h he (hdirUnknown k), finish_replied s l q _ hn]
      · rw [dirRequest_answers h he ((hdir b hb).1 k), finish_replied s l q _ hn]
  · obtain ⟨-, hunused, hopens⟩ := hopen b hb
    obtain ⟨-, -, hcloses⟩ := hclose b hb
    obtain ⟨-, hrefused, hheld, hasks⟩ := hdir b hb
    refine ⟨fun h => ⟨fun k => ?_, fun k => ?_⟩, fun h => ?_, fun h => ⟨fun k => ?_, fun k m => ?_, fun k m o => ?_⟩⟩ <;>
      have ⟨_, hn, _⟩ := h
    · rw [boundaryOpen_answers h he (hopens ha fun _ => k), finish_answered hn (by simp)]
    · rw [boundaryOpen_answers h he (hunused ha rfl k), finish_replied s l q _ hn]
    · rw [boundaryClose_answers h he (hcloses ha nofun), finish_answered hn (by simp)]
    · rw [dirRequest_answers h he (hrefused ha k), finish_replied s l q _ hn]
    · rw [dirRequest_answers h he (hheld ha k m), finish_replied s l q _ hn]
    · have hask := askDirection_of_tests (s := s.taken l) o
      rw [dirRequest_answers h he (hasks ha k m o), hask, finish_answered hn (by simp)]
      rfl

/-! ### The timers of an instance (R88, R127, R132, R135) -/

theorem exec_settingTimerExpiry (i : Nat) (s : State) : exec (.settingTimerExpiry i) s = execSettingTimerExpiry i s := rfl
theorem exec_overlapTimerExpiry (i : Nat) (s : State) : exec (.overlapTimerExpiry i) s = execOverlapTimerExpiry i s := rfl
theorem exec_approachTimerExpiry (i : Nat) (s : State) : exec (.approachTimerExpiry i) s = execApproachTimerExpiry i s := rfl
theorem exec_emergencyTimerExpiry (i : Nat) (s : State) : exec (.emergencyTimerExpiry i) s = execEmergencyTimerExpiry i s :=
  rfl

/-- A timer that runs in no record of its state does not run in this one. -/
theorem idle_of_all {α : Type} {o : Option α} {a : α} {f : α → Bool} (h : o.all (fun x => !f x) = true) (ho : o = some a) :
    f a = false := by
  rw [ho] at h
  simpa only [Option.all_some, Bool.not_eq_true'] using h

/-- An overrun recorded: it stands on both links, and beside the links nothing changes. -/
theorem recordOverrun_rows (s : State) (o : Overrun) :
    (s.recordOverrun o).notices = s.notices ∧ (∀ l, ((s.recordOverrun o).olc.get l).overrun = some o)
    ∧ (s.recordOverrun o).lkc = s.lkc ∧ ∀ j, (s.recordOverrun o).inst j = s.inst j :=
  ⟨rfl, fun l => by cases l <;> rfl, rfl, fun _ => rfl⟩

/-- An OVERLAP timer that ends while the section is not CLEAR stops and records the overrun, and nothing else. -/
theorem overlapTimer_overruns {r : Inst} {d : RouteDef} {n : Nat} (hlive : s.live i = some (r, d))
    (ht : r.overlapTimer = .running n) (hs : r.state = .inUse) (hsect : overlapSect d = some e) (hc : s.isClear e = false)
    (hn : s.notices = []) : ∃ t, exec (.overlapTimerExpiry i) s = .next t ∧ t.inst i = some { r with overlapTimer := .stopped }
      ∧ (∀ l, (t.olc.get l).overrun = some ⟨i, r.route, .overlap, e⟩) ∧ t.desk = s.desk ∧ t.lkc = s.lkc
      ∧ ∀ j, j ≠ i → t.inst j = s.inst j := by
  have hinst := inst_of_live hlive
  have hmod := modInst_of (fun r => { r with overlapTimer := .stopped }) hinst
  obtain ⟨v, hv⟩ : ∃ v, v = s.putInst i (some { r with overlapTimer := .stopped }) := ⟨_, rfl⟩
  obtain ⟨u, hu⟩ : ∃ u, u = v.recordOverrun ⟨i, r.route, .overlap, e⟩ := ⟨_, rfl⟩
  obtain ⟨hnotices, hoverrun, hlkc, hinsts⟩ := recordOverrun_rows v ⟨i, r.route, .overlap, e⟩
  rw [← hu] at hnotices hoverrun hlkc hinsts
  have hquiet : u.notices = [] := by rw [hnotices, hv, putInst_notices, hn]
  have hdesk : u.desk = s.desk := by
    have hwalk : Walk (fun _ => True) s v := hv ▸ Walk.refl.sameInst hinst _
    rw [hu]
    exact (hwalk.recordOverrun _).desk
  refine ⟨State.settleMarks s u, ?_, ?_, fun l => ?_, (desk_settleMarks s u).trans hdesk, ?_, fun j hj => ?_⟩
  · have hruns : (r.overlapTimer.isRunning && r.state == .inUse) = true := by rw [ht, hs]; rfl
    simp only [exec_overlapTimerExpiry, execOverlapTimerExpiry, hlive, hruns, hsect, hc, if_true, Bool.false_eq_true,
      if_false, hmod, ← hv, ← hu, finish_of_none s u hquiet]
  · exact (hinsts i).trans (hv ▸ inst_putInst_same _ _ _ (lt_of_inst hinst))
  · rw [settleMarks_get]
    exact hoverrun l
  · exact hlkc.trans (hv ▸ putInst_lkc ..)
  · exact (hinsts j).trans (hv ▸ inst_putInst_ne _ _ _ _ hj.symm)

/-- Settles O41: each timer running in its state, and each that does not run or runs in another. -/
theorem instanceTimersByTheState : Obligations.InstanceTimersByTheState := by
  intro s i
  refine ⟨fun r d n hl ht hs => ?_, fun r n hi ht hs => ?_, fun r n hi ht hs => ?_, fun r d n e hl ht hs he => ⟨fun hc => ?_,
    fun hc hn => overlapTimer_overruns hl ht hs he hc hn⟩, fun hn h => ?_, fun hn h => ?_, fun hn h => ?_, fun hn h => ?_⟩
  · simp only [exec_settingTimerExpiry, execSettingTimerExpiry, hl, ht, hs, Timer.isRunning, beq_self_eq_true, Bool.and_self,
      if_true]
  · simp only [exec_approachTimerExpiry, execApproachTimerExpiry, hi, ht, hs, Timer.isRunning, beq_self_eq_true,
      Bool.and_self, if_true]
  · simp only [exec_emergencyTimerExpiry, execEmergencyTimerExpiry, hi, ht, hs, Timer.isRunning, beq_self_eq_true,
      Bool.and_self, if_true]
  · simp only [exec_overlapTimerExpiry, execOverlapTimerExpiry, hl, ht, hs, he, hc, Timer.isRunning, beq_self_eq_true,
      Bool.and_self, if_true]
  · rw [exec_settingTimerExpiry, execSettingTimerExpiry]
    split
    · rename_i r d hl
      rw [idle_of_all h (inst_of_live hl), if_neg nofun, finish_self s hn]
    · rw [finish_self s hn]
  · rw [exec_overlapTimerExpiry, execOverlapTimerExpiry]
    split
    · rename_i r d hl
      rw [idle_of_all h (inst_of_live hl), if_neg nofun, finish_self s hn]
    · rw [finish_self s hn]
  · rw [exec_approachTimerExpiry, execApproachTimerExpiry]
    split
    · rename_i r hi
      rw [idle_of_all h hi, if_neg nofun, finish_self s hn]
    · rw [finish_self s hn]
  · rw [exec_emergencyTimerExpiry, execEmergencyTimerExpiry]
    split
    · rename_i r hi
      rw [idle_of_all h hi, if_neg nofun, finish_self s hn]
    · rw [finish_self s hn]

end Sys2Proof.Machine
end

section
/-! A release of all items, of one item and of the overlap, and the passage of the train (R12, R119 to R129, R133, R138,
R178, R181: O42). -/

namespace Sys2Proof.Machine

variable {s t u : State} {e i k : Nat} {r : Inst} {d : RouteDef}

/-! ### What a release empties (R12) -/

theorem State.Free.entry {P : SlotKind → Nat → Prop} (h : s.Free i P) (hp : P .entry e) : s.entryHeld i e = false := by
  have hslot := h .entry e hp
  unfold State.entryHeld
  cases he : s.elem e <;> simp_all [Element.slot]

theorem State.Free.exit {P : SlotKind → Nat → Prop} (h : s.Free i P) (hp : P .exit e) : s.exitHeld i e = false := by
  have hslot := h .exit e hp
  unfold State.exitHeld
  cases he : s.elem e <;> simp_all [Element.slot]

theorem State.Free.track {P : SlotKind → Nat → Prop} (h : s.Free i P) (hp : P .track e) (x : TrackRec) (role : Role)
    (hx : s.track? e = some x) : x.lock ≠ .held i role := fun hl =>
  h .track e hp (by rw [track_of_elem.1 hx, Element.slot, hl])

theorem State.Free.point {P : SlotKind → Nat → Prop} (h : s.Free i P) (hp : P .point e) (x : PointRec) (role : Role)
    (pos : Pos) (hx : s.point? e = some x) : x.lock ≠ .held i role pos := fun hl =>
  h .point e hp (by rw [point_of_elem.1 hx, Element.slot, hl])

/-- What a claimant left behind: none that satisfies the test. -/
theorem leaveEntry_stays {p : Claimant → Bool} {o : Option FctEntry} {f : FctEntry} {c : Claimant}
    (h : leaveEntry p o = some f) (hc : c ∈ f.claimants) : p c = false := by
  obtain ⟨g, -, hg⟩ := Option.bind_eq_some_iff.1 h
  dsimp only at hg
  split at hg
  · rename_i hl
    cases hg
    simpa using List.length_filter_eq_length_iff.1 hl c hc
  · split at hg
    · cases hg
    · cases hg
      simpa using (List.mem_filter.1 hc).2

theorem releaseNotice_lkc (p : State × Bool) : (releaseNotice p).lkc = p.1.lkc := by
  unfold releaseNotice
  split
  · obtain ⟨q, m, h⟩ := retestTrigger_rest (s := p.1)
    rw [h]
  · rfl

theorem fctEntry_of_lkc (h : t.lkc = s.lkc) (n : Nat) : t.fctEntry n = s.fctEntry n := congrArg (fun x => x.fct.getD n none) h

theorem elem_of_lkc (h : t.lkc = s.lkc) (x : Nat) : t.elem x = s.elem x := congrArg (fun y => y.elements.getD x .unconfigured) h

theorem dropped_claims {p : Claimant → Bool} {v : Bool} {n : Nat} {f : FctEntry} {c : Claimant}
    (h : (releaseNotice ((s.dropClaims p).1, v)).fctEntry n = some f) (hc : c ∈ f.claimants) : p c = false := by
  have hdrop := dropClaims_fct (s := s) p n
  generalize s.dropClaims p = z at h hdrop
  rw [fctEntry_of_lkc (releaseNotice_lkc (z.1, v)), hdrop] at h
  exact leaveEntry_stays h hc

/-- The claims that leave with a release of all items or of one. -/
theorem releaseItems_claims {n : Nat} {f : FctEntry} {c : Claimant} (h : (s.releaseItems i d).fctEntry n = some f)
    (hc : c ∈ f.claimants) : c.isInst i = false := dropped_claims h hc

theorem releasePathItem_claims {n : Nat} {f : FctEntry} {c : Claimant} (h : (s.releasePathItem i d k).fctEntry n = some f)
    (hc : c ∈ f.claimants) : protectsItem d i k c = false := dropped_claims h hc

theorem retestTrigger_lkc (s : State) : s.retestTrigger.lkc = s.lkc := by
  obtain ⟨q, m, h⟩ := retestTrigger_rest (s := s)
  rw [h]

theorem freeRecord_lkc (s : State) (i : Nat) : (s.freeRecord i).lkc = s.lkc := by
  rw [State.freeRecord, retestTrigger_lkc]
  exact putInst_lkc ..

theorem freeRecord_inst_ne {j : Nat} (h : j ≠ i) : (s.freeRecord i).inst j = s.inst j := by
  have hinsts : (s.freeRecord i).rim.insts = (s.putInst i none).rim.insts := by simp [State.freeRecord]
  rw [inst_of_insts hinsts, inst_putInst_ne _ _ _ _ (Ne.symm h)]

theorem releaseAll_eq (h : s.live i = some (r, d)) : ∃ u : State, u.inland = s.inland
    ∧ s.releaseAll i = (u.releaseItems i d).freeRecord i :=
  ⟨(s.closeMatters i r d).tellRefused i r d, by rw [tellRefused_inland, closeMatters_inland], by simp only [State.releaseAll, h]⟩

/-- A release of all items frees the record and leaves it no lock, slot or claim. -/
theorem releaseAll_rows (h : s.live i = some (r, d)) :
    (s.releaseAll i).inst i = none
    ∧ (∀ j, j ≠ i → (s.releaseAll i).inst j = s.inst j)
    ∧ (s.releaseAll i).entryHeld i d.entry = false ∧ (s.releaseAll i).exitHeld i d.exit = false
    ∧ (∀ it ∈ d.path ++ d.overlap.toList,
        (∀ t role, (s.releaseAll i).track? it.sect = some t → t.lock ≠ .held i role)
        ∧ ∀ p ∈ it.points, ∀ x role pos, (s.releaseAll i).point? p.point = some x → x.lock ≠ .held i role pos)
    ∧ (∀ n f m, (s.releaseAll i).fctEntry n = some f → .route i m ∉ f.claimants)
    ∧ (s.releaseAll i).desk = s.desk := by
  obtain ⟨u, hu, he⟩ := releaseAll_eq h
  have hlkc : (s.releaseAll i).lkc = (u.releaseItems i d).lkc := by rw [he, freeRecord_lkc]
  have hfree : (s.releaseAll i).Free i (listed d) := fun x y hp => by
    rw [elem_of_lkc hlkc]
    exact Walk.releaseItems_free u i d x y hp
  refine ⟨?_, fun j hj => ?_, hfree.entry rfl, hfree.exit rfl, fun it hit => ⟨fun t role => ?_, fun p hp x role pos => ?_⟩,
    fun n f m hf hc => ?_, (Walk.refl (gone := fun _ => True) |>.releaseAll i).desk⟩
  · rw [he]
    exact inst_freeRecord _ i
  · rw [he, freeRecord_inst_ne hj, inst_of_insts (releaseItems_insts u i d), inst_of_insts (congrArg Rim.insts (Inland.rim hu))]
  · exact hfree.track ⟨it, hit, rfl⟩ t role
  · exact hfree.point ⟨it, hit, List.mem_map.2 ⟨p, hp, rfl⟩⟩ x role pos
  · rw [fctEntry_of_lkc hlkc] at hf
    simpa [Claimant.isInst] using releaseItems_claims hf hc

/-! ### The release of one item by the train (R122, R123) -/

theorem releaseItem_eq (s : State) (i : Nat) (r : Inst) (d : RouteDef) (k : Nat) : ∃ (u : State) (f : Inst → Inst),
    s.releaseItem i r d k = (u.releasePathItem i d k).modInst i f := by
  unfold State.releaseItem
  exact ⟨_, _, rfl⟩

theorem releaseItem_frees (s : State) (i : Nat) (r : Inst) (d : RouteDef) (k : Nat) :
    (k = 1 → (s.releaseItem i r d k).entryHeld i d.entry = false)
    ∧ (k = d.path.length → (s.releaseItem i r d k).exitHeld i d.exit = false)
    ∧ (∀ it, d.path[k - 1]? = some it →
      (∀ z role, (s.releaseItem i r d k).track? it.sect = some z → z.lock ≠ .held i role)
      ∧ ∀ p ∈ it.points, ∀ z role pos, (s.releaseItem i r d k).point? p.point = some z → z.lock ≠ .held i role pos)
    ∧ ∀ n f m, (s.releaseItem i r d k).fctEntry n = some f → .route i m ∈ f.claimants →
      (d.flank[m - 1]?).map FlankItem.protects ≠ some k := by
  obtain ⟨u, g, he⟩ := releaseItem_eq s i r d k
  have hlkc : (s.releaseItem i r d k).lkc = (u.releasePathItem i d k).lkc := by rw [he, modInst_lkc]
  have hfree : (s.releaseItem i r d k).Free i fun x y => (∃ it, d.path[k - 1]? = some it ∧ hasSlot it x y)
      ∨ (x = .entry ∧ y = d.entry ∧ k = 1) ∨ (x = .exit ∧ y = d.exit ∧ k = d.path.length) := fun x y hp => by
    rw [elem_of_lkc hlkc]
    exact Walk.releasePathItem_free u i d k x y hp
  refine ⟨fun h => hfree.entry (.inr (.inl ⟨rfl, rfl, h⟩)), fun h => hfree.exit (.inr (.inr ⟨rfl, rfl, h⟩)),
    fun it hit => ⟨fun z role => ?_, fun p hp z role pos => ?_⟩, fun n f m hf hc => ?_⟩
  · exact hfree.track (.inl ⟨it, hit, rfl⟩) z role
  · exact hfree.point (.inl ⟨it, hit, List.mem_map.2 ⟨p, hp, rfl⟩⟩) z role pos
  · rw [fctEntry_of_lkc hlkc] at hf
    simpa [protectsItem] using releasePathItem_claims hf hc

theorem tryFree_done (h : s.inst i = some r) (hd : r.done = true) : s.tryFree i = s.freeRecord i := by
  simp only [State.tryFree, h, hd, if_true]

/-! ### The train's entry (R119, R120) -/

theorem trainEntry_alone (o : Bool) (h : s.inst i = some r) (ha : s.sectionsAhead d = []) :
    (s.trainEntry i r d o).inst i = some (startOverlap d (r.entered d)) := by
  have hinst : (s.putInst i (some (r.entered d))).inst i = some (r.entered d) := inst_putInst_same _ _ _ (lt_of_inst h)
  rw [trainEntry_inst, ha, List.foldl_nil, hinst]
  rfl

/-- A train's entry as the obligation writes it: the class told by a proposition. -/
theorem entered_eq (d : RouteDef) (r : Inst) : r.entered d = { r with
    state := .inUse, highest := 1, releasePtr := 1, approach := .stopped, causes := [], entryTaken := true
    acceptance := if d.cls = .boundaryIn then .released else r.acceptance } := by
  simp only [Inst.entered, beq_iff_eq]

theorem trainEntry_marks (s : State) (i : Nat) (r : Inst) (d : RouteDef) (o : Bool) (l : OpLink) :
    .element d.entry ∈ ((s.trainEntry i r d o).olc.get l).marks := by
  rw [trainEntry_eq, marks_mark_iff]
  exact .inr rfl

theorem trainEntry_rows (o : Bool) (h : s.inst i = some r) :
    let t := s.trainEntry i r d o
    let entered : Inst := { r with
      state := .inUse, highest := 1, releasePtr := 1, approach := .stopped, causes := [], entryTaken := true
      acceptance := if d.cls = .boundaryIn then .released else r.acceptance }
    t.inst i = (((s.sectionsAhead d).foldl (fun s e => s.advance i e) (s.putInst i (some entered))).inst i).map
        (fun r => if r.state = .inUse then startOverlap d r else r)
      ∧ (s.sectionsAhead d = [] → t.inst i = some (startOverlap d entered))
      ∧ (d.cls ≠ .boundaryIn → ∀ g, s.signal? d.entry = some g →
          ∃ g', t.signal? d.entry = some g' ∧ g'.commanded = .stop)
      ∧ (∀ b, d.cls = .boundaryIn → s.entryLink d = some b → (t.blcAt b).incoming = (s.blcAt b).incoming.tail)
      ∧ (∀ l, .element d.entry ∈ (t.olc.get l).marks)
      ∧ (o = true → ∀ l, (t.olc.get l).overrun = some ⟨i, r.route, .pastStop, pathSect d 1⟩)
      ∧ startOverlap d r = (if r.highest = d.path.length ∧ r.overlap = .locked then
          { r with overlap := .timing, overlapTimer := .running d.overlapTime } else r) := by
  intro t entered
  have hentered : entered = r.entered d := (entered_eq d r).symm
  rw [hentered]
  refine ⟨?_, trainEntry_alone o h, fun hc g hg => trainEntry_signal o hc hg, fun b hc hb => trainEntry_incoming o hc hb,
    trainEntry_marks s i r d o, fun ho l => ?_, rfl⟩
  · simp only [t, trainEntry_inst, beq_iff_eq]
  · simp only [t, ho]
    exact trainEntry_overrun l

/-! ### The train in the route (R121 to R126) -/

theorem seqFault_eq (h : s.inst i = some r) (w : FaultKind) (e : Nat) : s.seqFault i w e = s.putInst i
    (some { r with state := .seqFault, faultRec := some (w, e), overlapTimer := .stopped }) := modInst_of _ h

/-- What an IN_USE instance does with a section ahead, with the item at its pointer, and with a section notice. -/
theorem inUse_rows (h : s.live i = some (r, d)) (hs : r.state = .inUse) :
    (∀ e, seqIndex d e = none → s.advance i e = s)
    ∧ (∀ e j, seqIndex d e = some j →
      ((j ≤ r.highest ∨ (j = d.path.length + 1 ∧ r.highest = d.path.length)) → s.advance i e = s)
      ∧ (r.highest < j → ¬(j = d.path.length + 1 ∧ r.highest = d.path.length) →
        ((∀ k, r.highest < k → k < j → s.isClear (pathSect d k) = false) →
          s.advance i e = s.putInst i (some (startOverlap d { r with highest := min j d.path.length })))
        ∧ ((∃ k, r.highest < k ∧ k < j ∧ s.isClear (pathSect d k) = true) → s.advance i e = s.putInst i
            (some { r with state := .seqFault, faultRec := some (.jump, e), overlapTimer := .stopped }))))
    ∧ (∀ n, (r.pathReleased = true ∨ r.highest < r.releasePtr ∨ s.isClear (pathSect d r.releasePtr) = false) →
      State.tryRelease i (n + 1) s = s)
    ∧ (∀ n, r.pathReleased = false → r.releasePtr ≤ r.highest → s.isClear (pathSect d r.releasePtr) = true →
      ((r.releasePtr = d.path.length ∨ s.isClear (pathSect d (r.releasePtr + 1)) = false) →
        State.tryRelease i (n + 1) s = State.tryRelease i n ((s.releaseItem i r d r.releasePtr).tryFree i))
      ∧ (r.releasePtr ≠ d.path.length → s.isClear (pathSect d (r.releasePtr + 1)) = true →
        State.tryRelease i (n + 1) s = s.putInst i (some { r with
          state := .seqFault, faultRec := some (.vanish, pathSect d r.releasePtr), overlapTimer := .stopped })))
    ∧ (∀ e x y,
      (y ≠ .clear → x = .clear → s.takeNotice (.track i e x y) = s.advance i e)
      ∧ (y ≠ .clear → x ≠ .clear → s.takeNotice (.track i e x y) = s)
      ∧ (y = .clear → ¬(overlapSect d = some e ∧ r.overlap = .timing ∧ r.overlapTimer = .stopped) →
        (pathIndex d e = some r.releasePtr → s.takeNotice (.track i e x y) = State.tryRelease i 13 s)
        ∧ (pathIndex d e ≠ some r.releasePtr → s.takeNotice (.track i e x y) = s))
      ∧ (y = .clear → overlapSect d = some e → r.overlap = .timing → r.overlapTimer = .stopped →
        pathIndex d e ≠ some r.releasePtr →
        s.takeNotice (.track i e x y) = s.putInst i (some { r with overlapTimer := .running d.overlapTime })))
    ∧ ∀ e, r.lists d e = true →
      (((r.openItems d).any fun it => it.sect == e) = true ∨ (r.overlapHeld = true ∧ overlapSect d = some e) →
        State.takeSuspect e s i = s.putInst i
          (some { r with state := .seqFault, faultRec := some (.suspect, e), overlapTimer := .stopped }))
      ∧ (((r.openItems d).any fun it => it.sect == e) = false → ¬(r.overlapHeld = true ∧ overlapSect d = some e) →
        State.takeSuspect e s i = s) := by
  have hadvance (e : Nat) := advance_rows h hs e
  refine ⟨fun e => (hadvance e).1, fun e j hj => ?_, fun n hstays => ?_, fun n hp hr hc => ?_, fun e x y => ?_, fun e hl => ?_⟩
  · obtain ⟨hbehind, hreached, hahead⟩ := (hadvance e).2 j hj
    exact ⟨fun k => k.elim hbehind fun ⟨hn, hx⟩ => hreached hn hx, hahead⟩
  · obtain ⟨hsame, -⟩ := tryRelease_rows h n
    exact hsame (.inr hstays)
  · obtain ⟨-, hmoves⟩ := tryRelease_rows h n
    exact hmoves hs hp hr hc
  · obtain ⟨hinUse, -⟩ := sectionInUse_rows (e := e) h x y
    exact hinUse hs
  · obtain ⟨-, -, hfault⟩ := takeSuspect_rows h hl
    obtain ⟨hopen, hclosed⟩ := hfault hs
    exact ⟨fun k => (hopen k).trans (seqFault_eq (inst_of_live h) .suspect e), hclosed⟩

theorem transferred_rows (h : s.inst i = some r) :
    ((r.state = .cleared ∨ r.state = .inUse) → r.overlapHeld = true → s.takeNotice (.overlapTransferred i) =
        (s.putInst i (some { r with overlap := .released, overlapTimer := .stopped })).tryFree i)
    ∧ (¬((r.state = .cleared ∨ r.state = .inUse) ∧ r.overlapHeld = true) → s.takeNotice (.overlapTransferred i) = s) :=
  takeTransferred_rows h

/-- Settles O42: the release of all items, the releases as retest triggers, the train's entry, its place in the route, the
notices of an IN_USE instance, those of one cancelled or at fault, and the release of one item. -/
theorem aReleaseOfAllItemsFreesTheInstance : Obligations.AReleaseOfAllItemsFreesTheInstance := by
  refine ⟨fun s i r d h => ?_, fun s i d => ?_, fun s i r d o h => trainEntry_rows o h, fun s d e => ?_,
    fun s i r d h hs => inUse_rows h hs, fun s i r d e x y h => ?_, fun s i r d k h => ?_⟩
  · obtain ⟨hinst, hothers, hentry, hexit, hitems, hclaims, hdesk⟩ := releaseAll_rows h
    exact ⟨hinst, hothers, hentry, hexit, hitems, hclaims, hdesk, releaseAll_frees s i r d h⟩
  · refine ⟨fun k => ?_, releaseOverlap_rows s i d, releaseItems_rows s i d, freeRecord_rows s i⟩
    obtain ⟨hemptied, hnot⟩ := releasePathItem_rows s i d k
    exact ⟨hemptied, hnot, fun hh r => releaseItem_triggers s i r d k hh⟩
  · obtain ⟨hpath, hseq⟩ := pathIndex_rows d e
    exact ⟨hpath, hseq, mem_sectionsAhead s d e⟩
  · obtain ⟨-, hcancelling, hfault⟩ := sectionInUse_rows (e := e) h x y
    exact ⟨hcancelling, hfault⟩
  · obtain ⟨hlast, hmoves⟩ := releaseItem_inst (d := d) k h
    obtain ⟨hentry, hexit, hlocks, hclaims⟩ := releaseItem_frees s i r d k
    obtain ⟨hfreed, hstays⟩ := tryFree_rows h
    refine ⟨hlast, hmoves, hentry, hexit, hlocks, hclaims, fun b ref hr => handOver_rows s b d.number ref hr,
      fun b ref hk hc hx hr => ?_, fun b m => giveUpAssurance_rows s b i m, fun hd => ⟨hfreed hd, tryFree_done h hd⟩, hstays,
      transferred_rows h⟩
    subst hk
    exact releaseItem_handsOver s b i r d ref hc hx hr

end Sys2Proof.Machine
end

section
/-! The store's retests (R139 to R142: O43), the lifetime of an entry (R143: O44) and the incoming requests of a link (R78,
R179: O45). -/

namespace Sys2Proof.Machine

variable {s t u : State} {n : Nat} {e : StoreEntry}

/-! ### A retest by the outcome of its trial (R140, R141) -/

/-- The state a retest tries in: its request taken from the waiting ones, its entry lifted. -/
def State.lifting (s : State) (n : Nat) : State :=
  { s with rqs := { s.rqs with
      store := modEntry n (fun (x : StoreEntry) => { x with presented := false, lifted := true }) s.rqs.store } }

/-- An entry as its retest holds it. -/
def StoreEntry.held (e : StoreEntry) : StoreEntry := { e with presented := false, lifted := true }

theorem retest_of_gone (h : ∀ e, s.storeEntry n = some e → e.presented = false) : s.retest n = s.nextRetest := by
  have hnone : s.presentedEntry n = none := by
    rw [State.presentedEntry, Option.filter_eq_none_iff]
    exact fun e he => by simp [h e he]
  unfold State.retest
  rw [hnone]

theorem retest_of_presented (h : s.storeEntry n = some e) (hp : e.presented = true) :
    (∀ i d t, (s.lifting n).tryRoute (.store e.link) ((s.lifting n).pairVariants n) = .reserved i d t →
      s.retest n = (((t.removeEntry e.held (.set i)).answerCancel e.held (.refused .wrongState)).nextRetest).checkWaiting i)
    ∧ (∀ b, (s.lifting n).tryRoute (.store e.link) ((s.lifting n).pairVariants n) = .blocked b →
      s.retest n = ((s.lifting n).putBack e.held).nextRetest)
    ∧ ((s.lifting n).tryRoute (.store e.link) ((s.lifting n).pairVariants n) = .noInstance →
      s.retest n = ((s.lifting n).putBack e.held).endPass) := by
  have hsome : s.presentedEntry n = some e := by
    rw [State.presentedEntry, h, Option.filter_some_pos hp]
  unfold State.retest
  rw [hsome]
  refine ⟨fun i d t ht => ?_, fun b hb => ?_, fun hn => ?_⟩
  · rw [State.lifting] at ht
    simp only [ht]
    rfl
  · rw [State.lifting] at hb
    simp only [hb]
    rfl
  · rw [State.lifting] at hn
    simp only [hn]
    rfl

theorem exec_retestRequest (s : State) : exec .retestRequest s = .next (State.finish s s.takeRetest) := rfl

theorem takeRetest_of_head {rest : List RouteRequest} (h : s.rim.requests = .retest n :: rest) :
    s.takeRetest = ({ s with rim := { s.rim with requests := rest } } : State).retest n := by
  simp only [State.takeRetest, h]

theorem takeRetest_of_other (h : ∀ n rest, s.rim.requests ≠ .retest n :: rest) : s.takeRetest = s := by
  unfold State.takeRetest
  split
  · rename_i r l hr
    exact absurd hr (h r l)
  · rfl

/-- Settles O43: the retest at the head by the outcome of its trial, and what the pass, the put-back and the answer to a
waiting STORE-CANCEL do. -/
theorem retestByTheOutcomeOfTheTrial : Obligations.RetestByTheOutcomeOfTheTrial := by
  intro s
  obtain ⟨hpresents, hends⟩ := nextRetest_rows s
  refine ⟨fun n rest h => ?_, fun hn h => ?_, hpresents, hends, endPass_rows s, fun e => ?_⟩
  · rw [exec_retestRequest, takeRetest_of_head h]
    refine ⟨fun hgone => ?_, fun e he hp => ?_⟩
    · rw [retest_of_gone (s := { s with rim := { s.rim with requests := rest } }) hgone]
    · obtain ⟨hset, hblocked, hnone⟩ :=
        retest_of_presented (s := { s with rim := { s.rim with requests := rest } }) he hp
      refine ⟨fun i d t ht => ?_, fun b hb => ?_, fun hno => ?_⟩
      · rw [hset i d t ht]
        rfl
      · rw [hblocked b hb]
        rfl
      · rw [hnone hno]
        rfl
  · rw [exec_retestRequest, takeRetest_of_other h, finish_self s hn]
  · obtain ⟨hexpired, hcancelled, hlost, hstays⟩ := putBack_rows s e
    obtain ⟨hpair, hnoPair⟩ := pairVariants_rows s
    exact ⟨hexpired, hcancelled, hlost, hstays, hpair, hnoPair, answerCancel_rows s e⟩

/-! ### The lifetime of an entry (R143) -/

theorem exec_lifetimeTimerExpiry (n : Nat) (s : State) :
    exec (.lifetimeTimerExpiry n) s = .next (State.finish s (s.lifetimeExpires n)) := rfl

theorem route_of_storeEntry (h : s.storeEntry n = some e) : e.route = n := by
  simpa using List.find?_some h

/-- An entry that leaves with its reason: the store, the removal record and the marks, and nothing else. -/
theorem removeEntry_rows (s : State) (e : StoreEntry) (why : RemovalReason) :
    (s.removeEntry e why).rqs = { s.rqs with
      store := s.rqs.store.filter (fun x => x.route != e.route)
      removal := s.rqs.removal.set e.link (some ⟨e.route, why⟩) }
    ∧ (∀ l, .store ∈ ((s.removeEntry e why).olc.get l).marks)
    ∧ (∀ l, ((s.removeEntry e why).olc.get l).desk = (s.olc.get l).desk)
    ∧ s.removeEntry e why = { s with
      rqs := (s.removeEntry e why).rqs
      olc := (s.removeEntry e why).olc }
    ∧ (s.removeEntry e why).notices = s.notices := by
  refine ⟨rfl, fun l => ?_, fun l => ?_, rfl, rfl⟩
  · rw [State.removeEntry, marks_mark_iff]
    exact .inr rfl
  · cases l <;> rfl

theorem settleMarks_rows (b u : State) :
    State.settleMarks b u = { u with olc := (State.settleMarks b u).olc } ∧ (State.settleMarks b u).rqs = u.rqs := ⟨rfl, rfl⟩

/-- An entry that is not lifted leaves as EXPIRED. -/
theorem lifetime_expires {k : Ticks} (hn : s.notices = []) (h : s.storeEntry n = some e) (ht : e.lifetime = .running k)
    (hl : e.lifted = false) : ∃ t, exec (.lifetimeTimerExpiry n) s = .next t
      ∧ t.rqs = { s.rqs with store := s.rqs.store.filter (fun x => x.route != n)
                             removal := s.rqs.removal.set e.link (some ⟨n, .expired⟩) }
      ∧ (∀ l, .store ∈ (t.olc.get l).marks) ∧ (∀ l, (t.olc.get l).desk = (s.olc.get l).desk)
      ∧ t = { s with rqs := t.rqs, olc := t.olc } := by
  have hroute := route_of_storeEntry h
  obtain ⟨hrqs, hmarks, hdesk, hrest, hnotices⟩ := removeEntry_rows s e .expired
  have hexp : s.lifetimeExpires n = s.removeEntry e .expired := by
    simp [State.lifetimeExpires, h, ht, hl, Timer.isRunning]
  generalize s.removeEntry e .expired = u at hrqs hmarks hdesk hrest hnotices hexp
  refine ⟨State.settleMarks s u, ?_, ?_, fun l => ?_, fun l => ?_, ?_⟩
  · rw [exec_lifetimeTimerExpiry, hexp, finish_of_none s u (hnotices.trans hn)]
  · rw [(settleMarks_rows s u).2, hrqs, hroute]
  · exact (settleMarks_mem s u l _).2 (hmarks l)
  · rw [settleMarks_get]
    exact hdesk l
  · rw [(settleMarks_rows s u).1, hrest]

/-- Settles O44: an entry that is not lifted, one that is, and one that is gone or has no timer. -/
theorem lifetimeExpiryByTheLiftedMark : Obligations.LifetimeExpiryByTheLiftedMark := by
  intro s n hn
  refine ⟨fun e k h ht hl => lifetime_expires hn h ht hl, fun e k h ht hl => ?_, fun h => ?_⟩
  · rw [exec_lifetimeTimerExpiry]
    simp only [State.lifetimeExpires, h, ht, hl, Timer.isRunning, Bool.not_true, Bool.false_eq_true, if_false, if_true]
    exact congrArg _ (finish_of_quiet _ _ hn (fun _ h => h) fun _ h => h)
  · rw [exec_lifetimeTimerExpiry]
    unfold State.lifetimeExpires
    split
    · rename_i e he
      rw [if_pos (by rw [idle_of_all h he]; rfl), finish_self s hn]
    · rw [finish_self s hn]

/-! ### An incoming request (R78, R179) -/

theorem exec_incomingAcceptanceRequest (s : State) :
    exec .incomingAcceptanceRequest s = .next (State.finish s s.takeIncoming) := rfl

theorem takeIncoming_of_head {b : BLink} {ref : Nat} {rest : List RouteRequest}
    (h : s.rim.requests = .incoming b ref n :: rest) :
    let s0 : State := { s with rim := { s.rim with requests := rest } }
    (∀ i d t, s0.tryRoute (.blc b) (s0.routeDef n).toList = .reserved i d t →
      s.takeIncoming = (t.modBlc b fun r => { r with inAsks := r.inAsks ++ [⟨ref, i⟩] }).checkWaiting i)
    ∧ ((∀ i d t, s0.tryRoute (.blc b) (s0.routeDef n).toList ≠ .reserved i d t) →
      s.takeIncoming = s0.sendHeld b (.acceptRefuse ref .unavailable)) := by
  intro s0
  unfold State.takeIncoming
  rw [h]
  refine ⟨fun i d t ht => ?_, fun hno => ?_⟩
  · simp only [s0] at ht
    simp only [ht]
  · dsimp only
    split
    · rename_i i d t ht
      exact absurd ht (hno i d t)
    · rfl

theorem takeIncoming_of_other (h : ∀ b ref n rest, s.rim.requests ≠ .incoming b ref n :: rest) : s.takeIncoming = s := by
  unfold State.takeIncoming
  split
  · rename_i b ref r l hr
    exact absurd hr (h b ref r l)
  · rfl

/-- Settles O45: the incoming request at the head reserved or refused by the state of its link, and no such request. -/
theorem incomingRequestReservesOrIsRefused : Obligations.IncomingRequestReservesOrIsRefused := by
  intro s
  refine ⟨fun b ref n rest h => ?_, fun hn h => ?_⟩
  · obtain ⟨hreserves, hrefuses⟩ := takeIncoming_of_head h
    refine ⟨fun i d t ht => ?_, fun hno hn => ?_⟩
    · rw [exec_incomingAcceptanceRequest, hreserves i d t ht]
    · rw [exec_incomingAcceptanceRequest, hrefuses hno]
      refine ⟨fun hl => ?_, fun hl => ?_, fun hl => ?_⟩
      · simp only [State.sendHeld, show (State.blcAt { s with rim := { s.rim with requests := rest } } b).link = .up from hl]
        exact congrArg _ (finish_of_quiet _ _ hn (fun _ h => h) fun _ h => h)
      · simp only [State.sendHeld, show (State.blcAt { s with rim := { s.rim with requests := rest } } b).link = .down from hl]
        exact congrArg _ (finish_of_quiet _ _ hn (fun _ h => h) fun _ h => h)
      · simp only [State.sendHeld, show (State.blcAt { s with rim := { s.rim with requests := rest } } b).link = .sync from hl]
        exact congrArg _ (finish_of_none _ _ ((modBlc_notices ..).trans hn))
  · rw [exec_incomingAcceptanceRequest, takeIncoming_of_other h, finish_self s hn]

end Sys2Proof.Machine
end

section
/-! Boundary frames: what is counted, what is answered, the STATUS of a link (R165 to R168, R185, R190: O46). -/

namespace Sys2Proof.Machine

variable {s t u : State} {b x : BLink}

/-! ### A boundary record written, and when it marks the boundary (R184) -/

/-- Line clear reads of the record what its still fields hold. -/
theorem lineClear_of_still {r : Blc} (h : r.still = (s.blcAt b).still) :
    ({ s with blc := s.blc.set b r } : State).lineClear b = s.lineClear b := by
  have hat : ({ s with blc := s.blc.set b r } : State).blcAt b = r := by simp [State.blcAt]
  have hlink : r.link = (s.blcAt b).link := (congrArg Blc.link h :)
  have hclear : r.neighbourClear = (s.blcAt b).neighbourClear := (congrArg Blc.neighbourClear h :)
  have hsections : r.lineSections = (s.blcAt b).lineSections := (congrArg Blc.lineSections h :)
  rw [State.lineClear, State.lineClear, State.lineFree, State.lineFree, hat, hlink, hclear, hsections]
  rfl

/-- A write that leaves the still fields marks nothing. -/
theorem modBlc_of_still {f : Blc → Blc} (h : (f (s.blcAt b)).still = (s.blcAt b).still) :
    s.modBlc b f = { s with blc := s.blc.set b (f (s.blcAt b)) } :=
  if_pos ⟨h, lineClear_of_still h⟩

theorem modBlc_of_change {f : Blc → Blc} (h : (f (s.blcAt b)).still ≠ (s.blcAt b).still) :
    s.modBlc b f = ({ s with blc := s.blc.set b (f (s.blcAt b)) } : State).mark (.boundary b) :=
  if_neg fun k => h k.1

theorem modBlc_marks_iff (f : Blc → Blc) (l : OpLink) (o : Obj) : o ∈ ((s.modBlc b f).olc.get l).marks ↔
    o ∈ (s.olc.get l).marks ∨ (o = .boundary b ∧ (f (s.blcAt b)).still ≠ (s.blcAt b).still) := by
  by_cases h : (f (s.blcAt b)).still = (s.blcAt b).still
  · rw [modBlc_of_still h]
    simp [h]
  · rw [modBlc_of_change h, marks_mark_iff]
    simp [h]

theorem modBlc_desk (s : State) (b : BLink) (f : Blc → Blc) (l : OpLink) :
    ((s.modBlc b f).olc.get l).desk = (s.olc.get l).desk := by
  rw [modBlc_marks s b f l]
  rfl

/-- What a frame counted leaves: the other links, the desks, and the marks but for a counter that changes. -/
theorem frame_rows (s : State) (b : BLink) (r : Blc → Blc) (hr : ∀ x, (r x).still = x.still ↔ (r x).counts = x.counts) :
    (∀ x, x ≠ b → (s.modBlc b r).blcAt x = s.blcAt x)
    ∧ (∀ l, ((s.modBlc b r).olc.get l).desk = (s.olc.get l).desk)
    ∧ (∀ l o, o ∈ ((s.modBlc b r).olc.get l).marks ↔
        o ∈ (s.olc.get l).marks ∨ (o = .boundary b ∧ (r (s.blcAt b)).counts ≠ (s.blcAt b).counts))
    ∧ s.modBlc b r = { s with
      blc := (s.modBlc b r).blc
      olc := (s.modBlc b r).olc } := by
  refine ⟨fun x hx => blcAt_modBlc_ne _ _ _ _ hx.symm, modBlc_desk s b r, fun l o => ?_, ?_⟩
  · rw [modBlc_marks_iff, ne_eq, ne_eq, hr]
  · exact (modBlc_eq s b r).trans (by rw [modBlc_eq s b r])

theorem countDiscarded_still (r : Blc) : (countDiscarded r).still = r.still ↔ (countDiscarded r).counts = r.counts :=
  ⟨fun h => (congrArg Blc.counts h :), fun h => by
    simp only [countDiscarded] at h
    simp only [countDiscarded, Blc.still, h]⟩

theorem countGood_still (r : Blc) :
    ({ countGood r with silenceTimer := r.silenceTimer.restart 15 } : Blc).still = r.still ↔
      ({ countGood r with silenceTimer := r.silenceTimer.restart 15 } : Blc).counts = r.counts :=
  ⟨fun h => (congrArg Blc.counts h :), fun h => by
    simp only [countGood] at h
    simp only [countGood, Blc.still, h]⟩

/-! ### The STATUS of a link (R166) -/

theorem linkServes_iff : s.linkServes b = true ↔ s.cfl.load = .operating ∧ (s.blcAt b).used = true := by
  simp [State.linkServes]

theorem exec_statusTimerExpiry (b : BLink) (s : State) : exec (.statusTimerExpiry b) s = .next (State.finish s (s.statusDue b)) :=
  rfl

theorem statusDue_idle (h : s.linkServes b = false ∨ (s.blcAt b).statusTimer.isRunning = false) : s.statusDue b = s :=
  if_neg (by rcases h with h | h <;> simp [h])

theorem statusDue_sends (h : s.linkServes b = true) (k : (s.blcAt b).statusTimer.isRunning = true) :
    s.statusDue b = { s with
      blc := s.blc.set b { s.blcAt b with statusTimer := .running 5 }
      out := s.out ++ [.boundary b (.status (s.statusOf b))] } := by
  rw [State.statusDue, if_pos (by simp [h, k]), modBlc_of_still (by rfl)]
  rfl

theorem statusTimer_sends (hn : s.notices = []) (h : s.linkServes b = true) (k : (s.blcAt b).statusTimer.isRunning = true) :
    ∃ t, exec (.statusTimerExpiry b) s = .next t ∧ t.blcAt b = { s.blcAt b with statusTimer := .running 5 }
      ∧ t = { s with
        blc := t.blc
        out := s.out ++ [.boundary b (.status (s.statusOf b))] }
      ∧ ∀ x, x ≠ b → t.blcAt x = s.blcAt x := by
  refine ⟨s.statusDue b, ?_, ?_, ?_, fun x hx => ?_⟩
  · rw [exec_statusTimerExpiry, statusDue_sends h k]
    exact congrArg _ (finish_of_quiet _ _ hn (fun _ h => h) fun _ h => h)
  · rw [statusDue_sends h k]
    simp [State.blcAt]
  · rw [statusDue_sends h k]
  · rw [statusDue_sends h k]
    have hne : (b : Nat) ≠ (x : Nat) := fun k => hx (Fin.ext k.symm)
    simp [State.blcAt, hne]

/-! ### Frames that are discarded, and telegrams no row takes (R167) -/

theorem exec_boundaryFrameDiscarded (b : BLink) (bytes : List Byte) (s : State) :
    exec (.boundaryFrameDiscarded b bytes) s = .next (State.finish s (s.frameArrives b bytes)) := rfl

theorem finish_badFrame (hn : s.notices = []) : State.finish s (s.badFrame b) = State.settleMarks s (s.badFrame b) :=
  finish_of_none _ _ ((badFrame_notices s b).trans hn)

theorem finish_goodFrame (hn : s.notices = []) : State.finish s (s.goodFrame b) = State.settleMarks s (s.goodFrame b) :=
  finish_of_none _ _ ((goodFrame_notices s b).trans hn)

theorem frameArrives_rows (s : State) (b : BLink) (bytes : List Byte) :
    ((∀ n, s.cfl.load ≠ .configFault n) → readBoundaryFrame (s.blcAt b).neighbour bytes = none →
      s.frameArrives b bytes = s.badFrame b)
    ∧ (∀ k, (∀ n, s.cfl.load ≠ .configFault n) → readBoundaryFrame (s.blcAt b).neighbour bytes = some (.other k) →
      s.frameArrives b bytes = s.goodFrame b)
    ∧ (∀ x, readBoundaryFrame (s.blcAt b).neighbour bytes = some x → (∀ k, x ≠ .other k) → s.frameArrives b bytes = s)
    ∧ ∀ n, s.cfl.load = .configFault n → s.frameArrives b bytes = s := by
  unfold State.frameArrives
  refine ⟨fun hl h => ?_, fun k hl h => ?_, fun x h hx => ?_, fun n hl => ?_⟩
  · rw [h]
    exact receive_bad s b id hl
  · rw [h]
    cases hs : s.linkServes b with
    | true => exact receive_good s b id hs
    | false => exact receive_idle s b id hl hs
  · rw [h]
    cases x with
    | other k => exact absurd rfl (hx k)
    | _ => rfl
  · split
    · exact receive_configFault s b _ id n hl
    · exact receive_configFault s b _ id n hl
    · rfl

theorem frameDiscarded_rows (s : State) (b : BLink) (hn : s.notices = []) (bytes : List Byte) :
    ((∀ n, s.cfl.load ≠ .configFault n) → readBoundaryFrame (s.blcAt b).neighbour bytes = none →
      exec (.boundaryFrameDiscarded b bytes) s = .next (State.settleMarks s (s.badFrame b)))
    ∧ (∀ k, (∀ n, s.cfl.load ≠ .configFault n) → readBoundaryFrame (s.blcAt b).neighbour bytes = some (.other k) →
      exec (.boundaryFrameDiscarded b bytes) s = .next (State.settleMarks s (s.goodFrame b)))
    ∧ (∀ x, readBoundaryFrame (s.blcAt b).neighbour bytes = some x → (∀ k, x ≠ .other k) →
      exec (.boundaryFrameDiscarded b bytes) s = .next s)
    ∧ ∀ n, s.cfl.load = .configFault n → exec (.boundaryFrameDiscarded b bytes) s = .next s := by
  obtain ⟨hbad, hgood, hlisted, hfault⟩ := frameArrives_rows s b bytes
  rw [exec_boundaryFrameDiscarded]
  exact ⟨fun hl h => by rw [hbad hl h, finish_badFrame hn], fun k hl h => by rw [hgood k hl h, finish_goodFrame hn],
    fun x h hx => by rw [hlisted x h hx, finish_self s hn], fun n hl => by rw [hfault n hl, finish_self s hn]⟩

/-- An operator request on a link that serves is refused NOT_PERMITTED, or in DOWN not answered. -/
theorem operatorRequest_rows {k : Byte} (hn : s.notices = []) (h1 : 1 ≤ k.toNat) (h2 : k.toNat ≤ 22)
    (hs : s.linkServes b = true) :
    ((s.blcAt b).link ≠ .down → exec (.operatorRequestOnBoundary b k) s =
      .next (State.settleMarks s ((s.goodFrame b).send (.boundary b (.notPermitted k)))))
    ∧ ((s.blcAt b).link = .down →
      exec (.operatorRequestOnBoundary b k) s = .next (State.settleMarks s (s.goodFrame b))) := by
  have hexec : exec (.operatorRequestOnBoundary b k) s =
      .next (State.finish s ((s.goodFrame b).sendNow b (.notPermitted k))) := by
    have hgood : (decide (1 ≤ k.toNat) && decide (k.toNat ≤ 22)) = true := by simp [h1, h2]
    have hrow : exec (.operatorRequestOnBoundary b k) s = .next (State.finish s
        (s.receive b (decide (1 ≤ k.toNat) && decide (k.toNat ≤ 22)) fun s => s.sendNow b (.notPermitted k))) := rfl
    rw [hrow, hgood, receive_good s b _ hs]
  rw [hexec]
  refine ⟨fun hl => ?_, fun hl => ?_⟩
  · rw [State.sendNow, if_neg (by simpa [goodFrame_link] using hl)]
    exact congrArg _ (finish_of_none _ _ ((goodFrame_notices s b).trans hn))
  · rw [State.sendNow, if_pos (by simpa [goodFrame_link] using hl), finish_goodFrame hn]

/-- Settles O46: the STATUS timer, frames discarded and of unlisted kinds, operator requests, what a count leaves, every
row that receives a telegram, and what a STATUS holds. -/
theorem boundaryFramesAreCountedAndAnswered : Obligations.BoundaryFramesAreCountedAndAnswered := by
  refine ⟨fun s b hn => ⟨fun h k => statusTimer_sends hn h k, fun h => ?_, linkServes_iff,
    fun bytes => ?_, fun bytes => ?_, fun bytes => ?_, fun bytes => ?_, fun k h1 h2 hs => operatorRequest_rows hn h1 h2 hs, goodFrame_at s b, blcAt_modBlc_same .., fun r hr => ?_⟩,
    fun s b c good hn h => ?_, statusOf_rows⟩
  · rw [exec_statusTimerExpiry, statusDue_idle h, finish_self s hn]
  · obtain ⟨hbad, -⟩ := frameDiscarded_rows s b hn bytes
    exact hbad
  · obtain ⟨-, hgood, -⟩ := frameDiscarded_rows s b hn bytes
    exact hgood
  · obtain ⟨-, -, hlisted, -⟩ := frameDiscarded_rows s b hn bytes
    exact hlisted
  · obtain ⟨-, -, -, hfault⟩ := frameDiscarded_rows s b hn bytes
    exact hfault
  · rcases hr with rfl | rfl
    · exact frame_rows s b _ countDiscarded_still
    · exact frame_rows s b _ countGood_still
  · obtain ⟨act, hact⟩ := telegramRow_exec b c good h
    refine ⟨fun n hl => ?_, fun hl hg => ?_, fun hl hg hs => ?_⟩
    · rw [hact, receive_configFault s b good act n hl, finish_self s hn]
    · rw [hact, hg, receive_bad s b act hl, finish_badFrame hn]
      rfl
    · rw [hact, hg, receive_idle s b act hl hs, finish_goodFrame hn]

end Sys2Proof.Machine
end

section
/-!
O47: a link that serves synchronises by STATUS and HOLDINGS. STATUS, the lists matched and the items resolved are the
rows of Laws/Resolution; what is added here is that resolving HOLDINGS leaves the areas, the axle counters, the
auxiliaries, the route catalogue and the selections, and the direction case by case.
-/
namespace Sys2Proof.Machine
variable (s : State) (b : BLink)

/-- What no telegram of a neighbour writes: areas, axle counters, auxiliaries, catalogue and selections. -/
def State.books (s : State) := (s.aum, s.ace, s.aou, s.rcat, s.rim.sel)

@[simp] theorem modBlc_books (f : Blc → Blc) : (s.modBlc b f).books = s.books := by
  rw [modBlc_eq]
  rfl

@[simp] theorem notify_books (n : Notice) : (s.notify n).books = s.books := rfl
@[simp] theorem notifyAll_books (l : List Notice) : (s.notifyAll l).books = s.books := rfl
@[simp] theorem send_books (x : Sent) : (s.send x).books = s.books := rfl
@[simp] theorem putFct_books (n : Nat) (v : Option FctEntry) : (s.putFct n v).books = s.books := rfl
@[simp] theorem mark_books (o : Obj) : (s.mark o).books = s.books := rfl

@[simp] theorem putElem_books (e : Nat) (r : Element) : (s.putElem e r).books = s.books := by
  unfold State.putElem
  dsimp only
  split <;> rfl

@[simp] theorem setFlankRef_books (e : Nat) (r : Option Nat) : (s.setFlankRef e r).books = s.books := by
  unfold State.setFlankRef
  split <;> simp

@[simp] theorem retestTrigger_books : s.retestTrigger.books = s.books := by
  unfold State.retestTrigger State.startPass State.presentMarked
  (repeat' split) <;> rfl

theorem dropFrom_books (n : Nat) (p : Claimant → Bool) : (s.dropFrom n p).1.books = s.books := by
  unfold State.dropFrom
  split
  · rfl
  · dsimp only
    (repeat' split) <;> simp

theorem foldl_fst_keeps {α β γ : Type} (g : State → γ) {f : State × β → α → State × β}
    (h : ∀ p x, g (f p x).1 = g p.1) (l : List α) (p : State × β) : g (l.foldl f p).1 = g p.1 := by
  induction l generalizing p with
  | nil => rfl
  | cons x l ih => rw [List.foldl_cons, ih, h]

theorem boundaryDrop_books (ref : Nat) : (s.boundaryDrop b ref).books = s.books := by
  have hdrop : ∀ p, (s.dropClaims p).1.books = s.books := fun p =>
    foldl_fst_keeps State.books (f := fun (acc : State × Bool) n => ((acc.1.dropFrom n p).1, acc.2 || (acc.1.dropFrom n p).2))
      (fun a n => dropFrom_books a.1 n p) _ (s, false)
  unfold State.boundaryDrop
  dsimp only
  split <;> simp [hdrop]

theorem sendHeld_books (x : BoundaryTelegram) : (s.sendHeld b x).books = s.books := by
  unfold State.sendHeld
  split <;> simp

theorem askGiven_books (a : OutAsk) : (s.askGiven b a).books = s.books := by
  unfold State.askGiven
  split <;> simp [sendHeld_books]

theorem resolveReceived_books (h : HoldingsBody) : (s.resolveReceived b h).books = s.books := by
  unfold State.resolveReceived
  simp only [notifyAll_books, modBlc_books]
  exact (foldl_keeps _ State.books (fun s a => askGiven_books s b a) _).trans (by simp)

theorem resolveGiven_books (h : HoldingsBody) : (s.resolveGiven b h).books = s.books := by
  unfold State.resolveGiven
  split
  · exact (foldl_keeps _ State.books (fun s ref => boundaryDrop_books s b ref) _).trans (by simp)
  · rfl

theorem resolve_books (h : HoldingsBody) : (s.resolve b h).books = s.books := by
  unfold State.resolve State.linkUp State.flush
  refine (foldl_keeps _ State.books (fun s x => ?_) _).trans ?_
  · simp [State.flushOne]
  · simp [resolveGiven_books, resolveReceived_books]

theorem goodFrame_books : (s.goodFrame b).books = s.books := by
  simp [State.goodFrame]

theorem enterSync_books : (s.enterSync b).books = s.books := by
  unfold State.enterSync State.dropChange State.sendNow
  dsimp only
  (repeat' split) <;> simp

theorem books_of_desk {s t : State} (h : t.desk = s.desk) : t.books = s.books := by
  have hsel : t.rim.sel = s.rim.sel := congrArg Desk.sel h
  simp only [State.books, aum_of_desk h, ace_of_desk h, aou_of_desk h, rcat_of_desk h, hsel]

/-! ### HOLDINGS by the link state (R167, R169) -/

theorem exec_holdingsReceived (h : HoldingsBody) :
    exec (.holdingsReceived b h) s =
      .next (State.finish s (s.receive b h.wellFormed fun s => s.holdings b h)) := rfl

theorem exec_holdingsReceived_serving {s : State} {b : BLink} {h : HoldingsBody} (hs : s.linkServes b = true)
    (hw : h.wellFormed = true) :
    exec (.holdingsReceived b h) s = .next (State.finish s ((s.goodFrame b).holdings b h)) := by
  rw [exec_holdingsReceived, hw, receive_good s b _ hs]

theorem holdings_down {h : HoldingsBody} (hl : (s.blcAt b).link = .down) : s.holdings b h = s := by
  simp only [State.holdings, hl]

theorem holdings_sync {h : HoldingsBody} (hl : (s.blcAt b).link = .sync) : s.holdings b h = s.resolve b h := by
  simp only [State.holdings, hl]

theorem holdings_up {h : HoldingsBody} (hl : (s.blcAt b).link = .up) :
    s.holdings b h = (s.enterSync b).resolve b h := by
  simp only [State.holdings, hl]

/-- HOLDINGS resolved leave the link UP, with what no telegram writes as it was. -/
theorem finish_resolve_rows (u : State) (h : HoldingsBody) (hu : u.books = s.books) :
    let t := State.finish s (u.resolve b h)
    (t.blcAt b).link = .up ∧ (t.blcAt b).holdingsTimer = .stopped ∧ t.aum = s.aum ∧ t.ace = s.ace ∧ t.aou = s.aou
    ∧ t.rcat = s.rcat ∧ t.rim.sel = s.rim.sel := by
  have hdesk := finish_desk s (u.resolve b h)
  have hbooks := (books_of_desk hdesk).trans ((resolve_books u b h).trans hu)
  have hline := line_of_desk hdesk b
  obtain ⟨hat, -⟩ := resolve_rows u b h
  rw [hat, startTimers_line] at hline
  generalize State.finish s (u.resolve b h) = t at hline hbooks
  simp only [State.books, Prod.mk.injEq] at hbooks
  exact ⟨(congrArg Blc.link hline :), (congrArg Blc.holdingsTimer hline :), hbooks⟩

theorem holdingsReceived_rows (h : HoldingsBody) (hs : s.linkServes b = true) (hw : h.wellFormed = true) :
    ((s.blcAt b).link = .down → s.notices = [] → exec (.holdingsReceived b h) s =
        .next (State.settleMarks s (s.goodFrame b)))
    ∧ ((s.blcAt b).link = .sync → exec (.holdingsReceived b h) s =
        .next (State.finish s ((s.goodFrame b).resolve b h)))
    ∧ ((s.blcAt b).link = .up → exec (.holdingsReceived b h) s =
        .next (State.finish s (((s.goodFrame b).enterSync b).resolve b h))) := by
  rw [exec_holdingsReceived_serving hs hw]
  refine ⟨fun hl hn => ?_, fun hl => ?_, fun hl => ?_⟩
  · rw [holdings_down _ _ ((goodFrame_link s b).trans hl), finish_goodFrame hn]
  · rw [holdings_sync _ _ ((goodFrame_link s b).trans hl)]
  · rw [holdings_up _ _ ((goodFrame_link s b).trans hl)]

theorem holdingsReceived_up (h : HoldingsBody) (hs : s.linkServes b = true) (hw : h.wellFormed = true)
    (hl : (s.blcAt b).link ≠ .down) :
    ∃ t, exec (.holdingsReceived b h) s = .next t ∧ (t.blcAt b).link = .up ∧ (t.blcAt b).holdingsTimer = .stopped
      ∧ t.aum = s.aum ∧ t.ace = s.ace ∧ t.aou = s.aou ∧ t.rcat = s.rcat ∧ t.rim.sel = s.rim.sel := by
  obtain ⟨-, hsync, hup⟩ := holdingsReceived_rows s b h hs hw
  cases hk : (s.blcAt b).link with
  | down => exact absurd hk hl
  | sync => exact ⟨_, hsync hk, finish_resolve_rows s b _ h (goodFrame_books s b)⟩
  | up => exact ⟨_, hup hk, finish_resolve_rows s b _ h ((enterSync_books _ b).trans (goodFrame_books s b))⟩

/-! ### The direction (R172) -/

theorem resolvedDirection_of_received {r : Blc} (h : HoldingsBody) (hr : r.outgoing ≠ [] ∨ r.outAsks ≠ []) :
    resolvedDirection r h = .outward :=
  if_pos (by simpa using hr)

theorem resolvedDirection_of_given {r : Blc} (h : HoldingsBody) (ho : r.outgoing = []) (ha : r.outAsks = [])
    (hr : r.incoming ≠ [] ∨ r.inAsks ≠ []) : resolvedDirection r h = .inward :=
  (if_neg (by simp [ho, ha])).trans (if_pos (by simpa using hr))

/-- With nothing received or given here, the direction follows the neighbour's lists and then both directions. -/
theorem resolvedDirection_of_idle {r : Blc} (h : HoldingsBody) (ho : r.outgoing = []) (ha : r.outAsks = [])
    (hi : r.incoming = []) (hq : r.inAsks = []) : resolvedDirection r h =
      if !h.acceptancesGiven.isEmpty || !h.acceptancesReceived.isEmpty then .none
      else if h.direction == mirror r.direction then r.direction
      else if r.direction == .none then mirror h.direction
      else if h.direction == .none then r.direction
      else .none :=
  (if_neg (by simp [ho, ha])).trans (if_neg (by simp [hi, hq]))

theorem resolvedDirection_of_directions {r : Blc} (h : HoldingsBody) (ho : r.outgoing = []) (ha : r.outAsks = [])
    (hi : r.incoming = []) (hq : r.inAsks = []) (hg : h.acceptancesGiven = []) (hv : h.acceptancesReceived = []) :
    (h.direction = mirror r.direction → resolvedDirection r h = r.direction)
    ∧ (r.direction = .none → resolvedDirection r h = mirror h.direction)
    ∧ (h.direction = .none → resolvedDirection r h = r.direction)
    ∧ (r.direction ≠ .none → h.direction = r.direction → resolvedDirection r h = .none) := by
  rw [resolvedDirection_of_idle h ho ha hi hq, hg, hv]
  cases r.direction <;> cases h.direction <;> decide

theorem resolvedDirection_rows (r : Blc) (h : HoldingsBody) :
    ((r.outgoing ≠ [] ∨ r.outAsks ≠ []) → resolvedDirection r h = .outward)
    ∧ (r.outgoing = [] → r.outAsks = [] →
      ((r.incoming ≠ [] ∨ r.inAsks ≠ []) → resolvedDirection r h = .inward)
      ∧ (r.incoming = [] → r.inAsks = [] →
        ((h.acceptancesGiven ≠ [] ∨ h.acceptancesReceived ≠ []) → resolvedDirection r h = .none)
        ∧ (h.acceptancesGiven = [] → h.acceptancesReceived = [] →
          (h.direction = mirror r.direction → resolvedDirection r h = r.direction)
          ∧ (r.direction = .none → resolvedDirection r h = mirror h.direction)
          ∧ (h.direction = .none → resolvedDirection r h = r.direction)
          ∧ (r.direction ≠ .none → h.direction = r.direction → resolvedDirection r h = .none)))) :=
  ⟨resolvedDirection_of_received h, fun ho ha => ⟨resolvedDirection_of_given h ho ha, fun hi hq =>
    ⟨fun hg => (resolvedDirection_of_idle h ho ha hi hq).trans (if_pos (by simpa using hg)),
      resolvedDirection_of_directions h ho ha hi hq⟩⟩⟩

/-! ### Items given (R171) -/

theorem lineFree_iff (r : Blc) : s.lineFree r = true ↔
    (∀ e ∈ r.lineSections, ∃ k, s.track? e = some k ∧ k.occupancy = .clear) ∧ r.neighbourClear = true := by
  simp [State.lineFree, isClear_iff]

theorem resolveGiven_claims (h : HoldingsBody) (hf : s.lineFree (s.blcAt b) = true) :
    let t := s.resolveGiven b h
    let leaves := fun c => ∃ ref, c = Claimant.boundary b ref ∧ ref ∉ h.assurancesReceived
    (∀ n, s.fctEntry n = none → t.fctEntry n = none)
    ∧ ∀ n f, s.fctEntry n = some f →
      ((∀ c ∈ f.claimants, ¬leaves c) → t.fctEntry n = some f)
      ∧ ((∃ c ∈ f.claimants, leaves c) → (∀ c ∈ f.claimants, leaves c) → t.fctEntry n = none)
      ∧ ((∃ c ∈ f.claimants, leaves c) → (∃ c ∈ f.claimants, ¬leaves c) → ∃ l, t.fctEntry n = some { f with claimants := l }
        ∧ l.Sublist f.claimants ∧ ∀ c, c ∈ l ↔ c ∈ f.claimants ∧ ¬leaves c) := by
  intro t leaves
  obtain ⟨-, hfree⟩ := resolveGiven_rows s b h
  obtain ⟨-, -, -, -, hfct⟩ := hfree hf
  refine ⟨fun n hn => (hfct n).trans (by rw [hn]; rfl), fun n f hx => ?_⟩
  rw [hfct n, hx]
  exact leaveEntry_cases _ leaves (Claimant.unlisted_iff b h) f

/-- Settles O47: STATUS and HOLDINGS by the link state, the direction, SYNC entered, the lists matched, the items
received and given, the link UP, and the response timers. -/
theorem linksSynchroniseByStatusAndHoldings : Obligations.LinksSynchroniseByStatusAndHoldings := by
  refine ⟨⟨fun s b body hn hs hw => ?_, fun s b h hs hw => ?_⟩, resolvedDirection_rows, fun s b => ?_,
    fun _ ref => matchRefs_rows ref, fun s b h hl => ?_, fun s b h => ?_, fun s b h => ?_, startTimerOf_rows⟩
  · obtain ⟨hdown, hstays, hclash⟩ := statusReceived_rows s b body hn hs hw
    exact ⟨hdown, fun hd => statusReceived_down s b body hs hw hd, hstays, hclash⟩
  · obtain ⟨hdown, hsync, hup⟩ := holdingsReceived_rows s b h hs hw
    exact ⟨hdown, hsync, hup, holdingsReceived_direction s b h hs hw, holdingsReceived_up s b h hs hw⟩
  · exact ⟨rfl, mem_givenRefs s b, enterSync_rows s b⟩
  · obtain ⟨hat, hnotices, hothers, -, hrest⟩ := resolveReceived_rows s b h hl
    exact ⟨hat, hnotices, hothers, hrest⟩
  · obtain ⟨hbusy, hfree⟩ := resolveGiven_rows s b h
    refine ⟨lineFree_iff s _, hbusy, fun hf => ?_⟩
    obtain ⟨hat, hothers, hout, hnotices, -⟩ := hfree hf
    exact ⟨hat, hothers, hout, hnotices, resolveGiven_claims s b h hf⟩
  · obtain ⟨hat, hothers, hout, hnotices, hlkc⟩ := resolve_rows s b h
    refine ⟨hat, ?_, hothers, hout, hnotices, hlkc⟩
    have hline := congrArg Blc.line hat
    rw [startTimers_line] at hline
    generalize State.blcAt (s.resolve b h) b = r at hline
    exact (congrArg Blc.direction hline :)

end Sys2Proof.Machine
end

section
/-!
O48 and O49: the link timers, and the direction asked, granted and refused. A command of a link changes the desk in its
boundary records alone (`State.ashore`); every row below is what the rules of Laws/Resolution and Laws/Lookups say of
one function, carried to the end of the command by `finish_desk`.
-/
namespace Sys2Proof.Machine
variable (s : State) (b : BLink)

/-! ### The desk but for the boundary records -/

/-- The desk with the boundary records left open. -/
def State.ashore : Vector Blc 4 → Desk := fun v => { s.desk with lines := v }

theorem ashore_of_desk {s t : State} (h : t.desk = s.desk) : t.ashore = s.ashore := by
  funext v
  simp only [State.ashore, h]

/-- What leaves all but the boundary records leaves the desk but for its lines. -/
theorem desk_of_ashore {s t : State} (h : t.ashore = s.ashore) : t.desk = { s.desk with lines := t.desk.lines } :=
  (congrFun h t.desk.lines :)

theorem modBlc_ashore (f : Blc → Blc) : (s.modBlc b f).ashore = s.ashore := by
  funext v
  have hC := modBlc_desk s b f .olC
  have hL := modBlc_desk s b f .olL
  rw [modBlc_eq] at hC hL ⊢
  simp only [PerLink.get] at hC hL
  simp only [State.ashore, State.desk, hC, hL]

theorem notifyAll_ashore (l : List Notice) : (s.notifyAll l).ashore = s.ashore := rfl
theorem notify_ashore (n : Notice) : (s.notify n).ashore = s.ashore := rfl
theorem send_ashore (x : Sent) : (s.send x).ashore = s.ashore := rfl
theorem finish_ashore (t : State) : (State.finish s t).ashore = t.ashore := ashore_of_desk (finish_desk s t)

theorem dropChange_ashore : (s.dropChange b).ashore = s.ashore := by
  unfold State.dropChange
  dsimp only
  split <;> simp only [notify_ashore, modBlc_ashore]

theorem goDown_ashore : (s.goDown b).ashore = s.ashore := by
  simp only [State.goDown, notifyAll_ashore, modBlc_ashore, dropChange_ashore]

theorem goodFrame_ashore : (s.goodFrame b).ashore = s.ashore := by
  simp only [State.goodFrame, modBlc_ashore]

/-! ### The link timers (R168, R169) -/

theorem exec_silenceTimerExpiry : exec (.silenceTimerExpiry b) s = .next (State.finish s (s.silence b)) := rfl

theorem exec_holdingsResponseTimerExpiry : exec (.holdingsResponseTimerExpiry b) s =
    .next (State.finish s (if (s.blcAt b).holdingsTimer.isRunning then s.goDown b else s)) := rfl

theorem silenceTimerExpiry_running {s : State} {b : BLink} (h : (s.blcAt b).silenceTimer.isRunning = true) :
    exec (.silenceTimerExpiry b) s = .next (State.finish s ((s.modBlc b countSilence).goDown b)) := by
  rw [exec_silenceTimerExpiry, State.silence, if_pos h]

theorem holdingsResponseTimerExpiry_running {s : State} {b : BLink} (h : (s.blcAt b).holdingsTimer.isRunning = true) :
    exec (.holdingsResponseTimerExpiry b) s = .next (State.finish s (s.goDown b)) := by
  rw [exec_holdingsResponseTimerExpiry, if_pos h]

theorem linkTimer_stopped {s : State} {b : BLink} {c : Instr} (hn : s.notices = [])
    (h : (c = .silenceTimerExpiry b ∧ (s.blcAt b).silenceTimer.isRunning = false)
      ∨ (c = .holdingsResponseTimerExpiry b ∧ (s.blcAt b).holdingsTimer.isRunning = false)) : exec c s = .next s := by
  rcases h with ⟨rfl, h⟩ | ⟨rfl, h⟩
  · rw [exec_silenceTimerExpiry, State.silence, if_neg (by simp [h]), finish_self s hn]
  · rw [exec_holdingsResponseTimerExpiry, if_neg (by simp [h]), finish_self s hn]

/-- A link DOWN with nothing received and nothing held back. -/
def State.Severed (s : State) (b : BLink) : Prop :=
  (s.blcAt b).link = .down ∧ (s.blcAt b).outgoing = [] ∧ (s.blcAt b).outAsks = [] ∧ (s.blcAt b).assurances = []
    ∧ (s.blcAt b).heldBack = []

/-- No notice gives a severed link anything: its lists serve the instances only while the link is not DOWN. -/
theorem Small.severed {s t : State} {b : BLink} (h : Small s t) (k : s.Severed b) : t.Severed b := by
  have same : t.blc = s.blc → t.Severed b := fun e => by simpa only [State.Severed, State.blcAt, e] using k
  cases h with
  | blc c r hr =>
    by_cases hc : c = b
    · subst hc
      obtain ⟨hl, ho, ha, hs, hh⟩ := k
      rw [State.Severed, blcAt_putBlc_same]
      exact ⟨(congrArg Blc.link hr.line).trans hl, hr.outgoing hl ho, hr.outAsks hl ha, hr.assurances hl hs,
        hr.heldBack hl hh⟩
    · rw [State.Severed, blcAt_putBlc_ne _ _ _ _ hc]
      exact k
  | _ => exact same (by simp [State.enqueue, State.dequeue])

theorem finish_severed {s : State} {b : BLink} (base : State) (h : s.Severed b) : (State.finish base s).Severed b :=
  have hsettled : s.settle.Severed b :=
    (Walk.settle (gone := fun _ => True) (fun _ _ => trivial) .refl).keeps (P := fun t => t.Severed b)
      (fun _ _ hsmall => hsmall.severed) h
  hsettled

/-- What a command that takes a link DOWN leaves at its end. -/
theorem finish_goDown_rows (u : State) (hline : ∀ x, x ≠ b → u.blcAt x = s.blcAt x) (hshore : u.ashore = s.ashore) :
    let t := State.finish s (u.goDown b)
    (t.blcAt b).link = .down ∧ (t.blcAt b).outgoing = [] ∧ (t.blcAt b).outAsks = []
      ∧ (t.blcAt b).assurances = [] ∧ (t.blcAt b).heldBack = [] ∧ (t.blcAt b).neighbourClear = false
      ∧ (t.blcAt b).silenceTimer = .stopped ∧ (t.blcAt b).holdingsTimer = .stopped ∧ (t.blcAt b).change = .idle
      ∧ (t.blcAt b).direction = (u.blcAt b).direction ∧ (t.blcAt b).counts = (u.blcAt b).counts
      ∧ (∀ x, x ≠ b → (t.blcAt x).line = (s.blcAt x).line)
      ∧ t.desk = { s.desk with lines := t.desk.lines } := by
  obtain ⟨hat, hothers, -⟩ := goDown_rows u b
  have hdesk := finish_desk s (u.goDown b)
  have hsevered : (State.finish s (u.goDown b)).Severed b :=
    finish_severed s (by rw [State.Severed, hat]; exact ⟨rfl, rfl, rfl, rfl, rfl⟩)
  have hothers' := fun x (hx : x ≠ b) => (line_of_desk hdesk x).trans (congrArg Blc.line ((hothers x hx).trans (hline x hx)))
  have hshore' := desk_of_ashore ((ashore_of_desk hdesk).trans ((goDown_ashore u b).trans hshore))
  have hb := line_of_desk hdesk b
  rw [hat] at hb
  generalize State.finish s (u.goDown b) = t at hsevered hothers' hshore' hb
  obtain ⟨hl, ho, ha, hs, hh⟩ := hsevered
  exact ⟨hl, ho, ha, hs, hh, (congrArg Blc.neighbourClear hb :), (congrArg Blc.silenceTimer hb :),
    (congrArg Blc.holdingsTimer hb :), (congrArg Blc.change hb :), (congrArg Blc.direction hb :),
    (congrArg Blc.counts hb :), hothers', hshore'⟩

/-- Settles O48: the two link timers, the link going DOWN, and a timer that does not run. -/
theorem linkTimersTakeTheLinkDown : Obligations.LinkTimersTakeTheLinkDown := by
  intro s b c
  refine ⟨?_, silenceTimerExpiry_running, holdingsResponseTimerExpiry_running, ?_, linkTimer_stopped⟩
  · rintro (⟨rfl, hrun⟩ | ⟨rfl, hrun⟩)
    · have hrows := finish_goDown_rows s b (s.modBlc b countSilence) (fun x hx => blcAt_modBlc_ne _ _ _ _ hx.symm)
        (modBlc_ashore s b _)
      rw [blcAt_modBlc_same] at hrows
      rw [if_pos rfl]
      exact ⟨_, silenceTimerExpiry_running hrun, hrows⟩
    · rw [if_neg (by simp)]
      exact ⟨_, holdingsResponseTimerExpiry_running hrun, finish_goDown_rows s b s (fun _ _ => rfl) rfl⟩
  · obtain ⟨hat, hothers, hout, hlkc, hnotices, hmarks⟩ := goDown_rows s b
    exact ⟨hat, hothers, hout, hlkc, hnotices, hmarks, givesAny_iff s b⟩

end Sys2Proof.Machine
end

section
/-! O49: the direction of a link, asked, granted and refused (R173 to R175). -/
namespace Sys2Proof.Machine
variable {s u : State} {b : BLink}

/-! ### What a command leaves of a line at its end -/

theorem finish_line (base u : State) (x : BLink) : ((State.finish base u).blcAt x).line = (u.blcAt x).line :=
  line_of_desk (finish_desk base u) x

theorem finish_link (base u : State) (x : BLink) : ((State.finish base u).blcAt x).link = (u.blcAt x).link :=
  (congrArg Blc.link (finish_line base u x) :)

theorem finish_change (base u : State) (x : BLink) : ((State.finish base u).blcAt x).change = (u.blcAt x).change :=
  (congrArg Blc.change (finish_line base u x) :)

theorem finish_changeTimer (base u : State) (x : BLink) :
    ((State.finish base u).blcAt x).changeTimer = (u.blcAt x).changeTimer :=
  (congrArg Blc.changeTimer (finish_line base u x) :)

theorem finish_direction (base u : State) (x : BLink) :
    ((State.finish base u).blcAt x).direction = (u.blcAt x).direction :=
  (congrArg Blc.direction (finish_line base u x) :)

theorem finish_holdingsTimer (base u : State) (x : BLink) :
    ((State.finish base u).blcAt x).holdingsTimer = (u.blcAt x).holdingsTimer :=
  (congrArg Blc.holdingsTimer (finish_line base u x) :)

/-- The other lines, where the command writes the record of one link. -/
theorem finish_otherLines (f : Blc → Blc) (l : List Notice) (x : BLink) (hx : x ≠ b) :
    ((State.finish s ((u.modBlc b f).notifyAll l)).blcAt x).line = (u.blcAt x).line :=
  (finish_line s _ x).trans (congrArg Blc.line (blcAt_modBlc_ne u b x f hx.symm))

/-! ### A telegram of a link that serves -/

theorem exec_of_received {c : Instr} {good : Bool} {act : State → State} (hc : exec c s = .next (State.finish s (s.receive b good act)))
    (hg : good = true) (hs : s.linkServes b = true) : exec c s = .next (State.finish s (act (s.goodFrame b))) := by
  rw [hc, hg, receive_good s b act hs]

theorem goodFrame_ne {x : BLink} (h : x ≠ b) : (s.goodFrame b).blcAt x = s.blcAt x := blcAt_modBlc_ne _ _ _ _ h.symm

theorem goodFrame_lkc (s : State) (b : BLink) : (s.goodFrame b).lkc = s.lkc := modBlc_lkc ..

theorem goodFrame_change (s : State) (b : BLink) : ((s.goodFrame b).blcAt b).change = (s.blcAt b).change := by
  rw [goodFrame_at, countGood]

theorem goodFrame_senior (s : State) (b : BLink) : ((s.goodFrame b).blcAt b).senior = (s.blcAt b).senior := by
  rw [goodFrame_at, countGood]

theorem goodFrame_direction (s : State) (b : BLink) : ((s.goodFrame b).blcAt b).direction = (s.blcAt b).direction := by
  rw [goodFrame_at, countGood]

theorem sendNow_live {x : BoundaryTelegram} (h : (s.blcAt b).link ≠ .down) : s.sendNow b x = s.send (.boundary b x) :=
  if_neg (by simpa using h)

theorem inUp_up {act : State → State} (h : (s.blcAt b).link = .up) : s.inUp b act = act s := if_pos (by simp [h])

theorem inUp_other {act : State → State} (h : (s.blcAt b).link ≠ .up) : s.inUp b act = s := if_neg (by simpa using h)

theorem State.Up.linkServes (h : s.Up b) : s.linkServes b = true := by
  obtain ⟨hload, -, hused, -⟩ := h
  exact linkServes_iff.2 ⟨hload, hused⟩

/-! ### The conditions of R174 -/

theorem lineClear_congr {t : State} (hlkc : t.lkc = s.lkc) (hsect : (t.blcAt b).lineSections = (s.blcAt b).lineSections)
    (hclear : (t.blcAt b).neighbourClear = (s.blcAt b).neighbourClear) (hlink : (t.blcAt b).link = (s.blcAt b).link) :
    t.lineClear b = s.lineClear b := by
  refine Bool.eq_iff_iff.2 ?_
  simp only [lineClear_iff, State.track?, elem_of_lkc hlkc, hsect, hclear, hlink]

theorem boundaryElem_of_lkc {t : State} (h : t.lkc = s.lkc) (b : BLink) : t.boundaryElem b = s.boundaryElem b := by
  simp only [State.boundaryElem, elem_of_lkc h]

theorem boundary?_of_lkc {t : State} (h : t.lkc = s.lkc) (e : Nat) : t.boundary? e = s.boundary? e := by
  simp only [State.boundary?, elem_of_lkc h]

theorem grantsDirection_iff (s : State) (b : BLink) (withSlot : Bool) :
    s.grantsDirection b withSlot = true ↔ (s.blcAt b).isOpen = true ∧ s.lineClear b = true
      ∧ (s.blcAt b).outgoing = [] ∧ (s.blcAt b).outAsks = [] ∧ (s.blcAt b).incoming = [] ∧ (s.blcAt b).inAsks = []
      ∧ (withSlot = true → ∃ e, s.boundary? (s.boundaryElem b) = some e ∧ e.exitSlot = .empty) := by
  simp only [State.grantsDirection, Bool.and_eq_true, Bool.or_eq_true, Bool.not_eq_true', List.isEmpty_iff, and_assoc,
    Option.any_eq_true, beq_iff_eq, ← imp_iff_not_or, ← Bool.not_eq_true]

/-- A DIR-ASK answered without the crossing's own change. -/
theorem judgeDirAsk_granted {withSlot : Bool} (hl : (s.blcAt b).link ≠ .down) (h : s.grantsDirection b withSlot = true) :
    s.judgeDirAsk b withSlot = (s.modBlc b fun r =>
      { r with direction := .inward, change := .asked, changeTimer := .running 40 }).send (.boundary b .dirGive) :=
  (if_pos h).trans (sendNow_live (by rw [blcAt_modBlc_same]; exact hl))

theorem judgeDirAsk_refused {withSlot : Bool} (hl : (s.blcAt b).link ≠ .down) (h : s.grantsDirection b withSlot = false) :
    s.judgeDirAsk b withSlot = s.send (.boundary b .dirRefuse) :=
  (if_neg (by simp [h])).trans (sendNow_live hl)

theorem dropChange_asking (h : (s.blcAt b).change = .asking) :
    s.dropChange b = (s.modBlc b fun r => { r with change := .idle, changeTimer := .stopped }).notify (.directionFailed b) := by
  simp only [State.dropChange, h, beq_self_eq_true, if_true]

/-! ### DIR_ASK by the link state and the crossing (R174, R175) -/

theorem dirAskReceived_up (hs : s.linkServes b = true) (hl : (s.blcAt b).link = .up) :
    exec (.dirAskReceived b) s = .next (State.finish s ((s.goodFrame b).dirAsk b)) := by
  refine (exec_of_received rfl rfl hs).trans ?_
  simp only [goodFrame_link, hl]

theorem dirAskReceived_sync (hs : s.linkServes b = true) (hl : (s.blcAt b).link = .sync) :
    exec (.dirAskReceived b) s = .next (State.finish s ((s.goodFrame b).sendNow b .dirRefuse)) := by
  refine (exec_of_received rfl rfl hs).trans ?_
  simp only [goodFrame_link, hl]

theorem dirAskReceived_down (hs : s.linkServes b = true) (hl : (s.blcAt b).link = .down) :
    exec (.dirAskReceived b) s = .next (State.finish s (s.goodFrame b)) := by
  refine (exec_of_received rfl rfl hs).trans ?_
  simp only [goodFrame_link, hl]

theorem dirAsk_plain (h : (s.blcAt b).change ≠ .asking) : s.dirAsk b = s.judgeDirAsk b true := if_neg (by simpa using h)

theorem dirAsk_senior (h : (s.blcAt b).change = .asking) (hs : (s.blcAt b).senior = true) :
    s.dirAsk b = s.sendNow b .dirRefuse :=
  (if_pos (by simp [h])).trans (if_pos hs)

theorem dirAsk_junior (h : (s.blcAt b).change = .asking) (hs : (s.blcAt b).senior = false) :
    s.dirAsk b = (s.dropChange b).judgeDirAsk b false :=
  (if_pos (by simp [h])).trans (if_neg (by simp [hs]))

/-- A refusal sent at once is all there is to the command but its count. -/
theorem finish_refusal (hn : s.notices = []) (hl : (s.blcAt b).link ≠ .down) (x : BoundaryTelegram) :
    State.finish s ((s.goodFrame b).sendNow b x) = State.settleMarks s ((s.goodFrame b).send (.boundary b x)) := by
  rw [sendNow_live (by rwa [goodFrame_link])]
  exact finish_of_none _ _ ((goodFrame_notices s b).trans hn)

theorem dirAsk_plain_rows (hn : s.notices = []) (hs : s.linkServes b = true) (hl : (s.blcAt b).link = .up)
    (hc : (s.blcAt b).change ≠ .asking) :
    ((s.goodFrame b).grantsDirection b true = true →
      exec (.dirAskReceived b) s = .next (State.settleMarks s
        (((s.goodFrame b).modBlc b fun r =>
          { r with direction := .inward, change := .asked, changeTimer := .running 40 }).send (.boundary b .dirGive))))
    ∧ ((s.goodFrame b).grantsDirection b true = false →
      exec (.dirAskReceived b) s = .next (State.settleMarks s ((s.goodFrame b).send (.boundary b .dirRefuse)))) := by
  have hlive : ((s.goodFrame b).blcAt b).link ≠ .down := by simp [goodFrame_link, hl]
  have hnone : (s.goodFrame b).notices = [] := (goodFrame_notices s b).trans hn
  rw [dirAskReceived_up hs hl, dirAsk_plain (by rwa [goodFrame_change])]
  refine ⟨fun hg => ?_, fun hg => ?_⟩
  · rw [judgeDirAsk_granted hlive hg]
    exact congrArg _ (finish_of_none _ _ ((modBlc_notices ..).trans hnone))
  · rw [judgeDirAsk_refused hlive hg]
    exact congrArg _ (finish_of_none _ _ hnone)

/-- The junior end of a crossing, its own change given up. -/
theorem dirAsk_junior_rows (hs : s.linkServes b = true) (hl : (s.blcAt b).link = .up) (hc : (s.blcAt b).change = .asking)
    (hj : (s.blcAt b).senior = false) :
    let own : State := ((s.goodFrame b).modBlc b fun r => { r with change := .idle, changeTimer := .stopped }).notify
      (.directionFailed b)
    (own.grantsDirection b false = true → exec (.dirAskReceived b) s = .next (State.finish s
      ((own.modBlc b fun r => { r with direction := .inward, change := .asked, changeTimer := .running 40 }).send
        (.boundary b .dirGive))))
    ∧ (own.grantsDirection b false = false →
      exec (.dirAskReceived b) s = .next (State.finish s (own.send (.boundary b .dirRefuse))))
    ∧ (own.grantsDirection b false = true ↔ (s.blcAt b).isOpen = true ∧ s.lineClear b = true
        ∧ (s.blcAt b).outgoing = [] ∧ (s.blcAt b).outAsks = [] ∧ (s.blcAt b).incoming = [] ∧ (s.blcAt b).inAsks = [])
    ∧ ∃ t, exec (.dirAskReceived b) s = .next t ∧ (t.blcAt b).change ≠ .asking := by
  intro own
  have hat : own.blcAt b = { (s.goodFrame b).blcAt b with change := .idle, changeTimer := .stopped } :=
    blcAt_modBlc_same ..
  have hlkc : own.lkc = s.lkc := (modBlc_lkc ..).trans (goodFrame_lkc s b)
  rw [goodFrame_at, countGood] at hat
  have hown : (s.goodFrame b).dropChange b = own := dropChange_asking ((goodFrame_change s b).trans hc)
  have hexec : exec (.dirAskReceived b) s = .next (State.finish s (own.judgeDirAsk b false)) := by
    rw [dirAskReceived_up hs hl, dirAsk_junior ((goodFrame_change s b).trans hc) ((goodFrame_senior s b).trans hj), hown]
  have hlive : (own.blcAt b).link ≠ .down := by simp [hat, hl]
  have hclear : own.lineClear b = s.lineClear b := lineClear_congr hlkc (by rw [hat]) (by rw [hat]) (by rw [hat])
  refine ⟨fun hg => by rw [hexec, judgeDirAsk_granted hlive hg], fun hg => by rw [hexec, judgeDirAsk_refused hlive hg],
    ?_, _, hexec, ?_⟩
  · simp [grantsDirection_iff, hat, hclear]
  · rw [finish_change]
    cases hg : own.grantsDirection b false with
    | true =>
      rw [judgeDirAsk_granted hlive hg, send_blcAt, blcAt_modBlc_same]
      simp
    | false =>
      rw [judgeDirAsk_refused hlive hg, send_blcAt, hat]
      simp

theorem goodFrame_grants (s : State) (b : BLink) :
    (s.goodFrame b).grantsDirection b true = true ↔ (s.blcAt b).isOpen = true ∧ s.lineClear b = true
      ∧ (s.blcAt b).outgoing = [] ∧ (s.blcAt b).outAsks = [] ∧ (s.blcAt b).incoming = [] ∧ (s.blcAt b).inAsks = []
      ∧ ∃ e, s.boundary? (s.boundaryElem b) = some e ∧ e.exitSlot = .empty := by
  have hat := goodFrame_at s b
  have hlkc := goodFrame_lkc s b
  rw [countGood] at hat
  have hclear : (s.goodFrame b).lineClear b = s.lineClear b :=
    lineClear_congr hlkc (by rw [hat]) (by rw [hat]) (by rw [hat])
  simp only [grantsDirection_iff, hclear, boundaryElem_of_lkc hlkc, boundary?_of_lkc hlkc, hat, forall_const]

/-! ### The answers, and the response timer (R173, R174) -/

theorem dirGive_asking (h : (s.blcAt b).change = .asking) :
    s.dirGive b = (s.modBlc b fun r => { r with direction := .outward, change := .idle, changeTimer := .stopped }).notify
      (.directionHeld b) :=
  if_pos (by simp [h])

theorem dirGive_other (h : (s.blcAt b).change ≠ .asking) : s.dirGive b = s := if_neg (by simpa using h)

theorem dirRefuse_asking (h : (s.blcAt b).change = .asking) :
    s.dirRefuse b = (s.modBlc b fun r => { r with change := .idle, changeTimer := .stopped }).notify (.directionFailed b) :=
  (if_pos (by simp [h])).trans (dropChange_asking h)

theorem dirRefuse_other (h : (s.blcAt b).change ≠ .asking) : s.dirRefuse b = s := if_neg (by simpa using h)

theorem dirGiveReceived_serving (hs : s.linkServes b = true) : exec (.dirGiveReceived b) s =
    .next (State.finish s ((s.goodFrame b).inUp b fun s => s.dirGive b)) := exec_of_received rfl rfl hs

theorem dirRefuseReceived_serving (hs : s.linkServes b = true) : exec (.dirRefuseReceived b) s =
    .next (State.finish s ((s.goodFrame b).inUp b fun s => s.dirRefuse b)) := exec_of_received rfl rfl hs

/-- The end of a command that writes one record after a good frame and reports it. -/
theorem finish_answer_rows (s : State) (b : BLink) (f : Blc → Blc) (n : Notice) :
    let t := State.finish s (((s.goodFrame b).modBlc b f).notify n)
    (∀ x, x ≠ b → (t.blcAt x).line = (s.blcAt x).line) ∧ t.desk = { s.desk with lines := t.desk.lines } := by
  refine ⟨fun x hx => (finish_otherLines f [n] x hx).trans (congrArg Blc.line (goodFrame_ne hx)), desk_of_ashore ?_⟩
  rw [finish_ashore, notify_ashore, modBlc_ashore, goodFrame_ashore]

theorem directionAnswers_rows (hs : s.linkServes b = true) (hl : (s.blcAt b).link = .up) (hc : (s.blcAt b).change = .asking) :
    exec (.dirGiveReceived b) s = .next (State.finish s (((s.goodFrame b).modBlc b fun r =>
      { r with direction := .outward, change := .idle, changeTimer := .stopped }).notify (.directionHeld b)))
    ∧ exec (.dirRefuseReceived b) s = .next (State.finish s (((s.goodFrame b).modBlc b fun r =>
      { r with change := .idle, changeTimer := .stopped }).notify (.directionFailed b)))
    ∧ (∃ t, exec (.dirGiveReceived b) s = .next t ∧ (t.blcAt b).direction = .outward ∧ (t.blcAt b).change = .idle
      ∧ (t.blcAt b).changeTimer = .stopped ∧ (∀ x, x ≠ b → (t.blcAt x).line = (s.blcAt x).line)
      ∧ t.desk = { s.desk with lines := t.desk.lines })
    ∧ (∃ t, exec (.dirRefuseReceived b) s = .next t ∧ (t.blcAt b).direction = (s.blcAt b).direction
      ∧ (t.blcAt b).change = .idle ∧ (t.blcAt b).changeTimer = .stopped
      ∧ (∀ x, x ≠ b → (t.blcAt x).line = (s.blcAt x).line) ∧ t.desk = { s.desk with lines := t.desk.lines }) := by
  have hasking := (goodFrame_change s b).trans hc
  have hup := (goodFrame_link s b).trans hl
  have hgive : exec (.dirGiveReceived b) s = .next (State.finish s (((s.goodFrame b).modBlc b fun r =>
      { r with direction := .outward, change := .idle, changeTimer := .stopped }).notify (.directionHeld b))) := by
    rw [dirGiveReceived_serving hs, inUp_up hup, dirGive_asking hasking]
  have hrefuse : exec (.dirRefuseReceived b) s = .next (State.finish s (((s.goodFrame b).modBlc b fun r =>
      { r with change := .idle, changeTimer := .stopped }).notify (.directionFailed b))) := by
    rw [dirRefuseReceived_serving hs, inUp_up hup, dirRefuse_asking hasking]
  refine ⟨hgive, hrefuse, ⟨_, hgive, ?_, ?_, ?_, finish_answer_rows ..⟩, _, hrefuse, ?_, ?_, ?_, finish_answer_rows ..⟩
  · rw [finish_direction, notify_blcAt, blcAt_modBlc_same]
  · rw [finish_change, notify_blcAt, blcAt_modBlc_same]
  · rw [finish_changeTimer, notify_blcAt, blcAt_modBlc_same]
  · rw [finish_direction, notify_blcAt, blcAt_modBlc_same]
    exact goodFrame_direction s b
  · rw [finish_change, notify_blcAt, blcAt_modBlc_same]
  · rw [finish_changeTimer, notify_blcAt, blcAt_modBlc_same]

/-- An answer that no change awaits is only counted. -/
theorem directionAnswers_unawaited (hn : s.notices = []) (hs : s.linkServes b = true)
    (h : (s.blcAt b).link ≠ .up ∨ (s.blcAt b).change ≠ .asking) :
    exec (.dirGiveReceived b) s = .next (State.settleMarks s (s.goodFrame b))
    ∧ exec (.dirRefuseReceived b) s = .next (State.settleMarks s (s.goodFrame b)) := by
  rw [dirGiveReceived_serving hs, dirRefuseReceived_serving hs, ← finish_goodFrame hn]
  by_cases hl : (s.blcAt b).link = .up
  · have hc : ((s.goodFrame b).blcAt b).change ≠ .asking := by
      rw [goodFrame_change]
      exact h.resolve_left (not_not_intro hl)
    have hup := (goodFrame_link s b).trans hl
    rw [inUp_up hup, inUp_up hup, dirGive_other hc, dirRefuse_other hc]
    exact ⟨rfl, rfl⟩
  · have hup : ((s.goodFrame b).blcAt b).link ≠ .up := by rwa [goodFrame_link]
    rw [inUp_other hup, inUp_other hup]
    exact ⟨rfl, rfl⟩

theorem exec_dirResponseTimerExpiry (s : State) (b : BLink) :
    exec (.dirResponseTimerExpiry b) s = .next (State.finish s (s.dirTimeout b)) := rfl

theorem dirTimeout_stopped (h : (s.blcAt b).changeTimer.isRunning = false) : s.dirTimeout b = s := if_pos (by simp [h])

theorem dirTimeout_asking (h : (s.blcAt b).changeTimer.isRunning = true) (hc : (s.blcAt b).change = .asking) :
    s.dirTimeout b = s.dropChange b := by
  simp [State.dirTimeout, h, hc]

theorem dirTimeout_asked (h : (s.blcAt b).changeTimer.isRunning = true) (hc : (s.blcAt b).change = .asked) :
    s.dirTimeout b = s.enterSync b := by
  simp [State.dirTimeout, h, hc]

theorem dirTimeout_rows (h : (s.blcAt b).changeTimer.isRunning = true) :
    ((s.blcAt b).change = .asking → exec (.dirResponseTimerExpiry b) s = .next (State.finish s
      ((s.modBlc b fun r => { r with change := .idle, changeTimer := .stopped }).notify (.directionFailed b))))
    ∧ ((s.blcAt b).change = .asked → exec (.dirResponseTimerExpiry b) s = .next (State.finish s (s.enterSync b)))
    ∧ ((s.blcAt b).change = .asking → ∃ t, exec (.dirResponseTimerExpiry b) s = .next t
      ∧ (t.blcAt b).line = { s.blcAt b with change := .idle, changeTimer := .stopped }.line
      ∧ (∀ x, x ≠ b → (t.blcAt x).line = (s.blcAt x).line))
    ∧ ((s.blcAt b).change = .asked → ∃ t, exec (.dirResponseTimerExpiry b) s = .next t
      ∧ (t.blcAt b).link = .sync ∧ (t.blcAt b).change = .idle ∧ (t.blcAt b).holdingsTimer = .running 40
      ∧ (t.blcAt b).direction = (s.blcAt b).direction) := by
  have hasking : (s.blcAt b).change = .asking → exec (.dirResponseTimerExpiry b) s = .next (State.finish s
      ((s.modBlc b fun r => { r with change := .idle, changeTimer := .stopped }).notify (.directionFailed b))) := fun hc => by
    rw [exec_dirResponseTimerExpiry, dirTimeout_asking h hc, dropChange_asking hc]
  have hasked : (s.blcAt b).change = .asked →
      exec (.dirResponseTimerExpiry b) s = .next (State.finish s (s.enterSync b)) := fun hc => by
    rw [exec_dirResponseTimerExpiry, dirTimeout_asked h hc]
  refine ⟨hasking, hasked, fun hc => ⟨_, hasking hc, ?_, fun x hx => finish_otherLines _ [_] x hx⟩,
    fun hc => ⟨_, hasked hc, ?_⟩⟩
  · rw [finish_line, notify_blcAt, blcAt_modBlc_same]
  · obtain ⟨hat, -⟩ := enterSync_rows s b
    rw [finish_link, finish_change, finish_holdingsTimer, finish_direction, hat]
    exact ⟨rfl, rfl, rfl, rfl⟩

/-- Settles O49: DIR_ASK by the link state and the crossing, its answers, the response timer, and the request of a
reservation. -/
theorem directionIsAskedGrantedAndRefused : Obligations.DirectionIsAskedGrantedAndRefused := by
  refine ⟨fun s b hn hs => ⟨fun hl hc hg => ?_, fun hl hc hg => ?_, fun hl hc hsen => ?_, fun hl hc hj => dirAsk_junior_rows hs hl hc hj,
    goodFrame_grants s b, fun hl => ?_, fun hl => ?_⟩, fun s b => ⟨fun hs hl hc => directionAnswers_rows hs hl hc,
    dirTimeout_rows, fun hn h => ?_, directionAnswers_unawaited⟩, requestDirection_rows⟩
  · obtain ⟨hgranted, -⟩ := dirAsk_plain_rows hn hs hl hc
    exact hgranted hg
  · obtain ⟨-, hrefused⟩ := dirAsk_plain_rows hn hs hl hc
    exact hrefused hg
  · rw [dirAskReceived_up hs hl, dirAsk_senior ((goodFrame_change s b).trans hc) ((goodFrame_senior s b).trans hsen),
      finish_refusal hn (by simp [hl])]
  · rw [dirAskReceived_sync hs hl, finish_refusal hn (by simp [hl])]
  · rw [dirAskReceived_down hs hl, finish_goodFrame hn]
  · rw [exec_dirResponseTimerExpiry, dirTimeout_stopped h, finish_self s hn]

end Sys2Proof.Machine
end

section
/-! O50: an acceptance asked of a neighbour, and what the neighbour answers (R177 to R179). -/
namespace Sys2Proof.Machine
variable {s u : State} {b : BLink}

/-! ### The lists of a link after a good frame -/

theorem goodFrame_outAsks (s : State) (b : BLink) : ((s.goodFrame b).blcAt b).outAsks = (s.blcAt b).outAsks := by
  rw [goodFrame_at, countGood]

theorem goodFrame_outgoing (s : State) (b : BLink) : ((s.goodFrame b).blcAt b).outgoing = (s.blcAt b).outgoing := by
  rw [goodFrame_at, countGood]

theorem goodFrame_inAsks (s : State) (b : BLink) : ((s.goodFrame b).blcAt b).inAsks = (s.blcAt b).inAsks := by
  rw [goodFrame_at, countGood]

theorem goodFrame_incoming (s : State) (b : BLink) : ((s.goodFrame b).blcAt b).incoming = (s.blcAt b).incoming := by
  rw [goodFrame_at, countGood]

theorem goodFrame_assurances (s : State) (b : BLink) :
    ((s.goodFrame b).blcAt b).assurances = (s.blcAt b).assurances := by
  rw [goodFrame_at, countGood]

theorem goodFrame_isOpen (s : State) (b : BLink) : ((s.goodFrame b).blcAt b).isOpen = (s.blcAt b).isOpen := by
  rw [goodFrame_at, countGood]

theorem goodFrame_rim (s : State) (b : BLink) : (s.goodFrame b).rim = s.rim := by
  rw [State.goodFrame, modBlc_eq]

theorem goodFrame_rcat (s : State) (b : BLink) : (s.goodFrame b).rcat = s.rcat := by
  rw [State.goodFrame, modBlc_eq]

/-! ### A telegram that only UP takes -/

theorem refOk_of_lt {ref : Nat} (h : ref < 16) : refOk ref = true := by simp [refOk, h]

theorem exec_inUp {c : Instr} {good : Bool} {act : State → State}
    (hc : exec c s = .next (State.finish s (s.receive b good fun s => s.inUp b act))) (hg : good = true) (hup : s.Up b) :
    exec c s = .next (State.finish s (act (s.goodFrame b))) := by
  have hs := hup.linkServes
  obtain ⟨-, -, -, hl⟩ := hup
  rw [exec_of_received hc hg hs, inUp_up ((goodFrame_link s b).trans hl)]

theorem exec_notUp {c : Instr} {good : Bool} {act : State → State}
    (hc : exec c s = .next (State.finish s (s.receive b good fun s => s.inUp b act))) (hg : good = true)
    (hn : s.notices = []) (hs : s.linkServes b = true) (hl : (s.blcAt b).link ≠ .up) :
    exec c s = .next (State.settleMarks s (s.goodFrame b)) := by
  rw [exec_of_received hc hg hs, inUp_other (by rwa [goodFrame_link]), finish_goodFrame hn]

/-! ### ACCEPT_ASK (R179) -/

theorem acceptAskReceived_up {ref : Nat} (hr : ref < 16) (hs : s.linkServes b = true) (hl : (s.blcAt b).link = .up) :
    exec (.acceptAskReceived b ref) s = .next (State.finish s ((s.goodFrame b).acceptAsk b ref)) := by
  refine (exec_of_received rfl (refOk_of_lt hr) hs).trans ?_
  simp only [goodFrame_link, hl]

theorem acceptAskReceived_sync {ref : Nat} (hr : ref < 16) (hs : s.linkServes b = true) (hl : (s.blcAt b).link = .sync) :
    exec (.acceptAskReceived b ref) s = .next (State.finish s ((s.goodFrame b).sendNow b (.acceptRefuse ref .link))) := by
  refine (exec_of_received rfl (refOk_of_lt hr) hs).trans ?_
  simp only [goodFrame_link, hl]

theorem acceptAskReceived_down {ref : Nat} (hr : ref < 16) (hs : s.linkServes b = true) (hl : (s.blcAt b).link = .down) :
    exec (.acceptAskReceived b ref) s = .next (State.finish s (s.goodFrame b)) := by
  refine (exec_of_received rfl (refOk_of_lt hr) hs).trans ?_
  simp only [goodFrame_link, hl]

/-- The checks of an ACCEPT-ASK read nothing a good frame writes. -/
theorem goodFrame_acceptAskCheck (s : State) (b : BLink) (ref : Nat) :
    (s.goodFrame b).acceptAskCheck b ref = s.acceptAskCheck b ref := by
  have hroute : (s.goodFrame b).incomingRoute b ref = s.incomingRoute b ref := by
    simp only [State.incomingRoute, goodFrame_rcat, boundaryElem_of_lkc (goodFrame_lkc s b)]
  have hwaits : (s.goodFrame b).askWaits b = s.askWaits b := by simp only [State.askWaits, goodFrame_rim]
  unfold State.acceptAskCheck
  simp only [hroute, hwaits, goodFrame_direction, goodFrame_isOpen, goodFrame_incoming, goodFrame_inAsks]

theorem acceptAsk_error {ref : Nat} {x : RefuseReason} (h : s.acceptAskCheck b ref = .error x) :
    s.acceptAsk b ref = s.sendNow b (.acceptRefuse ref x) := by simp only [State.acceptAsk, h]

theorem acceptAsk_ok {ref : Nat} {d : RouteDef} (h : s.acceptAskCheck b ref = .ok d) :
    s.acceptAsk b ref = { s with rim := { s.rim with requests := s.rim.requests ++ [.incoming b ref d.number] } } := by
  simp only [State.acceptAsk, h]

theorem acceptAskReceived_rows {ref : Nat} (hn : s.notices = []) (hs : s.linkServes b = true) (hr : ref < 16) :
    ((s.blcAt b).link = .up →
      (∀ x, s.acceptAskCheck b ref = .error x → exec (.acceptAskReceived b ref) s =
        .next (State.settleMarks s ((s.goodFrame b).send (.boundary b (.acceptRefuse ref x)))))
      ∧ (∀ d, s.acceptAskCheck b ref = .ok d → exec (.acceptAskReceived b ref) s =
        .next (State.settleMarks s { s.goodFrame b with
          rim := { s.rim with requests := s.rim.requests ++ [.incoming b ref d.number] } })))
    ∧ ((s.blcAt b).link = .sync → exec (.acceptAskReceived b ref) s =
      .next (State.settleMarks s ((s.goodFrame b).send (.boundary b (.acceptRefuse ref .link)))))
    ∧ ((s.blcAt b).link = .down → exec (.acceptAskReceived b ref) s = .next (State.settleMarks s (s.goodFrame b))) := by
  refine ⟨fun hl => ⟨fun x h => ?_, fun d h => ?_⟩, fun hl => ?_, fun hl => ?_⟩
  · rw [acceptAskReceived_up hr hs hl, acceptAsk_error ((goodFrame_acceptAskCheck s b ref).trans h),
      finish_refusal hn (by simp [hl])]
  · rw [acceptAskReceived_up hr hs hl, acceptAsk_ok ((goodFrame_acceptAskCheck s b ref).trans h), goodFrame_rim]
    exact congrArg _ (finish_of_none _ _ ((goodFrame_notices s b).trans hn))
  · rw [acceptAskReceived_sync hr hs hl, finish_refusal hn (by simp [hl])]
  · rw [acceptAskReceived_down hr hs hl, finish_goodFrame hn]

/-- The reason of a refusal is the first check that fails. -/
theorem acceptAskCheck_rows (s : State) (b : BLink) (ref : Nat) :
    ((s.blcAt b).direction ≠ .inward → s.acceptAskCheck b ref = .error .direction)
    ∧ ((s.blcAt b).direction = .inward → (s.blcAt b).isOpen = false → s.acceptAskCheck b ref = .error .closed)
    ∧ ((s.blcAt b).direction = .inward → (s.blcAt b).isOpen = true →
      ((s.blcAt b).incoming ≠ [] ∨ (s.blcAt b).inAsks ≠ [] ∨ s.askWaits b = true) →
      s.acceptAskCheck b ref = .error .full)
    ∧ ((s.blcAt b).direction = .inward → (s.blcAt b).isOpen = true →
      (s.blcAt b).incoming = [] → (s.blcAt b).inAsks = [] → s.askWaits b = false →
      (s.incomingRoute b ref = none → s.acceptAskCheck b ref = .error .unknown)
      ∧ ∀ d, s.incomingRoute b ref = some d → s.acceptAskCheck b ref = .ok d) := by
  refine ⟨fun hd => ?_, fun hd ho => ?_, fun hd ho hfull => ?_, fun hd ho hi hq hw => ⟨fun hr => ?_, fun d hr => ?_⟩⟩
  · simp [State.acceptAskCheck, hd]
  · simp [State.acceptAskCheck, hd, ho]
  · have hbusy : (!(s.blcAt b).incoming.isEmpty || !(s.blcAt b).inAsks.isEmpty || s.askWaits b) = true := by
      simpa [or_assoc] using hfull
    simp only [State.acceptAskCheck, hd, ho, hbusy, bne_self_eq_false, Bool.not_true, Bool.false_eq_true, if_false, if_true]
  · simp [State.acceptAskCheck, hd, ho, hi, hq, hw, hr]
  · simp [State.acceptAskCheck, hd, ho, hi, hq, hw, hr]

/-! ### The answers (R177) -/

theorem acceptGiveReceived_up {ref : Nat} (hup : s.Up b) (hr : ref < 16) :
    exec (.acceptGiveReceived b ref) s = .next (State.finish s ((s.goodFrame b).acceptGive b ref)) :=
  exec_inUp (act := fun s => s.acceptGive b ref) rfl (refOk_of_lt hr) hup

theorem acceptRefuseReceived_up {ref : Nat} (x : RefuseReason) (hup : s.Up b) (hr : ref < 16) :
    exec (.acceptRefuseReceived b ref x) s = .next (State.finish s ((s.goodFrame b).acceptRefuse b ref)) :=
  exec_inUp (act := fun s => s.acceptRefuse b ref) rfl (refOk_of_lt hr) hup

theorem acceptAnswers_notUp {ref : Nat} (hn : s.notices = []) (hs : s.linkServes b = true) (hr : ref < 16)
    (hl : (s.blcAt b).link ≠ .up) :
    exec (.acceptGiveReceived b ref) s = .next (State.settleMarks s (s.goodFrame b))
    ∧ ∀ x, exec (.acceptRefuseReceived b ref x) s = .next (State.settleMarks s (s.goodFrame b)) :=
  ⟨exec_notUp (act := fun s => s.acceptGive b ref) rfl (refOk_of_lt hr) hn hs hl,
    fun _ => exec_notUp (act := fun s => s.acceptRefuse b ref) rfl (refOk_of_lt hr) hn hs hl⟩

theorem acceptGive_some {ref : Nat} {a : OutAsk} (h : (s.blcAt b).outAsks.find? (fun a => a.ref == ref) = some a) :
    s.acceptGive b ref = s.askGiven b a := by simp only [State.acceptGive, h]

theorem acceptGive_none {ref : Nat} (h : (s.blcAt b).outAsks.find? (fun a => a.ref == ref) = none) :
    s.acceptGive b ref =
      if (s.blcAt b).outgoing.any fun a => a.ref == ref then s else s.sendHeld b (.acceptWithdraw ref) := by
  simp only [State.acceptGive, h]

theorem acceptRefuse_some {ref : Nat} {a : OutAsk} (h : (s.blcAt b).outAsks.find? (fun a => a.ref == ref) = some a) :
    s.acceptRefuse b ref = s.askRefused b a := by simp only [State.acceptRefuse, h]

theorem acceptRefuse_none {ref : Nat} (h : (s.blcAt b).outAsks.find? (fun a => a.ref == ref) = none) :
    s.acceptRefuse b ref = s := by simp only [State.acceptRefuse, h]

theorem askGiven_outward {a : OutAsk} (h : (s.blcAt b).direction = .outward) :
    s.askGiven b a = (s.modBlc b fun r => { r with
      outAsks := dropFirst (fun x => x == a) r.outAsks
      outgoing := r.outgoing ++ [⟨a.ref, a.inst⟩] }).notify (.acceptanceGiven a.inst) :=
  if_pos (by simp [h])

theorem sendHeld_up {x : BoundaryTelegram} (h : (s.blcAt b).link = .up) : s.sendHeld b x = s.send (.boundary b x) := by
  obtain ⟨hsend, -⟩ := sendHeld_rows s b x
  exact hsend h

theorem askGiven_other {a : OutAsk} (h : (s.blcAt b).direction ≠ .outward) (hl : (s.blcAt b).link = .up) :
    s.askGiven b a = ((s.modBlc b fun r => { r with outAsks := dropFirst (fun x => x == a) r.outAsks }).send
      (.boundary b (.acceptWithdraw a.ref))).notify (.acceptanceRefused a.inst) := by
  rw [State.askGiven, if_neg (by simpa using h), sendHeld_up (by rw [blcAt_modBlc_same]; exact hl)]

/-- An answer to an ask that waits for it. -/
theorem acceptAnswers_awaited {ref : Nat} {a : OutAsk} (hup : s.Up b) (hr : ref < 16)
    (h : (s.blcAt b).outAsks.find? (fun a => a.ref == ref) = some a) :
    ((s.blcAt b).direction = .outward → exec (.acceptGiveReceived b ref) s = .next (State.finish s
      (((s.goodFrame b).modBlc b fun r => { r with
        outAsks := dropFirst (fun x => x == a) r.outAsks, outgoing := r.outgoing ++ [⟨a.ref, a.inst⟩] }).notify
          (.acceptanceGiven a.inst))))
    ∧ ((s.blcAt b).direction ≠ .outward → exec (.acceptGiveReceived b ref) s = .next (State.finish s
      ((((s.goodFrame b).modBlc b fun r => { r with outAsks := dropFirst (fun x => x == a) r.outAsks }).send
        (.boundary b (.acceptWithdraw a.ref))).notify (.acceptanceRefused a.inst))))
    ∧ ∀ x, exec (.acceptRefuseReceived b ref x) s = .next (State.finish s
      (((s.goodFrame b).modBlc b fun r => { r with outAsks := dropFirst (fun x => x == a) r.outAsks }).notify
        (.acceptanceRefused a.inst))) := by
  have hask : ((s.goodFrame b).blcAt b).outAsks.find? (fun a => a.ref == ref) = some a := by rwa [goodFrame_outAsks]
  have ⟨_, _, _, hl⟩ := hup
  refine ⟨fun hd => ?_, fun hd => ?_, fun x => ?_⟩
  · rw [acceptGiveReceived_up hup hr, acceptGive_some hask, askGiven_outward ((goodFrame_direction s b).trans hd)]
  · rw [acceptGiveReceived_up hup hr, acceptGive_some hask,
      askGiven_other (by rwa [goodFrame_direction]) ((goodFrame_link s b).trans hl)]
  · rw [acceptRefuseReceived_up x hup hr, acceptRefuse_some hask, State.askRefused]

/-- An answer that no ask of this end waits for. -/
theorem acceptAnswers_unawaited {ref : Nat} (hup : s.Up b) (hr : ref < 16)
    (h : (s.blcAt b).outAsks.all (fun a => a.ref != ref) = true) :
    ((s.blcAt b).outgoing.any (fun a => a.ref == ref) = true →
      exec (.acceptGiveReceived b ref) s = .next (State.settleMarks s (s.goodFrame b)))
    ∧ ((s.blcAt b).outgoing.any (fun a => a.ref == ref) = false → exec (.acceptGiveReceived b ref) s =
      .next (State.settleMarks s ((s.goodFrame b).send (.boundary b (.acceptWithdraw ref)))))
    ∧ ∀ x, exec (.acceptRefuseReceived b ref x) s = .next (State.settleMarks s (s.goodFrame b)) := by
  have hask : ((s.goodFrame b).blcAt b).outAsks.find? (fun a => a.ref == ref) = none := by
    rw [goodFrame_outAsks]
    simpa using h
  have ⟨_, hn, _, hl⟩ := hup
  refine ⟨fun hg => ?_, fun hg => ?_, fun x => ?_⟩
  · rw [acceptGiveReceived_up hup hr, acceptGive_none hask, if_pos (by rwa [goodFrame_outgoing]), finish_goodFrame hn]
  · rw [acceptGiveReceived_up hup hr, acceptGive_none hask, if_neg (by rw [goodFrame_outgoing, hg]; simp),
      sendHeld_up ((goodFrame_link s b).trans hl)]
    exact congrArg _ (finish_of_none _ _ ((goodFrame_notices s b).trans hn))
  · rw [acceptRefuseReceived_up x hup hr, acceptRefuse_none hask, finish_goodFrame hn]

theorem exec_acceptResponseTimerExpiry (s : State) (b : BLink) (i : Nat) :
    exec (.acceptResponseTimerExpiry b i) s = .next (State.finish s (s.acceptTimeout b i)) := rfl

theorem acceptTimeout_rows (hn : s.notices = []) (i : Nat) :
    (∀ a, (s.blcAt b).outAsks.find? (fun a => a.inst == i && a.timer.isRunning) = some a →
      exec (.acceptResponseTimerExpiry b i) s = .next (State.finish s
        ((s.modBlc b fun r => { r with outAsks := dropFirst (fun x => x == a) r.outAsks }).notify
          (.acceptanceRefused a.inst))))
    ∧ ((s.blcAt b).outAsks.find? (fun a => a.inst == i && a.timer.isRunning) = none →
      exec (.acceptResponseTimerExpiry b i) s = .next s) := by
  rw [exec_acceptResponseTimerExpiry]
  refine ⟨fun a h => ?_, fun h => ?_⟩
  · simp only [State.acceptTimeout, h, State.askRefused]
  · simp only [State.acceptTimeout, h, finish_self s hn]

/-- Settles O50: ACCEPT_ASK by the link state and its checks, its answers and its response timer, the route of an
incoming reference, and an acceptance asked, given up, sent or held back. -/
theorem acceptanceIsAskedAndAnswered : Obligations.AcceptanceIsAskedAndAnswered := by
  refine ⟨fun s b ref hn hs hr => ?_, fun s b ref hup hr => ?_, fun s b ref => ?_, fun s b i => ?_⟩
  · obtain ⟨hlive, hsync, hdown⟩ := acceptAskReceived_rows hn hs hr
    exact ⟨hlive, hsync, hdown, acceptAnswers_notUp hn hs hr, acceptAskCheck_rows s b ref⟩
  · have ⟨_, hn, _, _⟩ := hup
    exact ⟨fun a h => acceptAnswers_awaited hup hr h, acceptAnswers_unawaited hup hr, acceptTimeout_rows hn⟩
  · obtain ⟨hnone, hsome, hunique⟩ := incomingRoute_rows s b ref
    exact ⟨hnone, hsome, hunique, fun e r he hlink hlow => boundaryElem_eq s b he hlink hlow, askWaits_iff s b⟩
  · obtain ⟨hask, hgiven⟩ := giveUpAcceptance_rows s b i
    exact ⟨askAcceptance_rows s b i, hask, hgiven, sendHeld_rows s b⟩

end Sys2Proof.Machine
end

section
/-!
O51 and O52: an acceptance this end gave, withdrawn or used (R178, R180), and the flank assurances and the boundary
release of a link (R114, R181 to R183).
-/
namespace Sys2Proof.Machine
variable {s u : State} {b : BLink}

/-! ### An acceptance given (R178, R180) -/

theorem acceptWithdrawReceived_up {ref : Nat} (hup : s.Up b) (hr : ref < 16) :
    exec (.acceptWithdrawReceived b ref) s = .next (State.finish s ((s.goodFrame b).acceptWithdraw b ref)) :=
  exec_inUp (act := fun s => s.acceptWithdraw b ref) rfl (refOk_of_lt hr) hup

theorem trainHandedReceived_up {ref : Nat} (hup : s.Up b) (hr : ref < 16) :
    exec (.trainHandedReceived b ref) s = .next (State.finish s ((s.goodFrame b).trainHanded b ref)) :=
  exec_inUp (act := fun s => s.trainHanded b ref) rfl (refOk_of_lt hr) hup

theorem acceptEndReceived_up {ref : Nat} (hup : s.Up b) (hr : ref < 16) :
    exec (.acceptEndReceived b ref) s = .next (State.finish s ((s.goodFrame b).acceptEnd b ref)) :=
  exec_inUp (act := fun s => s.acceptEnd b ref) rfl (refOk_of_lt hr) hup

/-- Outside UP the three telegrams about an acceptance given are only counted. -/
theorem givenTelegrams_notUp {c : Instr} {ref : Nat} (hn : s.notices = []) (hs : s.linkServes b = true) (hr : ref < 16)
    (hl : (s.blcAt b).link ≠ .up)
    (hc : c = .acceptWithdrawReceived b ref ∨ c = .trainHandedReceived b ref ∨ c = .acceptEndReceived b ref) :
    exec c s = .next (State.settleMarks s (s.goodFrame b)) := by
  rcases hc with rfl | rfl | rfl
  · exact exec_notUp (act := fun s => s.acceptWithdraw b ref) rfl (refOk_of_lt hr) hn hs hl
  · exact exec_notUp (act := fun s => s.trainHanded b ref) rfl (refOk_of_lt hr) hn hs hl
  · exact exec_notUp (act := fun s => s.acceptEnd b ref) rfl (refOk_of_lt hr) hn hs hl

theorem withdrawable_iff (s : State) (a : Incoming) : s.withdrawable a = true ↔
    a.handed = false ∧ a.ended = false ∧ ∀ r, s.inst a.inst = some r → r.entryTaken = false := by
  cases h : s.inst a.inst <;> simp [State.withdrawable, h, and_assoc]

theorem goodFrame_withdrawable (s : State) (b : BLink) (a : Incoming) :
    (s.goodFrame b).withdrawable a = s.withdrawable a := by
  simp only [State.withdrawable, State.inst, goodFrame_rim]

theorem takeNotice_withdrawn (s : State) (i : Nat) : s.takeNotice (.withdrawn i) = s.takeWithdrawn i := rfl

theorem takeWithdrawn_rows (s : State) (i : Nat) :
    (s.inst i = none → s.takeWithdrawn i = s)
    ∧ ∀ r, s.inst i = some r →
      (r.entryTaken = true → s.takeWithdrawn i = s) ∧ (r.entryTaken = false → s.takeWithdrawn i = s.releaseAll i) := by
  unfold State.takeWithdrawn
  refine ⟨fun h => by simp only [h], fun r h => ⟨fun ht => ?_, fun ht => ?_⟩⟩
  · simp only [h, ht, if_true]
  · simp only [h, ht, Bool.false_eq_true, if_false]

theorem acceptWithdraw_given {ref : Nat} {a : Incoming} (h : (s.blcAt b).incoming.find? (fun a => a.ref == ref) = some a) :
    s.acceptWithdraw b ref = if s.withdrawable a then
      (s.modBlc b fun r => { r with incoming := dropFirst (fun x => x == a) r.incoming }).notify (.withdrawn a.inst)
      else s := by
  simp only [State.acceptWithdraw, h]

theorem acceptWithdraw_pending {ref : Nat} {a : RefInst} (h : (s.blcAt b).incoming.find? (fun a => a.ref == ref) = none)
    (ha : (s.blcAt b).inAsks.find? (fun a => a.ref == ref) = some a) : s.acceptWithdraw b ref =
      (s.modBlc b fun r => { r with inAsks := dropFirst (fun x => x == a) r.inAsks }).notify (.withdrawn a.inst) := by
  simp only [State.acceptWithdraw, h, ha]

theorem acceptWithdraw_unknown {ref : Nat} (h : (s.blcAt b).incoming.find? (fun a => a.ref == ref) = none)
    (ha : (s.blcAt b).inAsks.find? (fun a => a.ref == ref) = none) : s.acceptWithdraw b ref = s := by
  simp only [State.acceptWithdraw, h, ha]

theorem acceptWithdrawReceived_rows {ref : Nat} (hup : s.Up b) (hr : ref < 16) :
    (∀ a, (s.blcAt b).incoming.find? (fun a => a.ref == ref) = some a →
      (s.withdrawable a = true → exec (.acceptWithdrawReceived b ref) s = .next (State.finish s
        (((s.goodFrame b).modBlc b fun r => { r with incoming := dropFirst (fun x => x == a) r.incoming }).notify
          (.withdrawn a.inst))))
      ∧ (s.withdrawable a = false →
        exec (.acceptWithdrawReceived b ref) s = .next (State.settleMarks s (s.goodFrame b))))
    ∧ ((s.blcAt b).incoming.all (fun a => a.ref != ref) = true →
      (∀ a, (s.blcAt b).inAsks.find? (fun a => a.ref == ref) = some a →
        exec (.acceptWithdrawReceived b ref) s = .next (State.finish s
          (((s.goodFrame b).modBlc b fun r => { r with inAsks := dropFirst (fun x => x == a) r.inAsks }).notify
            (.withdrawn a.inst))))
      ∧ ((s.blcAt b).inAsks.all (fun a => a.ref != ref) = true →
        exec (.acceptWithdrawReceived b ref) s = .next (State.settleMarks s (s.goodFrame b)))) := by
  have ⟨_, hn, _, _⟩ := hup
  rw [acceptWithdrawReceived_up hup hr]
  refine ⟨fun a ha => ?_, fun hin => ?_⟩
  · rw [acceptWithdraw_given (by rwa [goodFrame_incoming]), goodFrame_withdrawable]
    refine ⟨fun hw => by rw [if_pos hw], fun hw => by rw [if_neg (by simp [hw]), finish_goodFrame hn]⟩
  · have hnone : ((s.goodFrame b).blcAt b).incoming.find? (fun a => a.ref == ref) = none := by
      rw [goodFrame_incoming]
      simpa using hin
    refine ⟨fun a ha => ?_, fun ha => ?_⟩
    · rw [acceptWithdraw_pending hnone (by rwa [goodFrame_inAsks])]
    · rw [acceptWithdraw_unknown hnone (by rw [goodFrame_inAsks]; simpa using ha), finish_goodFrame hn]

/-- A command that counts a good frame and writes one record without a notice. -/
theorem finish_recordWritten (hn : s.notices = []) (f : Blc → Blc) :
    let t := State.finish s ((s.goodFrame b).modBlc b f)
    t.blcAt b = f ((s.goodFrame b).blcAt b) ∧ (∀ x, x ≠ b → t.blcAt x = s.blcAt x)
    ∧ (∀ l, (t.olc.get l).desk = (s.olc.get l).desk)
    ∧ t = { s with
        blc := t.blc
        olc := t.olc } := by
  have hnone : ((s.goodFrame b).modBlc b f).notices = [] := (modBlc_notices ..).trans ((goodFrame_notices s b).trans hn)
  rw [finish_of_none _ _ hnone]
  have hframe : s.goodFrame b = { s with
      blc := (s.goodFrame b).blc
      olc := (s.goodFrame b).olc } := by
    rw [State.goodFrame, modBlc_eq]
  refine ⟨blcAt_modBlc_same .., fun x hx => (blcAt_modBlc_ne _ _ _ _ hx.symm).trans (goodFrame_ne hx), fun l => ?_, ?_⟩
  · have hsettle := marksOnly_settle s ((s.goodFrame b).modBlc b f) l
    rw [hsettle]
    exact (modBlc_desk _ _ _ _).trans (modBlc_desk s b _ l)
  · rw [modBlc_eq, hframe]
    rfl

/-- Settles O51: an acceptance given by the link state, what can be withdrawn, the withdrawal in the RIM, the three
telegrams in UP, and the end of a pending ask. -/
theorem anAcceptanceGivenIsWithdrawnOrUsed : Obligations.AnAcceptanceGivenIsWithdrawnOrUsed := by
  refine ⟨fun s b ref c hn hs hr hl hc => givenTelegrams_notUp hn hs hr hl hc, withdrawable_iff, fun s i => ?_,
    fun s b ref hup hr => ?_, pendingAsk_rows⟩
  · rw [takeNotice_withdrawn]
    exact takeWithdrawn_rows s i
  · have ⟨_, hn, _, _⟩ := hup
    obtain ⟨hgiven, hpending⟩ := acceptWithdrawReceived_rows hup hr
    refine ⟨hgiven, hpending, ⟨_, trainHandedReceived_up hup hr, ?_⟩, ⟨_, acceptEndReceived_up hup hr, ?_⟩⟩
    · obtain ⟨hat, hrest⟩ := finish_recordWritten (b := b) hn fun r => { r with
        incoming := changeFirst (fun a => a.ref == ref && !a.handed) (fun (a : Incoming) => { a with handed := true }) r.incoming }
      exact ⟨hat.trans (by rw [goodFrame_incoming]), hrest⟩
    · obtain ⟨hat, hrest⟩ := finish_recordWritten (b := b) hn fun r => { r with
        incoming := changeFirst (fun a => a.ref == ref && !a.ended) (fun (a : Incoming) => { a with ended := true }) r.incoming }
      exact ⟨hat.trans (by rw [goodFrame_incoming]), hrest⟩

/-! ### A neighbour's flank ask and drop (R114, R182) -/

theorem flankAskReceived_up {ref : Nat} (hr : ref < 16) (hs : s.linkServes b = true) (hl : (s.blcAt b).link = .up) :
    exec (.flankAskReceived b ref) s = .next (State.finish s ((s.goodFrame b).takeFlankAsk b ref)) := by
  refine (exec_of_received rfl (refOk_of_lt hr) hs).trans ?_
  simp only [goodFrame_link, hl]

theorem flankAskReceived_sync {ref : Nat} (hr : ref < 16) (hs : s.linkServes b = true) (hl : (s.blcAt b).link = .sync) :
    exec (.flankAskReceived b ref) s = .next (State.finish s ((s.goodFrame b).sendNow b (.flankRefuse ref))) := by
  refine (exec_of_received rfl (refOk_of_lt hr) hs).trans ?_
  simp only [goodFrame_link, hl]

theorem flankAskReceived_down {ref : Nat} (hr : ref < 16) (hs : s.linkServes b = true) (hl : (s.blcAt b).link = .down) :
    exec (.flankAskReceived b ref) s = .next (State.finish s (s.goodFrame b)) := by
  refine (exec_of_received rfl (refOk_of_lt hr) hs).trans ?_
  simp only [goodFrame_link, hl]

theorem flankDropReceived_live {ref : Nat} (hr : ref < 16) (hs : s.linkServes b = true) (hl : (s.blcAt b).link ≠ .down) :
    exec (.flankDropReceived b ref) s = .next (State.finish s ((s.goodFrame b).boundaryDrop b ref)) := by
  refine (exec_of_received rfl (refOk_of_lt hr) hs).trans ?_
  simp only [goodFrame_link, beq_iff_eq, hl, if_false]

theorem flankDropReceived_down {ref : Nat} (hr : ref < 16) (hs : s.linkServes b = true) (hl : (s.blcAt b).link = .down) :
    exec (.flankDropReceived b ref) s = .next (State.finish s (s.goodFrame b)) := by
  refine (exec_of_received rfl (refOk_of_lt hr) hs).trans ?_
  simp only [goodFrame_link, hl, beq_self_eq_true, if_true]

theorem takeClaim_wires (s : State) (c : Claimant) (t : FlankTarget) : (s.takeClaim c t).wires = s.wires := by
  unfold State.takeClaim
  dsimp only
  split
  · split
    · split <;> simp
    · rfl
  · split <;> simp

theorem flankAsk_wires (s : State) (b : BLink) (ref : Nat) : (s.flankAsk b ref).1.wires = s.wires := by
  unfold State.flankAsk
  split
  · rfl
  · split
    · rfl
    · split
      · exact takeClaim_wires ..
      · rfl

/-- A flank ask that is refused has written nothing. -/
theorem flankAsk_refused {ref : Nat} (h : (s.flankAsk b ref).2 = false) : (s.flankAsk b ref).1 = s := by
  revert h
  unfold State.flankAsk
  split
  · exact fun _ => rfl
  · split
    · exact fun h => nomatch h
    · split
      · exact fun h => nomatch h
      · exact fun _ => rfl

theorem takeFlankAsk_given {ref : Nat} (hl : (s.blcAt b).link ≠ .down) (h : (s.flankAsk b ref).2 = true) :
    s.takeFlankAsk b ref = (s.flankAsk b ref).1.send (.boundary b (.flankGive ref)) := by
  have hblc : (s.flankAsk b ref).1.blc = s.blc := congrArg Prod.fst (flankAsk_wires s b ref)
  rw [State.takeFlankAsk, h, if_pos rfl]
  exact sendNow_live (by simpa only [State.blcAt, hblc] using hl)

theorem takeFlankAsk_refused {ref : Nat} (hl : (s.blcAt b).link ≠ .down) (h : (s.flankAsk b ref).2 = false) :
    s.takeFlankAsk b ref = s.send (.boundary b (.flankRefuse ref)) := by
  rw [State.takeFlankAsk, h, flankAsk_refused h, if_neg (by simp)]
  exact sendNow_live hl

theorem boundaryDrop_notices (s : State) (b : BLink) (ref : Nat) : (s.boundaryDrop b ref).notices = s.notices := by
  have hwires := boundaryDrop_wires s b ref
  simp only [State.wires, Prod.mk.injEq] at hwires
  obtain ⟨-, -, hnotices⟩ := hwires
  exact hnotices

/-- A claimant of an entry once some have left is one that stays. -/
theorem leaveEntry_mem {p : Claimant → Bool} {o : Option FctEntry} {f : FctEntry} {c : Claimant}
    (h : leaveEntry p o = some f) (hc : c ∈ f.claimants) : p c = false := by
  cases o with
  | none => cases h
  | some g =>
    by_cases hleave : ∃ x ∈ g.claimants, p x = true
    · obtain ⟨-, hrest⟩ := leaveEntry_rows p g
      rw [hrest hleave] at h
      split at h
      · cases h
      · cases h
        simpa using (List.mem_filter.1 hc).2
    · have hstay : ∀ x ∈ g.claimants, p x = false := fun x hx => by
        cases hp : p x with
        | false => rfl
        | true => exact absurd ⟨x, hx, hp⟩ hleave
      obtain ⟨hsame, -⟩ := leaveEntry_rows p g
      rw [hsame hstay] at h
      cases h
      exact hstay c hc

theorem boundaryDrop_gone {ref n : Nat} {f : FctEntry} (h : (s.boundaryDrop b ref).fctEntry n = some f) :
    .boundary b ref ∉ f.claimants := fun hc => by
  rw [boundaryDrop_fct] at h
  simpa using leaveEntry_mem h hc

theorem flankTelegrams_rows {ref : Nat} (hn : s.notices = []) (hs : s.linkServes b = true) (hr : ref < 16) :
    ((s.blcAt b).link = .sync →
      exec (.flankAskReceived b ref) s =
        .next (State.settleMarks s ((s.goodFrame b).send (.boundary b (.flankRefuse ref))))
      ∧ exec (.flankDropReceived b ref) s = .next (State.settleMarks s ((s.goodFrame b).boundaryDrop b ref)))
    ∧ ((s.blcAt b).link = .down →
      exec (.flankAskReceived b ref) s = .next (State.settleMarks s (s.goodFrame b))
      ∧ exec (.flankDropReceived b ref) s = .next (State.settleMarks s (s.goodFrame b)))
    ∧ ((s.blcAt b).link ≠ .up →
      exec (.flankGiveReceived b ref) s = .next (State.settleMarks s (s.goodFrame b))
      ∧ exec (.flankRefuseReceived b ref) s = .next (State.settleMarks s (s.goodFrame b))) := by
  refine ⟨fun hl => ⟨?_, ?_⟩, fun hl => ⟨?_, ?_⟩, fun hl => ⟨?_, ?_⟩⟩
  · rw [flankAskReceived_sync hr hs hl, finish_refusal hn (by simp [hl])]
  · rw [flankDropReceived_live hr hs (by simp [hl])]
    exact congrArg _ (finish_of_none _ _ ((boundaryDrop_notices ..).trans ((goodFrame_notices s b).trans hn)))
  · rw [flankAskReceived_down hr hs hl, finish_goodFrame hn]
  · rw [flankDropReceived_down hr hs hl, finish_goodFrame hn]
  · exact exec_notUp (act := fun s => s.flankGive b ref) rfl (refOk_of_lt hr) hn hs hl
  · exact exec_notUp (act := fun s => s.flankRefuse b ref) rfl (refOk_of_lt hr) hn hs hl

/-! ### The answers to a flank ask (R181) -/

theorem goodFrame_askingEntry (s : State) (b : BLink) (ref : Nat) :
    (s.goodFrame b).askingEntry b ref = s.askingEntry b ref := by
  simp only [State.askingEntry, goodFrame_assurances]

theorem flankGiveReceived_up {ref : Nat} (hup : s.Up b) (hr : ref < 16) :
    exec (.flankGiveReceived b ref) s = .next (State.finish s ((s.goodFrame b).flankGive b ref)) :=
  exec_inUp (act := fun s => s.flankGive b ref) rfl (refOk_of_lt hr) hup

theorem flankRefuseReceived_up {ref : Nat} (hup : s.Up b) (hr : ref < 16) :
    exec (.flankRefuseReceived b ref) s = .next (State.finish s ((s.goodFrame b).flankRefuse b ref)) :=
  exec_inUp (act := fun s => s.flankRefuse b ref) rfl (refOk_of_lt hr) hup

theorem flankAnswers_awaited {ref : Nat} {a : Assurance} (hup : s.Up b) (hr : ref < 16)
    (h : s.askingEntry b ref = some a) :
    exec (.flankGiveReceived b ref) s = .next (State.finish s
      (((s.goodFrame b).modBlc b fun r => { r with
        assurances := changeFirst (fun x => x.ref == ref && !x.assured)
          (fun (x : Assurance) => { x with assured := true, timer := .stopped }) r.assurances }).notify
        (.assuranceGiven a.inst a.item)))
    ∧ exec (.flankRefuseReceived b ref) s = .next (State.finish s
      (((s.goodFrame b).modBlc b fun r => { r with assurances := dropFirst (fun x => x == a) r.assurances }).notify
        (.assuranceRefused a.inst a.item))) := by
  have hask := (goodFrame_askingEntry s b ref).trans h
  rw [flankGiveReceived_up hup hr, flankRefuseReceived_up hup hr]
  simp only [State.flankGive, State.flankRefuse, hask, State.assuranceFails, and_self]

theorem flankAnswers_unawaited {ref : Nat} (hup : s.Up b) (hr : ref < 16) (h : s.askingEntry b ref = none) :
    exec (.flankRefuseReceived b ref) s = .next (State.settleMarks s (s.goodFrame b))
    ∧ ((s.blcAt b).assurances.any (fun a => a.ref == ref) = true →
      exec (.flankGiveReceived b ref) s = .next (State.settleMarks s (s.goodFrame b)))
    ∧ ((s.blcAt b).assurances.any (fun a => a.ref == ref) = false → exec (.flankGiveReceived b ref) s =
      .next (State.settleMarks s ((s.goodFrame b).send (.boundary b (.flankDrop ref))))) := by
  have ⟨_, hn, _, hl⟩ := hup
  have hask := (goodFrame_askingEntry s b ref).trans h
  have hrefuse : (s.goodFrame b).flankRefuse b ref = s.goodFrame b := by simp only [State.flankRefuse, hask]
  have hgive : (s.goodFrame b).flankGive b ref =
      if (s.blcAt b).assurances.any fun a => a.ref == ref then s.goodFrame b
      else (s.goodFrame b).sendHeld b (.flankDrop ref) := by
    simp only [State.flankGive, hask, goodFrame_assurances]
  rw [flankGiveReceived_up hup hr, flankRefuseReceived_up hup hr, hrefuse, hgive, finish_goodFrame hn]
  refine ⟨rfl, fun hany => by rw [if_pos hany, finish_goodFrame hn], fun hany => ?_⟩
  rw [if_neg (by simp [hany]), sendHeld_up ((goodFrame_link s b).trans hl)]
  exact congrArg _ (finish_of_none _ _ ((goodFrame_notices s b).trans hn))

theorem exec_flankResponseTimerExpiry (s : State) (b : BLink) (i m : Nat) :
    exec (.flankResponseTimerExpiry b i m) s = .next (State.finish s (s.flankTimeout b i m)) := rfl

theorem flankTimeout_rows (hn : s.notices = []) (i m : Nat) :
    (∀ a, (s.blcAt b).assurances.find? (fun a => a.isOf i m && !a.assured && a.timer.isRunning) = some a →
      exec (.flankResponseTimerExpiry b i m) s = .next (State.finish s
        ((s.modBlc b fun r => { r with assurances := dropFirst (fun x => x == a) r.assurances }).notify
          (.assuranceRefused a.inst a.item))))
    ∧ ((s.blcAt b).assurances.find? (fun a => a.isOf i m && !a.assured && a.timer.isRunning) = none →
      exec (.flankResponseTimerExpiry b i m) s = .next s) := by
  rw [exec_flankResponseTimerExpiry]
  refine ⟨fun a h => ?_, fun h => ?_⟩
  · simp only [State.flankTimeout, h, State.assuranceFails]
  · simp only [State.flankTimeout, h, finish_self s hn]

theorem flankAskReceived_rows {ref : Nat} (hup : s.Up b) (hr : ref < 16) :
    (((s.goodFrame b).flankAsk b ref).2 = true → exec (.flankAskReceived b ref) s = .next (State.finish s
      (((s.goodFrame b).flankAsk b ref).1.send (.boundary b (.flankGive ref)))))
    ∧ (((s.goodFrame b).flankAsk b ref).2 = false → exec (.flankAskReceived b ref) s =
      .next (State.settleMarks s ((s.goodFrame b).send (.boundary b (.flankRefuse ref))))) := by
  have ⟨_, hn, _, hl⟩ := hup
  have hlive : ((s.goodFrame b).blcAt b).link ≠ .down := by simp [goodFrame_link, hl]
  rw [flankAskReceived_up hr hup.linkServes hl]
  refine ⟨fun h => by rw [takeFlankAsk_given hlive h], fun h => ?_⟩
  rw [takeFlankAsk_refused hlive h]
  exact congrArg _ (finish_of_none _ _ ((goodFrame_notices s b).trans hn))

/-! ### The boundary release (R183) -/

theorem exec_releaseTimerExpiry (s : State) (b : BLink) : exec (.releaseTimerExpiry b) s =
    .next (State.finish s (if (s.blcAt b).release.isRunning && (s.blcAt b).link == .down then s.releaseHoldings b else s)) :=
  rfl

theorem boundaryDrops_wires (s : State) (b : BLink) (refs : List Nat) :
    (refs.foldl (fun (s : State) ref => s.boundaryDrop b ref) s).wires = s.wires :=
  foldl_keeps s State.wires (fun s ref => boundaryDrop_wires s b ref) refs

/-- Every claim of a link dropped, none of them is left. -/
theorem givenRefs_dropped (s : State) (b : BLink) :
    ((s.givenRefs b).foldl (fun (s : State) ref => s.boundaryDrop b ref) s).givenRefs b = [] := by
  refine List.eq_nil_iff_forall_not_mem.2 fun ref href => ?_
  obtain ⟨n, f, hf, hc⟩ := (mem_givenRefs _ _ _).1 href
  rw [boundaryDrops_fct] at hf
  have hstays := leaveEntry_mem hf hc
  simp only [List.any_eq_false, beq_iff_eq] at hstays
  refine hstays ref ?_ rfl
  cases hx : s.fctEntry n with
  | none => rw [hx] at hf; cases hf
  | some g =>
    rw [hx] at hf
    refine (mem_givenRefs s b ref).2 ⟨n, g, hx, ?_⟩
    simp only [leaveEntry, Option.bind_some] at hf
    split at hf
    · cases hf; exact hc
    · split at hf
      · cases hf
      · cases hf; exact List.mem_of_mem_filter hc

theorem givenRefs_of_lkc {t : State} (h : t.lkc = s.lkc) (b : BLink) : t.givenRefs b = s.givenRefs b := by
  simp only [State.givenRefs, fctEntry_of_lkc h]

theorem releaseHoldings_rows (s : State) (b : BLink) :
    ((s.releaseHoldings b).blcAt b).incoming = [] ∧ ((s.releaseHoldings b).blcAt b).inAsks = []
    ∧ ((s.releaseHoldings b).blcAt b).lostHoldings = false ∧ ((s.releaseHoldings b).blcAt b).release = .stopped
    ∧ (s.releaseHoldings b).givenRefs b = [] := by
  obtain ⟨v, hv, hat⟩ : ∃ v : State, (s.releaseHoldings b) = ((((v.givenRefs b).foldl (fun (s : State) ref => s.boundaryDrop b ref) v).modBlc b
      fun r => { r with lostHoldings := false }).mark (.boundary b))
      ∧ v.blcAt b = { s.blcAt b with
        incoming := []
        inAsks := []
        release := .stopped } := ⟨_, rfl, blcAt_modBlc_same ..⟩
  have hblc : ((v.givenRefs b).foldl (fun (s : State) ref => s.boundaryDrop b ref) v).blc = v.blc :=
    congrArg Prod.fst (boundaryDrops_wires v b _)
  have hdropped := givenRefs_dropped v b
  rw [hv, mark_blcAt, blcAt_modBlc_same]
  generalize (v.givenRefs b).foldl (fun (s : State) ref => s.boundaryDrop b ref) v = w at hblc hdropped
  have hw : w.blcAt b = v.blcAt b := by rw [State.blcAt, State.blcAt, hblc]
  rw [hw, hat]
  exact ⟨rfl, rfl, rfl, rfl, (givenRefs_of_lkc (modBlc_lkc ..) b).trans hdropped⟩

/-- Settles O52: the flank telegrams by the link state, their answers and response timer, the boundary release, and a
FLANK-ASK by the offer it names. -/
theorem assurancesAndBoundaryRelease : Obligations.AssurancesAndBoundaryRelease := by
  refine ⟨fun s b ref hn hs hr => flankTelegrams_rows hn hs hr, fun s b ref hup hr => ?_,
    fun s b => ⟨fun hrun hl => ⟨?_, releaseHoldings_rows s b⟩, fun hn h => ?_⟩, fun s b ref => ?_⟩
  · have ⟨_, hn, _, hl⟩ := hup
    exact ⟨flankAskReceived_rows hup hr, flankDropReceived_live hr hup.linkServes (by simp [hl]),
      fun n f h => boundaryDrop_gone h, fun a h => flankAnswers_awaited hup hr h, flankAnswers_unawaited hup hr,
      flankTimeout_rows hn⟩
  · rw [exec_releaseTimerExpiry, if_pos (by simp [hrun, hl])]
  · rw [exec_releaseTimerExpiry, if_neg (by rcases h with h | h <;> simp [h]), finish_self s hn]
  · obtain ⟨hnone, hsome⟩ := flankAsk_rows s b ref
    exact ⟨hnone, hsome, rfl⟩

end Sys2Proof.Machine
end

section
/-! O53: a written frame is read back, and only frames are read (11.3.1, 11.3.2, R190). -/
namespace Sys2Proof.Machine

/-! ### The request of an operator frame -/

theorem byte_toNat_of {n : Nat} (h : decide (n < 256) = true) : (byte n).toNat = n := byte_toNat (of_decide_eq_true h)

theorem word_twoBytes {n : Nat} (h : decide (n < 65536) = true) :
    (word (hiByte (BitVec.ofNat 16 n)) (loByte (BitVec.ofNat 16 n))).toNat = n := by
  have hn : n < 65536 := by simpa only [decide_eq_true_eq] using h
  rw [hiByte_loByte_word, BitVec.toNat_ofNat]
  omega

theorem posOf_posCode (p : Pos) : posOf (posCode p) = some p := by cases p <;> rfl

/-- A kind the table of 11.3.1 does not list is read whatever follows it. -/
theorem requestOf_unlisted {k : Byte} (h : k.toNat = 0 ∨ 22 < k.toNat) : requestOf k [] = some (.unknown k) := by
  rcases h with h | h
  · unfold requestOf
    rw [h]
    rfl
  · obtain ⟨m, hm⟩ : ∃ m, k.toNat = m + 23 := ⟨k.toNat - 23, by omega⟩
    unfold requestOf
    rw [hm]
    exact if_neg (by omega)

/-- Kind and body of a request read as the request, where every number fits its field. -/
theorem requestOf_bodyOf (r : Request) (h : r.fits = true) : requestOf (kindOf r) (bodyOf r) = some r := by
  have one : ∀ (f : Nat → Request) (e : Nat), decide (e < 256) = true → some (f (byte e).toNat) = some (f e) :=
    fun f e he => by rw [byte_toNat_of he]
  have two : ∀ (f : Nat → Request) (n : Nat), decide (n < 65536) = true →
      some (f (word (hiByte (BitVec.ofNat 16 n)) (loByte (BitVec.ofNat 16 n))).toNat) = some (f n) :=
    fun f n hn => by rw [word_twoBytes hn]
  cases r with
  | setRoute e x f t =>
    simp only [Request.fits, Bool.and_eq_true] at h
    obtain ⟨⟨he, hx⟩, ht⟩ := h
    show (flagOf (flagCode f)).map _ = _
    rw [flagOf_flagCode, byte_toNat_of he, byte_toNat_of hx, word_twoBytes ht]
    rfl
  | pointThrow e p =>
    show (posOf (posCode p)).map _ = _
    rw [posOf_posCode, byte_toNat_of h]
    rfl
  | auxIssue k o =>
    obtain ⟨hk, ho⟩ := Bool.and_eq_true_iff.1 h
    show some (Request.auxIssue (byte k).toNat (byte o).toNat) = _
    rw [byte_toNat_of hk, byte_toNat_of ho]
  | auxConfirm k o =>
    obtain ⟨hk, ho⟩ := Bool.and_eq_true_iff.1 h
    show some (Request.auxConfirm (byte k).toNat (byte o).toNat) = _
    rw [byte_toNat_of hk, byte_toNat_of ho]
  | storeCancel n => exact two .storeCancel n h
  | readRoute n => exact two .readRoute n h
  | press e => exact one .press e h
  | cancelRoute e => exact one .cancelRoute e h
  | reClear e => exact one .reClear e h
  | stopArea e => exact one .stopArea e h
  | pointReset e => exact one .pointReset e h
  | signalReset e => exact one .signalReset e h
  | block e => exact one .block e h
  | unblock e => exact one .unblock e h
  | boundaryOpen e => exact one .boundaryOpen e h
  | boundaryClose e => exact one .boundaryClose e h
  | dirRequest e => exact one .dirRequest e h
  | authTake e => exact one .authTake e h
  | authOffer e => exact one .authOffer e h
  | authReturn e => exact one .authReturn e h
  | readCounters => rfl
  | snapshot => rfl
  | unknown k =>
    have hk : k.toNat = 0 ∨ 22 < k.toNat := by simpa [Request.fits] using h
    exact requestOf_unlisted hk

theorem bodyOf_length (r : Request) : (bodyOf r).length ≤ 5 := by cases r <;> simp [bodyOf, twoBytes]

theorem readOperatorFrame_operatorFrame (t : Telegram) (h : t.request.fits = true) :
    readOperatorFrame (operatorFrame t) = some t := by
  have hlen := bodyOf_length t.request
  have hcontent := unframe_frame 0xC3 3 250 ([hiByte t.seq, loByte t.seq, kindOf t.request] ++ bodyOf t.request)
    (by simp) (by simp; omega) (by omega)
  rw [readOperatorFrame, operatorFrame, hcontent]
  simp only [List.cons_append, List.nil_append, requestOf_bodyOf _ h, hiByte_loByte_word, Option.map_some]

/-! ### The telegram of a boundary frame -/

/-- A frame of another station than the neighbour is a wrong check. -/
theorem readBoundaryFrame_other {station neighbour : Word16} (t : BoundaryTelegram) (h : telegramInRange t = true)
    (hne : station ≠ neighbour) : readBoundaryFrame neighbour (boundaryFrame station t) = none := by
  obtain ⟨k, body, hbody, -⟩ := boundaryContentOf_body t h
  obtain ⟨-, hlen⟩ := boundaryBody_length t h
  rw [hbody, List.length_cons] at hlen
  have hframe : boundaryFrame station t = frame 0x3C (wordBytes station ++ k :: body) := by
    rw [boundaryFrame, hbody, wordBytes]
  rw [hframe, readBoundaryFrame_frame station neighbour k body (by omega), if_neg hne]

/-- The kind of an operator request, whatever its body. -/
theorem boundaryContentOf_request {k : Byte} (body : List Byte) (h1 : 1 ≤ k.toNat) (h2 : k.toNat ≤ 22) :
    boundaryContentOf k body = some (.operatorRequest k) := by
  unfold boundaryContentOf
  split
  case h_8 => exact if_pos ⟨h1, h2⟩
  all_goals omega

theorem boundaryContentOf_notPermitted {k : Byte} (h1 : 1 ≤ k.toNat) (h2 : k.toNat ≤ 22) :
    boundaryContentOf 0x80 [k] = some (.other 0x80) := if_pos ⟨h1, h2⟩

theorem operatorKinds_rows (station neighbour : Word16) (k : Byte) (h1 : 1 ≤ k.toNat) (h2 : k.toNat ≤ 22) :
    (station = neighbour → readBoundaryFrame neighbour (boundaryFrame station (.notPermitted k)) = some (.other 0x80))
    ∧ ∀ body : List Byte, body.length ≤ 39 → station = neighbour →
      readBoundaryFrame neighbour (frame 0x3C (wordBytes station ++ k :: body)) = some (.operatorRequest k) := by
  refine ⟨fun heq => ?_, fun body hlen heq => ?_⟩
  · have hframe : boundaryFrame station (.notPermitted k) = frame 0x3C (wordBytes station ++ 0x80 :: [k]) := rfl
    rw [hframe, readBoundaryFrame_frame _ _ _ _ (by simp), if_pos heq, boundaryContentOf_notPermitted h1 h2]
  · rw [readBoundaryFrame_frame _ _ _ _ hlen, if_pos heq, boundaryContentOf_request body h1 h2]

theorem frame_eq (start : Byte) (content : List Byte) : frame start content = start :: byte content.length :: content
    ++ wordBytes (crc16 (byte content.length :: content)) := rfl

/-- Settles O53: operator and boundary frames read back, the kinds without a telegram, only frames read, the form of a
frame, and the body of each telegram of one reference or none. -/
theorem readingAWrittenOperatorFrameGivesTheRequest : Obligations.ReadingAWrittenOperatorFrameGivesTheRequest := by
  refine ⟨readOperatorFrame_operatorFrame, fun station neighbour t h => ⟨fun heq => ?_, readBoundaryFrame_other t h⟩,
    operatorKinds_rows, frames_only, frame_eq, fun station r x => ?_⟩
  · rw [← heq, readBoundaryFrame_boundaryFrame station t h]
  · intro sent
    exact ⟨rfl, rfl, rfl, rfl, rfl, rfl, rfl, rfl, rfl, rfl, rfl, rfl, rfl⟩

end Sys2Proof.Machine
end

section
/-!
O31, the frame: what of a record a reservation's later effects leave. `Element.grip` is what an instance holds of it,
`Element.claim` whether it can be claimed, with its flank reference; throws, the direction request, the asks and the
release of another instance's overlap leave both, and with them the claim table.
-/
namespace Sys2Proof.Machine

/-! ### What an instance holds of a record, and the record's flank reference -/

def TrackRec.grip (i : Nat) (t : TrackRec) : Option Role :=
  match t.lock with
  | .held j role => if j = i then some role else none
  | _ => none

def PointRec.grip (i : Nat) (p : PointRec) : Option (Role × Pos) :=
  match p.lock with
  | .held j role q => if j = i then some (role, q) else none
  | _ => none

/-- What an instance holds of a record: the ENTRY slot, the EXIT slot, a section's lock and a point's. -/
def Element.grip (i : Nat) : Element → Bool × Bool × Option Role × Option (Role × Pos)
  | .signal g => (g.entrySlot == .held i, g.exitSlot == .held i, none, none)
  | .boundary b => (b.entrySlot == .held i, b.exitSlot == .held i, none, none)
  | .track t => (false, false, t.grip i, none)
  | .point p => (false, false, none, p.grip i)
  | .unconfigured => (false, false, none, none)

/-- Whether a record can be claimed, and its flank reference. -/
def Element.claim : Element → Bool × Option Nat
  | .point p => (true, p.flankRef)
  | .signal g => (true, g.flankRef)
  | _ => (false, none)

/-- The claim table, and of every record whether it can be claimed and its flank reference. -/
def State.claims (s : State) := (s.lkc.fct, fun e => (s.elem e).claim)

/-- What an instance holds of every record. -/
def State.grips (i : Nat) (s : State) := fun e => (s.elem e).grip i

/-- The claims, and what an instance holds. -/
def State.ties (i : Nat) (s : State) := (s.claims, s.grips i)

variable {s t : State} {i : Nat}

theorem TrackRec.grip_iff {t : TrackRec} {role : Role} : t.grip i = some role ↔ t.lock = .held i role := by
  unfold TrackRec.grip
  split
  · rename_i j r h
    rw [h]
    by_cases hj : j = i <;> simp [hj]
  · rename_i h
    exact ⟨fun hc => (nomatch hc), fun hc => absurd hc (h i role)⟩

theorem PointRec.grip_iff {p : PointRec} {role : Role} {q : Pos} : p.grip i = some (role, q) ↔ p.lock = .held i role q := by
  unfold PointRec.grip
  split
  · rename_i j r x h
    rw [h]
    by_cases hj : j = i <;> simp [hj]
  · rename_i h
    exact ⟨fun hc => (nomatch hc), fun hc => absurd hc (h i role q)⟩

theorem entryHeld_eq (e : Nat) : s.entryHeld i e = ((s.elem e).grip i).1 := by
  unfold State.entryHeld
  cases s.elem e <;> rfl

theorem exitHeld_eq (e : Nat) : s.exitHeld i e = ((s.elem e).grip i).2.1 := by
  unfold State.exitHeld
  cases s.elem e <;> rfl

theorem track_held_iff (e : Nat) (role : Role) :
    (∃ t, s.track? e = some t ∧ t.lock = .held i role) ↔ ((s.elem e).grip i).2.2.1 = some role := by
  unfold State.track?
  cases s.elem e <;> simp [Element.grip, TrackRec.grip_iff]

theorem point_held_iff (e : Nat) (role : Role) (q : Pos) :
    (∃ p, s.point? e = some p ∧ p.lock = .held i role q) ↔ ((s.elem e).grip i).2.2.2 = some (role, q) := by
  unfold State.point?
  cases s.elem e <;> simp [Element.grip, PointRec.grip_iff]

theorem flankRef_eq (e : Nat) : s.flankRef e = (s.elem e).claim.2 := by
  unfold State.flankRef
  cases s.elem e <;> rfl

theorem claimable_iff (e : Nat) : (s.point? e ≠ none ∨ s.signal? e ≠ none) ↔ (s.elem e).claim.1 = true := by
  unfold State.point? State.signal?
  cases s.elem e <;> simp [Element.claim]

theorem claims_of_ties (h : t.ties i = s.ties i) : t.claims = s.claims := congrArg Prod.fst h

theorem grips_of_ties (h : t.ties i = s.ties i) : t.grips i = s.grips i := congrArg Prod.snd h

theorem claim_of_claims (h : t.claims = s.claims) (e : Nat) : (t.elem e).claim = (s.elem e).claim :=
  congrFun (congrArg Prod.snd h) e

theorem fctEntry_of_claims (h : t.claims = s.claims) (n : Nat) : t.fctEntry n = s.fctEntry n := by
  have hfct : t.lkc.fct = s.lkc.fct := congrArg Prod.fst h
  rw [State.fctEntry, hfct]
  rfl

theorem flankRef_of_claims (h : t.claims = s.claims) (e : Nat) : t.flankRef e = s.flankRef e := by
  rw [flankRef_eq, flankRef_eq, claim_of_claims h]

/-! ### What leaves the ties -/

theorem ties_of_elem (hfct : t.lkc.fct = s.lkc.fct) (h : ∀ e, t.elem e = s.elem e) : t.ties i = s.ties i := by
  have hgrips : t.grips i = s.grips i := by
    funext e
    rw [State.grips, State.grips, h]
  simp only [State.ties, State.claims, hgrips, hfct, h]

theorem ties_of_lkc (h : t.lkc = s.lkc) : t.ties i = s.ties i := ties_of_elem (by rw [h]) (elem_of_lkc h)

theorem elem_putElem (e x : Nat) (r : Element) :
    (s.putElem e r).elem x = s.elem x ∨ (x = e ∧ (s.putElem e r).elem x = r) := by
  by_cases hx : e = x
  · subst hx
    by_cases he : e < 256
    · exact .inr ⟨rfl, elem_putElem_same s e r he⟩
    · have hout : ∀ u : State, u.elem e = .unconfigured := fun u => by simp [State.elem, Vector.getD, he]
      exact .inl ((hout _).trans (hout s).symm)
  · exact .inl (elem_putElem_ne s e x r hx)

theorem putElem_claims {e : Nat} {r : Element} (hc : r.claim = (s.elem e).claim) : (s.putElem e r).claims = s.claims := by
  have hrec : ∀ x, ((s.putElem e r).elem x).claim = (s.elem x).claim := fun x => by
    rcases elem_putElem (s := s) e x r with h | ⟨rfl, h⟩
    · rw [h]
    · rw [h, hc]
  have hfct : (s.putElem e r).lkc.fct = s.lkc.fct := by
    unfold State.putElem
    split <;> rfl
  simp only [State.claims, hfct, hrec]

theorem putElem_grips {e : Nat} {r : Element} (hg : r.grip i = (s.elem e).grip i) :
    (s.putElem e r).grips i = s.grips i := by
  funext x
  rcases elem_putElem (s := s) e x r with h | ⟨rfl, h⟩
  · rw [State.grips, h]
    rfl
  · rw [State.grips, h, hg]
    rfl

theorem putElem_ties {e : Nat} {r : Element} (hg : r.grip i = (s.elem e).grip i) (hc : r.claim = (s.elem e).claim) :
    (s.putElem e r).ties i = s.ties i := by
  rw [State.ties, putElem_claims hc, putElem_grips hg]
  rfl

theorem notify_ties (n : Notice) : (s.notify n).ties i = s.ties i := rfl
theorem notifyAll_ties (l : List Notice) : (s.notifyAll l).ties i = s.ties i := rfl
theorem enqueue_ties (a : Nat) (x : TrackTelegram) : (s.enqueue a x).ties i = s.ties i := rfl
theorem dequeue_ties (a : Nat) : (s.dequeue a).ties i = s.ties i := rfl

theorem putDrive_ties (e : Nat) (d : Option Drive) : (s.putDrive e d).ties i = s.ties i :=
  ties_of_elem (by unfold State.putDrive; split <;> rfl) (elem_putDrive s e · d)

/-- A point rewritten with its lock and its flank reference. -/
theorem modPoint_ties (e : Nat) (f : PointRec → PointRec) (hl : ∀ p, (f p).lock = p.lock)
    (hr : ∀ p, (f p).flankRef = p.flankRef) : (s.modPoint e f).ties i = s.ties i := by
  unfold State.modPoint
  cases hp : s.point? e with
  | none => rfl
  | some p =>
    dsimp only
    rw [State.writePoint, hp]
    refine (notifyAll_ties _).trans (putElem_ties ?_ ?_)
    · rw [elem_of_point hp]
      simp only [Element.grip, PointRec.grip, hl]
    · rw [elem_of_point hp]
      simp only [Element.claim, hr]

theorem endDrive_ties (e : Nat) : (s.endDrive e).ties i = s.ties i := by
  unfold State.endDrive State.withdrawThrow
  split
  · exact (dequeue_ties _).trans (putDrive_ties e none)
  · exact putDrive_ties e none

theorem failPoint_ties (e : Nat) : (s.failPoint e).ties i = s.ties i := by
  unfold State.failPoint
  rw [← endDrive_ties (s := s) e]
  apply modPoint_ties
  · exact fun _ => rfl
  · exact fun _ => rfl

theorem enqueueThrow_ties (e : Nat) (q : Pos) : (s.enqueueThrow e q).ties i = s.ties i := by
  unfold State.enqueueThrow
  split
  · rfl
  · split
    · split
      · exact enqueue_ties ..
      · exact failPoint_ties e
    · rfl

theorem throwRequest_ties (e : Nat) (q : Pos) (o : Bool) : (s.throwRequest e q o).1.ties i = s.ties i := by
  unfold State.throwRequest
  split
  · rfl
  · split
    · split
      · split
        · rfl
        · split
          · exact (enqueueThrow_ties e q).trans (putDrive_ties e _)
          · rfl
      · split
        · rfl
        · exact (putDrive_ties e _).trans (modPoint_ties e _ (fun _ => rfl) fun _ => rfl)
    · rfl

theorem throwClaimed_ties (x : FlankTarget) : (s.throwClaimed x).ties i = s.ties i := by
  unfold State.throwClaimed
  split
  · split
    · rfl
    · exact throwRequest_ties ..
  · rfl

theorem requestDirection_ties (b : BLink) : (s.requestDirection b).ties i = s.ties i := by
  refine ties_of_lkc ?_
  unfold State.requestDirection State.askDirection State.sendNow
  split
  · split <;> exact modBlc_lkc ..
  · rfl

theorem sendAsk_lkc (s : State) (b : BLink) (x : BoundaryTelegram) : (s.sendAsk b x).lkc = s.lkc := by
  unfold State.sendAsk
  split
  · exact modBlc_lkc ..
  · unfold State.sendHeld
    split <;> simp [State.send]

theorem askItem_ties (j : Nat) (p : Nat × FlankItem) : (State.askItem j s p).ties i = s.ties i := by
  refine ties_of_lkc ?_
  unfold State.askItem State.askAssurance
  split
  · split
    · rfl
    · exact (sendAsk_lkc ..).trans (modBlc_lkc ..)
  · rfl

/-! ### The release of another instance's overlap -/

theorem unlockTrack_ties {o : Nat} (h : o ≠ i) (a : State × Bool) (e : Nat) :
    (State.unlockTrack o a e).1.ties i = a.1.ties i := by
  unfold State.unlockTrack
  split
  · rename_i x hx
    split
    · rename_i j role hl
      split
      · rename_i hj
        have hgrip : x.grip i = none := by simp [TrackRec.grip, hl, eq_of_beq hj, h]
        refine putElem_ties ?_ ?_
        · rw [elem_of_track hx]
          exact congrArg (fun g => (false, false, g, none)) hgrip.symm
        · rw [elem_of_track hx]
          rfl
      · rfl
    · rfl
  · rfl

theorem unlockPoint_ties {o : Nat} (h : o ≠ i) (a : State × Bool) (e : Nat) :
    (State.unlockPoint o a e).1.ties i = a.1.ties i := by
  unfold State.unlockPoint
  split
  · rename_i x hx
    split
    · rename_i j role q hl
      split
      · rename_i hj
        have hgrip : x.grip i = none := by simp [PointRec.grip, hl, eq_of_beq hj, h]
        refine putElem_ties ?_ ?_
        · rw [elem_of_point hx]
          exact congrArg (fun g => (false, false, none, g)) hgrip.symm
        · rw [elem_of_point hx]
          rfl
      · rfl
    · rfl
  · rfl

theorem unlockItem_ties {o : Nat} (h : o ≠ i) (a : State × Bool) (it : PathItem) :
    (State.unlockItem o a it).1.ties i = a.1.ties i :=
  (foldl_fst_keeps (State.ties i) (unlockPoint_ties h) _ _).trans (unlockTrack_ties h a it.sect)

theorem transferRest_ties {o : Nat} (h : o ≠ i) : (s.transferRest o).ties i = s.ties i := by
  unfold State.transferRest
  dsimp only
  rw [notify_ties]
  split
  · refine (ties_of_lkc (releaseNotice_lkc _)).trans ?_
    exact foldl_fst_keeps (State.ties i) (unlockItem_ties h) _ _
  · rfl

end Sys2Proof.Machine
end

section
/-! O31, the locks: every item of a reservation that passes is locked as it is entered (R11). -/
namespace Sys2Proof.Machine
variable {s t : State} {i : Nat} {role : Role} {d : RouteDef} {it : PathItem}

/-! ### The elements of an item -/

/-- The elements of an item: its section and its points. -/
def itemElements (it : PathItem) : List Nat := it.sect :: it.points.map PointReq.point

theorem routeElements_perm (d : RouteDef) :
    (routeElements d).Perm ([d.entry, d.exit] ++ (routeItems d).flatMap itemElements) := by
  have hsect : (routeItems d).map PathItem.sect = (routeItems d).flatMap fun it => [it.sect] := by
    rw [List.map_eq_flatMap]
  rw [routeElements, hsect, List.append_assoc]
  exact (List.flatMap_append_perm (routeItems d) (fun it => [it.sect]) fun it => it.points.map PointReq.point).append_left _

/-- The records an item names are there. -/
def State.Present (s : State) (it : PathItem) : Prop :=
  (∃ t, s.track? it.sect = some t) ∧ ∀ p ∈ it.points, ∃ x, s.point? p.point = some x

/-- An instance holds an item with a role, each point in the position asked for. -/
def State.Locks (s : State) (i : Nat) (role : Role) (it : PathItem) : Prop :=
  (∃ t, s.track? it.sect = some t ∧ t.lock = .held i role)
    ∧ ∀ p ∈ it.points, ∃ x, s.point? p.point = some x ∧ x.lock = .held i role p.pos

theorem present_congr (h : ∀ x ∈ itemElements it, t.elem x = s.elem x) (hp : s.Present it) : t.Present it := by
  obtain ⟨⟨k, hk⟩, hpoints⟩ := hp
  refine ⟨⟨k, (track_congr (h _ (List.mem_cons_self ..))).trans hk⟩, fun p hm => ?_⟩
  obtain ⟨x, hx⟩ := hpoints p hm
  exact ⟨x, (point_congr (h _ (List.mem_cons_of_mem _ (List.mem_map_of_mem hm)))).trans hx⟩

theorem locks_congr (h : ∀ x ∈ itemElements it, t.elem x = s.elem x) (hp : s.Locks i role it) : t.Locks i role it := by
  obtain ⟨⟨k, hk, hlock⟩, hpoints⟩ := hp
  refine ⟨⟨k, (track_congr (h _ (List.mem_cons_self ..))).trans hk, hlock⟩, fun p hm => ?_⟩
  obtain ⟨x, hx, hl⟩ := hpoints p hm
  exact ⟨x, (point_congr (h _ (List.mem_cons_of_mem _ (List.mem_map_of_mem hm)))).trans hx, hl⟩

theorem grip_of_grips (h : t.grips i = s.grips i) (e : Nat) : (t.elem e).grip i = (s.elem e).grip i := congrFun h e

/-- A lock is what the instance's grip on the record says. -/
theorem locks_of_grips (h : t.grips i = s.grips i) (hp : s.Locks i role it) : t.Locks i role it := by
  obtain ⟨hsect, hpoints⟩ := hp
  refine ⟨(track_held_iff _ _).2 ?_, fun p hm => (point_held_iff _ _ _).2 ?_⟩
  · exact (congrArg (fun g => g.2.2.1) (grip_of_grips h _)).trans ((track_held_iff _ _).1 hsect)
  · exact (congrArg (fun g => g.2.2.2) (grip_of_grips h _)).trans ((point_held_iff _ _ _).1 (hpoints p hm))

/-! ### Items locked one after the other -/

theorem lockItem_elem {x : Nat} (h : x ∉ itemElements it) : (State.lockItem i role s it).elem x = s.elem x := by
  obtain ⟨hother, -⟩ := lockItem_rows s i role it
  simp only [itemElements, List.mem_cons, List.mem_map, not_or, not_exists, not_and] at h
  obtain ⟨hsect, hpoints⟩ := h
  exact hother x hsect hpoints

theorem lockItem_locks (hn : (itemElements it).Nodup) (h : s.Present it) : (State.lockItem i role s it).Locks i role it := by
  obtain ⟨-, hsect, hpoints⟩ := lockItem_rows s i role it
  obtain ⟨⟨k, hk⟩, hp⟩ := h
  refine ⟨⟨_, hsect k hk, rfl⟩, fun p hm => ?_⟩
  obtain ⟨x, hx⟩ := hp p hm
  exact ⟨_, hpoints (List.nodup_cons.1 hn).2 p hm x hx, rfl⟩

theorem lockItems_elem {x : Nat} (l : List PathItem) (s : State) (h : x ∉ l.flatMap itemElements) :
    (l.foldl (State.lockItem i role) s).elem x = s.elem x := by
  induction l generalizing s with
  | nil => rfl
  | cons it l ih =>
    rw [List.flatMap_cons, List.mem_append, not_or] at h
    obtain ⟨hit, hl⟩ := h
    rw [List.foldl_cons, ih _ hl, lockItem_elem hit]

theorem lockItems_locks (l : List PathItem) (s : State) (hn : (l.flatMap itemElements).Nodup)
    (hp : ∀ it ∈ l, s.Present it) : ∀ it ∈ l, (l.foldl (State.lockItem i role) s).Locks i role it := by
  induction l generalizing s with
  | nil => exact fun _ h => nomatch h
  | cons it l ih =>
    rw [List.flatMap_cons, List.nodup_append] at hn
    obtain ⟨hit, hl, hapart⟩ := hn
    intro y hy
    rw [List.foldl_cons]
    rcases List.mem_cons.1 hy with rfl | hy
    · exact locks_congr (fun x hx => lockItems_elem l _ fun hx' => hapart x hx x hx' rfl)
        (lockItem_locks hit (hp y (List.mem_cons_self ..)))
    · refine ih _ hl (fun z hz => ?_) y hy
      exact present_congr (fun x hx => lockItem_elem fun hx' => hapart x hx' x (List.mem_flatMap_of_mem hz hx) rfl)
        (hp z (List.mem_cons_of_mem _ hz))

/-! ### The slots -/

/-- A record with an ENTRY and an EXIT slot. -/
def State.Ends (s : State) (e : Nat) : Prop := (∃ g, s.signal? e = some g) ∨ ∃ b, s.boundary? e = some b

theorem ends_congr {e : Nat} (h : t.elem e = s.elem e) (he : s.Ends e) : t.Ends e := by
  unfold State.Ends State.signal? State.boundary? at *
  rw [h]
  exact he

theorem setEntry_held {e : Nat} (h : s.Ends e) : (s.setEntry e fun _ => .held i).entryHeld i e = true := by
  obtain ⟨hsignal, hboundary, -⟩ := setEntry_rows (s := s) e fun _ => .held i
  rcases h with ⟨g, hg⟩ | ⟨b, hb⟩
  · simp [State.entryHeld, elem_of_signal (hsignal g hg)]
  · simp [State.entryHeld, boundary_of_elem.1 (hboundary b hb)]

theorem setExit_held {e : Nat} (h : s.Ends e) : (s.setExit e fun _ => .held i).exitHeld i e = true := by
  obtain ⟨hsignal, hboundary, -⟩ := setExit_rows (s := s) e fun _ => .held i
  rcases h with ⟨g, hg⟩ | ⟨b, hb⟩
  · simp [State.exitHeld, elem_of_signal (hsignal g hg)]
  · simp [State.exitHeld, boundary_of_elem.1 (hboundary b hb)]

theorem setEntry_elem {e x : Nat} (f : Slot → Slot) (h : x ≠ e) : (s.setEntry e f).elem x = s.elem x := by
  obtain ⟨-, -, hother⟩ := setEntry_rows (s := s) e f
  exact hother x h

theorem setExit_elem {e x : Nat} (f : Slot → Slot) (h : x ≠ e) : (s.setExit e f).elem x = s.elem x := by
  obtain ⟨-, -, hother⟩ := setExit_rows (s := s) e f
  exact hother x h

/-! ### A reservation's locks -/

/-- Entry, exit and every item of a definition are held by the instance, each item with its role. -/
structure State.Holds (s : State) (i : Nat) (d : RouteDef) : Prop where
  entry : s.entryHeld i d.entry = true
  exit : s.exitHeld i d.exit = true
  path : ∀ it ∈ d.path, s.Locks i .path it
  overlap : ∀ it ∈ d.overlap, s.Locks i .overlap it

theorem State.Holds.of_grips (h : t.grips i = s.grips i) (k : s.Holds i d) : t.Holds i d where
  entry := by
    rw [entryHeld_eq, grip_of_grips h, ← entryHeld_eq]
    exact k.entry
  exit := by
    rw [exitHeld_eq, grip_of_grips h, ← exitHeld_eq]
    exact k.exit
  path it hit := locks_of_grips h (k.path it hit)
  overlap it hit := locks_of_grips h (k.overlap it hit)

/-- The locks and slots taken, where the definition names no element twice and its records are there. -/
theorem locked_holds (hn : (routeElements d).Nodup) (he : s.Ends d.entry) (hx : s.Ends d.exit)
    (hp : ∀ it ∈ routeItems d, s.Present it) : (s.locked i d).Holds i d := by
  rw [(routeElements_perm d).nodup_iff, routeItems, List.flatMap_append, List.nodup_append] at hn
  obtain ⟨hends, hitems, hapart⟩ := hn
  obtain ⟨hpath, hover, hsplit⟩ := List.nodup_append.1 hitems
  have hne : d.exit ≠ d.entry := fun h => (List.nodup_cons.1 hends).1 (by simp [h])
  have hout : ∀ x, x = d.entry ∨ x = d.exit →
      x ∉ d.path.flatMap itemElements ∧ x ∉ d.overlap.toList.flatMap itemElements := fun x hx =>
    ⟨fun h => hapart x (by simpa using hx) x (List.mem_append_left _ h) rfl,
      fun h => hapart x (by simpa using hx) x (List.mem_append_right _ h) rfl⟩
  let u : State := (s.setEntry d.entry fun _ => .held i).setExit d.exit fun _ => .held i
  have hu : ∀ x, x ≠ d.entry → x ≠ d.exit → u.elem x = s.elem x := fun x h1 h2 =>
    (setExit_elem _ h2).trans (setEntry_elem _ h1)
  have hleft : ∀ x, x = d.entry ∨ x = d.exit → (s.locked i d).elem x = u.elem x := fun x hx =>
    (lockItems_elem _ _ (hout x hx).2).trans (lockItems_elem _ _ (hout x hx).1)
  have hpresent : ∀ it ∈ routeItems d, u.Present it := fun it hit =>
    present_congr (fun x hx => by
      have hmem : x ∈ d.path.flatMap itemElements ++ d.overlap.toList.flatMap itemElements := by
        rw [← List.flatMap_append]
        exact List.mem_flatMap_of_mem hit hx
      exact hu x (fun h => hapart d.entry (by simp) x hmem h.symm) fun h => hapart d.exit (by simp) x hmem h.symm)
      (hp it hit)
  refine ⟨?_, ?_, fun it hit => ?_, fun it hit => ?_⟩
  · rw [entryHeld_eq, hleft _ (.inl rfl), setExit_elem _ hne.symm, ← entryHeld_eq]
    exact setEntry_held he
  · rw [exitHeld_eq, hleft _ (.inr rfl), ← exitHeld_eq]
    exact setExit_held (ends_congr (setEntry_elem _ hne) hx)
  · refine locks_congr (fun x hx => lockItems_elem _ _ fun h => ?_)
      (lockItems_locks d.path u hpath (fun z hz => hpresent z (List.mem_append_left _ hz)) it hit)
    exact hsplit x (List.mem_flatMap_of_mem hit hx) x h rfl
  · refine lockItems_locks d.overlap.toList _ hover (fun z hz => ?_) it (by simpa using hit)
    exact present_congr (fun x hx => lockItems_elem _ _ fun h =>
      hsplit x h x (List.mem_flatMap_of_mem hz hx) rfl) (hpresent z (List.mem_append_right _ hz))

/-! ### The claims stand while the locks are taken -/

theorem setEntry_claims (e : Nat) (f : Slot → Slot) : (s.setEntry e f).claims = s.claims := by
  unfold State.setEntry
  split
  · rename_i g h
    exact putElem_claims (by rw [h]; rfl)
  · rename_i b h
    exact putElem_claims (by rw [h]; rfl)
  · rfl

theorem setExit_claims (e : Nat) (f : Slot → Slot) : (s.setExit e f).claims = s.claims := by
  unfold State.setExit
  split
  · rename_i g h
    exact putElem_claims (by rw [h]; rfl)
  · rename_i b h
    exact putElem_claims (by rw [h]; rfl)
  · rfl

theorem lockItem_claims (it : PathItem) : (State.lockItem i role s it).claims = s.claims := by
  unfold State.lockItem
  refine (foldl_keeps _ State.claims (fun u r => ?_) _).trans ?_
  · split
    · rename_i p h
      exact putElem_claims (by rw [elem_of_point h]; rfl)
    · rfl
  · split
    · rename_i k h
      exact putElem_claims (by rw [elem_of_track h]; rfl)
    · rfl

theorem locked_claims (s : State) (i : Nat) (d : RouteDef) : (s.locked i d).claims = s.claims := by
  unfold State.locked
  rw [foldl_keeps _ State.claims fun u it => lockItem_claims it, foldl_keeps _ State.claims fun u it => lockItem_claims it,
    setExit_claims, setEntry_claims]

end Sys2Proof.Machine
end

section
/-!
O31, the claims: a flank choice that passes R107 finds its entry. The claims of one request are taken in item order on a
table that only grows (`State.Grows`); `State.ClaimsOf` is what the test of R107, which counts the claims chosen before,
needs of the table the earlier claims have left.
-/
namespace Sys2Proof.Machine
variable {s u v : State} {i : Nat}

/-! ### A table that grows -/

/-- No flank reference names a free entry. -/
def State.Sound (s : State) : Prop := ∀ e n, s.flankRef e = some n → s.fctEntry n ≠ none

/-- References and entries stay, with what they require and their claimants; more may join. -/
structure State.Grows (u v : State) : Prop where
  refs : ∀ e n, u.flankRef e = some n → v.flankRef e = some n
  entries : ∀ n f, u.fctEntry n = some f →
    ∃ y, v.fctEntry n = some y ∧ y.required = f.required ∧ ∀ c ∈ f.claimants, c ∈ y.claimants
  kinds : ∀ e, (u.elem e).claim.1 = true → (v.elem e).claim.1 = true

theorem State.Grows.of_claims (h : v.claims = u.claims) : u.Grows v where
  refs e n he := (flankRef_of_claims h e).trans he
  entries n f hf := ⟨f, (fctEntry_of_claims h n).trans hf, rfl, fun _ hc => hc⟩
  kinds e he := by rwa [claim_of_claims h]

theorem State.Grows.trans {w : State} (h : u.Grows v) (k : v.Grows w) : u.Grows w where
  refs e n he := k.refs e n (h.refs e n he)
  entries n f hf := by
    obtain ⟨y, hy, hreq, hmem⟩ := h.entries n f hf
    obtain ⟨z, hz, hreq', hmem'⟩ := k.entries n y hy
    exact ⟨z, hz, hreq'.trans hreq, fun c hc => hmem' c (hmem c hc)⟩
  kinds e he := k.kinds e (h.kinds e he)

/-- The entry of a target's element requires its state, and the claimant is in it. -/
def State.Claimed (s : State) (c : Claimant) (t : FlankTarget) : Prop :=
  ∃ n y, s.flankRef (FlankTarget.elem t) = some n ∧ s.fctEntry n = some y ∧ y.required = FlankTarget.required t
    ∧ c ∈ y.claimants

theorem State.Claimed.grow {c : Claimant} {t : FlankTarget} (h : u.Claimed c t) (g : u.Grows v) : v.Claimed c t := by
  obtain ⟨n, y, href, hy, hreq, hc⟩ := h
  obtain ⟨z, hz, hreq', hmem⟩ := g.entries n y hy
  exact ⟨n, z, g.refs _ _ href, hz, hreq'.trans hreq, hmem c hc⟩

/-! ### One claim taken -/

theorem freeEntries_claimed {n : Nat} {f : FctEntry} (hn : n < 128) (hu : u.fctEntry n = none) (hv : v.fctEntry n = some f)
    (hother : ∀ m, m ≠ n → v.fctEntry m = u.fctEntry m) : v.freeEntries.length + 1 = u.freeEntries.length := by
  have hnodup : u.freeEntries.Nodup := List.nodup_range.filter _
  have hmem : n ∈ u.freeEntries := List.mem_filter.2 ⟨List.mem_range.2 hn, by simp [hu]⟩
  have hrest : v.freeEntries = u.freeEntries.erase n := by
    rw [hnodup.erase_eq_filter, State.freeEntries, State.freeEntries, List.filter_filter]
    refine List.filter_congr fun m _ => ?_
    by_cases hm : m = n
    · simp [hm, hv]
    · simp [hm, hother m hm]
  rw [hrest, List.length_erase_of_mem hmem]
  exact Nat.sub_add_cancel (List.length_pos_of_mem hmem)

theorem freeEntries_of_fct (h : ∀ n, (v.fctEntry n).isNone = (u.fctEntry n).isNone) : v.freeEntries = u.freeEntries := by
  simp only [State.freeEntries, h]

theorem exists_first_free (h : 0 < u.freeEntries.length) :
    ∃ n, n < 128 ∧ u.fctEntry n = none ∧ ∀ m, m < n → u.fctEntry m ≠ none := by
  have hfree := freeEntries_ne.1 h
  classical
  obtain ⟨hn, hnone⟩ := Nat.find_spec hfree
  exact ⟨Nat.find hfree, hn, hnone, fun m hm hm' => Nat.find_min hfree hm ⟨hm.trans hn, hm'⟩⟩

theorem claimable_of_ref {e n : Nat} (h : u.flankRef e = some n) : (u.elem e).claim.1 = true := by
  rw [flankRef_eq] at h
  revert h
  cases u.elem e <;> simp [Element.claim]

/-- What a claim does to a sound table: it grows, and the claimant is in the element's entry. -/
structure TakesClaim (u v : State) (c : Claimant) (t : FlankTarget) : Prop where
  grows : u.Grows v
  sound : v.Sound
  others : ∀ e, e ≠ FlankTarget.elem t → v.flankRef e = u.flankRef e
  entry : ∃ n y, v.flankRef (FlankTarget.elem t) = some n ∧ v.fctEntry n = some y ∧ c ∈ y.claimants
    ∧ (u.flankRef (FlankTarget.elem t) = none → y.required = FlankTarget.required t)
  room : u.freeEntries.length = v.freeEntries.length + if u.flankRef (FlankTarget.elem t) = none then 1 else 0

/-- A claim that joins the element's entry. -/
theorem takeClaim_join (hs : u.Sound) (c : Claimant) (t : FlankTarget) {n : Nat}
    (hr : u.flankRef (FlankTarget.elem t) = some n) : TakesClaim u (u.takeClaim c t) c t := by
  obtain ⟨f, hf⟩ := Option.ne_none_iff_exists'.1 (hs _ _ hr)
  obtain ⟨hsame, hjoin⟩ := takeClaim_joins (s := u) c t n f hr hf
  have hroom : (if u.flankRef (FlankTarget.elem t) = none then 1 else 0) = 0 := if_neg (by simp [hr])
  by_cases hc : c ∈ f.claimants
  · rw [hsame hc]
    exact ⟨.of_claims rfl, hs, fun _ _ => rfl, ⟨n, f, hr, hf, hc, fun h => by rw [hr] at h; cases h⟩, by rw [hroom]; rfl⟩
  · obtain ⟨hat, hother, helem, -⟩ := hjoin hc
    have href : ∀ e, (u.takeClaim c t).flankRef e = u.flankRef e := fun e => by
      rw [flankRef_eq, flankRef_eq, helem]
    have hentry : ∀ m g, u.fctEntry m = some g → ∃ y, (u.takeClaim c t).fctEntry m = some y ∧ y.required = g.required
        ∧ ∀ x ∈ g.claimants, x ∈ y.claimants := fun m g hg => by
      by_cases hm : m = n
      · subst hm
        rw [hf] at hg
        cases hg
        exact ⟨_, hat, rfl, fun x hx => List.mem_append_left _ hx⟩
      · exact ⟨g, (hother m hm).trans hg, rfl, fun _ hx => hx⟩
    refine ⟨⟨fun e m he => (href e).trans he, hentry, fun e he => by rwa [helem]⟩, fun e m he => ?_, fun e _ => href e,
      ⟨n, _, (href _).trans hr, hat, List.mem_append_right _ (List.mem_singleton.2 rfl), fun h => by rw [hr] at h; cases h⟩, ?_⟩
    · obtain ⟨g, hg⟩ := Option.ne_none_iff_exists'.1 (hs e m ((href e).symm.trans he))
      obtain ⟨y, hy, -⟩ := hentry m g hg
      simp [hy]
    · rw [hroom, Nat.add_zero, freeEntries_of_fct fun m => ?_]
      by_cases hm : m = n
      · rw [hm, hat, hf]
        rfl
      · rw [hother m hm]

/-- A claim on an element without a flank reference takes the lowest free entry. -/
theorem takeClaim_fresh (hs : u.Sound) (c : Claimant) (t : FlankTarget) (hr : u.flankRef (FlankTarget.elem t) = none)
    (hk : (u.elem (FlankTarget.elem t)).claim.1 = true) (hfree : 0 < u.freeEntries.length) :
    TakesClaim u (u.takeClaim c t) c t := by
  obtain ⟨n, hn, hnone, hlow⟩ := exists_first_free hfree
  obtain ⟨hat, href, hother, helem, -⟩ := takeClaim_new (s := u) c t n ((claimable_iff _).2 hk) hr hn hnone hlow
  have hrefs : ∀ e, e ≠ FlankTarget.elem t → (u.takeClaim c t).flankRef e = u.flankRef e := fun e he => by
    rw [flankRef_eq, flankRef_eq, helem e he]
  have hentry : ∀ m g, u.fctEntry m = some g → (u.takeClaim c t).fctEntry m = some g := fun m g hg =>
    (hother m fun hm => by rw [hm, hnone] at hg; cases hg).trans hg
  refine ⟨⟨fun e m he => ?_, fun m g hg => ⟨g, hentry m g hg, rfl, fun _ hx => hx⟩, fun e he => ?_⟩, fun e m he => ?_, hrefs,
    ⟨n, _, href, hat, List.mem_singleton.2 rfl, fun _ => rfl⟩, ?_⟩
  · exact (hrefs e fun h => by rw [h, hr] at he; cases he).trans he
  · by_cases hx : e = FlankTarget.elem t
    · exact claimable_of_ref (hx ▸ href)
    · rwa [helem e hx]
  · by_cases hx : e = FlankTarget.elem t
    · rw [hx, href] at he
      cases he
      simp [hat]
    · obtain ⟨g, hg⟩ := Option.ne_none_iff_exists'.1 (hs e m ((hrefs e hx).symm.trans he))
      simp [hentry m g hg]
  · rw [if_pos hr]
    exact (freeEntries_claimed hn hnone hat hother).symm

/-! ### The claims of one request -/

/-- The elements without a flank reference among those chosen. -/
def freshElems (s : State) (chosen : List FlankTarget) : List Nat :=
  (chosen.filter fun c => (s.flankRef (FlankTarget.elem c)).isNone).map FlankTarget.elem

/-- The table `u` is that of `s` with the claims chosen so far. -/
structure State.ClaimsOf (s u : State) (chosen : List FlankTarget) : Prop where
  grows : s.Grows u
  sound : u.Sound
  taken : ∀ t ∈ chosen, ∃ n y, u.flankRef (FlankTarget.elem t) = some n ∧ u.fctEntry n = some y
    ∧ y.required = FlankTarget.required t
  fresh : ∀ e n, u.flankRef e = some n → s.flankRef e = none → ∃ t ∈ chosen, FlankTarget.elem t = e
  room : s.freeEntries.length ≤ u.freeEntries.length + (freshElems s chosen).eraseDups.length

theorem State.ClaimsOf.start (h : u.claims = s.claims) (hs : s.Sound) : s.ClaimsOf u [] where
  grows := .of_claims h
  sound e n he := by
    rw [fctEntry_of_claims h]
    exact hs e n ((flankRef_of_claims h e).symm.trans he)
  taken _ ht := nomatch ht
  fresh e n he hn := by
    rw [flankRef_of_claims h, hn] at he
    cases he
  room := by
    rw [freeEntries_of_fct fun n => by rw [fctEntry_of_claims h]]
    exact Nat.le_add_right _ _

theorem claimOk_rows {chosen : List FlankTarget} {t : FlankTarget} (h : s.claimOk chosen t false = true) :
    s.entryRoom chosen t = true ∧ (s.elem (FlankTarget.elem t)).claim.1 = true := by
  obtain ⟨hroom, -⟩ := Bool.and_eq_true_iff.1 h
  refine ⟨hroom, (claimable_iff _).1 ?_⟩
  cases t with
  | point e q =>
    refine .inl fun hp => ?_
    obtain ⟨hnone, -⟩ := claimOk_none (s := s) (e := e) chosen q false
    rw [hnone hp] at h
    cases h
  | signal e =>
    refine .inr fun hg => ?_
    obtain ⟨-, hnone⟩ := claimOk_none (s := s) (e := e) chosen .n false
    rw [hnone hg] at h
    cases h

theorem entryRoom_required {chosen : List FlankTarget} {t x : FlankTarget} (h : s.entryRoom chosen t = true) (hx : x ∈ chosen)
    (he : FlankTarget.elem x = FlankTarget.elem t) : FlankTarget.required x = FlankTarget.required t := by
  obtain ⟨hall, -⟩ := Bool.and_eq_true_iff.1 h
  simp only [List.all_eq_true, List.mem_filter, beq_iff_eq] at hall
  exact hall x ⟨hx, he⟩

theorem entryRoom_entry {chosen : List FlankTarget} {t : FlankTarget} {f : FctEntry} (h : s.entryRoom chosen t = true)
    (hf : s.claim? (s.flankRef (FlankTarget.elem t)) = some f) : f.required = FlankTarget.required t := by
  obtain ⟨-, hroom⟩ := Bool.and_eq_true_iff.1 h
  simp only [hf, Bool.and_eq_true, beq_iff_eq] at hroom
  obtain ⟨hreq, -⟩ := hroom
  exact hreq

theorem entryRoom_free {chosen : List FlankTarget} {t : FlankTarget} (h : s.entryRoom chosen t = true)
    (hr : s.flankRef (FlankTarget.elem t) = none) (hc : ∀ x ∈ chosen, FlankTarget.elem x ≠ FlankTarget.elem t) :
    (freshElems s chosen).eraseDups.length < s.freeEntries.length := by
  obtain ⟨-, hroom⟩ := Bool.and_eq_true_iff.1 h
  have hmine : (chosen.filter fun c => FlankTarget.elem c == FlankTarget.elem t) = [] :=
    List.filter_eq_nil_iff.2 fun x hx => by simpa using hc x hx
  simpa [hr, hmine, State.claim?, freshElems] using hroom

theorem freshElems_append (s : State) (chosen : List FlankTarget) (t : FlankTarget) :
    freshElems s (chosen ++ [t]) =
      freshElems s chosen ++ if s.flankRef (FlankTarget.elem t) = none then [FlankTarget.elem t] else [] := by
  simp only [freshElems, List.filter_append, List.map_append]
  cases h : s.flankRef (FlankTarget.elem t) <;> simp [h]

theorem State.ClaimsOf.not_fresh {chosen : List FlankTarget} (h : s.ClaimsOf u chosen) {e : Nat}
    (hr : u.flankRef e = none) : ∀ x ∈ chosen, FlankTarget.elem x ≠ e := fun x hx he => by
  obtain ⟨n, -, hn, -⟩ := h.taken x hx
  rw [he, hr] at hn
  cases hn

/-- A claim chosen passes on the table the earlier ones have left. -/
theorem State.ClaimsOf.takes {chosen : List FlankTarget} {t : FlankTarget} (h : s.ClaimsOf u chosen)
    (hok : s.claimOk chosen t false = true) (c : Claimant) : TakesClaim u (u.takeClaim c t) c t := by
  obtain ⟨hroom, hkind⟩ := claimOk_rows hok
  cases hr : u.flankRef (FlankTarget.elem t) with
  | some n => exact takeClaim_join h.sound c t hr
  | none =>
    have hrs : s.flankRef (FlankTarget.elem t) = none := by
      cases hx : s.flankRef (FlankTarget.elem t) with
      | none => rfl
      | some n =>
        rw [h.grows.refs _ _ hx] at hr
        cases hr
    have hless := entryRoom_free hroom hrs (h.not_fresh hr)
    have hle := h.room
    exact takeClaim_fresh h.sound c t hr (h.grows.kinds _ hkind) (by omega)

/-- The entry of a claim chosen requires the target's state. -/
theorem State.ClaimsOf.claimed {chosen : List FlankTarget} {t : FlankTarget} (h : s.ClaimsOf u chosen) (hs : s.Sound)
    (hok : s.claimOk chosen t false = true) {c : Claimant} (k : TakesClaim u v c t) : v.Claimed c t := by
  obtain ⟨hroom, -⟩ := claimOk_rows hok
  obtain ⟨n, y, hn, hy, hc, hnew⟩ := k.entry
  refine ⟨n, y, hn, hy, ?_, hc⟩
  cases hr : u.flankRef (FlankTarget.elem t) with
  | none => exact hnew hr
  | some m =>
    have hmn : n = m := Option.some.inj (hn.symm.trans (k.grows.refs _ _ hr))
    subst hmn
    cases hrs : s.flankRef (FlankTarget.elem t) with
    | some m =>
      have hm : m = n := Option.some.inj ((h.grows.refs _ _ hrs).symm.trans hr)
      subst hm
      obtain ⟨f, hf⟩ := Option.ne_none_iff_exists'.1 (hs _ _ hrs)
      obtain ⟨z, hz, hreq, -⟩ := h.grows.entries m f hf
      obtain ⟨w, hw, hreq', -⟩ := k.grows.entries m z hz
      have hyw : y = w := Option.some.inj (hy.symm.trans hw)
      rw [hyw, hreq', hreq]
      exact entryRoom_entry hroom (by rw [hrs]; exact hf)
    | none =>
      obtain ⟨x, hx, hxe⟩ := h.fresh _ _ hr hrs
      obtain ⟨m, z, hm, hz, hreq⟩ := h.taken x hx
      rw [hxe, hr] at hm
      cases hm
      obtain ⟨w, hw, hreq', -⟩ := k.grows.entries n z hz
      have hyw : y = w := Option.some.inj (hy.symm.trans hw)
      rw [hyw, hreq', hreq]
      exact entryRoom_required hroom hx hxe

theorem State.ClaimsOf.next {chosen : List FlankTarget} {t : FlankTarget} (h : s.ClaimsOf u chosen) (hs : s.Sound)
    (hok : s.claimOk chosen t false = true) {c : Claimant} (k : TakesClaim u v c t) : s.ClaimsOf v (chosen ++ [t]) where
  grows := h.grows.trans k.grows
  sound := k.sound
  taken x hx := by
    rcases List.mem_append.1 hx with hx | hx
    · obtain ⟨n, y, hn, hy, hreq⟩ := h.taken x hx
      obtain ⟨z, hz, hreq', -⟩ := k.grows.entries n y hy
      exact ⟨n, z, k.grows.refs _ _ hn, hz, hreq'.trans hreq⟩
    · obtain rfl := List.mem_singleton.1 hx
      obtain ⟨n, y, hn, hy, hreq, -⟩ := h.claimed hs hok k
      exact ⟨n, y, hn, hy, hreq⟩
  fresh e n he hn := by
    by_cases hx : e = FlankTarget.elem t
    · exact ⟨t, by simp, hx.symm⟩
    · obtain ⟨x, hx, hxe⟩ := h.fresh e n ((k.others e hx).symm.trans he) hn
      exact ⟨x, List.mem_append_left _ hx, hxe⟩
  room := by
    have hle := h.room
    have hroom := k.room
    rw [freshElems_append, List.eraseDups_append, List.length_append]
    by_cases hr : u.flankRef (FlankTarget.elem t) = none
    · have hrs : s.flankRef (FlankTarget.elem t) = none := by
        cases hx : s.flankRef (FlankTarget.elem t) with
        | none => rfl
        | some n =>
          rw [h.grows.refs _ _ hx] at hr
          cases hr
      have hnew : FlankTarget.elem t ∉ freshElems s chosen := fun hmem => by
        obtain ⟨x, hx, hxe⟩ := List.mem_map.1 hmem
        exact h.not_fresh hr x (List.mem_of_mem_filter hx) hxe
      rw [if_pos hr] at hroom
      rw [if_pos hrs]
      have hone : ([FlankTarget.elem t].removeAll (freshElems s chosen)).eraseDups.length = 1 := by
        simp [List.removeAll, hnew, List.eraseDups_cons]
      omega
    · rw [if_neg hr] at hroom
      omega

/-! ### The flank items of a definition -/

theorem chooseFlank_some {chosen : List FlankTarget} {f : FlankItem} {a : Nat} {t : FlankTarget}
    (h : s.chooseFlank chosen f = some (a, some t)) : s.claimOk chosen t false = true ∧ chosenTarget f a = some t := by
  unfold State.chooseFlank at h
  split at h
  · rename_i hok
    split at h
    · rename_i x hx
      cases h
      rw [hx] at hok
      refine ⟨hok, ?_⟩
      simp [chosenTarget, hx]
    · cases h
  · obtain ⟨p, hp, hsome⟩ := List.exists_of_findSome?_eq_some h
    split at hsome
    · rename_i hok
      cases hsome
      obtain ⟨hone, hat⟩ := (mem_indexFrom1 f.subs p.1 p.2).1 hp
      exact ⟨hok, (if_neg (by omega)).trans hat⟩
    · cases hsome

theorem chooseAll_cons {chosen : List FlankTarget} {f : FlankItem} {l : List FlankItem}
    {choices : List (Nat × Option FlankTarget)} (h : s.chooseAll chosen (f :: l) = .ok choices) :
    ∃ c r, s.chooseFlank chosen f = some c ∧ s.chooseAll (chosen ++ c.2.toList) l = .ok r ∧ choices = c :: r := by
  unfold State.chooseAll at h
  split at h
  · cases h
  · rename_i c hc
    split at h
    · rename_i r hr
      cases h
      exact ⟨c, r, hc, hr, rfl⟩
    · cases h

/-- The claims of the flank items, taken in order: the table grows, and every target chosen is claimed under its item. -/
theorem chooseAll_claims (hs : s.Sound) (l : List FlankItem) {chosen : List FlankTarget}
    {choices : List (Nat × Option FlankTarget)} (k : Nat) (h : s.ClaimsOf u chosen)
    (hc : s.chooseAll chosen l = .ok choices) :
    let v := ((List.range' k choices.length).zip choices).foldl (State.claimItem i) u
    u.Grows v ∧ ∀ j f a t, l[j]? = some f → choices[j]? = some (a, some t) →
      chosenTarget f a = some t ∧ v.Claimed (.route i (k + j)) t := by
  induction l generalizing u chosen choices k with
  | nil =>
    cases hc
    exact ⟨.of_claims rfl, fun j f a t hf _ => by simp at hf⟩
  | cons f l ih =>
    obtain ⟨⟨a, x⟩, r, hflank, hrest, rfl⟩ := chooseAll_cons hc
    rw [List.length_cons, List.range'_succ, List.zip_cons_cons, List.foldl_cons]
    cases x with
    | none =>
      have hstep : State.claimItem i u (k, (a, none)) = u := rfl
      rw [hstep]
      obtain ⟨hgrows, hclaims⟩ := ih (k + 1) h (by simpa using hrest)
      refine ⟨hgrows, fun j g b t hg hb => ?_⟩
      cases j with
      | zero => simp at hb
      | succ j =>
        rw [← Nat.add_assoc, Nat.add_right_comm]
        exact hclaims j g b t (by simpa using hg) (by simpa using hb)
    | some y =>
      obtain ⟨hok, htarget⟩ := chooseFlank_some hflank
      have hstep : State.claimItem i u (k, (a, some y)) = u.takeClaim (.route i k) y := rfl
      have htakes := h.takes hok (.route i k)
      rw [hstep]
      obtain ⟨hgrows, hclaims⟩ := ih (k + 1) (h.next hs hok htakes) hrest
      refine ⟨htakes.grows.trans hgrows, fun j g b t hg hb => ?_⟩
      cases j with
      | zero =>
        simp only [List.getElem?_cons_zero, Option.some.injEq, Prod.mk.injEq] at hg hb
        obtain ⟨rfl, rfl⟩ := hb
        subst hg
        exact ⟨htarget, (h.claimed hs hok htakes).grow hgrows⟩
      | succ j =>
        rw [← Nat.add_assoc, Nat.add_right_comm]
        exact hclaims j g b t (by simpa using hg) (by simpa using hb)

/-! ### The grips stand while the claims are taken -/

theorem setFlankRef_grips (e : Nat) (n : Option Nat) : (s.setFlankRef e n).grips i = s.grips i := by
  unfold State.setFlankRef
  split
  · rename_i p h
    exact putElem_grips (by rw [h]; rfl)
  · rename_i g h
    exact putElem_grips (by rw [h]; rfl)
  · rfl

theorem takeClaim_grips (c : Claimant) (t : FlankTarget) : (s.takeClaim c t).grips i = s.grips i := by
  unfold State.takeClaim
  dsimp only
  split
  · split
    · split <;> rfl
    · rfl
  · split
    · exact setFlankRef_grips ..
    · rfl

theorem claimItem_grips (j : Nat) (p : Nat × (Nat × Option FlankTarget)) : (State.claimItem j s p).grips i = s.grips i := by
  unfold State.claimItem
  split
  · exact takeClaim_grips ..
  · rfl

end Sys2Proof.Machine
end

section
/-! O31: what a reservation that passes leaves held and claimed, and its effects in the order of R11. -/
namespace Sys2Proof.Machine
variable {s u : State} {i : Nat} {d : RouteDef} {choices : List (Nat × Option FlankTarget)}

/-! ### What the tests of a reservation assure (R7 to R9) -/

theorem present_of_itemFailures {inPath lastShunt : Bool} {it : PathItem} (h : s.itemFailures d inPath lastShunt it = []) :
    s.Present it := by
  obtain ⟨hsect, hpoints⟩ := List.append_eq_nil_iff.1 h
  refine ⟨?_, fun p hp => ?_⟩
  · cases ht : s.track? it.sect with
    | some t => exact ⟨t, rfl⟩
    | none =>
      have hok : s.sectionItemOk d inPath lastShunt it.sect = false := by simp only [State.sectionItemOk, ht]
      simp [hok] at hsect
  · cases hx : s.point? p.point with
    | some x => exact ⟨x, rfl⟩
    | none =>
      have hok : s.pointItemOk d inPath p = false := by simp only [State.pointItemOk, hx]
      rw [List.map_eq_nil_iff, List.filter_eq_nil_iff] at hpoints
      exact absurd (by simp [hok]) (hpoints p hp)

theorem ends_of_entryItemOk (h : s.entryItemOk d = true) : s.Ends d.entry := by
  unfold State.entryItemOk at h
  unfold State.Ends State.signal? State.boundary?
  cases he : s.elem d.entry <;> simp_all

theorem ends_of_exitItemOk (h : s.exitItemOk d = true) : s.Ends d.exit := by
  unfold State.exitItemOk at h
  unfold State.Ends State.signal? State.boundary?
  cases he : s.elem d.exit <;> simp_all

theorem testItems_ok (h : s.testItems d = .ok choices) :
    s.Ends d.entry ∧ s.Ends d.exit ∧ (∀ it ∈ routeItems d, s.Present it) ∧ s.chooseAll [] d.flank = .ok choices := by
  unfold State.testItems at h
  dsimp only at h
  split at h
  · cases h
  · rename_i hnone
    simp only [List.append_eq_nil_iff, List.flatMap_eq_nil_iff] at hnone
    obtain ⟨⟨⟨hentry, hexit⟩, hpath⟩, hover⟩ := hnone
    refine ⟨ends_of_entryItemOk ?_, ends_of_exitItemOk ?_, fun it hit => ?_, h⟩
    · by_contra hno
      simp [hno] at hentry
    · by_contra hno
      simp [hno] at hexit
    · rcases List.mem_append.1 hit with hit | hit
      · obtain ⟨n, hn⟩ := List.getElem?_of_mem hit
        exact present_of_itemFailures (hpath (n + 1, it) ((mem_indexedPath d (n + 1) it).2 ⟨by omega, hn⟩))
      · exact present_of_itemFailures (hover it hit)

theorem reserve_of_testItems (h : s.testItems d = .ok choices) : s.reserve i d = .ok (s.applyReservation i d choices) := by
  simp only [State.reserve, h]

theorem testItems_of_reserve {r : Reserved} (h : s.reserve i d = .ok r) :
    ∃ choices, s.testItems d = .ok choices ∧ r = s.applyReservation i d choices := by
  cases ht : s.testItems d with
  | error e => simp [State.reserve, ht] at h
  | ok c =>
    rw [reserve_of_testItems ht] at h
    cases h
    exact ⟨c, rfl, rfl⟩

/-! ### The effects, phase by phase (R11) -/

/-- An overlap taken over is another instance's. -/
theorem transferOwner_ne {o : Nat} (hi : s.inst i = none) (h : o ∈ s.transferOwners d) : o ≠ i := fun he => by
  obtain ⟨x, hx⟩ := live_of_owner h
  rw [he] at hx
  simp [State.live, hi] at hx

theorem transferRests_ties (l : List Nat) (h : ∀ o ∈ l, o ≠ i) (u : State) :
    (l.foldl State.transferRest u).ties i = u.ties i := by
  induction l generalizing u with
  | nil => rfl
  | cons o l ih =>
    rw [List.foldl_cons, ih (fun x hx => h x (List.mem_cons_of_mem _ hx)), transferRest_ties (h o (List.mem_cons_self ..))]

/-- The claims of a reservation taken: the state after its locks, transfers and claims. -/
def State.claimed (s : State) (i : Nat) (d : RouteDef) (choices : List (Nat × Option FlankTarget)) : State :=
  (indexFrom1 choices).foldl (State.claimItem i) ((s.transferOwners d).foldl State.transferRest (s.locked i d))

/-- What follows the claims of a reservation leaves its ties. -/
theorem applyReservation_ties (s : State) (i : Nat) (d : RouteDef) (choices : List (Nat × Option FlankTarget)) :
    (s.applyReservation i d choices).state.ties i = (s.claimed i d choices).ties i := by
  have hasks : ∀ u : State, ((askedItems d choices).foldl (State.askItem i) u).ties i = u.ties i := fun u =>
    foldl_keeps u (State.ties i) (fun v p => askItem_ties i p) _
  have hthrows : ∀ (l : List FlankTarget) (u : State), (l.foldl State.throwClaimed u).ties i = u.ties i := fun l u =>
    foldl_keeps u (State.ties i) (fun v x => throwClaimed_ties x) l
  rw [applyReservation_rows]
  refine (hasks _).trans ?_
  split
  · exact (requestDirection_ties _).trans (hthrows _ _)
  · exact hthrows _ _

theorem claimed_grips (hi : s.inst i = none) : (s.claimed i d choices).grips i = (s.locked i d).grips i := by
  have hclaims := foldl_keeps ((s.transferOwners d).foldl State.transferRest (s.locked i d)) (State.grips i)
    (fun v p => claimItem_grips i p) (indexFrom1 choices)
  exact hclaims.trans (grips_of_ties (transferRests_ties _ (fun _ ho => transferOwner_ne hi ho) _))

/-- A reservation that passes holds every item of its definition. -/
theorem applyReservation_holds (hi : s.inst i = none) (hn : noTwice (routeElements d) = true)
    (ht : s.testItems d = .ok choices) : (s.applyReservation i d choices).state.Holds i d := by
  obtain ⟨hentry, hexit, hitems, -⟩ := testItems_ok ht
  exact (locked_holds ((noTwice_iff _).1 hn) hentry hexit hitems).of_grips
    ((grips_of_ties (applyReservation_ties s i d choices)).trans (claimed_grips hi))

/-- On a sound table every target it chose is claimed under its item. -/
theorem applyReservation_claimed (hi : s.inst i = none) (ht : s.testItems d = .ok choices) (hs : s.Sound) {m a : Nat}
    {f : FlankItem} {t : FlankTarget} (hm : 1 ≤ m) (hf : d.flank[m - 1]? = some f)
    (hc : choices[m - 1]? = some (a, some t)) :
    chosenTarget f a = some t ∧ (s.applyReservation i d choices).state.Claimed (.route i m) t := by
  obtain ⟨-, -, -, hchoose⟩ := testItems_ok ht
  have hstart : ((s.transferOwners d).foldl State.transferRest (s.locked i d)).claims = s.claims :=
    (claims_of_ties (transferRests_ties (i := i) _ (fun _ ho => transferOwner_ne hi ho) _)).trans (locked_claims s i d)
  obtain ⟨-, hclaims⟩ := chooseAll_claims (i := i) hs d.flank 1 (.start hstart hs) hchoose
  obtain ⟨htarget, hclaimed⟩ := hclaims (m - 1) f a t hf hc
  rw [Nat.add_sub_cancel' hm] at hclaimed
  exact ⟨htarget, hclaimed.grow (.of_claims (claims_of_ties (applyReservation_ties s i d choices)))⟩

/-- A flank choice CLAIMED is one with a target. -/
theorem choice_of_claimed {m : Nat} {c : FlankChoice} (h : (choices.map choiceOf)[m]? = some c) (hc : c.status = .claimed) :
    ∃ t, choices[m]? = some (c.alternative, some t) := by
  rw [List.getElem?_map, Option.map_eq_some_iff] at h
  obtain ⟨⟨a, x⟩, hx, rfl⟩ := h
  cases x with
  | none => cases hc
  | some t => exact ⟨t, hx⟩

theorem applyReservation_flank (s : State) (i : Nat) (d : RouteDef) (choices : List (Nat × Option FlankTarget)) :
    (s.applyReservation i d choices).flank = choices.map choiceOf := by rw [applyReservation_rows]

theorem reserve_locks {r : Reserved} (hi : s.inst i = none) (hn : noTwice (routeElements d) = true)
    (h : s.reserve i d = .ok r) :
    r.state.Holds i d
    ∧ (s.Sound → ∀ m f c, 1 ≤ m → d.flank[m - 1]? = some f → r.flank[m - 1]? = some c → c.status = .claimed →
      ∃ t n y, chosenTarget f c.alternative = some t ∧ r.state.flankRef (FlankTarget.elem t) = some n
        ∧ r.state.fctEntry n = some y ∧ y.required = FlankTarget.required t ∧ .route i m ∈ y.claimants) := by
  obtain ⟨choices, ht, rfl⟩ := testItems_of_reserve h
  refine ⟨applyReservation_holds hi hn ht, fun hs m f c hm hf hc hclaimed => ?_⟩
  rw [applyReservation_flank] at hc
  obtain ⟨t, hat⟩ := choice_of_claimed hc hclaimed
  obtain ⟨htarget, n, y, hn, hy, hreq, hmem⟩ := applyReservation_claimed hi ht hs hm hf hat
  exact ⟨t, n, y, htarget, hn, hy, hreq, hmem⟩

theorem applyReservation_waiting (s : State) (i : Nat) (d : RouteDef) (choices : List (Nat × Option FlankTarget)) :
    (s.applyReservation i d choices).waiting = s.outstanding d choices := by rw [applyReservation_rows]

theorem throwClaimed_rows (s : State) : (∀ e, s.throwClaimed (.signal e) = s)
    ∧ ∀ e q, (s.inState (.point e q) = true → s.throwClaimed (.point e q) = s)
      ∧ (s.inState (.point e q) = false → s.throwClaimed (.point e q) = (s.throwRequest e q false).1) :=
  ⟨fun _ => rfl, fun _ _ => ⟨fun h => if_pos h, fun h => if_neg (by simp [h])⟩⟩

theorem askItem_rows (s : State) (i m : Nat) (f : FlankItem) :
    (∀ t, f.primary = .claim t → State.askItem i s (m, f) = s)
    ∧ ∀ b ref, f.primary = .boundary b ref → State.askItem i s (m, f) = s.askAssurance b ref i m := by
  unfold State.askItem
  exact ⟨fun t h => by simp only [h], fun b ref h => by simp only [h]⟩

/-- Settles O31: what a reservation locks and claims, its effects and its outstanding list, the rules of each effect, the
claim conditions, the alternative chosen and the late substitution. -/
theorem aReservationLocksEveryItem : Obligations.AReservationLocksEveryItem := by
  refine ⟨fun s i d r hi hn h => ?_, fun s i d choices => ⟨reserve_of_testItems, ?_, applyReservation_flank s i d choices, ?_,
      needsDirection_iff d, mem_transferOwners s d, nodup_transferOwners s d, mem_askedItems d choices, askedItems_rising d choices⟩,
    fun s e f => ?_, lockItem_rows, transferRest_rows, fun s i m n t => ⟨rfl, rfl⟩, throwClaimed_rows, fun s e => inState_iff e,
    askItem_rows, fun s b ref i m => askAssurance_rows s b ref i m, fun s e neighbour => ⟨fun p q hp => claimOk_point q neighbour hp,
      fun g hg => claimOk_signal neighbour hg⟩,
    fun s c t => ⟨fun n he hr hn hf hl => takeClaim_new c t n he hr hn hf hl, fun n f hr hf => takeClaim_joins c t n f hr hf⟩,
    fun s chosen f => chooseFlank_rows chosen f, fun s i m r d f h hl ha hf => lateSubstitute_rows h hl ha hf⟩
  · obtain ⟨hholds, hclaims⟩ := reserve_locks hi hn h
    exact ⟨hholds.entry, hholds.exit, hholds.path, hholds.overlap, hclaims⟩
  · exact congrArg Reserved.state (applyReservation_rows s i d choices)
  · rw [applyReservation_waiting]
    simp only [State.outstanding, beq_iff_eq] <;> rfl
  · obtain ⟨hsignal, hboundary, hother⟩ := setEntry_rows (s := s) e f
    obtain ⟨hsignal', hboundary', hother'⟩ := setExit_rows (s := s) e f
    exact ⟨fun g hg => ⟨hsignal g hg, hsignal' g hg⟩, fun b hb => ⟨hboundary b hb, hboundary' b hb⟩,
      fun x hx => ⟨hother x hx, hother' x hx⟩⟩

end Sys2Proof.Machine
end

section
/-! The AOU record stands: what the drives, the signal commands, the evaluator and the bus leave of it (R163). -/
namespace Sys2Proof.Machine
variable (s : State)

/-- What a walk leaves of the AOU. -/
theorem aou_of_walk {s t : State} (h : Walk (fun _ => True) s t) : t.aou = s.aou := aou_of_desk h.desk

@[simp] theorem modBlc_aou (b : BLink) (f : Blc → Blc) : (s.modBlc b f).aou = s.aou := putBlc_aou s b _

/-! ### Points (R30 to R36) -/

@[simp] theorem writePoint_aou (e : Nat) (p : PointRec) : (s.writePoint e p).aou = s.aou := by
  unfold State.writePoint
  split <;> simp

@[simp] theorem modPoint_aou (e : Nat) (f : PointRec → PointRec) : (s.modPoint e f).aou = s.aou := by
  unfold State.modPoint
  split <;> simp

@[simp] theorem failPoint_aou (e : Nat) : (s.failPoint e).aou = s.aou := aou_of_walk (.failPoint e .refl)
@[simp] theorem dropNext_aou (e : Nat) : (s.dropNext e).aou = s.aou := modPoint_aou s e _
@[simp] theorem enqueueThrow_aou (e : Nat) (q : Pos) : (s.enqueueThrow e q).aou = s.aou := aou_of_walk (.enqueueThrow e q .refl)
@[simp] theorem withdrawDrive_aou (e : Nat) : (s.withdrawDrive e).aou = s.aou := aou_of_walk (.withdrawDrive e .refl)
@[simp] theorem attemptEnds_aou (e : Nat) (d : Drive) : (s.attemptEnds e d).aou = s.aou := aou_of_walk (.attemptEnds e d .refl)
@[simp] theorem completeDrive_aou (e : Nat) (d : Drive) : (s.completeDrive e d).aou = s.aou :=
  aou_of_walk (.completeDrive e d .refl)
@[simp] theorem throwRequest_aou (e : Nat) (q : Pos) (o : Bool) : (s.throwRequest e q o).1.aou = s.aou :=
  aou_of_walk (.throwRequest e q o .refl)

@[simp] theorem pauseDrive_aou (e : Nat) : (s.pauseDrive e).aou = s.aou := by
  unfold State.pauseDrive
  repeat' split
  all_goals simp

@[simp] theorem resumeDrive_aou (e : Nat) : (s.resumeDrive e).aou = s.aou := by
  unfold State.resumeDrive
  dsimp only
  repeat' split
  all_goals simp

@[simp] theorem pduReport_aou (e : Nat) (d : PduDetection) (loc : Bool) : (s.pduReport e d loc).aou = s.aou := by
  unfold State.pduReport
  dsimp only
  repeat' split
  all_goals simp

@[simp] theorem throwAcked_aou (e : Nat) : (s.throwAcked e).aou = s.aou := by
  unfold State.throwAcked
  repeat' split
  all_goals simp

@[simp] theorem throwFailed_aou (e : Nat) (r : Option RejectReason) : (s.throwFailed e r).aou = s.aou := by
  unfold State.throwFailed
  repeat' split
  all_goals simp

@[simp] theorem pduUnreachable_aou (e : Nat) : (s.pduUnreachable e).aou = s.aou := by simp [State.pduUnreachable]

/-! ### Signals (R37 to R41) -/

@[simp] theorem writeSignal_aou (e : Nat) (g : SignalRec) : (s.writeSignal e g).aou = s.aou := by
  unfold State.writeSignal
  split <;> simp

@[simp] theorem modSignal_aou (e : Nat) (f : SignalRec → SignalRec) : (s.modSignal e f).aou = s.aou := by
  unfold State.modSignal
  split <;> simp

@[simp] theorem dropCmd_aou (e : Nat) : (s.dropCmd e).aou = s.aou := putCmd_aou s e _
@[simp] theorem enqueueStop_aou (e : Nat) : (s.enqueueStop e).aou = s.aou := aou_of_walk (.enqueueStop e .refl)
@[simp] theorem proceedFails_aou (e : Nat) : (s.proceedFails e).aou = s.aou := aou_of_walk (.proceedFails e .refl)

@[simp] theorem sduReport_aou (e : Nat) (a : SduAspect) (lamp : Bool) : (s.sduReport e a lamp).aou = s.aou := by
  unfold State.sduReport
  dsimp only
  repeat' split
  all_goals simp

@[simp] theorem sduUnreachable_aou (e : Nat) : (s.sduUnreachable e).aou = s.aou := by
  unfold State.sduUnreachable
  dsimp only
  repeat' split
  all_goals simp

@[simp] theorem stopAnswered_aou (e : Nat) : (s.stopAnswered e).aou = s.aou := by
  unfold State.stopAnswered
  repeat' split
  all_goals simp

@[simp] theorem stopFailed_aou (e : Nat) : (s.stopFailed e).aou = s.aou := by simp [State.stopFailed]

@[simp] theorem showProceedFailed_aou (e : Nat) : (s.showProceedFailed e).aou = s.aou := by
  unfold State.showProceedFailed
  split <;> simp

/-! ### Sections and detection points (R15, R46 to R58) -/

@[simp] theorem retestTrigger_aou : s.retestTrigger.aou = s.aou := aou_of_walk (.retestTrigger .refl)

@[simp] theorem writeTrack_aou (e : Nat) (t : TrackRec) : (s.writeTrack e t).aou = s.aou := by
  unfold State.writeTrack
  refine (foldl_keeps _ State.aou (fun acc b => ?_) _).trans (putElem_aou s e _)
  split <;> simp

@[simp] theorem failPoints_aou (l : List Nat) : (l.foldl (fun s q => s.failPoint q) s).aou = s.aou :=
  foldl_keeps _ State.aou (fun s q => failPoint_aou s q) l

@[simp] theorem sectionChange_aou (e : Nat) (o : Occ) : (s.sectionChange e o).aou = s.aou := by
  unfold State.sectionChange
  dsimp only
  repeat' split
  all_goals simp

@[simp] theorem writeDp_aou (d : Nat) (old new : DpRec) : (s.writeDp d old new).aou = s.aou := by
  unfold State.writeDp
  dsimp only
  split
  · simp
  · exact (foldl_keeps _ State.aou (fun _ _ => mark_aou _ _) _).trans (putDp_aou s d new)

theorem disturbBorder_aou (d : Nat) (acc : State × List (Nat × Occ)) (b : Nat × Orient) :
    (State.disturbBorder d acc b).1.aou = acc.1.aou := by
  unfold State.disturbBorder
  repeat' split
  all_goals simp

@[simp] theorem failDp_aou (d : Nat) (old : DpRec) (c : DpCause) (l : Option (Byte × Byte)) :
    (s.failDp d old c l).1.aou = s.aou :=
  (foldl_fst_keeps State.aou (disturbBorder_aou d) _ _).trans (writeDp_aou s d old _)

@[simp] theorem chReport_aou (d m : Nat) (a b : Byte) (f : Bool) : (s.chReport d m a b f).1.aou = s.aou := by
  unfold State.chReport
  dsimp only
  repeat' split
  all_goals simp

@[simp] theorem chUnreachable_aou (d : Nat) : (s.chUnreachable d).1.aou = s.aou := by
  unfold State.chUnreachable
  repeat' split
  all_goals simp

theorem evaluateSection_aou (acc : State × List (Nat × Occ)) (e : Nat) :
    (State.evaluateSection acc e).1.aou = acc.1.aou := by
  unfold State.evaluateSection
  split <;> simp

@[simp] theorem roundComplete_aou : s.roundComplete.1.aou = s.aou := by
  unfold State.roundComplete
  generalize List.range Config.elementCount = l
  exact foldl_fst_keeps State.aou evaluateSection_aou l (s, [])

/-! ### The bus (R22 to R28) -/

@[simp] theorem settle_aou : s.settle.aou = s.aou := aou_of_desk (settle_desk s)

@[simp] theorem handOver1_aou (c : List (Nat × Occ)) (p : Nat × Bool) : (handOver1 c s p).aou = s.aou := by
  unfold handOver1
  dsimp only
  repeat' split
  all_goals simp

@[simp] theorem handChanges_aou (o : Schedule) (c : List (Nat × Occ)) : (s.handChanges o c).aou = s.aou := by
  unfold State.handChanges
  exact (foldl_keeps _ State.aou (fun s (c : Nat × Occ) => sectionChange_aou s c.1 c.2) _).trans
    (foldl_keeps _ State.aou (fun s p => handOver1_aou s c p) o)

@[simp] theorem putUnit_aou (u : UnitRow) : (s.putUnit u).aou = s.aou := rfl
@[simp] theorem freeBus_aou : s.freeBus.aou = s.aou := rfl
@[simp] theorem dequeue_aou (a : Nat) : (s.dequeue a).aou = s.aou := rfl
@[simp] theorem setCmdMisses_aou (a n : Nat) : (s.setCmdMisses a n).aou = s.aou := rfl

@[simp] theorem startCommand_aou : s.startCommand.aou = s.aou := by
  unfold State.startCommand
  repeat' split
  all_goals simp

@[simp] theorem nextPoll_aou (o : Schedule) : (s.nextPoll o).aou = s.aou := by
  unfold State.nextPoll
  dsimp only
  split <;> simp

@[simp] theorem startRound_aou : s.startRound.aou = s.aou := by
  unfold State.startRound
  dsimp only
  repeat' split
  all_goals simp

@[simp] theorem betweenRounds_aou : s.betweenRounds.aou = s.aou := by
  unfold State.betweenRounds
  split <;> simp

@[simp] theorem unitLost_aou (o : Schedule) (u : UnitRow) : (s.unitLost o u).aou = s.aou := by
  unfold State.unitLost
  dsimp only
  split <;> simp

@[simp] theorem missed_aou (o : Schedule) (a : Nat) : (s.missed o a).aou = s.aou := by
  unfold State.missed
  dsimp only
  repeat' split
  all_goals simp

@[simp] theorem handReport_aou (o : Schedule) (u : UnitRow) (x : AnswerBody) : (s.handReport o u x).aou = s.aou := by
  unfold State.handReport
  dsimp only
  split <;> simp

@[simp] theorem goodPoll_aou (o : Schedule) (u : UnitRow) (x : AnswerBody) : (s.goodPoll o u x).aou = s.aou := by
  unfold State.goodPoll
  dsimp only
  split <;> simp

@[simp] theorem afterPoll_aou (o : Schedule) : (s.afterPoll o).aou = s.aou := by
  unfold State.afterPoll
  repeat' split
  all_goals simp

@[simp] theorem afterCommand_aou (o : Schedule) : (s.afterCommand o).aou = s.aou := by
  unfold State.afterCommand
  split <;> simp

@[simp] theorem pollEnds_aou (a : Nat) (x : Option (List Byte)) (o : Schedule) : (s.pollEnds a x o).aou = s.aou := by
  unfold State.pollEnds
  dsimp only
  rw [afterPoll_aou]
  split <;> simp

@[simp] theorem commandAnswered_aou (u : UnitRow) (t : TrackTelegram) (f : Option (Option RejectReason)) :
    (s.commandAnswered u t f).aou = s.aou := by
  unfold State.commandAnswered
  split <;> simp

@[simp] theorem goodCommand_aou (u : UnitRow) (t : TrackTelegram) (n : Nat) (f : Option (Option RejectReason)) :
    (s.goodCommand u t n f).aou = s.aou := by
  unfold State.goodCommand
  dsimp only
  repeat' split
  all_goals simp

@[simp] theorem missedCommand_aou (o : Schedule) (a n : Nat) (t : TrackTelegram) : (s.missedCommand o a n t).aou = s.aou := by
  unfold State.missedCommand
  dsimp only
  repeat' split
  all_goals simp

@[simp] theorem commandEnds_aou (a : Nat) (t : TrackTelegram) (n : Nat) (x : Option (List Byte)) (o : Schedule) :
    (s.commandEnds a t n x o).aou = s.aou := by
  unfold State.commandEnds
  dsimp only
  rw [afterCommand_aou]
  split <;> simp

end Sys2Proof.Machine
end

section
/-! The AOU record stands: what the boundary links leave of it (R163). -/
namespace Sys2Proof.Machine
variable (s : State) (b : BLink)

theorem aou_of_books {s t : State} (h : t.books = s.books) : t.aou = s.aou := congrArg (fun x => x.2.2.1) h

@[simp] theorem sendNow_aou (x : BoundaryTelegram) : (s.sendNow b x).aou = s.aou := aou_of_walk (.sendNow b x .refl)
@[simp] theorem sendHeld_aou (x : BoundaryTelegram) : (s.sendHeld b x).aou = s.aou := aou_of_walk (.sendHeld b x .refl)
@[simp] theorem boundaryDrop_aou (r : Nat) : (s.boundaryDrop b r).aou = s.aou := aou_of_walk (.boundaryDrop b r .refl)
@[simp] theorem flankAsk_aou (r : Nat) : (s.flankAsk b r).1.aou = s.aou := aou_of_walk (.flankAsk b r .refl)
@[simp] theorem goodFrame_aou : (s.goodFrame b).aou = s.aou := aou_of_books (goodFrame_books s b)
@[simp] theorem enterSync_aou : (s.enterSync b).aou = s.aou := aou_of_books (enterSync_books s b)
@[simp] theorem resolve_aou (h : HoldingsBody) : (s.resolve b h).aou = s.aou := aou_of_books (resolve_books s b h)
@[simp] theorem askGiven_aou (a : OutAsk) : (s.askGiven b a).aou = s.aou := aou_of_books (askGiven_books s b a)

/-! ### Telegrams as they arrive (R165, R167) -/

@[simp] theorem badFrame_aou : (s.badFrame b).aou = s.aou := modBlc_aou s b _

theorem receive_aou (good : Bool) (act : State → State) (hact : ∀ t : State, (act t).aou = t.aou) :
    (s.receive b good act).aou = s.aou := by
  unfold State.receive
  repeat' split
  all_goals simp [hact]

theorem inUp_aou (act : State → State) (hact : ∀ t : State, (act t).aou = t.aou) : (s.inUp b act).aou = s.aou := by
  unfold State.inUp
  split <;> simp [hact]

theorem frameArrives_aou (bytes : List Byte) : (s.frameArrives b bytes).aou = s.aou := by
  unfold State.frameArrives
  split
  · exact receive_aou s b _ _ fun _ => rfl
  · exact receive_aou s b _ _ fun _ => rfl
  · rfl

/-! ### The link (R166 to R175) -/

theorem statusDue_aou : (s.statusDue b).aou = s.aou := by
  unfold State.statusDue
  split <;> simp

theorem status_aou (x : StatusBody) : (s.status b x).aou = s.aou := by
  unfold State.status
  dsimp only
  repeat' split
  all_goals simp

theorem holdings_aou (h : HoldingsBody) : (s.holdings b h).aou = s.aou := by
  unfold State.holdings
  split <;> simp

@[simp] theorem dropChange_aou : (s.dropChange b).aou = s.aou := by
  unfold State.dropChange
  dsimp only
  split <;> simp

@[simp] theorem goDown_aou : (s.goDown b).aou = s.aou := by
  unfold State.goDown
  simp

theorem silence_aou : (s.silence b).aou = s.aou := by
  unfold State.silence
  split <;> simp

@[simp] theorem judgeDirAsk_aou (w : Bool) : (s.judgeDirAsk b w).aou = s.aou := by
  unfold State.judgeDirAsk
  split <;> simp

theorem dirAsk_aou : (s.dirAsk b).aou = s.aou := by
  unfold State.dirAsk
  repeat' split
  all_goals simp

theorem dirGive_aou : (s.dirGive b).aou = s.aou := by
  unfold State.dirGive
  split <;> simp

theorem dirRefuse_aou : (s.dirRefuse b).aou = s.aou := by
  unfold State.dirRefuse
  split <;> simp

theorem dirTimeout_aou : (s.dirTimeout b).aou = s.aou := by
  unfold State.dirTimeout
  dsimp only
  repeat' split
  all_goals simp

@[simp] theorem askDirection_aou : (s.askDirection b).aou = s.aou := by simp [State.askDirection]

@[simp] theorem requestDirection_aou : (s.requestDirection b).aou = s.aou := by
  unfold State.requestDirection
  split <;> simp

/-! ### Acceptance and flank assurance (R114, R177 to R183) -/

theorem acceptAsk_aou (r : Nat) : (s.acceptAsk b r).aou = s.aou := by
  unfold State.acceptAsk
  split <;> simp

theorem acceptGive_aou (r : Nat) : (s.acceptGive b r).aou = s.aou := by
  unfold State.acceptGive
  repeat' split
  all_goals simp

@[simp] theorem askRefused_aou (a : OutAsk) : (s.askRefused b a).aou = s.aou := by simp [State.askRefused]

theorem acceptRefuse_aou (r : Nat) : (s.acceptRefuse b r).aou = s.aou := by
  unfold State.acceptRefuse
  split <;> simp

theorem acceptTimeout_aou (i : Nat) : (s.acceptTimeout b i).aou = s.aou := by
  unfold State.acceptTimeout
  split <;> simp

theorem acceptWithdraw_aou (r : Nat) : (s.acceptWithdraw b r).aou = s.aou := by
  unfold State.acceptWithdraw
  repeat' split
  all_goals simp

theorem trainHanded_aou (r : Nat) : (s.trainHanded b r).aou = s.aou := modBlc_aou s b _

theorem acceptEnd_aou (r : Nat) : (s.acceptEnd b r).aou = s.aou := modBlc_aou s b _

theorem takeFlankAsk_aou (r : Nat) : (s.takeFlankAsk b r).aou = s.aou := by simp [State.takeFlankAsk]

theorem flankGive_aou (r : Nat) : (s.flankGive b r).aou = s.aou := by
  unfold State.flankGive
  repeat' split
  all_goals simp

@[simp] theorem assuranceFails_aou (a : Assurance) : (s.assuranceFails b a).aou = s.aou := by simp [State.assuranceFails]

theorem flankRefuse_aou (r : Nat) : (s.flankRefuse b r).aou = s.aou := by
  unfold State.flankRefuse
  split <;> simp

theorem flankTimeout_aou (i m : Nat) : (s.flankTimeout b i m).aou = s.aou := by
  unfold State.flankTimeout
  split <;> simp

theorem releaseHoldings_aou : (s.releaseHoldings b).aou = s.aou := by
  unfold State.releaseHoldings
  simp only [mark_aou, modBlc_aou]
  exact (foldl_keeps _ State.aou (fun s r => boundaryDrop_aou s b r) _).trans (by simp)

end Sys2Proof.Machine
end

section
/-! The AOU record stands: what the requests, the Authority Map and the operator links leave of it (R163). -/
namespace Sys2Proof.Machine
variable (s : State)

/-! ### Reservations (R11, R70 to R74) -/

theorem locked_aou (i : Nat) (d : RouteDef) : (s.locked i d).aou = s.aou := aou_of_desk (locked_smalls s i d).desk

theorem transferRest_aou (o : Nat) : (s.transferRest o).aou = s.aou := aou_of_desk (Smalls.transferRest o .refl).desk

theorem claimItem_aou (i : Nat) (p : Nat × (Nat × Option FlankTarget)) : (State.claimItem i s p).aou = s.aou :=
  aou_of_walk (.claimItem i p .refl)

theorem throwClaimed_aou (t : FlankTarget) : (s.throwClaimed t).aou = s.aou := aou_of_walk (.throwClaimed t .refl)

theorem askItem_aou (i : Nat) (p : Nat × FlankItem) : (State.askItem i s p).aou = s.aou := aou_of_walk (.askItem i p .refl)

@[simp] theorem applyReservation_aou (i : Nat) (d : RouteDef) (c : List (Nat × Option FlankTarget)) :
    (s.applyReservation i d c).state.aou = s.aou := by
  have hlocked := locked_aou s i d
  unfold State.locked at hlocked
  have htransferred := (foldl_keeps _ State.aou transferRest_aou (s.transferOwners d)).trans hlocked
  have hclaimed := (foldl_keeps _ State.aou (claimItem_aou · i) (indexFrom1 c)).trans htransferred
  have hthrown := (foldl_keeps _ State.aou (f := State.throwReq) (fun s _ => throwClaimed_aou s _)
    ((d.path ++ d.overlap.toList).flatMap PathItem.points)).trans hclaimed
  have hreached := (foldl_keeps _ State.aou throwClaimed_aou (c.filterMap Prod.snd)).trans hthrown
  unfold State.applyReservation
  dsimp only
  refine (foldl_keeps _ State.aou (askItem_aou · i) _).trans ?_
  split
  · exact (requestDirection_aou _ _).trans hreached
  · exact hreached

theorem reserve_aou {i : Nat} {d : RouteDef} {r : Reserved} (h : s.reserve i d = .ok r) : r.state.aou = s.aou := by
  obtain ⟨c, _, rfl⟩ := testItems_of_reserve h
  exact applyReservation_aou s i d c

theorem tryVariants_aou (o : Origin) (i : Nat) (ds : List RouteDef) (first : Option Nat) {j : Nat} {d : RouteDef} {t : State}
    (h : s.tryVariants o i ds first = .reserved j d t) : t.aou = s.aou := by
  induction ds generalizing first with
  | nil => cases h
  | cons x ds ih =>
    unfold State.tryVariants at h
    split at h
    · rename_i hr
      cases h
      exact (putInst_aou _ _ _).trans (reserve_aou s hr)
    · exact ih _ h

theorem tryRoute_aou {o : Origin} {ds : List RouteDef} {j : Nat} {d : RouteDef} {t : State}
    (h : s.tryRoute o ds = .reserved j d t) : t.aou = s.aou := by
  unfold State.tryRoute at h
  split at h
  · cases h
  · exact tryVariants_aou s _ _ _ _ h

/-! ### Route requests and the store (R67 to R78, R136 to R146) -/

@[simp] theorem checkWaiting_aou (i : Nat) : (s.checkWaiting i).aou = s.aou := aou_of_walk (.checkWaiting i .refl)
@[simp] theorem nextRetest_aou : s.nextRetest.aou = s.aou := aou_of_walk (.nextRetest .refl)
@[simp] theorem endPass_aou : s.endPass.aou = s.aou := aou_of_walk (.endPass .refl)

@[simp] theorem removeEntry_aou (e : StoreEntry) (w : RemovalReason) : (s.removeEntry e w).aou = s.aou := rfl

@[simp] theorem handOff_aou (l : OpLink) (r a : Nat) (t : Ticks) : (s.handOff l r a t).1.aou = s.aou := by
  unfold State.handOff
  repeat' split
  all_goals rfl

@[simp] theorem rimRoute_aou (l : OpLink) (e x : Nat) (f : Bool) (n : Nat) : (s.rimRoute l e x f n).1.aou = s.aou := by
  unfold State.rimRoute
  split
  · rfl
  · split
    · rfl
    · split
      case h_1 ht => exact (checkWaiting_aou _ _).trans (tryRoute_aou s ht)
      all_goals split <;> simp

@[simp] theorem reachRim_aou (l : OpLink) (q : Word16) (e x : Nat) (f : Bool) (n : Nat) :
    (s.reachRim l q e x f n).1.aou = s.aou := by
  unfold State.reachRim
  repeat' split
  all_goals simp

@[simp] theorem putSel_aou (l : OpLink) (v : Option Selection) : (s.putSel l v).aou = s.aou := by
  unfold State.putSel
  split <;> rfl

@[simp] theorem pressed_aou (l : OpLink) (q : Word16) (e : Nat) : (s.pressed l q e).1.aou = s.aou := by
  unfold State.pressed State.pressFirst State.pressSecond State.select
  dsimp only
  repeat' split
  all_goals simp

@[simp] theorem answer_aou (l : OpLink) (q : Word16) (x : ReplyBody) : (s.answer l q x).aou = s.aou := modOlc_aou s l _

@[simp] theorem answerHeld_aou (l : OpLink) (q : Word16) (x : ReplyBody) : (s.answerHeld l q x).aou = s.aou := by
  simp [State.answerHeld]

theorem takeWaitingRoute_aou {l : OpLink} {t : State} (h : s.takeWaitingRoute l = some t) : t.aou = s.aou := by
  unfold State.takeWaitingRoute at h
  split at h
  · split at h
    · cases h
      simp
    · cases h
  · cases h

@[simp] theorem answerCancel_aou (e : StoreEntry) (x : ReplyBody) : (s.answerCancel e x).aou = s.aou := by
  unfold State.answerCancel
  split <;> simp

@[simp] theorem putBack_aou (e : StoreEntry) : (s.putBack e).aou = s.aou := by
  unfold State.putBack
  repeat' split
  all_goals simp

@[simp] theorem retest_aou (n : Nat) : (s.retest n).aou = s.aou := by
  unfold State.retest
  split
  · simp
  · dsimp only
    split
    case h_1 ht => simpa using tryRoute_aou _ ht
    all_goals simp

theorem takeRetest_aou : s.takeRetest.aou = s.aou := by
  unfold State.takeRetest
  split <;> simp

theorem takeIncoming_aou : s.takeIncoming.aou = s.aou := by
  unfold State.takeIncoming
  split
  · dsimp only
    split
    case h_1 ht => simpa using tryRoute_aou _ ht
    all_goals simp
  · rfl

theorem lifetimeExpires_aou (n : Nat) : (s.lifetimeExpires n).aou = s.aou := by
  unfold State.lifetimeExpires
  repeat' split
  all_goals rfl

/-! ### Control areas (R148 to R153) -/

@[simp] theorem clearSelection_aou (l : OpLink) (a : Nat) : (s.clearSelection l a).aou = s.aou := by
  unfold State.clearSelection
  repeat' split
  all_goals simp

@[simp] theorem dropAuthority_aou (l : OpLink) (a : Nat) : (s.dropAuthority l a).aou = s.aou :=
  foldl_keeps _ State.aou (fun s e => removeEntry_aou s e _) _

@[simp] theorem changeHolder_aou (a : Nat) (h : Holder) : (s.changeHolder a h).aou = s.aou := by
  unfold State.changeHolder
  dsimp only
  split <;> simp

theorem takeArea_aou (l : OpLink) (a : Nat) : (s.takeArea l a).1.aou = s.aou := by
  unfold State.takeArea
  dsimp only
  repeat' split
  all_goals simp

theorem offerArea_aou (l : OpLink) (a : Nat) : (s.offerArea l a).1.aou = s.aou := by
  unfold State.offerArea
  repeat' split
  all_goals simp

theorem returnArea_aou (l : OpLink) (a : Nat) : (s.returnArea l a).1.aou = s.aou := by
  unfold State.returnArea
  repeat' split
  all_goals simp

/-! ### Auxiliary operations and the scrub (R18, R161 to R164) -/

@[simp] theorem putAux_aou (l : OpLink) (a : Option PendingAux) : (s.putAux l a).aou = s.aou := rfl

theorem issueAux_aou (l : OpLink) (k o : Nat) : (s.issueAux l k o).1.aou = s.aou := by
  unfold State.issueAux
  repeat' split
  all_goals rfl

theorem writeCounters_aou : s.writeCounters.aou = s.aou := by
  unfold State.writeCounters
  split <;> rfl

/-- The end of a counter write may write the fault flag, and never a counter. -/
theorem writeEnds_counters (back : Option AouCounters) : (s.writeEnds back).aou.counters = s.aou.counters := by
  unfold State.writeEnds
  dsimp only
  repeat' split
  all_goals simp [writeCounters_aou]

@[simp] theorem rebuildSuspect_aou (e : Nat) : (s.rebuildSuspect e).aou = s.aou := by
  unfold State.rebuildSuspect
  dsimp only
  rw [notify_aou]
  split <;> simp

theorem scrubRecord_aou (f : ScrubResult) : (s.scrubRecord f).aou = s.aou := by
  unfold State.scrubRecord
  dsimp only
  repeat' split
  all_goals simp

theorem scrubStep_aou (f : ScrubResult) : (s.scrubStep f).aou = s.aou := by
  unfold State.scrubStep
  split
  · exact scrubRecord_aou s f
  · rfl

/-! ### Operator links (R154 to R160) -/

theorem takeRequest_aou (l : OpLink) (pick : Request → Bool) (act : State → Telegram → State × Option ReplyBody)
    (hact : ∀ t x, (act t x).1.aou = t.aou) : (s.takeRequest l pick act).aou = s.aou := by
  unfold State.takeRequest
  dsimp only
  repeat' split
  all_goals simp [hact]

theorem arrive_aou (l : OpLink) (bytes : List Byte) : (s.arrive l bytes).aou = s.aou := modOlc_aou s l _

theorem transmitReply_aou (l : OpLink) : (s.transmitReply l).aou = s.aou := by
  unfold State.transmitReply
  split <;> simp

theorem sendIndication_aou (l : OpLink) : (s.sendIndication l).aou = s.aou := by
  unfold State.sendIndication
  dsimp only
  repeat' split
  all_goals simp

@[simp] theorem modInst_aou (i : Nat) (f : Inst → Inst) : (s.modInst i f).aou = s.aou := by
  unfold State.modInst
  split <;> simp

@[simp] theorem releaseAll_aou (i : Nat) : (s.releaseAll i).aou = s.aou := aou_of_walk (.releaseAll i .refl)
@[simp] theorem stopEntry_aou (d : RouteDef) : (s.stopEntry d).aou = s.aou := aou_of_walk (.stopEntry d .refl)
@[simp] theorem clearingPasses_aou (i : Nat) (r : Inst) (d : RouteDef) : (s.clearingPasses i r d).aou = s.aou :=
  aou_of_walk (.clearingPasses i r d .refl)

theorem cancelRoute_aou (l : OpLink) (e : Nat) : (s.cancelRoute l e).1.aou = s.aou := by
  unfold State.cancelRoute
  dsimp only
  repeat' split
  all_goals simp

theorem reClear_aou (l : OpLink) (e : Nat) : (s.reClear l e).1.aou = s.aou := by
  unfold State.reClear
  repeat' split
  all_goals simp

theorem storeCancel_aou (l : OpLink) (n : Nat) (q : Word16) : (s.storeCancel l n q).1.aou = s.aou := by
  unfold State.storeCancel
  dsimp only
  repeat' split
  all_goals simp

theorem stopArea_aou (l : OpLink) (a : Nat) : (s.stopArea l a).1.aou = s.aou := by
  unfold State.stopArea
  repeat' split
  · rfl
  · rfl
  · exact foldl_keeps _ State.aou (fun s i => aou_of_desk (stopInst_desk a s i)) _

theorem pointThrow_aou (l : OpLink) (e : Nat) (q : Pos) : (s.pointThrow l e q).1.aou = s.aou := by
  unfold State.pointThrow
  dsimp only
  repeat' split
  all_goals simp

theorem pointReset_aou (l : OpLink) (e : Nat) : (s.pointReset l e).1.aou = s.aou := by
  unfold State.pointReset
  repeat' split
  all_goals simp

theorem signalReset_aou (l : OpLink) (e : Nat) : (s.signalReset l e).1.aou = s.aou := by
  unfold State.signalReset
  repeat' split
  all_goals simp

theorem setBlock_aou (l : OpLink) (e : Nat) (v : Bool) : (s.setBlock l e v).1.aou = s.aou := by
  unfold State.setBlock
  dsimp only
  repeat' split
  all_goals simp

theorem setOpen_aou (l : OpLink) (e : Nat) (v : Bool) : (s.setOpen l e v).1.aou = s.aou := by
  unfold State.setOpen
  repeat' split
  all_goals simp

theorem dirRequest_aou (l : OpLink) (e : Nat) : (s.dirRequest l e).1.aou = s.aou := by
  unfold State.dirRequest
  repeat' split
  all_goals simp

theorem clearCounters_aou (l : OpLink) : (s.clearCounters l).aou = s.aou := by
  unfold State.clearCounters
  dsimp only
  exact (foldl_keeps _ State.aou (fun s b => modBlc_aou s b _) blinks).trans rfl

theorem snapshot_aou (l : OpLink) : (s.snapshot l).aou = s.aou := foldl_keeps _ State.aou (fun s o => markAt_aou s l o) _

end Sys2Proof.Machine
end

section
/-! O60: the catalogue stands, and the auxiliary counters never fall between two cold starts. -/
namespace Sys2Proof.Machine
variable (s : State)

/-! ### The auxiliary counters (R163) -/

theorem satInc_ge (v : Word16) : v.toNat ≤ (satInc v).toNat := by
  obtain ⟨hless, hfull⟩ := satInc_rows v
  rcases Nat.lt_or_ge v.toNat 65535 with h | h
  · rw [hless h, BitVec.toNat_add_of_lt (by simpa using Nat.succ_lt_succ h)]
    exact Nat.le_add_right _ _
  · have : v.toNat = 65535 := Nat.le_antisymm (Nat.le_of_lt_succ v.isLt) h
    rw [hfull this, this]
    exact Nat.le_refl _

/-- Counters that have not fallen: each kind's value is at least what it was, and the cold starts are the same. -/
def NotBelow (old new : AouCounters) : Prop :=
  old.emergencyRelease.value ≤ new.emergencyRelease.value ∧ old.sectionReset.value ≤ new.sectionReset.value
    ∧ old.suspectClear.value ≤ new.suspectClear.value ∧ old.authForce.value ≤ new.authForce.value
    ∧ old.boundaryRelease.value ≤ new.boundaryRelease.value ∧ new.coldStart = old.coldStart

theorem NotBelow.refl (c : AouCounters) : NotBelow c c :=
  ⟨BitVec.le_refl _, BitVec.le_refl _, BitVec.le_refl _, BitVec.le_refl _, BitVec.le_refl _, rfl⟩

theorem NotBelow.trans {a b c : AouCounters} (h : NotBelow a b) (k : NotBelow b c) : NotBelow a c := by
  obtain ⟨h1, h2, h3, h4, h5, h6⟩ := h
  obtain ⟨k1, k2, k3, k4, k5, k6⟩ := k
  exact ⟨BitVec.le_trans h1 k1, BitVec.le_trans h2 k2, BitVec.le_trans h3 k3, BitVec.le_trans h4 k4,
    BitVec.le_trans h5 k5, k6.trans h6⟩

theorem countAux_notBelow (c : AouCounters) (k : AuxKind) : NotBelow c (countAux c k) := by
  have hinc : ∀ v : SatCounter, v.value ≤ (incCounter v).value := fun v => satInc_ge v.value
  cases k <;> simp [NotBelow, countAux, hinc]

/-- A deed leaves the counters, or counts one operation. -/
theorem Deed.counters {κ : Bool} {s t : State} (h : Deed κ s t) : NotBelow s.aou.counters t.aou.counters := by
  have same : t.aou.counters = s.aou.counters → NotBelow s.aou.counters t.aou.counters := fun e => e ▸ .refl _
  cases h with
  | small h => exact same (congrArg Aou.counters (aou_of_desk h.desk))
  | counted _ k => exact countAux_notBelow _ k
  | _ => exact same (by simp [State.settleMarks])

/-- Every command but COLD_START and LOAD_COMPLETE leaves no counter below what it was. -/
theorem exec_notBelow {c : Instr} {s t : State} (h1 : c ≠ .coldStart) (h2 : ∀ m k, c ≠ .loadComplete m k)
    (h : exec c s = .next t) : NotBelow s.aou.counters t.aou.counters := by
  obtain ⟨t', e, w⟩ := exec_work c s h1 h2
  cases h.symm.trans e
  exact w.work.keeps (P := fun u => NotBelow s.aou.counters u.aou.counters) (fun _ _ k g => g.trans k.counters) (.refl _)

/-! ### Every command but AUX_CONFIRM leaves the counters -/

theorem finish_counters {s u : State} (h : u.aou.counters = s.aou.counters) :
    (State.finish s u).aou.counters = s.aou.counters := by
  rw [aou_of_desk (finish_desk s u), h]

theorem finish_counters_of_aou {s u : State} (h : u.aou = s.aou) : (State.finish s u).aou.counters = s.aou.counters :=
  finish_counters (congrArg Aou.counters h)

/-- A row of an operator link whose owner leaves the AOU record leaves the counters. -/
theorem runRequest_counters (l : OpLink) (pick : Request → Bool) (act : State → Telegram → State × Option ReplyBody)
    (hact : ∀ t x, (act t x).1.aou = t.aou) :
    ∃ t, runRequest l pick act s = .next t ∧ t.aou.counters = s.aou.counters :=
  ⟨_, rfl, finish_counters_of_aou (takeRequest_aou s l pick act hact)⟩

theorem exec_counters (c : Instr) (h1 : c ≠ .coldStart) (h2 : ∀ m k, c ≠ .loadComplete m k) (h3 : ∀ l, c ≠ .auxConfirm l) :
    ∃ t, exec c s = .next t ∧ t.aou.counters = s.aou.counters := by
  cases c with
  | coldStart => exact absurd rfl h1
  | loadComplete m k => exact absurd rfl (h2 m k)
  | auxConfirm l => exact absurd rfl (h3 l)
  | counterWriteComplete ok => exact ⟨_, rfl, finish_counters (writeEnds_counters s ok)⟩
  | scrubCheck f => exact ⟨_, rfl, finish_counters_of_aou (scrubStep_aou s f)⟩
  | roundStart => exact ⟨_, rfl, finish_counters_of_aou (startRound_aou s)⟩
  | commandExchangeStart => exact ⟨_, rfl, finish_counters_of_aou (betweenRounds_aou s)⟩
  | operatorTelegramArrival l f => exact ⟨_, rfl, finish_counters_of_aou (arrive_aou s l f)⟩
  | replyTransmit l => exact ⟨_, rfl, finish_counters_of_aou (transmitReply_aou s l)⟩
  | sendIndication l => exact ⟨_, rfl, finish_counters_of_aou (sendIndication_aou s l)⟩
  | retestRequest => exact ⟨_, rfl, finish_counters_of_aou (takeRetest_aou s)⟩
  | lifetimeTimerExpiry n => exact ⟨_, rfl, finish_counters_of_aou (lifetimeExpires_aou s n)⟩
  | incomingAcceptanceRequest => exact ⟨_, rfl, finish_counters_of_aou (takeIncoming_aou s)⟩
  | pollExchangeEnd x o | commandExchangeEnd x | exchangeAnswerTimeout o | supervisionTimerExpiry e
  | confirmationTimerExpiry e | selectionTimerExpiry l | auxWindowExpiry l | offerTimerExpiry n | forceTimerExpiry n
  | approachTimerExpiry i | emergencyTimerExpiry i | holdingsResponseTimerExpiry b =>
    refine ⟨_, rfl, finish_counters_of_aou ?_⟩
    repeat' split
    all_goals simp
  | settingTimerExpiry i =>
    refine ⟨_, rfl, finish_counters_of_aou ?_⟩
    repeat' split
    · exact aou_of_walk (.settingFails _ _ _ .refl)
    all_goals rfl
  | overlapTimerExpiry i =>
    refine ⟨_, rfl, finish_counters_of_aou ?_⟩
    repeat' split
    · refine (aou_of_walk (.tryFree _ .refl)).trans ((modInst_aou _ _ _).trans ?_)
      exact aou_of_walk (.releaseOverlap _ _ .refl)
    · exact (aou_of_walk (.recordOverrun _ .refl)).trans (modInst_aou _ _ _)
    all_goals rfl
  | releaseTimerExpiry b =>
    refine ⟨_, rfl, finish_counters_of_aou ?_⟩
    split
    · exact releaseHoldings_aou s b
    · rfl
  | setRoute l =>
    show ∃ t, execSetRoute l s = .next t ∧ _
    unfold execSetRoute
    split
    · rename_i ht
      exact ⟨_, rfl, finish_counters_of_aou (takeWaitingRoute_aou s ht)⟩
    · refine runRequest_counters s l _ _ fun t x => ?_
      split
      · exact reachRim_aou _ _ _ _ _ _ _
      · rfl
  | press l | cancelRoute l | reClear l | storeCancel l | stopArea l | pointThrow l | pointReset l | signalReset l | block l | unblock l | boundaryOpen l | boundaryClose l | dirRequest l | auxIssue l | authTake l | authOffer l | authReturn l =>
    refine runRequest_counters s l _ _ fun t x => ?_
    split
    · simp [atOnce, cancelRoute_aou, reClear_aou, storeCancel_aou, stopArea_aou, pointThrow_aou, pointReset_aou,
        signalReset_aou, setBlock_aou, setOpen_aou, dirRequest_aou, issueAux_aou, takeArea_aou, offerArea_aou, returnArea_aou]
    · rfl
  | unknownRequestKind l | readRoute l =>
    refine runRequest_counters s l _ _ fun t x => ?_
    (repeat' split) <;> rfl
  | readCounters l => exact runRequest_counters s l _ _ fun t _ => clearCounters_aou t l
  | snapshot l => exact runRequest_counters s l _ _ fun t _ => snapshot_aou t l
  | operatorRequestOnBoundary b k => exact ⟨_, rfl, finish_counters_of_aou (receive_aou s b _ _ fun t => sendNow_aou t b _)⟩
  | statusReceived b x => exact ⟨_, rfl, finish_counters_of_aou (receive_aou s b _ _ fun t => status_aou t b x)⟩
  | holdingsReceived b x => exact ⟨_, rfl, finish_counters_of_aou (receive_aou s b _ _ fun t => holdings_aou t b x)⟩
  | statusTimerExpiry b => exact ⟨_, rfl, finish_counters_of_aou (statusDue_aou s b)⟩
  | boundaryFrameDiscarded b f => exact ⟨_, rfl, finish_counters_of_aou (frameArrives_aou s b f)⟩
  | silenceTimerExpiry b => exact ⟨_, rfl, finish_counters_of_aou (silence_aou s b)⟩
  | dirResponseTimerExpiry b => exact ⟨_, rfl, finish_counters_of_aou (dirTimeout_aou s b)⟩
  | acceptResponseTimerExpiry b i => exact ⟨_, rfl, finish_counters_of_aou (acceptTimeout_aou s b i)⟩
  | flankResponseTimerExpiry b i m => exact ⟨_, rfl, finish_counters_of_aou (flankTimeout_aou s b i m)⟩
  | dirAskReceived b =>
    refine ⟨_, rfl, finish_counters_of_aou (receive_aou s b _ _ fun t => ?_)⟩
    split
    · rfl
    · exact sendNow_aou t b _
    · exact dirAsk_aou t b
  | acceptAskReceived b r =>
    refine ⟨_, rfl, finish_counters_of_aou (receive_aou s b _ _ fun t => ?_)⟩
    split
    · rfl
    · exact sendNow_aou t b _
    · exact acceptAsk_aou t b r
  | flankAskReceived b r =>
    refine ⟨_, rfl, finish_counters_of_aou (receive_aou s b _ _ fun t => ?_)⟩
    split
    · rfl
    · exact sendNow_aou t b _
    · exact takeFlankAsk_aou t b r
  | dirGiveReceived b =>
    exact ⟨_, rfl, finish_counters_of_aou (receive_aou s b _ _ fun t => inUp_aou t b _ fun t => dirGive_aou t b)⟩
  | dirRefuseReceived b =>
    exact ⟨_, rfl, finish_counters_of_aou (receive_aou s b _ _ fun t => inUp_aou t b _ fun t => dirRefuse_aou t b)⟩
  | acceptGiveReceived b r =>
    exact ⟨_, rfl, finish_counters_of_aou (receive_aou s b _ _ fun t => inUp_aou t b _ fun t => acceptGive_aou t b r)⟩
  | acceptRefuseReceived b r _ =>
    exact ⟨_, rfl, finish_counters_of_aou (receive_aou s b _ _ fun t => inUp_aou t b _ fun t => acceptRefuse_aou t b r)⟩
  | acceptWithdrawReceived b r =>
    exact ⟨_, rfl, finish_counters_of_aou (receive_aou s b _ _ fun t => inUp_aou t b _ fun t => acceptWithdraw_aou t b r)⟩
  | trainHandedReceived b r =>
    exact ⟨_, rfl, finish_counters_of_aou (receive_aou s b _ _ fun t => inUp_aou t b _ fun t => trainHanded_aou t b r)⟩
  | acceptEndReceived b r =>
    exact ⟨_, rfl, finish_counters_of_aou (receive_aou s b _ _ fun t => inUp_aou t b _ fun t => acceptEnd_aou t b r)⟩
  | flankGiveReceived b r =>
    exact ⟨_, rfl, finish_counters_of_aou (receive_aou s b _ _ fun t => inUp_aou t b _ fun t => flankGive_aou t b r)⟩
  | flankRefuseReceived b r =>
    exact ⟨_, rfl, finish_counters_of_aou (receive_aou s b _ _ fun t => inUp_aou t b _ fun t => flankRefuse_aou t b r)⟩
  | flankDropReceived b r =>
    refine ⟨_, rfl, finish_counters_of_aou (receive_aou s b _ _ fun t => ?_)⟩
    split
    · rfl
    · exact boundaryDrop_aou t b r

/-- Settles O60: every step is made of deeds, each of which leaves the counters or counts one operation. -/
theorem theCatalogueStandsAndTheCountersNeverFall : Obligations.TheCatalogueStandsAndTheCountersNeverFall := by
  unfold Obligations.TheCatalogueStandsAndTheCountersNeverFall
  intro c s t h1 h2 h
  refine ⟨exec_rcat h1 h2 h, ?_⟩
  obtain ⟨h3, h4, h5, h6, h7, h8⟩ := exec_notBelow h1 h2 h
  refine ⟨h3, h4, h5, h6, h7, h8, fun hc => ?_⟩
  obtain ⟨t', e, k⟩ := exec_counters s c h1 h2 hc
  cases h.symm.trans e
  exact k

end Sys2Proof.Machine
end
